-- ==== Sys2Proof/Word.lean ====
section
/-! DEFINITION. The word types and their plainest arithmetic (R3: bit 0 is the least significant bit). -/
namespace Sys2Proof

abbrev Byte := BitVec 8
abbrev W32 := BitVec 32
abbrev W64 := BitVec 64
/-- The contents of a lane register (R15). -/
abbrev Lane := BitVec 512
/-- A general register's number, g0 to g31 (R117). -/
abbrev Rg := BitVec 5

end Sys2Proof
end

