-- ==== Sys2Proof/Machine/Bits.lean ====
section
/-! DEFINITION. Bit fields, sign extension and byte order (R3: little-endian). -/
namespace Sys2Proof

/-- Bits [hi:lo] of a word as a number (R3). -/
def fld {n : Nat} (w : BitVec n) (hi lo : Nat) : Nat := w.toNat / 2 ^ lo % 2 ^ (hi + 1 - lo)

/-- A 32-bit offset or immediate sign-extended to 64 bits (R120). -/
def sext32 (w : W32) : W64 := w.signExtend 64

/-- The low `8 * n` bits of a number as `n` bytes, lowest first (R3). -/
def toBytes : Nat → Nat → List Byte
  | 0, _ => []
  | n + 1, v => BitVec.ofNat 8 v :: toBytes n (v / 256)

/-- The number that bytes hold, lowest first (R3). -/
def ofBytes : List Byte → Nat
  | [] => 0
  | b :: bs => b.toNat + 256 * ofBytes bs

/-- An unsigned number of `w` bits read as two's complement. -/
def toSigned (w v : Nat) : Int := if 2 * (v % 2 ^ w) < 2 ^ w then ((v % 2 ^ w : Nat) : Int) else ((v % 2 ^ w : Nat) : Int) - (2 ^ w : Nat)

/-- An integer wrapped to `w` bits, as an unsigned number. -/
def wrapTo (w : Nat) (v : Int) : Nat := (v % ((2 ^ w : Nat) : Int)).toNat

end Sys2Proof
end

