-- ==== Sys2Proof/Machine/Tables.lean ====
section
/-! DEFINITION. Finite tables and byte memories as plain data: lists of key and value pairs. -/
namespace Sys2Proof

/-- A table: key and value pairs in ascending keys. The first entry of a key counts. -/
abbrev Tbl (α : Type) := List (Nat × α)

namespace Tbl

/-- The value of a key, if the table lists it. -/
def find {α : Type} : Tbl α → Nat → Option α
  | [], _ => none
  | (k, v) :: t, n => if k = n then some v else find t n

/-- The value of a key, with what an unlisted key reads as. -/
def get {α : Type} (d : α) (t : Tbl α) (n : Nat) : α := (find t n).getD d

/-- The table with one value written. -/
def put {α : Type} : Tbl α → Nat → α → Tbl α
  | [], n, x => [(n, x)]
  | (k, v) :: t, n, x =>
    if k = n then (n, x) :: t else if n < k then (n, x) :: (k, v) :: t else (k, v) :: put t n x

/-- The table without one key. -/
def del {α : Type} (t : Tbl α) (n : Nat) : Tbl α := t.filter fun e => decide (e.1 ≠ n)

/-- Every listed value changed. -/
def mapV {α : Type} (f : Nat → α → α) (t : Tbl α) : Tbl α := t.map fun e => (e.1, f e.1 e.2)

/-- Keys strictly rise. -/
def sorted {α : Type} : Tbl α → Bool
  | [] => true
  | [_] => true
  | (k, _) :: (l, w) :: t => decide (k < l) && sorted ((l, w) :: t)

end Tbl

/-- A byte memory (Host.Cell pairs): an unlisted byte reads as 0. -/
abbrev Mem := List (Nat × Byte)

namespace Mem

/-- What an unlisted byte reads as. DESIGN CHOICE: 0 (log 3; unsafe: the spec gives no contents). -/
def blank : Byte := 0

/-- The canonical form: addresses strictly rise and no entry holds the unlisted value. -/
def wf (m : Mem) : Bool := Tbl.sorted m && m.all fun e => decide (e.2 ≠ blank)

def read (m : Mem) (a : Nat) : Byte := Tbl.get blank m a
def write (m : Mem) (a : Nat) (b : Byte) : Mem := if b = blank then Tbl.del m a else Tbl.put m a b

/-- `n` bytes from an address upward. -/
def load (m : Mem) (a : Nat) : Nat → List Byte
  | 0 => []
  | n + 1 => read m a :: load m (a + 1) n

/-- Bytes stored from an address upward. -/
def store (m : Mem) (a : Nat) : List Byte → Mem
  | [] => m
  | b :: bs => store (write m a b) (a + 1) bs

end Mem

end Sys2Proof
end

