-- ==== Sys2Proof/Config.lean ====
section
/-! DEFINITION. What the spec leaves to the implementation or leaves open: constants with no body (nothing can
evaluate them), each named in a log entry. -/
namespace Sys2Proof.Config

/-- The address space under which firmware's record rings and logs (R334, R404) are translated (log 15): the
spec names none. -/
opaque firmAsid : Nat

/-- A free choice, one for each use (log 9). -/
opaque freeBool : Nat → Bool

/-- A free number, one for each use (log 9). -/
opaque freeNat : Nat → Nat

/-- A free byte, one for each use (log 9). -/
opaque freeByte : Nat → Byte

/-- The seed, the randomiser's key and the starts of the chains of the identity key (R339, log 10): they are the device's own. -/
opaque identitySeed : List Byte
opaque identityRandom : List Byte
opaque identitySecret (key chain : Nat) : List Byte

/-- Limholt's XMSS root, which signs the identity key's certificate: seed, randomiser's key, starts of the chains and the index used
(R339, log 24). -/
opaque limholtSeed : List Byte
opaque limholtRandom : List Byte
opaque limholtSecret (key chain : Nat) : List Byte
opaque limholtIndex : Nat

/-- The peer module that a 32-byte peer entry names (R341, log 20): the spec gives the entry no layout. -/
opaque peerOf : List Byte → Nat

/-- The bytes of receive credits that a channel of a peer's port grants beyond 128 KiB (R340, log 20): the spec gives no number. -/
opaque moreCredits (peer port vc : Nat) : Nat

/-- The root key, and its digest that is fused into the I/O die (R336, log 10). -/
opaque rootPublic : List Byte
opaque rootKey : List Byte

/-- The bytes of a logical block of the drive (R337, log 24). -/
opaque lbaBytes : Nat

/-- Words 1 to 7 of the answer to VERSION (R324, log 24), by the version and the dies' steppings: the spec gives the contents no
layout. A stepping is a letter's place and a digit. -/
opaque versionWords (major minor : Nat) (steppings : List (Nat × Nat)) : List W64

/-- The operands in the argument words of CASTLE, END, BLOCK_FREE and TIMER_POST (R324, log 24), none where a reserved bit is
set: the spec gives these words no layout. -/
opaque castleArgs : List W64 → Option (Nat × Nat × Bool × Bool × Bool)
opaque endArgs : List W64 → Option (Nat × Nat)
opaque freeArgs : List W64 → Option (Nat × List Nat)
opaque timerArgs : List W64 → Option (W64 × W64 × Nat)

/-- What a plug-in asks for in its request page (R331, log 57): die, address space, service target, image policy. -/
opaque requestOf : List Byte → Nat × Nat × Option Nat × Option W64

/-- The digests of the boot ROM and of the fused state (R339, log 24), the latter by rollback counter and signature
index. -/
opaque romDigest : BitVec 512
opaque fusedDigest (counter index : Nat) : BitVec 512

/-- The address of an owner's or compute die's engine fault table in the configuration window (R393, log 24). -/
opaque faultTable (base : Bool) (n : Nat) : Nat

end Sys2Proof.Config
end

