-- ==== Sys2Proof/Machine/Shake.lean ====
section
/-! DEFINITION. SHAKE256, named by R29, R137, R332, R336 and R339. The spec names the function and gives no
algorithm: it is FIPS 202's (PRESUMED, log 11). -/
namespace Sys2Proof.Shake

/-- The register of the standard's bit generator after some steps, over x^8 + x^6 + x^5 + x^4 + 1. -/
def feedback : Nat → Nat
  | 0 => 1
  | t + 1 => if 128 ≤ feedback t then (2 * feedback t) ^^^ 0x171 else 2 * feedback t

/-- The constant of a round: seven of the generator's bits, at the places 2^j - 1. -/
def iota (r : Nat) : Nat := ((List.range 7).map fun j => feedback (7 * r + j) % 2 * 2 ^ (2 ^ j - 1)).sum

/-- The lane that the walk of the standard comes to after some steps. -/
def stop : Nat → Nat × Nat
  | 0 => (1, 0)
  | t + 1 => ((stop t).2, (2 * (stop t).1 + 3 * (stop t).2) % 5)

/-- How far a lane turns: the triangular number of its step of the walk. -/
def turn (x y : Nat) : Nat :=
  match (List.range 24).find? fun t => stop t == (x, y) with
  | some t => (t + 1) * (t + 2) / 2 % 64
  | none => 0

/-- The state: five planes of five lanes. -/
abbrev Planes := List (List W64)

def Planes.at (p : Planes) (x y : Nat) : W64 := (p.getD (y % 5) []).getD (x % 5) 0
/-- A state from what stands at each lane. -/
def planes (f : Nat → Nat → W64) : Planes := (List.range 5).map fun y => (List.range 5).map fun x => f x y

/-- Each lane takes the parities of two columns. -/
def theta (p : Planes) : Planes :=
  let c := (List.range 5).map fun x => p.at x 0 ^^^ p.at x 1 ^^^ p.at x 2 ^^^ p.at x 3 ^^^ p.at x 4
  planes fun x y => p.at x y ^^^ c.getD ((x + 4) % 5) 0 ^^^ (c.getD ((x + 1) % 5) 0).rotateLeft 1
/-- Each lane turns and moves: the lane at (x + 3y, x) comes to (x, y). -/
def rhoPi (p : Planes) : Planes := planes fun x y => (p.at (x + 3 * y) x).rotateLeft (turn ((x + 3 * y) % 5) x)
/-- Each lane takes two of its row, and lane (0, 0) a constant. -/
def chiIota (p : Planes) (r : Nat) : Planes :=
  planes fun x y => p.at x y ^^^ (~~~(p.at (x + 1) y) &&& p.at (x + 2) y)
    ^^^ (if x = 0 ∧ y = 0 then BitVec.ofNat 64 (iota r) else 0)

def permute (p : Planes) : Planes := (List.range 24).foldl (fun p r => chiIota (rhoPi (theta p)) r) p

/-- The state with the next 136 bytes of a message in it. -/
def soak (p : Planes) (m : List Byte) : Planes :=
  permute (planes fun x y => p.at x y ^^^
    (if x + 5 * y < 17 then BitVec.ofNat 64 (ofBytes ((m.drop (8 * (x + 5 * y))).take 8)) else 0))

/-- A whole number of blocks, one after the other. -/
def soakAll (p : Planes) (m : List Byte) : Nat → Planes
  | 0 => p
  | n + 1 => soakAll (soak p m) (m.drop 136) n

/-- A message filled up to whole blocks: the suffix 1111, then a 1, zeros and a last 1. -/
def filled (m : List Byte) : List Byte :=
  let free := 135 - m.length % 136
  m ++ (if free = 0 then [0x9F] else 0x1F :: (List.replicate (free - 1) 0 ++ [0x80]))

/-- The first `n` bytes of output, at most one block (every digest of the spec is 32 or 64 bytes). -/
def shake256 (m : List Byte) (n : Nat) : List Byte :=
  let p := soakAll (planes fun _ _ => 0) (filled m) ((filled m).length / 136)
  (p.flatten.flatMap fun w => toBytes 8 w.toNat).take n

end Sys2Proof.Shake
end

