-- ==== Sys2Proof/Machine/Xmss.lean ====
section
/-! DEFINITION. XMSS signatures (R29, R332, R336, R339). The spec names RFC 8391 and its SHAKE256 parameter sets and gives no
algorithm: it is that document's, with n = 64 and w = 16 (PRESUMED, log 10). -/
namespace Sys2Proof.Xmss

/-- A number as some bytes, the highest first. -/
def bigEnd (n x : Nat) : List Byte := (toBytes n x).reverse
/-- The number that some bytes hold, the highest first. -/
def numOf (bs : List Byte) : Nat := ofBytes bs.reverse

/-! ### The keyed hashes -/

/-- The four uses of the hash, told apart by a number in front. -/
def keyed (use : Nat) (key m : List Byte) : List Byte := Shake.shake256 (bigEnd 64 use ++ key ++ m) 64
def hashF (key m : List Byte) : List Byte := keyed 0 key m
def hashH (key m : List Byte) : List Byte := keyed 1 key m
def hashMsg (key m : List Byte) : List Byte := keyed 2 key m
def prf (key m : List Byte) : List Byte := keyed 3 key m

/-- A place in the structure: a one-time key (kind 0: key, chain, step), a tree over one key (kind 1: key, height, index), the
tree over all keys (kind 2: 0, height, index). -/
structure Spot where
  kind : Nat
  a    : Nat
  b    : Nat
  c    : Nat

/-- The 32-byte address of a spot, for the key or one of the masks of its hash. -/
def Spot.bytes (p : Spot) (mask : Nat) : List Byte :=
  bigEnd 4 0 ++ bigEnd 8 0 ++ [p.kind, p.a, p.b, p.c, mask].flatMap (bigEnd 4)

def xorBytes (a b : List Byte) : List Byte := (a.zip b).map fun e => e.1 ^^^ e.2

/-- One step of a chain. -/
def stepHash (seed : List Byte) (p : Spot) (x : List Byte) : List Byte :=
  hashF (prf seed (p.bytes 0)) (xorBytes x (prf seed (p.bytes 1)))

/-- Two nodes of a tree combined. -/
def pairHash (seed : List Byte) (p : Spot) (l r : List Byte) : List Byte :=
  hashH (prf seed (p.bytes 0)) (xorBytes l (prf seed (p.bytes 1)) ++ xorBytes r (prf seed (p.bytes 2)))

/-! ### One-time keys -/

/-- The chains of a one-time key. -/
def chains : Nat := 131

/-- A chain run on from a step, some steps further. -/
def chain (seed : List Byte) (key i from' : Nat) (x : List Byte) : Nat → List Byte
  | 0 => x
  | n + 1 => stepHash seed ⟨0, key, i, from' + n⟩ (chain seed key i from' x n)

/-- The digits of a message, and those of its checksum. -/
def digits (m : List Byte) : List Nat :=
  let d (bs : List Byte) : List Nat := bs.flatMap fun b => [b.toNat / 16, b.toNat % 16]
  let sum := ((d m).map fun x => 15 - x).sum
  d m ++ (d (bigEnd 2 (sum * 16))).take 3

/-- A list of nodes halved: pairs combine, and an odd last node moves up. -/
def halve (f : Nat → List Byte → List Byte → List Byte) (i : Nat) : List (List Byte) → List (List Byte)
  | l :: r :: rest => f i l r :: halve f (i + 1) rest
  | l => l

/-- The tree over a one-time public key: eight levels make one node of 131. -/
def keyTree (seed : List Byte) (key : Nat) (pk : List (List Byte)) : List Byte :=
  ((List.range 8).foldl (fun l h => halve (fun i => pairHash seed ⟨1, key, h, i⟩) 0 l) pk).headD []

/-! ### Verification -/

/-- A public key: the parameter set, the root and the seed. -/
structure Key where
  oid  : Nat
  root : List Byte
  seed : List Byte

def keyBytes : Nat := 132
def Key.of (bs : List Byte) : Key := ⟨numOf (bs.take 4), (bs.drop 4).take 64, (bs.drop 68).take 64⟩

/-- The height of a SHAKE256 parameter set: XMSS-SHAKE_10_512, 16_512 and 20_512. -/
def height (oid : Nat) : Option Nat :=
  if oid = 0xA then some 10 else if oid = 0xB then some 16 else if oid = 0xC then some 20 else none

/-- The bytes of a signature of a tree: the index, the randomiser, the chains, the path. -/
def sigBytes (h : Nat) : Nat := 4 + 64 + 64 * chains + 64 * h

/-- The pieces of 64 bytes. -/
def pieces (bs : List Byte) (n : Nat) : List (List Byte) := (List.range n).map fun k => (bs.drop (64 * k)).take 64

/-- The root of a tree from a leaf and its path. -/
def climb (seed : List Byte) (i : Nat) (leaf : List Byte) (path : List (List Byte)) : List Byte :=
  path.zipIdx.foldl (fun x e =>
    let p : Spot := ⟨2, 0, e.2, i / 2 ^ (e.2 + 1)⟩
    if i / 2 ^ e.2 % 2 = 0 then pairHash seed p x e.1 else pairHash seed p e.1 x) leaf

/-- The message that a one-time key signs. -/
def wrapped (root r : List Byte) (i : Nat) (m : List Byte) : List Byte := hashMsg (r ++ root ++ bigEnd 64 i) m

/-- Does a signature of a message verify under a public key? -/
def verify (k : Key) (m sig : List Byte) : Bool :=
  match height k.oid with
  | none => false
  | some h =>
    let i := numOf (sig.take 4)
    let body := (sig.drop 68)
    let d := digits (wrapped k.root ((sig.drop 4).take 64) i m)
    let pk := (pieces body chains).zipIdx.map fun e => chain k.seed i e.2 (d.getD e.2 0) e.1 (15 - d.getD e.2 0)
    sig.length == sigBytes h && decide (i < 2 ^ h)
      && climb k.seed i (keyTree k.seed i pk) (pieces (body.drop (64 * chains)) h) == k.root

/-! ### Signing -/

/-- The public key of a one-time key whose chains start at `secret`. -/
def leafOf (seed : List Byte) (secret : Nat → Nat → List Byte) (i : Nat) : List Byte :=
  keyTree seed i ((List.range chains).map fun c => chain seed i c 0 (secret i c) 15)

/-- A node of the tree: its height and index. -/
def node (seed : List Byte) (secret : Nat → Nat → List Byte) : Nat → Nat → List Byte
  | 0, i => leafOf seed secret i
  | h + 1, i => pairHash seed ⟨2, 0, h, i⟩ (node seed secret h (2 * i)) (node seed secret h (2 * i + 1))

/-- The sibling of a node. -/
def sibling (i : Nat) : Nat := if i % 2 = 0 then i + 1 else i - 1

/-- The signature of a message with the one-time key of an index. -/
def sign (seed random : List Byte) (secret : Nat → Nat → List Byte) (h i : Nat) (m : List Byte) : List Byte :=
  let r := prf random (bigEnd 32 i)
  let d := digits (wrapped (node seed secret h 0) r i m)
  bigEnd 4 i ++ r ++ ((List.range chains).flatMap fun c => chain seed i c 0 (secret i c) (d.getD c 0))
    ++ (List.range h).flatMap fun k => node seed secret k (sibling (i / 2 ^ k))

end Sys2Proof.Xmss
end

