-- ==== Sys2Proof/Syntax.lean ====
section
/-! DEFINITION. The rows of the table of operations and events (spec/opcode_table.json) as ONE inductive.
197 rows are body instructions with an encoding (05_formats_and_opcode_map.md); 87 rows are events of the
cells, units, front end, firmware and outside world (95_what_each_step_holds.md), which have no encoding:
their operands say which unit acts and what the outside world brings. -/
namespace Sys2Proof

/-- The wave word of the L and E formats (R119, R122). -/
structure Wave where
  own   : BitVec 8
  pred  : BitVec 8
  succ  : BitVec 8
  scope : BitVec 3
  acq   : Bool
  rel   : Bool
  path  : BitVec 3
deriving DecidableEq, Repr

/-- Word 1 of the V format (R119): shape-record selectors, element type, rounding code, SAT, CHAIN, IMM. -/
structure VOp where
  shD   : BitVec 4
  shA   : BitVec 4
  shB   : BitVec 4
  ty    : BitVec 4
  rnd   : BitVec 3
  sat   : Bool
  chain : BitVec 4
  imm   : BitVec 8
deriving DecidableEq, Repr

/-- The two masters with a mailbox (R323, R324). -/
inductive Master where
  | host | sideBand
deriving DecidableEq, Repr

/-- An engine that can freeze (R392, R393): a copy port or a sector queue (by sector), a stream or a lane
(by base die and number), a walker. -/
inductive EngineId where
  | port (sector : Nat)
  | stream (span n : Nat)
  | lane (span n : Nat)
  | walker (n : Nat)
  | queue (sector : Nat)
deriving DecidableEq, Repr

/-- The registers and window entries that firmware writes with no behaviour of their own beyond the storing
(REGISTER_WRITE). Window entries are named by cell or sector and offset, registers by name and index. -/
inductive RegName where
  | cellCr (cell k : Nat)            -- control register number k through window 0x0004 (R91, R166)
  | shadow (cell slot off : Nat)     -- window 0x0005 or 0x0006 (R316)
  | ladder (sector off : Nat)        -- window 0x0020 (R254)
  | future (sector off : Nat)        -- window 0x0030 (R265)
  | queueEntry (sector off : Nat)    -- window 0x0040 below 0x0800 (R277)
  | port (sector off : Nat)          -- window 0x0050 (R189)
  | asidbase (owner : Nat)           -- cr.asidbase (R335)
  | dbtab (v word : Nat)             -- cr.dbtab (R335)
  | ltab                             -- cr.ltab (R335)
  | commtab                          -- cr.commtab (R335)
  | netcfg                           -- cr.netcfg (R335)
  | rpool (die : Nat)                -- cr.rpool (R334)
  | fring                            -- cr.fring (R334)
  | rring (die : Nat)                -- cr.rring (R334)
  | zspill (die : Nat)               -- cr.zspill (R384)
  | alog (die : Nat)                 -- cr.alog (R404)
  | poison (owner n : Nat)           -- poison table entry (R397)
  | imagePolicy (asid : Nat)         -- image policy table (R332)
  | keyDigest (n : Nat) (high : Bool) -- a 256-bit half of a tenant key digest (R332)
  | tenantSlot (die n : Nat)         -- partition controller slot (R314)
  | clearReceived (die : Nat)        -- TOTAL and every RECV cleared together (R314)
  | physQueue (n : Nat)              -- physical queue entry (R301)
  | mwdogPeriod                      -- cr.mwdog.PERIOD (R421)
  | liveAsid                         -- the live address-space count (R28, R99)
deriving DecidableEq, Repr

/-- A packet of the reliable transport as it arrives (R340, R424): the peer that sent it, its virtual channel and its number. -/
structure PeerPacket where
  peer : Nat
  vc   : Nat
  num  : Nat
deriving DecidableEq, Repr

/-- The head of a collective's chunk that arrives (R342, R426): its communicator, its operation's SEQ, and its packet. -/
structure ChunkHead where
  comm : Nat
  seq  : Nat
  pkt  : PeerPacket
deriving DecidableEq, Repr

/-- A launch packet that arrives (R313). -/
structure LaunchBody where
  pkt   : PeerPacket
  words : List W64
deriving DecidableEq, Repr

/-- What tells the module that a peer is lost (R424): its fatal notice, or 1 ms in which nothing arrived from it. -/
structure PeerLoss where
  peer   : Nat
  notice : Bool
deriving DecidableEq, Repr

/-- A token in the queue of a sector's node (R235). -/
structure QueuedToken where
  sector : Nat
  place  : Nat
deriving DecidableEq, Repr

/-- A VENDOR_DEFINED_REQUEST: its StandardID, vendor ID and payload (R339). -/
structure VendorRequest where
  standard : Nat
  vendor   : Nat
  payload  : List Byte
deriving DecidableEq, Repr

/-- One constructor per row of spec/opcode_table.json, in the table's order. -/
inductive Instr where
  | firingSelect (cell : Nat)  -- FIRING_SELECT (R50)
  | firingDeposit (cell : Nat) (fid : Nat)  -- FIRING_DEPOSIT (R151)
  | tokenArrival (k : Nat)  -- TOKEN_ARRIVAL (R35)
  | wordArrival (k : Nat)  -- WORD_ARRIVAL (R35)
  | heldWordDelivery (k : Nat)  -- HELD_WORD_DELIVERY (R35)
  | entryWordJoin (cell : Nat) (place : Nat)  -- ENTRY_WORD_JOIN (R147)
  | netInstanceComplete (net : Nat)  -- NET_INSTANCE_COMPLETE (R56)
  | scrubComplete (net : Nat)  -- SCRUB_COMPLETE (R315)
  | accessReply (cell : Nat) (fid : Nat)  -- ACCESS_REPLY (R173)
  | conditionWaitEnd (cell : Nat) (fid : Nat)  -- CONDITION_WAIT_END (R381)
  | emit (rel : Bool) (scope : BitVec 3) (a : Rg) (place : Byte) (count : BitVec 12) (cell : BitVec 12)  -- `emit`, count form (R144, R147)
  | emitW (rel : Bool) (scope : BitVec 3) (a : Rg) (place : Byte) (cell : BitVec 12)  -- `emit.w`, word form (R147)
  | take (d : Rg) (place : Byte) (s : Bool)  -- `take` (R148, R149)
  | mcount (d : Rg) (place : Byte) (s : Bool)  -- `mcount` (R148, R149)
  | mset (a : Rg) (place : Byte) (count : BitVec 12)  -- `mset` (R150)
  | arm (t : BitVec 6) (cell : BitVec 12)  -- `arm` (R152)
  | disarm (t : BitVec 6) (cell : BitVec 12)  -- `disarm` (R152)
  | sel (k : BitVec 2)  -- `sel` (R153)
  | selx (a : Rg)  -- `selx` (R153)
  | safept  -- `safept` (R153)
  | halt  -- `halt` (R153)
  | trap (k : BitVec 10)  -- `trap` (R157)
  | nop  -- `nop` (R153)
  | cfgLoad (a : Rg) (off : W32)  -- `cfg.load` (R158, R159)
  | csrr (d : Rg) (reg : BitVec 9) (s : Bool)  -- `csrr` (R167, R168)
  | csrw (d : Rg) (a : Rg) (reg : BitVec 9)  -- `csrw` (R167, R168)
  | csrs (d : Rg) (a : Rg) (reg : BitVec 9)  -- `csrs` (R167, R168)
  | csrc (d : Rg) (a : Rg) (reg : BitVec 9)  -- `csrc` (R167, R168)
  | add (d : Rg) (a : Rg) (b : Rg) (s : Bool)  -- `add` (R161)
  | sub (d : Rg) (a : Rg) (b : Rg) (s : Bool)  -- `sub` (R161)
  | mul (d : Rg) (a : Rg) (b : Rg) (s : Bool)  -- `mul` (R161)
  | mulh (d : Rg) (a : Rg) (b : Rg) (s : Bool)  -- `mulh` (R161)
  | mulhz (d : Rg) (a : Rg) (b : Rg) (s : Bool)  -- `mulhz` (R161)
  | div (d : Rg) (a : Rg) (b : Rg) (s : Bool)  -- `div` (R161)
  | divz (d : Rg) (a : Rg) (b : Rg) (s : Bool)  -- `divz` (R161)
  | rem (d : Rg) (a : Rg) (b : Rg) (s : Bool)  -- `rem` (R161)
  | remz (d : Rg) (a : Rg) (b : Rg) (s : Bool)  -- `remz` (R161)
  | and (d : Rg) (a : Rg) (b : Rg) (s : Bool)  -- `and` (R161)
  | or (d : Rg) (a : Rg) (b : Rg) (s : Bool)  -- `or` (R161)
  | xor (d : Rg) (a : Rg) (b : Rg) (s : Bool)  -- `xor` (R161)
  | andn (d : Rg) (a : Rg) (b : Rg) (s : Bool)  -- `andn` (R161)
  | shl (d : Rg) (a : Rg) (b : Rg) (s : Bool)  -- `shl` (R161)
  | shr (d : Rg) (a : Rg) (b : Rg) (s : Bool)  -- `shr` (R161)
  | sra (d : Rg) (a : Rg) (b : Rg) (s : Bool)  -- `sra` (R161)
  | rol (d : Rg) (a : Rg) (b : Rg) (s : Bool)  -- `rol` (R161)
  | min (d : Rg) (a : Rg) (b : Rg) (s : Bool)  -- `min` (R161)
  | max (d : Rg) (a : Rg) (b : Rg) (s : Bool)  -- `max` (R161)
  | minz (d : Rg) (a : Rg) (b : Rg) (s : Bool)  -- `minz` (R161)
  | maxz (d : Rg) (a : Rg) (b : Rg) (s : Bool)  -- `maxz` (R161)
  | clz (d : Rg) (a : Rg) (s : Bool)  -- `clz`, unary (R161)
  | ctz (d : Rg) (a : Rg) (s : Bool)  -- `ctz`, unary (R161)
  | pop (d : Rg) (a : Rg) (s : Bool)  -- `pop`, unary (R161)
  | mov (d : Rg) (a : Rg) (s : Bool)  -- `mov`, unary (R161)
  | sext (d : Rg) (a : Rg) (pos : Rg) (s : Bool)  -- `sext` (R161); pos stands in B
  | zext (d : Rg) (a : Rg) (pos : Rg) (s : Bool)  -- `zext` (R161); pos stands in B
  | bext (d : Rg) (a : Rg) (b : Rg) (s : Bool)  -- `bext` (R163, R164)
  | bins (d : Rg) (a : Rg) (b : Rg) (s : Bool)  -- `bins` (R163, R164)
  | addr (d : Rg) (a : Rg) (b : Rg) (s : Bool)  -- `addr` (R163, R164)
  | li (d : Rg) (imm : W32) (s : Bool)  -- `li` (R165)
  | lih (d : Rg) (imm : W32) (s : Bool)  -- `lih` (R165)
  | addi (d : Rg) (a : Rg) (imm : W32) (s : Bool)  -- `addi` (R165)
  | andi (d : Rg) (a : Rg) (imm : W32) (s : Bool)  -- `andi` (R165)
  | ori (d : Rg) (a : Rg) (imm : W32) (s : Bool)  -- `ori` (R165)
  | xori (d : Rg) (a : Rg) (imm : W32) (s : Bool)  -- `xori` (R165)
  | shli (d : Rg) (a : Rg) (n : BitVec 6) (s : Bool)  -- `shli` (R165)
  | shri (d : Rg) (a : Rg) (n : BitVec 6) (s : Bool)  -- `shri` (R165)
  | srai (d : Rg) (a : Rg) (n : BitVec 6) (s : Bool)  -- `srai` (R165)
  | ld (tc : BitVec 4) (d : Rg) (a : Rg) (s : Bool) (off : W32) (w : Wave)  -- `ld`, FN is the type code (R174, R175)
  | st (tc : BitVec 4) (d : Rg) (a : Rg) (off : W32) (w : Wave)  -- `st`, FN is the type code (R174, R175)
  | vld (v : BitVec 3) (a : Rg) (off : W32) (w : Wave)  -- `vld` (R174, R175)
  | vst (v : BitVec 3) (a : Rg) (off : W32) (w : Wave)  -- `vst` (R174, R175)
  | ldx (tc : BitVec 4) (d : Rg) (a : Rg) (b : Rg) (s : Bool) (off : W32) (w : Wave)  -- `ldx`, FN is the type code (R174, R175)
  | stx (tc : BitVec 4) (d : Rg) (a : Rg) (b : Rg) (off : W32) (w : Wave)  -- `stx`, FN is the type code (R174, R175)
  | ldh (d : Rg) (a : Rg) (b : Rg) (s : Bool) (off : W32) (w : Wave)  -- `ldh` (R176)
  | aadd (w64 : Bool) (d : Rg) (a : Rg) (b : Rg) (s : Bool) (off : W32) (w : Wave)  -- `aadd` (R177, R178)
  | aand (w64 : Bool) (d : Rg) (a : Rg) (b : Rg) (s : Bool) (off : W32) (w : Wave)  -- `aand` (R177, R178)
  | aor (w64 : Bool) (d : Rg) (a : Rg) (b : Rg) (s : Bool) (off : W32) (w : Wave)  -- `aor` (R177, R178)
  | axor (w64 : Bool) (d : Rg) (a : Rg) (b : Rg) (s : Bool) (off : W32) (w : Wave)  -- `axor` (R177, R178)
  | amin (w64 : Bool) (d : Rg) (a : Rg) (b : Rg) (s : Bool) (off : W32) (w : Wave)  -- `amin` (R177, R178)
  | amax (w64 : Bool) (d : Rg) (a : Rg) (b : Rg) (s : Bool) (off : W32) (w : Wave)  -- `amax` (R177, R178)
  | aminz (w64 : Bool) (d : Rg) (a : Rg) (b : Rg) (s : Bool) (off : W32) (w : Wave)  -- `aminz` (R177, R178)
  | amaxz (w64 : Bool) (d : Rg) (a : Rg) (b : Rg) (s : Bool) (off : W32) (w : Wave)  -- `amaxz` (R177, R178)
  | axchg (w64 : Bool) (d : Rg) (a : Rg) (b : Rg) (s : Bool) (off : W32) (w : Wave)  -- `axchg` (R177, R178)
  | acas (w64 : Bool) (d : Rg) (a : Rg) (b : Rg) (s : Bool) (off : W32) (w : Wave)  -- `acas` (R177, R178)
  | afaddF32 (d : Rg) (a : Rg) (b : Rg) (s : Bool) (off : W32) (w : Wave)  -- `afadd.f32` (R177, R179)
  | afmaxF32 (d : Rg) (a : Rg) (b : Rg) (s : Bool) (off : W32) (w : Wave)  -- `afmax.f32` (R177, R179)
  | fenceAcq (w : Wave)  -- `fence.acq` (R180, R181)
  | fenceRel (w : Wave)  -- `fence.rel` (R180, R181)
  | fenceFull (w : Wave)  -- `fence.full` (R180, R181)
  | bar (id : BitVec 4) (n : BitVec 12) (w : Wave)  -- `bar` (R182, R183)
  | cpyPost (d : Rg) (a : Rg) (b : Rg) (off : W32) (w : Wave)  -- `cpy.post` (R184, R187)
  | drain (w : Wave)  -- `drain` (R190)
  | ringInit (a : Rg) (b : Rg) (slotu : BitVec 10) (nslotm1 : BitVec 6) (base : BitVec 16) (off : W32) (w : Wave)  -- `ring.init` (R194)
  | ringAwait (d : Rg) (a : Rg) (b : Rg) (off : W32) (w : Wave)  -- `ring.await` (R195)
  | ringAwaitFree (d : Rg) (a : Rg) (b : Rg) (off : W32) (w : Wave)  -- `ring.await.free` (R195)
  | ringRel (a : Rg) (off : W32) (w : Wave)  -- `ring.rel` (R196)
  | strSub (d : Rg) (a : Rg) (off : W32) (w : Wave)  -- `str.sub` (R198)
  | strUnsub (d : Rg) (a : Rg) (w : Wave)  -- `str.unsub` (R201)
  | strRet (a : Rg) (b : Rg) (off : W32) (w : Wave)  -- `str.ret` (R200)
  | walkPost (a : Rg) (off : W32) (w : Wave)  -- `walk.post` (R203)
  | collPost (d : Rg) (a : Rg) (off : W32) (w : Wave)  -- `coll.post` (R204)
  | sigAdd (d : Rg) (a : Rg) (b : Rg) (off : W32) (w : Wave)  -- `sig.add` (R205)
  | copyPacketStart (sector : Nat) (k : Nat)  -- COPY_PACKET_START (R188)
  | copyPacketComplete (sector : Nat) (k : Nat)  -- COPY_PACKET_COMPLETE (R188)
  | ringCredit (k : Nat)  -- RING_CREDIT (R192)
  | pushStreamTile (span : Nat) (n : Nat)  -- PUSH_STREAM_TILE (R199)
  | pullStreamTile (span : Nat) (n : Nat)  -- PULL_STREAM_TILE (R200)
  | walkResultWrite (n : Nat)  -- WALK_RESULT_WRITE (R203)
  | collectiveChunkSend (k : Nat)  -- COLLECTIVE_CHUNK_SEND (R343)
  | collectiveChunkLand (k : ChunkHead) (off : Nat) (data : List Byte) (final : Bool)  -- COLLECTIVE_CHUNK_LAND (R343)
  | collectiveComplete (k : Nat)  -- COLLECTIVE_COMPLETE (R204)
  | vadd (v : VOp) (s : Bool)  -- `vadd` (R218)
  | vsub (v : VOp) (s : Bool)  -- `vsub` (R218)
  | vmul (v : VOp) (s : Bool)  -- `vmul` (R218)
  | vfma (v : VOp) (s : Bool)  -- `vfma` (R218)
  | vfms (v : VOp) (s : Bool)  -- `vfms` (R218)
  | vnfma (v : VOp) (s : Bool)  -- `vnfma` (R218)
  | vmax (v : VOp) (s : Bool)  -- `vmax` (R218)
  | vmin (v : VOp) (s : Bool)  -- `vmin` (R218)
  | vabs (v : VOp) (s : Bool)  -- `vabs` (R218)
  | vneg (v : VOp) (s : Bool)  -- `vneg` (R218)
  | vcpy (v : VOp) (s : Bool)  -- `vcpy` (R218)
  | vsel (v : VOp) (s : Bool)  -- `vsel` (R220)
  | vand (v : VOp) (s : Bool)  -- `vand` (R220)
  | vor (v : VOp) (s : Bool)  -- `vor` (R220)
  | vxor (v : VOp) (s : Bool)  -- `vxor` (R220)
  | vshl (v : VOp) (s : Bool)  -- `vshl` (R220)
  | vshr (v : VOp) (s : Bool)  -- `vshr` (R220)
  | vsra (v : VOp) (s : Bool)  -- `vsra` (R220)
  | vcmpEq (v : VOp) (s : Bool)  -- `vcmp.eq` (R221)
  | vcmpNe (v : VOp) (s : Bool)  -- `vcmp.ne` (R221)
  | vcmpLt (v : VOp) (s : Bool)  -- `vcmp.lt` (R221)
  | vcmpLe (v : VOp) (s : Bool)  -- `vcmp.le` (R221)
  | vcmpGt (v : VOp) (s : Bool)  -- `vcmp.gt` (R221)
  | vcmpGe (v : VOp) (s : Bool)  -- `vcmp.ge` (R221)
  | vredSum (v : VOp) (s : Bool)  -- `vred.sum` (R222)
  | vredMax (v : VOp) (s : Bool)  -- `vred.max` (R222)
  | vredMin (v : VOp) (s : Bool)  -- `vred.min` (R222)
  | vscanSum (v : VOp) (s : Bool)  -- `vscan.sum` (R222)
  | vscanMax (v : VOp) (s : Bool)  -- `vscan.max` (R222)
  | vperm (v : VOp)  -- `vperm` (R223)
  | vshuf (v : VOp)  -- `vshuf` (R223)
  | vbcast (a : Rg) (v : VOp)  -- `vbcast` (R223)
  | vaddc (d : Rg) (v : VOp) (s : Bool)  -- `vaddc` (R224)
  | vsubc (d : Rg) (v : VOp) (s : Bool)  -- `vsubc` (R224)
  | vmulc (v : VOp) (s : Bool)  -- `vmulc` (R225)
  | vdot (v : VOp) (s : Bool)  -- `vdot` (R226)
  | vcvt (v : VOp) (s : Bool)  -- `vcvt` (R227)
  | vpack (v : VOp)  -- `vpack` (R228)
  | vunpack (v : VOp)  -- `vunpack` (R228)
  | vscale (a : Rg) (v : VOp) (s : Bool)  -- `vscale` (R229)
  | vqnt (v : VOp)  -- `vqnt` (R230)
  | vdq (v : VOp)  -- `vdq` (R231)
  | vexp2 (v : VOp) (s : Bool)  -- `vexp2` (R232)
  | vlog2 (v : VOp) (s : Bool)  -- `vlog2` (R232)
  | vrcp (v : VOp) (s : Bool)  -- `vrcp` (R232)
  | vrsqrt (v : VOp) (s : Bool)  -- `vrsqrt` (R232)
  | vsqrt (v : VOp) (s : Bool)  -- `vsqrt` (R232)
  | vtanh (v : VOp) (s : Bool)  -- `vtanh` (R232)
  | vsig (v : VOp) (s : Bool)  -- `vsig` (R232)
  | vsilu (v : VOp) (s : Bool)  -- `vsilu` (R232)
  | vgelu (v : VOp) (s : Bool)  -- `vgelu` (R232)
  | mxLds (d : Rg) (a : Rg) (b : Rg) (km1 : BitVec 7) (nm1 : BitVec 7) (sc : Bool) (off : W32) (w : Wave)  -- `mx.lds` (R239)
  | mxMul (d : Rg) (a : Rg) (b : Rg) (mm1 : BitVec 7) (km1 : BitVec 7) (nm1 : BitVec 7) (acc : Bool) (q : Bool) (sc : Bool) (off : W32) (w : Wave)  -- `mx.mul` (R241)
  | mxMulb (d : Rg) (mm1 : BitVec 7) (km1 : BitVec 7) (nm1 : BitVec 7) (acc : Bool) (q : Bool) (w : Wave)  -- `mx.mulb` (R241)
  | mxDrain (d : Rg) (a : Rg) (b : Rg) (mm1 : BitVec 7) (nm1 : BitVec 7) (acc : Bool) (q : Bool) (byp : Bool) (nowr : Bool) (off : W32) (w : Wave)  -- `mx.drain` (R242)
  | mxScl (d : Rg) (a : Rg) (b : Rg) (w : Wave)  -- `mx.scl` (R244)
  | mxCfg (d : Rg) (aty : BitVec 4) (bty : BitVec 4) (out : Bool) (bsat : Bool) (rg : BitVec 4) (rnm1 : BitVec 8) (w : Wave)  -- `mx.cfg` (R237)
  | mxSwap  -- `mx.swap` (R240)
  | mxClr (q : Bool)  -- `mx.clr` (R246)
  | mxStat (d : Rg) (q : Bool) (s : Bool)  -- `mx_stat` (R246)
  | mxStatClr (d : Rg) (q : Bool) (s : Bool)  -- `mx_stat_clr` (R246)
  | nzCfg (d : Rg) (seed : W32) (mode : BitVec 3) (w : Wave)  -- `nz.cfg` (R245)
  | mxTokenAccept (sector : Nat)  -- MX_TOKEN_ACCEPT (R235)
  | mxTokenComplete (token : QueuedToken)  -- MX_TOKEN_COMPLETE (R236)
  | regionDrainStart (net : Nat) (rg : Nat)  -- REGION_DRAIN_START (R243)
  | dlPost (d : Rg) (a : Rg) (fin : Bool) (off : W32) (w : Wave)  -- `dl.post` (R249)
  | dlJobComplete (span : Nat) (n : Nat)  -- DL_JOB_COMPLETE (R250)
  | dlMerge (d : Rg) (a : Rg) (b : Rg) (dm1 : BitVec 8) (fin : Bool) (off : W32) (w : Wave)  -- `dl.merge` (R251)
  | khNew (d : Rg) (a : Rg) (bnd : BitVec 20) (s : Bool)  -- `kh.new` (R252)
  | khBound (d : Rg) (a : Rg) (bnd : BitVec 20)  -- `kh.bound` (R252)
  | khGen (d : Rg) (a : Rg)  -- `kh.gen` (R252)
  | ladInit (lad : BitVec 3) (a : Rg) (mode : BitVec 2) (nrm1 : BitVec 5) (nem1 : BitVec 10) (off : W32) (w : Wave)  -- `lad.init` (R255, R256)
  | ladWts (lad : BitVec 3) (a : Rg) (off : W32) (w : Wave)  -- `lad.wts` (R256)
  | ladPush (d : Rg) (lad : BitVec 3) (a : Rg) (b : Rg) (off : W32) (w : Wave)  -- `lad.push` (R257)
  | ladderChainStep (sector : Nat) (lad : Nat)  -- LADDER_CHAIN_STEP (R259)
  | ladRead (d : Rg) (lad : BitVec 3) (a : Rg) (b : Rg) (off : W32) (w : Wave)  -- `lad.read` (R260)
  | ladRung (d : Rg) (lad : BitVec 3) (k : BitVec 5) (a : Rg) (off : W32) (w : Wave)  -- `lad.rung` (R261)
  | ladStep (d : Rg) (lad : BitVec 3) (w : Wave)  -- `lad.step` (R262)
  | ladWait (d : Rg) (lad : BitVec 3) (b : Rg) (w : Wave)  -- `lad.wait` (R262)
  | ladFree (lad : BitVec 3) (w : Wave)  -- `lad.free` (R262)
  | futSpawn (d : Rg) (a : Rg) (off : W32)  -- `fut.spawn` (R267)
  | futRef (d : Rg) (a : Rg)  -- `fut_ref` (R268)
  | futDrop (d : Rg) (a : Rg)  -- `fut_drop` (R268)
  | futWaitReg (d : Rg) (a : Rg) (s : Bool)  -- `fut.wait`, register form (R269)
  | futWaitBank (a : Rg) (b : Rg) (off : W32)  -- `fut.wait`, bank form (R269)
  | futFill (d : Rg) (a : Rg) (b : Rg)  -- `fut.fill` (R269)
  | futRcp  -- `fut.rcp` (R269)
  | futStat (d : Rg) (a : Rg) (s : Bool)  -- `fut.stat` (R269)
  | captureComplete (die : Nat) (task : Nat)  -- CAPTURE_COMPLETE (R270)
  | tskSubInline (d : Rg) (a : Rg) (b : Rg) (imm : W32) (tmpl : BitVec 16) (w : Wave)  -- `tsk.sub`, inline form (R272)
  | tskSubDesc (d : Rg) (a : Rg) (off : W32) (w : Wave)  -- `tsk.sub`, descriptor form (R272)
  | tskDone (w : Wave)  -- `tsk.done` (R276)
  | taskQwaitPop (die : Nat) (task : Nat)  -- TASK_QWAIT_POP (R274)
  | taskDispatch (die : Nat) (task : Nat)  -- TASK_DISPATCH (R275)
  | qPushReg (a : Rg) (b : Rg) (w : Wave)  -- `q.push`, register form (R279)
  | qPushBank (a : Rg) (b : Rg) (off : W32) (w : Wave)  -- `q.push`, bank form (R279)
  | qPopReg (d : Rg) (b : Rg) (s : Bool) (w : Wave)  -- `q.pop`, register form (R281)
  | qPopBank (a : Rg) (b : Rg) (off : W32) (w : Wave)  -- `q.pop`, bank form (R281)
  | qCnt (d : Rg) (b : Rg) (s : Bool) (w : Wave)  -- `q.cnt` (R281)
  | refillBatchStart (sector : Nat)  -- REFILL_BATCH_START (R280)
  | refillBatchLand (sector : Nat)  -- REFILL_BATCH_LAND (R280)
  | pwrAcq (d : Rg) (a : Rg)  -- `pwr_acq` (R282)
  | pwrRel (d : Rg) (a : Rg)  -- `pwr_rel` (R282)
  | doorbell (vm : Nat) (die : Nat) (value : W32)  -- DOORBELL (R300)
  | packetStart (die : Nat)  -- PACKET_START (R302)
  | bundleRun (k : Nat)  -- BUNDLE_RUN (R304)
  | bundleRetire (k : Nat)  -- BUNDLE_RETIRE (R304)
  | waitPacket (pq : Nat)  -- WAIT_PACKET (R311)
  | signalPacket (pq : Nat)  -- SIGNAL_PACKET (R312)
  | netPlacement (k : Nat) (rec : Nat)  -- NET_PLACEMENT (R305)
  | sectorGrant (die : Nat)  -- SECTOR_GRANT (R314)
  | netInject (k : Nat) (rec : Nat)  -- NET_INJECT (R305)
  | launchPacket (words : LaunchBody)  -- LAUNCH_PACKET (R313)
  | castleGo (cell : Nat) (value : W64)  -- CASTLE_GO (R318)
  | contextExchange (cell : Nat)  -- CONTEXT_EXCHANGE (R318)
  | contextStreamComplete (cell : Nat)  -- CONTEXT_STREAM_COMPLETE (R319)
  | parkedOutcome (cell : Nat) (slot : Nat) (k : Nat)  -- PARKED_OUTCOME (R318)
  | poolWrite (pool : Nat)  -- POOL_WRITE (R322)
  | version (m : Master) (tag : BitVec 16)  -- VERSION (R324)
  | reset (m : Master) (tag : BitVec 16)  -- RESET (R324)
  | loadImage (m : Master) (tag : BitVec 16) (src : W64) (len : W64) (data : List Byte)  -- LOAD_IMAGE (R326)
  | imageData (m : Master) (tag : BitVec 16) (off : W32) (cnt : W32) (data : List W64)  -- IMAGE_DATA (R326)
  | setPool (m : Master) (tag : BitVec 16) (pool : W64)  -- SET_POOL (R324)
  | castle (m : Master) (tag : BitVec 16) (die : Nat) (sector : Nat) (slot : Bool) (stream : Bool) (dir : Bool)  -- CASTLE (R324)
  | endRegion (m : Master) (tag : BitVec 16) (die : Nat) (sector : Nat)  -- END (R324)
  | blockAlloc (m : Master) (tag : BitVec 16) (arg : W64) (addr : W64)  -- BLOCK_ALLOC (R325)
  | blockFree (m : Master) (tag : BitVec 16) (asid : Nat) (blocks : List Nat)  -- BLOCK_FREE (R324)
  | timerPost (m : Master) (tag : BitVec 16) (time : W64) (word1 : W64) (asid : Nat)  -- TIMER_POST (R344)
  | blockTake (cell : Nat) (fid : Nat)  -- BLOCK_TAKE (R112)
  | blockAppend (sector : Nat) (block : W32)  -- BLOCK_APPEND (R333)
  | blockCacheRefill (sector : Nat)  -- BLOCK_CACHE_REFILL (R333)
  | placeEntryWrite (cell : Nat) (place : Nat) (value : W64)  -- PLACE_ENTRY_WRITE (R93)
  | wordStoreWrite (cell : Nat) (place : Nat) (slot : Nat) (value : W64)  -- WORD_STORE_WRITE (R93)
  | loadedRecordWrite (cell : Nat) (t : Nat) (off : Nat) (value : W64)  -- LOADED_RECORD_WRITE (R129)
  | registerWindowWrite (cell : Nat) (off : Nat) (data : List Byte)  -- REGISTER_WINDOW_WRITE (R95)
  | queueCounterWrite (sector : Nat) (off : Nat) (value : W64)  -- QUEUE_COUNTER_WRITE (R277)
  | rangeTableWrite (n : Nat) (value : BitVec 128)  -- RANGE_TABLE_WRITE (R102)
  | tlbInvalidate (owner : Nat) (asid : Nat) (va : W64)  -- TLB_INVALIDATE (R104)
  | quarantineEnqueue (owner : Nat) (value : W64)  -- QUARANTINE_ENQUEUE (R115)
  | quarantineRelease (owner : Nat)  -- QUARANTINE_RELEASE (R115)
  | handleTableBaseWrite (isLen : Bool) (value : W64)  -- HANDLE_TABLE_BASE_WRITE (R335)
  | recordRingIndexWrite (ring : Nat) (value : W64)  -- RECORD_RING_INDEX_WRITE (R334)
  | registerWrite (r : RegName) (value : BitVec 256)  -- REGISTER_WRITE (R93)
  | timerTokenRelease (k : Nat) (now : W64)  -- TIMER_TOKEN_RELEASE (R344)
  | taskTimeRelease (k : Nat) (now : W64)  -- TASK_TIME_RELEASE (R344)
  | engineResume (e : EngineId)  -- ENGINE_RESUME (R394)
  | engineAbort (e : EngineId)  -- ENGINE_ABORT (R394)
  | requestTimeout (cell : Nat) (fid : Nat)  -- REQUEST_TIMEOUT (R402)
  | frozenEngineTimeout (e : EngineId)  -- FROZEN_ENGINE_TIMEOUT (R402)
  | zugzwangDeclare (net : Nat)  -- ZUGZWANG_DECLARE (R382)
  | eccstatClear (die : Bool) (n : Nat)  -- ECCSTAT_CLEAR (R399)
  | taskReplay (die : Nat) (value : W64)  -- TASK_REPLAY (R405)
  | hostLinkDown  -- HOST_LINK_DOWN (R419)
  | hostLinkUp  -- HOST_LINK_UP (R420)
  | watchdogKick (value : W64)  -- WATCHDOG_KICK (R421)
  | watchdogExpiry  -- WATCHDOG_EXPIRY (R421)
  | pluginStop (slot : Nat)  -- PLUGIN_STOP (R422)
  | boot  -- BOOT (R336)
  | spdmGetVersion  -- SPDM_GET_VERSION (R339)
  | spdmGetCapabilities  -- SPDM_GET_CAPABILITIES (R339)
  | spdmNegotiateAlgorithms  -- SPDM_NEGOTIATE_ALGORITHMS (R339)
  | vendorDefinedRequest (request : VendorRequest)  -- VENDOR_DEFINED_REQUEST (R339)
  | spdmOtherRequest (code : Byte)  -- SPDM_OTHER_REQUEST (R423)
  | sensorRefresh (vals : List W32)  -- SENSOR_REFRESH (R330)
  | retransmitTimeout (k : Nat)  -- RETRANSMIT_TIMEOUT (R424)
  | scaleoutPortDown (p : Nat)  -- SCALEOUT_PORT_DOWN (R424)
  | scaleoutPortUp (p : Nat)  -- SCALEOUT_PORT_UP (R424)
  | heartbeatSend  -- HEARTBEAT_SEND (R424)
  | peerLost (peer : PeerLoss)  -- PEER_LOST (R425)
  | transitionStateWrite (cell : Nat) (t : Nat) (value : W64)  -- TRANSITION_STATE_WRITE (R129)
  | heartbeatReceive (peer : Nat)  -- HEARTBEAT_RECEIVE (R424)
  | packetAcknowledge (peer : Nat) (vc : Nat) (num : Nat)  -- PACKET_ACKNOWLEDGE (R424)
  | fatalNotice  -- FATAL_NOTICE (R424)
deriving DecidableEq, Repr

end Sys2Proof
end

