-- ==== Sys2Proof/Machine/State.lean ====
section
/-! DEFINITION. The state of the module as plain data (01_device.md, INVENTORY.md '## State'), the outcomes that
are no next state, and the state after reset. -/
namespace Sys2Proof.Machine

/-- Why the machine can stop with a fault. Every class of the spec is taken inside the machine (R372 to R376)
and is no fault of this kind. -/
inductive Fault where
  /-- `step` raises it when an issuing firing's words do not decode: no record that passed R129 or R141 holds
  such words. Safe: the hardware never selects such a record. -/
  | undecodable
  /-- `step` raises it when the schedule gives a body instruction as an event. Safe: no such step exists. -/
  | notAnEvent
deriving DecidableEq, Repr

/-- Why the machine can refuse. -/
inductive Refusal where
  /-- Only arms of exec.lean that have no meaning yet raise it. Safe: the model stops. -/
  | notModelled (mnemonic : String)
deriving DecidableEq, Repr

/-! ### Links (R290) -/

/-- What an acquire that observes a release learns: the agent that released, at which scope, the versions of the bytes
of memory whose writes happen before the release, and a version of all memory that does (a unit's release, log 5). A cell is
its number, a unit of a sector its fabric address's bits [47:32], base die or span `k` is 2^16 + k, anything wider 2^17. -/
structure Link where
  agent : Nat
  scope : Nat
  know  : Tbl Nat := []
  floor : Nat := 0
deriving DecidableEq, Repr

/-- The link of some tokens of a place: the first of them, counted from the oldest, and how many (R290). -/
structure TokLink where
  start : Nat
  n     : Nat
  link  : Link
deriving DecidableEq, Repr

/-- A write of a byte: the version that it made, the cell that wrote, whether it was an atomic, the link of a release,
one more than the level at which reads have shown it, and one more than the scope of the widest `fence.full` after it (R290,
R294, R295). -/
structure Written where
  ver    : Nat
  cell   : Nat
  atom   : Bool := false
  rel    : Option Link := none
  shown  : Nat := 0
  fenced : Nat := 0
deriving DecidableEq, Repr

/-! ### Places, transitions, firings -/

/-- A place: its entry (R34), its word store (R33), its extension (R383), and the local words that wait at its
entry (R147). `took` is one more than the clock in which it last accepted a fabric word (R35). HELD is the sum over
the firings' deductions. `rel` are the links of its tokens, the oldest first (R290), and `pool` is the
64-byte unit of the die's spill pool at which its extension begins (R384). -/
structure Place where
  kind  : Nat := 0
  count : Nat := 0
  words : List W64 := []
  ext   : Bool := false
  more  : List W64 := []
  cap   : Nat := 4
  entry : List W64 := []
  took  : Nat := 0
  rel   : List TokLink := []
  pool  : Nat := 0
deriving DecidableEq, Repr

/-- A safe point of the loaded side table (R135). -/
structure SafePoint where
  woff   : Nat
  glive  : BitVec 32
  vlive  : BitVec 8
  shlive : BitVec 16
deriving DecidableEq, Repr

/-- A transition: its loaded record (R128), its state (R53) and its side-table entries (R135). `since` is the
clock at which its enabling turned true, as of the start of the current clock (R38, R50); `en` is EN, whether it was enabled
at that start. -/
structure Trans where
  loaded : Bool := false
  record : List Byte := []
  armed  : Bool := false
  since  : Option Nat := none
  en     : Bool := false
  ioff   : Nat := 0
  safe   : List SafePoint := []
deriving DecidableEq, Repr

/-- What a firing holds until its deposit (R146). -/
inductive Held where
  | tokens (place n : Nat)
  | word (place : Nat) (w : W64)
  | set (place n : Nat)
  | arm (t : Nat)
  | disarm (t : Nat)
deriving DecidableEq, Repr

/-- What an input arc took at reserve (R36): the tokens, or the words of a data place, and their links. -/
structure Deduct where
  place : Nat
  n     : Nat
  words : List W64
  rel   : List TokLink := []
deriving DecidableEq, Repr

/-- The values that firings wrote to general, lane and selector registers and that are not yet merged (R45). -/
structure Regs where
  g  : Tbl W64 := []
  v  : Tbl Lane := []
  sh : Tbl W64 := []
deriving DecidableEq, Repr

/-- A window write that reached a register after a firing's reserve (R297): the kind of register (0 general, 1 lane, 2
selector), its number, the value below the firing before it, and what it made of that value. -/
structure Poked where
  kind : Nat
  n    : Nat
  old  : Lane
  new  : Lane
deriving DecidableEq, Repr

/-- Who issued an instruction or command: for records (R373), regions (R375) and logs (R404). -/
structure Issuer where
  cell  : Nat := 0
  net   : Nat := 0
  asid  : Nat := 0
  trans : Nat := 0
  woff  : Nat := 0
  ioff  : Nat := 0
  tv    : Bool := false
  fid   : Nat := 0
deriving DecidableEq, Repr

/-- A firing (R41): its transition, the body word at which it stands, choice code (R39), commit state (R46),
collected flags (R73), input buffer, held actions, deductions, register writes (R45), the hold of `cfg.load`
(R159), `halt` (R156), and the instruction it waits in, with what that instruction has already done. `ended`
marks a firing that is over and whose register writes wait for earlier-selected firings. `last` is one more than the clock
in which it was selected or last completed an instruction (R41); `link` is the place on the cell's wave chain of the last
wave-word instruction that it issued (R287), and `queued` says that this one waits for those before it there. `sync` is
what the tokens that its arcs took, or found on the places that they tested, link (R290). `orig` are the window writes since
its reserve to registers that it may have written (R297). `keep` are the values that window writes have replaced since the
instruction in which it waits read its registers (R95). `recs` are the records that a vector instruction which is to wait has
read (R213), `vecNo` its number among these,
and `genEp` how many writes of `cr.sgen` it comes after (R169). `lost` says that the access in which it waits gets no reply (R400). -/
structure Firing where
  id     : Nat := 0
  trans  : Nat := 0
  woff   : Nat := 0
  choice : BitVec 2 := 0
  commit : Bool := false
  ended  : Bool := false
  flags  : BitVec 5 := 0
  inbuf  : List (Nat × W64) := []
  held   : List Held := []
  taken  : List Deduct := []
  regs   : Regs := {}
  cfg    : Option W64 := none
  halt   : Bool := false
  wait   : Option Instr := none
  arg    : Option Nat := none
  age    : Nat := 0
  addr   : Nat := 0
  parked : Bool := false
  rdy    : Bool := false
  last   : Nat := 0
  link   : Nat := 0
  queued : Bool := false
  sync   : List Link := []
  orig   : List Poked := []
  keep   : Regs := {}
  lost   : Bool := false
  recs   : Option (List (List Byte)) := none
  vecNo  : Nat := 0
  genEp  : Option Nat := none
deriving DecidableEq, Repr

/-- A park record (R318). -/
structure Park where
  valid  : Bool := false
  rdy    : Bool := false
  trans  : Nat := 0
  woff   : Nat := 0
  glive  : BitVec 32 := 0
  vlive  : BitVec 8 := 0
  shlive : BitVec 16 := 0
  inbuf  : List W64 := []
  regs   : Regs := {}
  reply  : List Byte := []
  fid    : Nat := 0
deriving DecidableEq, Repr

/-- A context: what a context slot holds (R316). `touched` and `picked` are one more than the clock in which the marking last
changed other than by selection, and in which a transition was last selected (R44, R50). `gave` and `took` are one more than the
clocks in which a firing last deposited and a fabric arrival was last added, `giver` and `taker` that firing and that arrival's
emitter (R44, R151, R378), and `added` are the counts that firings have added in the clock `gave`, with their places and issuers,
which an `mset` of another firing does not replace (R151); `poked` is one more than the clock of the last window write to a register
(R95). `vecs` counts the vector instructions that issued and were to wait, `genEp` the writes of `cr.sgen`, and `gens` are the
generators that they replaced and that vector instructions still step (R169). `ord` is the number of its cell's next logged
operation (R404); `chain` counts the wave-word instructions issued (R287). `floor`, and for a byte `know`, is the version of memory
whose writes happen before what the cell does next (R291), and `seen` is, for a byte, the version that its last load read (R286).
`found` are the links of what its loads read, which a `fence.acq` observes (R181). `asRel` is one more than the widest scope of a
`fence.rel` of the configuration period: later accesses count as REL at it (R181). `area` is, for a context that only a save area
holds, the area's virtual address (R319). -/
structure Ctx where
  valid   : Bool := false
  asid    : Nat := 0
  net     : Nat := 0
  acell   : Nat := 0
  regs    : Regs := {}
  fstat   : BitVec 5 := 0
  sgen    : W32 := 1
  vecs    : Nat := 0
  genEp   : Nat := 0
  gens    : Tbl W32 := []
  wave    : Option (Byte × Byte) := none
  chain   : Nat := 0
  places  : Tbl Place := []
  trans   : Tbl Trans := []
  firings : List Firing := []
  nextId  : Nat := 0
  parks   : Tbl Park := []
  ord     : Nat := 0
  touched : Nat := 0
  picked  : Nat := 0
  gave    : Nat := 0
  giver   : Nat := 0
  added   : List (Nat × Nat × Issuer) := []
  took    : Nat := 0
  taker   : Nat := 0
  poked   : Nat := 0
  floor   : Nat := 0
  found   : List Link := []
  know    : Tbl Nat := []
  seen    : Tbl Nat := []
  asRel   : Nat := 0
  area    : Nat := 0
deriving DecidableEq, Repr

/-- A stream of a shadow slot that a swap has started (R318): the slot, 1 or 2, DIR and ADDR as they stood. -/
structure CtxMove where
  slot : Nat
  dir  : Bool
  addr : Nat
deriving DecidableEq, Repr

/-- A cell (R15): its running context, its two shadow slots, the castling registers (R317) and the streams under way. -/
structure CellSt where
  run     : Ctx := {}
  sh0     : Ctx := {}
  sh1     : Ctx := {}
  go      : Bool := false
  slot    : Bool := false
  stream  : Bool := false
  dir     : Bool := false
  goClock : Nat := 0
  ctxmem  : W64 := 0
  moving  : List CtxMove := []
deriving DecidableEq, Repr

/-- The class that an access meets, with the record's CAUSE, FADDR and AUX (R374, R391). -/
structure Hit where
  cls   : Nat
  cause : Nat := 0
  faddr : Nat := 0
  aux   : Nat := 0
deriving DecidableEq, Repr

/-- A fault to report. With `iss.tv` the record names the issuing instruction and WHERE its cell; otherwise WHERE
is `loc` (R373). A `quiet` one is only recorded: no token and no freeze (R392). -/
structure Flt where
  hit   : Hit
  src   : Nat := 0
  iss   : Issuer := {}
  loc   : Nat := 0
  port0 : Nat := 0
  port1 : Nat := 0
  quiet : Bool := false
deriving DecidableEq, Repr

/-! ### Sector units -/

/-- A wide element (R77). Only S + C is architectural and is kept as one integer. -/
structure Wide where
  w      : Int := 0
  e      : Nat := 0
  sticky : Bool := false
  cls    : Nat := 0
deriving DecidableEq, Repr

/-- A weight plane that holds weights (R234): K rows of N codes, and the scale bytes where it has them. -/
structure Plane where
  k      : Nat
  n      : Nat
  sc     : Bool
  codes  : List (List Nat)
  scales : List Byte
deriving DecidableEq, Repr

/-- A tile of the bypass buffer (R242). -/
structure Tile where
  m     : Nat
  n     : Nat
  codes : List (List Nat)
deriving DecidableEq, Repr

/-- A request that gets no reply (R400, R402): its address and its age in clocks. -/
structure Lost where
  addr : Nat
  age  : Nat := 0
deriving DecidableEq, Repr

/-- A token at a node (R235): the instruction, its issuer, the register values it carries, its completion
target (R236). `sent` is the clock in which it reached the ports; `rg` and `num` are its reduction region and its
region-drain number (R243). `pre` marks a preload of a bundle and is the virtual address of its scale bytes (R303). `told` says that
its completion token has gone before its turn (R235), `lost` that a read of its got no reply (R400). -/
structure MxToken where
  instr  : Instr
  iss    : Issuer
  a      : W64 := 0
  b      : W64 := 0
  target : Option (Nat × Nat) := none
  sent   : Nat := 0
  rg     : Nat := 0
  num    : Nat := 0
  pre    : Option W64 := none
  told   : Bool := false
  lost   : Option Lost := none
deriving DecidableEq, Repr

/-- A matrix node and its normaliser (R234). `caty`, `cbty` and `crg` are in effect for the next accepted token (R238,
R243); `took` is one more than the clock in which it last accepted one; `heavy` says that the first product in
the queue has started (R283). -/
structure Node where
  active : Option Plane := none
  shadow : Option Plane := none
  acc0   : Tbl Wide := []
  acc1   : Tbl Wide := []
  ovf0   : Nat := 0
  ovf1   : Nat := 0
  nan0   : Nat := 0
  nan1   : Nat := 0
  aty    : Nat := 1
  bty    : Nat := 1
  out    : Bool := true
  bsat   : Bool := false
  rg     : Nat := 0
  rn     : Nat := 1
  caty   : Nat := 1
  cbty   : Nat := 1
  crg    : Nat := 0
  t      : W32 := 0x3F800000
  mode   : Nat := 0
  gen    : W32 := 1
  byp    : Option Tile := none
  ports  : List MxToken := []
  queue  : List MxToken := []
  drains : Nat := 0
  took   : Nat := 0
  heavy  : Bool := false
deriving DecidableEq, Repr

/-- A push whose chain has not completed (R257); `lost` says that a read of the chain got no reply (R400). -/
structure PendPush where
  step  : Nat
  carry : List W32
  k     : Nat
  iss   : Issuer
  lost  : Option Lost := none
deriving DecidableEq, Repr

/-- A ladder descriptor (R254) and the pushes whose chains are pending. -/
structure Ladder where
  v    : Bool := false
  mode : Nat := 0
  nr   : Nat := 0
  ne   : Nat := 0
  step : Nat := 0
  occ  : BitVec 24 := 0
  busy : BitVec 24 := 0
  done : Nat := 0
  nanc : Nat := 0
  ovfc : Nat := 0
  rung : Tbl W32 := []
  wts  : Tbl W32 := []
  pend : List PendPush := []
deriving DecidableEq, Repr

/-- A future-table entry (R265), and the links of its fill and completion (R290). -/
structure Future where
  v      : Bool := false
  st     : Nat := 0
  filled : Bool := false
  nofill : Bool := false
  ref    : Nat := 0
  gen    : Nat := 0
  pheld  : Bool := false
  hasp   : Bool := false
  ptask  : Nat := 0
  task   : Nat := 0
  value  : W64 := 0
  sync   : List Link := []
deriving DecidableEq, Repr

/-- A sector queue (R277): its counters, the spill writes that wait (R392), the links of pushes with REL, by the number of
the push (R290), and the numbers of the records whose spill writes were aborted (R394). -/
structure Queue where
  ent    : Tbl W64 := []
  pushes : Nat := 0
  pops   : Nat := 0
  swr    : Nat := 0
  srd    : Nat := 0
  sbase  : Nat := 0
  slog   : Nat := 0
  qcnt   : Nat := 0
  head   : Nat := 0
  infl   : Nat := 0
  spill  : List (Nat × List Byte × Issuer) := []
  iss    : Issuer := {}
  rels   : Tbl Link := []
  torn   : List Nat := []
deriving DecidableEq, Repr

/-- The fault state of an engine (R189, R393). -/
structure EngFault where
  frozen : Bool := false
  cls    : Nat := 0
  cause  : Nat := 0
  asid   : Nat := 0
  faddr  : W64 := 0
  prog0  : W64 := 0
  prog1  : W64 := 0
  age    : Nat := 0
deriving DecidableEq, Repr

/-- A copy queue that a port serves: its header, the path of its addresses, and whose they are (R185, R188). -/
structure CopyQueue where
  hdr  : W64
  path : Nat
  iss  : Issuer
deriving DecidableEq, Repr

/-- A packet in progress at a copy port (R188): the row in progress, its bytes written, the row as it was read, whether the ring
credit of kind 0x04 is done, whether a fault has stopped it so that it resumes where the window says (R394), the number of the
logged operation (R404), whether a replay drops its credit and its addition to SIG (R406), and a read of its that got no reply
(R400). -/
structure CopyJob where
  q    : CopyQueue
  idx  : Nat
  pkt  : List W64
  row  : Nat := 0
  byte : Nat := 0
  buf  : List Byte := []
  paid : Bool := false
  stopped : Bool := false
  iss  : Issuer
  ord  : Option Nat := none
  drop : Bool := false
  lost : Option Lost := none
deriving DecidableEq, Repr

/-- A copy port (R189). `whose` is the issuer of the cell's access whose translation froze it, and `waits` are the cells' accesses
that it withholds, by cell, net instance and firing, in arrival order (R392). -/
structure Port where
  f      : EngFault := {}
  whose  : Option Issuer := none
  qaddr  : W64 := 0
  pidx   : W64 := 0
  rowd   : Nat := 0
  byted  : Nat := 0
  vcnt   : Tbl Nat := []
  fcnt   : Tbl Nat := []
  queues : List CopyQueue := []
  jobs   : List CopyJob := []
  waits  : List (Nat × Nat × Nat) := []
deriving DecidableEq, Repr

/-- What a sector is used for (R314, R315). -/
inductive SectorUse where
  | free
  | granted (bundle rec : Nat)
  | running (net : Nat)
  | scrubbing (net : Nat)
deriving DecidableEq, Repr

/-- A sector (R16). `slots` is what firmware wrote to the block cache's slots at and above COUNT (R91), and `added` one more
than the clock of the last write to its append port (R333). -/
structure Sector where
  use     : SectorUse := .free
  lastAs  : Option Nat := none
  node    : Node := {}
  ladders : Tbl Ladder := []
  futures : Tbl Future := []
  queue   : Queue := {}
  qfault  : EngFault := {}
  port    : Port := {}
  blocks  : List (BitVec 28) := []
  slots   : Tbl (BitVec 28) := []
  added   : Nat := 0
deriving DecidableEq, Repr

/-! ### Base dies, capacity tier, host port -/

/-- A stream (R197, R198): its first ticket, tiles and rows done, whether `str.unsub` stops it and whether it has
stopped, the number of the logged operation (R404), whether a replay drops its credits (R406), and a read of its that got no
reply (R400). -/
structure Stream where
  iss  : Issuer
  desc : List W64
  t0   : Nat
  tile : Nat := 0
  row  : Nat := 0
  stop : Bool := false
  ended : Bool := false
  ord  : Option Nat := none
  drop : Bool := false
  lost : Option Lost := none
deriving DecidableEq, Repr

/-- A decode-lane job (R249, R250), or a merge (R251). -/
structure LaneJob where
  iss    : Issuer
  desc   : List W64
  entry  : BitVec 256
  fin    : Bool
  target : Option (Nat × Nat)
  pos    : Nat
  m      : W32 := 0xFF800000
  l      : W32 := 0
  o      : List W32 := []
  q      : Option (List W32) := none
  block  : Option (Nat × W32) := none
  merge  : Option (W64 × W64 × Nat) := none
  epoch  : Nat
  lost   : Option Lost := none
deriving DecidableEq, Repr

/-- A walker's search (R203): its expansions, beam and seen set; a node is its address, score and block. -/
structure Walk where
  iss  : Issuer
  desc : List W64
  hops : Nat := 0
  beam : List (Nat × W32 × Nat) := []
  seen : List (Nat × W32 × Nat) := []
  done : Bool := false
  ord  : Option Nat := none
  lost : Option Lost := none
deriving DecidableEq, Repr

/-- A page in quarantine (R115): its `cr.qenq` value and its tag. -/
structure Quar where
  page : W64
  tag  : Nat
deriving DecidableEq, Repr

/-- A stage-1 translation that an owner's TLB holds (R104): the page and its size, its IPA, the guest partition, and the leaf's
rights and attribute. Stage 2 is looked up for every access (R102). -/
structure TlbEntry where
  asid : Nat
  page : Nat
  size : Nat
  ipa  : Nat
  vm   : Nat
  rd   : Bool
  wr   : Bool
  cc   : Bool
deriving DecidableEq, Repr

/-- An owner (R97): base dies 0 to 7, the capacity-tier controller 8, the host port 9. `turn` is, for a stream controller, one more
than the stream that it served last (R198). -/
structure Owner where
  asidbase : W64 := 0
  tlb      : List TlbEntry := []
  streams  : Tbl Stream := []
  turn     : Tbl Nat := []
  lanes    : Tbl LaneJob := []
  walkers  : Tbl Walk := []
  faults   : Tbl EngFault := []
  poison   : Tbl W64 := []
  qenq     : List Quar := []
  full     : Bool := false
  rel      : List W64 := []
  hcache   : Tbl (BitVec 256) := []
  cecnt    : Nat := 0
  uecnt    : Nat := 0
  last     : Nat := 0
deriving DecidableEq, Repr

/-! ### Dies -/

/-- An entry of the dependence table (R310), with what its range store and the task system keep of the task. `lost` counts the
fresh tiles that a capture gave back, `kids` are the futures, with their generations, whose capture it waits for (R270), and
`sync` are the links of its spawn and of the tasks that it depends on (R290). -/
structure Task where
  v      : Bool := false
  st     : Nat := 0
  gen    : Nat := 0
  tmpl   : Nat := 0
  inst   : Nat := 0
  futw   : Bool := false
  fut    : Bool := false
  fname  : W64 := 0
  wtiles : Nat := 0
  qwait  : Bool := false
  trel   : Bool := false
  reld   : Bool := false
  asid   : Nat := 0
  net    : Nat := 0
  args   : List W64 := []
  reads  : List Nat := []
  writes : List Nat := []
  futn   : W64 := 0
  fheld  : Bool := false
  qsect  : Nat := 0
  order  : Nat := 0
  preds  : List Nat := []
  record : Option (List W64) := none
  held   : Option Nat := none
  heldAt : Nat := 0
  ready  : Option Nat := none
  fresh  : List (Nat × Nat) := []
  capt   : Option Nat := none
  doneRq : Bool := false
  replay : Bool := false
  ovf    : Bool := false
  atom   : Nat := 0
  push   : Nat := 0
  store  : Nat := 0
  emits  : Nat := 0
  eng    : Nat := 0
  child  : Nat := 0
  fills  : Nat := 0
  lost   : Nat := 0
  kids   : Option (List (Nat × Nat × Nat)) := none
  sync   : List Link := []
deriving DecidableEq, Repr

/-- A committed version of a tile (R275, R276): who wrote it, and the pool tile that holds it, or none when it
stands at the tile's own address. -/
structure Version where
  asid  : Nat
  tile  : Nat
  order : Nat
  pool  : Option Nat
  net   : Nat
  keep  : Bool
deriving DecidableEq, Repr

/-- The index register of a record ring (R334). -/
structure RingIdx where
  widx : Nat := 0
  ridx : Nat := 0
  lost : Nat := 0
deriving DecidableEq, Repr

/-- A tenant slot of the partition controller (R314). -/
structure Tenant where
  v      : Bool := false
  asid   : Nat := 0
  target : Nat := 0
  recv   : Nat := 0
deriving DecidableEq, Repr

/-- A compute die. `rr` is, for a PRIO, the queue that its front end served last, and `fed` one more than the clock in which it last
started a packet (R302); `hold` is the tenant slot for which free sectors are held (R314). -/
structure Die where
  rpool   : W64 := 0
  tasks   : Tbl Task := []
  orders  : Nat := 0
  vers    : List Version := []
  rring   : W64 := 0
  ridx    : RingIdx := {}
  zspill  : W64 := 0
  alog    : W64 := 0
  alogs   : Tbl (Nat × Nat) := []
  rpGo    : Bool := false
  rpErr   : Bool := false
  rpNet   : Nat := 0
  rpTid   : Nat := 0
  cecnt   : Nat := 0
  uecnt   : Nat := 0
  last    : Nat := 0
  tenants : Tbl Tenant := []
  total   : Nat := 0
  rr      : Tbl Nat := []
  fed     : Nat := 0
  hold    : Option Nat := none
deriving DecidableEq, Repr

/-! ### Net instances, bundles, the module -/

/-- A template instance (R308, R309): template, number, first cell and cell count among the instance's cells,
the task it runs, and whether it is idle. -/
structure Inst where
  tmpl  : Nat
  inst  : Nat
  cells : List Nat
  task  : Option Nat := none
  idle  : Bool := true
deriving DecidableEq, Repr

/-- A net instance (R55, R305, R306). -/
structure Net where
  asid    : Nat := 0
  vm      : Nat := 0
  die     : Nat := 0
  sectors : List Nat := []
  map     : List Nat := []
  insts   : List Inst := []
  image   : List Byte := []
  args    : List (W64 × W64) := []
  fplace  : Option (Nat × Nat) := none
  quanta  : Nat := 0
  templs  : Nat := 0
  bundle  : Nat := 0
  tslot   : Nat := 0
  halted  : Option Nat := none
  frozen  : Option Nat := none
  done    : Bool := false
  idle    : Nat := 0
  active  : Nat := 0
  spill   : Nat := 0
  regions : Tbl (Nat × List Nat) := []
deriving DecidableEq, Repr

/-- A barrier counter (R183): arrivals of the phase, the phase's N, phases completed, and the links of the arrivals of the
phase and of those of completed phases (R290). -/
structure Bar where
  count : Nat := 0
  n     : Nat := 0
  phase : Nat := 0
  sync  : List Link := []
  done  : Tbl (List Link) := []
deriving DecidableEq, Repr

/-- One word or count in flight in the fabric (R35, R43): from a cell or unit to a place of the net instance's
cell; `held` when R35 holds it at a full data place; `rel` is its link where a release sent it (R290). -/
inductive Cargo where
  | tokens (n : Nat)
  | word (w : W64)
  | arm (on : Bool)
deriving DecidableEq, Repr

structure Flight where
  src   : Nat
  dst   : Nat
  index : Nat
  cargo : Cargo
  net   : Nat
  sent  : Nat
  held  : Bool := false
  save  : Bool := false
  rel   : Option Link := none
deriving DecidableEq, Repr

/-- What a net sub-launch carries from its check to its mapping (R305): the image, the argument block and the template table. -/
structure Launch where
  image : List Byte := []
  args  : List (W64 × W64) := []
  ttab  : List W64 := []
deriving DecidableEq, Repr

/-- How far a sub-launch has come (R304, R305): a net record waits for its check, for its sectors, for quanta and a mapping, is
placed, and runs; a preload or copy waits and is then posted, a copy once it has claimed its slot. -/
inductive Stage where
  | asked
  | wanting (l : Launch)
  | granted (l : Launch)
  | placed
  | injected (net : Nat)
  | claimed (idx : Nat)
  | posted
  | complete
deriving DecidableEq, Repr

/-- A bundle that has started (R303, R304). -/
structure Bundle where
  pq     : Nat
  idx    : Nat
  die    : Nat
  asid   : Nat
  body   : W64
  nsub   : Nat
  sig    : W64
  addend : W64
  read   : Bool := false
  recs   : List (List W64) := []
  stages : List Stage := []
deriving DecidableEq, Repr

/-- A physical queue entry (R301) and the front end's view of the queue: whether it is to be read and by which die's front
end (R300), packets started and not retired, and the wait or signal packet that has started (R302, R311). -/
structure PhysQ where
  v      : Bool := false
  vm     : Nat := 0
  asid   : Nat := 0
  prio   : Nat := 0
  tslot  : Nat := 0
  log2n  : Nat := 0
  parked : Bool := false
  nextpq : Nat := 0xFFF
  hdr    : W64 := 0
  arr    : W64 := 0
  rung   : Bool := false
  bell   : Nat := 0
  live   : List Nat := []
  wait   : Option (Nat × Bool × Nat × W64 × W64) := none
deriving DecidableEq, Repr

/-- What the network interface still owes (R313): a packet whose slot in a host queue it has claimed (R299), or a launch packet
whose task waits for room (R272). -/
inductive Incoming where
  | packet (pq idx : Nat) (words : List W64)
  | task (net : Nat) (words : List W64)
deriving DecidableEq, Repr

/-- A posted copy packet that has not completed: where it stands, who posted it, the number of the logged operation,
and for a point copy the path that its count falls under (R187, R190). -/
structure Post where
  hdr   : W64
  path  : Nat
  idx   : Nat
  iss   : Issuer
  ord   : Option Nat := none
  point : Option Bool := none
  seq   : Nat := 0
deriving DecidableEq, Repr

/-- A credit on its way to a ring (R192): the ring's fabric address, the bank offset and length of the bytes, the
stream or walker that sent it, the number of the logged operation and whether a replay drops it (R406), the progress of its engine
(R393), and the link of its engine's release (R290). -/
structure Credit where
  iss    : Issuer
  ring   : Nat
  off    : Nat
  n      : Nat
  src    : Nat
  stream : Option (Nat × Nat) := none
  ord    : Option Nat := none
  drop   : Bool := false
  prog0  : Nat := 0
  prog1  : Nat := 0
  rel    : Option Link := none
deriving DecidableEq, Repr

/-- A collective operation in progress (R204, R342): the number of ranks, the chunks started, the bytes landed, and the chunks
that wait to be sent on, each with its rank, offset, whether it is final, and its bytes (R343). -/
structure Coll where
  iss   : Issuer
  comm  : Nat
  seq   : Nat
  desc  : List W64
  n     : Nat
  rank  : Nat
  vc    : Nat
  peers : W64
  sent  : Nat := 0
  got   : Nat := 0
  out   : List (Nat × Nat × Bool × List Byte) := []
  ord   : Option Nat := none
deriving DecidableEq, Repr

/-- A timer-wheel entry (R344). -/
structure Timer where
  time : W64
  word : W64
  net  : Nat
deriving DecidableEq, Repr

/-- A store that its path has accepted and that is not yet performed at its home (R173, R285): who issued it, whether it
is virtual, its address as issued (a fabric address on chip), its bytes, where translation puts them, the epoch in which
it was translated (R114), its link where it has REL, whether a later access of its chain has been performed, so that it is
performed at `.cell` (R287), its age in clocks (R402), and whether it is performed only after every store of its cell
before it (R187). -/
structure Late where
  iss   : Issuer
  virt  : Bool
  addr  : Nat
  bytes : List Byte
  parts : List (Nat × Nat × Bool)
  epoch : Nat
  rel   : Option Link := none
  done  : Bool := false
  age   : Nat := 0
  last  : Bool := false
deriving DecidableEq, Repr

/-- A peer module (R424): when it was last heard, whether it is lost, the next packet number of each channel, and the numbers of the
packets that have arrived on each. -/
structure Peer where
  heard : Nat := 0
  lost  : Bool := false
  next  : Tbl Nat := []
  got   : Tbl (List Nat) := []
deriving DecidableEq, Repr

/-- A packet that awaits its acknowledgement (R424): until then it holds receive credits of its channel of the port over which
it went (R340). -/
structure TxPacket where
  peer  : Nat
  port  : Nat
  vc    : Nat
  num   : Nat
  tries : Nat
  sent  : Nat
  body  : List Byte
deriving DecidableEq, Repr

/-- The SPDM errors that the device answers with (R423): three by their names, and a vendor-defined one with its code and data. -/
inductive SpdmError where
  | invalidRequest | unsupportedRequest | busy
  | vendorDefined (code : Byte) (data : List Byte)
deriving DecidableEq, Repr

/-- "Signature index exhausted" (R423). -/
def SpdmError.exhausted : SpdmError := .vendorDefined 0xFF [0x01]

/-- What the device answers over SPDM (R339, R423): to the three plain requests, with evidence, or with an error. -/
inductive SpdmAnswer where
  | version | capabilities | algorithms
  | evidence (payload : List Byte)
  | error (e : SpdmError)
deriving DecidableEq, Repr

/-- What the module gave to the outside: a mailbox response (R324), an SPDM answer (R339), a packet to a peer with its port, UDP
destination port, channel and number (R340), the acknowledgement of one, the notice of a fatal fault (R424), a reset that the
masters see. -/
inductive Out where
  | mailbox (m : Master) (tag : Nat) (status : Nat) (words : List W64)
  | spdm (a : SpdmAnswer)
  | packet (peer port udp vc num : Nat) (body : List Byte)
  | ack (peer vc num : Nat)
  | heartbeat (peer : Nat)
  | fatal (port : Nat)
deriving DecidableEq, Repr

/-! ### The capability list and the management cores (R1, R26, R328, R331) -/

/-- The steppings of the module's parts (R1). -/
inductive Stepping where
  | b0 | a2 | a1
deriving DecidableEq, Repr

/-- What a capability record's body identifies (R328, R335, R339): the device with its mailbox, its IDs, the offsets of the module
registers and of the host port's `cr.asidbase`, its identity key's digest and certificate; a compute die with its registers; a stack
(0 to 7) or the tier (8) with its size in bytes and its owner's register block; the scale-out ports. -/
inductive CapBody where
  | device (step : Stepping) (mailbox vendor device module asidbase : Nat) (key : BitVec 512) (cert : List Byte)
  | die (n : Nat) (step : Stepping) (regs : Nat)
  | memory (n : Nat) (step : Stepping) (size regs : Nat)
  | doorbells
  | sensors
  | rings
  | scaleOut (ports commtab : Nat)
deriving DecidableEq, Repr

/-- A capability record (R328): its offset, its header and its body. -/
structure CapRec where
  off  : Nat
  id   : Nat
  ver  : Nat
  next : Nat
  len  : Nat
  body : CapBody
deriving DecidableEq, Repr

/-- The public identity key (R29, R339): the parameter set of R336, the root and the seed. -/
def identityKey : List Byte :=
  Xmss.bigEnd 4 0xC ++ Xmss.node Config.identitySeed Config.identitySecret 20 0 ++ Config.identitySeed
/-- Its digest. -/
def identityDigest : BitVec 512 := BitVec.ofNat 512 (ofBytes (Shake.shake256 identityKey 64))
/-- Its certificate (R339): the key, and the signature of its digest under Limholt's XMSS root. DESIGN CHOICE (log 24): the spec gives a
certificate no form. -/
def identityCert : List Byte :=
  identityKey ++ Xmss.sign Config.limholtSeed Config.limholtRandom Config.limholtSecret 20 Config.limholtIndex
    (Shake.shake256 identityKey 64)

/-- The module's parts, with the ID of their record and the length of its body. DESIGN CHOICE (log 24): the spec gives no lengths
but the sensors', and no mailbox offset, register offsets, vendor and device IDs. -/
def capBodies : List (Nat × Nat × CapBody) :=
  [(1, 0x26F0, .device .b0 0x10000 0 0 0x20000 0x30000 identityDigest identityCert)]
  ++ ((List.range 4).map fun d => (2, 0x18, .die d .b0 (0x100000 * (d + 1))))
  ++ ((List.range 8).map fun k => (3, 0x20, .memory k .a2 (2 ^ 36) (0x800000 + 0x100000 * k)))
  ++ [(3, 0x20, .memory 8 .a1 (2 ^ 40) 0x1000000), (4, 8, .doorbells), (5, 32, .sensors), (6, 0x20, .rings), (7, 0x10, .scaleOut 16 0x20000)]

/-- The offset of record `k`: the device's at 0x80, the others one every 128 bytes from 0x2800 on (log 24). -/
def capOff (k : Nat) : Nat := if k = 0 then 0x80 else 0x2780 + 0x80 * k

/-- The records at reset, each naming the next. -/
def capList : List CapRec :=
  capBodies.zipIdx.map fun e =>
    { off := capOff e.2, id := e.1.1, ver := 1, next := if e.2 + 1 < capBodies.length then capOff (e.2 + 1) else 0
      len := e.1.2.1, body := e.1.2.2 }

/-- The modes of a management core (R26). -/
inductive CoreMode where
  | m | s | u
deriving DecidableEq, Repr

/-- The owner of a protection entry (R331): the monitor, the scheduler, or the plug-in now running, by its tenant slot. -/
inductive PmpOwner where
  | monitor | scheduler
  | plugin (slot : Option Nat)
deriving DecidableEq, Repr

/-- What the entries of an owner grant (R331). -/
inductive Grant where
  | code | data | mailboxes | registers | allocator | policies | requestPage
deriving DecidableEq, Repr

/-- A protection entry (R331). -/
structure Pmp where
  owner  : PmpOwner
  grants : List Grant
  locked : Bool := false
deriving DecidableEq, Repr

/-- The sixteen entries of a core, with the plug-in that runs on it. -/
def pmpOf (slot : Option Nat) : List Pmp :=
  List.replicate 4 { owner := .monitor, grants := [.code, .data, .mailboxes, .registers], locked := true }
  ++ List.replicate 4 { owner := .scheduler, grants := [.code, .data, .allocator, .policies] }
  ++ List.replicate 8 { owner := .plugin slot, grants := [.code, .data, .requestPage] }

/-- A management core (R26, R331): its mode, its protection entries, the plug-in's 4 KiB request page, the integer and floating-point
registers, the pc and the control registers of RV64GC (log 57), the mode in which it took an exception that nothing has answered, and
the clock from which its plug-in owes the end of a request (R422). -/
structure CoreSt where
  mode : CoreMode := .m
  pmp  : List Pmp := pmpOf none
  page : List Byte := []
  x    : List W64 := List.replicate 32 0
  f    : List W64 := List.replicate 32 0
  pc   : W64 := 0
  csr  : Tbl W64 := []
  trap : Option CoreMode := none
  asked : Option Nat := none
deriving DecidableEq, Repr

/-- What a core does (log 57): an instruction leaves registers, it reaches something, it takes an exception, calls its environment, or
returns to a mode. -/
inductive CoreAct where
  | retire (x f : List W64) (pc : W64) (csr : Tbl W64)
  | access (g : Grant)
  | trap
  | call
  | ret (m : CoreMode)
deriving DecidableEq, Repr

/-- A PCIe function's base address registers, where the host has programmed them (R323, R420). -/
structure PcieFn where
  bar0 : Option W64 := none
  bar2 : Option W64 := none
deriving DecidableEq, Repr

/-- Management cluster, boot and drive (R112, R326, R332, R333, R336 to R339, R421, R422). `loading` is a LOAD_IMAGE that
has been accepted and not answered, with the image it read; `restarting` lasts from a watchdog expiry until the monitor
serves again; `stages` are the digests of the loaded stages; `refills` are the sectors that asked for blocks, in order. `capAt` is the
word at offset 0 of the configuration window, `caps` the capability list (R328), `cores` the eight cores, and `sideAt` one more
than the clock of the last command from the side-band port (R327), and `alarms` counts the records of poisoned frames that have
interrupted the monitor (R397). -/
structure Mgmt where
  held     : Bool := true
  recovery : Bool := false
  loading  : Option (Master × Nat × List Byte) := none
  restarting : Bool := false
  staging  : Mem := []
  drive    : Mem := []
  fused    : Nat := 0
  period   : Nat := 1000
  restarts : Nat := 0
  since    : Nat := 0
  sigs     : Nat := 0
  stages   : Tbl (BitVec 512) := []
  refills  : List Nat := []
  policy   : Tbl W64 := []
  keys     : Tbl (BitVec 512) := []
  stopped  : List Nat := []
  sensors  : List W32 := []
  pools    : Tbl (List (BitVec 28)) := []
  limbo    : List (Nat × BitVec 28 × Nat) := []
  verMaj   : Nat := 3
  verMin   : Nat := 0
  capAt    : Nat := 0x80
  caps     : List CapRec := capList
  cores    : List CoreSt := List.replicate 8 {}
  sideAt   : Nat := 0
  alarms   : Nat := 0
deriving DecidableEq, Repr

/-- What reads: a firing, a packet of a copy port, a stream, a lane's job, a walker, the first token of a matrix node, or a
pending push of a ladder (R400). -/
inductive Reader where
  | firing (cell fid : Nat)
  | packet (sector k : Nat)
  | stream (owner n : Nat)
  | lane (owner n : Nat)
  | walker (n : Nat)
  | node (sector : Nat)
  | ladder (sector lad k : Nat)
deriving DecidableEq, Repr

/-- One step of the schedule (log 1): clocks pass, a firing issues its next instruction, or an event happens.
`soft` is the outside world's soft error that a read finds: who reads, the structure code of R400, whether it is
corrected, and the address of the failing unit. `relax` says how far the accesses that follow use the freedom of R285 and
R292, and `perform` has an accepted store performed (log 5). `mail` is a mailbox command of 64 bytes, with the bytes at the bus
address that it may name (R324, R326); `hostWrite`, `hostAdd` and `hostClaim` are writes, FetchAdds and claims in copy queues of the
host or a peer module (R327), and `bar` is the host's programming of a base address (R420); `plugin` is the switch of a core to a
plug-in, `request` a plug-in's environment call with its request page (R331), and `core` what else a core does; `fwStore` and `fwCopy`
are what firmware writes in device memory (R416). -/
inductive Move where
  | tick (n : Nat)
  | issue (cell fid : Nat)
  | event (i : Instr)
  | soft (r : Reader) (code : Nat) (corrected : Bool) (addr : Nat)
  | relax (n : Nat)
  | perform (k : Nat)
  | mail (m : Master) (words : List W64) (data : List Byte)
  | hostWrite (peer : Bool) (asid addr : Nat) (bytes : List Byte)
  | hostAdd (peer : Bool) (asid addr n : Nat)
  | hostClaim (peer : Bool) (asid hdr : Nat)
  | bar (fn : Nat) (two : Bool) (base : W64)
  | plugin (core slot : Nat)
  | request (core : Nat) (page : List Byte)
  | core (n : Nat) (a : CoreAct)
  | fwStore (dpa : Nat) (bytes : List Byte)
  | fwCopy (dst src n : Nat)
deriving DecidableEq, Repr

/-- The module. `past` holds the versions of both byte memories that stood before this one, the latest first; `late` is the
schedule's `relax`, and `stores` are the stores that are accepted and not performed, the oldest first (log 5). `due` are the faults
of the current clock, which are recorded and delivered at its end (R377). `wlog` are the writes of each byte, the latest first
(R290, R294). `served` is, for a channel, one more than the communicator that the collective engine served last (R343). `credited`
says of a ring's slot in which clock it was last credited, one more, and what it and WCNT were before that clock's credits (R192),
and `ringRel` the phase of the slot's last credited ticket and the links of its credits (R290). `pcie` are the functions of the host
link (R323, R420), `incoming` is what the network interface owes (R313), and `account` is one more than the clock in which the power
account last served a request (R321). -/
structure State where
  clock   : Nat
  agenda  : List Move
  cell    : Nat
  fid     : Nat
  free    : Nat
  cells   : Tbl CellSt
  sectors : Tbl Sector
  owners  : Tbl Owner
  dies    : Tbl Die
  banks   : Mem
  mem     : Mem
  range   : Tbl (BitVec 128)
  asids   : Nat
  qcur    : Nat
  htbase  : W64
  htlen   : W64
  dbtab   : Tbl W64
  ltab    : W64
  commtab : W64
  netcfg  : W64
  pool    : Nat
  fring   : W64
  fidx    : RingIdx
  queues  : Tbl PhysQ
  parks   : Tbl (List Nat)
  bundles : Tbl Bundle
  bundleN : Nat
  nets    : Tbl Net
  bars    : Tbl Bar
  flights : List Flight
  credits : List Credit
  posts   : List Post
  postN   : Nat
  colls   : List Coll
  served  : Tbl Nat
  wheel   : List Timer
  saves   : Tbl Ctx
  link    : Bool
  pcie    : Tbl PcieFn
  ports   : BitVec 16
  peers   : Tbl Peer
  sending : List TxPacket
  mgmt    : Mgmt
  outbox  : List Out
  late    : Nat
  stores  : List Late
  past    : List (Mem × Mem)
  due     : List Flt
  wlog    : Tbl (List Written)
  credited : Tbl (Nat × W32 × Nat)
  ringRel : Tbl (Bool × List Link)
  incoming : List Incoming
  account : Nat
deriving DecidableEq, Repr

/-- The module right after reset: every register at the value the spec states; every register the spec states
no value for at 0 (log 4, DESIGN CHOICE); nothing placed, nothing in flight, compute dies held (R336). -/
def State.reset : State where
  clock := 0
  agenda := []
  cell := 0
  fid := 0
  free := 0
  cells := []
  sectors := []
  owners := []
  dies := []
  banks := []
  mem := []
  range := []
  asids := 4096
  qcur := 1
  htbase := 0
  htlen := 0
  dbtab := []
  ltab := 0
  commtab := 0
  netcfg := 0
  pool := 600
  fring := 0
  fidx := {}
  queues := []
  parks := []
  bundles := []
  bundleN := 0
  nets := []
  bars := []
  flights := []
  credits := []
  posts := []
  postN := 0
  colls := []
  served := []
  wheel := []
  saves := []
  link := true
  pcie := []
  ports := 0xFFFF
  peers := []
  sending := []
  mgmt := {}
  outbox := []
  late := 0
  stores := []
  past := []
  due := []
  wlog := []
  credited := []
  ringRel := []
  incoming := []
  account := 0

end Sys2Proof.Machine
end

