-- ==== Sys2Proof/Machine/Cells.lean ====
section
/-! DEFINITION. Reaching the parts of the state: units by number (R14, R90), the current cell and firing, places
and loaded records (R34, R36, R37, R53, R125 to R128). -/
namespace Sys2Proof.Machine

abbrev Res := Host.Outcome State Fault Refusal

/-! ### Units by number. A cell's number is bits [47:32] of its fabric address; a sector's is bits [47:38]. -/

def cellDie (c : Nat) : Nat := c / 2 ^ 14 % 4
def cellSector (c : Nat) : Nat := c / 64
def cellIx (c : Nat) : Nat := c % 64
def sectorDie (k : Nat) : Nat := k / 256 % 4
def sectorIx (k : Nat) : Nat := k % 256
/-- The span in the module that holds a sector (R14). -/
def sectorSpan (k : Nat) : Nat := 2 * sectorDie k + sectorIx k / 84
def cellSpan (c : Nat) : Nat := sectorSpan (cellSector c)
/-- The number of a cell that exists (R14). -/
def cellOk (c : Nat) : Bool := decide (c < 2 ^ 16) && decide (cellIx c < 48) && decide (sectorIx (cellSector c) < 168)
def sectorOk (k : Nat) : Bool := decide (k < 1024) && decide (sectorIx k < 168)
/-- The fabric address of a cell's window 0x0000. -/
def cellAddr (c : Nat) : Nat := c * 2 ^ 32

/-- A clock that has not been passed, or none. -/
def notPast (clock : Nat) : Option Nat → Bool
  | none => true
  | some k => decide (clock ≤ k)

namespace State

def cellAt (s : State) (c : Nat) : CellSt := Tbl.get {} s.cells c
def setCell (s : State) (c : Nat) (x : CellSt) : State := { s with cells := Tbl.put s.cells c x }
def modCell (s : State) (c : Nat) (f : CellSt → CellSt) : State := s.setCell c (f (s.cellAt c))
def sectorAt (s : State) (k : Nat) : Sector := Tbl.get {} s.sectors k
def setSector (s : State) (k : Nat) (x : Sector) : State := { s with sectors := Tbl.put s.sectors k x }
def modSector (s : State) (k : Nat) (f : Sector → Sector) : State := s.setSector k (f (s.sectorAt k))
def ownerAt (s : State) (o : Nat) : Owner := Tbl.get {} s.owners o
def setOwner (s : State) (o : Nat) (x : Owner) : State := { s with owners := Tbl.put s.owners o x }
def modOwner (s : State) (o : Nat) (f : Owner → Owner) : State := s.setOwner o (f (s.ownerAt o))
def dieAt (s : State) (d : Nat) : Die := Tbl.get {} s.dies d
def setDie (s : State) (d : Nat) (x : Die) : State := { s with dies := Tbl.put s.dies d x }
def modDie (s : State) (d : Nat) (f : Die → Die) : State := s.setDie d (f (s.dieAt d))
def setNet (s : State) (n : Nat) (x : Net) : State := { s with nets := Tbl.put s.nets n x }
def modNet (s : State) (n : Nat) (f : Net → Net) : State :=
  match Tbl.find s.nets n with
  | some x => s.setNet n (f x)
  | none => s
/-- Every cell of the module changed. -/
def mapCells (s : State) (f : Nat → CellSt → CellSt) : State := { s with cells := Tbl.mapV f s.cells }

/-! ### The current cell and firing -/

/-- The schedule's firing becomes the current one. -/
def focus (s : State) (cell fid : Nat) : State := { s with cell := cell, fid := fid }

def ctx (s : State) : Ctx := (s.cellAt s.cell).run
def modCtx (s : State) (f : Ctx → Ctx) : State := s.modCell s.cell fun c => { c with run := f c.run }

end State

def firingOf (fs : List Firing) (id : Nat) : Option Firing := fs.find? fun f => f.id == id

namespace State

/-- The current firing; a blank one where the schedule names none. -/
def me (s : State) : Firing := (firingOf s.ctx.firings s.fid).getD {}
def modMe (s : State) (f : Firing → Firing) : State :=
  s.modCtx fun c => { c with firings := c.firings.map fun x => if x.id = s.fid then f x else x }
/-- The current firing exists and is in progress. -/
def live (s : State) : Bool :=
  match firingOf s.ctx.firings s.fid with
  | some f => !f.ended
  | none => false

end State

/-! ### Loaded records (R125 to R128) -/

/-- An arc (R126). -/
structure Arc where
  place  : Nat
  weight : Nat
  kind   : Nat
  group  : Nat
deriving DecidableEq, Repr

def arcOf (w : Nat) : Arc := ⟨w / 256 % 256, w / 16 % 16, w / 4 % 4, w % 4⟩

def recHeader (r : List Byte) : W64 := BitVec.ofNat 64 (ofBytes (r.take 8))
def recNin (r : List Byte) : Nat := fld (recHeader r) 63 58
def recNout (r : List Byte) : Nat := fld (recHeader r) 57 52
def recPrio (r : List Byte) : Nat := fld (recHeader r) 51 49
def recHint (r : List Byte) : Bool := (recHeader r).getLsbD 48
def recBlen (r : List Byte) : Nat := fld (recHeader r) 47 40
def recArcN (r : List Byte) : Nat := recNin r + recNout r
/-- The byte of the record at which the body starts: after the arcs and the pad word (R127). -/
def recBodyAt (r : List Byte) : Nat := 8 + 2 * (recArcN r + recArcN r % 2)
def recArc (r : List Byte) (k : Nat) : Arc := arcOf (ofBytes ((r.drop (8 + 2 * k)).take 2))
def recIns (r : List Byte) : List Arc := (List.range (recNin r)).map (recArc r)
def recOuts (r : List Byte) : List Arc := (List.range (recNout r)).map fun k => recArc r (recNin r + k)
/-- The bytes of the body from one of its words on. -/
def recBody (r : List Byte) (woff : Nat) : List Byte :=
  ((r.drop (recBodyAt r)).take (4 * recBlen r)).drop (4 * woff)

/-! ### Places (R33 to R37) -/

def Place.isData (p : Place) : Bool := p.kind == 2
def Place.isControl (p : Place) : Bool := p.kind == 1
/-- COUNT (R34): tokens, or words queued in the cell and in any extension. -/
def Place.n (p : Place) : Nat := if p.isData then p.words.length + p.more.length else p.count
/-- A word moves from the extension into the cell (R383). -/
def Place.moving (p : Place) : Bool := decide (p.words.length < 4) && !p.more.isEmpty
/-- The count that enabling and reserve see: while a word moves into the cell, only the words there (R383). -/
def Place.avail (p : Place) : Nat := if p.isData && p.moving then p.words.length else p.n
/-- A data place has room below its capacity (R33, R383). -/
def Place.room (p : Place) : Bool := decide (p.words.length + p.more.length < p.cap)
/-- The words in order, the first four of them in the cell (R33, R383). -/
def Place.withWords (p : Place) (ws : List W64) : Place := { p with words := ws.take 4, more := ws.drop 4 }
def Place.all (p : Place) : List W64 := p.words ++ p.more
def Place.join (p : Place) (w : W64) : Place :=
  if p.moving then { p with more := p.more ++ [w] } else p.withWords (p.all ++ [w])
/-- The oldest words of the extension have moved into the cell. -/
def Place.refill (p : Place) : Place := if p.moving then p.withWords p.all else p

/-- The effective weight of an arc (R37): field 0 is 16 on a control place, and for an inhibitor on a place of either kind. -/
def Arc.w (a : Arc) (p : Place) : Nat := if a.weight = 0 && (!p.isData || a.kind == 1) then 16 else a.weight
/-- The enabling condition of an input arc (R36). -/
def Arc.enabled (a : Arc) (p : Place) : Bool :=
  match a.kind with
  | 1 => decide (p.avail < a.w p)
  | 3 => true
  | _ => decide (a.w p ≤ p.avail)
/-- The links of the `w` oldest tokens of a place. -/
def linksTaken (w : Nat) (ls : List TokLink) : List TokLink :=
  (ls.filter fun l => decide (l.start < w)).map fun l => { l with n := min l.n (w - l.start) }
/-- The links of the others, once those are gone. -/
def linksLeft (w : Nat) (ls : List TokLink) : List TokLink :=
  (ls.filter fun l => decide (w < l.start + l.n)).map fun l =>
    { l with start := l.start - w, n := l.n - (w - l.start) }
/-- The effect of an input arc at reserve: the place after it, and what it took (R36), the oldest tokens first (R290). -/
def Arc.reserve (a : Arc) (p : Place) : Place × Option Deduct :=
  let left (w : Nat) (q : Place) : Place := { q with rel := linksLeft w p.rel }
  match a.kind with
  | 0 => if p.isData then
           (left (a.w p) { p with words := p.words.drop (a.w p) }, some ⟨a.place, a.w p, p.words.take (a.w p), linksTaken (a.w p) p.rel⟩)
         else (left (a.w p) { p with count := p.count - a.w p }, some ⟨a.place, a.w p, [], linksTaken (a.w p) p.rel⟩)
  | 3 => if p.isData then
           if p.moving then
             (left p.avail { p with words := [] }, some ⟨a.place, p.avail, p.words, linksTaken p.avail p.rel⟩)
           else (left p.n (p.withWords []), some ⟨a.place, p.n, p.all, p.rel⟩)
         else (left p.n { p with count := 0 }, some ⟨a.place, p.count, [], p.rel⟩)
  | _ => (p, none)
/-- The effect of an input arc at refund (R36): tokens return, words return to the head. DESIGN CHOICE (log 58): where arrivals
have taken the room since, a data place then holds more words than its capacity, and a control place more than 4,095 tokens:
the spec returns them and says no more. -/
def Deduct.refund (d : Deduct) (p : Place) : Place :=
  let rel := d.rel ++ p.rel.map fun l => { l with start := l.start + d.n }
  if p.isData then { p.withWords (d.words ++ p.all) with rel := rel } else { p with count := p.count + d.n, rel := rel }
/-- Tokens that come with a link join a place, behind those that it holds. -/
def Place.linked (p : Place) (n : Nat) (l : Option Link) (q : Place) : Place :=
  match l with
  | none => q
  | some l => { q with rel := p.rel ++ [⟨p.n, n, l⟩] }

def Ctx.place (c : Ctx) (p : Nat) : Place := Tbl.get {} c.places p
def Ctx.setPlace (c : Ctx) (p : Nat) (x : Place) : Ctx := { c with places := Tbl.put c.places p x }
def Ctx.tr (c : Ctx) (t : Nat) : Trans := Tbl.get {} c.trans t
def Ctx.setTr (c : Ctx) (t : Nat) (x : Trans) : Ctx := { c with trans := Tbl.put c.trans t x }
/-- Firings in progress (R42). -/
def Ctx.busy (c : Ctx) : List Firing := c.firings.filter fun f => !f.ended
/-- HELD of a place (R34). -/
def Ctx.held (c : Ctx) (p : Nat) : Nat :=
  (c.busy.map fun f => ((f.taken.filter fun d => d.place == p).map fun d => d.n).sum).sum
/-- INFL of a transition (R53). -/
def Ctx.infl (c : Ctx) (t : Nat) : Nat := (c.busy.filter fun f => f.trans == t).length
/-- Is the transition enabled against the marking (R38)? -/
def Ctx.enabled (c : Ctx) (t : Nat) : Bool :=
  let x := c.tr t
  x.loaded && x.armed && (recIns x.record).all fun a => a.enabled (c.place a.place)

/-! ### Register values (R45) -/

/-- A register of a kind (`Poked`), where a set of values holds it. -/
def Regs.at (r : Regs) (kind n : Nat) : Option Lane :=
  match kind with
  | 0 => (Tbl.find r.g n).map fun x => x.setWidth 512
  | 1 => Tbl.find r.v n
  | _ => (Tbl.find r.sh n).map fun x => x.setWidth 512

/-- A set of values with one register of a kind written. -/
def Regs.set (r : Regs) (kind n : Nat) (x : Lane) : Regs :=
  match kind with
  | 0 => { r with g := Tbl.put r.g n (x.setWidth 64) }
  | 1 => { r with v := Tbl.put r.v n x }
  | _ => { r with sh := Tbl.put r.sh n (x.setWidth 64) }

/-- One set of register values written over another. -/
def Regs.atop (b l : Regs) : Regs :=
  ⟨l.g.foldl (fun t e => Tbl.put t e.1 e.2) b.g, l.v.foldl (fun t e => Tbl.put t e.1 e.2) b.v,
    l.sh.foldl (fun t e => Tbl.put t e.1 e.2) b.sh⟩

/-- Firings that are over and have no earlier firing left give their register writes to the cell. -/
def settle (r : Regs) : List Firing → Regs × List Firing
  | [] => (r, [])
  | f :: fs => if f.ended then settle (r.atop f.regs) fs else (r, f :: fs)

def Ctx.settle (c : Ctx) : Ctx :=
  let (r, fs) := Machine.settle c.regs c.firings
  { c with regs := r, firings := fs }

/-- The latest value among firings, latest first. -/
def latest {α : Type} (sel : Firing → Option α) : List Firing → Option α
  | [] => none
  | f :: fs => match sel f with
    | some x => some x
    | none => latest sel fs

/-- The firings selected no later than one, latest first. -/
def notLater (fs : List Firing) (id : Nat) : List Firing := (fs.filter fun f => decide (f.id ≤ id)).reverse

namespace State

/-- A register as it stands for the current firing (R45): the latest of its own and of earlier-selected firings' values, else the
cell's. -/
def heldReg {α : Type} (s : State) (sel : Regs → Tbl α) (d : α) (n : Nat) : α :=
  (latest (fun f => Tbl.find (sel f.regs) n) (notLater s.ctx.firings s.fid)).getD (Tbl.get d (sel s.ctx.regs) n)
/-- A register as the current firing reads it: the value that a window write has replaced while the firing waits (R95), else the
register as it stands. -/
def readReg {α : Type} (s : State) (sel : Regs → Tbl α) (d : α) (n : Nat) : α := (Tbl.find (sel s.me.keep) n).getD (s.heldReg sel d n)
/-- A general register as the current firing reads it; g0 reads 0 (R142). -/
def readG (s : State) (r : Rg) : W64 := if r = 0 then 0 else s.readReg (·.g) 0 r.toNat
/-- A general register as the current firing writes it (R45); g0 discards writes (R142). -/
def writeG (s : State) (r : Rg) (x : W64) : State :=
  if r = 0 then s else s.modMe fun f => { f with regs := { f.regs with g := Tbl.put f.regs.g r.toNat x } }
def readV (s : State) (n : Nat) : Lane := s.readReg (·.v) 0 n
def writeV (s : State) (n : Nat) (x : Lane) : State :=
  s.modMe fun f => { f with regs := { f.regs with v := Tbl.put f.regs.v n x } }
def readSh (s : State) (n : Nat) : W64 := s.readReg (·.sh) 0 n
/-- The registers as they stand for the current firing. -/
def heldG (s : State) (r : Rg) : W64 := if r = 0 then 0 else s.heldReg (·.g) 0 r.toNat
def heldV (s : State) (n : Nat) : Lane := s.heldReg (·.v) 0 n
def heldSh (s : State) (n : Nat) : W64 := s.heldReg (·.sh) 0 n

/-- The current transition. -/
def myTrans (s : State) : Trans := s.ctx.tr s.me.trans
/-- The priority of the current firing's transition. -/
def prio (s : State) : Nat := recPrio s.myTrans.record
/-- The issuer of what the current firing sends (R373). -/
def issuer (s : State) : Issuer where
  cell := s.cell
  net := s.ctx.net
  asid := s.ctx.asid
  trans := s.me.trans
  woff := s.me.woff
  ioff := s.myTrans.ioff + 4 * s.me.woff
  tv := true
  fid := s.fid

/-- May the current firing go on in this clock: it was selected, and its last instruction completed, in an earlier one
(R41)? -/
def clockDone (s : State) : Bool := s.me.last ≠ s.clock + 1

/-- The instruction is complete: the next one stands `n` words further (R41). -/
def advance (s : State) (n : Nat) : State :=
  s.modMe fun f => { f with woff := f.woff + n, wait := none, arg := none, age := 0, last := s.clock + 1, recs := none, genEp := none, keep := {} }
/-- The choice code, set when the instruction's S bit is 1 (R39). -/
def choose (s : State) (b : Bool) (c : BitVec 2) : State :=
  if b then s.modMe fun f => { f with choice := c } else s
/-- The firing passes its commit point (R46). -/
def commit (s : State) : State := s.modMe fun f => { f with commit := true }
/-- The firing waits in an instruction whose wave word, where it has one, is taken. -/
def waitIn (s : State) (i : Instr) (arg : Option Nat) (addr : Nat) : State :=
  s.modMe fun f => { f with wait := some i, arg := arg, addr := addr, queued := false }
/-- A free value for one use. -/
def takeFree (s : State) : Nat × State := (s.free, { s with free := s.free + 1 })

end State

end Sys2Proof.Machine
end

