-- ==== Sys2Proof/Machine/Flags.lean ====
section
/-! DEFINITION. Choice codes from results (R39) and the flags of `cr.fstat` (R71 to R73). -/
namespace Sys2Proof.Machine

/-- The choice code of a signed 64-bit result (R39). -/
def codeSigned (x : W64) : BitVec 2 := if x = 0 then 1 else if x.msb then 2 else 0
/-- The choice code of an unsigned 64-bit result (R39). -/
def codeUnsigned (x : W64) : BitVec 2 := if x = 0 then 1 else 0
/-- The choice code of an integer (R39). -/
def codeInt (x : Int) : BitVec 2 := if x = 0 then 1 else if x < 0 then 2 else 0

namespace State

/-- Flags that the firing's body collects; they join `cr.fstat` at deposit (R73). -/
def flag (s : State) (fl : BitVec 5) : State := s.modMe fun f => { f with flags := f.flags ||| fl }
/-- `cr.fstat` as `csrr` reads it: the register or the flags collected so far (R73, R168). -/
def fstat (s : State) : BitVec 5 := s.ctx.fstat ||| s.me.flags

end State

end Sys2Proof.Machine
end

