-- ==== Sys2Proof/WellFormed.lean ====
section
/-! DEFINITION. Which field values of an instruction the load-time checks accept (R141, R409). -/
namespace Sys2Proof

/-- ACQ = REL = 0 needs SCOPE 0 (R171). -/
def Wave.flagsOk (w : Wave) : Bool := w.acq || w.rel || w.scope == 0
/-- A fence or barrier has ACQ = REL = 0 (R171). -/
def Wave.fenceOk (w : Wave) : Bool := !w.acq && !w.rel
/-- OWN below 0xFE and SCOPE at most 0b101 (R122). -/
def Wave.rangeOk (w : Wave) : Bool := decide (w.own.toNat < 254) && decide (w.scope.toNat ≤ 5)
/-- PATH is one of the instruction's paths (R88, R174, R184). -/
def Wave.pathIn (w : Wave) (ps : List Nat) : Bool := ps.contains w.path.toNat

/-- The control-register numbers that R166 and R317 assign. -/
def csrAssigned (k : Nat) : Bool := decide (k ≤ 4) || k == 0x100 || k == 0x101

/-- The shapes of the vector instructions' fields: which selectors, RND, SAT, CHAIN and IMM an entry uses and
which types it lists (R212, R218 to R232). -/
inductive VRule where
  | arith3 | arith2 | pick | sign | redPick | copy | select | logic | compare | perm | shuf | bcast | chain | mulc | dot
  | convert | pack | scale | quant | dequant | special | sqrtFn
deriving DecidableEq, Repr

/-- Integer type codes (R61). -/
def tyIsInt (t : Nat) : Bool := decide (t ≤ 7)

/-- Unused selectors, RND, SAT, CHAIN and IMM hold 0 (R212, cause 0x05): largest and smallest values and signs are not
rounded, and of these only `vabs` and `vneg` saturate (R219, R222). -/
def VRule.unusedOk (r : VRule) (v : VOp) : Bool :=
  let usesA := r ≠ .bcast
  let usesB := match r with
    | .arith3 | .pick | .select | .logic | .compare | .perm | .chain | .mulc | .dot => true
    | .shuf => v.imm == 0
    | _ => false
  let usesRnd := match r with
    | .arith3 | .arith2 | .dot | .convert | .scale | .quant | .dequant | .special | .sqrtFn => true
    | _ => false
  let usesSat := usesRnd || r == .sign
  (usesA || v.shA == 0) && (usesB || v.shB == 0) && (usesRnd || v.rnd == 0) && (usesSat || !v.sat)
    && ((r == .chain || r == .mulc) || v.chain == 0)
    && (match r with
        | .select => v.imm.toNat < 16
        | .shuf | .quant => true
        | _ => v.imm == 0)

/-- Type, rounding code, pattern, chain and budget lie in the entry's range (R68, R212, R219, R223, R225,
R230, R232, cause 0x06). -/
def VRule.rangeOk (r : VRule) (v : VOp) : Bool :=
  let t := v.ty.toNat
  v.rnd ≠ 6 &&
  (match r with
   | .arith3 | .arith2 => decide (t ≤ 12) && (!tyIsInt t || v.rnd == 0)
   | .select | .compare | .pick | .sign | .redPick => decide (t ≤ 12)
   | .copy | .perm | .bcast | .convert | .pack => decide (t ≤ 12) || t == 14
   | .shuf => decide (t ≤ 12) && decide (v.imm.toNat ≤ 3)
   | .logic => tyIsInt t
   | .chain => t == 7
   | .mulc => t == 7 && decide (1 ≤ v.chain.toNat) && decide (v.chain.toNat ≤ 8)
   | .dot => [0, 1, 2, 3, 5, 6, 8, 9, 10, 11, 12, 13].contains t
   | .scale => decide (8 ≤ t) && decide (t ≤ 12)
   | .quant => [0, 1, 11, 12, 13].contains t && (if t == 13 then decide (v.imm.toNat ≤ 10) else v.imm == 0)
   | .dequant | .sqrtFn => decide (8 ≤ t) && decide (t ≤ 10)
   | .special => decide (8 ≤ t) && decide (t ≤ 10) && (t ≠ 8 || v.rnd == 0))

/-- Well-formedness of an instruction: the field values that the load-time checks of R141 accept (the rules
that refer to the rest of the net, R124 and R145, are checks of the image). An event has no encoding and is
always well-formed: what it names is judged when it happens. -/
def Instr.wf : Instr → Bool
  | .firingSelect _ => true
  | .firingDeposit _ _ => true
  | .tokenArrival _ => true
  | .wordArrival _ => true
  | .heldWordDelivery _ => true
  | .entryWordJoin _ _ => true
  | .netInstanceComplete _ => true
  | .scrubComplete _ => true
  | .accessReply _ _ => true
  | .conditionWaitEnd _ _ => true
  | .emit rel scope a _ count _ => (rel || scope == 0) && (scope.toNat < 6) && (a == 0 || count == 0)
  | .emitW rel scope _ _ _ => (rel || scope == 0) && (scope.toNat < 6)
  | .take _ _ _ => true
  | .mcount _ _ _ => true
  | .mset a _ count => (a == 0 || count == 0)
  | .arm _ _ => true
  | .disarm _ _ => true
  | .sel _ => true
  | .selx _ => true
  | .safept => true
  | .halt => true
  | .trap _ => true
  | .nop => true
  | .cfgLoad _ _ => true
  | .csrr _ reg _ => (csrAssigned reg.toNat)
  | .csrw _ _ reg => (csrAssigned reg.toNat)
  | .csrs _ _ reg => (csrAssigned reg.toNat)
  | .csrc _ _ reg => (csrAssigned reg.toNat)
  | .add _ _ _ _ => true
  | .sub _ _ _ _ => true
  | .mul _ _ _ _ => true
  | .mulh _ _ _ _ => true
  | .mulhz _ _ _ _ => true
  | .div _ _ _ _ => true
  | .divz _ _ _ _ => true
  | .rem _ _ _ _ => true
  | .remz _ _ _ _ => true
  | .and _ _ _ _ => true
  | .or _ _ _ _ => true
  | .xor _ _ _ _ => true
  | .andn _ _ _ _ => true
  | .shl _ _ _ _ => true
  | .shr _ _ _ _ => true
  | .sra _ _ _ _ => true
  | .rol _ _ _ _ => true
  | .min _ _ _ _ => true
  | .max _ _ _ _ => true
  | .minz _ _ _ _ => true
  | .maxz _ _ _ _ => true
  | .clz _ _ _ => true
  | .ctz _ _ _ => true
  | .pop _ _ _ => true
  | .mov _ _ _ => true
  | .sext _ _ _ _ => true
  | .zext _ _ _ _ => true
  | .bext _ _ _ _ => true
  | .bins _ _ _ _ => true
  | .addr _ _ _ _ => true
  | .li _ _ _ => true
  | .lih _ _ _ => true
  | .addi _ _ _ _ => true
  | .andi _ _ _ _ => true
  | .ori _ _ _ _ => true
  | .xori _ _ _ _ => true
  | .shli _ _ _ _ => true
  | .shri _ _ _ _ => true
  | .srai _ _ _ _ => true
  | .ld tc _ _ _ _ w => (1 ≤ tc.toNat && tc.toNat ≤ 7) && w.flagsOk && w.rangeOk && (w.pathIn [0, 1, 2, 3])
  | .st tc _ _ _ w => (1 ≤ tc.toNat && tc.toNat ≤ 4) && w.flagsOk && w.rangeOk && (w.pathIn [0, 1, 2, 3])
  | .vld _ _ _ w => w.flagsOk && w.rangeOk && (w.pathIn [0, 1, 2, 3])
  | .vst _ _ _ w => w.flagsOk && w.rangeOk && (w.pathIn [0, 1, 2, 3])
  | .ldx tc _ _ _ _ _ w => (1 ≤ tc.toNat && tc.toNat ≤ 7) && w.flagsOk && w.rangeOk && (w.pathIn [0, 1, 2, 3])
  | .stx tc _ _ _ _ w => (1 ≤ tc.toNat && tc.toNat ≤ 4) && w.flagsOk && w.rangeOk && (w.pathIn [0, 1, 2, 3])
  | .ldh _ _ _ _ _ w => w.flagsOk && w.rangeOk && (w.pathIn [4])
  | .aadd _ _ _ _ _ _ w => w.flagsOk && w.rangeOk && (w.pathIn [0, 1, 2, 3])
  | .aand _ _ _ _ _ _ w => w.flagsOk && w.rangeOk && (w.pathIn [0, 1, 2, 3])
  | .aor _ _ _ _ _ _ w => w.flagsOk && w.rangeOk && (w.pathIn [0, 1, 2, 3])
  | .axor _ _ _ _ _ _ w => w.flagsOk && w.rangeOk && (w.pathIn [0, 1, 2, 3])
  | .amin _ _ _ _ _ _ w => w.flagsOk && w.rangeOk && (w.pathIn [0, 1, 2, 3])
  | .amax _ _ _ _ _ _ w => w.flagsOk && w.rangeOk && (w.pathIn [0, 1, 2, 3])
  | .aminz _ _ _ _ _ _ w => w.flagsOk && w.rangeOk && (w.pathIn [0, 1, 2, 3])
  | .amaxz _ _ _ _ _ _ w => w.flagsOk && w.rangeOk && (w.pathIn [0, 1, 2, 3])
  | .axchg _ _ _ _ _ _ w => w.flagsOk && w.rangeOk && (w.pathIn [0, 1, 2, 3])
  | .acas _ _ _ _ _ _ w => w.flagsOk && w.rangeOk && (w.pathIn [0, 1, 2, 3])
  | .afaddF32 _ _ _ _ _ w => w.flagsOk && w.rangeOk && (w.pathIn [0, 1, 2, 3])
  | .afmaxF32 _ _ _ _ _ w => w.flagsOk && w.rangeOk && (w.pathIn [0, 1, 2, 3])
  | .fenceAcq w => w.fenceOk && w.rangeOk && (w.pathIn [0])
  | .fenceRel w => w.fenceOk && w.rangeOk && (w.pathIn [0])
  | .fenceFull w => w.fenceOk && w.rangeOk && (w.pathIn [0])
  | .bar _ n w => (1 ≤ n.toNat) && w.fenceOk && w.rangeOk && (w.pathIn [0]) && (w.scope.toNat ≤ 3) && (w.scope ≠ 0 || n == 1)
  | .cpyPost _ _ _ _ w => w.flagsOk && w.rangeOk && (w.pathIn [0, 1, 2, 3])
  | .drain w => w.flagsOk && w.rangeOk && (w.pathIn [2, 3])
  | .ringInit _ _ slotu _ base _ w => (slotu ≠ 0) && (base.toNat % 64 == 0) && w.flagsOk && w.rangeOk && (w.pathIn [0])
  | .ringAwait _ _ _ _ w => w.flagsOk && w.rangeOk && (w.pathIn [0])
  | .ringAwaitFree _ _ _ _ w => w.flagsOk && w.rangeOk && (w.pathIn [0])
  | .ringRel _ _ w => w.flagsOk && w.rangeOk && (w.pathIn [0])
  | .strSub _ _ _ w => w.flagsOk && w.rangeOk && (w.pathIn [0])
  | .strUnsub _ _ w => w.flagsOk && w.rangeOk && (w.pathIn [0])
  | .strRet _ _ _ w => w.flagsOk && w.rangeOk && (w.pathIn [0])
  | .walkPost _ _ w => w.flagsOk && w.rangeOk && (w.pathIn [0])
  | .collPost _ _ _ w => w.flagsOk && w.rangeOk && (w.pathIn [0])
  | .sigAdd _ _ _ _ w => w.flagsOk && w.rangeOk && (w.pathIn [3])
  | .copyPacketStart _ _ => true
  | .copyPacketComplete _ _ => true
  | .ringCredit _ => true
  | .pushStreamTile _ _ => true
  | .pullStreamTile _ _ => true
  | .walkResultWrite _ => true
  | .collectiveChunkSend _ => true
  | .collectiveChunkLand _ _ _ _ => true
  | .collectiveComplete _ => true
  | .vadd v _ => (VRule.arith3).unusedOk v && (VRule.arith3).rangeOk v
  | .vsub v _ => (VRule.arith3).unusedOk v && (VRule.arith3).rangeOk v
  | .vmul v _ => (VRule.arith3).unusedOk v && (VRule.arith3).rangeOk v
  | .vfma v _ => (VRule.arith3).unusedOk v && (VRule.arith3).rangeOk v
  | .vfms v _ => (VRule.arith3).unusedOk v && (VRule.arith3).rangeOk v
  | .vnfma v _ => (VRule.arith3).unusedOk v && (VRule.arith3).rangeOk v
  | .vmax v _ => (VRule.pick).unusedOk v && (VRule.pick).rangeOk v
  | .vmin v _ => (VRule.pick).unusedOk v && (VRule.pick).rangeOk v
  | .vabs v _ => (VRule.sign).unusedOk v && (VRule.sign).rangeOk v
  | .vneg v _ => (VRule.sign).unusedOk v && (VRule.sign).rangeOk v
  | .vcpy v _ => (VRule.copy).unusedOk v && (VRule.copy).rangeOk v
  | .vsel v _ => (VRule.select).unusedOk v && (VRule.select).rangeOk v
  | .vand v _ => (VRule.logic).unusedOk v && (VRule.logic).rangeOk v
  | .vor v _ => (VRule.logic).unusedOk v && (VRule.logic).rangeOk v
  | .vxor v _ => (VRule.logic).unusedOk v && (VRule.logic).rangeOk v
  | .vshl v _ => (VRule.logic).unusedOk v && (VRule.logic).rangeOk v
  | .vshr v _ => (VRule.logic).unusedOk v && (VRule.logic).rangeOk v
  | .vsra v _ => (VRule.logic).unusedOk v && (VRule.logic).rangeOk v
  | .vcmpEq v _ => (VRule.compare).unusedOk v && (VRule.compare).rangeOk v
  | .vcmpNe v _ => (VRule.compare).unusedOk v && (VRule.compare).rangeOk v
  | .vcmpLt v _ => (VRule.compare).unusedOk v && (VRule.compare).rangeOk v
  | .vcmpLe v _ => (VRule.compare).unusedOk v && (VRule.compare).rangeOk v
  | .vcmpGt v _ => (VRule.compare).unusedOk v && (VRule.compare).rangeOk v
  | .vcmpGe v _ => (VRule.compare).unusedOk v && (VRule.compare).rangeOk v
  | .vredSum v _ => (VRule.arith2).unusedOk v && (VRule.arith2).rangeOk v
  | .vredMax v _ => (VRule.redPick).unusedOk v && (VRule.redPick).rangeOk v
  | .vredMin v _ => (VRule.redPick).unusedOk v && (VRule.redPick).rangeOk v
  | .vscanSum v _ => (VRule.arith2).unusedOk v && (VRule.arith2).rangeOk v
  | .vscanMax v _ => (VRule.redPick).unusedOk v && (VRule.redPick).rangeOk v
  | .vperm v => (VRule.perm).unusedOk v && (VRule.perm).rangeOk v
  | .vshuf v => (VRule.shuf).unusedOk v && (VRule.shuf).rangeOk v
  | .vbcast _ v => (VRule.bcast).unusedOk v && (VRule.bcast).rangeOk v
  | .vaddc _ v _ => (VRule.chain).unusedOk v && (VRule.chain).rangeOk v
  | .vsubc _ v _ => (VRule.chain).unusedOk v && (VRule.chain).rangeOk v
  | .vmulc v _ => (VRule.mulc).unusedOk v && (VRule.mulc).rangeOk v
  | .vdot v _ => (VRule.dot).unusedOk v && (VRule.dot).rangeOk v
  | .vcvt v _ => (VRule.convert).unusedOk v && (VRule.convert).rangeOk v
  | .vpack v => (VRule.pack).unusedOk v && (VRule.pack).rangeOk v
  | .vunpack v => (VRule.pack).unusedOk v && (VRule.pack).rangeOk v
  | .vscale _ v _ => (VRule.scale).unusedOk v && (VRule.scale).rangeOk v
  | .vqnt v => (VRule.quant).unusedOk v && (VRule.quant).rangeOk v
  | .vdq v => (VRule.dequant).unusedOk v && (VRule.dequant).rangeOk v
  | .vexp2 v _ => (VRule.special).unusedOk v && (VRule.special).rangeOk v
  | .vlog2 v _ => (VRule.special).unusedOk v && (VRule.special).rangeOk v
  | .vrcp v _ => (VRule.special).unusedOk v && (VRule.special).rangeOk v
  | .vrsqrt v _ => (VRule.special).unusedOk v && (VRule.special).rangeOk v
  | .vsqrt v _ => (VRule.sqrtFn).unusedOk v && (VRule.sqrtFn).rangeOk v
  | .vtanh v _ => (VRule.special).unusedOk v && (VRule.special).rangeOk v
  | .vsig v _ => (VRule.special).unusedOk v && (VRule.special).rangeOk v
  | .vsilu v _ => (VRule.special).unusedOk v && (VRule.special).rangeOk v
  | .vgelu v _ => (VRule.special).unusedOk v && (VRule.special).rangeOk v
  | .mxLds _ _ _ km1 _ _ _ w => (km1.toNat ≤ 95) && w.flagsOk && w.rangeOk && (w.pathIn [1])
  | .mxMul _ _ _ _ km1 _ _ _ _ _ w => (km1.toNat ≤ 95) && w.flagsOk && w.rangeOk && (w.pathIn [1])
  | .mxMulb _ _ km1 _ _ _ w => (km1.toNat ≤ 95) && w.flagsOk && w.rangeOk && (w.pathIn [0])
  | .mxDrain _ _ _ _ _ _ _ _ _ _ w => w.flagsOk && w.rangeOk && (w.pathIn [1, 2])
  | .mxScl _ _ _ w => w.flagsOk && w.rangeOk && (w.pathIn [0])
  | .mxCfg _ aty bty _ _ _ _ w => (aty ≠ 15 && bty ≠ 15) && w.flagsOk && w.rangeOk && (w.pathIn [0])
  | .mxSwap => true
  | .mxClr _ => true
  | .mxStat _ _ _ => true
  | .mxStatClr _ _ _ => true
  | .nzCfg _ _ mode w => (mode.toNat ≤ 5) && w.flagsOk && w.rangeOk && (w.pathIn [0])
  | .mxTokenAccept _ => true
  | .mxTokenComplete _ => true
  | .regionDrainStart _ _ => true
  | .dlPost _ _ _ _ w => w.flagsOk && w.rangeOk && (w.pathIn [0])
  | .dlJobComplete _ _ => true
  | .dlMerge _ _ _ _ _ _ w => w.flagsOk && w.rangeOk && (w.pathIn [2])
  | .khNew _ _ _ _ => true
  | .khBound _ _ _ => true
  | .khGen _ _ => true
  | .ladInit _ _ mode nrm1 _ _ w => (mode ≠ 3) && (nrm1.toNat ≤ 23) && w.flagsOk && w.rangeOk && (w.pathIn [0])
  | .ladWts _ _ _ w => w.flagsOk && w.rangeOk && (w.pathIn [0])
  | .ladPush _ _ _ _ _ w => w.flagsOk && w.rangeOk && (w.pathIn [0])
  | .ladderChainStep _ _ => true
  | .ladRead _ _ _ _ _ w => w.flagsOk && w.rangeOk && (w.pathIn [0])
  | .ladRung _ _ k _ _ w => (k.toNat ≤ 23) && w.flagsOk && w.rangeOk && (w.pathIn [0])
  | .ladStep _ _ w => w.flagsOk && w.rangeOk && (w.pathIn [0])
  | .ladWait _ _ _ w => w.flagsOk && w.rangeOk && (w.pathIn [0])
  | .ladFree _ w => w.flagsOk && w.rangeOk && (w.pathIn [0])
  | .futSpawn _ _ _ => true
  | .futRef _ _ => true
  | .futDrop _ _ => true
  | .futWaitReg _ _ _ => true
  | .futWaitBank _ _ _ => true
  | .futFill _ _ _ => true
  | .futRcp => true
  | .futStat _ _ _ => true
  | .captureComplete _ _ => true
  | .tskSubInline _ _ _ _ _ w => w.flagsOk && w.rangeOk && (w.pathIn [0])
  | .tskSubDesc _ _ _ w => w.flagsOk && w.rangeOk && (w.pathIn [0])
  | .tskDone w => w.flagsOk && w.rangeOk && (w.pathIn [0])
  | .taskQwaitPop _ _ => true
  | .taskDispatch _ _ => true
  | .qPushReg a b w => (a.toNat ≤ 24) && (w.path ≠ 1 || b == 0) && w.flagsOk && w.rangeOk && (w.pathIn [1, 2])
  | .qPushBank _ b _ w => (w.path ≠ 1 || b == 0) && w.flagsOk && w.rangeOk && (w.pathIn [1, 2])
  | .qPopReg d b _ w => (d.toNat ≤ 24) && (w.path ≠ 1 || b == 0) && w.flagsOk && w.rangeOk && (w.pathIn [1, 2])
  | .qPopBank _ b _ w => (w.path ≠ 1 || b == 0) && w.flagsOk && w.rangeOk && (w.pathIn [1, 2])
  | .qCnt _ b _ w => (w.path ≠ 1 || b == 0) && w.flagsOk && w.rangeOk && (w.pathIn [1, 2])
  | .refillBatchStart _ => true
  | .refillBatchLand _ => true
  | .pwrAcq _ _ => true
  | .pwrRel _ _ => true
  | .doorbell _ _ _ => true
  | .packetStart _ => true
  | .bundleRun _ => true
  | .bundleRetire _ => true
  | .waitPacket _ => true
  | .signalPacket _ => true
  | .netPlacement _ _ => true
  | .sectorGrant _ => true
  | .netInject _ _ => true
  | .launchPacket _ => true
  | .castleGo _ _ => true
  | .contextExchange _ => true
  | .contextStreamComplete _ => true
  | .parkedOutcome _ _ _ => true
  | .poolWrite _ => true
  | .version _ _ => true
  | .reset _ _ => true
  | .loadImage _ _ _ _ _ => true
  | .imageData _ _ _ _ _ => true
  | .setPool _ _ _ => true
  | .castle _ _ _ _ _ _ _ => true
  | .endRegion _ _ _ _ => true
  | .blockAlloc _ _ _ _ => true
  | .blockFree _ _ _ _ => true
  | .timerPost _ _ _ _ _ => true
  | .blockTake _ _ => true
  | .blockAppend _ _ => true
  | .blockCacheRefill _ => true
  | .placeEntryWrite _ _ _ => true
  | .wordStoreWrite _ _ _ _ => true
  | .loadedRecordWrite _ _ _ _ => true
  | .registerWindowWrite _ _ _ => true
  | .queueCounterWrite _ _ _ => true
  | .rangeTableWrite _ _ => true
  | .tlbInvalidate _ _ _ => true
  | .quarantineEnqueue _ _ => true
  | .quarantineRelease _ => true
  | .handleTableBaseWrite _ _ => true
  | .recordRingIndexWrite _ _ => true
  | .registerWrite _ _ => true
  | .timerTokenRelease _ _ => true
  | .taskTimeRelease _ _ => true
  | .engineResume _ => true
  | .engineAbort _ => true
  | .requestTimeout _ _ => true
  | .frozenEngineTimeout _ => true
  | .zugzwangDeclare _ => true
  | .eccstatClear _ _ => true
  | .taskReplay _ _ => true
  | .hostLinkDown => true
  | .hostLinkUp => true
  | .watchdogKick _ => true
  | .watchdogExpiry => true
  | .pluginStop _ => true
  | .boot => true
  | .spdmGetVersion => true
  | .spdmGetCapabilities => true
  | .spdmNegotiateAlgorithms => true
  | .vendorDefinedRequest _ => true
  | .spdmOtherRequest _ => true
  | .sensorRefresh _ => true
  | .retransmitTimeout _ => true
  | .scaleoutPortDown _ => true
  | .scaleoutPortUp _ => true
  | .heartbeatSend => true
  | .peerLost _ => true
  | .transitionStateWrite _ _ _ => true
  | .heartbeatReceive _ => true
  | .packetAcknowledge _ _ _ => true
  | .fatalNotice => true

/-- Does the row have an encoding? The 87 event rows have none. -/
def Instr.encoded : Instr → Bool
  | .firingSelect _ => false
  | .firingDeposit _ _ => false
  | .tokenArrival _ => false
  | .wordArrival _ => false
  | .heldWordDelivery _ => false
  | .entryWordJoin _ _ => false
  | .netInstanceComplete _ => false
  | .scrubComplete _ => false
  | .accessReply _ _ => false
  | .conditionWaitEnd _ _ => false
  | .copyPacketStart _ _ => false
  | .copyPacketComplete _ _ => false
  | .ringCredit _ => false
  | .pushStreamTile _ _ => false
  | .pullStreamTile _ _ => false
  | .walkResultWrite _ => false
  | .collectiveChunkSend _ => false
  | .collectiveChunkLand _ _ _ _ => false
  | .collectiveComplete _ => false
  | .mxTokenAccept _ => false
  | .mxTokenComplete _ => false
  | .regionDrainStart _ _ => false
  | .dlJobComplete _ _ => false
  | .ladderChainStep _ _ => false
  | .captureComplete _ _ => false
  | .taskQwaitPop _ _ => false
  | .taskDispatch _ _ => false
  | .refillBatchStart _ => false
  | .refillBatchLand _ => false
  | .doorbell _ _ _ => false
  | .packetStart _ => false
  | .bundleRun _ => false
  | .bundleRetire _ => false
  | .waitPacket _ => false
  | .signalPacket _ => false
  | .netPlacement _ _ => false
  | .sectorGrant _ => false
  | .netInject _ _ => false
  | .launchPacket _ => false
  | .castleGo _ _ => false
  | .contextExchange _ => false
  | .contextStreamComplete _ => false
  | .parkedOutcome _ _ _ => false
  | .poolWrite _ => false
  | .version _ _ => false
  | .reset _ _ => false
  | .loadImage _ _ _ _ _ => false
  | .imageData _ _ _ _ _ => false
  | .setPool _ _ _ => false
  | .castle _ _ _ _ _ _ _ => false
  | .endRegion _ _ _ _ => false
  | .blockAlloc _ _ _ _ => false
  | .blockFree _ _ _ _ => false
  | .timerPost _ _ _ _ _ => false
  | .blockTake _ _ => false
  | .blockAppend _ _ => false
  | .blockCacheRefill _ => false
  | .placeEntryWrite _ _ _ => false
  | .wordStoreWrite _ _ _ _ => false
  | .loadedRecordWrite _ _ _ _ => false
  | .registerWindowWrite _ _ _ => false
  | .queueCounterWrite _ _ _ => false
  | .rangeTableWrite _ _ => false
  | .tlbInvalidate _ _ _ => false
  | .quarantineEnqueue _ _ => false
  | .quarantineRelease _ => false
  | .handleTableBaseWrite _ _ => false
  | .recordRingIndexWrite _ _ => false
  | .registerWrite _ _ => false
  | .timerTokenRelease _ _ => false
  | .taskTimeRelease _ _ => false
  | .engineResume _ => false
  | .engineAbort _ => false
  | .requestTimeout _ _ => false
  | .frozenEngineTimeout _ => false
  | .zugzwangDeclare _ => false
  | .eccstatClear _ _ => false
  | .taskReplay _ _ => false
  | .hostLinkDown => false
  | .hostLinkUp => false
  | .watchdogKick _ => false
  | .watchdogExpiry => false
  | .pluginStop _ => false
  | .boot => false
  | .spdmGetVersion => false
  | .spdmGetCapabilities => false
  | .spdmNegotiateAlgorithms => false
  | .vendorDefinedRequest _ => false
  | .spdmOtherRequest _ => false
  | .sensorRefresh _ => false
  | .retransmitTimeout _ => false
  | .scaleoutPortDown _ => false
  | .scaleoutPortUp _ => false
  | .heartbeatSend => false
  | .peerLost _ => false
  | .transitionStateWrite _ _ _ => false
  | .heartbeatReceive _ => false
  | .packetAcknowledge _ _ _ => false
  | .fatalNotice => false
  | _ => true

end Sys2Proof
end

