-- ==== Sys2Proof/Decode.lean ====
section
/-! DEFINITION. The decoder, total on any words, and after it the encoder, both written from the encoding
tables of 05_formats_and_opcode_map.md and the instruction chapters. -/
namespace Sys2Proof

/-- Word 0 of every instruction, field by field (R117). -/
structure W0 where
  len : Nat
  op  : Nat
  fn  : Nat
  d   : Rg
  a   : Rg
  b   : Rg
  s   : Bool
deriving DecidableEq, Repr

/-- Word 0 as a number (R117). -/
def packW0 (w : W0) : W32 :=
  BitVec.ofNat 32 (w.len % 4 * 2 ^ 30 + w.op % 256 * 2 ^ 22 + w.fn % 64 * 2 ^ 16 + w.d.toNat * 2 ^ 11
    + w.a.toNat * 2 ^ 6 + w.b.toNat * 2 + w.s.toNat)

/-- The fields of word 0 (R117). -/
def unpackW0 (x : W32) : W0 :=
  ⟨fld x 31 30, fld x 29 22, fld x 21 16, BitVec.ofNat 5 (fld x 15 11), BitVec.ofNat 5 (fld x 10 6),
    BitVec.ofNat 5 (fld x 5 1), x.getLsbD 0⟩

/-- L word 2 and E word 2 (R119). -/
def packWave (w : Wave) : W32 :=
  BitVec.ofNat 32 (w.own.toNat * 2 ^ 24 + w.pred.toNat * 2 ^ 16 + w.succ.toNat * 2 ^ 8 + w.scope.toNat * 2 ^ 5
    + w.acq.toNat * 2 ^ 4 + w.rel.toNat * 2 ^ 3 + w.path.toNat)

/-- The fields of a wave word (R119, R122). -/
def unpackWave (y : W32) : Wave :=
  ⟨BitVec.ofNat 8 (fld y 31 24), BitVec.ofNat 8 (fld y 23 16), BitVec.ofNat 8 (fld y 15 8),
    BitVec.ofNat 3 (fld y 7 5), y.getLsbD 4, y.getLsbD 3, BitVec.ofNat 3 (fld y 2 0)⟩

/-- V word 1 (R119). -/
def packV (v : VOp) : W32 :=
  BitVec.ofNat 32 (v.shD.toNat * 2 ^ 28 + v.shA.toNat * 2 ^ 24 + v.shB.toNat * 2 ^ 20 + v.ty.toNat * 2 ^ 16
    + v.rnd.toNat * 2 ^ 13 + v.sat.toNat * 2 ^ 12 + v.chain.toNat * 2 ^ 8 + v.imm.toNat)

/-- The fields of V word 1 (R119). -/
def unpackV (x : W32) : VOp :=
  ⟨BitVec.ofNat 4 (fld x 31 28), BitVec.ofNat 4 (fld x 27 24), BitVec.ofNat 4 (fld x 23 20),
    BitVec.ofNat 4 (fld x 19 16), BitVec.ofNat 3 (fld x 15 13), x.getLsbD 12, BitVec.ofNat 4 (fld x 11 8),
    BitVec.ofNat 8 (fld x 7 0)⟩

/-- T word 1 (R119). -/
def packT (place : Byte) (count cell : BitVec 12) : W32 :=
  BitVec.ofNat 32 (place.toNat * 2 ^ 24 + count.toNat * 2 ^ 12 + cell.toNat)
def tPlace (x : W32) : Byte := BitVec.ofNat 8 (fld x 31 24)
def tCount (x : W32) : BitVec 12 := BitVec.ofNat 12 (fld x 23 12)
def tCell (x : W32) : BitVec 12 := BitVec.ofNat 12 (fld x 11 0)

/-- D of an `emit`: REL in bit 4, the scope in bits [3:1] (R147). -/
def relD (rel : Bool) (scope : BitVec 3) : Rg := BitVec.ofNat 5 (rel.toNat * 16 + scope.toNat * 2)
/-- Word 1 of `bar` (R182). -/
def packBar (id : BitVec 4) (n : BitVec 12) : W32 := BitVec.ofNat 32 (n.toNat * 2 ^ 12 + id.toNat)
/-- W3 of `ring.init` (R194). -/
def packRing (slotu : BitVec 10) (nslotm1 : BitVec 6) (base : BitVec 16) : W32 :=
  BitVec.ofNat 32 (slotu.toNat * 2 ^ 22 + nslotm1.toNat * 2 ^ 16 + base.toNat)
/-- W3 of `mx.lds` (R239). -/
def packLds (km1 nm1 : BitVec 7) (sc : Bool) : W32 :=
  BitVec.ofNat 32 (km1.toNat * 2 ^ 25 + nm1.toNat * 2 ^ 18 + sc.toNat * 2 ^ 17)
/-- W3 of `mx.mul` and `mx.mulb` (R241). -/
def packMul (mm1 km1 nm1 : BitVec 7) (acc q sc : Bool) : W32 :=
  BitVec.ofNat 32 (mm1.toNat * 2 ^ 25 + km1.toNat * 2 ^ 18 + nm1.toNat * 2 ^ 11 + acc.toNat * 2 ^ 10
    + q.toNat * 2 ^ 9 + sc.toNat * 2 ^ 8)
/-- W3 of `mx.drain` (R242). -/
def packDrain (mm1 nm1 : BitVec 7) (acc q byp nowr : Bool) : W32 :=
  BitVec.ofNat 32 (mm1.toNat * 2 ^ 25 + nm1.toNat * 2 ^ 18 + acc.toNat * 2 ^ 17 + q.toNat * 2 ^ 16
    + byp.toNat * 2 ^ 15 + nowr.toNat * 2 ^ 14)
/-- W3 of `mx.cfg` (R237). -/
def packCfg (aty bty : BitVec 4) (out bsat : Bool) (rg : BitVec 4) (rnm1 : BitVec 8) : W32 :=
  BitVec.ofNat 32 (aty.toNat * 2 ^ 28 + bty.toNat * 2 ^ 24 + out.toNat * 2 ^ 23 + bsat.toNat * 2 ^ 22
    + rg.toNat * 2 ^ 18 + rnm1.toNat * 2 ^ 10)
/-- W3 of `nz.cfg` (R245). -/
def packNz (mode : BitVec 3) : W32 := BitVec.ofNat 32 (mode.toNat * 2 ^ 29)
/-- W3 of `dl.merge` (R251). -/
def packMerge (dm1 : BitVec 8) (fin : Bool) : W32 := BitVec.ofNat 32 (dm1.toNat + fin.toNat * 2 ^ 8)
/-- W3 of the ladder commands (R255). -/
def packLad (lad : BitVec 3) (mode : BitVec 2) (nrm1 : BitVec 5) (nem1 : BitVec 10) : W32 :=
  BitVec.ofNat 32 (lad.toNat * 2 ^ 29 + mode.toNat * 2 ^ 27 + nrm1.toNat * 2 ^ 22 + nem1.toNat * 2 ^ 12)
/-- W3 of `lad.rung` (R255). -/
def packRung (lad : BitVec 3) (k : BitVec 5) : W32 := BitVec.ofNat 32 (lad.toNat * 2 ^ 29 + k.toNat * 2 ^ 24)

/-- Why words are refused. The causes are those of R141. -/
inductive DecodeError where
  /-- OP or FN not assigned: cause 0x03 at word 0 (R140). -/
  | unassignedCode
  /-- LEN differs from the format's value of the instruction that OP and FN name: cause 0x04 at word 0 (R118). -/
  | lenMismatch (i : Instr)
  /-- The words end before the instruction does: cause 0x09 (R127). `i` is what OP and FN name, where they name one. -/
  | truncated (i : Option Instr)
  /-- A rule of the instruction's fields is broken at this word, with this cause (0x05 or 0x06). -/
  | field (word cause : Nat) (i : Instr)
deriving DecidableEq, Repr

/-- The word at which the rule is broken. -/
def DecodeError.word : DecodeError → Nat
  | .field w _ _ => w
  | _ => 0
/-- The cause of R141. -/
def DecodeError.cause : DecodeError → Nat
  | .unassignedCode => 3
  | .lenMismatch _ => 4
  | .truncated _ => 9
  | .field _ c _ => c

def unassigned : Except DecodeError Instr := .error .unassignedCode

/-- The first check that fails, in the order of R141: the lowest word, then the lowest cause. -/
def firstBad : List (Nat × Nat × Bool) → Option (Nat × Nat)
  | [] => none
  | (w, c, ok) :: cs => if ok then firstBad cs else some (w, c)

/-- LEN is judged first, then the instruction's own checks (R118, R141). -/
def finish (w : W0) (len : Nat) (checks : List (Nat × Nat × Bool)) (i : Instr) : Except DecodeError Instr :=
  if w.len ≠ len then .error (.lenMismatch i)
  else match firstBad checks with
    | some e => .error (.field e.1 e.2 i)
    | none => .ok i

/-- ACQ = REL = 0 needs SCOPE 0 (R171). -/
def flagsOk (y : W32) : Bool := (unpackWave y).flagsOk
def fenceFlagsOk (y : W32) : Bool := (unpackWave y).fenceOk
def waveRange (y : W32) : Bool := (unpackWave y).rangeOk
def pathIn (y : W32) (ps : List Nat) : Bool := (unpackWave y).pathIn ps

/-- OP 0x00: FN selects the operation (R138). -/
def decodeOp00 (w : W0) (x y z : W32) : Except DecodeError Instr :=
  match w.fn with
  | 0 => finish w 0 [] (.add w.d w.a w.b w.s)
  | 1 => finish w 0 [] (.sub w.d w.a w.b w.s)
  | 2 => finish w 0 [] (.mul w.d w.a w.b w.s)
  | 3 => finish w 0 [] (.mulh w.d w.a w.b w.s)
  | 4 => finish w 0 [] (.mulhz w.d w.a w.b w.s)
  | 5 => finish w 0 [] (.div w.d w.a w.b w.s)
  | 6 => finish w 0 [] (.divz w.d w.a w.b w.s)
  | 7 => finish w 0 [] (.rem w.d w.a w.b w.s)
  | 8 => finish w 0 [] (.remz w.d w.a w.b w.s)
  | 9 => finish w 0 [] (.and w.d w.a w.b w.s)
  | 10 => finish w 0 [] (.or w.d w.a w.b w.s)
  | 11 => finish w 0 [] (.xor w.d w.a w.b w.s)
  | 12 => finish w 0 [] (.andn w.d w.a w.b w.s)
  | 13 => finish w 0 [] (.shl w.d w.a w.b w.s)
  | 14 => finish w 0 [] (.shr w.d w.a w.b w.s)
  | 15 => finish w 0 [] (.sra w.d w.a w.b w.s)
  | 16 => finish w 0 [] (.rol w.d w.a w.b w.s)
  | 17 => finish w 0 [] (.min w.d w.a w.b w.s)
  | 18 => finish w 0 [] (.max w.d w.a w.b w.s)
  | 19 => finish w 0 [] (.minz w.d w.a w.b w.s)
  | 20 => finish w 0 [] (.maxz w.d w.a w.b w.s)
  | 21 => finish w 0 [(0, 5, w.b == 0)] (.clz w.d w.a w.s)
  | 22 => finish w 0 [(0, 5, w.b == 0)] (.ctz w.d w.a w.s)
  | 23 => finish w 0 [(0, 5, w.b == 0)] (.pop w.d w.a w.s)
  | 24 => finish w 0 [(0, 5, w.b == 0)] (.mov w.d w.a w.s)
  | 25 => finish w 0 [] (.sext w.d w.a w.b w.s)
  | 26 => finish w 0 [] (.zext w.d w.a w.b w.s)
  | 27 => finish w 0 [] (.bext w.d w.a w.b w.s)
  | 28 => finish w 0 [] (.bins w.d w.a w.b w.s)
  | 29 => finish w 0 [] (.addr w.d w.a w.b w.s)
  | _ => unassigned

/-- OP 0x01: FN selects the operation (R138). -/
def decodeOp01 (w : W0) (x y z : W32) : Except DecodeError Instr :=
  match w.fn with
  | 0 => finish w 1 [(0, 5, w.a == 0), (0, 5, w.b == 0)] (.li w.d x w.s)
  | 1 => finish w 1 [(0, 5, w.a == 0), (0, 5, w.b == 0)] (.lih w.d x w.s)
  | 2 => finish w 1 [(0, 5, w.b == 0)] (.addi w.d w.a x w.s)
  | 3 => finish w 1 [(0, 5, w.b == 0)] (.andi w.d w.a x w.s)
  | 4 => finish w 1 [(0, 5, w.b == 0)] (.ori w.d w.a x w.s)
  | 5 => finish w 1 [(0, 5, w.b == 0)] (.xori w.d w.a x w.s)
  | 6 => finish w 1 [(0, 5, w.b == 0), (1, 6, fld x 31 6 == 0)] (.shli w.d w.a (x.setWidth 6) w.s)
  | 7 => finish w 1 [(0, 5, w.b == 0), (1, 6, fld x 31 6 == 0)] (.shri w.d w.a (x.setWidth 6) w.s)
  | 8 => finish w 1 [(0, 5, w.b == 0), (1, 6, fld x 31 6 == 0)] (.srai w.d w.a (x.setWidth 6) w.s)
  | _ => unassigned

/-- OP 0x20: FN selects the operation (R138). -/
def decodeOp20 (w : W0) (x y z : W32) : Except DecodeError Instr :=
  match w.fn with
  | 0 => finish w 1 [(0, 5, w.b == 0), (0, 5, !w.s), (0, 5, !w.d.getLsbD 0), (0, 5, w.d.getLsbD 4 || fld w.d 3 1 == 0), (0, 6, fld w.d 3 1 < 6), (1, 5, w.a == 0 || tCount x == 0)] (.emit (w.d.getLsbD 4) (BitVec.ofNat 3 (fld w.d 3 1)) w.a (tPlace x) (tCount x) (tCell x))
  | 1 => finish w 1 [(0, 5, w.b == 0), (0, 5, !w.s), (0, 5, !w.d.getLsbD 0), (0, 5, w.d.getLsbD 4 || fld w.d 3 1 == 0), (0, 6, fld w.d 3 1 < 6), (1, 5, tCount x == 0)] (.emitW (w.d.getLsbD 4) (BitVec.ofNat 3 (fld w.d 3 1)) w.a (tPlace x) (tCell x))
  | 2 => finish w 1 [(0, 5, w.a == 0), (0, 5, w.b == 0), (1, 5, tCount x == 0), (1, 6, tCell x == 4095)] (.take w.d (tPlace x) w.s)
  | 3 => finish w 1 [(0, 5, w.a == 0), (0, 5, w.b == 0), (1, 5, tCount x == 0), (1, 6, tCell x == 4095)] (.mcount w.d (tPlace x) w.s)
  | 4 => finish w 1 [(0, 5, w.d == 0), (0, 5, w.b == 0), (0, 5, !w.s), (1, 5, w.a == 0 || tCount x == 0), (1, 6, tCell x == 4095)] (.mset w.a (tPlace x) (tCount x))
  | 5 => finish w 1 [(0, 5, w.d == 0), (0, 5, w.a == 0), (0, 5, w.b == 0), (0, 5, !w.s), (1, 5, tCount x == 0), (1, 6, (tPlace x).toNat < 64)] (.arm ((tPlace x).setWidth 6) (tCell x))
  | 6 => finish w 1 [(0, 5, w.d == 0), (0, 5, w.a == 0), (0, 5, w.b == 0), (0, 5, !w.s), (1, 5, tCount x == 0), (1, 6, (tPlace x).toNat < 64)] (.disarm ((tPlace x).setWidth 6) (tCell x))
  | _ => unassigned

/-- OP 0x21: FN selects the operation (R138). -/
def decodeOp21 (w : W0) (x y z : W32) : Except DecodeError Instr :=
  match w.fn with
  | 0 => finish w 0 [(0, 5, w.d == 0), (0, 5, w.a == 0), (0, 5, fld w.b 4 2 == 0), (0, 5, w.s)] (.sel (w.b.setWidth 2))
  | 1 => finish w 0 [(0, 5, w.d == 0), (0, 5, w.b == 0), (0, 5, w.s)] (.selx w.a)
  | 2 => finish w 0 [(0, 5, w.d == 0), (0, 5, w.a == 0), (0, 5, w.b == 0), (0, 5, !w.s)] .safept
  | 3 => finish w 0 [(0, 5, w.d == 0), (0, 5, w.a == 0), (0, 5, w.b == 0), (0, 5, !w.s)] .halt
  | 5 => finish w 0 [(0, 5, w.d == 0), (0, 5, w.a == 0), (0, 5, w.b == 0), (0, 5, !w.s)] .nop
  | 4 => finish w 0 [(0, 5, w.d == 0), (0, 5, !w.s)] (.trap (w.a ++ w.b))
  | _ => unassigned

/-- OP 0x22: FN selects the operation (R138). -/
def decodeOp22 (w : W0) (x y z : W32) : Except DecodeError Instr :=
  match w.fn with
  | 0 => finish w 1 [(0, 5, w.d == 0), (0, 5, w.b == 0), (0, 5, !w.s)] (.cfgLoad w.a x)
  | 1 => finish w 1 [(0, 5, w.a == 0), (0, 5, w.b == 0), (1, 6, fld x 31 9 == 0), (1, 6, csrAssigned (fld x 8 0))] (.csrr w.d (x.setWidth 9) w.s)
  | 2 => finish w 1 [(0, 5, w.b == 0), (0, 5, !w.s), (1, 6, fld x 31 9 == 0), (1, 6, csrAssigned (fld x 8 0))] (.csrw w.d w.a (x.setWidth 9))
  | 3 => finish w 1 [(0, 5, w.b == 0), (0, 5, !w.s), (1, 6, fld x 31 9 == 0), (1, 6, csrAssigned (fld x 8 0))] (.csrs w.d w.a (x.setWidth 9))
  | 4 => finish w 1 [(0, 5, w.b == 0), (0, 5, !w.s), (1, 6, fld x 31 9 == 0), (1, 6, csrAssigned (fld x 8 0))] (.csrc w.d w.a (x.setWidth 9))
  | _ => unassigned

/-- OP 0x40: FN selects the operation (R138). -/
def decodeOp40 (w : W0) (x y z : W32) : Except DecodeError Instr :=
  if 1 ≤ w.fn && w.fn ≤ 7 then finish w 2 [(0, 5, w.b == 0), (2, 5, flagsOk y), (2, 6, waveRange y), (2, 6, pathIn y [0, 1, 2, 3])] (.ld (BitVec.ofNat 4 w.fn) w.d w.a w.s x (unpackWave y))
  else unassigned

/-- OP 0x41: FN selects the operation (R138). -/
def decodeOp41 (w : W0) (x y z : W32) : Except DecodeError Instr :=
  if 1 ≤ w.fn && w.fn ≤ 4 then finish w 2 [(0, 5, w.b == 0), (0, 5, !w.s), (2, 5, flagsOk y), (2, 6, waveRange y), (2, 6, pathIn y [0, 1, 2, 3])] (.st (BitVec.ofNat 4 w.fn) w.d w.a x (unpackWave y))
  else unassigned

/-- OP 0x42: FN selects the operation (R138). -/
def decodeOp42 (w : W0) (x y z : W32) : Except DecodeError Instr :=
  match w.fn with
  | 0 => finish w 2 [(0, 5, w.b == 0), (0, 5, !w.s), (0, 6, fld w.d 4 3 == 0), (2, 5, flagsOk y), (2, 6, waveRange y), (2, 6, pathIn y [0, 1, 2, 3])] (.vld (w.d.setWidth 3) w.a x (unpackWave y))
  | 1 => finish w 2 [(0, 5, w.b == 0), (0, 5, !w.s), (0, 6, fld w.d 4 3 == 0), (2, 5, flagsOk y), (2, 6, waveRange y), (2, 6, pathIn y [0, 1, 2, 3])] (.vst (w.d.setWidth 3) w.a x (unpackWave y))
  | _ => unassigned

/-- OP 0x43: FN selects the operation (R138). -/
def decodeOp43 (w : W0) (x y z : W32) : Except DecodeError Instr :=
  if 1 ≤ w.fn && w.fn ≤ 7 then finish w 2 [(2, 5, flagsOk y), (2, 6, waveRange y), (2, 6, pathIn y [0, 1, 2, 3])] (.ldx (BitVec.ofNat 4 w.fn) w.d w.a w.b w.s x (unpackWave y))
  else unassigned

/-- OP 0x44: FN selects the operation (R138). -/
def decodeOp44 (w : W0) (x y z : W32) : Except DecodeError Instr :=
  if 1 ≤ w.fn && w.fn ≤ 4 then finish w 2 [(0, 5, !w.s), (2, 5, flagsOk y), (2, 6, waveRange y), (2, 6, pathIn y [0, 1, 2, 3])] (.stx (BitVec.ofNat 4 w.fn) w.d w.a w.b x (unpackWave y))
  else unassigned

/-- OP 0x45: FN selects the operation (R138). -/
def decodeOp45 (w : W0) (x y z : W32) : Except DecodeError Instr :=
  match w.fn with
  | 0 => finish w 2 [(2, 5, flagsOk y), (2, 6, waveRange y), (2, 6, pathIn y [4])] (.ldh w.d w.a w.b w.s x (unpackWave y))
  | _ => unassigned

/-- OP 0x60: FN selects the operation (R138). -/
def decodeOp60 (w : W0) (x y z : W32) : Except DecodeError Instr :=
  match w.fn with
  | 0 => finish w 2 [(2, 5, flagsOk y), (2, 6, waveRange y), (2, 6, pathIn y [0, 1, 2, 3])] (.aadd (w.fn % 2 == 1) w.d w.a w.b w.s x (unpackWave y))
  | 1 => finish w 2 [(2, 5, flagsOk y), (2, 6, waveRange y), (2, 6, pathIn y [0, 1, 2, 3])] (.aadd (w.fn % 2 == 1) w.d w.a w.b w.s x (unpackWave y))
  | 2 => finish w 2 [(2, 5, flagsOk y), (2, 6, waveRange y), (2, 6, pathIn y [0, 1, 2, 3])] (.aand (w.fn % 2 == 1) w.d w.a w.b w.s x (unpackWave y))
  | 3 => finish w 2 [(2, 5, flagsOk y), (2, 6, waveRange y), (2, 6, pathIn y [0, 1, 2, 3])] (.aand (w.fn % 2 == 1) w.d w.a w.b w.s x (unpackWave y))
  | 4 => finish w 2 [(2, 5, flagsOk y), (2, 6, waveRange y), (2, 6, pathIn y [0, 1, 2, 3])] (.aor (w.fn % 2 == 1) w.d w.a w.b w.s x (unpackWave y))
  | 5 => finish w 2 [(2, 5, flagsOk y), (2, 6, waveRange y), (2, 6, pathIn y [0, 1, 2, 3])] (.aor (w.fn % 2 == 1) w.d w.a w.b w.s x (unpackWave y))
  | 6 => finish w 2 [(2, 5, flagsOk y), (2, 6, waveRange y), (2, 6, pathIn y [0, 1, 2, 3])] (.axor (w.fn % 2 == 1) w.d w.a w.b w.s x (unpackWave y))
  | 7 => finish w 2 [(2, 5, flagsOk y), (2, 6, waveRange y), (2, 6, pathIn y [0, 1, 2, 3])] (.axor (w.fn % 2 == 1) w.d w.a w.b w.s x (unpackWave y))
  | 8 => finish w 2 [(2, 5, flagsOk y), (2, 6, waveRange y), (2, 6, pathIn y [0, 1, 2, 3])] (.amin (w.fn % 2 == 1) w.d w.a w.b w.s x (unpackWave y))
  | 9 => finish w 2 [(2, 5, flagsOk y), (2, 6, waveRange y), (2, 6, pathIn y [0, 1, 2, 3])] (.amin (w.fn % 2 == 1) w.d w.a w.b w.s x (unpackWave y))
  | 10 => finish w 2 [(2, 5, flagsOk y), (2, 6, waveRange y), (2, 6, pathIn y [0, 1, 2, 3])] (.amax (w.fn % 2 == 1) w.d w.a w.b w.s x (unpackWave y))
  | 11 => finish w 2 [(2, 5, flagsOk y), (2, 6, waveRange y), (2, 6, pathIn y [0, 1, 2, 3])] (.amax (w.fn % 2 == 1) w.d w.a w.b w.s x (unpackWave y))
  | 12 => finish w 2 [(2, 5, flagsOk y), (2, 6, waveRange y), (2, 6, pathIn y [0, 1, 2, 3])] (.aminz (w.fn % 2 == 1) w.d w.a w.b w.s x (unpackWave y))
  | 13 => finish w 2 [(2, 5, flagsOk y), (2, 6, waveRange y), (2, 6, pathIn y [0, 1, 2, 3])] (.aminz (w.fn % 2 == 1) w.d w.a w.b w.s x (unpackWave y))
  | 14 => finish w 2 [(2, 5, flagsOk y), (2, 6, waveRange y), (2, 6, pathIn y [0, 1, 2, 3])] (.amaxz (w.fn % 2 == 1) w.d w.a w.b w.s x (unpackWave y))
  | 15 => finish w 2 [(2, 5, flagsOk y), (2, 6, waveRange y), (2, 6, pathIn y [0, 1, 2, 3])] (.amaxz (w.fn % 2 == 1) w.d w.a w.b w.s x (unpackWave y))
  | 16 => finish w 2 [(2, 5, flagsOk y), (2, 6, waveRange y), (2, 6, pathIn y [0, 1, 2, 3])] (.axchg (w.fn % 2 == 1) w.d w.a w.b w.s x (unpackWave y))
  | 17 => finish w 2 [(2, 5, flagsOk y), (2, 6, waveRange y), (2, 6, pathIn y [0, 1, 2, 3])] (.axchg (w.fn % 2 == 1) w.d w.a w.b w.s x (unpackWave y))
  | 18 => finish w 2 [(2, 5, flagsOk y), (2, 6, waveRange y), (2, 6, pathIn y [0, 1, 2, 3])] (.acas (w.fn % 2 == 1) w.d w.a w.b w.s x (unpackWave y))
  | 19 => finish w 2 [(2, 5, flagsOk y), (2, 6, waveRange y), (2, 6, pathIn y [0, 1, 2, 3])] (.acas (w.fn % 2 == 1) w.d w.a w.b w.s x (unpackWave y))
  | 20 => finish w 2 [(2, 5, flagsOk y), (2, 6, waveRange y), (2, 6, pathIn y [0, 1, 2, 3])] (.afaddF32 w.d w.a w.b w.s x (unpackWave y))
  | 22 => finish w 2 [(2, 5, flagsOk y), (2, 6, waveRange y), (2, 6, pathIn y [0, 1, 2, 3])] (.afmaxF32 w.d w.a w.b w.s x (unpackWave y))
  | _ => unassigned

/-- OP 0x61: FN selects the operation (R138). DESIGN CHOICE (log 58): a `bar.cell` whose N is not 1 is reported at the wave word, which
holds SCOPE (R141). -/
def decodeOp61 (w : W0) (x y z : W32) : Except DecodeError Instr :=
  match w.fn with
  | 0 => finish w 2 [(0, 5, w.d == 0), (0, 5, w.a == 0), (0, 5, w.b == 0), (0, 5, !w.s), (1, 5, x == 0), (2, 5, fenceFlagsOk y), (2, 5, pathIn y [0]), (2, 6, waveRange y)] (.fenceAcq (unpackWave y))
  | 1 => finish w 2 [(0, 5, w.d == 0), (0, 5, w.a == 0), (0, 5, w.b == 0), (0, 5, !w.s), (1, 5, x == 0), (2, 5, fenceFlagsOk y), (2, 5, pathIn y [0]), (2, 6, waveRange y)] (.fenceRel (unpackWave y))
  | 2 => finish w 2 [(0, 5, w.d == 0), (0, 5, w.a == 0), (0, 5, w.b == 0), (0, 5, !w.s), (1, 5, x == 0), (2, 5, fenceFlagsOk y), (2, 5, pathIn y [0]), (2, 6, waveRange y)] (.fenceFull (unpackWave y))
  | 3 => finish w 2 [(0, 5, w.d == 0), (0, 5, w.a == 0), (0, 5, w.b == 0), (0, 5, !w.s), (1, 5, fld x 31 24 == 0 && fld x 11 4 == 0), (1, 6, 1 ≤ fld x 23 12), (2, 5, fenceFlagsOk y), (2, 5, pathIn y [0]), (2, 6, waveRange y), (2, 6, fld y 7 5 ≤ 3), (2, 6, fld y 7 5 ≠ 0 || fld x 23 12 == 1)] (.bar (x.setWidth 4) (BitVec.ofNat 12 (fld x 23 12)) (unpackWave y))
  | _ => unassigned

/-- OP 0x62: FN selects the operation (R138). -/
def decodeOp62 (w : W0) (x y z : W32) : Except DecodeError Instr :=
  match w.fn with
  | 0 => finish w 3 [(0, 5, !w.s), (2, 5, flagsOk y), (2, 6, waveRange y), (2, 6, pathIn y [0, 1, 2, 3]), (3, 5, z == 0)] (.cpyPost w.d w.a w.b x (unpackWave y))
  | 1 => finish w 3 [(0, 5, w.d == 0), (0, 5, w.a == 0), (0, 5, w.b == 0), (0, 5, !w.s), (1, 5, x == 0), (2, 5, flagsOk y), (2, 6, waveRange y), (2, 6, pathIn y [2, 3]), (3, 5, z == 0)] (.drain (unpackWave y))
  | 2 => finish w 3 [(0, 5, w.d == 0), (0, 5, !w.s), (2, 5, flagsOk y), (2, 6, waveRange y), (2, 6, pathIn y [0]), (3, 6, fld z 31 22 ≠ 0), (3, 6, fld z 5 0 == 0)] (.ringInit w.a w.b (BitVec.ofNat 10 (fld z 31 22)) (BitVec.ofNat 6 (fld z 21 16)) (z.setWidth 16) x (unpackWave y))
  | 3 => if z.getLsbD 0 then finish w 3 [(0, 5, !w.s), (2, 5, flagsOk y), (2, 6, waveRange y), (2, 6, pathIn y [0]), (3, 5, fld z 31 1 == 0)] (.ringAwaitFree w.d w.a w.b x (unpackWave y)) else finish w 3 [(0, 5, !w.s), (2, 5, flagsOk y), (2, 6, waveRange y), (2, 6, pathIn y [0]), (3, 5, fld z 31 1 == 0)] (.ringAwait w.d w.a w.b x (unpackWave y))
  | 4 => finish w 3 [(0, 5, w.d == 0), (0, 5, w.b == 0), (0, 5, !w.s), (2, 5, flagsOk y), (2, 6, waveRange y), (2, 6, pathIn y [0]), (3, 5, z == 0)] (.ringRel w.a x (unpackWave y))
  | 5 => finish w 3 [(0, 5, w.b == 0), (0, 5, !w.s), (2, 5, flagsOk y), (2, 6, waveRange y), (2, 6, pathIn y [0]), (3, 5, z == 0)] (.strSub w.d w.a x (unpackWave y))
  | 6 => finish w 3 [(0, 5, w.b == 0), (0, 5, !w.s), (1, 5, x == 0), (2, 5, flagsOk y), (2, 6, waveRange y), (2, 6, pathIn y [0]), (3, 5, z == 0)] (.strUnsub w.d w.a (unpackWave y))
  | 7 => finish w 3 [(0, 5, w.d == 0), (0, 5, !w.s), (2, 5, flagsOk y), (2, 6, waveRange y), (2, 6, pathIn y [0]), (3, 5, z == 0)] (.strRet w.a w.b x (unpackWave y))
  | 8 => finish w 3 [(0, 5, w.d == 0), (0, 5, w.b == 0), (0, 5, !w.s), (2, 5, flagsOk y), (2, 6, waveRange y), (2, 6, pathIn y [0]), (3, 5, z == 0)] (.walkPost w.a x (unpackWave y))
  | 9 => finish w 3 [(0, 5, w.b == 0), (0, 5, !w.s), (2, 5, flagsOk y), (2, 6, waveRange y), (2, 6, pathIn y [0]), (3, 5, z == 0)] (.collPost w.d w.a x (unpackWave y))
  | 10 => finish w 3 [(0, 5, !w.s), (2, 5, flagsOk y), (2, 6, waveRange y), (2, 6, pathIn y [3]), (3, 5, z == 0)] (.sigAdd w.d w.a w.b x (unpackWave y))
  | _ => unassigned

/-- OP 0x80: FN selects the operation (R138). -/
def decodeOp80 (w : W0) (x y z : W32) : Except DecodeError Instr :=
  match w.fn with
  | 0 => finish w 1 [(0, 5, w.d == 0), (0, 5, w.a == 0), (0, 5, w.b == 0), (1, 5, (VRule.arith3).unusedOk (unpackV x)), (1, 6, (VRule.arith3).rangeOk (unpackV x))] (.vadd (unpackV x) w.s)
  | 1 => finish w 1 [(0, 5, w.d == 0), (0, 5, w.a == 0), (0, 5, w.b == 0), (1, 5, (VRule.arith3).unusedOk (unpackV x)), (1, 6, (VRule.arith3).rangeOk (unpackV x))] (.vsub (unpackV x) w.s)
  | 2 => finish w 1 [(0, 5, w.d == 0), (0, 5, w.a == 0), (0, 5, w.b == 0), (1, 5, (VRule.arith3).unusedOk (unpackV x)), (1, 6, (VRule.arith3).rangeOk (unpackV x))] (.vmul (unpackV x) w.s)
  | 3 => finish w 1 [(0, 5, w.d == 0), (0, 5, w.a == 0), (0, 5, w.b == 0), (1, 5, (VRule.arith3).unusedOk (unpackV x)), (1, 6, (VRule.arith3).rangeOk (unpackV x))] (.vfma (unpackV x) w.s)
  | 4 => finish w 1 [(0, 5, w.d == 0), (0, 5, w.a == 0), (0, 5, w.b == 0), (1, 5, (VRule.arith3).unusedOk (unpackV x)), (1, 6, (VRule.arith3).rangeOk (unpackV x))] (.vfms (unpackV x) w.s)
  | 5 => finish w 1 [(0, 5, w.d == 0), (0, 5, w.a == 0), (0, 5, w.b == 0), (1, 5, (VRule.arith3).unusedOk (unpackV x)), (1, 6, (VRule.arith3).rangeOk (unpackV x))] (.vnfma (unpackV x) w.s)
  | 6 => finish w 1 [(0, 5, w.d == 0), (0, 5, w.a == 0), (0, 5, w.b == 0), (1, 5, (VRule.pick).unusedOk (unpackV x)), (1, 6, (VRule.pick).rangeOk (unpackV x))] (.vmax (unpackV x) w.s)
  | 7 => finish w 1 [(0, 5, w.d == 0), (0, 5, w.a == 0), (0, 5, w.b == 0), (1, 5, (VRule.pick).unusedOk (unpackV x)), (1, 6, (VRule.pick).rangeOk (unpackV x))] (.vmin (unpackV x) w.s)
  | 8 => finish w 1 [(0, 5, w.d == 0), (0, 5, w.a == 0), (0, 5, w.b == 0), (1, 5, (VRule.sign).unusedOk (unpackV x)), (1, 6, (VRule.sign).rangeOk (unpackV x))] (.vabs (unpackV x) w.s)
  | 9 => finish w 1 [(0, 5, w.d == 0), (0, 5, w.a == 0), (0, 5, w.b == 0), (1, 5, (VRule.sign).unusedOk (unpackV x)), (1, 6, (VRule.sign).rangeOk (unpackV x))] (.vneg (unpackV x) w.s)
  | 10 => finish w 1 [(0, 5, w.d == 0), (0, 5, w.a == 0), (0, 5, w.b == 0), (1, 5, (VRule.copy).unusedOk (unpackV x)), (1, 6, (VRule.copy).rangeOk (unpackV x))] (.vcpy (unpackV x) w.s)
  | _ => unassigned

/-- OP 0x81: FN selects the operation (R138). -/
def decodeOp81 (w : W0) (x y z : W32) : Except DecodeError Instr :=
  match w.fn with
  | 0 => finish w 1 [(0, 5, w.d == 0), (0, 5, w.a == 0), (0, 5, w.b == 0), (1, 5, (VRule.select).unusedOk (unpackV x)), (1, 6, (VRule.select).rangeOk (unpackV x))] (.vsel (unpackV x) w.s)
  | 1 => finish w 1 [(0, 5, w.d == 0), (0, 5, w.a == 0), (0, 5, w.b == 0), (1, 5, (VRule.logic).unusedOk (unpackV x)), (1, 6, (VRule.logic).rangeOk (unpackV x))] (.vand (unpackV x) w.s)
  | 2 => finish w 1 [(0, 5, w.d == 0), (0, 5, w.a == 0), (0, 5, w.b == 0), (1, 5, (VRule.logic).unusedOk (unpackV x)), (1, 6, (VRule.logic).rangeOk (unpackV x))] (.vor (unpackV x) w.s)
  | 3 => finish w 1 [(0, 5, w.d == 0), (0, 5, w.a == 0), (0, 5, w.b == 0), (1, 5, (VRule.logic).unusedOk (unpackV x)), (1, 6, (VRule.logic).rangeOk (unpackV x))] (.vxor (unpackV x) w.s)
  | 4 => finish w 1 [(0, 5, w.d == 0), (0, 5, w.a == 0), (0, 5, w.b == 0), (1, 5, (VRule.logic).unusedOk (unpackV x)), (1, 6, (VRule.logic).rangeOk (unpackV x))] (.vshl (unpackV x) w.s)
  | 5 => finish w 1 [(0, 5, w.d == 0), (0, 5, w.a == 0), (0, 5, w.b == 0), (1, 5, (VRule.logic).unusedOk (unpackV x)), (1, 6, (VRule.logic).rangeOk (unpackV x))] (.vshr (unpackV x) w.s)
  | 6 => finish w 1 [(0, 5, w.d == 0), (0, 5, w.a == 0), (0, 5, w.b == 0), (1, 5, (VRule.logic).unusedOk (unpackV x)), (1, 6, (VRule.logic).rangeOk (unpackV x))] (.vsra (unpackV x) w.s)
  | _ => unassigned

/-- OP 0x82: FN selects the operation (R138). -/
def decodeOp82 (w : W0) (x y z : W32) : Except DecodeError Instr :=
  match w.fn with
  | 0 => finish w 1 [(0, 5, w.d == 0), (0, 5, w.a == 0), (0, 5, w.b == 0), (1, 5, (VRule.compare).unusedOk (unpackV x)), (1, 6, (VRule.compare).rangeOk (unpackV x))] (.vcmpEq (unpackV x) w.s)
  | 1 => finish w 1 [(0, 5, w.d == 0), (0, 5, w.a == 0), (0, 5, w.b == 0), (1, 5, (VRule.compare).unusedOk (unpackV x)), (1, 6, (VRule.compare).rangeOk (unpackV x))] (.vcmpNe (unpackV x) w.s)
  | 2 => finish w 1 [(0, 5, w.d == 0), (0, 5, w.a == 0), (0, 5, w.b == 0), (1, 5, (VRule.compare).unusedOk (unpackV x)), (1, 6, (VRule.compare).rangeOk (unpackV x))] (.vcmpLt (unpackV x) w.s)
  | 3 => finish w 1 [(0, 5, w.d == 0), (0, 5, w.a == 0), (0, 5, w.b == 0), (1, 5, (VRule.compare).unusedOk (unpackV x)), (1, 6, (VRule.compare).rangeOk (unpackV x))] (.vcmpLe (unpackV x) w.s)
  | 4 => finish w 1 [(0, 5, w.d == 0), (0, 5, w.a == 0), (0, 5, w.b == 0), (1, 5, (VRule.compare).unusedOk (unpackV x)), (1, 6, (VRule.compare).rangeOk (unpackV x))] (.vcmpGt (unpackV x) w.s)
  | 5 => finish w 1 [(0, 5, w.d == 0), (0, 5, w.a == 0), (0, 5, w.b == 0), (1, 5, (VRule.compare).unusedOk (unpackV x)), (1, 6, (VRule.compare).rangeOk (unpackV x))] (.vcmpGe (unpackV x) w.s)
  | _ => unassigned

/-- OP 0x83: FN selects the operation (R138). -/
def decodeOp83 (w : W0) (x y z : W32) : Except DecodeError Instr :=
  match w.fn with
  | 0 => finish w 1 [(0, 5, w.d == 0), (0, 5, w.a == 0), (0, 5, w.b == 0), (1, 5, (VRule.arith2).unusedOk (unpackV x)), (1, 6, (VRule.arith2).rangeOk (unpackV x))] (.vredSum (unpackV x) w.s)
  | 1 => finish w 1 [(0, 5, w.d == 0), (0, 5, w.a == 0), (0, 5, w.b == 0), (1, 5, (VRule.redPick).unusedOk (unpackV x)), (1, 6, (VRule.redPick).rangeOk (unpackV x))] (.vredMax (unpackV x) w.s)
  | 2 => finish w 1 [(0, 5, w.d == 0), (0, 5, w.a == 0), (0, 5, w.b == 0), (1, 5, (VRule.redPick).unusedOk (unpackV x)), (1, 6, (VRule.redPick).rangeOk (unpackV x))] (.vredMin (unpackV x) w.s)
  | 3 => finish w 1 [(0, 5, w.d == 0), (0, 5, w.a == 0), (0, 5, w.b == 0), (1, 5, (VRule.arith2).unusedOk (unpackV x)), (1, 6, (VRule.arith2).rangeOk (unpackV x))] (.vscanSum (unpackV x) w.s)
  | 4 => finish w 1 [(0, 5, w.d == 0), (0, 5, w.a == 0), (0, 5, w.b == 0), (1, 5, (VRule.redPick).unusedOk (unpackV x)), (1, 6, (VRule.redPick).rangeOk (unpackV x))] (.vscanMax (unpackV x) w.s)
  | _ => unassigned

/-- OP 0x84: FN selects the operation (R138). -/
def decodeOp84 (w : W0) (x y z : W32) : Except DecodeError Instr :=
  match w.fn with
  | 0 => finish w 1 [(0, 5, w.d == 0), (0, 5, w.a == 0), (0, 5, w.b == 0), (0, 5, !w.s), (1, 5, (VRule.perm).unusedOk (unpackV x)), (1, 6, (VRule.perm).rangeOk (unpackV x))] (.vperm (unpackV x))
  | 1 => finish w 1 [(0, 5, w.d == 0), (0, 5, w.a == 0), (0, 5, w.b == 0), (0, 5, !w.s), (1, 5, (VRule.shuf).unusedOk (unpackV x)), (1, 6, (VRule.shuf).rangeOk (unpackV x))] (.vshuf (unpackV x))
  | 2 => finish w 1 [(0, 5, w.d == 0), (0, 5, w.b == 0), (0, 5, !w.s), (1, 5, (VRule.bcast).unusedOk (unpackV x)), (1, 6, (VRule.bcast).rangeOk (unpackV x))] (.vbcast w.a (unpackV x))
  | _ => unassigned

/-- OP 0x85: FN selects the operation (R138). -/
def decodeOp85 (w : W0) (x y z : W32) : Except DecodeError Instr :=
  match w.fn with
  | 0 => finish w 1 [(0, 5, w.a == 0), (0, 5, w.b == 0), (1, 5, (VRule.chain).unusedOk (unpackV x)), (1, 6, (VRule.chain).rangeOk (unpackV x))] (.vaddc w.d (unpackV x) w.s)
  | 1 => finish w 1 [(0, 5, w.a == 0), (0, 5, w.b == 0), (1, 5, (VRule.chain).unusedOk (unpackV x)), (1, 6, (VRule.chain).rangeOk (unpackV x))] (.vsubc w.d (unpackV x) w.s)
  | 2 => finish w 1 [(0, 5, w.d == 0), (0, 5, w.a == 0), (0, 5, w.b == 0), (1, 5, (VRule.mulc).unusedOk (unpackV x)), (1, 6, (VRule.mulc).rangeOk (unpackV x))] (.vmulc (unpackV x) w.s)
  | 3 => finish w 1 [(0, 5, w.d == 0), (0, 5, w.a == 0), (0, 5, w.b == 0), (1, 5, (VRule.dot).unusedOk (unpackV x)), (1, 6, (VRule.dot).rangeOk (unpackV x))] (.vdot (unpackV x) w.s)
  | _ => unassigned

/-- OP 0xA0: FN selects the operation (R138). -/
def decodeOpA0 (w : W0) (x y z : W32) : Except DecodeError Instr :=
  match w.fn with
  | 0 => finish w 1 [(0, 5, w.d == 0), (0, 5, w.a == 0), (0, 5, w.b == 0), (1, 5, (VRule.convert).unusedOk (unpackV x)), (1, 6, (VRule.convert).rangeOk (unpackV x))] (.vcvt (unpackV x) w.s)
  | 1 => finish w 1 [(0, 5, w.d == 0), (0, 5, w.a == 0), (0, 5, w.b == 0), (0, 5, !w.s), (1, 5, (VRule.pack).unusedOk (unpackV x)), (1, 6, (VRule.pack).rangeOk (unpackV x))] (.vpack (unpackV x))
  | 2 => finish w 1 [(0, 5, w.d == 0), (0, 5, w.a == 0), (0, 5, w.b == 0), (0, 5, !w.s), (1, 5, (VRule.pack).unusedOk (unpackV x)), (1, 6, (VRule.pack).rangeOk (unpackV x))] (.vunpack (unpackV x))
  | 3 => finish w 1 [(0, 5, w.d == 0), (0, 5, w.b == 0), (1, 5, (VRule.scale).unusedOk (unpackV x)), (1, 6, (VRule.scale).rangeOk (unpackV x))] (.vscale w.a (unpackV x) w.s)
  | 4 => finish w 1 [(0, 5, w.d == 0), (0, 5, w.a == 0), (0, 5, w.b == 0), (0, 5, !w.s), (1, 5, (VRule.quant).unusedOk (unpackV x)), (1, 6, (VRule.quant).rangeOk (unpackV x))] (.vqnt (unpackV x))
  | 5 => finish w 1 [(0, 5, w.d == 0), (0, 5, w.a == 0), (0, 5, w.b == 0), (0, 5, !w.s), (1, 5, (VRule.dequant).unusedOk (unpackV x)), (1, 6, (VRule.dequant).rangeOk (unpackV x))] (.vdq (unpackV x))
  | _ => unassigned

/-- OP 0xA1: FN selects the operation (R138). -/
def decodeOpA1 (w : W0) (x y z : W32) : Except DecodeError Instr :=
  match w.fn with
  | 0 => finish w 1 [(0, 5, w.d == 0), (0, 5, w.a == 0), (0, 5, w.b == 0), (1, 5, (VRule.special).unusedOk (unpackV x)), (1, 6, (VRule.special).rangeOk (unpackV x))] (.vexp2 (unpackV x) w.s)
  | 1 => finish w 1 [(0, 5, w.d == 0), (0, 5, w.a == 0), (0, 5, w.b == 0), (1, 5, (VRule.special).unusedOk (unpackV x)), (1, 6, (VRule.special).rangeOk (unpackV x))] (.vlog2 (unpackV x) w.s)
  | 2 => finish w 1 [(0, 5, w.d == 0), (0, 5, w.a == 0), (0, 5, w.b == 0), (1, 5, (VRule.special).unusedOk (unpackV x)), (1, 6, (VRule.special).rangeOk (unpackV x))] (.vrcp (unpackV x) w.s)
  | 3 => finish w 1 [(0, 5, w.d == 0), (0, 5, w.a == 0), (0, 5, w.b == 0), (1, 5, (VRule.special).unusedOk (unpackV x)), (1, 6, (VRule.special).rangeOk (unpackV x))] (.vrsqrt (unpackV x) w.s)
  | 4 => finish w 1 [(0, 5, w.d == 0), (0, 5, w.a == 0), (0, 5, w.b == 0), (1, 5, (VRule.sqrtFn).unusedOk (unpackV x)), (1, 6, (VRule.sqrtFn).rangeOk (unpackV x))] (.vsqrt (unpackV x) w.s)
  | 5 => finish w 1 [(0, 5, w.d == 0), (0, 5, w.a == 0), (0, 5, w.b == 0), (1, 5, (VRule.special).unusedOk (unpackV x)), (1, 6, (VRule.special).rangeOk (unpackV x))] (.vtanh (unpackV x) w.s)
  | 6 => finish w 1 [(0, 5, w.d == 0), (0, 5, w.a == 0), (0, 5, w.b == 0), (1, 5, (VRule.special).unusedOk (unpackV x)), (1, 6, (VRule.special).rangeOk (unpackV x))] (.vsig (unpackV x) w.s)
  | 7 => finish w 1 [(0, 5, w.d == 0), (0, 5, w.a == 0), (0, 5, w.b == 0), (1, 5, (VRule.special).unusedOk (unpackV x)), (1, 6, (VRule.special).rangeOk (unpackV x))] (.vsilu (unpackV x) w.s)
  | 8 => finish w 1 [(0, 5, w.d == 0), (0, 5, w.a == 0), (0, 5, w.b == 0), (1, 5, (VRule.special).unusedOk (unpackV x)), (1, 6, (VRule.special).rangeOk (unpackV x))] (.vgelu (unpackV x) w.s)
  | _ => unassigned

/-- OP 0xC0: FN selects the operation (R138). -/
def decodeOpC0 (w : W0) (x y z : W32) : Except DecodeError Instr :=
  match w.fn with
  | 0 => finish w 3 [(0, 5, !w.s), (2, 5, flagsOk y), (2, 6, waveRange y), (2, 6, pathIn y [1]), (3, 5, fld z 16 0 == 0), (3, 6, fld z 31 25 ≤ 95)] (.mxLds w.d w.a w.b (BitVec.ofNat 7 (fld z 31 25)) (BitVec.ofNat 7 (fld z 24 18)) (z.getLsbD 17) x (unpackWave y))
  | 1 => finish w 3 [(0, 5, !w.s), (2, 5, flagsOk y), (2, 6, waveRange y), (2, 6, pathIn y [1]), (3, 5, fld z 7 0 == 0), (3, 6, fld z 24 18 ≤ 95)] (.mxMul w.d w.a w.b (BitVec.ofNat 7 (fld z 31 25)) (BitVec.ofNat 7 (fld z 24 18)) (BitVec.ofNat 7 (fld z 17 11)) (z.getLsbD 10) (z.getLsbD 9) (z.getLsbD 8) x (unpackWave y))
  | 2 => finish w 3 [(0, 5, w.a == 0), (0, 5, w.b == 0), (0, 5, !w.s), (1, 5, x == 0), (2, 5, flagsOk y), (2, 6, waveRange y), (2, 6, pathIn y [0]), (3, 5, fld z 8 0 == 0), (3, 6, fld z 24 18 ≤ 95)] (.mxMulb w.d (BitVec.ofNat 7 (fld z 31 25)) (BitVec.ofNat 7 (fld z 24 18)) (BitVec.ofNat 7 (fld z 17 11)) (z.getLsbD 10) (z.getLsbD 9) (unpackWave y))
  | 3 => finish w 3 [(0, 5, !w.s), (2, 5, flagsOk y), (2, 6, waveRange y), (2, 6, pathIn y [1, 2]), (3, 5, fld z 13 0 == 0)] (.mxDrain w.d w.a w.b (BitVec.ofNat 7 (fld z 31 25)) (BitVec.ofNat 7 (fld z 24 18)) (z.getLsbD 17) (z.getLsbD 16) (z.getLsbD 15) (z.getLsbD 14) x (unpackWave y))
  | 4 => finish w 3 [(0, 5, !w.s), (1, 5, x == 0), (2, 5, flagsOk y), (2, 6, waveRange y), (2, 6, pathIn y [0]), (3, 5, z == 0)] (.mxScl w.d w.a w.b (unpackWave y))
  | 5 => finish w 3 [(0, 5, w.a == 0), (0, 5, w.b == 0), (0, 5, !w.s), (1, 5, x == 0), (2, 5, flagsOk y), (2, 6, waveRange y), (2, 6, pathIn y [0]), (3, 5, fld z 9 0 == 0), (3, 6, fld z 31 28 ≠ 15 && fld z 27 24 ≠ 15)] (.mxCfg w.d (BitVec.ofNat 4 (fld z 31 28)) (BitVec.ofNat 4 (fld z 27 24)) (z.getLsbD 23) (z.getLsbD 22) (BitVec.ofNat 4 (fld z 21 18)) (BitVec.ofNat 8 (fld z 17 10)) (unpackWave y))
  | _ => unassigned

/-- OP 0xC1: FN selects the operation (R138). -/
def decodeOpC1 (w : W0) (x y z : W32) : Except DecodeError Instr :=
  match w.fn with
  | 0 => finish w 0 [(0, 5, w.d == 0), (0, 5, w.a == 0), (0, 5, w.b == 0), (0, 5, !w.s)] .mxSwap
  | 1 => finish w 0 [(0, 5, w.d == 0), (0, 5, w.a == 0), (0, 5, fld w.b 4 1 == 0), (0, 5, !w.s)] (.mxClr (w.b.getLsbD 0))
  | 2 => finish w 0 [(0, 5, w.a == 0), (0, 5, fld w.b 4 1 == 0)] (.mxStat w.d (w.b.getLsbD 0) w.s)
  | 3 => finish w 0 [(0, 5, w.a == 0), (0, 5, fld w.b 4 1 == 0)] (.mxStatClr w.d (w.b.getLsbD 0) w.s)
  | _ => unassigned

/-- OP 0xC2: FN selects the operation (R138). -/
def decodeOpC2 (w : W0) (x y z : W32) : Except DecodeError Instr :=
  match w.fn with
  | 0 => finish w 3 [(0, 5, w.a == 0), (0, 5, w.b == 0), (0, 5, !w.s), (2, 5, flagsOk y), (2, 6, waveRange y), (2, 6, pathIn y [0]), (3, 5, fld z 28 0 == 0), (3, 6, fld z 31 29 ≤ 5)] (.nzCfg w.d x (BitVec.ofNat 3 (fld z 31 29)) (unpackWave y))
  | 1 => finish w 3 [(0, 5, w.b == 0), (0, 5, !w.s), (2, 5, flagsOk y), (2, 6, waveRange y), (2, 6, pathIn y [0]), (3, 5, fld z 31 1 == 0)] (.dlPost w.d w.a (z.getLsbD 0) x (unpackWave y))
  | 2 => finish w 3 [(0, 5, !w.s), (2, 5, flagsOk y), (2, 6, waveRange y), (2, 6, pathIn y [2]), (3, 5, fld z 31 9 == 0)] (.dlMerge w.d w.a w.b (z.setWidth 8) (z.getLsbD 8) x (unpackWave y))
  | _ => unassigned

/-- OP 0xC3: FN selects the operation (R138). -/
def decodeOpC3 (w : W0) (x y z : W32) : Except DecodeError Instr :=
  match w.fn with
  | 0 => finish w 1 [(0, 5, w.b == 0), (1, 6, fld x 31 20 == 0)] (.khNew w.d w.a (x.setWidth 20) w.s)
  | 1 => finish w 1 [(0, 5, w.b == 0), (0, 5, !w.s), (1, 6, fld x 31 20 == 0)] (.khBound w.d w.a (x.setWidth 20))
  | 2 => finish w 1 [(0, 5, w.b == 0), (0, 5, !w.s), (1, 6, x == 0)] (.khGen w.d w.a)
  | _ => unassigned

/-- OP 0xE0: FN selects the operation (R138). -/
def decodeOpE0 (w : W0) (x y z : W32) : Except DecodeError Instr :=
  match w.fn with
  | 0 => finish w 3 [(0, 5, w.d == 0), (0, 5, w.b == 0), (0, 5, !w.s), (2, 5, flagsOk y), (2, 6, waveRange y), (2, 6, pathIn y [0]), (3, 5, fld z 11 0 == 0), (3, 6, fld z 28 27 ≠ 3), (3, 6, fld z 26 22 ≤ 23)] (.ladInit (BitVec.ofNat 3 (fld z 31 29)) w.a (BitVec.ofNat 2 (fld z 28 27)) (BitVec.ofNat 5 (fld z 26 22)) (BitVec.ofNat 10 (fld z 21 12)) x (unpackWave y))
  | 1 => finish w 3 [(0, 5, w.d == 0), (0, 5, w.b == 0), (0, 5, !w.s), (2, 5, flagsOk y), (2, 6, waveRange y), (2, 6, pathIn y [0]), (3, 5, fld z 28 0 == 0)] (.ladWts (BitVec.ofNat 3 (fld z 31 29)) w.a x (unpackWave y))
  | 2 => finish w 3 [(0, 5, !w.s), (2, 5, flagsOk y), (2, 6, waveRange y), (2, 6, pathIn y [0]), (3, 5, fld z 28 0 == 0)] (.ladPush w.d (BitVec.ofNat 3 (fld z 31 29)) w.a w.b x (unpackWave y))
  | 3 => finish w 3 [(0, 5, !w.s), (2, 5, flagsOk y), (2, 6, waveRange y), (2, 6, pathIn y [0]), (3, 5, fld z 28 0 == 0)] (.ladRead w.d (BitVec.ofNat 3 (fld z 31 29)) w.a w.b x (unpackWave y))
  | 4 => finish w 3 [(0, 5, w.b == 0), (0, 5, !w.s), (2, 5, flagsOk y), (2, 6, waveRange y), (2, 6, pathIn y [0]), (3, 5, fld z 23 0 == 0), (3, 6, fld z 28 24 ≤ 23)] (.ladRung w.d (BitVec.ofNat 3 (fld z 31 29)) (BitVec.ofNat 5 (fld z 28 24)) w.a x (unpackWave y))
  | 5 => finish w 3 [(0, 5, w.a == 0), (0, 5, w.b == 0), (0, 5, !w.s), (1, 5, x == 0), (2, 5, flagsOk y), (2, 6, waveRange y), (2, 6, pathIn y [0]), (3, 5, fld z 28 0 == 0)] (.ladStep w.d (BitVec.ofNat 3 (fld z 31 29)) (unpackWave y))
  | 6 => finish w 3 [(0, 5, w.a == 0), (0, 5, !w.s), (1, 5, x == 0), (2, 5, flagsOk y), (2, 6, waveRange y), (2, 6, pathIn y [0]), (3, 5, fld z 28 0 == 0)] (.ladWait w.d (BitVec.ofNat 3 (fld z 31 29)) w.b (unpackWave y))
  | 7 => finish w 3 [(0, 5, w.d == 0), (0, 5, w.a == 0), (0, 5, w.b == 0), (0, 5, !w.s), (1, 5, x == 0), (2, 5, flagsOk y), (2, 6, waveRange y), (2, 6, pathIn y [0]), (3, 5, fld z 28 0 == 0)] (.ladFree (BitVec.ofNat 3 (fld z 31 29)) (unpackWave y))
  | _ => unassigned

/-- OP 0xE1: FN selects the operation (R138). -/
def decodeOpE1 (w : W0) (x y z : W32) : Except DecodeError Instr :=
  match w.fn with
  | 0 => finish w 1 [(0, 5, w.b == 0), (0, 5, !w.s)] (.futSpawn w.d w.a x)
  | 1 => finish w 1 [(0, 5, w.b == 0), (0, 5, !w.s), (1, 5, x == 0)] (.futRef w.d w.a)
  | 2 => finish w 1 [(0, 5, w.b == 0), (0, 5, !w.s), (1, 5, x == 0)] (.futDrop w.d w.a)
  | 3 => finish w 1 [(0, 5, w.b == 0), (1, 5, x == 0)] (.futWaitReg w.d w.a w.s)
  | 4 => finish w 1 [(0, 5, w.d == 0), (0, 5, !w.s)] (.futWaitBank w.a w.b x)
  | 5 => finish w 1 [(0, 5, !w.s), (1, 5, x == 0)] (.futFill w.d w.a w.b)
  | 6 => finish w 1 [(0, 5, w.d == 0), (0, 5, w.a == 0), (0, 5, w.b == 0), (0, 5, !w.s), (1, 5, x == 0)] .futRcp
  | 7 => finish w 1 [(0, 5, w.b == 0), (1, 5, x == 0)] (.futStat w.d w.a w.s)
  | _ => unassigned

/-- OP 0xE2: FN selects the operation (R138). -/
def decodeOpE2 (w : W0) (x y z : W32) : Except DecodeError Instr :=
  match w.fn with
  | 0 => finish w 3 [(0, 5, !w.s), (2, 5, flagsOk y), (2, 6, waveRange y), (2, 6, pathIn y [0]), (3, 5, fld z 31 16 == 0)] (.tskSubInline w.d w.a w.b x (z.setWidth 16) (unpackWave y))
  | 1 => finish w 3 [(0, 5, w.b == 0), (0, 5, !w.s), (2, 5, flagsOk y), (2, 6, waveRange y), (2, 6, pathIn y [0]), (3, 5, z == 0)] (.tskSubDesc w.d w.a x (unpackWave y))
  | 2 => finish w 3 [(0, 5, w.d == 0), (0, 5, w.a == 0), (0, 5, w.b == 0), (0, 5, !w.s), (1, 5, x == 0), (2, 5, flagsOk y), (2, 6, waveRange y), (2, 6, pathIn y [0]), (3, 5, z == 0)] (.tskDone (unpackWave y))
  | _ => unassigned

/-- OP 0xE3: FN selects the operation (R138). -/
def decodeOpE3 (w : W0) (x y z : W32) : Except DecodeError Instr :=
  match w.fn with
  | 0 => finish w 2 [(0, 5, w.d == 0), (0, 5, !w.s), (0, 6, w.a.toNat ≤ 24), (1, 5, x == 0), (2, 5, flagsOk y), (2, 5, fld y 2 0 ≠ 1 || w.b == 0), (2, 6, waveRange y), (2, 6, pathIn y [1, 2])] (.qPushReg w.a w.b (unpackWave y))
  | 1 => finish w 2 [(0, 5, w.d == 0), (0, 5, !w.s), (2, 5, flagsOk y), (2, 5, fld y 2 0 ≠ 1 || w.b == 0), (2, 6, waveRange y), (2, 6, pathIn y [1, 2])] (.qPushBank w.a w.b x (unpackWave y))
  | 2 => finish w 2 [(0, 5, w.a == 0), (0, 6, w.d.toNat ≤ 24), (1, 5, x == 0), (2, 5, flagsOk y), (2, 5, fld y 2 0 ≠ 1 || w.b == 0), (2, 6, waveRange y), (2, 6, pathIn y [1, 2])] (.qPopReg w.d w.b w.s (unpackWave y))
  | 3 => finish w 2 [(0, 5, w.d == 0), (0, 5, !w.s), (2, 5, flagsOk y), (2, 5, fld y 2 0 ≠ 1 || w.b == 0), (2, 6, waveRange y), (2, 6, pathIn y [1, 2])] (.qPopBank w.a w.b x (unpackWave y))
  | 4 => finish w 2 [(0, 5, w.a == 0), (1, 5, x == 0), (2, 5, flagsOk y), (2, 5, fld y 2 0 ≠ 1 || w.b == 0), (2, 6, waveRange y), (2, 6, pathIn y [1, 2])] (.qCnt w.d w.b w.s (unpackWave y))
  | _ => unassigned

/-- OP 0xE4: FN selects the operation (R138). -/
def decodeOpE4 (w : W0) (x y z : W32) : Except DecodeError Instr :=
  match w.fn with
  | 0 => finish w 0 [(0, 5, w.b == 0), (0, 5, !w.s)] (.pwrAcq w.d w.a)
  | 1 => finish w 0 [(0, 5, w.b == 0), (0, 5, !w.s)] (.pwrRel w.d w.a)
  | _ => unassigned

/-- The instruction that word 0 and the further words hold, or the rule they break (R117 to R121, R138 to R141). -/
def decodeWords (w : W0) (x y z : W32) : Except DecodeError Instr :=
  match w.op with
  | 0x00 => decodeOp00 w x y z
  | 0x01 => decodeOp01 w x y z
  | 0x20 => decodeOp20 w x y z
  | 0x21 => decodeOp21 w x y z
  | 0x22 => decodeOp22 w x y z
  | 0x40 => decodeOp40 w x y z
  | 0x41 => decodeOp41 w x y z
  | 0x42 => decodeOp42 w x y z
  | 0x43 => decodeOp43 w x y z
  | 0x44 => decodeOp44 w x y z
  | 0x45 => decodeOp45 w x y z
  | 0x60 => decodeOp60 w x y z
  | 0x61 => decodeOp61 w x y z
  | 0x62 => decodeOp62 w x y z
  | 0x80 => decodeOp80 w x y z
  | 0x81 => decodeOp81 w x y z
  | 0x82 => decodeOp82 w x y z
  | 0x83 => decodeOp83 w x y z
  | 0x84 => decodeOp84 w x y z
  | 0x85 => decodeOp85 w x y z
  | 0xA0 => decodeOpA0 w x y z
  | 0xA1 => decodeOpA1 w x y z
  | 0xC0 => decodeOpC0 w x y z
  | 0xC1 => decodeOpC1 w x y z
  | 0xC2 => decodeOpC2 w x y z
  | 0xC3 => decodeOpC3 w x y z
  | 0xE0 => decodeOpE0 w x y z
  | 0xE1 => decodeOpE1 w x y z
  | 0xE2 => decodeOpE2 w x y z
  | 0xE3 => decodeOpE3 w x y z
  | 0xE4 => decodeOpE4 w x y z
  | _ => unassigned

/-- Decoding of a body from one of its words on: the instruction and the number of its words. Word 0 gives
LEN; an instruction whose words run past the body's end is refused (R127), unless a rule of its word 0 is broken too, whose
cause is lower (R141). -/
def decode (ws : List W32) : Except DecodeError (Instr × Nat) :=
  match ws with
  | [] => .error (.truncated none)
  | x0 :: rest =>
    let w := unpackW0 x0
    match decodeWords w (rest.getD 0 0) (rest.getD 1 0) (rest.getD 2 0) with
    | .error (.field k c i) => if rest.length < w.len && k ≠ 0 then .error (.truncated (some i)) else .error (.field k c i)
    | .error e => .error e
    | .ok i => if rest.length < w.len then .error (.truncated (some i)) else .ok (i, w.len + 1)

/-- The fields of word 0 and the further words of a body instruction (R117, R119, R138); an event row has none. -/
def encodeParts : Instr → Option (W0 × List W32)
  | .emit rel scope a place count cell => some (⟨1, 0x20, 0, relD rel scope, a, 0, false⟩, [packT place count cell])
  | .emitW rel scope a place cell => some (⟨1, 0x20, 1, relD rel scope, a, 0, false⟩, [packT place 0 cell])
  | .take d place s => some (⟨1, 0x20, 2, d, 0, 0, s⟩, [packT place 0 4095])
  | .mcount d place s => some (⟨1, 0x20, 3, d, 0, 0, s⟩, [packT place 0 4095])
  | .mset a place count => some (⟨1, 0x20, 4, 0, a, 0, false⟩, [packT place count 4095])
  | .arm t cell => some (⟨1, 0x20, 5, 0, 0, 0, false⟩, [packT (t.setWidth 8) 0 cell])
  | .disarm t cell => some (⟨1, 0x20, 6, 0, 0, 0, false⟩, [packT (t.setWidth 8) 0 cell])
  | .sel k => some (⟨0, 0x21, 0, 0, 0, k.setWidth 5, true⟩, [])
  | .selx a => some (⟨0, 0x21, 1, 0, a, 0, true⟩, [])
  | .safept => some (⟨0, 0x21, 2, 0, 0, 0, false⟩, [])
  | .halt => some (⟨0, 0x21, 3, 0, 0, 0, false⟩, [])
  | .trap k => some (⟨0, 0x21, 4, 0, k.extractLsb' 5 5, k.setWidth 5, false⟩, [])
  | .nop => some (⟨0, 0x21, 5, 0, 0, 0, false⟩, [])
  | .cfgLoad a off => some (⟨1, 0x22, 0, 0, a, 0, false⟩, [off])
  | .csrr d reg s => some (⟨1, 0x22, 1, d, 0, 0, s⟩, [reg.setWidth 32])
  | .csrw d a reg => some (⟨1, 0x22, 2, d, a, 0, false⟩, [reg.setWidth 32])
  | .csrs d a reg => some (⟨1, 0x22, 3, d, a, 0, false⟩, [reg.setWidth 32])
  | .csrc d a reg => some (⟨1, 0x22, 4, d, a, 0, false⟩, [reg.setWidth 32])
  | .add d a b s => some (⟨0, 0x00, 0, d, a, b, s⟩, [])
  | .sub d a b s => some (⟨0, 0x00, 1, d, a, b, s⟩, [])
  | .mul d a b s => some (⟨0, 0x00, 2, d, a, b, s⟩, [])
  | .mulh d a b s => some (⟨0, 0x00, 3, d, a, b, s⟩, [])
  | .mulhz d a b s => some (⟨0, 0x00, 4, d, a, b, s⟩, [])
  | .div d a b s => some (⟨0, 0x00, 5, d, a, b, s⟩, [])
  | .divz d a b s => some (⟨0, 0x00, 6, d, a, b, s⟩, [])
  | .rem d a b s => some (⟨0, 0x00, 7, d, a, b, s⟩, [])
  | .remz d a b s => some (⟨0, 0x00, 8, d, a, b, s⟩, [])
  | .and d a b s => some (⟨0, 0x00, 9, d, a, b, s⟩, [])
  | .or d a b s => some (⟨0, 0x00, 10, d, a, b, s⟩, [])
  | .xor d a b s => some (⟨0, 0x00, 11, d, a, b, s⟩, [])
  | .andn d a b s => some (⟨0, 0x00, 12, d, a, b, s⟩, [])
  | .shl d a b s => some (⟨0, 0x00, 13, d, a, b, s⟩, [])
  | .shr d a b s => some (⟨0, 0x00, 14, d, a, b, s⟩, [])
  | .sra d a b s => some (⟨0, 0x00, 15, d, a, b, s⟩, [])
  | .rol d a b s => some (⟨0, 0x00, 16, d, a, b, s⟩, [])
  | .min d a b s => some (⟨0, 0x00, 17, d, a, b, s⟩, [])
  | .max d a b s => some (⟨0, 0x00, 18, d, a, b, s⟩, [])
  | .minz d a b s => some (⟨0, 0x00, 19, d, a, b, s⟩, [])
  | .maxz d a b s => some (⟨0, 0x00, 20, d, a, b, s⟩, [])
  | .clz d a s => some (⟨0, 0x00, 21, d, a, 0, s⟩, [])
  | .ctz d a s => some (⟨0, 0x00, 22, d, a, 0, s⟩, [])
  | .pop d a s => some (⟨0, 0x00, 23, d, a, 0, s⟩, [])
  | .mov d a s => some (⟨0, 0x00, 24, d, a, 0, s⟩, [])
  | .sext d a pos s => some (⟨0, 0x00, 25, d, a, pos, s⟩, [])
  | .zext d a pos s => some (⟨0, 0x00, 26, d, a, pos, s⟩, [])
  | .bext d a b s => some (⟨0, 0x00, 27, d, a, b, s⟩, [])
  | .bins d a b s => some (⟨0, 0x00, 28, d, a, b, s⟩, [])
  | .addr d a b s => some (⟨0, 0x00, 29, d, a, b, s⟩, [])
  | .li d imm s => some (⟨1, 0x01, 0, d, 0, 0, s⟩, [imm])
  | .lih d imm s => some (⟨1, 0x01, 1, d, 0, 0, s⟩, [imm])
  | .addi d a imm s => some (⟨1, 0x01, 2, d, a, 0, s⟩, [imm])
  | .andi d a imm s => some (⟨1, 0x01, 3, d, a, 0, s⟩, [imm])
  | .ori d a imm s => some (⟨1, 0x01, 4, d, a, 0, s⟩, [imm])
  | .xori d a imm s => some (⟨1, 0x01, 5, d, a, 0, s⟩, [imm])
  | .shli d a n s => some (⟨1, 0x01, 6, d, a, 0, s⟩, [n.setWidth 32])
  | .shri d a n s => some (⟨1, 0x01, 7, d, a, 0, s⟩, [n.setWidth 32])
  | .srai d a n s => some (⟨1, 0x01, 8, d, a, 0, s⟩, [n.setWidth 32])
  | .ld tc d a s off w => some (⟨2, 0x40, tc.toNat, d, a, 0, s⟩, [off, packWave w])
  | .st tc d a off w => some (⟨2, 0x41, tc.toNat, d, a, 0, false⟩, [off, packWave w])
  | .vld v a off w => some (⟨2, 0x42, 0, v.setWidth 5, a, 0, false⟩, [off, packWave w])
  | .vst v a off w => some (⟨2, 0x42, 1, v.setWidth 5, a, 0, false⟩, [off, packWave w])
  | .ldx tc d a b s off w => some (⟨2, 0x43, tc.toNat, d, a, b, s⟩, [off, packWave w])
  | .stx tc d a b off w => some (⟨2, 0x44, tc.toNat, d, a, b, false⟩, [off, packWave w])
  | .ldh d a b s off w => some (⟨2, 0x45, 0, d, a, b, s⟩, [off, packWave w])
  | .aadd w64 d a b s off w => some (⟨2, 0x60, w64.toNat, d, a, b, s⟩, [off, packWave w])
  | .aand w64 d a b s off w => some (⟨2, 0x60, (2 + w64.toNat), d, a, b, s⟩, [off, packWave w])
  | .aor w64 d a b s off w => some (⟨2, 0x60, (4 + w64.toNat), d, a, b, s⟩, [off, packWave w])
  | .axor w64 d a b s off w => some (⟨2, 0x60, (6 + w64.toNat), d, a, b, s⟩, [off, packWave w])
  | .amin w64 d a b s off w => some (⟨2, 0x60, (8 + w64.toNat), d, a, b, s⟩, [off, packWave w])
  | .amax w64 d a b s off w => some (⟨2, 0x60, (10 + w64.toNat), d, a, b, s⟩, [off, packWave w])
  | .aminz w64 d a b s off w => some (⟨2, 0x60, (12 + w64.toNat), d, a, b, s⟩, [off, packWave w])
  | .amaxz w64 d a b s off w => some (⟨2, 0x60, (14 + w64.toNat), d, a, b, s⟩, [off, packWave w])
  | .axchg w64 d a b s off w => some (⟨2, 0x60, (16 + w64.toNat), d, a, b, s⟩, [off, packWave w])
  | .acas w64 d a b s off w => some (⟨2, 0x60, (18 + w64.toNat), d, a, b, s⟩, [off, packWave w])
  | .afaddF32 d a b s off w => some (⟨2, 0x60, 20, d, a, b, s⟩, [off, packWave w])
  | .afmaxF32 d a b s off w => some (⟨2, 0x60, 22, d, a, b, s⟩, [off, packWave w])
  | .fenceAcq w => some (⟨2, 0x61, 0, 0, 0, 0, false⟩, [0, packWave w])
  | .fenceRel w => some (⟨2, 0x61, 1, 0, 0, 0, false⟩, [0, packWave w])
  | .fenceFull w => some (⟨2, 0x61, 2, 0, 0, 0, false⟩, [0, packWave w])
  | .bar id n w => some (⟨2, 0x61, 3, 0, 0, 0, false⟩, [packBar id n, packWave w])
  | .cpyPost d a b off w => some (⟨3, 0x62, 0, d, a, b, false⟩, [off, packWave w, 0])
  | .drain w => some (⟨3, 0x62, 1, 0, 0, 0, false⟩, [0, packWave w, 0])
  | .ringInit a b slotu nslotm1 base off w => some (⟨3, 0x62, 2, 0, a, b, false⟩, [off, packWave w, packRing slotu nslotm1 base])
  | .ringAwait d a b off w => some (⟨3, 0x62, 3, d, a, b, false⟩, [off, packWave w, 0])
  | .ringAwaitFree d a b off w => some (⟨3, 0x62, 3, d, a, b, false⟩, [off, packWave w, 1])
  | .ringRel a off w => some (⟨3, 0x62, 4, 0, a, 0, false⟩, [off, packWave w, 0])
  | .strSub d a off w => some (⟨3, 0x62, 5, d, a, 0, false⟩, [off, packWave w, 0])
  | .strUnsub d a w => some (⟨3, 0x62, 6, d, a, 0, false⟩, [0, packWave w, 0])
  | .strRet a b off w => some (⟨3, 0x62, 7, 0, a, b, false⟩, [off, packWave w, 0])
  | .walkPost a off w => some (⟨3, 0x62, 8, 0, a, 0, false⟩, [off, packWave w, 0])
  | .collPost d a off w => some (⟨3, 0x62, 9, d, a, 0, false⟩, [off, packWave w, 0])
  | .sigAdd d a b off w => some (⟨3, 0x62, 10, d, a, b, false⟩, [off, packWave w, 0])
  | .vadd v s => some (⟨1, 0x80, 0, 0, 0, 0, s⟩, [packV v])
  | .vsub v s => some (⟨1, 0x80, 1, 0, 0, 0, s⟩, [packV v])
  | .vmul v s => some (⟨1, 0x80, 2, 0, 0, 0, s⟩, [packV v])
  | .vfma v s => some (⟨1, 0x80, 3, 0, 0, 0, s⟩, [packV v])
  | .vfms v s => some (⟨1, 0x80, 4, 0, 0, 0, s⟩, [packV v])
  | .vnfma v s => some (⟨1, 0x80, 5, 0, 0, 0, s⟩, [packV v])
  | .vmax v s => some (⟨1, 0x80, 6, 0, 0, 0, s⟩, [packV v])
  | .vmin v s => some (⟨1, 0x80, 7, 0, 0, 0, s⟩, [packV v])
  | .vabs v s => some (⟨1, 0x80, 8, 0, 0, 0, s⟩, [packV v])
  | .vneg v s => some (⟨1, 0x80, 9, 0, 0, 0, s⟩, [packV v])
  | .vcpy v s => some (⟨1, 0x80, 10, 0, 0, 0, s⟩, [packV v])
  | .vsel v s => some (⟨1, 0x81, 0, 0, 0, 0, s⟩, [packV v])
  | .vand v s => some (⟨1, 0x81, 1, 0, 0, 0, s⟩, [packV v])
  | .vor v s => some (⟨1, 0x81, 2, 0, 0, 0, s⟩, [packV v])
  | .vxor v s => some (⟨1, 0x81, 3, 0, 0, 0, s⟩, [packV v])
  | .vshl v s => some (⟨1, 0x81, 4, 0, 0, 0, s⟩, [packV v])
  | .vshr v s => some (⟨1, 0x81, 5, 0, 0, 0, s⟩, [packV v])
  | .vsra v s => some (⟨1, 0x81, 6, 0, 0, 0, s⟩, [packV v])
  | .vcmpEq v s => some (⟨1, 0x82, 0, 0, 0, 0, s⟩, [packV v])
  | .vcmpNe v s => some (⟨1, 0x82, 1, 0, 0, 0, s⟩, [packV v])
  | .vcmpLt v s => some (⟨1, 0x82, 2, 0, 0, 0, s⟩, [packV v])
  | .vcmpLe v s => some (⟨1, 0x82, 3, 0, 0, 0, s⟩, [packV v])
  | .vcmpGt v s => some (⟨1, 0x82, 4, 0, 0, 0, s⟩, [packV v])
  | .vcmpGe v s => some (⟨1, 0x82, 5, 0, 0, 0, s⟩, [packV v])
  | .vredSum v s => some (⟨1, 0x83, 0, 0, 0, 0, s⟩, [packV v])
  | .vredMax v s => some (⟨1, 0x83, 1, 0, 0, 0, s⟩, [packV v])
  | .vredMin v s => some (⟨1, 0x83, 2, 0, 0, 0, s⟩, [packV v])
  | .vscanSum v s => some (⟨1, 0x83, 3, 0, 0, 0, s⟩, [packV v])
  | .vscanMax v s => some (⟨1, 0x83, 4, 0, 0, 0, s⟩, [packV v])
  | .vperm v => some (⟨1, 0x84, 0, 0, 0, 0, false⟩, [packV v])
  | .vshuf v => some (⟨1, 0x84, 1, 0, 0, 0, false⟩, [packV v])
  | .vbcast a v => some (⟨1, 0x84, 2, 0, a, 0, false⟩, [packV v])
  | .vaddc d v s => some (⟨1, 0x85, 0, d, 0, 0, s⟩, [packV v])
  | .vsubc d v s => some (⟨1, 0x85, 1, d, 0, 0, s⟩, [packV v])
  | .vmulc v s => some (⟨1, 0x85, 2, 0, 0, 0, s⟩, [packV v])
  | .vdot v s => some (⟨1, 0x85, 3, 0, 0, 0, s⟩, [packV v])
  | .vcvt v s => some (⟨1, 0xA0, 0, 0, 0, 0, s⟩, [packV v])
  | .vpack v => some (⟨1, 0xA0, 1, 0, 0, 0, false⟩, [packV v])
  | .vunpack v => some (⟨1, 0xA0, 2, 0, 0, 0, false⟩, [packV v])
  | .vscale a v s => some (⟨1, 0xA0, 3, 0, a, 0, s⟩, [packV v])
  | .vqnt v => some (⟨1, 0xA0, 4, 0, 0, 0, false⟩, [packV v])
  | .vdq v => some (⟨1, 0xA0, 5, 0, 0, 0, false⟩, [packV v])
  | .vexp2 v s => some (⟨1, 0xA1, 0, 0, 0, 0, s⟩, [packV v])
  | .vlog2 v s => some (⟨1, 0xA1, 1, 0, 0, 0, s⟩, [packV v])
  | .vrcp v s => some (⟨1, 0xA1, 2, 0, 0, 0, s⟩, [packV v])
  | .vrsqrt v s => some (⟨1, 0xA1, 3, 0, 0, 0, s⟩, [packV v])
  | .vsqrt v s => some (⟨1, 0xA1, 4, 0, 0, 0, s⟩, [packV v])
  | .vtanh v s => some (⟨1, 0xA1, 5, 0, 0, 0, s⟩, [packV v])
  | .vsig v s => some (⟨1, 0xA1, 6, 0, 0, 0, s⟩, [packV v])
  | .vsilu v s => some (⟨1, 0xA1, 7, 0, 0, 0, s⟩, [packV v])
  | .vgelu v s => some (⟨1, 0xA1, 8, 0, 0, 0, s⟩, [packV v])
  | .mxLds d a b km1 nm1 sc off w => some (⟨3, 0xC0, 0, d, a, b, false⟩, [off, packWave w, packLds km1 nm1 sc])
  | .mxMul d a b mm1 km1 nm1 acc q sc off w => some (⟨3, 0xC0, 1, d, a, b, false⟩, [off, packWave w, packMul mm1 km1 nm1 acc q sc])
  | .mxMulb d mm1 km1 nm1 acc q w => some (⟨3, 0xC0, 2, d, 0, 0, false⟩, [0, packWave w, packMul mm1 km1 nm1 acc q false])
  | .mxDrain d a b mm1 nm1 acc q byp nowr off w => some (⟨3, 0xC0, 3, d, a, b, false⟩, [off, packWave w, packDrain mm1 nm1 acc q byp nowr])
  | .mxScl d a b w => some (⟨3, 0xC0, 4, d, a, b, false⟩, [0, packWave w, 0])
  | .mxCfg d aty bty out bsat rg rnm1 w => some (⟨3, 0xC0, 5, d, 0, 0, false⟩, [0, packWave w, packCfg aty bty out bsat rg rnm1])
  | .mxSwap => some (⟨0, 0xC1, 0, 0, 0, 0, false⟩, [])
  | .mxClr q => some (⟨0, 0xC1, 1, 0, 0, (BitVec.ofBool q).setWidth 5, false⟩, [])
  | .mxStat d q s => some (⟨0, 0xC1, 2, d, 0, (BitVec.ofBool q).setWidth 5, s⟩, [])
  | .mxStatClr d q s => some (⟨0, 0xC1, 3, d, 0, (BitVec.ofBool q).setWidth 5, s⟩, [])
  | .nzCfg d seed mode w => some (⟨3, 0xC2, 0, d, 0, 0, false⟩, [seed, packWave w, packNz mode])
  | .dlPost d a fin off w => some (⟨3, 0xC2, 1, d, a, 0, false⟩, [off, packWave w, (BitVec.ofBool fin).setWidth 32])
  | .dlMerge d a b dm1 fin off w => some (⟨3, 0xC2, 2, d, a, b, false⟩, [off, packWave w, packMerge dm1 fin])
  | .khNew d a bnd s => some (⟨1, 0xC3, 0, d, a, 0, s⟩, [bnd.setWidth 32])
  | .khBound d a bnd => some (⟨1, 0xC3, 1, d, a, 0, false⟩, [bnd.setWidth 32])
  | .khGen d a => some (⟨1, 0xC3, 2, d, a, 0, false⟩, [0])
  | .ladInit lad a mode nrm1 nem1 off w => some (⟨3, 0xE0, 0, 0, a, 0, false⟩, [off, packWave w, packLad lad mode nrm1 nem1])
  | .ladWts lad a off w => some (⟨3, 0xE0, 1, 0, a, 0, false⟩, [off, packWave w, packLad lad 0 0 0])
  | .ladPush d lad a b off w => some (⟨3, 0xE0, 2, d, a, b, false⟩, [off, packWave w, packLad lad 0 0 0])
  | .ladRead d lad a b off w => some (⟨3, 0xE0, 3, d, a, b, false⟩, [off, packWave w, packLad lad 0 0 0])
  | .ladRung d lad k a off w => some (⟨3, 0xE0, 4, d, a, 0, false⟩, [off, packWave w, packRung lad k])
  | .ladStep d lad w => some (⟨3, 0xE0, 5, d, 0, 0, false⟩, [0, packWave w, packLad lad 0 0 0])
  | .ladWait d lad b w => some (⟨3, 0xE0, 6, d, 0, b, false⟩, [0, packWave w, packLad lad 0 0 0])
  | .ladFree lad w => some (⟨3, 0xE0, 7, 0, 0, 0, false⟩, [0, packWave w, packLad lad 0 0 0])
  | .futSpawn d a off => some (⟨1, 0xE1, 0, d, a, 0, false⟩, [off])
  | .futRef d a => some (⟨1, 0xE1, 1, d, a, 0, false⟩, [0])
  | .futDrop d a => some (⟨1, 0xE1, 2, d, a, 0, false⟩, [0])
  | .futWaitReg d a s => some (⟨1, 0xE1, 3, d, a, 0, s⟩, [0])
  | .futWaitBank a b off => some (⟨1, 0xE1, 4, 0, a, b, false⟩, [off])
  | .futFill d a b => some (⟨1, 0xE1, 5, d, a, b, false⟩, [0])
  | .futRcp => some (⟨1, 0xE1, 6, 0, 0, 0, false⟩, [0])
  | .futStat d a s => some (⟨1, 0xE1, 7, d, a, 0, s⟩, [0])
  | .tskSubInline d a b imm tmpl w => some (⟨3, 0xE2, 0, d, a, b, false⟩, [imm, packWave w, tmpl.setWidth 32])
  | .tskSubDesc d a off w => some (⟨3, 0xE2, 1, d, a, 0, false⟩, [off, packWave w, 0])
  | .tskDone w => some (⟨3, 0xE2, 2, 0, 0, 0, false⟩, [0, packWave w, 0])
  | .qPushReg a b w => some (⟨2, 0xE3, 0, 0, a, b, false⟩, [0, packWave w])
  | .qPushBank a b off w => some (⟨2, 0xE3, 1, 0, a, b, false⟩, [off, packWave w])
  | .qPopReg d b s w => some (⟨2, 0xE3, 2, d, 0, b, s⟩, [0, packWave w])
  | .qPopBank a b off w => some (⟨2, 0xE3, 3, 0, a, b, false⟩, [off, packWave w])
  | .qCnt d b s w => some (⟨2, 0xE3, 4, d, 0, b, s⟩, [0, packWave w])
  | .pwrAcq d a => some (⟨0, 0xE4, 0, d, a, 0, false⟩, [])
  | .pwrRel d a => some (⟨0, 0xE4, 1, d, a, 0, false⟩, [])
  | _ => none

/-- The words of an instruction, word 0 first; an event row has none. -/
def encode (i : Instr) : List W32 :=
  match encodeParts i with
  | some (w, ws) => packW0 w :: ws
  | none => []

/-- The number of words of an instruction: 1 + LEN (R118); 0 for an event row. -/
def Instr.words (i : Instr) : Nat :=
  match encodeParts i with
  | some (w, _) => w.len + 1
  | none => 0

/-- The little-endian 32-bit words of a byte sequence (R3, R117). -/
def wordsOfBytes : List Byte → List W32
  | a :: b :: c :: d :: rest => BitVec.ofNat 32 (ofBytes [a, b, c, d]) :: wordsOfBytes rest
  | _ => []

/-- The instruction at the start of a byte sequence. -/
def decodeBytes (bs : List Byte) : Except DecodeError (Instr × Nat) := decode (wordsOfBytes bs)

/-- The bytes of an instruction whose bits, numbered from the first word's least significant bit, are `w`,
with zeros above `nbits`, up to the longest instruction's 16 bytes (R117, R118). -/
def tableBytes (nbits w : Nat) : List Byte := toBytes 16 (w % 2 ^ nbits)

/-- The instruction that the decoder reads from a word of the opcode table. -/
def decodeTableWord (nbits w : Nat) : Option Instr :=
  match decodeBytes (tableBytes nbits w) with
  | .ok (i, _) => some i
  | .error _ => none

end Sys2Proof
end

