-- ==== Sys2Proof/Machine/Class.lean ====
section
/-! DEFINITION. What an instruction is, read off its fields: its wave word, the general registers it reads and
writes, and whether it can pass the commit point (R46, R49). -/
namespace Sys2Proof

/-- The wave word of an L or E format instruction (R119). -/
def Instr.wave : Instr → Option Wave
  | .ld _ _ _ _ _ w => some w
  | .st _ _ _ _ w => some w
  | .vld _ _ _ w => some w
  | .vst _ _ _ w => some w
  | .ldx _ _ _ _ _ _ w => some w
  | .stx _ _ _ _ _ w => some w
  | .ldh _ _ _ _ _ w => some w
  | .aadd _ _ _ _ _ _ w => some w
  | .aand _ _ _ _ _ _ w => some w
  | .aor _ _ _ _ _ _ w => some w
  | .axor _ _ _ _ _ _ w => some w
  | .amin _ _ _ _ _ _ w => some w
  | .amax _ _ _ _ _ _ w => some w
  | .aminz _ _ _ _ _ _ w => some w
  | .amaxz _ _ _ _ _ _ w => some w
  | .axchg _ _ _ _ _ _ w => some w
  | .acas _ _ _ _ _ _ w => some w
  | .afaddF32 _ _ _ _ _ w => some w
  | .afmaxF32 _ _ _ _ _ w => some w
  | .fenceAcq w => some w
  | .fenceRel w => some w
  | .fenceFull w => some w
  | .bar _ _ w => some w
  | .cpyPost _ _ _ _ w => some w
  | .drain w => some w
  | .ringInit _ _ _ _ _ _ w => some w
  | .ringAwait _ _ _ _ w => some w
  | .ringAwaitFree _ _ _ _ w => some w
  | .ringRel _ _ w => some w
  | .strSub _ _ _ w => some w
  | .strUnsub _ _ w => some w
  | .strRet _ _ _ w => some w
  | .walkPost _ _ w => some w
  | .collPost _ _ _ w => some w
  | .sigAdd _ _ _ _ w => some w
  | .mxLds _ _ _ _ _ _ _ w => some w
  | .mxMul _ _ _ _ _ _ _ _ _ _ w => some w
  | .mxMulb _ _ _ _ _ _ w => some w
  | .mxDrain _ _ _ _ _ _ _ _ _ _ w => some w
  | .mxScl _ _ _ w => some w
  | .mxCfg _ _ _ _ _ _ _ w => some w
  | .nzCfg _ _ _ w => some w
  | .dlPost _ _ _ _ w => some w
  | .dlMerge _ _ _ _ _ _ w => some w
  | .ladInit _ _ _ _ _ _ w => some w
  | .ladWts _ _ _ w => some w
  | .ladPush _ _ _ _ _ w => some w
  | .ladRead _ _ _ _ _ w => some w
  | .ladRung _ _ _ _ _ w => some w
  | .ladStep _ _ w => some w
  | .ladWait _ _ _ w => some w
  | .ladFree _ w => some w
  | .tskSubInline _ _ _ _ _ w => some w
  | .tskSubDesc _ _ _ w => some w
  | .tskDone w => some w
  | .qPushReg _ _ w => some w
  | .qPushBank _ _ _ w => some w
  | .qPopReg _ _ _ w => some w
  | .qPopBank _ _ _ w => some w
  | .qCnt _ _ _ w => some w
  | _ => none

/-- The general registers that an instruction reads. -/
def Instr.reads : Instr → List Rg
  | .add _ a b _ => [a, b]
  | .sub _ a b _ => [a, b]
  | .mul _ a b _ => [a, b]
  | .mulh _ a b _ => [a, b]
  | .mulhz _ a b _ => [a, b]
  | .div _ a b _ => [a, b]
  | .divz _ a b _ => [a, b]
  | .rem _ a b _ => [a, b]
  | .remz _ a b _ => [a, b]
  | .and _ a b _ => [a, b]
  | .or _ a b _ => [a, b]
  | .xor _ a b _ => [a, b]
  | .andn _ a b _ => [a, b]
  | .shl _ a b _ => [a, b]
  | .shr _ a b _ => [a, b]
  | .sra _ a b _ => [a, b]
  | .rol _ a b _ => [a, b]
  | .min _ a b _ => [a, b]
  | .max _ a b _ => [a, b]
  | .minz _ a b _ => [a, b]
  | .maxz _ a b _ => [a, b]
  | .clz _ a _ => [a]
  | .ctz _ a _ => [a]
  | .pop _ a _ => [a]
  | .mov _ a _ => [a]
  | .sext _ a _ _ => [a]
  | .zext _ a _ _ => [a]
  | .bext _ a b _ => [a, b]
  | .bins d a b _ => [a, b, d]
  | .addr _ a b _ => [a, b]
  | .lih d _ _ => [d]
  | .addi _ a _ _ => [a]
  | .andi _ a _ _ => [a]
  | .ori _ a _ _ => [a]
  | .xori _ a _ _ => [a]
  | .shli _ a _ _ => [a]
  | .shri _ a _ _ => [a]
  | .srai _ a _ _ => [a]
  | .emit _ _ a _ _ _ => [a]
  | .emitW _ _ a _ _ => [a]
  | .mset a _ _ => [a]
  | .selx a => [a]
  | .cfgLoad a _ => [a]
  | .csrw _ a _ => [a]
  | .csrs _ a _ => [a]
  | .csrc _ a _ => [a]
  | .ld _ _ a _ _ _ => [a]
  | .st _ d a _ _ => [a, d]
  | .vld _ a _ _ => [a]
  | .vst _ a _ _ => [a]
  | .ldx _ _ a b _ _ _ => [a, b]
  | .stx _ d a b _ _ => [a, b, d]
  | .ldh _ a b _ _ _ => [a, b]
  | .aadd _ _ a b _ _ _ => [a, b]
  | .aand _ _ a b _ _ _ => [a, b]
  | .aor _ _ a b _ _ _ => [a, b]
  | .axor _ _ a b _ _ _ => [a, b]
  | .amin _ _ a b _ _ _ => [a, b]
  | .amax _ _ a b _ _ _ => [a, b]
  | .aminz _ _ a b _ _ _ => [a, b]
  | .amaxz _ _ a b _ _ _ => [a, b]
  | .axchg _ _ a b _ _ _ => [a, b]
  | .acas _ d a b _ _ _ => [a, b, d]
  | .afaddF32 _ a b _ _ _ => [a, b]
  | .afmaxF32 _ a b _ _ _ => [a, b]
  | .cpyPost _ a b _ _ => [a, b]
  | .ringInit a b _ _ _ _ _ => [a, b]
  | .ringAwait _ a b _ _ => [a, b]
  | .ringAwaitFree _ a b _ _ => [a, b]
  | .ringRel a _ _ => [a]
  | .strSub _ a _ _ => [a]
  | .strUnsub _ a _ => [a]
  | .strRet a b _ _ => [a, b]
  | .walkPost a _ _ => [a]
  | .collPost _ a _ _ => [a]
  | .sigAdd _ a b _ _ => [a, b]
  | .vbcast a _ => [a]
  | .vscale a _ _ => [a]
  | .mxLds d a b _ _ _ _ _ => [a, b, d]
  | .mxMul d a b _ _ _ _ _ _ _ _ => [a, b, d]
  | .mxMulb d _ _ _ _ _ _ => [d]
  | .mxDrain d a b _ _ _ _ _ _ _ _ => [a, b, d]
  | .mxScl d a b _ => [a, b, d]
  | .mxCfg d _ _ _ _ _ _ _ => [d]
  | .nzCfg d _ _ _ => [d]
  | .dlPost d a _ _ _ => [a, d]
  | .dlMerge d a b _ _ _ _ => [a, b, d]
  | .khNew _ a _ _ => [a]
  | .khBound _ a _ => [a]
  | .khGen _ a => [a]
  | .ladInit _ a _ _ _ _ _ => [a]
  | .ladWts _ a _ _ => [a]
  | .ladPush d _ a b _ _ => [a, b, d]
  | .ladRead _ _ a b _ _ => [a, b]
  | .ladRung _ _ _ a _ _ => [a]
  | .ladWait _ _ b _ => [b]
  | .futSpawn _ a _ => [a]
  | .futRef _ a => [a]
  | .futDrop _ a => [a]
  | .futWaitReg _ a _ => [a]
  | .futWaitBank a b _ => [a, b]
  | .futFill _ a b => [a, b]
  | .futStat _ a _ => [a]
  | .tskSubInline _ a b _ _ _ => [a, b]
  | .tskSubDesc _ a _ _ => [a]
  | .qPushReg a b _ => (List.range 8).map (fun k => a + BitVec.ofNat 5 k) ++ [b]
  | .qPushBank a b _ _ => [a, b]
  | .qPopReg _ b _ _ => [b]
  | .qPopBank a b _ _ => [a, b]
  | .qCnt _ b _ _ => [b]
  | .pwrAcq _ a => [a]
  | .pwrRel _ a => [a]
  | _ => []

/-- The general registers that an instruction writes. -/
def Instr.writes : Instr → List Rg
  | .add d _ _ _ => [d]
  | .sub d _ _ _ => [d]
  | .mul d _ _ _ => [d]
  | .mulh d _ _ _ => [d]
  | .mulhz d _ _ _ => [d]
  | .div d _ _ _ => [d]
  | .divz d _ _ _ => [d]
  | .rem d _ _ _ => [d]
  | .remz d _ _ _ => [d]
  | .and d _ _ _ => [d]
  | .or d _ _ _ => [d]
  | .xor d _ _ _ => [d]
  | .andn d _ _ _ => [d]
  | .shl d _ _ _ => [d]
  | .shr d _ _ _ => [d]
  | .sra d _ _ _ => [d]
  | .rol d _ _ _ => [d]
  | .min d _ _ _ => [d]
  | .max d _ _ _ => [d]
  | .minz d _ _ _ => [d]
  | .maxz d _ _ _ => [d]
  | .clz d _ _ => [d]
  | .ctz d _ _ => [d]
  | .pop d _ _ => [d]
  | .mov d _ _ => [d]
  | .sext d _ _ _ => [d]
  | .zext d _ _ _ => [d]
  | .bext d _ _ _ => [d]
  | .bins d _ _ _ => [d]
  | .addr d _ _ _ => [d]
  | .li d _ _ => [d]
  | .lih d _ _ => [d]
  | .addi d _ _ _ => [d]
  | .andi d _ _ _ => [d]
  | .ori d _ _ _ => [d]
  | .xori d _ _ _ => [d]
  | .shli d _ _ _ => [d]
  | .shri d _ _ _ => [d]
  | .srai d _ _ _ => [d]
  | .take d _ _ => [d]
  | .mcount d _ _ => [d]
  | .csrr d _ _ => [d]
  | .csrw d _ _ => [d]
  | .csrs d _ _ => [d]
  | .csrc d _ _ => [d]
  | .ld _ d _ _ _ _ => [d]
  | .ldx _ d _ _ _ _ _ => [d]
  | .ldh d _ _ _ _ _ => [d]
  | .aadd _ d _ _ _ _ _ => [d]
  | .aand _ d _ _ _ _ _ => [d]
  | .aor _ d _ _ _ _ _ => [d]
  | .axor _ d _ _ _ _ _ => [d]
  | .amin _ d _ _ _ _ _ => [d]
  | .amax _ d _ _ _ _ _ => [d]
  | .aminz _ d _ _ _ _ _ => [d]
  | .amaxz _ d _ _ _ _ _ => [d]
  | .axchg _ d _ _ _ _ _ => [d]
  | .acas _ d _ _ _ _ _ => [d]
  | .afaddF32 d _ _ _ _ _ => [d]
  | .afmaxF32 d _ _ _ _ _ => [d]
  | .cpyPost d _ _ _ _ => [d]
  | .ringAwait d _ _ _ _ => [d]
  | .ringAwaitFree d _ _ _ _ => [d]
  | .strSub d _ _ _ => [d]
  | .strUnsub d _ _ => [d]
  | .collPost d _ _ _ => [d]
  | .sigAdd d _ _ _ _ => [d]
  | .vaddc d _ _ => [d]
  | .vsubc d _ _ => [d]
  | .mxStat d _ _ => [d]
  | .mxStatClr d _ _ => [d]
  | .khNew d _ _ _ => [d]
  | .khBound d _ _ => [d]
  | .khGen d _ => [d]
  | .ladRead d _ _ _ _ _ => [d]
  | .ladRung d _ _ _ _ _ => [d]
  | .ladStep d _ _ => [d]
  | .ladWait d _ _ _ => [d]
  | .futSpawn d _ _ => [d]
  | .futRef d _ => [d]
  | .futDrop d _ => [d]
  | .futWaitReg d _ _ => [d]
  | .futFill d _ _ => [d]
  | .futStat d _ _ => [d]
  | .tskSubInline d _ _ _ _ _ => [d]
  | .tskSubDesc d _ _ _ => [d]
  | .qPopReg d _ _ _ => (List.range 8).map (fun k => d + BitVec.ofNat 5 k)
  | .qCnt d _ _ _ => [d]
  | .pwrAcq d _ => [d]
  | .pwrRel d _ => [d]
  | _ => []

/-- The vector instructions (OP 0x80 to 0xA1): they read and write through shape records. -/
def Instr.vector : Instr → Option VOp
  | .vadd v _ => some v
  | .vsub v _ => some v
  | .vmul v _ => some v
  | .vfma v _ => some v
  | .vfms v _ => some v
  | .vnfma v _ => some v
  | .vmax v _ => some v
  | .vmin v _ => some v
  | .vabs v _ => some v
  | .vneg v _ => some v
  | .vcpy v _ => some v
  | .vsel v _ => some v
  | .vand v _ => some v
  | .vor v _ => some v
  | .vxor v _ => some v
  | .vshl v _ => some v
  | .vshr v _ => some v
  | .vsra v _ => some v
  | .vcmpEq v _ => some v
  | .vcmpNe v _ => some v
  | .vcmpLt v _ => some v
  | .vcmpLe v _ => some v
  | .vcmpGt v _ => some v
  | .vcmpGe v _ => some v
  | .vredSum v _ => some v
  | .vredMax v _ => some v
  | .vredMin v _ => some v
  | .vscanSum v _ => some v
  | .vscanMax v _ => some v
  | .vperm v => some v
  | .vshuf v => some v
  | .vbcast _ v => some v
  | .vaddc _ v _ => some v
  | .vsubc _ v _ => some v
  | .vmulc v _ => some v
  | .vdot v _ => some v
  | .vcvt v _ => some v
  | .vpack v => some v
  | .vunpack v => some v
  | .vscale _ v _ => some v
  | .vqnt v => some v
  | .vdq v => some v
  | .vexp2 v _ => some v
  | .vlog2 v _ => some v
  | .vrcp v _ => some v
  | .vrsqrt v _ => some v
  | .vsqrt v _ => some v
  | .vtanh v _ => some v
  | .vsig v _ => some v
  | .vsilu v _ => some v
  | .vgelu v _ => some v
  | _ => none

/-- The T-format reference of a net instruction: place or transition, and cell (R144). -/
def Instr.cellRef : Instr → Option (BitVec 12)
  | .emit _ _ _ _ _ c => some c
  | .emitW _ _ _ _ c => some c
  | .arm _ c => some c
  | .disarm _ c => some c
  | _ => none

/-- Can the instruction pass the commit point, judged from the opcode and the CELL field (R46, R49)? -/
def Instr.canPass (i : Instr) : Bool :=
  match i with
  | .emit .. | .emitW .. | .arm .. | .disarm .. => i.cellRef != some 0xFFF
  | .trap .. | .csrw .. | .csrs .. | .csrc .. | .st .. | .vst .. | .stx .. | .aadd .. | .aand .. | .aor .. |
    .axor .. | .amin .. | .amax .. | .aminz .. | .amaxz .. | .axchg .. | .acas .. | .afaddF32 .. | .afmaxF32
    .. | .bar .. | .cpyPost .. | .drain .. | .ringInit .. | .ringAwait .. | .ringAwaitFree .. | .ringRel .. |
    .strSub .. | .strUnsub .. | .strRet .. | .walkPost .. | .collPost .. | .sigAdd .. | .vadd .. | .vsub .. |
    .vmul .. | .vfma .. | .vfms .. | .vnfma .. | .vmax .. | .vmin .. | .vabs .. | .vneg .. | .vcpy .. | .vsel
    .. | .vand .. | .vor .. | .vxor .. | .vshl .. | .vshr .. | .vsra .. | .vcmpEq .. | .vcmpNe .. | .vcmpLt ..
    | .vcmpLe .. | .vcmpGt .. | .vcmpGe .. | .vredSum .. | .vredMax .. | .vredMin .. | .vscanSum .. |
    .vscanMax .. | .vperm .. | .vshuf .. | .vbcast .. | .vaddc .. | .vsubc .. | .vmulc .. | .vdot .. | .vcvt
    .. | .vpack .. | .vunpack .. | .vscale .. | .vqnt .. | .vdq .. | .vexp2 .. | .vlog2 .. | .vrcp .. |
    .vrsqrt .. | .vsqrt .. | .vtanh .. | .vsig .. | .vsilu .. | .vgelu .. | .mxLds .. | .mxMul .. | .mxMulb ..
    | .mxDrain .. | .mxScl .. | .mxCfg .. | .mxSwap .. | .mxClr .. | .mxStat .. | .mxStatClr .. | .nzCfg .. |
    .dlPost .. | .dlMerge .. | .khNew .. | .khBound .. | .khGen .. | .ladInit .. | .ladWts .. | .ladPush .. |
    .ladRead .. | .ladRung .. | .ladStep .. | .ladWait .. | .ladFree .. | .futSpawn .. | .futRef .. | .futDrop
    .. | .futWaitReg .. | .futWaitBank .. | .futFill .. | .futRcp .. | .futStat .. | .tskSubInline .. |
    .tskSubDesc .. | .tskDone .. | .qPushReg .. | .qPushBank .. | .qPopReg .. | .qPopBank .. | .qCnt .. |
    .pwrAcq .. | .pwrRel .. => true
  | _ => false

/-- The handle instructions, which only system transitions may hold (R140, R252). -/
def Instr.handleOp : Instr → Bool
  | .khNew .. | .khBound .. | .khGen .. => true
  | _ => false

/-- An instruction that makes a memory access (R174 to R179). -/
def Instr.accesses : Instr → Bool
  | .ld _ _ _ _ _ _ | .st _ _ _ _ _ | .vld _ _ _ _ | .vst _ _ _ _ | .ldx _ _ _ _ _ _ _ | .stx _ _ _ _ _ _
  | .ldh _ _ _ _ _ _ | .aadd _ _ _ _ _ _ _ | .aand _ _ _ _ _ _ _ | .aor _ _ _ _ _ _ _ | .axor _ _ _ _ _ _ _
  | .amin _ _ _ _ _ _ _ | .amax _ _ _ _ _ _ _ | .aminz _ _ _ _ _ _ _ | .amaxz _ _ _ _ _ _ _ | .axchg _ _ _ _ _ _ _
  | .acas _ _ _ _ _ _ _ | .afaddF32 _ _ _ _ _ _ | .afmaxF32 _ _ _ _ _ _ | .sigAdd _ _ _ _ _ => true
  | _ => false

/-- A load (R174, R175): it makes an access that is no store. -/
def Instr.loads (i : Instr) : Bool := match i with
  | .st _ _ _ _ _ | .vst _ _ _ _ | .stx _ _ _ _ _ _ => false
  | i => i.accesses

/-- A store or an atomic (R147). -/
def Instr.stores (i : Instr) : Bool := match i with
  | .ld _ _ _ _ _ _ | .vld _ _ _ _ | .ldx _ _ _ _ _ _ _ | .ldh _ _ _ _ _ _ => false
  | i => i.accesses

/-- A fence (R181). -/
def Instr.isFence : Instr → Bool
  | .fenceAcq _ | .fenceRel _ | .fenceFull _ => true
  | _ => false

/-- An instruction that releases (R147, R172, R267, R269, R289): it is performed after the accesses before it. -/
def Instr.releases (i : Instr) : Bool := match i with
  | .emit rel _ _ _ _ _ | .emitW rel _ _ _ _ => rel
  | .bar _ _ _ | .futSpawn _ _ _ | .futFill _ _ _ => true
  | i => match i.wave with
    | some w => w.rel
    | none => false

/-- An instruction of the wave chain that acquires (R172, R289): no access after it is performed before it. -/
def Instr.acquires (i : Instr) : Bool := match i with
  | .bar _ _ _ | .drain _ => true
  | i => match i.wave with
    | some w => w.acq
    | none => false

/-- An instruction of the wave chain that makes an access or commands a unit: all but fences and barriers (R172, R181). -/
def Instr.onChain (i : Instr) : Bool := match i with
  | .bar _ _ _ => false
  | i => i.wave.isSome && !i.isFence

/-- A wait for a future, which acquires (R269, R289). -/
def Instr.waitsFuture : Instr → Bool
  | .futWaitReg _ _ _ | .futWaitBank _ _ _ => true
  | _ => false

/-- Must `i`, later on the cell's chain, wait for `j`, which has issued and is not performed: what a release or a fence is to
follow, what an acquire or a fence is to precede (R172, R181, R183, R269), an access before an access (R287)? -/
def Instr.awaits (i j : Instr) : Bool :=
  let before := match j with
    | .fenceAcq _ | .fenceFull _ | .futWaitReg _ _ _ | .futWaitBank _ _ _ => true
    | .fenceRel _ => i.isFence || (i.onChain && (!i.loads || i.stores))
    | j => j.acquires
  let after := match i with
    | .fenceRel _ | .fenceFull _ => true
    | .fenceAcq _ => j.isFence || !j.accesses || j.loads
    | i => i.releases
  before || after || (i.accesses && j.accesses) || (match i with
    | .cpyPost _ _ _ _ _ => j.accesses
    | _ => false)

/-- The scope at which an instruction acquires by its wave word (R172, R289). -/
def Instr.acqScope (i : Instr) : Option Nat := match i.wave with
  | some w => if w.acq then some w.scope.toNat else none
  | none => none

end Sys2Proof
end

