-- ==== Sys2Proof/Machine/Check.lean ====
section
/-! DEFINITION. The load-time checks: of one record (R37, R49, R51, R125 to R129, R140, R145) and of a whole Spauf
image (R130 to R137, R141), and what an image holds. -/
namespace Sys2Proof.Machine

/-- A broken rule: the offset that breaks it and the cause of R141. -/
abbrev Bad := Nat × Nat

/-- The lowest offset, then the lowest cause (R141). -/
def firstRule : List Bad → Option Bad
  | [] => none
  | b :: bs => match firstRule bs with
    | none => some b
    | some c => if b.1 < c.1 || (b.1 == c.1 && decide (b.2 ≤ c.2)) then some b else some c

def bad (ok : Bool) (off cause : Nat) : List Bad := if ok then [] else [(off, cause)]

def w64At (b : List Byte) (o : Nat) : W64 := BitVec.ofNat 64 (ofBytes ((b.drop o).take 8))
def w128At (b : List Byte) (o : Nat) : BitVec 128 := BitVec.ofNat 128 (ofBytes ((b.drop o).take 16))

/-! ### Bodies (R127) -/

/-- The instructions of a body with their word offsets: each has 1 + LEN words (R127), so one that breaks a rule is passed
over; one that the body's end cuts off is the last. -/
def bodyWalk (ws : List W32) (woff : Nat) : Nat → List (Nat × Except DecodeError Instr)
  | 0 => []
  | n + 1 =>
    if ws.isEmpty then []
    else match decode ws with
      | .ok (i, k) => (woff, .ok i) :: bodyWalk (ws.drop k) (woff + k) n
      | .error (.truncated i) => [(woff, .error (.truncated i))]
      | .error e => (woff, .error e) :: bodyWalk (ws.drop (fld (ws.headD 0) 31 30 + 1)) (woff + fld (ws.headD 0) 31 30 + 1) n

/-- A record's body, instruction by instruction. -/
def recWalk (r : List Byte) : List (Nat × Except DecodeError Instr) := bodyWalk (wordsOfBytes (recBody r 0)) 0 16

/-- The instructions of a record's body. -/
def recInstrs (r : List Byte) : List (Nat × Instr) :=
  (recWalk r).filterMap fun e =>
    match e.2 with
    | .ok i => some (e.1, i)
    | .error _ => none

/-- The same with those that are whole, of their format's length, and break a rule of their fields. -/
def recNamed (r : List Byte) : List (Nat × Instr) :=
  (recWalk r).filterMap fun e =>
    match e.2 with
    | .ok i => some (e.1, i)
    | .error (.field _ _ i) => if e.1 + i.words ≤ (wordsOfBytes (recBody r 0)).length then some (e.1, i) else none
    | .error _ => none

/-- Do OP and FN name an instruction with a property? -/
def isOp (p : Instr → Bool) : Except DecodeError Instr → Bool
  | .ok i => p i
  | .error (.field _ _ i) => p i
  | .error (.lenMismatch i) => p i
  | .error (.truncated (some i)) => p i
  | .error _ => false

/-! ### One record -/

/-- The rules of one arc (R37, R126). -/
def inArcOk (kind : Nat → Nat) (a : Arc) : Bool :=
  a.group == 0 && kind a.place ≠ 0
    && (match a.kind with
        | 3 => a.weight == 0
        | 1 => true
        | _ => kind a.place ≠ 2 || (decide (1 ≤ a.weight) && decide (a.weight ≤ 4)))
def outArcOk (kind : Nat → Nat) (a : Arc) : Bool := kind a.place == 1 && a.kind == 0

/-- The rules of a record by itself, offsets from its header. `kind` gives the kind of each place of its cell;
`fw` is a record that firmware writes (R129). DESIGN CHOICE (log 58): cause 0x09 is reported at word 0 of the instruction that the
body's end cuts off, or of the fifth. -/
def recordBads (fw : Bool) (kind : Nat → Nat) (r : List Byte) : List Bad :=
  if r.length < 8 then [(0, 1)]
  else
    let bl := recBlen r
    let size := recBodyAt r + 4 * bl
    let head := bad (fld (recHeader r) 39 0 == 0) 0 5 ++ bad (fw || recPrio r ≠ 7) 0 8
    if bl = 0 || 16 < bl then head ++ [(0, 8)]
    else if r.length < size then head ++ bad (decide (size ≤ 512)) 0 8 ++ [(0, 1)]
    else
      let ins := recIns r
      let body := recWalk r
      let at' (w : Nat) : Nat := recBodyAt r + 4 * w
      head ++ bad (decide (size ≤ 512)) 0 8
        ++ ((List.range ins.length).flatMap fun k =>
              let a := ins.getD k ⟨0, 0, 0, 0⟩
              bad (inArcOk kind a && !((ins.take k).any fun b => b.place == a.place)) (8 + 2 * k) 7)
        ++ ((List.range (recNout r)).flatMap fun k =>
              bad (outArcOk kind (recArc r (recNin r + k))) (8 + 2 * (recNin r + k)) 7)
        ++ bad (recArcN r % 2 == 0 || (r.drop (8 + 2 * recArcN r)).take 2 == [0, 0]) (8 + 2 * recArcN r) 5
        ++ (body.flatMap fun e => bad (recPrio r == 7 || !isOp Instr.handleOp e.2) (at' e.1) 3
              ++ match e.2 with
              | .error x => [(at' (e.1 + x.word), x.cause)]
              | .ok _ => [])
        ++ bad (decide (body.length ≤ 4)) (at' ((body.getD 4 (0, .error (.truncated none))).1)) 9
        ++ bad (!recHint r || body.all fun e => match e.2 with
              | .error (.lenMismatch i) | .error (.truncated (some i)) => i.cellRef.isSome || !i.canPass
              | x => !isOp Instr.canPass x) 0 8

/-- What the rest of the net gives the checks of one record (R124, R129, R145): the cell count, the kind of a
place and whether a transition is loaded, by abstract cell (0xFFF is the record's own), the wave numbers of the
cell. -/
structure NetView where
  cells  : Nat
  kind   : Nat → Nat → Nat
  loaded : Nat → Nat → Bool
  owns   : List Nat

/-- A T-format reference (R120, R145). -/
def refBad (v : NetView) (cell : BitVec 12) (ok : Nat → Bool) (off : Nat) : List Bad :=
  bad (cell == 0xFFF || decide (cell.toNat < v.cells)) off 6
    ++ (if cell = 0xFFF || cell.toNat < v.cells then bad (ok cell.toNat) off 6 else [])

/-- The rules of a record that refer to the rest of the net, offsets from its header. -/
def refBads (v : NetView) (r : List Byte) : List Bad :=
  let is := recNamed r
  let takes (p : Nat) (n : Nat) : Nat := (is.filter fun e => match e.2 with
    | .take _ q _ => q.toNat == p && decide (e.1 ≤ n)
    | _ => false).length
  is.flatMap fun e =>
    let off := recBodyAt r + 4 * (e.1 + 1)
    (match e.2 with
     | .emit _ _ _ p _ c => refBad v c (fun k => v.kind k p.toNat == 1) off
     | .emitW _ _ _ p c => refBad v c (fun k => v.kind k p.toNat == 2) off
     | .take _ p _ =>
       if v.kind 0xFFF p.toNat = 0 then [(off, 6)]
       else bad (v.kind 0xFFF p.toNat == 2 && (recIns r).any fun a =>
          a.place == p.toNat && a.kind == 0 && decide (takes p.toNat e.1 ≤ a.weight)) off 7
     | .mcount _ p _ => bad (v.kind 0xFFF p.toNat ≠ 0) off 6
     | .mset _ p _ => bad (v.kind 0xFFF p.toNat == 1) off 6
     | .arm t c => refBad v c (fun k => v.loaded k t.toNat) off
     | .disarm t c => refBad v c (fun k => v.loaded k t.toNat) off
     | _ => [])
    ++ (match e.2.wave with
        | some w => bad ((254 ≤ w.pred.toNat || v.owns.contains w.pred.toNat)
            && (254 ≤ w.succ.toNat || v.owns.contains w.succ.toNat)) (off + 4) 0xA
        | none => [])

/-- The wave numbers of a record's wave-word instructions (R124). -/
def recOwns (r : List Byte) : List Nat := (recNamed r).filterMap fun e => e.2.wave.map fun w => w.own.toNat

/-! ### What an image holds (R132 to R135) -/

structure PlaceDecl where
  at'   : Nat
  cell  : Nat
  place : Nat
  kind  : Nat
  init  : Nat
  words : List W64

structure TransDecl where
  at'    : Nat
  cell   : Nat
  t      : Nat
  record : List Byte

structure BankDecl where
  at'   : Nat
  shape : Bool
  cell  : Nat
  boff  : Nat
  size  : Nat
  bytes : List Byte

structure SideDecl where
  at'  : Nat
  cell : Nat
  t    : Nat
  sp   : SafePoint

structure Section where
  kind : Nat
  off  : Nat
  size : Nat
  ent  : Nat
deriving DecidableEq

structure Img where
  bytes     : List Byte
  secs      : List Section
  cells     : Nat
  quanta    : Nat
  fcell     : Nat
  fplace    : Nat
  argbytes  : Nat
  templates : Nat
  places    : List PlaceDecl
  trans     : List TransDecl
  bank      : List BankDecl
  side      : List SideDecl

/-- Entries of `.place` from an offset on (R133). -/
def readPlaces (b : List Byte) (stop off : Nat) : Nat → List PlaceDecl
  | 0 => []
  | n + 1 =>
    if stop ≤ off then []
    else
      let v := w64At b off
      let kind := fld v 43 42
      let init := fld v 41 30
      let nw := if kind = 2 then min init 4 else 0
      ⟨off, fld v 63 52, fld v 51 44, kind, init, (List.range nw).map fun k => w64At b (off + 8 + 8 * k)⟩
        :: readPlaces b stop (off + 8 + 8 * nw) n

/-- Records of `.trans` (R125 to R127): each fills up to the next 8-byte boundary. -/
def readTrans (b : List Byte) (stop off : Nat) : Nat → List TransDecl
  | 0 => []
  | n + 1 =>
    if stop ≤ off then []
    else
      let r := (b.take stop).drop (off + 8)
      let size := recBodyAt r + 4 * recBlen r
      let v := w64At b off
      ⟨off, fld v 63 52, fld v 51 46, r.take size⟩ :: readTrans b stop (off + 8 + (size + 7) / 8 * 8) n

/-- Entries of `.shape` or `.data` (R134). -/
def readBank (b : List Byte) (shape : Bool) (stop off : Nat) : Nat → List BankDecl
  | 0 => []
  | n + 1 =>
    if stop ≤ off then []
    else
      let v := w64At b off
      let size := fld v 35 19
      ⟨off, shape, fld v 63 52, fld v 51 36, size, ((b.take stop).drop (off + 8)).take size⟩
        :: readBank b shape stop (off + 8 + (size + 7) / 8 * 8) n

/-- Entries of `.sidetab` (R135). -/
def readSide (b : List Byte) (off n : Nat) : List SideDecl :=
  (List.range n).map fun k =>
    let v := w128At b (off + 16 * k)
    ⟨off + 16 * k, fld v 127 116, fld v 115 110,
      ⟨fld v 109 106, BitVec.ofNat 32 (fld v 95 64), BitVec.ofNat 8 (fld v 63 56), BitVec.ofNat 16 (fld v 55 40)⟩⟩

def readDir (b : List Byte) : List Section :=
  let v := w64At b 8
  (List.range (fld v 63 48)).map fun k =>
    let o := fld v 47 0 + 16 * k
    let e := w128At b o
    ⟨fld e 127 120, fld e 63 32, fld e 31 0, o⟩

def secOf (ss : List Section) (k : Nat) : Option Section := ss.find? fun s => s.kind == k

/-- The image that bytes hold, whether or not it passes the checks. -/
def readImg (b : List Byte) : Img :=
  let ss := readDir b
  let sec (k : Nat) : Section := (secOf ss k).getD ⟨k, 0, 0, 0⟩
  let v0 := w64At b (sec 1).off
  let v1 := w64At b ((sec 1).off + 8)
  let stop (k : Nat) : Nat := (sec k).off + (sec k).size
  { bytes := b, secs := ss, cells := fld v0 63 52, quanta := fld v0 51 42, fcell := fld v0 31 20,
    fplace := fld v0 19 12, argbytes := fld v1 63 32, templates := fld v1 31 16,
    places := readPlaces b (stop 2) (sec 2).off ((sec 2).size / 8 + 1),
    trans := readTrans b (stop 3) (sec 3).off ((sec 3).size / 8 + 1),
    bank := readBank b true (stop 4) (sec 4).off ((sec 4).size / 8 + 1)
      ++ readBank b false (stop 5) (sec 5).off ((sec 5).size / 8 + 1),
    side := readSide b (sec 6).off ((sec 6).size / 16) }

namespace Img

def kindOf (m : Img) (cell p : Nat) : Nat :=
  match m.places.find? fun x => x.cell == cell && x.place == p with
  | some x => x.kind
  | none => 0
def loads (m : Img) (cell t : Nat) : Bool := m.trans.any fun x => x.cell == cell && x.t == t

/-- The rest of the net as one cell's records see it. -/
def view (m : Img) (cell : Nat) : NetView where
  cells := m.cells
  kind := fun c p => m.kindOf (if c = 0xFFF then cell else c) p
  loaded := fun c t => m.loads (if c = 0xFFF then cell else c) t
  owns := (m.trans.filter fun x => x.cell == cell).flatMap fun x => recOwns x.record

/-- The file header and the directory's place (R130). -/
def headBads (b : List Byte) : List Bad :=
  let n := fld (w64At b 8) 63 48
  let dir := fld (w64At b 8) 47 0
  bad (fld (w64At b 0) 63 32 == 0x31465053 && fld (w64At b 0) 31 16 == 1) 0 1
    ++ bad (decide (4 ≤ n) && decide (n ≤ 9) && dir % 8 == 0 && decide (dir + 16 * n ≤ b.length)) 8 1

/-- The directory and section bounds (R131, R137). DESIGN CHOICE (log 58): a `.net` section of another size than its two words
(R132), and a signature section shorter than word 0 and DIGEST (R137), break the bounds, at their directory entries. -/
def frameBads (b : List Byte) : List Bad :=
  let n := fld (w64At b 8) 63 48
  let dir := fld (w64At b 8) 47 0
  let ss := readDir b
  let clash (s : Section) (a z : Nat) : Bool := decide (s.off < z) && decide (a < s.off + s.size)
  (ss.flatMap fun s =>
    bad (([1, 2, 3, 4, 5, 6, 7, 8, 0xF].contains s.kind) && s.off % 8 == 0 && decide (s.off + s.size ≤ b.length)
      && !clash s 0 64 && !clash s dir (dir + 16 * n)
      && !(ss.any fun t => decide (t.ent < s.ent) && (t.kind == s.kind || clash s t.off (t.off + t.size)))) s.ent 1)
  ++ bad ([1, 2, 3, 0xF].all fun k => (secOf ss k).isSome) dir 1
  ++ (match secOf ss 0xF with
      | some s => bad (s.off + s.size == b.length && decide (72 ≤ s.size)
          && (ss.all fun t => t.kind == 0xF || decide (t.off + t.size ≤ s.off))) s.ent 1
      | none => [])
  ++ (match secOf ss 1 with
      | some s => bad (s.size == 16) s.ent 1
      | none => [])

/-- May the contents of a section be judged: it stands in the directory, or is one that need not, and lies within the image? -/
def sound (m : Img) (k : Nat) : Bool :=
  match secOf m.secs k with
  | some s => decide (s.off + s.size ≤ m.bytes.length) && (k ≠ 1 || s.size == 16)
  | none => !([1, 2, 3, 0xF].contains k)

/-- Does the signature of an image verify over its digest, under a public key with the digest `key` (R332)? The key is carried in
front of it (PRESUMED, log 10). -/
def signedBy (key digest sig : List Byte) : Bool :=
  Xmss.verify (Xmss.Key.of sig) digest (sig.drop Xmss.keyBytes) && Shake.shake256 (sig.take Xmss.keyBytes) 64 == key

/-- The signature block and the digest (R137), and the tenant's policy (R332): `req` is SIGREQ with the digest that key KEYIX
names. DESIGN CHOICE (log 58): a wrong digest is reported at DIGEST, a signature that is missing or does not verify at the block's
first word, and one that ends past the section at the section's directory entry. -/
def signBads (m : Img) (req : Option (List Byte)) : List Bad :=
  match secOf m.secs 0xF with
  | none => []
  | some s =>
    let w := w64At m.bytes s.off
    let stype := fld w 63 56
    let sig := fld w 31 0
    let formOk := fld w 55 32 == 0 && decide (stype ≤ 1) && (stype == 0) == (sig == 0)
    let digest := (m.bytes.drop (s.off + 8)).take 64
    let sigBytes := (m.bytes.drop (s.off + 72)).take sig
    bad formOk s.off 2
      ++ (if formOk then bad (decide (72 + sig ≤ s.size)) s.ent 1 else [])
      ++ bad (digest == Shake.shake256 (m.bytes.take s.off) 64) (s.off + 8) 2
      ++ (match req with
          | none => []
          | some key => bad (stype == 1 && signedBy key digest sigBytes) s.off 2)

/-- Reserved words of the header, and reserved bits of the directory (R130, R131). -/
def headerBads (b : List Byte) : List Bad := [2, 3, 4, 5, 6, 7].flatMap fun k => bad (w64At b (8 * k) == 0) (8 * k) 5
def reservedBads (b : List Byte) : List Bad := headerBads b ++ (readDir b).flatMap fun s => bad (fld (w128At b s.ent) 119 64 == 0) s.ent 5

def netBads (m : Img) : List Bad :=
  match secOf m.secs 1 with
  | none => []
  | some s =>
    let v0 := w64At m.bytes s.off
    bad (fld v0 41 32 == 0 && fld v0 11 0 == 0) s.off 5
      ++ bad (fld (w64At m.bytes (s.off + 8)) 15 0 == 0) (s.off + 8) 5
      ++ bad (m.cells ≠ 0 && decide (m.quanta ≤ 600) && (m.fcell ≠ 0xFFF || m.fplace == 0)
          && (m.fcell == 0xFFF || (decide (m.fcell < m.cells) && m.kindOf m.fcell m.fplace == 1))) s.off 0xB

def placeBads (m : Img) : List Bad :=
  let stop := match secOf m.secs 2 with
    | some s => s.off + s.size
    | none => 0
  m.places.flatMap fun p =>
    bad (fld (w64At m.bytes p.at') 29 0 == 0) p.at' 5
      ++ bad (p.kind == 1 || p.kind == 2) p.at' 6
      ++ bad (decide (p.cell < m.cells) && (p.kind ≠ 2 || decide (p.init ≤ 4))) p.at' 6
      ++ bad (decide (p.at' + 8 + 8 * p.words.length ≤ stop)
          && !(m.places.any fun q => decide (q.at' < p.at') && q.cell == p.cell && q.place == p.place)) p.at' 0xB

/-- The transitions (R125 to R127). DESIGN CHOICE (log 58): a byte that is not 0 in the fill after a record is refused with cause
0x05 at the first byte of the fill. -/
def transBads (m : Img) : List Bad :=
  m.trans.flatMap fun t =>
    let shift (l : List Bad) : List Bad := l.map fun b => (t.at' + 8 + b.1, b.2)
    let e := t.at' + 8 + t.record.length
    bad (fld (w64At m.bytes t.at') 45 0 == 0) t.at' 5
      ++ bad (decide (t.cell < m.cells)
          && !(m.trans.any fun u => decide (u.at' < t.at') && u.cell == t.cell && u.t == t.t)) t.at' 0xB
      ++ shift (recordBads false (m.kindOf t.cell) t.record)
      ++ shift (refBads (m.view t.cell) t.record)
      ++ bad (((m.bytes.drop e).take ((e + 7) / 8 * 8 - e)).all (· == 0)) e 5

/-- Shapes and data (R134). DESIGN CHOICE (log 58): a byte that is not 0 in the padding after an entry's bytes is refused with
cause 0x05 at the padding's first byte. -/
def bankBads (m : Img) : List Bad :=
  (m.bank.filter fun d => m.sound (if d.shape then 4 else 5)).flatMap fun d =>
    bad (fld (w64At m.bytes d.at') 18 0 == 0) d.at' 5
      ++ bad (decide (d.cell < m.cells) && d.bytes.length == d.size
          && (if d.shape then d.size == 64 && d.boff % 64 == 0
              else decide (1 ≤ d.size) && decide (d.boff + d.size ≤ 65536))) d.at' 0xB
      ++ bad (((m.bytes.drop (d.at' + 8 + d.size)).take ((d.size + 7) / 8 * 8 - d.size)).all (· == 0))
          (d.at' + 8 + d.size) 5

def sideKey (d : SideDecl) : Nat := (d.cell * 64 + d.t) * 16 + d.sp.woff

/-- The side table (R135). DESIGN CHOICE (log 58): a section whose size is no multiple of 16 breaks the bounds, at its directory
entry. -/
def sideBads (m : Img) : List Bad :=
  (match secOf m.secs 6 with
   | some s => bad (s.size % 16 == 0) s.ent 1
   | none => [])
  ++ m.side.flatMap fun d =>
    bad (fld (w128At m.bytes d.at') 105 96 == 0 && fld (w128At m.bytes d.at') 39 0 == 0) d.at' 5
      ++ bad (!(m.side.any fun e => decide (e.at' < d.at') && decide (sideKey d ≤ sideKey e))
          && m.trans.any fun t => t.cell == d.cell && t.t == d.t
              && (recWalk t.record).any fun i => i.1 == d.sp.woff) d.at' 0xB

/-- The rules of what the sections hold, as far as the sections that they speak of can be judged. -/
def contentBads (m : Img) (req : Option (List Byte)) : List Bad :=
  let on (ks : List Nat) (l : List Bad) : List Bad := if ks.all m.sound then l else []
  on [0xF] (m.signBads req) ++ on [1, 2] m.netBads ++ on [1, 2] m.placeBads ++ on [1, 2, 3] m.transBads ++ on [1] m.bankBads
    ++ on [3, 6] m.sideBads

/-- The check of a whole image (R141): the rule that a refusal names, the one at the lowest offset, or none. DESIGN CHOICE (log
58): where the header is broken nothing beyond it is judged, and the contents of a section that is missing or leaves the image, and
what refers to them, are not. -/
def check (b : List Byte) (req : Option (List Byte)) : Option Bad :=
  if b.length < 64 then some (0, 1)
  else if headBads b ≠ [] then firstRule (headBads b ++ headerBads b)
  else firstRule (frameBads b ++ reservedBads b ++ (readImg b).contentBads req)

end Img

/-! ### The check when ARMED is set (R129) -/

/-- The first failing rule of a loaded record: its offset in the record and its cause. -/
def loadedBad (v : NetView) (fw : Bool) (r : List Byte) : Option Bad :=
  firstRule (recordBads fw (v.kind 0xFFF) r ++ refBads v r)

end Sys2Proof.Machine
end

