-- ==== Sys2Proof/Machine/Translate.lean ====
section
/-! DEFINITION. Translation at the owner (R97 to R106), the renaming of task tiles in front of it (R275), the
poison check behind it (R397), and virtual accesses as byte sequences. -/
namespace Sys2Proof.Machine

/-- The home field of a virtual address (R97). -/
def vaHome (va : Nat) : Nat := va / 2 ^ 53 % 16
/-- The owner of a virtual address: base die 0 to 7, capacity tier 8, host port 9, or none (R97). -/
def vaOwner (va : Nat) : Option Nat :=
  let h := vaHome va
  if h < 4 then some (2 * h + va / 2 ^ 52 % 2) else if h = 8 then some 8 else if h = 9 then some 9 else none

/-- Why a translation fails: the cause of R103, whether stage 2 failed, the stage-1 level (R391); or the poisoned frame that a
table of the walk lies in (R397). -/
structure XFail where
  cause : Nat
  st2   : Bool := false
  level : Nat := 0
  frame : Option Nat := none
deriving DecidableEq, Repr

/-! ### Stage 2: the range table (R102) -/

def rangeCovers (e : BitVec 128) (home vm ipa : Nat) : Bool :=
  e.getLsbD 127 && fld e 124 121 == home && fld e 120 115 == vm
    && decide (fld e 95 64 ≤ ipa / 2 ^ 21 % 2 ^ 32) && decide (ipa / 2 ^ 21 % 2 ^ 32 ≤ fld e 63 32)

/-- The lowest-numbered entry that covers an IPA. -/
def rangeFind (t : Tbl (BitVec 128)) (home vm ipa : Nat) : Option (BitVec 128) :=
  ((List.range 48).map (Tbl.get 0 t)).find? fun e => rangeCovers e home vm ipa

/-- The DPA of an IPA under an entry (R102): it keeps the home and bit [52] (R98). -/
def rangeDpa (e : BitVec 128) (home ipa : Nat) : Nat :=
  home * 2 ^ 53 + ipa / 2 ^ 52 % 2 * 2 ^ 52 + (fld e 31 0 + ipa / 2 ^ 21 % 2 ^ 32 - fld e 95 64) % 2 ^ 31 * 2 ^ 21 + ipa % 2 ^ 21

/-- Bits [63:57] equal bit 56 (R103). -/
def signOk (va : Nat) : Bool := va / 2 ^ 57 == (if va / 2 ^ 56 % 2 = 1 then 127 else 0)

/-- An IPA with bit [52] of the virtual address (R98). -/
def keep52 (va ipa : Nat) : Nat := va / 2 ^ 52 % 2 * 2 ^ 52 + ipa % 2 ^ 52

/-- Is there memory at a DPA (R20)? A stack holds 64 GiB, the capacity tier 1 TiB; the host's memory has no size here. -/
def dpaExists (dpa : Nat) : Bool :=
  let h := vaHome dpa
  if h < 4 then decide (dpa % 2 ^ 52 < 2 ^ 36) else if h = 8 then decide (dpa % 2 ^ 53 < 2 ^ 40) else true

/-- Is there memory at all of some bytes? -/
def bytesExist (dpa n : Nat) : Bool := dpaExists dpa && dpaExists (dpa + (n - 1))

/-- Bytes of device memory by their DPA. DESIGN CHOICE (log 59): past the end of a stack or of the capacity tier they read 0. -/
def devLoad (m : Mem) (dpa n : Nat) : List Byte := if bytesExist dpa n then Mem.load m dpa n else List.replicate n 0
/-- They are written; past the end nothing is (log 59). -/
def devStore (m : Mem) (dpa : Nat) (bs : List Byte) : Mem := if bytesExist dpa bs.length then Mem.store m dpa bs else m

/-! ### Stage 1: the walk (R99 to R101) -/

/-- A level of the walk: the low bit and count of its index bits, log2 of the next table's size, and log2 of the
page that a leaf maps, where a leaf is allowed (R100). -/
structure Level where
  lo   : Nat
  bits : Nat
  next : Nat
  leaf : Option Nat

def levels : List Level :=
  [⟨48, 5, 12, none⟩, ⟨39, 9, 12, none⟩, ⟨30, 9, 12, some 30⟩, ⟨21, 9, 8, some 21⟩, ⟨16, 5, 0, some 16⟩]

/-- A malformed entry (R101). -/
def pteBad (e : W64) (home : Nat) (l : Level) : Bool :=
  let leaf := e.getLsbD 62
  let addr := fld e 52 8 * 2 ^ 8
  fld e 57 53 ≠ 0 || fld e 7 0 ≠ 0
  || (match leaf, l.leaf with
      | true, none => true
      | true, some p => addr % 2 ^ p ≠ 0 || (e.getLsbD 59 && (p == 16 || decide (3 < home)))
      | false, _ => l.next == 0 || addr % 2 ^ l.next ≠ 0)

/-- What a translation gives (R103, R105): a DPA, and whether its page is compute-capable. -/
structure Placed where
  dpa : Nat
  cc  : Bool
deriving DecidableEq, Repr

/-- The level at which the leaf of a page of 2^size bytes stands (R100). -/
def leafLevel (size : Nat) : Nat := if size = 30 then 2 else if size = 21 then 3 else 4

namespace State

/-- The last step of a translation (R103): the page's range entry, as the range table stands, and the rights of both. -/
def stage2 (s : State) (e : TlbEntry) (va : Nat) (write : Bool) : Except XFail Placed :=
  let n := leafLevel e.size
  let ipa := e.ipa + va % 2 ^ e.size
  match rangeFind s.range (vaHome va) e.vm ipa with
  | none => .error ⟨7, true, n, none⟩
  | some r =>
    if !(if write then e.wr else e.rd) then .error ⟨6, false, n, none⟩
    else if !(if write then r.getLsbD 125 else r.getLsbD 126) then .error ⟨6, true, n, none⟩
    else .ok ⟨rangeDpa r (vaHome va) ipa, e.cc⟩

def load64 (s : State) (dpa : Nat) : W64 := BitVec.ofNat 64 (ofBytes (devLoad s.mem dpa 8))

/-- The ASID array's entry at an owner (R99); a base of 0 names no array (R335). -/
def asidEntry (s : State) (owner asid : Nat) : W64 :=
  let base := fld (s.ownerAt owner).asidbase 56 15 * 2 ^ 15
  if base = 0 then 0 else s.load64 (base + 8 * asid)

/-- Is the 64 KiB frame of a DPA poisoned (R397)? Base dies and the capacity tier keep the tables. -/
def poisoned (s : State) (dpa : Nat) : Bool :=
  match vaOwner dpa with
  | none => false
  | some o => (s.ownerAt o).poison.any fun e => e.2.getLsbD 63 && fld e.2 36 0 == dpa / 2 ^ 16 % 2 ^ 37

/-- The walk from one level on (R103, step 2): the leaf. -/
def walk (s : State) (va vm : Nat) (table n : Nat) : List Level → Except XFail TlbEntry
  | [] => .error ⟨5, false, n, none⟩
  | l :: ls =>
    let home := vaHome va
    match rangeFind s.range home vm table with
    | none => .error ⟨7, true, n, none⟩
    | some r =>
      let at' := rangeDpa r home table + 8 * (va / 2 ^ l.lo % 2 ^ l.bits)
      let e := s.load64 at'
      if s.poisoned at' then .error ⟨0, false, n, some at'⟩
      else if !e.getLsbD 63 then .error ⟨4, false, n, none⟩
      else if pteBad e home l then .error ⟨5, false, n, none⟩
      else if e.getLsbD 62 then
        let size := l.leaf.getD 0
        .ok { asid := 0, page := va / 2 ^ size, size := size, ipa := keep52 va (fld e 52 8 * 2 ^ 8), vm := vm
              rd := e.getLsbD 61, wr := e.getLsbD 60, cc := e.getLsbD 59 }
      else walk s va vm (keep52 va (fld e 52 8 * 2 ^ 8)) (n + 1) ls

/-- A translation from the tables as they stand (R103): the address, the ASID, which an ASID at or above the live limit or an array
base of 0 fails before anything is read, the walk, the page. -/
def walkNow (s : State) (asid va : Nat) (write : Bool) : Except XFail (TlbEntry × Placed) :=
  if !signOk va then .error ⟨1, false, 0, none⟩
  else match vaOwner va with
    | none => .error ⟨2, false, 0, none⟩
    | some o =>
      let base := fld (s.ownerAt o).asidbase 56 15 * 2 ^ 15
      let e := s.asidEntry o asid
      if s.asids ≤ asid || base = 0 then .error ⟨3, false, 0, none⟩
      else if s.poisoned (base + 8 * asid) then .error ⟨0, false, 0, some (base + 8 * asid)⟩
      else if !e.getLsbD 63 || fld e 56 53 ≠ 0 || fld e 7 0 ≠ 0 then .error ⟨3, false, 0, none⟩
      else match s.walk va (fld e 62 57) (keep52 va (fld e 52 8 * 2 ^ 8)) 0 levels with
        | .error x => .error x
        | .ok t => (s.stage2 t va write).map fun p => ({ t with asid := asid }, p)

end State

def TlbEntry.covers (e : TlbEntry) (asid va : Nat) : Bool := e.asid == asid && e.page == va / 2 ^ e.size

namespace State

/-- Translation at the owner (R98, R103, R104). A stage-1 translation that the TLB holds and that the page tables no longer
give stays in use until the TLB is invalidated, or not: the spec leaves it open (log 9). The range table, and which ASIDs are live,
are always as they stand (R99, R102). -/
def translate (s : State) (asid va : Nat) (write : Bool) : State × Except XFail Placed :=
  let now := s.walkNow asid va write
  match vaOwner va with
  | none => (s, now.map (·.2))
  | some o =>
    let tlb := (s.ownerAt o).tlb
    let others := tlb.filter fun e => !e.covers asid va
    let fill (s : State) (e : TlbEntry) : State := s.modOwner o fun x => { x with tlb := e :: others }
    match tlb.find? fun e => e.covers asid va && decide (asid < s.asids), now with
    | none, .ok (e, p) => (fill s e, .ok p)
    | none, .error x => (s, .error x)
    | some c, .ok (e, p) =>
      if c = e then (s, .ok p)
      else
        let (k, s) := s.takeFree
        if Config.freeBool k then (s, s.stage2 c va write) else (fill s e, .ok p)
    | some c, .error x => match s.stage2 c va write with
      | .error _ => (s, .error x)
      | .ok p =>
        let (k, s) := s.takeFree
        if Config.freeBool k then (s, .ok p) else (s.modOwner o fun y => { y with tlb := others }, .error x)

end State

/-! ### Task tiles (R274, R275) -/

/-- The template instance that holds a cell of a net instance. -/
def Net.instOf (n : Net) (cell : Nat) : Option Inst := n.insts.find? fun i => i.cells.contains cell

namespace State

/-- The dependence-table entry of the task that a cell runs, with its die. -/
def taskOf (s : State) (cell net : Nat) : Option Nat :=
  match Tbl.find s.nets net with
  | none => none
  | some n => (n.instOf cell).bind fun i => i.task
def taskAt (s : State) (die k : Nat) : Task := Tbl.get {} (s.dieAt die).tasks k
def modTask (s : State) (die k : Nat) (f : Task → Task) : State :=
  s.modDie die fun d => { d with tasks := Tbl.put d.tasks k (f (Tbl.get {} d.tasks k)) }

/-- The DPA of a tile of a die's rename pool (R334). -/
def poolTile (s : State) (die k : Nat) : Nat :=
  die * 2 ^ 53 + (fld (s.dieAt die).rpool 40 12 + k) * 4096

/-- The latest of some versions. -/
def lastVersion : List Version → Option Version
  | [] => none
  | v :: vs => match lastVersion vs with
    | some w => if v.order < w.order then some w else some v
    | none => some v

/-- The version of a tile that a task with submission number `order` reads (R275): the pool tile that holds
it, or none when it stands at the tile's own address. -/
def versionFor (s : State) (die asid order tile : Nat) : Option Nat :=
  let vs := (s.dieAt die).vers.filter fun v => v.asid == asid && v.tile == tile
  match lastVersion (vs.filter fun v => decide (v.order < order)), lastVersion vs with
  | some v, some newest => if v.order = newest.order && !v.keep then none else v.pool
  | _, _ => none

/-- Where a task's access to a tile goes, when not to the tile's own address (R275): its fresh tile, or a
committed version in the pool, an older one or, once the task is complete, its own. -/
def tileOf (s : State) (cell net tile : Nat) : Option Nat :=
  match s.taskOf cell net with
  | none => none
  | some k =>
    let die := cellDie cell
    let t := s.taskAt die k
    match t.fresh.find? fun p => p.1 == tile with
    | some p => some (s.poolTile die p.2)
    | none => (s.versionFor die t.asid (if t.st = 3 then t.order + 1 else t.order) tile).map (s.poolTile die)

/-- The class of an access whose frame is poisoned (R391, R397). -/
def poisonHit (va dpa : Nat) : Hit := { cls := 0x08, faddr := va, aux := dpa / 2 ^ 16 % 2 ^ 37 }

/-- Where one piece of a virtual access lies, within a 4 KiB tile: its DPA, and whether its page is compute-capable. The host link
is judged first (R419), then the translation. A renamed tile (R275) counts as compute-capable, and an address, a pool tile's among
them, past the end of a stack or of the capacity tier (R20) gives a request without a reply, whose class the model takes at once:
DESIGN CHOICE (log 59), the spec says neither. -/
def locate (s : State) (iss : Issuer) (va : Nat) (write : Bool) : State × Except Hit (Nat × Bool) :=
  let gone : Hit := { cls := 0x0C, cause := 1, faddr := va, aux := 2 ^ 22 }
  if !signOk va then (s, .error { cls := 0x04, cause := 1, faddr := va })
  else match s.tileOf iss.cell iss.net (va % 2 ^ 57 / 4096) with
  | some t => (s, if dpaExists t then .ok (t + va % 4096, true) else .error gone)
  | none =>
    if vaHome va = 9 && !s.link then (s, .error { cls := 0x0C, cause := 4, faddr := va })
    else match s.translate iss.asid va write with
      | (s, .error x) => (s, .error (match x.frame with
        | some dpa => poisonHit va dpa
        | none => { cls := 0x04, cause := x.cause, faddr := va, aux := x.st2.toNat * 8 + x.level }))
      | (s, .ok e) =>
        (s, if dpaExists e.dpa then .ok (e.dpa, e.cc) else .error gone)

/-- One piece of a virtual access: where it lies (with the choices of log 59 for R20 and R105), and that its frame is not poisoned
(R397). -/
def piece (s : State) (iss : Issuer) (va : Nat) (write : Bool) : State × Except Hit (Nat × Bool) :=
  match s.locate iss va write with
  | (s, .error h) => (s, .error h)
  | (s, .ok (dpa, cc)) => (s, if s.poisoned dpa then .error (poisonHit va dpa) else .ok (dpa, cc))

/-- The poisoned frame that a store's bytes meet at the memory (R397). -/
def storePoison (s : State) (ps : List (Nat × Nat × Bool)) : Option Nat :=
  ps.findSome? fun p => if s.poisoned p.1 then some p.1 else none

/-- The DPAs of the bytes of a virtual access: every piece is translated before any byte is touched (R175).
The `fuel` bounds the pieces. -/
def pieces (s : State) (iss : Issuer) (va n : Nat) (write : Bool) : Nat → State × Except Hit (List (Nat × Nat × Bool))
  | 0 => (s, .ok [])
  | fuel + 1 =>
    if n = 0 then (s, .ok [])
    else
      let len := min n (4096 - va % 4096)
      match s.piece iss va write with
      | (s, .error h) => (s, .error h)
      | (s, .ok (dpa, cc)) =>
        match s.pieces iss ((va + len) % 2 ^ 64) (n - len) write fuel with
        | (s, .error h) => (s, .error h)
        | (s, .ok ps) => (s, .ok ((dpa, len, cc) :: ps))

/-- Pieces enough for `n` bytes. -/
def pieceFuel (n : Nat) : Nat := n / 4096 + 2

/-- A virtual read (R98, R103, R175). -/
def readVirt (s : State) (iss : Issuer) (va n : Nat) : State × Except Hit (List Byte) :=
  match s.pieces iss va n false (pieceFuel n) with
  | (s, .error h) => (s, .error h)
  | (s, .ok ps) => (s, .ok (ps.flatMap fun p => Mem.load s.mem p.1 p.2.1))

def storePieces (m : Mem) (bs : List Byte) : List (Nat × Nat × Bool) → Mem
  | [] => m
  | (a, n, _) :: ps => storePieces (Mem.store m a (bs.take n)) (bs.drop n) ps

/-- A virtual write (R98, R103, R175): every page translates before any byte is written. -/
def writeVirt (s : State) (iss : Issuer) (va : Nat) (bs : List Byte) : State × Except Hit Unit :=
  match s.pieces iss va bs.length true (pieceFuel bs.length) with
  | (s, .error h) => (s, .error h)
  | (s, .ok ps) => ({ s with mem := storePieces s.mem bs ps }, .ok ())

/-- The issuer of firmware's and the front end's own accesses under an ASID. -/
def Issuer.plain (asid : Nat) : Issuer := { asid := asid, net := 2 ^ 32 }

end State

end Sys2Proof.Machine
end

