-- ==== Sys2Proof/Machine/Image.lean ====
section
/-! DEFINITION. The words of a context's windows: registers, places, transitions, park records, a shadow slot (R34, R53, R91,
R316, R318), and the image of a saved context (R319). -/
namespace Sys2Proof.Machine

def nat64 (n : Nat) : W64 := BitVec.ofNat 64 n

/-- The value that a window sees of a register: the latest that any firing wrote (R45, R95). -/
def Ctx.peek {α : Type} (c : Ctx) (sel : Regs → Tbl α) (d : α) (n : Nat) : α :=
  (latest (fun f => Tbl.find (sel f.regs) n) c.firings.reverse).getD (Tbl.get d (sel c.regs) n)

/-- A register window's word (R91): g, v in eight words each, sh. -/
def Ctx.regWord (c : Ctx) (off : Nat) : W64 :=
  if off < 0x100 then c.peek (·.g) 0 (off / 8)
  else if off < 0x300 then ((c.peek (·.v) 0 ((off - 0x100) / 64)) >>> (64 * ((off - 0x100) / 8 % 8))).setWidth 64
  else if off < 0x380 then c.peek (·.sh) 0 ((off - 0x300) / 8)
  else 0

/-- A place entry (R34). -/
def Ctx.placeWord (c : Ctx) (p : Nat) : W64 :=
  let x := c.place p
  nat64 (x.kind % 4 * 2 ^ 62 + c.held p % 4096 * 2 ^ 36 + x.ext.toNat * 2 ^ 12 + x.n % 4096)

/-- A slot of a word store (R91, R93); above the words held it reads 0. -/
def Ctx.storeWord (c : Ctx) (p k : Nat) : W64 := (c.place p).words.getD k 0

/-- A transition's state (R53). -/
def Ctx.transWord (c : Ctx) (t clock : Nat) : W64 :=
  let x := c.tr t
  nat64 (x.armed.toNat * 2 ^ 63 + recPrio x.record * 2 ^ 60 + x.en.toNat * 2 ^ 59
    + min (c.infl t) 7 * 2 ^ 56 + (match x.since with
      | some k => min (clock - k) 63
      | none => 0))

def Park.word0 (p : Park) : W64 :=
  nat64 (p.valid.toNat * 2 ^ 63 + p.rdy.toNat * 2 ^ 62 + p.trans % 64 * 2 ^ 56 + p.woff % 16 * 2 ^ 52)
def Park.word1 (p : Park) : W64 := nat64 (p.glive.toNat * 2 ^ 32 + p.vlive.toNat * 2 ^ 24 + p.shlive.toNat * 2 ^ 8)

/-- A word of a park record (R318). -/
def Park.word (p : Park) (off : Nat) : W64 :=
  if off = 0 then p.word0
  else if off = 8 then p.word1
  else if off < 0x28 then p.inbuf.getD ((off - 0x10) / 8) 0
  else if off < 0x40 then 0
  else if off < 0x138 then Tbl.get 0 p.regs.g ((off - 0x40) / 8 + 1)
  else if off < 0x1B8 then Tbl.get 0 p.regs.sh ((off - 0x138) / 8)
  else if off < 0x3B8 then ((Tbl.get 0 p.regs.v ((off - 0x1B8) / 64)) >>> (64 * ((off - 0x1B8) / 8 % 8))).setWidth 64
  else if off < 0x3C0 then 0
  else nat64 (ofBytes ((p.reply.drop (off - 0x3C0)).take 8))

/-- A word of a shadow slot's window (R316). -/
def Ctx.shadowWord (c : Ctx) (clock off : Nat) : W64 :=
  if off < 0x400 then c.regWord off
  else if off < 0xC00 then c.placeWord ((off - 0x400) / 8)
  else if off < 0xE00 then c.transWord ((off - 0xC00) / 8) clock
  else if off = 0xE00 then nat64 (c.valid.toNat * 2 ^ 63 + c.asid % 4096 * 2 ^ 51 + c.net % 4096 * 2 ^ 39)
  else if off = 0xE08 then c.fstat.setWidth 64
  else if off = 0xE10 then c.sgen.setWidth 64
  else if off = 0xE18 then
    match c.wave with
    | none => nat64 (2 ^ 63)
    | some (o, n) => nat64 (o.toNat * 256 + n.toNat)
  else if off < 0x1000 then 0
  else if off < 0x3000 then c.storeWord ((off - 0x1000) / 32) ((off - 0x1000) / 8 % 4)
  else (Tbl.get {} c.parks ((off - 0x3000) / 1024)).word ((off - 0x3000) % 1024)

/-! ### Saved contexts -/

/-- The words of a saved context's window that have changed are written to its save area (R318, R388). -/
def State.saveChanges (s : State) (old new : Ctx) : State :=
  ((List.range 2048).filter fun i => old.shadowWord s.clock (8 * i) ≠ new.shadowWord s.clock (8 * i)).foldl (fun s i =>
    (s.writeVirt (State.Issuer.plain old.asid) ((old.area + 8 * i) % 2 ^ 64) (toBytes 8 (new.shadowWord s.clock (8 * i)).toNat)).1) s

end Sys2Proof.Machine
end

