-- ==== Sys2Proof/Machine/Order.lean ====
section
/-! DEFINITION. Who sees which write (R284 to R298; log 5): the versions of memory and what a cell must see of them, the
stores that are accepted and not yet performed, the log of writes, and links. -/
namespace Sys2Proof.Machine

/-! ### Agents and their levels (R13, R119) -/

/-- The agent of a base die, and one that no span holds. -/
def spanAgent (k : Nat) : Nat := 2 ^ 16 + k
def wideAgent : Nat := 2 ^ 17
/-- The agent of an owner's engines: base dies 0 to 7, else none of a span. -/
def ownerAgent (o : Nat) : Nat := if o < 8 then spanAgent o else wideAgent

/-- The span that holds an agent. -/
def agentSpan (a : Nat) : Nat := if a < 2 ^ 16 then cellSpan a else a - 2 ^ 16

/-- The level of the narrowest unit that holds two cells or units (R13): 0 cell, 1 sector, 2 span, 3 die, 4 module. -/
def cellLevel (a b : Nat) : Nat :=
  if a = b then 0
  else if 2 ^ 17 ≤ a || 2 ^ 17 ≤ b then 4
  else if a < 2 ^ 16 && b < 2 ^ 16 && cellSector a == cellSector b then 1
  else if agentSpan a = agentSpan b then 2
  else if agentSpan a / 2 = agentSpan b / 2 then 3 else 4

/-- Do both a release's scope and an acquire's cover the two agents (R290)? -/
def Link.reaches (l : Link) (cell scope : Nat) : Bool := decide (cellLevel l.agent cell ≤ min l.scope scope)

/-! ### What a cell must see -/

/-- The bytes of an access by number, on chip or in memory: coherence and links are by the byte (R286, R290). -/
def unitsOf (virt : Bool) (a n : Nat) : List Nat := (List.range n).map fun k => 2 * (a + k) + virt.toNat
/-- The bytes of pieces of memory. -/
def memUnits (ps : List (Nat × Nat × Bool)) : List Nat := ps.flatMap fun p => unitsOf true p.1 p.2.1

/-- A version of one more byte. -/
def addKnow (t : Tbl Nat) (u v : Nat) : Tbl Nat := Tbl.put t u (max (Tbl.get 0 t u) v)
/-- What one table knows and another. -/
def mergeKnow (t u : Tbl Nat) : Tbl Nat := u.foldl (fun t e => addKnow t e.1 e.2) t

/-- The oldest version that a load of some bytes may read: what happens before it (R292), and what the cell has read of
them (R286). -/
def Ctx.seenOf (c : Ctx) (us : List Nat) : Nat :=
  us.foldl (fun m u => max m (max (Tbl.get 0 c.seen u) (Tbl.get 0 c.know u))) c.floor
/-- The cell has read a version of some bytes. -/
def Ctx.saw (c : Ctx) (us : List Nat) (v : Nat) : Ctx := { c with seen := us.foldl (fun t u => addKnow t u v) c.seen }
/-- The cell has written some bytes: it reads nothing older of them, and its releases carry the writes (R286, R291). -/
def Ctx.wrote (c : Ctx) (us : List Nat) (v : Nat) : Ctx := { c.saw us v with know := us.foldl (fun t u => addKnow t u v) c.know }
/-- What an acquire learns of a link. -/
def Ctx.learn (c : Ctx) (l : Link) : Ctx := { c with know := mergeKnow c.know l.know, floor := max c.floor l.floor }

/-! ### Accepted stores -/

/-- The bytes that an accepted store writes. -/
def Late.units (l : Late) : List Nat :=
  if l.virt then l.parts.flatMap fun p => unitsOf true p.1 p.2.1 else unitsOf false l.addr l.bytes.length
/-- Do two accesses meet under the addresses as issued (R287)? -/
def Late.meets (l : Late) (virt : Bool) (a n : Nat) : Bool :=
  l.virt == virt && decide (l.addr < a + n) && decide (a < l.addr + l.bytes.length)
/-- The bytes of an access with a store over them. -/
def Late.onto (l : Late) (a : Nat) (bs : List Byte) : List Byte :=
  bs.zipIdx.map fun e => if l.addr ≤ a + e.2 then l.bytes.getD (a + e.2 - l.addr) e.1 else e.1

/-- Of some accepted stores, the latest first, those that meet one of some accesses, and those that meet one of these. -/
def owed (acc : List (Bool × Nat × Nat)) : List Late → List Late
  | [] => []
  | l :: ls =>
    if acc.any fun a => l.meets a.1 a.2.1 a.2.2 then
      if l.last then l :: ls else l :: owed ((l.virt, l.addr, l.bytes.length) :: acc) ls
    else owed acc ls

namespace State

/-! ### Versions of memory -/

/-- The number of the version of memory that stands. -/
def version (s : State) : Nat := s.past.length + (if s.past.head? = some (s.banks, s.mem) then 0 else 1)

/-- The version that stands as a step begins is kept. -/
def remember (s : State) : State :=
  if s.past.head? = some (s.banks, s.mem) then s else { s with past := (s.banks, s.mem) :: s.past }

/-- The banks and the memory as a version had them. -/
def asOf (s : State) (v : Nat) : Mem × Mem :=
  if s.version ≤ v then (s.banks, s.mem) else (s.past[s.past.length - max v 1]?).getD (s.banks, s.mem)

/-- The version that a load of the current cell reads: one that it may read, as old as the schedule asks. -/
def readVersion (s : State) (us : List Nat) : Nat := max (s.ctx.seenOf us) (s.version - s.late)

/-- What the current cell does next happens after a version (R291). -/
def acquire (s : State) (v : Nat) : State := s.modCtx fun c => { c with floor := max c.floor v }

/-- What every cell does next happens after the version that stands. -/
def acquireAll (s : State) : State :=
  let g (c : Ctx) : Ctx := { c with floor := max c.floor s.version }
  { s.mapCells (fun _ c => { c with run := g c.run, sh0 := g c.sh0, sh1 := g c.sh1 }) with saves := Tbl.mapV (fun _ c => g c) s.saves }

/-- The context of a net instance in a cell's slots, or in its save area. -/
def modView (s : State) (cell net : Nat) (f : Ctx → Ctx) : State :=
  let c := s.cellAt cell
  if c.run.net = net then s.modCell cell fun c => { c with run := f c.run }
  else if c.sh0.net = net then s.modCell cell fun c => { c with sh0 := f c.sh0 }
  else if c.sh1.net = net then s.modCell cell fun c => { c with sh1 := f c.sh1 }
  else match Tbl.find s.saves (cell * 4096 + net % 4096) with
    | some x => { s with saves := Tbl.put s.saves (cell * 4096 + net % 4096) (f x) }
    | none => s

/-! ### Links (R289 to R291, R294) -/

/-- The link of a release of the current cell at a scope: what happens before it (R291); vector writes count as stores (R216). -/
def linkOf (s : State) (scope : Nat) : Link where
  agent := s.cell
  scope := scope
  know := s.ctx.know
  floor := s.ctx.floor

/-- The link of a unit's release: all of memory that is performed (log 5). -/
def unitLink (s : State) (agent scope : Nat) : Link := { agent := agent, scope := scope, floor := s.version }

/-- Writes of some bytes enter the log. -/
def logWrites (s : State) (us : List Nat) (w : Written) : State :=
  { s with wlog := us.foldl (fun t u => Tbl.put t u (w :: Tbl.get [] t u)) s.wlog }

/-- A write by a unit of the module, with a release after it at a scope (R306, R325, R334). -/
def releaseVirt (s : State) (iss : Issuer) (va : Nat) (bs : List Byte) (scope : Nat) : State × Except Hit Unit :=
  match s.pieces iss va bs.length true (pieceFuel bs.length) with
  | (s, .error h) => (s, .error h)
  | (s, .ok ps) =>
    let s : State := { s with mem := storePieces s.mem bs ps }
    (s.logWrites (memUnits ps) { ver := s.version, cell := wideAgent, rel := some (s.unitLink wideAgent scope) }, .ok ())

/-- An acquire of the current cell at a scope observes some releases (R290). -/
def observe (s : State) (scope : Nat) (ls : List Link) : State :=
  s.modCtx fun c => (ls.filter fun l => l.reaches s.cell scope).foldl Ctx.learn c

/-- A context other than the current one observes some releases. -/
def observeIn (s : State) (cell scope : Nat) (ls : List Link) (c : Ctx) : Ctx :=
  let _ := s
  (ls.filter fun l => l.reaches cell scope).foldl Ctx.learn c

/-- The writes of a kind that are performed towards the current cell at a scope, the latest of each unit (R294). -/
def performedTo (s : State) (scope : Nat) (level : Written → Nat) : Tbl Nat :=
  s.wlog.filterMap fun e =>
    (e.2.find? fun w => decide (cellLevel w.cell s.cell ≤ scope) && decide (cellLevel w.cell s.cell < level w)).map fun w => (e.1, w.ver)

/-- What an acquire at a scope also sees: stores that others than their cells have read are performed for every agent between
(R294). -/
def meetShown (s : State) (scope : Nat) : State :=
  s.modCtx fun c => { c with know := mergeKnow c.know (s.performedTo scope (·.shown)) }

/-- A `fence.full` sees what the ones before it in the order of R294 had performed. -/
def meetFenced (s : State) (scope : Nat) : State :=
  s.modCtx fun c => { c with know := mergeKnow c.know (s.performedTo scope (·.fenced)) }

/-- The current cell's writes are performed before its `fence.full` at a scope. -/
def fenceOwn (s : State) (scope : Nat) : State :=
  { s with wlog := Tbl.mapV (fun _ ws => ws.map fun w => if w.cell = s.cell then { w with fenced := max w.fenced (scope + 1) } else w) s.wlog }

/-- A byte in a version. -/
def byteIn (s : State) (v u : Nat) : Byte := Mem.read (if u % 2 = 1 then (s.asOf v).2 else (s.asOf v).1) (u / 2)

/-- The writes of a byte up to a version, the latest first. -/
def writesTo (s : State) (v u : Nat) : List Written := (Tbl.get [] s.wlog u).filter fun w => decide (w.ver ≤ v)

/-- Does a write stand in a version at each of some bytes that it was the last to write? -/
def stands (s : State) (us : List Nat) (v : Nat) (w : Written) : Bool :=
  us.all fun u => !((s.writesTo v u).head?.any fun x => x.ver == w.ver && x.cell == w.cell) || s.byteIn w.ver u == s.byteIn v u

/-- The links that a read of some bytes in a version observes at one of them (R290): of the release that wrote it, or, where an
atomic wrote it, of every release before that in the order at the address. DEDUCED (log 5): a read of more bytes than the release
wrote, or of fewer, observes it where it reads some byte of its value. -/
def linksAt (s : State) (us : List Nat) (v u : Nat) : List Link :=
  match s.writesTo v u with
  | [] => []
  | w :: ws => if !s.stands us v w then [] else if w.atom then (w :: ws).filterMap fun x => x.rel else w.rel.toList

/-- The current cell has read some bytes in a version; a store of another cell that it read is performed for every agent
between (R294). -/
def showReads (s : State) (us : List Nat) (v : Nat) : State :=
  { s with wlog := us.foldl (fun t u =>
      match Tbl.find t u with
      | none => t
      | some ws => Tbl.put t u (ws.map fun w =>
          if w.ver ≤ v && w.cell ≠ s.cell then { w with shown := max w.shown (cellLevel w.cell s.cell + 1) } else w)) s.wlog }

/-- A load of the current cell reads some bytes in a version, which a later `fence.acq` makes an acquire (R181); with ACQ, at a
scope, it acquires (R290, R294). -/
def readAs (s : State) (us : List Nat) (v : Nat) (acq : Option Nat) : State :=
  let s := (s.modCtx fun c => c.saw us v).showReads us v
  let ls := (us.flatMap fun u => s.linksAt us v u).eraseDups
  let s := s.modCtx fun c => { c with found := c.found ++ ls.filter fun l => !c.found.contains l }
  match acq with
  | none => s
  | some scope => (s.observe scope ls).meetShown scope

/-- The current cell has written some bytes at the version that stands. -/
def wroteNow (s : State) (us : List Nat) (atom : Bool) (rel : Option Link) : State :=
  (s.modCtx fun c => c.wrote us s.version).logWrites us { ver := s.version, cell := s.cell, atom := atom, rel := rel }

/-! ### Accepted stores -/

/-- Did the current cell issue the store? -/
def mine (s : State) (l : Late) : Bool := l.iss.cell == s.cell && l.iss.net == s.ctx.net

/-- Does an accepted store of the current cell meet an access? -/
def pends (s : State) (virt : Bool) (a n : Nat) : Bool := s.stores.any fun l => s.mine l && l.meets virt a n

/-- The bytes of an access as the current cell sees them: its own accepted stores to the same addresses over them (R287). -/
def seeOwn (s : State) (virt : Bool) (a : Nat) (bs : List Byte) : List Byte :=
  (s.stores.filter fun l => s.mine l && l.virt == virt).foldl (fun bs l => l.onto a bs) bs

/-- The same for an access that carries no wave word: only what is performed at `.cell` (R288). -/
def seeDone (s : State) (a : Nat) (bs : List Byte) : List Byte :=
  (s.stores.filter fun l => s.mine l && !l.virt && l.done).foldl (fun bs l => l.onto a bs) bs

/-- A store is accepted by its path, and is performed later. -/
def accept (s : State) (virt : Bool) (a : Nat) (bs : List Byte) (ps : List (Nat × Nat × Bool)) (rel : Option Link)
    (last : Bool := false) : State :=
  { s with stores := s.stores ++ [{ iss := s.issuer, virt := virt, addr := a, bytes := bs, parts := ps, epoch := s.qcur,
                                    rel := rel, last := last }] }

/-- What a copy port shows of its packet in the words PORT0 and PORT1 of a record (R373). -/
def portWords (s : State) (sector : Nat) : Nat × Nat :=
  let p := (s.sectorAt sector).port
  (p.pidx.toNat, p.rowd % 2 ^ 32 * 2 ^ 32 + p.byted % 2 ^ 32)

/-- A copy port's window shows the class, the cause and the address of its last fault, and the ASID (R189). -/
def portNote (s : State) (sector asid : Nat) (h : Hit) : State :=
  s.modSector sector fun k => { k with port := { k.port with
    f := { k.port.f with cls := h.cls, cause := h.cause, asid := asid, faddr := BitVec.ofNat 64 h.faddr } } }

/-- A store is performed at its home, and its cell does not read older bytes from then on (R286). One that meets poison there
(R397) is lost, and its issuer's class is reported. -/
def performOne (s : State) (l : Late) : State :=
  match if l.virt then s.storePoison l.parts else none with
  | some dpa =>
    let h : Hit := { cls := 8, faddr := l.addr, aux := dpa / 2 ^ 16 % 2 ^ 37 }
    let k := cellSector l.iss.cell
    { s.portNote k l.iss.asid h with due := s.due ++ [
        { hit := h, src := 2, iss := l.iss, port0 := (s.portWords k).1, port1 := (s.portWords k).2 }] }
  | none =>
    let s := if l.virt then { s with mem := storePieces s.mem l.bytes l.parts }
      else { s with banks := Mem.store s.banks l.addr l.bytes }
    let v := s.version
    (s.modView l.iss.cell l.iss.net fun c => c.wrote l.units v).logWrites l.units { ver := v, cell := l.iss.cell, rel := l.rel }

/-- An accepted store is performed, if none of its cell's before it meets it (R287), or none stands before it where it comes last
(R187). -/
def performLate (s : State) (k : Nat) : State :=
  match s.stores[k]? with
  | none => s
  | some l =>
    if (s.stores.take k).any fun m => m.iss.cell == l.iss.cell && m.iss.net == l.iss.net
        && (l.last || m.meets l.virt l.addr l.bytes.length)
    then s
    else { s with stores := s.stores.eraseIdx k }.performOne l

/-- Accepted stores are performed, in the order of their acceptance. -/
def performAll (s : State) (p : Late → Bool) : State :=
  (s.stores.filter p).foldl performOne { s with stores := s.stores.filter fun l => !p l }

/-- Every accepted store of the current cell is performed, at every scope (R285, R291). -/
def flush (s : State) : State := s.performAll s.mine

/-- The accepted stores of the current cell that an access performed at once meets are performed before it (R287, R295). -/
def settleAt (s : State) (virt : Bool) (a n : Nat) : State :=
  let ls := owed [(virt, a, n)] (s.stores.filter s.mine).reverse
  s.performAll fun l => ls.contains l

/-- A later access of the chain is performed: the cell's accepted stores are performed at `.cell`, those to its own bank by
reaching it (R287, R288). -/
def atCell (s : State) : State :=
  let s := s.performAll fun l => s.mine l && !l.virt && l.addr / 2 ^ 16 == s.cell * 2 ^ 16
  { s with stores := s.stores.map fun l => if s.mine l then { l with done := true } else l }

end State

end Sys2Proof.Machine
end

