-- ==== Sys2Proof/Machine/Ops.lean ====
section
/-! DEFINITION. Named operations over the state: record rings (R334), the fault record and its delivery (R372 to
R378), taking a fault in a firing, tokens and words on their way to places (R35, R43, R44), the replay log (R404,
R406). There is no return from a fault on this machine: a firing that faults is over (R372). -/
namespace Sys2Proof.Machine

/-! ### Context slots (R316) -/

def CellSt.slotCtx (c : CellSt) (k : Nat) : Ctx := if k = 0 then c.run else if k = 1 then c.sh0 else c.sh1
def CellSt.setSlot (c : CellSt) (k : Nat) (x : Ctx) : CellSt :=
  if k = 0 then { c with run := x } else if k = 1 then { c with sh0 := x } else { c with sh1 := x }
/-- The slot that holds a net instance's context (R319). -/
def CellSt.slotFor (c : CellSt) (net : Nat) : Option Nat :=
  if c.run.valid && c.run.net == net then some 0
  else if c.sh0.valid && c.sh0.net == net then some 1
  else if c.sh1.valid && c.sh1.net == net then some 2 else none

/-- A context has taken a fabric arrival from an emitter in this clock. -/
def Ctx.arrived (c : Ctx) (clock src : Nat) : Ctx := { c with touched := clock + 1, took := clock + 1, taker := src }

namespace State

def modSlot (s : State) (cell k : Nat) (f : Ctx → Ctx) : State :=
  s.modCell cell fun c => c.setSlot k (f (c.slotCtx k))

/-! ### Record rings (R334) -/

def wordBytes (ws : List W64) : List Byte := ws.flatMap fun w => toBytes 8 w.toNat

/-- One 64-byte record to a ring. A record that the ring cannot take is dropped and LOST counts it; so is one
whose address does not translate (log 15). The write carries a release at `.sys`. -/
def ringRecord (s : State) (base : W64) (ix : RingIdx) (ws : List W64) : State × RingIdx :=
  let log2n := fld base 4 0
  let drop : RingIdx := { ix with lost := min (ix.lost + 1) 0xFFFF }
  if log2n = 0 || (ix.widx + 2 ^ 24 - ix.ridx) % 2 ^ 24 = 2 ^ log2n then (s, drop)
  else
    let at' := fld base 63 12 * 4096 + 64 * (ix.widx % 2 ^ log2n)
    match s.releaseVirt (Issuer.plain Config.firmAsid) at' (wordBytes ws) 5 with
    | (s, .ok ()) => (s, { ix with widx := (ix.widx + 1) % 2 ^ 24 })
    | (s, .error _) => (s, drop)

/-- A record to the host's fault ring. -/
def faultRing (s : State) (ws : List W64) : State :=
  let (s, ix) := s.ringRecord s.fring s.fidx ws
  { s with fidx := ix }

/-- A record to a die's reclamation ring (R271). -/
def reclaimRing (s : State) (die : Nat) (ws : List W64) : State :=
  let (s, ix) := s.ringRecord (s.dieAt die).rring (s.dieAt die).ridx ws
  s.modDie die fun d => { d with ridx := ix }

/-- A system event record (R418). -/
def sysEvent (s : State) (event port detail : Nat) : State :=
  s.faultRing [BitVec.ofNat 64 (3 * 2 ^ 56 + event % 256 * 2 ^ 48 + port % 256 * 2 ^ 40), BitVec.ofNat 64 detail,
    0, 0, 0, 0, 0, 0]

end State

/-! ### Faults (R372 to R377, R391) -/

/-- WHERE of a fault's record (R373). -/
def Flt.place (f : Flt) : Nat := if f.iss.tv then cellAddr f.iss.cell else f.loc

/-- The eight words of a fault record (R373). -/
def Flt.words (f : Flt) (act : Bool) (clock : Nat) : List W64 :=
  let tv := f.iss.tv
  [ BitVec.ofNat 64 (2 * 2 ^ 56 + f.hit.cls % 256 * 2 ^ 48 + f.hit.cause % 256 * 2 ^ 40 + f.src % 8 * 2 ^ 37
      + act.toNat * 2 ^ 36 + tv.toNat * 2 ^ 35 + f.iss.asid % 4096 * 2 ^ 12),
    BitVec.ofNat 64 f.place,
    BitVec.ofNat 64 (if tv then f.iss.trans % 64 * 2 ^ 58 + f.iss.woff % 16 * 2 ^ 54 + f.iss.ioff % 2 ^ 48
      else f.iss.ioff % 2 ^ 48),
    BitVec.ofNat 64 f.hit.faddr, BitVec.ofNat 64 f.port0, BitVec.ofNat 64 f.port1, BitVec.ofNat 64 clock,
    BitVec.ofNat 64 f.hit.aux ]

/-- How the classes of a net instance's faults are delivered (R375). -/
inductive Delivery where
  | token | freeze | neither
deriving DecidableEq, Repr

/-- The delivery of a class; class 0x01 at load and class 0x15 come from SRC 6 (R375, R386). -/
def deliveryOf (cls src : Nat) : Delivery :=
  if cls = 0x0C || cls = 0x0D || cls = 0x13 then .freeze
  else if cls = 0x04 || cls = 0x15 || src = 6 then .neither
  else .token
def Flt.delivery (f : Flt) : Delivery := if f.quiet then .neither else deliveryOf f.hit.cls f.src

/-- One fault among a clock's: in ascending WHERE, and of one WHERE in ascending CLASS (R377). -/
def insertFlt (f : Flt) : List Flt → List Flt
  | [] => [f]
  | g :: gs =>
    if f.place < g.place || (f.place == g.place && f.hit.cls < g.hit.cls) then f :: g :: gs else g :: insertFlt f gs

/-- A clock's faults in the order of their records. -/
def inOrder (fs : List Flt) : List Flt := fs.foldl (fun l f => insertFlt f l) []

namespace State

/-- One token at the fault place, where the region declares one that takes it (R375): the state with the token,
or none. A context that only a save area holds leaves the token in the fabric (R388). -/
def faultToken (s : State) (net : Nat) : Option State :=
  match Tbl.find s.nets net with
  | none => none
  | some n =>
    match n.fplace, n.frozen with
    | some (acell, place), none =>
      let c := n.map.getD acell 0
      match (s.cellAt c).slotFor net with
      | some k =>
        let p := ((s.cellAt c).slotCtx k).place place
        if p.isControl && p.count < 4095 then
          some (s.modSlot c k fun x => { x.setPlace place { p with count := p.count + 1 } with touched := s.clock + 1 })
        else none
      | none => some { s with flights := s.flights ++ [⟨cellAddr c, c, place, .tokens 1, net, s.clock, false, true, none⟩] }
    | _, _ => none

/-- A region freezes (R376). -/
def freeze (s : State) (net : Nat) : State :=
  s.modNet net fun n => { n with frozen := some (n.frozen.getD s.clock) }

/-- A fault is reported: its record and its delivery follow at the end of the clock (R377). -/
def report (s : State) (f : Flt) : State := { s with due := s.due ++ [f] }

/-- Tokens at a region's fault place, one by one: none where it does not take them all. -/
def faultTokens (s : State) (net : Nat) : Nat → Option State
  | 0 => some s
  | n + 1 => (s.faultToken net).bind fun t => t.faultTokens net n

/-- Does some fault of a clock freeze a region: one of a freezing class, or a token that the region does not take (R375)? -/
def freezes (s : State) (fs : List Flt) (net : Nat) : Bool :=
  let own := fs.filter fun f => f.iss.net == net
  (own.any fun f => f.delivery == .freeze)
    || (s.faultTokens net (own.filter fun f => f.delivery == .token).length).isNone

/-- A fault is recorded and delivered (R373, R375): the record goes to the host's fault ring before its token. In a region that
freezes, every record has ACT 0 and no token is delivered (R377). -/
def deliverOne (s : State) (frozen : Bool) (f : Flt) : State :=
  if f.delivery = .neither then s.faultRing (f.words false s.clock)
  else if frozen then (s.faultRing (f.words false s.clock)).freeze f.iss.net
  else
    let s := s.faultRing (f.words true s.clock)
    (s.faultToken f.iss.net).getD s

/-- The clock's faults are recorded and delivered in their order (R377); the record of a poisoned frame interrupts the monitor (R397). -/
def deliver (s : State) : State :=
  (inOrder s.due).foldl (fun t f => t.deliverOne (s.freezes s.due f.iss.net) f) { s with
    due := [], mgmt := { s.mgmt with alarms := s.mgmt.alarms + (s.due.filter fun f => f.hit.cls == 8).length } }

/-- A firing is over without a deposit (R372): its input tokens stay consumed, its held actions and its input
buffer are discarded, its register writes stand. -/
def endFiring (s : State) : State :=
  s.modCtx fun c => Ctx.settle { c with
    touched := s.clock + 1
    firings := c.firings.map fun x =>
      if x.id = s.fid then { x with ended := true, wait := none, held := [], inbuf := [], taken := [], flags := 0 } else x }

/-- TAKING A FAULT: the instruction in progress raises a class (R372): its firing ends, and the record, with the two words that
its source shows, is written and the fault delivered at the end of the clock. -/
def raiseAt (s : State) (src : Nat) (h : Hit) (port0 port1 : Nat) : State :=
  s.endFiring.report { hit := h, src := src, iss := s.issuer, port0 := port0, port1 := port1 }

/-- A fault that the cell raises, or that a unit does; the copy port (SRC 2) notes it, and its record shows the port's packet. -/
def raiseFrom (s : State) (src : Nat) (h : Hit) : State :=
  if src = 2 then
    let k := cellSector s.cell
    (s.raiseAt 2 h (s.portWords k).1 (s.portWords k).2).portNote k s.issuer.asid h
  else s.raiseAt src h 0 0

def raise (s : State) (h : Hit) : State := s.raiseFrom 0 h

end State

/-! ### Firings that end from outside (R388, R402) -/

/-- A firing of a context is over: in a running slot as R372 says, elsewhere with its park record. -/
def Ctx.drop (c : Ctx) (fid : Nat) (running : Bool) (clock : Nat) : Ctx :=
  if running then
    Ctx.settle { c with touched := clock + 1, firings := c.firings.map fun x =>
      if x.id = fid then { x with ended := true, wait := none, held := [], inbuf := [], taken := [], flags := 0 } else x }
  else
    { c with firings := c.firings.filter fun x => x.id ≠ fid
             parks := Tbl.mapV (fun _ p => if p.fid = fid then { p with valid := false } else p) c.parks }

namespace State

/-- The context of a net instance in a cell, in a slot or a save area and then with its image (R388), changed; `f` learns whether
it runs. -/
def modNetCtx (s : State) (cell net : Nat) (f : Bool → Ctx → Ctx) : State :=
  match (s.cellAt cell).slotFor net with
  | some k => s.modSlot cell k (f (k == 0))
  | none => match Tbl.find s.saves (cell * 4096 + net % 4096) with
    | some c => ({ s with saves := Tbl.put s.saves (cell * 4096 + net % 4096) (f false c) }).saveChanges c (f false c)
    | none => s

/-- The firing that a record names is over, and its fault is delivered. -/
def endNamed (s : State) (src : Nat) (i : Issuer) (h : Hit) (port0 port1 : Nat) : State :=
  (s.modNetCtx i.cell i.net fun running c => Ctx.drop c i.fid running s.clock).report
    { hit := h, src := src, iss := i, port0 := port0, port1 := port1 }

/-- The issuer of a firing of a context. -/
def issuerOf (cell : Nat) (c : Ctx) (f : Firing) : Issuer :=
  { cell := cell, net := c.net, asid := c.asid, trans := f.trans, woff := f.woff, ioff := (c.tr f.trans).ioff + 4 * f.woff
    tv := true, fid := f.id }

end State

namespace State

/-! ### Tokens and words towards places (R35, R43, R44, R378) -/

/-- A count that a place cannot take, or a word or count for a place of the wrong kind: class 0x02, SRC 0, TV 0,
WHERE the destination cell (R35, R378). -/
def overflow (s : State) (cell net asid place n src : Nat) : State :=
  s.report { hit := { cls := 2, faddr := cellAddr cell + 0x20000 + 8 * place, aux := n % 4096 * 2 ^ 52 + src % 2 ^ 48 },
             iss := { net := net, asid := asid }, loc := cellAddr cell }

/-- A count arrives at a place of a context (R35). -/
def arriveTokens (s : State) (cell k place n src : Nat) (rel : Option Link := none) : State :=
  let c := (s.cellAt cell).slotCtx k
  let p := c.place place
  let s := s.modSlot cell k fun x => x.arrived s.clock src
  if p.isControl && p.count + n ≤ 4095 then
    s.modSlot cell k fun x => x.setPlace place (p.linked n rel { p with count := p.count + n })
  else s.overflow cell c.net c.asid place n src

/-- Something leaves for a place of a net instance's cell through the fabric (R43), with what it releases (R290). -/
def send (s : State) (src dst index net : Nat) (x : Cargo) (rel : Option Link := none) : State :=
  { s with flights := s.flights ++ [⟨src, dst, index, x, net, s.clock, false, false, rel⟩] }

/-- A unit's completion token for the target that a command names (R236); where the unit releases, at a scope, it links what
the unit has written (R290). -/
def complete (s : State) (i : Issuer) (unit : Nat) (t : Option (Nat × Nat)) (rel : Option Link := none) : State :=
  match t with
  | some (c, p) => s.send unit c p i.net (.tokens 1) rel
  | none => s

/-- The physical cell of an abstract cell number as a cell sees it (R305, R308): 0xFFF is the cell itself; inside
a template instance a number of the template's range is that instance's copy. -/
def resolve (s : State) (cell net acell : Nat) : Option Nat :=
  if acell = 0xFFF then some cell
  else match Tbl.find s.nets net with
    | none => none
    | some n =>
      match n.map[acell]? with
      | none => none
      | some c =>
        match n.instOf cell with
        | none => some c
        | some i =>
          match (n.insts.find? fun j => j.tmpl == i.tmpl && j.inst == 0).bind fun j => j.cells.findIdx? (· == c) with
          | some k => some (i.cells.getD k c)
          | none => some c

/-! ### The replay log (R404, R406) -/

/-- A tally of a task's effects (R271). -/
def tally (s : State) (cell net : Nat) (f : Task → Task) : State :=
  match s.taskOf cell net with
  | some k => s.modTask (cellDie cell) k f
  | none => s

/-- The cell's index within its template instance. -/
def cix (s : State) (cell net : Nat) : Nat :=
  match (Tbl.find s.nets net).bind fun n => n.instOf cell with
  | some i => (i.cells.findIdx? (· == cell)).getD 0
  | none => 0

/-- The log key of a cell's logged operation number `ord`, and the OLD of the entry that matches it when the task
is being replayed (R404, R406). -/
def logAt (s : State) (i : Issuer) (ord : Nat) : Option (Nat × Nat × Option Nat) :=
  (s.taskOf i.cell i.net).map fun k =>
    let die := cellDie i.cell
    let t := s.taskAt die k
    let key := ((k % 4096 * 2 ^ 12 + t.gen % 4096) * 2 ^ 12 + s.cix i.cell i.net % 4096) * 2 ^ 24 + ord % 2 ^ 24
    (key, die, if t.replay then ((s.dieAt die).alogs.find? fun e => e.2.1 / 16 == key).map fun e => e.2.2 else none)

/-- The number of a cell's next logged operation, where the cell runs a task (R404). -/
def logOrd (s : State) (i : Issuer) : State × Option Nat :=
  match s.taskOf i.cell i.net, (s.cellAt i.cell).slotFor i.net with
  | some _, some slot =>
    (s.modSlot i.cell slot fun c => { c with ord := c.ord + 1 }, some ((s.cellAt i.cell).slotCtx slot).ord)
  | _, _ => (s, none)

def logNext (s : State) (i : Issuer) : State × Option (Nat × Nat × Option Nat) :=
  let (s, o) := s.logOrd i
  (s, o.bind fun n => s.logAt i n)

/-- A performed logged operation takes one entry of the die's log (R404); with none free OVF is set. -/
def logPut (s : State) (l : Option (Nat × Nat × Option Nat)) (kind old : Nat) : State :=
  match l with
  | none => s
  | some (key, die, _) =>
    let d := s.dieAt die
    let log2n := fld d.alog 19 15
    match if log2n = 0 then none else (List.range (d.alogs.length + 1)).find? fun i => (Tbl.find d.alogs i).isNone && decide (i < 2 ^ log2n) with
    | some i =>
      let w0 := key * 16 + kind
      let s := s.modDie die fun d => { d with alogs := Tbl.put d.alogs i (w0, old) }
      (s.writeVirt (Issuer.plain Config.firmAsid) (fld d.alog 63 20 * 2 ^ 20 + 16 * i)
        (wordBytes [BitVec.ofNat 64 w0, BitVec.ofNat 64 old])).1
    | none => s.modDie die fun d => { d with
        alog := d.alog ||| 0x4000
        tasks := Tbl.mapV (fun _ t => if t.v && t.st == 2 then { t with ovf := true } else t) d.tasks }

/-- Does the log hold an entry of the operation? -/
def logged (s : State) (l : Option (Nat × Nat × Option Nat)) : Bool :=
  match l with
  | some (key, die, _) => (s.dieAt die).alogs.any fun e => e.2.1 / 16 == key
  | none => false

/-- Does the replay already hold the operation's effect (R406)? -/
def logOld (l : Option (Nat × Nat × Option Nat)) : Option Nat := l.bind fun x => x.2.2

end State

end Sys2Proof.Machine
end

