-- ==== Sys2Proof/Machine/Refund.lean ====
section
/-! DEFINITION. Refunds (R46 to R48) and the start of castling (R317, R318). -/
namespace Sys2Proof.Machine

/-- The value that the latest of some firings, latest first, or the cell holds of a register goes back to what it was before a
window write, where it is still what that made of it (R297). -/
def unpoke (p : Poked) (c : Regs) : List Firing → Regs × List Firing
  | [] => (if c.at p.kind p.n = some p.new then c.set p.kind p.n p.old else c, [])
  | f :: fs =>
    match f.regs.at p.kind p.n with
    | some x => (c, (if x = p.new then { f with regs := f.regs.set p.kind p.n p.old } else f) :: fs)
    | none => let (r, fs) := unpoke p c fs
              (r, f :: fs)

/-- The window writes since a refunded firing's reserve to registers that it wrote are lost (R297). -/
def Ctx.losePokes (c : Ctx) (f : Firing) : Ctx :=
  (f.orig.filter fun p => (f.regs.at p.kind p.n).isSome).foldl (fun c p =>
    let (r, fs) := unpoke p c.regs c.firings.reverse
    { c with regs := r, firings := fs.reverse }) c

/-- One refund (R48): each input arc takes its effect at refund, the registers the firing wrote return to their
values at reserve (its writes are dropped, and window writes to them with these, R297; the generator is not rewound, R70), and
nothing is deposited. -/
def Ctx.refund (c : Ctx) (f : Firing) : Ctx :=
  let c := f.taken.reverse.foldl (fun c d => c.setPlace d.place (d.refund (c.place d.place))) c
  Ctx.losePokes { c with firings := c.firings.filter fun x => decide (x.id ≠ f.id) } f

/-- The refundable firings, latest first (R46, R47). -/
def Ctx.refundable (c : Ctx) : List Firing := (c.firings.filter fun f => !f.ended && !f.commit).reverse

def Ctx.refundAll (c : Ctx) : Ctx := Ctx.settle (c.refundable.foldl Ctx.refund c)

namespace State

/-- A write of `cr.castle` (R317, R318): with GO set and no swap under way, selection stops and the refundable
firings are refunded; committed firings run on. Without GO nothing starts. -/
def castleWrite (s : State) (cell : Nat) (v : W64) : State :=
  s.modCell cell fun c =>
    if c.go then c
    else if v.getLsbD 63 then
      { c with go := true, slot := v.getLsbD 62, stream := v.getLsbD 61, dir := v.getLsbD 60, goClock := s.clock,
               run := { c.run.refundAll with touched := s.clock + 1 } }
    else { c with slot := v.getLsbD 62, stream := v.getLsbD 61, dir := v.getLsbD 60 }

/-- `cr.castle` as it reads (R317). -/
def castleRead (s : State) (cell : Nat) : W64 :=
  let c := s.cellAt cell
  BitVec.ofNat 64 (c.go.toNat * 2 ^ 63 + c.slot.toNat * 2 ^ 62 + c.stream.toNat * 2 ^ 61 + c.dir.toNat * 2 ^ 60)

end State

end Sys2Proof.Machine
end

