-- ==== Sys2Proof/Machine/Windows.lean ====
section
/-! DEFINITION. The on-chip physical map: window codes, extents, rights and layouts (R90 to R96, R34, R53, R166,
R189, R254, R265, R277, R316, R317). -/
namespace Sys2Proof.Machine

/-! ### Extents and rights (R91 to R93) -/

def faCell (a : Nat) : Nat := a / 2 ^ 32 % 2 ^ 16
def faUnit (a : Nat) : Nat := a / 2 ^ 32 % 64
def faSector (a : Nat) : Nat := a / 2 ^ 38 % 1024
def faWin (a : Nat) : Nat := a / 2 ^ 16 % 2 ^ 16
def faOff (a : Nat) : Nat := a % 2 ^ 16

/-- The ranges of offsets of a window, first and last (R91); none where the combination is not assigned. -/
def winExtent (unit win : Nat) : List (Nat × Nat) :=
  if unit < 48 then
    match win with
    | 0 => [(0, 0xFFFF)]
    | 1 => [(0, 0x37F)]
    | 2 => [(0, 0x7FF), (0x1000, 0x2FFF)]
    | 3 => [(0, 0x1FF), (0x8000, 0xFFFF)]
    | 4 => [(0, 0xFFF)]
    | 5 => [(0, 0x3FFF)]
    | 6 => [(0, 0x3FFF)]
    | _ => []
  else if unit = 48 then
    if 0x10 ≤ win && win ≤ 0x17 then [(0, 0xFFFF)] else if win = 0x18 then [(0, 0xF)] else []
  else if unit = 49 then if win = 0x20 then [(0, 0x7FF)] else []
  else if unit = 50 then if win = 0x30 then [(0, 0xFFF)] else []
  else if unit = 51 then if win = 0x40 then [(0, 0x81F)] else []
  else if unit = 52 then if win = 0x50 then [(0, 0xFF)] else if win = 0x51 then [(0, 0x4F)] else []
  else []

/-- The size and alignment rules of R93. -/
def winSizeOk (win off n : Nat) : Bool :=
  if [1, 2, 3, 4, 0x18, 0x50].contains win then
    (n == 8 && off % 8 == 0)
      || (win == 1 && n == 64 && off % 64 == 0 && decide (0x100 ≤ off) && decide (off < 0x300))
  else true

/-- The accesses that R91 allows: to firings of priority 0 to 6, and to firmware and priority 7. -/
def winRight (fw write : Bool) (win : Nat) : Bool :=
  match win with
  | 0 => true
  | 1 => true
  | 4 | 5 | 6 => fw
  | 0x10 | 0x11 | 0x12 | 0x13 | 0x14 | 0x15 | 0x16 | 0x17 | 0x18 => !write
  | _ => fw || !write

/-- The class of an access that the map or the rights forbid (R92, R93); a location is judged before a right. A control
register that no chapter assigns is an unassigned location for firmware only; a program breaks the right of R91 there. -/
def winHit (fw write : Bool) (a n : Nat) : Option Hit :=
  let h (cls : Nat) : Option Hit := some { cls := cls, faddr := a, aux := n * 2 ^ 32 }
  if 168 ≤ sectorIx (faSector a) then h 3
  else if !((winExtent (faUnit a) (faWin a)).any fun e => decide (e.1 ≤ faOff a) && decide (faOff a + n ≤ e.2 + 1)) then h 3
  else if !winSizeOk (faWin a) (faOff a) n then h 3
  else if faWin a = 0x51 && faOff a < 0x50 && 0x48 < faOff a + n then h 3
  else if fw && faWin a = 4 && !csrAssigned (faOff a / 8) then h 3
  else if !winRight fw write (faWin a) then h 0x0F
  else if write && faWin a = 4 && [2, 3, 4].contains (faOff a / 8) then h 0x0F
  else none

/-! ### Layouts of a context: registers, places, transitions -/

/-- A firing keeps what a window write found below it and made of that; of several, the value before the first (R297). -/
def Firing.notePoke (f : Firing) (p : Poked) : Firing :=
  if f.orig.any fun q => q.kind == p.kind && q.n == p.n then
    { f with orig := f.orig.map fun q => if q.kind == p.kind && q.n == p.n then { q with new := p.new } else q }
  else { f with orig := f.orig ++ [p] }

/-- A firing that waits in an instruction keeps the value that this has read (R95); of several writes, that before the first. -/
def Firing.keepOld (f : Firing) (kind n : Nat) (old : Lane) : Firing :=
  if f.wait.isSome && (f.keep.at kind n).isNone then { f with keep := f.keep.set kind n old } else f

/-- A window write to a register in every firing that holds a value of it, in selection order above the value `below`. -/
def pokeFirings (kind n : Nat) (upd : Lane → Lane) (below : Lane) : List Firing → List Firing
  | [] => []
  | f :: fs =>
    let x := f.regs.at kind n
    ((match x with
      | some x => { f with regs := f.regs.set kind n (upd x) }
      | none => f).notePoke ⟨kind, n, below, upd below⟩).keepOld kind n (x.getD below)
        :: pokeFirings kind n upd (x.getD below) fs

/-- A write of one register from outside (R95, R297): it stands for every firing's later reading, whichever firing's value that
would have been. -/
def Ctx.poke (c : Ctx) (kind n : Nat) (upd : Lane → Lane) : Ctx :=
  let x := (c.regs.at kind n).getD 0
  { c with firings := pokeFirings kind n upd x c.firings, regs := c.regs.set kind n (upd x) }

/-- One word of a lane register replaced. -/
def laneWord (x : Lane) (k : Nat) (w : W64) : Lane :=
  (x &&& ~~~((0xFFFFFFFFFFFFFFFF : Lane) <<< (64 * k))) ||| (w.setWidth 512 <<< (64 * k))

/-- A selector's bits [62:48] are reserved and read as 0 (R7, R206). -/
def selMask (w : W64) : W64 := w &&& 0x8000FFFFFFFFFFFF

def Ctx.setRegWord (c : Ctx) (off : Nat) (w : W64) : Ctx :=
  if off < 8 then c
  else if off < 0x100 then c.poke 0 (off / 8) fun _ => w.setWidth 512
  else if off < 0x300 then c.poke 1 ((off - 0x100) / 64) fun x => laneWord x ((off - 0x100) / 8 % 8) w
  else if off < 0x380 then c.poke 2 ((off - 0x300) / 8) fun _ => (selMask w).setWidth 512
  else c

/-- A firmware write to a place entry (R93): none where it sets KIND 0b11 or a reserved bit. DESIGN CHOICE (log 58): an entry
that becomes a data place holds no word, whatever COUNT the write carries, and one that ceases to be one keeps its number of
words as its count. -/
def Ctx.setPlaceWord (c : Ctx) (p : Nat) (w : W64) : Option Ctx :=
  if fld w 63 62 = 3 || fld w 61 48 ≠ 0 || fld w 35 13 ≠ 0 then none
  else
    let x := c.place p
    let k := fld w 63 62
    some (c.setPlace p (
      if x.isData then
        if k = 2 then { x with ext := w.getLsbD 12 }
        else { x with kind := k, count := x.n, words := [], more := [], ext := false, rel := [] }
      else if k = 2 then { x with kind := k, count := 0, words := [], more := [], ext := w.getLsbD 12, cap := 4, rel := [] }
      else { x with kind := k, count := fld w 11 0, rel := [] }))

/-- A firmware write to a slot of a word store (R93): a held word is replaced, the slot just above appends. -/
def Ctx.setStoreWord (c : Ctx) (p k : Nat) (w : W64) : Ctx :=
  let x := c.place p
  if !x.isData then c
  else if k < x.words.length then c.setPlace p { x with words := x.words.set k w }
  else if k = x.words.length && k < 4 && !x.ext then c.setPlace p (x.join w)
  else c

/-- The bytes of a loaded record, zeros after its end (R128). -/
def Ctx.recByte (c : Ctx) (t k : Nat) : Byte := (c.tr t).record.getD k 0

/-- What firmware's writes to a record see (R129): a record in its 512-byte slot. -/
def padRecord (r : List Byte) : List Byte := r.take 512 ++ List.replicate (512 - r.length) 0

/-- The generator is written: vector instructions that have issued and wait step the old one (R169). -/
def Ctx.setGen (c : Ctx) (u : W32) : Ctx :=
  if c.firings.any fun f => f.genEp == some c.genEp then
    { c with sgen := u, genEp := c.genEp + 1, gens := Tbl.put c.gens c.genEp c.sgen }
  else { c with sgen := u }

namespace State

/-- The net around a cell as the check at arm sees it (R129). -/
def netView (s : State) (cell slot : Nat) (own : List Byte) : NetView :=
  let c := (s.cellAt cell).slotCtx slot
  let at' (k : Nat) : Ctx :=
    if k = 0xFFF then c
    else match s.resolve cell c.net k with
      | some d => match (s.cellAt d).slotFor c.net with
        | some j => (s.cellAt d).slotCtx j
        | none => {}
      | none => {}
  { cells := match Tbl.find s.nets c.net with
      | some n => n.map.length
      | none => 0
    kind := fun k p => ((at' k).place p).kind
    loaded := fun k t => ((at' k).tr t).loaded
    owns := recOwns own ++ (c.trans.filter fun e => e.2.loaded).flatMap fun e => recOwns e.2.record }

/-- ARMED is set or cleared, from the end of the clock (R152). To set it, the record is checked (R129), and a failure reports
class 0x01 with the window offset of the first failing word and leaves ARMED 0. DESIGN CHOICE (log 58): the record's FADDR is
the fabric address of that word, rounded down to 4 bytes: R129 names neither the field nor how an arc's 2 bytes count. -/
def setArmed (s : State) (cell slot t : Nat) (on : Bool) : State :=
  let c := (s.cellAt cell).slotCtx slot
  let x := c.tr t
  if !on then s.modSlot cell slot fun c => { c.setTr t { x with armed := false, since := none } with touched := s.clock + 1 }
  else if x.armed || !x.loaded then s
  else match loadedBad (s.netView cell slot x.record) true x.record with
    | none => s.modSlot cell slot fun c => { c.setTr t { x with armed := true } with touched := s.clock + 1 }
    | some b =>
      s.report { hit := { cls := 1, cause := b.2, faddr := cellAddr cell + 0x38000 + 512 * t + b.1 / 4 * 4 },
                 iss := { net := c.net, asid := c.asid }, loc := cellAddr cell }

/-- A firmware write to a transition's state (R53, R93): only ARMED is writable. -/
def setTransWord (s : State) (cell slot t : Nat) (w : W64) : State := s.setArmed cell slot t (w.getLsbD 63)

/-- A firmware write to eight bytes of a loaded record (R129). -/
def setRecordWord (s : State) (cell t k : Nat) (w : W64) : State × Option Hit :=
  let c := (s.cellAt cell).run
  let x := c.tr t
  let h : Option Hit := some { cls := 0x0F, faddr := cellAddr cell + 0x38000 + 512 * t + k, aux := 8 * 2 ^ 32 }
  let r := (padRecord x.record).take k ++ toBytes 8 w.toNat ++ (padRecord x.record).drop (k + 8)
  let same := (c.trans.filter fun e => e.2.loaded && e.1 ≠ t && recPrio e.2.record == recPrio r).length
  if x.armed || c.infl t ≠ 0 || 48 ≤ same then (s, h)
  else (s.modSlot cell 0 fun c => c.setTr t { x with loaded := true, record := r, armed := false }, none)

/-! ### Control registers (R72, R166, R317) -/

def csrOf (s : State) (cell k : Nat) : W64 :=
  let c := (s.cellAt cell).run
  match k with
  | 0 => c.fstat.setWidth 64
  | 1 => c.sgen.setWidth 64
  | 2 => nat64 (c.acell % 4096 * 2 ^ 52 + cellDie cell * 2 ^ 16 + sectorIx (cellSector cell) * 2 ^ 8 + cellIx cell)
  | 3 => nat64 s.clock
  | 4 => nat64 (c.net % 4096 * 2 ^ 16 + c.asid % 4096)
  | 0x100 => s.castleRead cell
  | 0x101 => (s.cellAt cell).ctxmem
  | _ => 0

/-- A control register written, reserved fields kept at 0 (R168). A generator of 0 becomes 1. -/
def setCsr (s : State) (cell k : Nat) (v : W64) : State :=
  match k with
  | 0 => s.modSlot cell 0 fun c => { c with fstat := v.setWidth 5 }
  | 1 => s.modSlot cell 0 fun c => c.setGen (if v.setWidth 32 = (0 : W32) then 1 else v.setWidth 32)
  | 0x100 => s.castleWrite cell v
  | 0x101 => s.modCell cell fun c => { c with ctxmem := v &&& 0xFFFFFFFFFFFFC000 }
  | _ => s

end State

/-! ### Shadow contexts (R316, R318) -/

def Park.setWord (p : Park) (off : Nat) (w : W64) : Park :=
  if off = 0 then { p with valid := w.getLsbD 63, rdy := w.getLsbD 62, trans := fld w 61 56, woff := fld w 55 52 }
  else if off = 8 then { p with glive := BitVec.ofNat 32 (fld w 63 32), vlive := BitVec.ofNat 8 (fld w 31 24),
                                shlive := BitVec.ofNat 16 (fld w 23 8) }
  else if off < 0x28 then
    let b := p.inbuf ++ List.replicate (3 - p.inbuf.length) 0
    { p with inbuf := b.set ((off - 0x10) / 8) w }
  else if off < 0x40 then p
  else if off < 0x138 then { p with regs := { p.regs with g := Tbl.put p.regs.g ((off - 0x40) / 8 + 1) w } }
  else if off < 0x1B8 then { p with regs := { p.regs with sh := Tbl.put p.regs.sh ((off - 0x138) / 8) (selMask w) } }
  else if off < 0x3B8 then
    let n := (off - 0x1B8) / 64
    { p with regs := { p.regs with v := Tbl.put p.regs.v n (laneWord (Tbl.get 0 p.regs.v n) ((off - 0x1B8) / 8 % 8) w) } }
  else if off < 0x3C0 then p
  else
    let r := p.reply ++ List.replicate (64 - p.reply.length) 0
    { p with reply := r.take (off - 0x3C0) ++ toBytes 8 w.toNat ++ r.drop (off - 0x3C0 + 8) }

/-- A word of a shadow slot's window written: fields that R93 makes read-only stand. -/
def Ctx.setShadowWord (c : Ctx) (off : Nat) (w : W64) : Ctx :=
  if off < 0x400 then c.setRegWord off w
  else if off < 0xC00 then (c.setPlaceWord ((off - 0x400) / 8) w).getD c
  else if off < 0xE00 then
    let t := (off - 0xC00) / 8
    c.setTr t { c.tr t with armed := w.getLsbD 63 && (c.tr t).loaded }
  else if off = 0xE00 then { c with valid := w.getLsbD 63, asid := fld w 62 51, net := fld w 50 39 }
  else if off = 0xE08 then { c with fstat := w.setWidth 5 }
  else if off = 0xE10 then { c with sgen := if w.setWidth 32 = (0 : W32) then 1 else w.setWidth 32 }
  else if off = 0xE18 then
    { c with wave := if w.getLsbD 63 then none else some (BitVec.ofNat 8 (fld w 15 8), BitVec.ofNat 8 (fld w 7 0)) }
  else if off < 0x1000 then c
  else if off < 0x3000 then c.setStoreWord ((off - 0x1000) / 32) ((off - 0x1000) / 8 % 4) w
  else { c with parks := Tbl.put c.parks ((off - 0x3000) / 1024)
                  ((Tbl.get {} c.parks ((off - 0x3000) / 1024)).setWord ((off - 0x3000) % 1024) w) }

/-! ### Sector units -/

/-- How a sum is split over S and C, two 56-bit two's complement numbers (R77), is open (log 14): `k` picks the split. -/
def Wide.split (w : Wide) (k : Nat) : Int × Int :=
  let c := toSigned 56 (Config.freeNat k % 2 ^ 56)
  if -(2 ^ 55) ≤ w.w - c && w.w - c < 2 ^ 55 then (w.w - c, c) else (w.w, 0)

/-- A wide element's 128 bits (R77). -/
def Wide.bits (w : Wide) (k : Nat) : Nat :=
  wrapTo 56 (w.split k).1 * 2 ^ 72 + wrapTo 56 (w.split k).2 * 2 ^ 16 + w.e % 1024 * 2 ^ 6 + w.sticky.toNat * 32 + w.cls % 4 * 8

def Ladder.pendN (l : Ladder) : Nat := l.pend.length

/-- Two 32-bit halves of a word. -/
def pair32 (lo hi : W32) : W64 := hi ++ lo

/-- A word of a ladder descriptor (R254). -/
def Ladder.word (l : Ladder) (off : Nat) : W64 :=
  if off = 0 then nat64 (l.v.toNat * 2 ^ 63 + l.mode % 4 * 2 ^ 61 + l.nr % 32 * 2 ^ 56 + l.ne % 2048 * 2 ^ 45 + l.step % 2 ^ 32)
  else if off = 8 then nat64 (l.occ.toNat * 2 ^ 40 + l.busy.toNat * 2 ^ 16 + min l.pendN 3 * 2 ^ 6)
  else if off = 0x10 then nat64 (l.done % 2 ^ 32 * 2 ^ 32 + l.nanc % 2 ^ 16 * 2 ^ 16 + l.ovfc % 2 ^ 16)
  else if off < 0x20 then 0
  else if off < 0x80 then pair32 (Tbl.get 0 l.rung ((off - 0x20) / 4)) (Tbl.get 0 l.rung ((off - 0x20) / 4 + 1))
  else if off < 0xE0 then pair32 (Tbl.get 0 l.wts ((off - 0x80) / 4)) (Tbl.get 0 l.wts ((off - 0x80) / 4 + 1))
  else 0

/-- A firmware write to a descriptor word: BUSY and PEND are read-only (R93). -/
def Ladder.setWord (l : Ladder) (off : Nat) (w : W64) : Ladder :=
  let lo : W32 := w.setWidth 32
  let hi : W32 := (w >>> 32).setWidth 32
  if off = 0 then { l with v := w.getLsbD 63, mode := fld w 62 61, nr := fld w 60 56, ne := fld w 55 45, step := fld w 31 0 }
  else if off = 8 then { l with occ := BitVec.ofNat 24 (fld w 63 40) }
  else if off = 0x10 then { l with done := fld w 63 32, nanc := fld w 31 16, ovfc := fld w 15 0 }
  else if off < 0x20 then l
  else if off < 0x80 then
    let k := (off - 0x20) / 4
    { l with rung := Tbl.put (Tbl.put l.rung k (lo &&& 0xFC0003FF)) (k + 1) (hi &&& 0xFC0003FF) }
  else if off < 0xE0 then
    let k := (off - 0x80) / 4
    { l with wts := Tbl.put (Tbl.put l.wts k lo) (k + 1) hi }
  else l

/-- Word 0 of a future-table entry (R265). -/
def Future.word0 (f : Future) : W64 :=
  nat64 (f.v.toNat * 2 ^ 63 + f.st % 4 * 2 ^ 61 + f.filled.toNat * 2 ^ 60 + f.nofill.toNat * 2 ^ 59
    + f.ref % 2 ^ 16 * 2 ^ 43 + f.gen % 4096 * 2 ^ 31 + f.pheld.toNat * 2 ^ 30 + f.hasp.toNat * 2 ^ 29
    + f.ptask % 4096 * 2 ^ 17 + f.task % 4096 * 2 ^ 5)

def Future.ofWord (f : Future) (w : W64) : Future :=
  { f with v := w.getLsbD 63, st := fld w 62 61, filled := w.getLsbD 60, nofill := w.getLsbD 59, ref := fld w 58 43,
           gen := fld w 42 31, pheld := w.getLsbD 30, hasp := w.getLsbD 29, ptask := fld w 28 17, task := fld w 16 5 }

/-- The counters of a queue (R277). -/
def Queue.counter (q : Queue) (off : Nat) : W64 :=
  match off with
  | 0x800 => nat64 (q.pushes % 2 ^ 32 * 2 ^ 32 + q.pops % 2 ^ 32)
  | 0x808 => nat64 (q.swr % 2 ^ 32 * 2 ^ 32 + q.srd % 2 ^ 32)
  | 0x810 => nat64 (q.sbase % 2 ^ 64 / 64 * 64)
  | _ => nat64 (q.slog % 32 * 2 ^ 59 + q.qcnt % 64 * 2 ^ 53 + q.head % 32 * 2 ^ 48 + q.infl % 16 * 2 ^ 44)

/-- A firmware write to the counters: INFL is read-only; offsets 0x0808 and 0x0818 only while INFL = 0 (R277). -/
def Queue.setCounter (q : Queue) (off : Nat) (w : W64) : Queue :=
  match off with
  | 0x800 => { q with pushes := fld w 63 32, pops := fld w 31 0, rels := [] }
  | 0x808 => if q.infl ≠ 0 then q else { q with swr := fld w 63 32, srd := fld w 31 0 }
  | 0x810 => { q with sbase := fld w 63 6 * 64 }
  | 0x818 => if q.infl ≠ 0 then q else { q with slog := fld w 63 59, qcnt := fld w 58 53, head := fld w 52 48 }
  | _ => q

/-- A word of the copy-port window (R189). -/
def Port.word (p : Port) (off : Nat) : W64 :=
  match off with
  | 0 => nat64 (p.f.frozen.toNat * 2 ^ 63 + p.f.cls % 256 * 2 ^ 48)
  | 8 => p.qaddr
  | 0x10 => p.pidx
  | 0x18 => nat64 (p.rowd % 2 ^ 32 * 2 ^ 32 + p.byted % 2 ^ 32)
  | 0x20 => p.f.faddr
  | _ =>
    if off < 0x40 then 0
    else
      let c := (off - 0x40) / 4
      let one (c : Nat) : Nat := Tbl.get 0 p.vcnt c % 2 ^ 16 * 2 ^ 16 + Tbl.get 0 p.fcnt c % 2 ^ 16
      nat64 (one (c + 1) * 2 ^ 32 + one c)

/-- A firmware write to the copy-port window; a write of 0 to FROZEN resumes the port (R394). -/
def Port.setWord (p : Port) (off : Nat) (w : W64) : Port :=
  match off with
  | 0 => { p with f := { p.f with frozen := p.f.frozen && w.getLsbD 63, cls := fld w 55 48, age := 0 } }
  | 8 => { p with qaddr := w }
  | 0x10 => { p with pidx := w }
  | 0x18 => { p with rowd := fld w 63 32, byted := fld w 31 0 }
  | 0x20 => { p with f := { p.f with faddr := w } }
  | _ =>
    if off < 0x40 then p
    else
      let c := (off - 0x40) / 4
      { p with vcnt := Tbl.put (Tbl.put p.vcnt c (fld w 31 16)) (c + 1) (fld w 63 48),
               fcnt := Tbl.put (Tbl.put p.fcnt c (fld w 15 0)) (c + 1) (fld w 47 32) }

/-- A slot of the block cache (R91). -/
def Sector.slot (k : Sector) (b : Nat) : BitVec 28 := (k.blocks[b]?).getD (Tbl.get 0 k.slots b)

/-- A word of the block-cache window (R91): slots, then the count; the append and take ports read 0 here. -/
def Sector.blockWord (k : Sector) (off : Nat) : W64 :=
  if off < 0x40 then pair32 ((k.slot (off / 4)).setWidth 32) ((k.slot (off / 4 + 1)).setWidth 32)
  else if off = 0x40 then nat64 k.blocks.length
  else 0

/-- A firmware write to bytes of the slots (R91, R93): those below COUNT are grants, the rest stand as written. -/
def Sector.setSlots (k : Sector) (off : Nat) (bs : List Byte) : Sector :=
  let old := (List.range 16).flatMap fun b => toBytes 4 (k.slot b).toNat
  let new := old.take off ++ bs.take (64 - off) ++ old.drop (off + bs.length)
  let at' (b : Nat) : BitVec 28 := BitVec.ofNat 28 (ofBytes ((new.drop (4 * b)).take 4))
  { k with
    blocks := (List.range k.blocks.length).map at'
    slots := ((List.range 16).drop k.blocks.length).map fun b => (b, at' b) }

/-! ### Words and bytes of the whole map -/

def Node.accOf (n : Node) (q : Nat) : Tbl Wide := if q = 0 then n.acc0 else n.acc1

namespace State

/-- The 8-byte word at an aligned fabric address outside the banks. -/
def fabWord (s : State) (a : Nat) : W64 :=
  let off := faOff a
  let c := (s.cellAt (faCell a)).run
  let k := s.sectorAt (faSector a)
  match faWin a with
  | 1 => c.regWord off
  | 2 => if off < 0x800 then c.placeWord (off / 8) else c.storeWord ((off - 0x1000) / 32) (off / 8 % 4)
  | 3 =>
    if off < 0x200 then c.transWord (off / 8) s.clock
    else nat64 (ofBytes ((List.range 8).map fun j => c.recByte ((off - 0x8000) / 512) (off % 512 + j)))
  | 4 => s.csrOf (faCell a) (off / 8)
  | 5 => (s.cellAt (faCell a)).sh0.shadowWord s.clock off
  | 6 => (s.cellAt (faCell a)).sh1.shadowWord s.clock off
  | 0x18 => if off < 8 then nat64 (k.node.nan0 % 2 ^ 16 * 2 ^ 16 + k.node.ovf0 % 2 ^ 16)
            else nat64 (k.node.nan1 % 2 ^ 16 * 2 ^ 16 + k.node.ovf1 % 2 ^ 16)
  | 0x20 => (Tbl.get {} k.ladders (off / 256)).word (off % 256)
  | 0x30 =>
    let f := Tbl.get {} k.futures (off / 16)
    if off % 16 = 0 then f.word0 else f.value
  | 0x40 => if off < 0x800 then Tbl.get 0 k.queue.ent (off / 8) else k.queue.counter off
  | 0x50 => k.port.word off
  | 0x51 => k.blockWord off
  | w =>
    let e := 128 * (w % 4 * 32) + off / 16
    let b := match Tbl.find (k.node.accOf ((w - 0x10) / 4)) e with
      | some x => x.bits (s.free + e)
      | none => 0
    nat64 (if off % 16 = 0 then b % 2 ^ 64 else b / 2 ^ 64)

/-- `n` bytes on chip from a fabric address (R94, R96); the access is one that `winHit` lets pass. It is performed whole, an
accumulator's units among them, where the spec assures each aligned unit only (DESIGN CHOICE, log 58). -/
def fabRead (s : State) (a n : Nat) : List Byte :=
  if faWin a = 0 then Mem.load s.banks a n
  else
    let base := a / 8 * 8
    (((List.range ((a % 8 + n + 7) / 8)).flatMap fun k => toBytes 8 (s.fabWord (base + 8 * k)).toNat).drop (a % 8)).take n

/-- A firmware write to a word of a shadow slot (R316): the rules of R93 and R129 for places and transitions hold
there too. -/
def setShadow (s : State) (cell slot off : Nat) (w : W64) : State × Option Hit :=
  let c := (s.cellAt cell).slotCtx slot
  if 0xC00 ≤ off && off < 0xE00 then (s.setTransWord cell slot ((off - 0xC00) / 8) w, none)
  else if 0x400 ≤ off && off < 0xC00 && (c.setPlaceWord ((off - 0x400) / 8) w).isNone then
    (s, some { cls := 3, faddr := cellAddr cell + (4 + slot) * 2 ^ 16 + off, aux := 8 * 2 ^ 32 })
  else (s.modSlot cell slot fun c => c.setShadowWord off w, none)

/-- A write of an aligned word outside the banks; the class where the window refuses the word (R93, R129). -/
def setFabWord (s : State) (a : Nat) (w : W64) : State × Option Hit :=
  let off := faOff a
  let cell := faCell a
  let modK (f : Sector → Sector) : State × Option Hit := (s.modSector (faSector a) f, none)
  let h (cls : Nat) : Option Hit := some { cls := cls, faddr := a, aux := 8 * 2 ^ 32 }
  match faWin a with
  | 1 => (s.modSlot cell 0 fun c => { c.setRegWord off w with poked := s.clock + 1 }, none)
  | 2 =>
    if off < 0x800 then
      match (s.cellAt cell).run.setPlaceWord (off / 8) w with
      | some c => (s.modSlot cell 0 fun _ => { c with touched := s.clock + 1 }, none)
      | none => (s, h 3)
    else (s.modSlot cell 0 fun c => { c.setStoreWord ((off - 0x1000) / 32) (off / 8 % 4) w with touched := s.clock + 1 }, none)
  | 3 =>
    if off < 0x200 then (s.setTransWord cell 0 (off / 8) w, none)
    else s.setRecordWord cell ((off - 0x8000) / 512) (off % 512) w
  | 4 => (s.setCsr cell (off / 8) w, none)
  | 5 => s.setShadow cell 1 off w
  | 6 => s.setShadow cell 2 off w
  | 0x20 => modK fun k => { k with ladders := Tbl.put k.ladders (off / 256) ((Tbl.get {} k.ladders (off / 256)).setWord (off % 256) w) }
  | 0x30 => modK fun k =>
    let f := Tbl.get {} k.futures (off / 16)
    { k with futures := Tbl.put k.futures (off / 16) (if off % 16 = 0 then f.ofWord w else { f with value := w }) }
  | 0x40 => modK fun k =>
    { k with queue := if off < 0x800 then { k.queue with ent := Tbl.put k.queue.ent (off / 8) w } else k.queue.setCounter off w }
  | 0x50 => modK fun k => { k with port := k.port.setWord off w }
  | _ => (s, none)

/-- A block number appended to a sector's cache; a full one discards it (R333). -/
def appendBlock (s : State) (sector : Nat) (v : W32) : State :=
  s.modSector sector fun k =>
    { k with blocks := if k.blocks.length < 16 then k.blocks ++ [v.setWidth 28] else k.blocks, added := s.clock + 1 }

/-- Bytes written over the words they touch, word by word upward; the write has no effect where the window refuses a word of it
(`fabWrite`). -/
def setFabBytes (s : State) (a : Nat) (bs : List Byte) : Nat → State × Option Hit
  | 0 => (s, none)
  | n + 1 =>
    if bs.isEmpty then (s, none)
    else
      let base := a / 8 * 8
      let k := a - base
      let m := min (8 - k) bs.length
      let old := toBytes 8 (s.fabWord base).toNat
      match s.setFabWord base (nat64 (ofBytes (old.take k ++ bs.take m ++ old.drop (k + m)))) with
      | (s, some h) => (s, some h)
      | (s, none) => s.setFabBytes (base + 8) (bs.drop m) n

/-- A write on chip that `winHit` lets pass (R93 to R95); one of which the window refuses a word has no effect (R372). DESIGN
CHOICE (log 58): a write to window 0x0051 that runs on from the slots past offset 0x40 writes the slots only, and one at offset
0x40 or above, but for 4 bytes at 0x44, nothing: R91 and R333 speak of neither. -/
def fabWrite (s : State) (a : Nat) (bs : List Byte) : State × Option Hit :=
  if faWin a = 0 then ({ s with banks := Mem.store s.banks a bs }, none)
  else if faWin a = 0x51 then
    if faOff a = 0x44 && bs.length = 4 then (s.appendBlock (faSector a) (BitVec.ofNat 32 (ofBytes bs)), none)
    else if faOff a < 0x40 then (s.modSector (faSector a) fun k => k.setSlots (faOff a) bs, none)
    else (s, none)
  else match s.setFabBytes a bs (bs.length / 8 + 2) with
    | (t, none) => (t, none)
    | (_, some h) => (s, some h)

end State

end Sys2Proof.Machine
end

