-- ==== Sys2Proof/Machine/Access.lean ====
section
/-! DEFINITION. How a cell's instruction reaches memory on its path (R88, R89, R123, R172 to R178), and the copy
port that carries virtual accesses (R392). -/
namespace Sys2Proof.Machine

/-- How an access ends: performed; with a class in the issuing firing, from the cell (SRC 0) or recorded by the
port (SRC 2); or withheld by a frozen port, so that the firing waits (R89). -/
inductive Acc (α : Type) where
  | ok (s : State) (x : α)
  | hit (s : State) (src : Nat) (h : Hit)
  | wait (s : State)

/-- The fabric address that a path names for a cell: bank, sector or fabric (R88). -/
def fabricOf (cell path a : Nat) : Nat :=
  if path = 0 then cellAddr cell + a % 2 ^ 16
  else if path = 1 then cellSector cell * 2 ^ 38 + a % 2 ^ 38
  else a % 2 ^ 48

namespace State

/-- The copy port of a sector freezes on a translation failure (R392) and writes its record. -/
def portFreeze (s : State) (sector : Nat) (i : Issuer) (h : Hit) : State :=
  let s := (s.portNote sector i.asid h).modSector sector fun k => { k with port := { k.port with
    whose := none, f := { k.port.f with frozen := true, age := 0 } } }
  s.report { hit := h, src := 2, iss := i, loc := sector * 2 ^ 38 + 52 * 2 ^ 32,
             port0 := (s.portWords sector).1, port1 := (s.portWords sector).2 }

/-- The current cell's sector. -/
def sector (s : State) : Nat := cellSector s.cell

/-- The effective address of `off(gA)` (R88, R120). -/
def ea (s : State) (a : Rg) (off : W32) : Nat := (s.readG a + sext32 off).toNat

/-- The fabric address that a path names for the current cell (R88). -/
def pathAddr (s : State) (path a : Nat) : Nat := fabricOf s.cell path a

/-- The class that a bank, sector or fabric access meets (R92, R93, R175): for the bank path the offset must keep
within the bank. -/
def pathHit (s : State) (path a n : Nat) (write : Bool) : Option Hit :=
  if path = 0 then
    if a % 2 ^ 16 + n ≤ 2 ^ 16 then none else some { cls := 3, faddr := a % 2 ^ 16, aux := n * 2 ^ 32 }
  else winHit (s.prio == 7) write (s.pathAddr path a) n

/-- The port freezes on an access of the current firing. -/
def cellFreeze (s : State) (h : Hit) : State :=
  (s.portFreeze s.sector s.issuer h).modSector s.sector fun k => { k with port := { k.port with whose := some s.issuer } }

/-- The current firing, as a copy port names it. -/
def meAtPort (s : State) : Nat × Nat × Nat := (s.cell, s.ctx.net, s.fid)

/-- The accesses that a sector's port withholds whose firings still wait in them, in arrival order (R392). -/
def withheld (s : State) (sector : Nat) : List (Nat × Nat × Nat) :=
  (s.sectorAt sector).port.waits.filter fun w =>
    let c := (s.cellAt w.1).run
    c.net == w.2.1 && c.busy.any fun f => f.id == w.2.2 && f.wait.isSome && !f.parked

/-- The current firing's access waits at its port: behind those that arrived before it, or in front where it froze the port. -/
def atPortQueue (s : State) (front : Bool) : State :=
  let ws := s.withheld s.sector
  if ws.contains s.meAtPort then s
  else s.modSector s.sector fun k => { k with port := { k.port with
    waits := if front then s.meAtPort :: ws else ws ++ [s.meAtPort] } }

/-- It leaves the port. -/
def leavePort (s : State) : State :=
  if (s.sectorAt s.sector).port.waits.isEmpty then s
  else s.modSector s.sector fun k => { k with port := { k.port with waits := (s.withheld s.sector).filter (· ≠ s.meAtPort) } }

/-- A virtual access that the port performs (R89): a failed translation freezes the port and the firing waits in front (R392);
any other class ends the firing (R395). The record of a dropped link shows the request's age (R391). -/
def portGo {α : Type} (s : State) (go : State → State × Except Hit α) : Acc α :=
  match go s with
  | (s, .ok x) => .ok s x
  | (s, .error h) =>
    if h.cls = 4 then .wait ((s.cellFreeze h).atPortQueue true)
    else .hit s 2 (if h.cls = 0x0C && h.cause = 4 then { h with aux := s.me.age } else h)

/-- Does the port keep an access of the current cell waiting: it is frozen, or withheld another before it (R392)? -/
def portHolds (s : State) : Bool :=
  (s.sectorAt s.sector).port.f.frozen || ((s.withheld s.sector).head?.any fun w => w ≠ s.meAtPort)

/-- A virtual access of the current cell through its sector's copy port (R89), in its turn; `turn` says that an access of the
same instruction has just had it. -/
def viaPort {α : Type} (s : State) (go : State → State × Except Hit α) (turn : Bool := false) : Acc α :=
  if turn then s.portGo go else if s.portHolds then .wait (s.atPortQueue false) else s.leavePort.portGo go

/-- Does an access of the current cell touch a tile that its task sees renamed (R275)? -/
def renamed (s : State) (a n : Nat) : Bool :=
  (s.tileOf s.cell s.ctx.net (a % 2 ^ 57 / 4096)).isSome || (s.tileOf s.cell s.ctx.net ((a + n - 1) % 2 ^ 57 / 4096)).isSome

/-- A virtual load of the current cell (R175): the bytes of a version that it may read (R292), its own accepted stores over
them (R287). A renamed tile reads as it stands (R275). -/
def loadVirt (s : State) (a n : Nat) (acq : Option Nat := none) : State × Except Hit (List Byte) :=
  match s.pieces s.issuer a n false (pieceFuel n) with
  | (s, .error h) => (s, .error h)
  | (s, .ok ps) =>
    let v := if s.renamed a n then max (s.ctx.seenOf (memUnits ps)) s.version else s.readVersion (memUnits ps)
    (s.readAs (memUnits ps) v acq, .ok (s.seeOwn true a (ps.flatMap fun p => Mem.load (s.asOf v).2 p.1 p.2.1)))

/-- The version that an access of the current cell to a bank reads: its own as it stands (R288), another's as the cell may read
it. -/
def bankVersion (s : State) (a n : Nat) : Nat :=
  if faCell a = s.cell then max (s.ctx.seenOf (unitsOf false a n)) s.version else s.readVersion (unitsOf false a n)

/-- A load from a bank. DESIGN CHOICE (log 58): it reads all its bytes in one version, where R94 assures each aligned eight. -/
def loadBank (s : State) (a n : Nat) (acq : Option Nat := none) : State × List Byte :=
  let v := s.bankVersion a n
  (s.readAs (unitsOf false a n) v acq, s.seeOwn false a (Mem.load (s.asOf v).1 a n))

/-- A read of a bank that carries no wave word (R207, R288): of the cell's own accepted stores it sees those performed at
`.cell`. -/
def peekBank (s : State) (a n : Nat) : List Byte := s.seeDone a (Mem.load (s.asOf (s.bankVersion a n)).1 a n)
/-- After such a read of another cell's bank the cell reads nothing older there (R286). -/
def sawBank (s : State) (a n : Nat) : State :=
  if faCell a = s.cell then s
  else (s.modCtx fun c => c.saw (unitsOf false a n) (s.bankVersion a n)).showReads (unitsOf false a n) (s.bankVersion a n)

/-- A load of `n` bytes (R175), which may acquire at a scope. -/
def loadAt (s : State) (path a n : Nat) (acq : Option Nat := none) (turn : Bool := false) : Acc (List Byte) :=
  if path = 3 then s.viaPort (fun s => s.loadVirt a n acq) turn
  else match s.pathHit path a n false with
    | some h => .hit s 0 h
    | none =>
      if faWin (s.pathAddr path a) = 0 then let (s, bs) := s.loadBank (s.pathAddr path a) n acq
                                            .ok s bs
      else .ok (s.readAs (unitsOf false (s.pathAddr path a) n) s.version acq) (s.fabRead (s.pathAddr path a) n)

/-- A store of the current cell that its path has accepted (R173): it is performed now, or later where the schedule says so
or where one before it that it meets is not performed yet (R285, R287). -/
def putStore (s : State) (virt : Bool) (a : Nat) (bs : List Byte) (ps : List (Nat × Nat × Bool)) (rel : Option Link := none)
    (last : Bool := false) : State :=
  if s.late ≠ 0 || s.pends virt a bs.length || (last && s.stores.any s.mine) then s.accept virt a bs ps rel last
  else s.performOne { iss := s.issuer, virt := virt, addr := a, bytes := bs, parts := ps, epoch := s.qcur, rel := rel }

/-- A virtual store of the current cell: every page translates before it is accepted (R175). -/
def storeVirt (s : State) (a : Nat) (bs : List Byte) (rel : Option Link := none) (last : Bool := false) : State × Except Hit Unit :=
  match s.pieces s.issuer a bs.length true (pieceFuel bs.length) with
  | (s, .error h) => (s, .error h)
  | (s, .ok ps) => (s.putStore true a bs ps rel last, .ok ())

/-- A store (R175), with the link of a release. On the bank path, and in any window but a bank, it is performed at once (R288,
R297). -/
def storeAt (s : State) (path a : Nat) (bs : List Byte) (rel : Option Link := none) (last : Bool := false) (turn : Bool := false) :
    Acc Unit :=
  if path = 3 then s.viaPort (fun s => s.storeVirt a bs rel last) turn
  else match s.pathHit path a bs.length true with
    | some h => .hit s 0 h
    | none =>
      if path ≠ 0 && faWin (s.pathAddr path a) = 0 then .ok (s.putStore false (s.pathAddr path a) bs [] rel last) ()
      else match (s.settleAt false (s.pathAddr path a) bs.length).fabWrite (s.pathAddr path a) bs with
        | (s, none) => .ok (s.wroteNow (unitsOf false (s.pathAddr path a) bs.length) false rel) ()
        | (s, some h) => .hit s 0 h

/-- The scope at which an instruction with a wave word releases, where it does: its own with REL, and that of a `fence.rel`
before it on the chain (R181). -/
def relScopeOf (s : State) (i : Instr) : Option Nat :=
  match i.wave with
  | none => none
  | some w =>
    let after := if i.onChain && (!i.loads || i.stores) then s.ctx.asRel else 0
    if w.rel then some (max w.scope.toNat (after - 1)) else if after = 0 then none else some (after - 1)

/-- The link that such an instruction's own write carries (R290). -/
def relLink (s : State) (i : Instr) : Option Link := (s.relScopeOf i).map fun k => s.linkOf k

/-- Bytes of the current cell's bank; the offset and length lie within it (R253). -/
def bankRead (s : State) (off n : Nat) : List Byte := Mem.load s.banks (cellAddr s.cell + off % 2 ^ 16) n
def bankWrite (s : State) (off : Nat) (bs : List Byte) : State :=
  { s with banks := Mem.store s.banks (cellAddr s.cell + off % 2 ^ 16) bs }
/-- A vector instruction's or unit command's write to the cell's bank: performed at every scope, and what the cell does next
happens after it (R216, R263). -/
def vecStore (s : State) (off : Nat) (bs : List Byte) : State :=
  let s := s.bankWrite off bs
  let us := unitsOf false (cellAddr s.cell + off % 2 ^ 16) bs.length
  (s.modCtx fun c => c.wrote us s.version).logWrites us { ver := s.version, cell := s.cell }
/-- An operand in the issuing bank that leaves it raises class 0x03 (R184, R253). -/
def bankHit (off n : Nat) : Option Hit :=
  if off % 2 ^ 16 + n ≤ 2 ^ 16 then none else some { cls := 3, faddr := off % 2 ^ 16, aux := n * 2 ^ 32 }

end State

/-- Is a wave word consistent with the last-wave record (R123)? -/
def waveOk (w : Option (Byte × Byte)) (x : Wave) : Bool :=
  x.pred == 0xFE
  || (match w with
      | none => x.pred == 0xFF
      | some (own, succ) =>
        (x.pred == 0xFF && (succ == 0xFE || succ == 0xFF))
          || (x.pred == own && (succ == x.own || succ == 0xFE)))

namespace State

/-- A wave-word instruction's place on its cell's chain (R123): taken, or none where it is inconsistent. -/
def takeWave (s : State) (x : Wave) : Option State :=
  if waveOk s.ctx.wave x then
    some ((s.modCtx fun c => { c with wave := some (x.own, x.succ), chain := c.chain + 1 }).modMe
      fun f => { f with link := s.ctx.chain + 1 })
  else none

/-- A wave-word instruction (R123): an inconsistent one raises class 0x0A and nothing else happens. -/
def onWave (s : State) (x : Wave) (body : State → Res) : Res :=
  match s.takeWave x with
  | none => .next (s.raise { cls := 0x0A })
  | some s => body s

end State

/-- How an instruction goes on from an access. -/
def Acc.then {α : Type} (r : Acc α) (i : Instr) (arg : Option Nat) (addr : Nat) (f : State → α → Res) : Res :=
  match r with
  | .ok s x => f s x
  | .hit s src h => .next (s.raiseFrom src h)
  | .wait s => .next (s.waitIn i arg addr)

end Sys2Proof.Machine
end

