-- ==== Sys2Proof/Machine/Scalar.lean ====
section
/-! DEFINITION. The scalar instructions (06_isa_net_scalar_system.md, R160 to R165). -/
namespace Sys2Proof.Machine

/-- A scalar result: the register, the choice code when S = 1, and the next instruction `n` words on (R39, R41,
R142). -/
def scalar (d : Rg) (r : W64) (code : BitVec 2) (c : Bool) (n : Nat) (s : State) : Res :=
  .next (((s.writeG d r).choose c code).advance n)

/-- A result that R39 takes as signed. -/
def signed (d : Rg) (r : W64) (c : Bool) (n : Nat) (s : State) : Res := scalar d r (codeSigned r) c n s
/-- A result marked U in R161. -/
def unsigned (d : Rg) (r : W64) (c : Bool) (n : Nat) (s : State) : Res := scalar d r (codeUnsigned r) c n s

/-! ### The values (R161 to R165) -/

def mulHigh (x y : W64) : W64 := BitVec.ofInt 64 (x.toInt * y.toInt / 2 ^ 64)
def mulHighU (x y : W64) : W64 := BitVec.ofNat 64 (x.toNat * y.toNat / 2 ^ 64)
/-- R162. -/
def divS (x y : W64) : W64 := if y = 0 then BitVec.allOnes 64 else BitVec.ofInt 64 (x.toInt.tdiv y.toInt)
def divU (x y : W64) : W64 := if y = 0 then BitVec.allOnes 64 else BitVec.ofNat 64 (x.toNat / y.toNat)
def remS (x y : W64) : W64 := if y = 0 then x else BitVec.ofInt 64 (x.toInt.tmod y.toInt)
def remU (x y : W64) : W64 := if y = 0 then x else BitVec.ofNat 64 (x.toNat % y.toNat)
/-- The shift amount s = g[B][5:0]. -/
def shAmt (y : W64) : Nat := y.toNat % 64
def minS (x y : W64) : W64 := if x.toInt ≤ y.toInt then x else y
def maxS (x y : W64) : W64 := if x.toInt ≤ y.toInt then y else x
def minU (x y : W64) : W64 := if x.toNat ≤ y.toNat then x else y
def maxU (x y : W64) : W64 := if x.toNat ≤ y.toNat then y else x
/-- Bits of a value from the top that are 0, up to the first 1. -/
def leadZeros (x : W64) : Nat := ((List.range 64).reverse.takeWhile fun k => !x.getLsbD k).length
def trailZeros (x : W64) : Nat := ((List.range 64).takeWhile fun k => !x.getLsbD k).length
def onesCount (x : W64) : Nat := ((List.range 64).filter fun k => x.getLsbD k).length
/-- Bits [pos:0], copies of bit pos above (R161). -/
def sextAt (x : W64) (pos : Nat) : W64 := BitVec.ofInt 64 (toSigned (pos + 1) x.toNat)
def zextAt (x : W64) (pos : Nat) : W64 := BitVec.ofNat 64 (x.toNat % 2 ^ (pos + 1))
/-- The field descriptor of R163. -/
def fieldLo (y : W64) : Nat := y.toNat % 64
def fieldLen (y : W64) : Nat :=
  let n := fld y 14 8
  if n = 0 || 64 < n then 64 else n
def bitsOut (x y : W64) : W64 := BitVec.ofNat 64 (x.toNat / 2 ^ fieldLo y % 2 ^ fieldLen y)
def bitsIn (old x y : W64) : W64 :=
  let m : W64 := BitVec.ofNat 64 ((2 ^ fieldLen y - 1) * 2 ^ fieldLo y)
  (old &&& ~~~m) ||| ((x <<< fieldLo y) &&& m)
/-- The fabric address of an abstract cell with a window and offset (R164): all ones where the net has no such
cell. -/
def State.addrOf (s : State) (x y : W64) : W64 :=
  let k := y.toNat % 2 ^ 12
  match s.resolve s.cell s.ctx.net k with
  | none => BitVec.allOnes 64
  | some c => BitVec.ofNat 64 (cellAddr c + x.toNat % 2 ^ 32)
/-- An immediate zero-extended (R165). -/
def zext32 (i : W32) : W64 := i.setWidth 64
def liHigh (old : W64) (i : W32) : W64 := i ++ old.setWidth 32

/-! ### The instructions -/

def execAdd (d a b : Rg) (c : Bool) (s : State) : Res := signed d (s.readG a + s.readG b) c 1 s
def execSub (d a b : Rg) (c : Bool) (s : State) : Res := signed d (s.readG a - s.readG b) c 1 s
def execMul (d a b : Rg) (c : Bool) (s : State) : Res := signed d (s.readG a * s.readG b) c 1 s
def execMulh (d a b : Rg) (c : Bool) (s : State) : Res := signed d (mulHigh (s.readG a) (s.readG b)) c 1 s
def execMulhz (d a b : Rg) (c : Bool) (s : State) : Res := unsigned d (mulHighU (s.readG a) (s.readG b)) c 1 s
def execDiv (d a b : Rg) (c : Bool) (s : State) : Res := signed d (divS (s.readG a) (s.readG b)) c 1 s
def execDivz (d a b : Rg) (c : Bool) (s : State) : Res := unsigned d (divU (s.readG a) (s.readG b)) c 1 s
def execRem (d a b : Rg) (c : Bool) (s : State) : Res := signed d (remS (s.readG a) (s.readG b)) c 1 s
def execRemz (d a b : Rg) (c : Bool) (s : State) : Res := unsigned d (remU (s.readG a) (s.readG b)) c 1 s
def execAnd (d a b : Rg) (c : Bool) (s : State) : Res := signed d (s.readG a &&& s.readG b) c 1 s
def execOr (d a b : Rg) (c : Bool) (s : State) : Res := signed d (s.readG a ||| s.readG b) c 1 s
def execXor (d a b : Rg) (c : Bool) (s : State) : Res := signed d (s.readG a ^^^ s.readG b) c 1 s
def execAndn (d a b : Rg) (c : Bool) (s : State) : Res := signed d (s.readG a &&& ~~~(s.readG b)) c 1 s
def execShl (d a b : Rg) (c : Bool) (s : State) : Res := signed d (s.readG a <<< shAmt (s.readG b)) c 1 s
def execShr (d a b : Rg) (c : Bool) (s : State) : Res := signed d (s.readG a >>> shAmt (s.readG b)) c 1 s
def execSra (d a b : Rg) (c : Bool) (s : State) : Res := signed d ((s.readG a).sshiftRight (shAmt (s.readG b))) c 1 s
def execRol (d a b : Rg) (c : Bool) (s : State) : Res := signed d ((s.readG a).rotateLeft (shAmt (s.readG b))) c 1 s
def execMin (d a b : Rg) (c : Bool) (s : State) : Res := signed d (minS (s.readG a) (s.readG b)) c 1 s
def execMax (d a b : Rg) (c : Bool) (s : State) : Res := signed d (maxS (s.readG a) (s.readG b)) c 1 s
def execMinz (d a b : Rg) (c : Bool) (s : State) : Res := unsigned d (minU (s.readG a) (s.readG b)) c 1 s
def execMaxz (d a b : Rg) (c : Bool) (s : State) : Res := unsigned d (maxU (s.readG a) (s.readG b)) c 1 s
def execClz (d a : Rg) (c : Bool) (s : State) : Res := unsigned d (BitVec.ofNat 64 (leadZeros (s.readG a))) c 1 s
def execCtz (d a : Rg) (c : Bool) (s : State) : Res := unsigned d (BitVec.ofNat 64 (trailZeros (s.readG a))) c 1 s
def execPop (d a : Rg) (c : Bool) (s : State) : Res := unsigned d (BitVec.ofNat 64 (onesCount (s.readG a))) c 1 s
def execMov (d a : Rg) (c : Bool) (s : State) : Res := signed d (s.readG a) c 1 s
def execSext (d a pos : Rg) (c : Bool) (s : State) : Res := signed d (sextAt (s.readG a) pos.toNat) c 1 s
def execZext (d a pos : Rg) (c : Bool) (s : State) : Res := unsigned d (zextAt (s.readG a) pos.toNat) c 1 s
def execBext (d a b : Rg) (c : Bool) (s : State) : Res := unsigned d (bitsOut (s.readG a) (s.readG b)) c 1 s
def execBins (d a b : Rg) (c : Bool) (s : State) : Res := signed d (bitsIn (s.readG d) (s.readG a) (s.readG b)) c 1 s
def execAddr (d a b : Rg) (c : Bool) (s : State) : Res := signed d (s.addrOf (s.readG a) (s.readG b)) c 1 s
def execLi (d : Rg) (imm : W32) (c : Bool) (s : State) : Res := signed d (sext32 imm) c 2 s
def execLih (d : Rg) (imm : W32) (c : Bool) (s : State) : Res := signed d (liHigh (s.readG d) imm) c 2 s
def execAddi (d a : Rg) (imm : W32) (c : Bool) (s : State) : Res := signed d (s.readG a + sext32 imm) c 2 s
def execAndi (d a : Rg) (imm : W32) (c : Bool) (s : State) : Res := signed d (s.readG a &&& zext32 imm) c 2 s
def execOri (d a : Rg) (imm : W32) (c : Bool) (s : State) : Res := signed d (s.readG a ||| zext32 imm) c 2 s
def execXori (d a : Rg) (imm : W32) (c : Bool) (s : State) : Res := signed d (s.readG a ^^^ zext32 imm) c 2 s
def execShli (d a : Rg) (n : BitVec 6) (c : Bool) (s : State) : Res := signed d (s.readG a <<< n.toNat) c 2 s
def execShri (d a : Rg) (n : BitVec 6) (c : Bool) (s : State) : Res := signed d (s.readG a >>> n.toNat) c 2 s
def execSrai (d a : Rg) (n : BitVec 6) (c : Bool) (s : State) : Res := signed d ((s.readG a).sshiftRight n.toNat) c 2 s

end Sys2Proof.Machine
end

