-- ==== Sys2Proof/Machine/Net.lean ====
section
/-! DEFINITION. Net control, choice, ending, configuration periods and control registers (R142 to R159, R166 to
R169), and the events of cells: selection, deposit, arrivals (R35 to R50, R151). -/
namespace Sys2Proof.Machine

/-- Does it go to a transition, and not to a place? -/
def Cargo.arms (x : Cargo) : Bool := match x with
  | .arm _ => true
  | _ => false

namespace State

/-- The class of a count above 4,095 that a body offers to a place (R147, R150, R373, R378). -/
def countHit (s : State) (dst place n : Nat) : Hit :=
  { cls := 2, faddr := cellAddr dst + 0x20000 + 8 * place, aux := n % 4096 * 2 ^ 52 + cellAddr s.cell }

/-- Hold an action until deposit (R146). -/
def hold (s : State) (h : Held) : State := s.modMe fun f => { f with held := f.held ++ [h] }

/-- Does a cell lie outside the template instance of the current firing's task (R404)? -/
def outside (s : State) (dst : Nat) : Bool :=
  match (Tbl.find s.nets s.ctx.net).bind fun n => n.instOf s.cell with
  | some i => i.task.isSome && !i.cells.contains dst
  | none => false

/-- An item leaves the cell for another cell's place; an emission to a place out of a task's instance is a logged operation
(R404, R406). -/
def emitTo (s : State) (dst index : Nat) (x : Cargo) (rel : Option Link) : State :=
  let s := s.commit
  if s.outside dst && !x.arms then
    let (s, l) := s.logNext s.issuer
    match State.logOld l with
    | some _ => s
    | none => ((s.send (cellAddr s.cell) dst index s.ctx.net x rel).logPut l 5 0).tally s.cell s.ctx.net
        fun t => { t with emits := t.emits + 1 }
  else s.send (cellAddr s.cell) dst index s.ctx.net x rel

/-- The link of an emission with REL (R289, R290). -/
def emitLink (s : State) (rel : Option Nat) : Option Link := rel.map fun scope => s.linkOf scope

/-- A T-format item: held when local, sent when its cell is another one (R146). -/
def place' (s : State) (cell : BitVec 12) (h : Held) (index : Nat) (x : Cargo) (rel : Option Nat := none) : State :=
  match s.resolve s.cell s.ctx.net cell.toNat with
  | some c => if c = s.cell then s.hold h else s.emitTo c index x (s.emitLink rel)
  | none => s

/-- The cell of a T-format reference, for a record. -/
def refCell (s : State) (cell : BitVec 12) : Nat := (s.resolve s.cell s.ctx.net cell.toNat).getD s.cell

/-- The count of `emit` and `mset`: COUNT, or a register when A is not 0 (R147, R150). -/
def countOf (s : State) (a : Rg) (count : BitVec 12) : Nat := if a = 0 then count.toNat else (s.readG a).toNat

end State

/-! ### Token and place instructions (R147 to R152) -/

/-- The scope of an `emit` with REL. -/
def relScope (rel : Bool) (scope : BitVec 3) : Option Nat := if rel then some scope.toNat else none

/-- `emit`, count form. With REL, the cell's stores have been performed before it takes effect (R147, `State.order`). -/
def execEmit (rel : Bool) (scope : BitVec 3) (a : Rg) (place : Byte) (count cell : BitVec 12) (s : State) : Res :=
  let n := s.countOf a count
  if 4095 < n then .next (s.raise (s.countHit (s.refCell cell) place.toNat n))
  else .next ((s.place' cell (.tokens place.toNat n) place.toNat (.tokens n) (relScope rel scope)).advance 2)

/-- `emit`, word form. -/
def execEmitW (rel : Bool) (scope : BitVec 3) (a : Rg) (place : Byte) (cell : BitVec 12) (s : State) : Res :=
  let w := s.readG a
  .next ((s.place' cell (.word place.toNat w) place.toNat (.word w) (relScope rel scope)).advance 2)

/-- The oldest unread word that came from a place, and the buffer without it (R148). -/
def takeWord (p : Nat) : List (Nat × W64) → Option (W64 × List (Nat × W64))
  | [] => none
  | (q, w) :: r => if q = p then some (w, r) else (takeWord p r).map fun x => (x.1, (q, w) :: x.2)

/-- `take` (R148): under R145 it always finds a word. -/
def execTake (d : Rg) (place : Byte) (c : Bool) (s : State) : Res :=
  match takeWord place.toNat s.me.inbuf with
  | some (w, r) => signed d w c 2 (s.modMe fun f => { f with inbuf := r })
  | none => .next (s.advance 2)

/-- `mcount` (R149): COUNT of a place of the issuing cell. -/
def execMcount (d : Rg) (place : Byte) (c : Bool) (s : State) : Res :=
  unsigned d (BitVec.ofNat 64 (s.ctx.place place.toNat).n) c 2 s

/-- `mset` (R150). -/
def execMset (a : Rg) (place : Byte) (count : BitVec 12) (s : State) : Res :=
  let n := s.countOf a count
  if 4095 < n then .next (s.raise (s.countHit s.cell place.toNat n))
  else .next ((s.hold (.set place.toNat n)).advance 2)

/-- `arm` (R152). -/
def execArm (t : BitVec 6) (cell : BitVec 12) (s : State) : Res :=
  .next ((s.place' cell (.arm t.toNat) t.toNat (.arm true)).advance 2)

/-- `disarm` (R152). -/
def execDisarm (t : BitVec 6) (cell : BitVec 12) (s : State) : Res :=
  .next ((s.place' cell (.disarm t.toNat) t.toNat (.arm false)).advance 2)

/-! ### Choice, markers and ending (R153 to R157) -/

def execSel (k : BitVec 2) (s : State) : Res := .next ((s.choose true k).advance 1)
def execSelx (a : Rg) (s : State) : Res := .next ((s.choose true ((s.readG a).setWidth 2)).advance 1)
def execSafept (s : State) : Res := .next (s.advance 1)
def execHalt (s : State) : Res := .next ((s.modMe fun f => { f with halt := true }).advance 1)
/-- `trap` (R157): class 0x14, whose record carries k (R373). -/
def execTrap (k : BitVec 10) (s : State) : Res := .next (s.commit.raise { cls := 0x14, aux := k.toNat })
def execNop (s : State) : Res := .next (s.advance 1)

/-- `cfg.load` (R159): the mask is read now and applied at deposit. -/
def execCfgLoad (a : Rg) (off : W32) (s : State) : Res :=
  let e := s.ea a off
  match State.bankHit e 8 with
  | some h => .next (s.raise h)
  | none => .next ((s.modMe fun f => { f with cfg := some (BitVec.ofNat 64 (ofBytes (s.peekBank (cellAddr s.cell + e % 2 ^ 16) 8))) }).advance 2)

/-! ### Control registers (R166 to R169) -/

/-- The access of R166: priority 0 to 6 reads 0x000 to 0x004 and writes the first two; priority 7 also reaches the
system registers. -/
def csrAllowed (fw write : Bool) (k : Nat) : Bool :=
  if k ≤ 1 then true else if k ≤ 4 then !write else fw

/-- A control register as the firing reads it (R168). -/
def State.csrValue (s : State) (k : Nat) : W64 := if k = 0 then s.fstat.setWidth 64 else s.csrOf s.cell k

/-- A control-register instruction that writes (R168). -/
def csrWrite (d : Rg) (reg : BitVec 9) (new : W64 → W64) (s : State) : Res :=
  if !csrAllowed (s.prio == 7) true reg.toNat then .next (s.raise { cls := 0x0F })
  else
    let old := s.csrValue reg.toNat
    let s := (s.commit.writeG d old).setCsr s.cell reg.toNat (new old)
    let s := if reg.toNat = 0 then s.modMe fun f => { f with flags := (new old).setWidth 5 } else s
    .next (s.advance 2)

def execCsrr (d : Rg) (reg : BitVec 9) (c : Bool) (s : State) : Res :=
  if !csrAllowed (s.prio == 7) false reg.toNat then .next (s.raise { cls := 0x0F })
  else unsigned d (s.csrValue reg.toNat) c 2 s
def execCsrw (d a : Rg) (reg : BitVec 9) (s : State) : Res := csrWrite d reg (fun _ => s.readG a) s
def execCsrs (d a : Rg) (reg : BitVec 9) (s : State) : Res := csrWrite d reg (fun old => old ||| s.readG a) s
def execCsrc (d a : Rg) (reg : BitVec 9) (s : State) : Res := csrWrite d reg (fun old => old &&& ~~~(s.readG a)) s

/-! ### Selection (R38, R41, R42, R50, R159) -/

def hasCfgLoad (t : Trans) : Bool := (recInstrs t.record).any fun e => match e.2 with
  | .cfgLoad _ _ => true
  | _ => false

/-- May the net instance's cells select (R56, R270, R309, R376)? A halt and a freeze hold from the clock after them. -/
def State.netRuns (s : State) (cell : Nat) (c : Ctx) : Bool :=
  match Tbl.find s.nets c.net with
  | none => true
  | some n => notPast s.clock n.halted && notPast s.clock n.frozen && !n.done
      && (match n.instOf cell with
          | some i => !i.idle && (match i.task with
              | some k => (s.taskAt n.die k).capt.isNone
              | none => true)
          | none => true)

/-- May the cell's selection logic pick in this clock (R42, R44, R50, R159, R318, R336)? -/
def State.canSelect (s : State) (cell : Nat) : Bool :=
  let x := s.cellAt cell
  let c := x.run
  !s.mgmt.held && cellOk cell && c.valid && !x.go && decide (c.busy.length < 4) && c.picked ≠ s.clock + 1
    && c.touched ≠ s.clock + 1 && s.netRuns cell c && c.busy.all fun f => !hasCfgLoad (c.tr f.trans)

/-- The better of two candidates: priority, then the earlier start of its enabled length, then the lower index. -/
def better (a b : Nat × Trans) : Bool :=
  let pa := recPrio a.2.record
  let pb := recPrio b.2.record
  let sa := a.2.since.getD 0
  let sb := b.2.since.getD 0
  decide (pb < pa) || (pa == pb && (decide (sa < sb) || (sa == sb && decide (a.1 ≤ b.1))))

def best : List (Nat × Trans) → Option (Nat × Trans)
  | [] => none
  | a :: as => match best as with
    | none => some a
    | some b => if better a b then some a else some b

/-- The transition that selection picks: the best of those enabled since the start of the clock (R38, R50). DEDUCED (log 28): where
that is one with `cfg.load` and a firing is in progress, none is picked in the clock (R159), as R52 lets nothing enabled later
go ahead of it. -/
def Ctx.pick (c : Ctx) : Option Nat :=
  match best (c.trans.filter fun e => e.2.since.isSome && c.enabled e.1) with
  | none => none
  | some e => if hasCfgLoad e.2 && !c.busy.isEmpty then none else some e.1

/-- Reserve (R36, R41): each input arc takes its effect, and what it took goes to the firing. -/
def Ctx.reserve (c : Ctx) : List Arc → Ctx × List Deduct
  | [] => (c, [])
  | a :: as =>
    let (p, d) := a.reserve (c.place a.place)
    let (c, ds) := (c.setPlace a.place p).reserve as
    (c, d.toList ++ ds)

/-- What a firing may observe (R290): the links of the tokens that its normal arcs take, and of those on the places that its
test arcs read. -/
def Ctx.links (c : Ctx) (as : List Arc) : List Link :=
  as.flatMap fun a =>
    let p := c.place a.place
    if a.kind = 0 then (linksTaken (a.w p) p.rel).map (·.link) else if a.kind = 2 then p.rel.map (·.link) else []

def Ctx.fire (c : Ctx) (t clock : Nat) : Ctx :=
  let x := c.tr t
  let sync := c.links (recIns x.record)
  let (c, ds) := c.reserve (recIns x.record)
  let words := (recIns x.record).flatMap fun a =>
    if a.kind = 0 then (ds.filter fun d => d.place == a.place).flatMap fun d => d.words.map fun w => (d.place, w) else []
  { c.setTr t { x with since := none } with
    firings := c.firings ++ [{ id := c.nextId, trans := t, inbuf := words, taken := ds, last := clock + 1, sync := sync }]
    nextId := c.nextId + 1 }

/-- FIRING_SELECT (R50). -/
def execFiringSelect (cell : Nat) (s : State) : Res :=
  if !s.canSelect cell then .next s
  else match (s.cellAt cell).run.pick with
    | none => .next s
    | some t =>
      let net := (s.cellAt cell).run.net
      .next ((s.modSlot cell 0 fun c => { c.fire t s.clock with picked := s.clock + 1 }).modNet net
        fun n => { n with active := s.clock + 1 })

/-! ### Deposit (R41, R44, R151, R156, R159) -/

namespace State

/-- A count that a firing adds to a place at deposit; one that would pass 4,095 is refused whole (R378). -/
def addCount (s : State) (iss : Issuer) (place n : Nat) : State :=
  let p := s.ctx.place place
  if p.isControl && p.count + n ≤ 4095 then
    s.modCtx fun c => { c.setPlace place { p with count := p.count + n } with added := c.added ++ [(place, n, iss)] }
  else s.report { hit := s.countHit s.cell place n, iss := iss }

def depositTokens (s : State) (place n : Nat) : State := s.addCount s.issuer place n

/-- A local word at deposit: it joins where the place has room, else it waits at the entry (R147). -/
def depositWord (s : State) (place : Nat) (w : W64) : State :=
  let p := s.ctx.place place
  if !p.isData then s.report { hit := s.countHit s.cell place 0, iss := s.issuer }
  else if p.entry.isEmpty && p.room then s.modCtx fun c => c.setPlace place (p.join w)
  else s.modCtx fun c => c.setPlace place { p with entry := p.entry ++ [w] }

/-- A held action on a place (R151). -/
def applyHeld (s : State) : Held → State
  | .tokens p n => if n = 0 then s else s.depositTokens p n
  | .word p w => s.depositWord p w
  | .set p n => s.modCtx fun c =>
    let x := c.place p
    if x.isControl then { c.setPlace p { x with count := n, rel := [] } with added := c.added.filter fun e => e.1 ≠ p } else c
  | .arm _ => s
  | .disarm _ => s

/-- A held `arm` or `disarm` at the end of the deposit clock (R151). -/
def applyArm (s : State) : Held → State
  | .arm t => s.setArmed s.cell 0 t true
  | .disarm t => s.setArmed s.cell 0 t false
  | _ => s

/-- The mask of `cfg.load` (R159): ARMED of every loaded transition, and a new configuration period. -/
def applyCfg (s : State) (mask : Option W64) : State :=
  match mask with
  | none => s
  | some m =>
    ((s.ctx.trans.filter fun e => e.2.loaded).foldl (fun s e => s.setArmed s.cell 0 e.1 (m.getLsbD e.1)) s).modCtx
      fun c => { c with wave := none, asRel := 0, found := [] }

/-- The output arcs of the chosen group (R40). -/
def applyArcs (s : State) (code : BitVec 2) (as : List Arc) : State :=
  as.foldl (fun s a => if a.group = code.toNat then s.depositTokens a.place (a.w (s.ctx.place a.place)) else s) s

/-- What the other firings of the clock have added to the places of a firing's `mset` follows its own additions (R151, R378). -/
def readd (s : State) (held : List Held) (others : List (Nat × Nat × Issuer)) : State :=
  (others.filter fun e => held.any fun h => match h with
    | .set p _ => p == e.1
    | _ => false).foldl (fun s e => s.addCount e.2.2 e.1 e.2.1) s

/-- The body of the current firing is complete (R41). -/
def bodyDone (s : State) : Bool := s.live && s.me.wait.isNone && decide (recBlen s.myTrans.record ≤ s.me.woff)

/-- The deposit of the current firing. -/
def deposit (s : State) : State :=
  let f := s.me
  let outs := recOuts s.myTrans.record
  let others := if s.ctx.gave = s.clock + 1 then s.ctx.added else []
  let s := (s.modCtx fun c => { c with added := others }).applyCfg f.cfg
  let s := f.held.foldl applyHeld s
  let s := (s.applyArcs f.choice outs).readd f.held others
  let s := f.held.foldl applyArm s
  let net := s.ctx.net
  let s := s.modCtx fun c => Ctx.settle { c with
    fstat := c.fstat ||| f.flags, touched := s.clock + 1, gave := s.clock + 1, giver := f.id
    firings := c.firings.map fun x => if x.id = f.id then { x with ended := true, wait := none, held := [], inbuf := [], taken := [] } else x }
  if f.halt then s.modNet net fun n => { n with halted := some (n.halted.getD s.clock) } else s

end State

/-- May a firing deposit in a clock: before that clock's fabric arrivals, and after the deposits of firings selected earlier
(R44, R151, R378)? -/
def Ctx.mayGive (c : Ctx) (clock fid : Nat) : Bool :=
  decide (c.took ≠ clock + 1) && (decide (c.gave ≠ clock + 1) || decide (c.giver < fid))

/-- May a fabric arrival be added in a clock: after those of emitters of lower WHERE (R378)? -/
def Ctx.mayTake (c : Ctx) (clock src : Nat) : Bool := decide (c.took ≠ clock + 1) || decide (c.taker ≤ src)

/-- FIRING_DEPOSIT (R151). One with `cfg.load` waits until every store of the ending period is performed (R298). -/
def execFiringDeposit (cell fid : Nat) (s : State) : Res :=
  let t := s.focus cell fid
  if t.bodyDone && t.clockDone && t.ctx.mayGive t.clock fid && !(t.me.cfg.isSome && t.stores.any t.mine) then .next t.deposit else .next s

/-! ### Arrivals (R35, R43, R44, R146, R319) -/

namespace State

def dropFlight (s : State) (k : Nat) : State := { s with flights := s.flights.eraseIdx k }

/-- May a word, count or arming in flight arrive now: two clocks have passed, and none from its port to its place or
transition is ahead of it (R43, R146)? -/
def mayArrive (s : State) (k : Nat) (f : Flight) : Bool :=
  !f.held && decide (f.sent + 2 ≤ s.clock)
    && (s.flights.take k).all fun g =>
        g.src ≠ f.src || g.dst ≠ f.dst || g.index ≠ f.index || g.net ≠ f.net || g.cargo.arms ≠ f.cargo.arms

/-- Does R35 hold a flight: it is held, or it stands behind one from its port to its place that is? -/
def heldBack (s : State) (k : Nat) (f : Flight) : Bool :=
  f.held || (s.flights.take k).any fun g =>
    g.held && g.src == f.src && g.dst == f.dst && g.index == f.index && g.net == f.net && !f.cargo.arms

/-- A token, count or arming arrives; an arming takes effect at the end of the clock (R146). -/
def arrive (s : State) (k : Nat) : State :=
  match s.flights[k]? with
  | none => s
  | some f =>
    if !s.mayArrive k f then s
    else match (s.cellAt f.dst).slotFor f.net with
      | none => { s with flights := s.flights.set k { f with save := true } }
      | some slot => match f.cargo with
        | .tokens n =>
          if n = 0 then s.dropFlight k
          else if !((s.cellAt f.dst).slotCtx slot).mayTake s.clock f.src then s
          else (s.dropFlight k).arriveTokens f.dst slot f.index n f.src f.rel
        | .arm on => (s.dropFlight k).setArmed f.dst slot f.index on
        | .word _ => s

/-- A word arrives (R35): it joins, is held at a full place, or is discarded at a place that is no data place. -/
def arriveWord (s : State) (k : Nat) (ofHeld : Bool) : State :=
  match s.flights[k]? with
  | none => s
  | some f => match f.cargo, (s.cellAt f.dst).slotFor f.net with
    | .word w, some slot =>
      if !(if ofHeld then f.held else s.mayArrive k f) then s
      else
        let c := (s.cellAt f.dst).slotCtx slot
        let p := c.place f.index
        if !c.mayTake s.clock f.src then s
        else if !p.isData then (s.dropFlight k).overflow f.dst c.net c.asid f.index 0 f.src
        else if p.took = s.clock + 1 then s
        else if p.room && p.entry.isEmpty then
          (s.dropFlight k).modSlot f.dst slot fun c =>
            (c.setPlace f.index (p.linked 1 f.rel { p.join w with took := s.clock + 1 })).arrived s.clock f.src
        else { s with flights := s.flights.set k { f with held := true } }
    | .word _, none => { s with flights := s.flights.set k { f with save := true } }
    | _, _ => s

end State

/-- TOKEN_ARRIVAL (R35): also the arrival of a remote `arm` or `disarm` (R146). -/
def execTokenArrival (k : Nat) (s : State) : Res := .next (s.arrive k)
/-- WORD_ARRIVAL (R35). -/
def execWordArrival (k : Nat) (s : State) : Res := .next (s.arriveWord k false)
/-- HELD_WORD_DELIVERY (R35): a word that the fabric holds joins once there is room. -/
def execHeldWordDelivery (k : Nat) (s : State) : Res := .next (s.arriveWord k true)

/-- ENTRY_WORD_JOIN (R147): the first local word that waits at a place's entry joins once there is room. -/
def execEntryWordJoin (cell place : Nat) (s : State) : Res :=
  let one (k : Nat) : Option State :=
    let p := ((s.cellAt cell).slotCtx k).place place
    match p.entry with
    | [] => none
    | w :: ws =>
      if p.room then some (s.modSlot cell k fun c => { c.setPlace place { p.join w with entry := ws } with touched := s.clock + 1 })
      else none
  .next (((one 0).orElse fun _ => (one 1).orElse fun _ => one 2).getD s)

end Sys2Proof.Machine
end

