-- ==== Sys2Proof/Machine/Handle.lean ====
section
/-! DEFINITION. Cache handles: the handle table, its cached copies, and the dereference (R107 to R111). -/
namespace Sys2Proof.Machine

def hTenant (h : W64) : Nat := fld h 63 52
def hGen (h : W64) : Nat := fld h 51 40
def hIndex (h : W64) : Nat := fld h 39 20
def hBound (h : W64) : Nat := fld h 19 0

/-- The fields of a handle-table entry (R108). -/
def entV (e : BitVec 256) : Bool := e.getLsbD 255
def entTenant (e : BitVec 256) : Nat := fld e 251 240
def entGen (e : BitVec 256) : Nat := fld e 239 228
def entLbs (e : BitVec 256) : Nat := fld e 227 224
def entPool (e : BitVec 256) : Nat := fld e 191 128
def entBtab (e : BitVec 256) : Nat := fld e 127 64
def entBstride (e : BitVec 256) : Nat := fld e 63 32
def entBound (e : BitVec 256) : Nat := fld e 19 0

namespace State

/-- The entries of the handle table (R108); a base of 0 names none (R335). -/
def htLen (s : State) : Nat := if fld s.htbase 56 5 = 0 then 0 else fld s.htlen 20 0
/-- The device physical address of an entry (R335). -/
def htAddr (s : State) (ix : Nat) : Nat := fld s.htbase 56 5 * 32 + 32 * ix
/-- An entry as memory holds it. -/
def htMem (s : State) (ix : Nat) : BitVec 256 := BitVec.ofNat 256 (ofBytes (devLoad s.mem (s.htAddr ix) 32))
def htStore (s : State) (ix : Nat) (e : BitVec 256) : State :=
  { s with mem := devStore s.mem (s.htAddr ix) (toBytes 32 e.toNat)
           owners := Tbl.mapV (fun _ o => { o with hcache := Tbl.del o.hcache ix }) s.owners }

/-- A base die caches an entry, of which it holds 64 (R108); which one makes room the spec leaves open (log 9). -/
def htCache (s : State) (die ix : Nat) (e : BitVec 256) : State :=
  let c := (s.ownerAt die).hcache
  let put (s : State) (c : Tbl (BitVec 256)) : State := s.modOwner die fun o => { o with hcache := Tbl.put c ix e }
  if c.length < 64 || (Tbl.find c ix).isSome then put s c
  else
    let (k, s) := s.takeFree
    put s (c.eraseIdx (Config.freeNat k % c.length))

/-- An entry as a base die reads it (R108, R252): a cached copy that memory no longer matches is used or not, which
the spec leaves open (log 9). -/
def htRead (s : State) (die ix : Nat) : State × BitVec 256 :=
  let now := s.htMem ix
  let keep (s : State) : State := s.htCache die ix now
  match Tbl.find (s.ownerAt die).hcache ix with
  | none => (keep s, now)
  | some old =>
    if old = now then (s, now)
    else
      let (k, s) := s.takeFree
      if Config.freeBool k then (s, old) else (keep s, now)

/-- The tenant check of R110, which comes before the table is read (R396): the record shows no entry. -/
def tenantHit (asid : Nat) (h : W64) (pos : Nat) : Option Hit :=
  if hTenant h ≠ asid then some { cls := 7, faddr := h.toNat, aux := pos % 2 ^ 20 } else none

/-- The class of a read of the handle table whose frame is poisoned (R397). -/
def htPoison (s : State) (h : W64) : Option Hit :=
  if hIndex h < s.htLen && s.poisoned (s.htAddr (hIndex h)) then some (poisonHit h.toNat (s.htAddr (hIndex h))) else none

/-- The checks of R110 against an entry, after the tenant check. -/
def handleHit (s : State) (h : W64) (pos : Nat) (e : BitVec 256) : Option Hit :=
  let known := decide (hIndex h < s.htLen) && entV e
  let hit (cls : Nat) : Option Hit := some {
    cls := cls, faddr := h.toNat
    aux := (if known then entTenant e * 2 ^ 52 + entGen e * 2 ^ 40 + entBound e * 2 ^ 20 else 0) + pos % 2 ^ 20 }
  if !known then hit 6
  else if entTenant e ≠ hTenant h then hit 7
  else if hGen h ≠ entGen e then hit 6
  else if hBound h ≤ pos || entBound e < hBound h then hit 5
  else none

/-- A dereference reads the entry and checks it (R110): a class, or the entry. -/
def handleEntry (s : State) (die asid : Nat) (h : W64) (pos : Nat) : State × Except Hit (BitVec 256) :=
  match (tenantHit asid h pos).orElse fun _ => s.htPoison h with
  | some hit => (s, .error hit)
  | none =>
    let (s, e) := s.htRead die (hIndex h)
    (s, match s.handleHit h pos e with
      | some hit => .error hit
      | none => .ok e)

end State

/-- The address of the block-table entry of a position (R110). -/
def btabAddr (e : BitVec 256) (pos : Nat) : Nat := (entBtab e + 4 * (pos / 2 ^ entLbs e)) % 2 ^ 64
/-- The block that a block-table entry names, and the slot of a position in it. -/
def blockAddr (e : BitVec 256) (bt : W32) : Nat := (entPool e + fld bt 27 0 * entBstride e) % 2 ^ 64
def slotIn (e : BitVec 256) (pos : Nat) : Nat := pos % 2 ^ entLbs e
/-- The types that a block may hold (R109). -/
def btypeOk (bt : W32) : Bool := [9, 10, 11, 12, 13].contains (fld bt 31 28)
/-- Bytes for each token position (R176, R248). -/
def tokenBytes (e : BitVec 256) : Nat := entBstride e / 2 ^ entLbs e

end Sys2Proof.Machine
end

