-- ==== Sys2Proof/Machine/Float.lean ====
section
/-! DEFINITION. Number formats, exact values and rounding (03_numbers.md, R61 to R76). -/
namespace Sys2Proof.Machine

/-! ### Types and formats (R61 to R63) -/

/-- The width of a type in bits (R61). -/
def tyWidth (t : Nat) : Nat :=
  match t with
  | 0 | 13 => 4
  | 1 | 5 | 11 | 12 | 14 => 8
  | 2 | 6 | 9 | 10 => 16
  | 4 => 64
  | _ => 32
def tySigned (t : Nat) : Bool := decide (t ≤ 4)
def tyInt (t : Nat) : Bool := decide (t ≤ 7)
def tyFloat (t : Nat) : Bool := decide (8 ≤ t) && decide (t ≤ 12)

/-- A floating-point format: exponent and fraction widths, bias, and whether it has infinities (R62). -/
structure Fmt where
  ew  : Nat
  fw  : Nat
  bias : Nat
  inf : Bool

def fmtOf (t : Nat) : Fmt :=
  match t with
  | 9 => ⟨5, 10, 15, true⟩
  | 10 => ⟨8, 7, 127, true⟩
  | 11 => ⟨4, 3, 7, false⟩
  | 12 => ⟨5, 2, 15, true⟩
  | _ => ⟨8, 23, 127, true⟩

def f32 : Fmt := fmtOf 8

/-- The bits of a format's infinity without its sign. -/
def Fmt.infBits (f : Fmt) : Nat := (2 ^ f.ew - 1) * 2 ^ f.fw
/-- The canonical NaN (R62). -/
def Fmt.nanBits (f : Fmt) : Nat := if f.inf then f.infBits + 2 ^ (f.fw - 1) else f.infBits + 2 ^ f.fw - 1
/-- The bits of the largest finite value without its sign. -/
def Fmt.maxBits (f : Fmt) : Nat := if f.inf then f.infBits - 1 else f.infBits + 2 ^ f.fw - 2
def Fmt.signBit (f : Fmt) (neg : Bool) : Nat := if neg then 2 ^ (f.ew + f.fw) else 0
/-- The exponent of the smallest normal value. -/
def Fmt.emin (f : Fmt) : Int := 1 - f.bias
/-- The exponent of the largest finite value's last place, and that value in its last places. -/
def Fmt.maxLp (f : Fmt) : Int := (if f.inf then 2 ^ f.ew - 2 else 2 ^ f.ew - 1 : Nat) - (f.bias : Int) - f.fw
def Fmt.maxM (f : Fmt) : Nat := if f.inf then 2 ^ (f.fw + 1) - 1 else 2 ^ (f.fw + 1) - 2

/-- An exact value: NaN, an infinity, or a signed magnitude `m * 2 ^ e`; `m = 0` is a signed zero. -/
inductive Num where
  | nan
  | inf (neg : Bool)
  | fin (neg : Bool) (m : Nat) (e : Int)
deriving DecidableEq, Repr

namespace Num

def isNan : Num → Bool
  | .nan => true
  | _ => false
def isZero : Num → Bool
  | .fin _ 0 _ => true
  | _ => false
def isInf : Num → Bool
  | .inf _ => true
  | _ => false
def sign : Num → Bool
  | .nan => false
  | .inf n => n
  | .fin n _ _ => n
def neg : Num → Num
  | .nan => .nan
  | .inf n => .inf !n
  | .fin n m e => .fin (!n) m e
def abs : Num → Num
  | .nan => .nan
  | .inf _ => .inf false
  | .fin _ m e => .fin false m e
/-- An exact product with a power of two. -/
def scale (x : Num) (k : Int) : Num :=
  match x with
  | .fin n m e => .fin n m (e + k)
  | y => y
def ofInt (x : Int) : Num := .fin (decide (x < 0)) x.natAbs 0

end Num

/-- The value of a format's bits (R62). -/
def Fmt.value (f : Fmt) (v : Nat) : Num :=
  let neg := v / 2 ^ (f.ew + f.fw) % 2 == 1
  let e := v / 2 ^ f.fw % 2 ^ f.ew
  let m := v % 2 ^ f.fw
  if f.inf && e == 2 ^ f.ew - 1 then (if m = 0 then .inf neg else .nan)
  else if !f.inf && e == 2 ^ f.ew - 1 && m == 2 ^ f.fw - 1 then .nan
  else if e = 0 then .fin neg m (1 - f.bias - f.fw)
  else .fin neg (2 ^ f.fw + m) (e - f.bias - f.fw)

/-- The value of an E8M0 byte (R63). -/
def e8m0 (v : Nat) : Num := if v % 256 = 255 then .nan else .fin false 1 (v % 256 - 127)

/-- The integer that an integer type's bits hold. -/
def tyIntValue (t v : Nat) : Int := if tySigned t then toSigned (tyWidth t) v else (v % 2 ^ tyWidth t : Nat)

/-- The value of an element's bits; OCI4 slots decode by block (R67). -/
def tyValue (t v : Nat) : Num :=
  if tyInt t then .ofInt (tyIntValue t v) else if t = 14 then e8m0 v else (fmtOf t).value v

/-! ### Flags (R72) -/

def flNX : BitVec 5 := 1
def flUF : BitVec 5 := 2
def flOF : BitVec 5 := 4
def flDZ : BitVec 5 := 8
def flNV : BitVec 5 := 16

/-- A result's bits and the flags it sets. -/
abbrev Rounded := Nat × BitVec 5

/-! ### Rounding (R68 to R70) -/

/-- Rounding of the magnitude `m * 2 ^ e` to a multiple of `2 ^ lp` (R68, R69): the multiple, and whether it is
inexact. Modes: 0 RNE, 1 RTZ, 2 RDN, 3 RUP, 4 RNA, 5 STO with the generator's value `u`. -/
def roundMag (mode : Nat) (neg : Bool) (u : W32) (m : Nat) (e lp : Int) : Nat × Bool :=
  if lp ≤ e then (m * 2 ^ (e - lp).toNat, false)
  else
    let d := (lp - e).toNat
    let q := m / 2 ^ d
    let r := m % 2 ^ d
    let up : Bool := match mode with
      | 0 => decide (2 ^ d < 2 * r) || (2 * r == 2 ^ d && q % 2 == 1)
      | 1 => false
      | 2 => neg
      | 3 => !neg
      | 4 => decide (2 ^ d ≤ 2 * r)
      | _ => decide (2 ^ 32 ≤ r * 2 ^ 32 / 2 ^ d + u.toNat)
    if r = 0 then (q, false) else (if up then q + 1 else q, true)

/-- The last place of a nonzero magnitude in a format (R62, R69). -/
def Fmt.lastPlace (f : Fmt) (m : Nat) (e : Int) : Int := max (m.log2 + e) f.emin - f.fw

/-- A result above the range of its format (R75). -/
def Fmt.excess (f : Fmt) (mode : Nat) (sat neg : Bool) : Nat :=
  if !f.inf then (if sat then f.signBit neg + f.maxBits else f.nanBits)
  else if sat || mode == 1 || (mode == 2 && !neg) || (mode == 3 && neg) then f.signBit neg + f.maxBits
  else f.signBit neg + f.infBits

/-- RoundTo for a floating-point format (R68, R75, R76). -/
def Fmt.round (f : Fmt) (mode : Nat) (sat : Bool) (u : W32) : Num → Rounded
  | .nan => (f.nanBits, 0)
  | .inf neg =>
    if f.inf then (f.signBit neg + f.infBits, 0)
    else if sat then (f.signBit neg + f.maxBits, flOF ||| flNX) else (f.nanBits, flNV)
  | .fin neg m e =>
    if m = 0 then (f.signBit neg, 0)
    else
      let lp := f.lastPlace m e
      let (q, inexact) := roundMag mode neg u m e lp
      if f.maxLp < lp || (lp == f.maxLp && decide (f.maxM < q)) then (f.excess mode sat neg, flOF ||| flNX)
      else (f.signBit neg + (lp - (f.emin - f.fw)).toNat * 2 ^ f.fw + q,
        (if inexact then flNX else 0) ||| (if inexact && decide ((m.log2 : Int) + e < f.emin) then flUF else 0))

/-- Conversion to E8M0 (R76): the powers of two are the grid. -/
def roundE8 (mode : Nat) (u : W32) : Num → Rounded
  | .nan => (0xFF, 0)
  | .inf _ => (0xFF, flNV)
  | .fin neg m e =>
    if m = 0 || neg then (0xFF, flNV)
    else
      let k : Int := m.log2 + e
      if k < -127 then (0x00, flUF ||| flNX)
      else
        let r := m - 2 ^ m.log2
        let up : Bool := match mode with
          | 0 => decide (2 ^ m.log2 < 2 * r) || (2 * r == 2 ^ m.log2 && (k + 127) % 2 == 1)
          | 1 | 2 => false
          | 3 => true
          | 4 => decide (2 ^ m.log2 ≤ 2 * r)
          | _ => decide (2 ^ 32 ≤ r * 2 ^ 32 / 2 ^ m.log2 + u.toNat)
        let k' := if r ≠ 0 && up then k + 1 else k
        if 127 < k' then (0xFE, flOF ||| flNX) else ((k' + 127).toNat, if r = 0 then 0 else flNX)

def tyMin (t : Nat) : Int := if tySigned t then -(2 ^ (tyWidth t - 1) : Nat) else 0
def tyMax (t : Nat) : Int := if tySigned t then (2 ^ (tyWidth t - 1) : Nat) - 1 else (2 ^ tyWidth t : Nat) - 1
/-- An integer kept to a type's limits. -/
def tyClamp (t : Nat) (x : Int) : Int := max (tyMin t) (min (tyMax t) x)

/-- The integer nearest to a finite value by a mode, and whether it is inexact. -/
def roundInt (mode : Nat) (u : W32) (neg : Bool) (m : Nat) (e : Int) : Int × Bool :=
  let (q, inexact) := roundMag mode neg u m e 0
  (if neg then -(q : Int) else q, inexact)

/-- Conversion from a floating-point value to an integer type (R75, R76): it saturates and sets NV alone. -/
def roundToInt (t mode : Nat) (u : W32) : Num → Rounded
  | .nan => (0, flNV)
  | .inf neg => (wrapTo (tyWidth t) (if neg then tyMin t else tyMax t), flNV)
  | .fin neg m e =>
    let (x, inexact) := roundInt mode u neg m e
    if x < tyMin t || tyMax t < x then (wrapTo (tyWidth t) (tyClamp t x), flNV)
    else (wrapTo (tyWidth t) x, if inexact then flNX else 0)

/-- RoundTo for any type (R75, R76). -/
def roundTo (t mode : Nat) (sat : Bool) (u : W32) (x : Num) : Rounded :=
  if tyInt t then roundToInt t mode u x else if t = 14 then roundE8 mode u x else (fmtOf t).round mode sat u x

/-- An exact integer result in an integer type (R75, R219): it wraps, or saturates and sets OF and NX. -/
def fitInt (t : Nat) (sat : Bool) (x : Int) : Rounded :=
  if sat && (decide (x < tyMin t) || decide (tyMax t < x)) then (wrapTo (tyWidth t) (tyClamp t x), flOF ||| flNX)
  else (wrapTo (tyWidth t) x, 0)

/-- One step of a generator (R70). -/
def genStep (s : W32) : W32 :=
  let s := s ^^^ (s <<< 13)
  let s := s ^^^ (s >>> 17)
  s ^^^ (s <<< 5)

/-! ### Exact sums and products (R65, R219, R222) -/

/-- An exact product; an infinity times a zero is an invalid NaN. -/
def numMul (a b : Num) : Num × BitVec 5 :=
  match a, b with
  | .nan, _ => (.nan, 0)
  | _, .nan => (.nan, 0)
  | .fin n m e, .fin n' m' e' => (.fin (n != n') (m * m') (e + e'), 0)
  | x, y => if x.isZero || y.isZero then (.nan, flNV) else (.inf (x.sign != y.sign), 0)

/-- A finite value in units of `2 ^ e0`, for `e0` at most its exponent. -/
def Num.units (e0 : Int) : Num → Int
  | .fin n m e => let x := m * 2 ^ (e - e0).toNat
                  if n then -(x : Int) else x
  | _ => 0

/-- The least exponent of the nonzero finite terms. -/
def leastExp : List Num → Int
  | [] => 0
  | [.fin _ _ e] => e
  | .fin _ m e :: xs => let r := leastExp xs
                        if m = 0 then r else if e < r || xs.all Num.isZero then e else r
  | _ :: xs => leastExp xs

/-- The exact sum of terms. An exact zero is -0 when every term is -0, else +0, or -0 in RDN (R219). -/
def numSum (mode : Nat) (xs : List Num) : Num :=
  if xs.any Num.isNan || (xs.any (· == .inf true) && xs.any (· == .inf false)) then .nan
  else if xs.any (· == .inf true) then .inf true
  else if xs.any (· == .inf false) then .inf false
  else
    let e := leastExp xs
    let t := (xs.map (Num.units e)).sum
    if t = 0 then .fin ((!xs.isEmpty && xs.all fun x => x.sign) && xs.all Num.isZero || mode == 2) 0 0
    else .fin (decide (t < 0)) t.natAbs e

/-- NV of a sum: its terms hold infinities of both signs (R222); for the sum of an operation's few operands no
flag where one of them is NaN (R65). -/
def sumInvalid (xs : List Num) : Bool := xs.any (· == .inf true) && xs.any (· == .inf false)

/-- Comparison of two values that are no NaN: less, equal, greater; zeros are equal. -/
def numCmp (a b : Num) : Ordering :=
  match a, b with
  | .inf n, .inf n' => if n == n' then .eq else if n then .lt else .gt
  | .inf n, _ => if n then .lt else .gt
  | _, .inf n => if n then .gt else .lt
  | x, y =>
    let e := leastExp [x, y]
    compare (x.units e) (y.units e)

/-- The choice code of a value (R39). -/
def codeNum (x : Num) : BitVec 2 :=
  if x.isNan then 3 else if x.isZero then 1 else if x.sign then 2 else 0

/-! ### OCI4 blocks (R67) -/

/-- The values of the slots of one block from a slot on, before the scale: NaN at an escape in slot 30 or 31. -/
def ociFrom (slots : List Nat) (i : Nat) : Nat → List Num
  | 0 => []
  | fuel + 1 =>
    if 32 ≤ i then []
    else
      let c := slots.getD i 0
      if c = 8 then
        if 29 < i then .nan :: ociFrom slots (i + 1) fuel
        else
          (fmtOf 11).value (slots.getD (i + 1) 0 * 16 + slots.getD (i + 2) 0) :: .fin false 0 0 :: .fin false 0 0
            :: ociFrom slots (i + 3) fuel
      else .ofInt (toSigned 4 c) :: ociFrom slots (i + 1) fuel

/-- Is there an escape in slot 30 or 31? -/
def ociBadFrom (slots : List Nat) (i : Nat) : Nat → Bool
  | 0 => false
  | fuel + 1 =>
    if 32 ≤ i then false
    else if slots.getD i 0 = 8 then (if 29 < i then true else ociBadFrom slots (i + 3) fuel)
    else ociBadFrom slots (i + 1) fuel

/-- The values of a block of 32 slots under its scale byte. -/
def ociBlock (slots : List Nat) (sc : Nat) : List Num :=
  if sc = 255 then List.replicate 32 .nan else (ociFrom slots 0 32).map fun x => x.scale (sc - 127)

end Sys2Proof.Machine
end

