-- ==== Sys2Proof/Machine/Special.lean ====
section
/-! DEFINITION. The special functions as exact values (R232, R233). Where a value is irrational, a fixed-point
number with many more bits than any format's last place stands for it, its lowest bit odd, so that every rounding of
it is the rounding of the exact value (log 13). -/
namespace Sys2Proof.Machine

/-- The bits of fixed point that the series carry, and the bits that a result keeps. -/
def fixBits : Nat := 1024
def keepBits : Nat := 512
def fixOne : Nat := 2 ^ fixBits
def fixMul (a b : Nat) : Nat := a * b / fixOne

/-- Integer square root, bit by bit from bit `k - 1` down. -/
def isqrtFrom (n r : Nat) : Nat → Nat
  | 0 => r
  | k + 1 => if (r + 2 ^ k) * (r + 2 ^ k) ≤ n then isqrtFrom n (r + 2 ^ k) k else isqrtFrom n r k
def isqrt (n : Nat) : Nat := isqrtFrom n 0 (n.log2 / 2 + 1)

/-- The sum of t^(2j+1) / (2j+1) with alternating signs or not, as positive and negative parts. -/
def oddSeries (t2 term j : Nat) (alt : Bool) : Nat → Nat × Nat
  | 0 => (0, 0)
  | fuel + 1 =>
    if term = 0 then (0, 0)
    else
      let (a, b) := oddSeries t2 (fixMul term t2) (j + 1) alt fuel
      let x := term / (2 * j + 1)
      if alt then (b + x, a) else (a + x, b)
def artanh (t : Nat) : Nat := (oddSeries (fixMul t t) t 0 false 1100).1
def arctanInv (n : Nat) : Nat :=
  let t := fixOne / n
  let (a, b) := oddSeries (fixMul t t) t 0 true 1100
  a - b
def ln2Fix : Nat := 2 * artanh (fixOne / 3)
def piFix : Nat := 16 * arctanInv 5 - 4 * arctanInv 239

/-- The exponential series of 0 ≤ y < 1. -/
def expSeries (y term k : Nat) : Nat → Nat
  | 0 => 0
  | fuel + 1 => if term = 0 then 0 else term + expSeries y (fixMul term y / (k + 1)) (k + 1) fuel
/-- 2^f for a fraction f. -/
def exp2Frac (f : Nat) : Nat := expSeries (fixMul f ln2Fix) fixOne 0 300
/-- e^(-y) for y ≥ 0 in fixed point. -/
def expNeg (y : Nat) : Nat :=
  let z := y * fixOne / ln2Fix
  let n := z / fixOne + 1
  exp2Frac (n * fixOne - z) / 2 ^ n
/-- The natural logarithm of 1 ≤ z < 2. -/
def lnFix (z : Nat) : Nat := 2 * artanh ((z - fixOne) * fixOne / (z + fixOne))

/-- A magnitude in fixed point; no format of R232 has bits below 2^-149. -/
def fixOf (m : Nat) (e : Int) : Nat := if 0 ≤ e then m * 2 ^ e.toNat * fixOne else m * fixOne / 2 ^ (-e).toNat

/-- An irrational value between two kept fixed-point numbers, times `m * 2 ^ e`. -/
def inexactNum (neg : Bool) (x : Nat) (m : Nat) (e : Int) : Num :=
  .fin neg ((2 * (x / 2 ^ (fixBits - keepBits)) + 1) * m) (e - keepBits - 1)
/-- Just below `m * 2 ^ e`, and just above 0. -/
def justBelow (neg : Bool) (m : Nat) (e : Int) : Num := .fin neg (m * 2 ^ 512 - 1) (e - 512)
def tinyNum (neg : Bool) : Num := .fin neg 1 (-512)

/-- Is a magnitude above an integer? -/
def above (k m : Nat) (e : Int) : Bool := decide (k * fixOne < fixOf m (min e 16))

def exp2Num (neg : Bool) (m : Nat) (e : Int) : Num :=
  if above 400 m e then (if neg then tinyNum false else .fin false 1 400)
  else
    let x := fixOf m e
    let n := x / fixOne
    let f := x % fixOne
    if f = 0 then .fin false 1 (if neg then -(n : Int) else n)
    else if neg then inexactNum false (exp2Frac (fixOne - f)) 1 (-(n : Int) - 1)
    else inexactNum false (exp2Frac f) 1 n

/-- log2 of a positive magnitude. -/
def log2Num (m : Nat) (e : Int) : Num :=
  let k := m.log2
  let n : Int := k + e
  if m = 2 ^ k then .ofInt n
  else
    let l := lnFix (m * fixOne / 2 ^ k) * fixOne / ln2Fix
    let t : Int := n * fixOne + l
    if 0 ≤ t then inexactNum false t.toNat 1 0 else inexactNum true (-t).toNat 1 0

def rcpNum (neg : Bool) (m : Nat) (e : Int) : Num :=
  let q := 2 ^ 512 / m
  .fin neg (2 * q + (if 2 ^ 512 % m = 0 then 0 else 1)) (-e - 513)

/-- A magnitude with an even exponent. -/
def evenExp (m : Nat) (e : Int) : Nat × Int := if e % 2 = 0 then (m, e) else (2 * m, e - 1)
def sqrtNum (m : Nat) (e : Int) : Num :=
  let (m, e) := evenExp m e
  let r := isqrt (m * 2 ^ 256)
  .fin false (2 * r + (if r * r = m * 2 ^ 256 then 0 else 1)) (e / 2 - 129)
def rsqrtNum (m : Nat) (e : Int) : Num :=
  let (m, e) := evenExp m e
  let r := isqrt (2 ^ 512 / m)
  .fin false (2 * r + (if r * r * m = 2 ^ 512 then 0 else 1)) (-(e / 2) - 257)

def tanhNum (neg : Bool) (m : Nat) (e : Int) : Num :=
  if above 150 m e then justBelow neg 1 0
  else
    let x := expNeg (2 * fixOf m e)
    inexactNum neg ((fixOne - x) * fixOne / (fixOne + x)) 1 0
/-- The logistic function of a nonzero value as a fixed-point number. -/
def sigFix (neg : Bool) (m : Nat) (e : Int) : Nat :=
  let x := expNeg (fixOf m e)
  (if neg then x else fixOne) * fixOne / (fixOne + x)
def sigNum (neg : Bool) (m : Nat) (e : Int) : Num :=
  if above 300 m e then (if neg then tinyNum false else justBelow false 1 0)
  else inexactNum false (sigFix neg m e) 1 0
def siluNum (neg : Bool) (m : Nat) (e : Int) : Num :=
  if above 300 m e then (if neg then tinyNum true else justBelow false m e)
  else inexactNum neg (sigFix neg m e) m e

/-- The sum of x^(2j+1) / (2j+1)!!. -/
def normSeries (x2 term j : Nat) : Nat → Nat
  | 0 => 0
  | fuel + 1 => if term = 0 then 0 else term + normSeries x2 (fixMul term x2 / (2 * j + 3)) (j + 1) fuel
/-- The normal distribution function of a nonzero value, as a fixed-point number. -/
def phiFix (neg : Bool) (m : Nat) (e : Int) : Nat :=
  let x := fixOf m e
  let x2 := fixMul x x
  let t := fixMul (normSeries x2 x 0 1500) (expNeg (x2 / 2)) * fixOne / isqrt (2 * piFix * fixOne)
  if neg then fixOne / 2 - t else fixOne / 2 + t
def geluNum (neg : Bool) (m : Nat) (e : Int) : Num :=
  if above 16 m e then (if neg then tinyNum true else justBelow false m e)
  else inexactNum neg (phiFix neg m e) m e

/-- The exact value of a special function and the flags that its operand sets (R232, R233): `fn` is FN of R232. -/
def specialNum (fn : Nat) : Num → Num × BitVec 5
  | .nan => (.nan, 0)
  | .inf neg => match fn with
    | 0 => (if neg then .fin false 0 0 else .inf false, 0)
    | 1 => if neg then (.nan, flNV) else (.inf false, 0)
    | 2 => (.fin neg 0 0, 0)
    | 3 => if neg then (.nan, flNV) else (.fin false 0 0, 0)
    | 4 => if neg then (.nan, flNV) else (.inf false, 0)
    | 5 => (.fin neg 1 0, 0)
    | 6 => (if neg then .fin false 0 0 else .fin false 1 0, 0)
    | _ => (if neg then .fin true 0 0 else .inf false, 0)
  | .fin neg m e =>
    if m = 0 then match fn with
      | 0 => (.fin false 1 0, 0)
      | 1 => (.inf true, flDZ)
      | 2 => (.inf neg, flDZ)
      | 3 => (.inf neg, flDZ)
      | 6 => (.fin false 1 (-1), 0)
      | _ => (.fin neg 0 0, 0)
    else match fn with
      | 0 => (exp2Num neg m e, 0)
      | 1 => if neg then (.nan, flNV) else (log2Num m e, 0)
      | 2 => (rcpNum neg m e, 0)
      | 3 => if neg then (.nan, flNV) else (rsqrtNum m e, 0)
      | 4 => if neg then (.nan, flNV) else (sqrtNum m e, 0)
      | 5 => (tanhNum neg m e, 0)
      | 6 => (sigNum neg m e, 0)
      | 7 => (siluNum neg m e, 0)
      | _ => (geluNum neg m e, 0)

/-- The FP32 error bound of a function in units in the last place; 0 where it is correctly rounded (R232). -/
def specialUlps (fn : Nat) : Nat :=
  match fn with
  | 4 => 0
  | 5 | 6 => 2
  | 7 => 3
  | 8 => 4
  | _ => 1

/-- An FP32 result within `n` units in the last place of the exact value: `k` picks one of them (log 12). A value
that is representable is returned as it is. -/
def looseRound (n k : Nat) (sat : Bool) (x : Num) : Rounded :=
  match x with
  | .fin neg m e =>
    let lp := f32.lastPlace m e
    let (q, inexact) := roundMag 1 neg 0 m e lp
    if m = 0 || !inexact || n = 0 then f32.round 0 sat 0 x
    else
      let v : Int := 2 * q - 2 * (n - 1) + (k % (4 * n - 1) : Nat)
      let (r, fl) := f32.round (if lp < f32.maxLp then 1 else 0) sat 0 (.fin (neg != decide (v < 0)) v.natAbs (lp - 1))
      (r, fl ||| flNX ||| (if (m.log2 : Int) + e < f32.emin then flUF else 0))
  | y => f32.round 0 sat 0 y

end Sys2Proof.Machine
end

