-- ==== Sys2Proof/Machine/Operands.lean ====
section
/-! DEFINITION. The operand forms of vector instructions: selectors and shape records, element slots, block scales,
the checks at issue, groups and their order (R206 to R215), and the generator's steps (R69, R70). -/
namespace Sys2Proof.Machine

/-- A shape record (R208). `clean` says that its reserved fields are 0. -/
structure Shape where
  ty    : Nat := 0
  rnd   : Nat := 0
  ndm1  : Nat := 0
  lane  : Bool := false
  pack  : Nat := 0
  sv    : Bool := false
  scale : Nat := 0
  base  : Nat := 0
  exts  : List Nat := []
  strs  : List Int := []
  clean : Bool := true
deriving DecidableEq, Repr

def shapeOf (bs : List Byte) : Shape :=
  let w (k : Nat) : W64 := BitVec.ofNat 64 (ofBytes ((bs.drop (8 * k)).take 8))
  let st (x : W64) (hi lo : Nat) : Int := toSigned 32 (fld x hi lo)
  { ty := fld (w 0) 63 60, rnd := fld (w 0) 59 57, ndm1 := fld (w 0) 56 55, lane := (w 0).getLsbD 54
    pack := fld (w 0) 53 52, sv := (w 0).getLsbD 51, scale := fld (w 0) 47 32, base := fld (w 0) 31 16
    exts := [fld (w 1) 63 48, fld (w 1) 47 32, fld (w 1) 31 16, fld (w 1) 15 0]
    strs := [st (w 2) 63 32, st (w 2) 31 0, st (w 3) 63 32, st (w 3) 31 0]
    clean := fld (w 0) 50 48 == 0 && fld (w 0) 15 0 == 0 && (bs.drop 32).all (· == 0) }

namespace Shape

/-- The number of elements: the product of the extents. -/
def n (h : Shape) : Nat := h.exts.foldl (· * ·) 1
def ext0 (h : Shape) : Nat := h.exts.headD 1
def str0 (h : Shape) : Int := h.strs.headD 1
def w (h : Shape) : Nat := tyWidth h.ty
/-- The width of a slot (R209). -/
def slotW (h : Shape) : Nat := if h.pack = 1 then 2 * h.w else h.w

/-- The slot of an iteration index, dimension 0 fastest (R209). -/
def slotFrom (i : Nat) : List Nat → List Int → Int
  | e :: es, s :: ss => (i % e : Nat) * s + slotFrom (i / e) es ss
  | _, _ => 0
def slot (h : Shape) (i : Nat) : Int := slotFrom i h.exts h.strs

/-- The byte at which a slot starts (R209). -/
def byteAt (h : Shape) (e : Int) : Int := if h.slotW < 8 then h.base + e / 2 else h.base + e * (h.slotW / 8 : Nat)

/-- The lowest and highest slot. -/
def lowSlot (h : Shape) : Int := ((h.exts.zip h.strs).map fun p => min 0 (((p.1 : Int) - 1) * p.2)).sum
def highSlot (h : Shape) : Int := ((h.exts.zip h.strs).map fun p => max 0 (((p.1 : Int) - 1) * p.2)).sum
def lastByte (h : Shape) : Int := h.byteAt h.highSlot + (h.slotW / 8 - 1 : Nat)
/-- The end of the bank or of the lane file. -/
def limit (h : Shape) : Nat := if h.lane then 512 else 65536

/-- Check 2 of R211, with R208 and R210. -/
def wellFormed (h : Shape) : Bool :=
  h.clean && h.ty ≠ 15 && decide (h.pack ≤ 1) && h.exts.all (· ≠ 0)
  && ((List.range 4).all fun k => decide (k ≤ h.ndm1) || (h.exts.getD k 1 == 1 && h.strs.getD k 0 == 0))
  && (!h.lane || decide (h.base ≤ 511)) && (h.sv || h.scale == 0)
  && (!h.sv || ([0, 1, 11, 12, 13].contains h.ty && h.str0 == 1 && h.ext0 % 32 == 0))
  && (h.ty ≠ 13 || h.sv)

/-- Widened packing only for types of 16 bits or fewer (R209). -/
def packOk (h : Shape) : Bool := h.pack == 0 || decide (h.w ≤ 16)

/-- Check 6 of R211: every slot and scale byte in range; the class names the first byte out of it. -/
def rangeHit (h : Shape) : Option Hit :=
  let hit (a : Int) : Option Hit := some { cls := 3, faddr := wrapTo 64 a, aux := max 1 (h.slotW / 8) * 2 ^ 32 }
  if h.byteAt h.lowSlot < 0 then hit (h.byteAt h.lowSlot)
  else if h.limit ≤ h.lastByte then hit (h.byteAt h.highSlot)
  else if h.sv && decide (0xFFFF < h.scale + (h.n - 1) / 32) then
    some { cls := 3, faddr := h.scale + (h.n - 1) / 32, aux := 2 ^ 32 }
  else none

end Shape

namespace State

/-- Check 1 of R211: the address of a selector's record, whose bytes lie wholly in a bank (R206). -/
def selAddr (s : State) (k : Nat) : Except Hit Nat :=
  let v := s.readSh k
  let a := fld v 47 0
  let h : Hit := { cls := 3, faddr := a, aux := 64 * 2 ^ 32 }
  if a % 64 ≠ 0 then .error h
  else if v.getLsbD 63 then
    if faWin a ≠ 0 || decide (48 ≤ faUnit a) || (winHit false false a 64).isSome then .error h else .ok a
  else if 2 ^ 16 ≤ a then .error h else .ok (cellAddr s.cell + a)

/-- The bytes of the records that selectors name, as they stand (R207). -/
def recordsAt (s : State) : List Nat → Except Hit (List (List Byte))
  | [] => .ok []
  | k :: ks => match s.selAddr k, s.recordsAt ks with
    | .ok a, .ok bs => .ok (s.peekBank a 64 :: bs)
    | .error h, _ => .error h
    | _, .error h => .error h

/-- The records of the current firing's vector instruction: those it read as it issued, where it has, else as they stand. -/
def shapes (s : State) (sels : List Nat) : Except Hit (List Shape) :=
  match s.me.recs with
  | some bs => .ok (bs.map shapeOf)
  | none => (s.recordsAt sels).map fun bs => bs.map shapeOf

/-- The cell has read the record that a selector names: with FAB = 1, in another bank, a fabric load (R207). -/
def sawRecord (s : State) (k : Nat) : State :=
  match s.selAddr k with
  | .ok a => s.sawBank a 64
  | .error _ => s

/-- It has read the records of an instruction, where it had not before. -/
def sawRecords (s : State) (sels : List Nat) : State := if s.me.recs.isSome then s else sels.foldl sawRecord s

/-! ### Elements -/

def laneByte (s : State) (b : Nat) : Byte := ((s.readV (b / 64 % 8)) >>> (8 * (b % 64))).setWidth 8
/-- A byte of the lane file as it stands for the current firing. -/
def heldByte (s : State) (b : Nat) : Byte := ((s.heldV (b / 64 % 8)) >>> (8 * (b % 64))).setWidth 8
/-- A lane with one byte written. -/
def withByte (l : Lane) (b : Nat) (x : Byte) : Lane :=
  (l &&& ~~~((0xFF : Lane) <<< (8 * (b % 64)))) ||| (x.setWidth 512 <<< (8 * (b % 64)))
/-- A byte of the lane file written; the instruction reads it so from then on, also where it keeps the lane that it read (R95). -/
def setLaneByte (s : State) (b : Nat) (x : Byte) : State :=
  let n := b / 64 % 8
  (s.writeV n (withByte (s.heldV n) b x)).modMe fun f => match Tbl.find f.keep.v n with
    | some l => { f with keep := { f.keep with v := Tbl.put f.keep.v n (withByte l b x) } }
    | none => f

/-- Bytes of the bank or the lane file. -/
def elemBytes (s : State) (lane : Bool) (b n : Nat) : List Byte :=
  if lane then (List.range n).map fun j => s.laneByte (b + j) else s.bankRead b n
def setElemBytes (s : State) (lane : Bool) (b : Nat) (xs : List Byte) : State :=
  if lane then (xs.zipIdx).foldl (fun s e => s.setLaneByte (b + e.2) e.1) s else s.bankWrite b xs

/-- The raw bits of an element (R209). -/
def rawElem (s : State) (h : Shape) (i : Nat) : Nat :=
  let e := h.slot i
  let b := (h.byteAt e).toNat
  if h.slotW < 8 then ((s.elemBytes h.lane b 1).headD 0).toNat / (if e % 2 = 0 then 1 else 16) % 16
  else ofBytes (s.elemBytes h.lane b (h.slotW / 8)) % 2 ^ h.w

/-- An element written: in a widened slot the high bits copy the sign for signed integers, else 0 (R209). -/
def putElem (s : State) (h : Shape) (i x : Nat) : State :=
  let e := h.slot i
  let b := (h.byteAt e).toNat
  if h.slotW < 8 then
    let old := (if h.lane then s.heldByte b else (s.bankRead b 1).headD 0).toNat
    let new := if e % 2 = 0 then old / 16 * 16 + x % 16 else x % 16 * 16 + old % 16
    s.setElemBytes h.lane b [BitVec.ofNat 8 new]
  else
    let x := x % 2 ^ h.w
    let x := if h.pack = 1 && tySigned h.ty then wrapTo h.slotW (toSigned h.w x) else x
    s.setElemBytes h.lane b (toBytes (h.slotW / 8) x)

def numElem (s : State) (h : Shape) (i : Nat) : Num := tyValue h.ty (s.rawElem h i)
def intElem (s : State) (h : Shape) (i : Nat) : Int := tyIntValue h.ty (s.rawElem h i)

/-- The scale byte of a block (R210). -/
def scaleByte (s : State) (h : Shape) (b : Nat) : Nat := ((s.bankRead (h.scale + b) 1).headD 0).toNat

/-- The values of one block of 32 elements under its scale (R67, R210), and NV for an escape in slot 30 or 31. -/
def blockValues (s : State) (h : Shape) (b : Nat) : List Num × BitVec 5 :=
  let raws := (List.range 32).map fun j => s.rawElem h (32 * b + j)
  let sc := s.scaleByte h b
  if h.ty = 13 then (ociBlock raws sc, if sc ≠ 255 && ociBadFrom raws 0 32 then flNV else 0)
  else if sc = 255 then (List.replicate 32 .nan, 0)
  else (raws.map fun x => (tyValue h.ty x).scale (sc - 127), 0)

/-- The values of a record's elements in order, block scales applied. -/
def shapeValues (s : State) (h : Shape) : List Num × BitVec 5 :=
  if h.sv then
    let bs := (List.range (h.n / 32)).map (s.blockValues h)
    (bs.flatMap (·.1), bs.foldl (fun f b => f ||| b.2) 0)
  else ((List.range h.n).map (s.numElem h), 0)

/-! ### The checks at issue (R211) and the work (R214) -/

end State

/-- The most elements of a group (R214): one where a record has STR0 ≠ 1. -/
def groupLen (hs : List Shape) : Nat :=
  if hs.any fun h => h.str0 ≠ 1 then 1 else 512 / (hs.foldl (fun m h => max m h.slotW) 4)
/-- The number of groups, counted over one record. -/
def groupCount (hs : List Shape) (h : Shape) : Nat :=
  let k := groupLen hs
  h.n / h.ext0 * ((h.ext0 + k - 1) / k)

/-- Iteration indices from `lo` up to `hi` in pieces of `k`. -/
def cutRun (k lo hi : Nat) : Nat → List (List Nat)
  | 0 => []
  | fuel + 1 => if hi ≤ lo then [] else (List.range (min k (hi - lo))).map (lo + ·) :: cutRun k (lo + k) hi fuel
/-- The groups of a record's indices: none crosses the end of a dimension-0 run. -/
def groupsOf (hs : List Shape) (h : Shape) : List (List Nat) :=
  (List.range (h.n / h.ext0)).flatMap fun r => cutRun (groupLen hs) (r * h.ext0) ((r + 1) * h.ext0) h.ext0

namespace State

/-- The checks of R211 in their order: the records and the resolved rounding mode. -/
def vecCheck (s : State) (v : VOp) (sels : List Nat) (entry : List Shape → Bool) (work : List Shape → Nat) :
    Except Hit (List Shape × Nat) :=
  match s.shapes sels with
  | .error h => .error h
  | .ok hs =>
    let mode := if v.rnd = 7 then (hs.headD {}).rnd else v.rnd.toNat
    if !(hs.all Shape.wellFormed) || !(hs.all Shape.packOk && entry hs) || 6 ≤ mode || 60 < work hs then
      .error { cls := 0x0E }
    else match hs.findSome? Shape.rangeHit with
      | some h => .error h
      | none => .ok (hs, mode)

/-! ### Forming and writing elements (R69, R70, R215) -/

/-- The generator that the current firing's vector instruction steps: the cell's, or, where `cr.sgen` has been written since
it issued, the one that this replaced (R169). -/
def gen (s : State) : W32 :=
  match s.me.genEp with
  | some e => if e = s.ctx.genEp then s.ctx.sgen else Tbl.get 1 s.ctx.gens e
  | none => s.ctx.sgen
def genTo (s : State) (u : W32) : State :=
  match s.me.genEp with
  | some e => if e = s.ctx.genEp then s.modCtx fun c => { c with sgen := u } else s.modCtx fun c => { c with gens := Tbl.put c.gens e u }
  | none => s.modCtx fun c => { c with sgen := u }

/-- One step of the generator. -/
def genNext (s : State) : State × W32 :=
  let u := genStep s.gen
  (s.genTo u, u)

/-- The elements of a group formed from the state `s0` before any of them is written, in ascending index; each takes
a generator step where it rounds in STO mode. -/
def formGroup (s0 : State) (sto : Bool) (f : State → Nat → W32 → Rounded) (s : State) :
    List Nat → State × List (Nat × Nat) × BitVec 5
  | [] => (s, [], 0)
  | i :: is =>
    let (s, u) := if sto then s.genNext else (s, 0)
    let (x, fl) := f s0 i u
    let (s, xs, fls) := formGroup s0 sto f s is
    (s, (i, x) :: xs, fl ||| fls)

def putAll (s : State) (h : Shape) (xs : List (Nat × Nat)) : State := xs.foldl (fun s e => s.putElem h e.1 e.2) s

/-- Group by group (R215): the sources of a group are read before it is written. -/
def runGroups (dst : Shape) (sto : Bool) (f : State → Nat → W32 → Rounded) (s : State) :
    List (List Nat) → State × BitVec 5
  | [] => (s, 0)
  | g :: gs =>
    let (s, xs, fl) := formGroup s sto f s g
    let (s, fls) := runGroups dst sto f (s.putAll dst xs) gs
    (s, fl ||| fls)

/-- The bytes of its cell's bank that a record's slots and scale bytes touch. -/
def shapeUnits (s : State) (h : Shape) : List Nat :=
  let at' (b n : Nat) : List Nat := unitsOf false (cellAddr s.cell + b) n
  ((if h.lane then [] else (List.range h.n).flatMap fun i => at' (h.byteAt (h.slot i)).toNat (max 1 (h.slotW / 8)))
    ++ (if h.sv then at' h.scale ((h.n + 31) / 32) else [])).eraseDups

/-- What a vector instruction has written to the bank is performed at every scope, and the cell reads nothing older (R216). -/
def vecMark (s : State) (h : Shape) : State :=
  let us := s.shapeUnits h
  if us.isEmpty then s else (s.modCtx fun c => c.wrote us s.version).logWrites us { ver := s.version, cell := s.cell }

/-- How every vector instruction runs (R207, R211, R213, R216): its records are read, its checks made, and its work done; a
bank destination passes the commit point. -/
def vecRun (s : State) (v : VOp) (sels : List Nat) (entry : List Shape → Bool) (work : List Shape → Nat)
    (run : List Shape → Nat → State → State) : Res :=
  match s.vecCheck v sels entry work with
  | .error h => .next ((s.sawRecords sels).raise h)
  | .ok (hs, mode) =>
    let s := s.sawRecords sels
    let s := if (hs.headD {}).lane then s else s.commit
    .next (((run hs mode s).vecMark (hs.headD {})).advance 2)

/-- A vector instruction with its flags and its choice code (R217). -/
def vec (s : State) (v : VOp) (c : Bool) (sels : List Nat) (entry : List Shape → Bool) (work : List Shape → Nat)
    (run : List Shape → Nat → State → State × BitVec 5) (code : List Shape → State → BitVec 2) : Res :=
  s.vecRun v sels entry work fun hs mode s =>
    let (s, fl) := run hs mode s
    (s.flag fl).choose c (code hs s)

/-- The choice code of the destination's last element (R217). -/
def lastCode (hs : List Shape) (s : State) : BitVec 2 :=
  let d := hs.headD {}
  codeNum (s.numElem d (d.n - 1))

end State

end Sys2Proof.Machine
end

