-- ==== Sys2Proof/Machine/Vector.lean ====
section
/-! DEFINITION. The vector instructions (08_isa_vector.md, R218 to R233). -/
namespace Sys2Proof.Machine

/-! ### Records by their role: D first, then A, B and the mask -/

def shD (hs : List Shape) : Shape := hs.headD {}
def shA (hs : List Shape) : Shape := hs.getD 1 {}
def shB (hs : List Shape) : Shape := hs.getD 2 {}
def shM (hs : List Shape) : Shape := hs.getD 3 {}

/-- Every record has the instruction's type and no block scales, and the counts are equal. -/
def plainEntry (v : VOp) (hs : List Shape) : Bool :=
  hs.all fun h => h.ty == v.ty.toNat && !h.sv && h.n == (shD hs).n
def workD (hs : List Shape) : Nat := groupCount hs (shD hs)
def workA (hs : List Shape) : Nat := groupCount hs (shA hs)
def selsDA (v : VOp) : List Nat := [v.shD.toNat, v.shA.toNat]
def selsDAB (v : VOp) : List Nat := [v.shD.toNat, v.shA.toNat, v.shB.toNat]

/-- An elementwise instruction: group by group; `rounds` says that its elements count for R69. -/
def eachElem (rounds : Bool) (f : List Shape → Nat → State → Nat → W32 → Rounded) (hs : List Shape) (mode : Nat)
    (s : State) : State × BitVec 5 :=
  State.runGroups (shD hs) (rounds && mode == 5) (f hs mode) s (groupsOf hs (shD hs))

/-- An instruction that reads everything before it writes (R215). -/
def allElems (rounds : Bool) (f : List Shape → Nat → State → Nat → W32 → Rounded) (hs : List Shape) (mode : Nat)
    (s : State) : State × BitVec 5 :=
  State.runGroups (shD hs) (rounds && mode == 5) (f hs mode) s [List.range (shD hs).n]

/-! ### Elementwise arithmetic (R218, R219) -/

inductive Arith where
  | add | sub | mul | fma | fms | nfma

def arithInt (k : Arith) (a b d : Int) : Int :=
  match k with
  | .add => a + b
  | .sub => a - b
  | .mul => a * b
  | .fma => a * b + d
  | .fms => a * b - d
  | .nfma => -(a * b) + d

/-- The exact sum of two terms; NV for ∞ - ∞. -/
def addNum (mode : Nat) (x y : Num) : Num × BitVec 5 := (numSum mode [x, y], if sumInvalid [x, y] then flNV else 0)

/-- The exact value of an operation before its rounding; a NaN operand raises no flag (R65). -/
def arithNum (k : Arith) (mode : Nat) (a b d : Num) : Num × BitVec 5 :=
  let (p, fl) := numMul a b
  let fused (x y : Num) : Num × BitVec 5 := let (r, g) := addNum mode x y
                                            (r, if d.isNan then 0 else fl ||| g)
  match k with
  | .add => addNum mode a b
  | .sub => addNum mode a b.neg
  | .mul => (p, fl)
  | .fma => fused p d
  | .fms => fused p d.neg
  | .nfma => fused p.neg d

def arithElem (k : Arith) (v : VOp) (hs : List Shape) (mode : Nat) (s : State) (i : Nat) (u : W32) : Rounded :=
  let t := v.ty.toNat
  if tyInt t then
    fitInt t v.sat (arithInt k (s.intElem (shA hs) i) (s.intElem (shB hs) i) (s.intElem (shD hs) i))
  else
    let (x, fl) := arithNum k mode (s.numElem (shA hs) i) (s.numElem (shB hs) i) (s.numElem (shD hs) i)
    let (r, g) := (fmtOf t).round mode v.sat u x
    (r, fl ||| g)

def arith (k : Arith) (v : VOp) (c : Bool) (s : State) : Res :=
  s.vec v c (selsDAB v) (plainEntry v) workD (eachElem (tyFloat v.ty.toNat) (arithElem k v)) State.lastCode

/-- The larger of two values, or the smaller (R219): NaN where either is NaN, +0 above -0. -/
def pickNum (larger : Bool) (a b : Num) : Num :=
  if a.isNan || b.isNan then .nan
  else match numCmp a b with
    | .gt => if larger then a else b
    | .lt => if larger then b else a
    | .eq => if a.sign == larger then b else a

/-- A value that is exact in its type, as bits. -/
def exactBits (t : Nat) (x : Num) : Nat :=
  if tyInt t then match x with
    | .fin n m _ => wrapTo (tyWidth t) (if n then -(m : Int) else m)
    | _ => 0
  else ((fmtOf t).round 0 false 0 x).1

def pickElem (larger : Bool) (v : VOp) (hs : List Shape) (_ : Nat) (s : State) (i : Nat) (_ : W32) : Rounded :=
  (exactBits v.ty.toNat (pickNum larger (s.numElem (shA hs) i) (s.numElem (shB hs) i)), 0)

/-- `vabs` and `vneg` (R219). -/
def signElem (negate : Bool) (v : VOp) (hs : List Shape) (_ : Nat) (s : State) (i : Nat) (_ : W32) : Rounded :=
  let t := v.ty.toNat
  if tyInt t then
    let x := s.intElem (shA hs) i
    fitInt t v.sat (if negate then -x else x.natAbs)
  else
    let x := s.numElem (shA hs) i
    (exactBits t (if negate then x.neg else x.abs), 0)

def copyElem (hs : List Shape) (_ : Nat) (s : State) (i : Nat) (_ : W32) : Rounded := (s.rawElem (shA hs) i, 0)

def execVadd (v : VOp) (c : Bool) (s : State) : Res := arith .add v c s
def execVsub (v : VOp) (c : Bool) (s : State) : Res := arith .sub v c s
def execVmul (v : VOp) (c : Bool) (s : State) : Res := arith .mul v c s
def execVfma (v : VOp) (c : Bool) (s : State) : Res := arith .fma v c s
def execVfms (v : VOp) (c : Bool) (s : State) : Res := arith .fms v c s
def execVnfma (v : VOp) (c : Bool) (s : State) : Res := arith .nfma v c s
def execVmax (v : VOp) (c : Bool) (s : State) : Res :=
  s.vec v c (selsDAB v) (plainEntry v) workD (eachElem false (pickElem true v)) State.lastCode
def execVmin (v : VOp) (c : Bool) (s : State) : Res :=
  s.vec v c (selsDAB v) (plainEntry v) workD (eachElem false (pickElem false v)) State.lastCode
def execVabs (v : VOp) (c : Bool) (s : State) : Res :=
  s.vec v c (selsDA v) (plainEntry v) workD (eachElem false (signElem false v)) State.lastCode
def execVneg (v : VOp) (c : Bool) (s : State) : Res :=
  s.vec v c (selsDA v) (plainEntry v) workD (eachElem false (signElem true v)) State.lastCode
def execVcpy (v : VOp) (c : Bool) (s : State) : Res :=
  s.vec v c (selsDA v) (plainEntry v) workD (eachElem false copyElem) State.lastCode

/-! ### Select, logic, shifts and compares (R220, R221) -/

/-- The mask record has any integer type and the destination's count (R220). -/
def selEntry (v : VOp) (hs : List Shape) : Bool :=
  plainEntry v (hs.take 3) && tyInt (shM hs).ty && !(shM hs).sv && (shM hs).n == (shD hs).n

def selElem (hs : List Shape) (_ : Nat) (s : State) (i : Nat) (_ : W32) : Rounded :=
  (if s.rawElem (shM hs) i ≠ 0 then s.rawElem (shA hs) i else s.rawElem (shB hs) i, 0)

/-- A logic or shift result on raw bits. -/
def logicElem (f : Nat → Nat → Nat → Nat) (v : VOp) (hs : List Shape) (_ : Nat) (s : State) (i : Nat) (_ : W32) : Rounded :=
  (f (tyWidth v.ty.toNat) (s.rawElem (shA hs) i) (s.rawElem (shB hs) i), 0)

def logic (f : Nat → Nat → Nat → Nat) (v : VOp) (c : Bool) (s : State) : Res :=
  s.vec v c (selsDAB v) (plainEntry v) workD (eachElem false (logicElem f v)) State.lastCode

def execVsel (v : VOp) (c : Bool) (s : State) : Res :=
  s.vec v c (selsDAB v ++ [v.imm.toNat % 16]) (selEntry v) workD (eachElem false selElem) State.lastCode
def execVand (v : VOp) (c : Bool) (s : State) : Res := logic (fun _ a b => a &&& b) v c s
def execVor (v : VOp) (c : Bool) (s : State) : Res := logic (fun _ a b => a ||| b) v c s
def execVxor (v : VOp) (c : Bool) (s : State) : Res := logic (fun _ a b => a ^^^ b) v c s
def execVshl (v : VOp) (c : Bool) (s : State) : Res := logic (fun w a b => a * 2 ^ (b % w) % 2 ^ w) v c s
def execVshr (v : VOp) (c : Bool) (s : State) : Res := logic (fun w a b => a / 2 ^ (b % w)) v c s
def execVsra (v : VOp) (c : Bool) (s : State) : Res :=
  logic (fun w a b => wrapTo w (toSigned w a / (2 ^ (b % w) : Nat))) v c s

/-- A relation of R221, by the ordering of two values that are no NaN. -/
inductive Rel where
  | eq | ne | lt | le | gt | ge

def relHolds : Rel → Ordering → Bool
  | .eq, o => o == .eq
  | .ne, o => o != .eq
  | .lt, o => o == .lt
  | .le, o => o != .gt
  | .gt, o => o == .gt
  | .ge, o => o != .lt

def relOrdered : Rel → Bool
  | .eq | .ne => false
  | _ => true

def cmpElem (r : Rel) (hs : List Shape) (_ : Nat) (s : State) (i : Nat) (_ : W32) : Rounded :=
  let a := s.numElem (shA hs) i
  let b := s.numElem (shB hs) i
  if a.isNan || b.isNan then
    ((match r with
      | .ne => 1
      | _ => 0), if relOrdered r then flNV else 0)
  else ((relHolds r (numCmp a b)).toNat, 0)

/-- The destination has any integer type (R221). -/
def cmpEntry (v : VOp) (hs : List Shape) : Bool :=
  tyInt (shD hs).ty && !(shD hs).sv && (hs.drop 1).all fun h => h.ty == v.ty.toNat && !h.sv && h.n == (shD hs).n

/-- A compare. The choice code counts the true elements of the results as formed (R217). -/
def compareOp (r : Rel) (v : VOp) (c : Bool) (s : State) : Res :=
  s.vecRun v (selsDAB v) (cmpEntry v) workD fun hs mode s =>
    let run (gs : List (List Nat)) (s : State) : State × BitVec 5 × Nat :=
      gs.foldl (fun a g =>
        let (s, xs, fl) := State.formGroup a.1 false (cmpElem r hs mode) a.1 g
        (s.putAll (shD hs) xs, a.2.1 ||| fl, a.2.2 + (xs.map (·.2)).sum)) (s, 0, 0)
    let (s, fl, n) := run (groupsOf hs (shD hs)) s
    (s.flag fl).choose c (if n = 0 then 1 else 0)

def execVcmpEq (v : VOp) (c : Bool) (s : State) : Res := compareOp .eq v c s
def execVcmpNe (v : VOp) (c : Bool) (s : State) : Res := compareOp .ne v c s
def execVcmpLt (v : VOp) (c : Bool) (s : State) : Res := compareOp .lt v c s
def execVcmpLe (v : VOp) (c : Bool) (s : State) : Res := compareOp .le v c s
def execVcmpGt (v : VOp) (c : Bool) (s : State) : Res := compareOp .gt v c s
def execVcmpGe (v : VOp) (c : Bool) (s : State) : Res := compareOp .ge v c s

/-! ### Reductions and scans (R222) -/

/-- The running values of a list of elements under an operation, from the first on. -/
def running (f : Num → Num → Num) : Option Num → List Num → List Num
  | _, [] => []
  | none, x :: xs => x :: running f (some x) xs
  | some a, x :: xs => f a x :: running f (some (f a x)) xs

/-- An exact sum as it stands in a type. -/
def sumBits (t mode : Nat) (sat : Bool) (u : W32) (x : Num) : Rounded :=
  if tyInt t then fitInt t sat (x.units 0) else (fmtOf t).round mode sat u x

/-- The values of a scan, or the last of them, the value of a reduction. -/
def prefixes (f : Num → Num → Num) (vals : List Num) (scan : Bool) : List Num :=
  let r := running f none vals
  if scan then r else [r.getLastD .nan]

def reduceSum (scan : Bool) (v : VOp) (hs : List Shape) (mode : Nat) (s : State) : State × BitVec 5 :=
  let t := v.ty.toNat
  let vals := (s.shapeValues (shA hs)).1
  let xs := prefixes (fun a b => numSum mode [a, b]) (match vals with
    | [] => []
    | x :: rest => numSum mode [x] :: rest) scan
  let (s, fl) := State.runGroups (shD hs) (tyFloat t && mode == 5)
    (fun _ i u => sumBits t mode v.sat u (xs.getD i .nan)) s [List.range (shD hs).n]
  (s, fl ||| (if sumInvalid vals then flNV else 0))

def reducePick (larger scan : Bool) (v : VOp) (hs : List Shape) (_ : Nat) (s : State) : State × BitVec 5 :=
  let t := v.ty.toNat
  let xs := prefixes (pickNum larger) (s.shapeValues (shA hs)).1 scan
  State.runGroups (shD hs) false (fun _ i _ => (exactBits t (xs.getD i .nan), 0)) s [List.range (shD hs).n]

def reduceEntry (scan : Bool) (v : VOp) (hs : List Shape) : Bool :=
  (hs.all fun h => h.ty == v.ty.toNat && !h.sv) && (shD hs).n == (if scan then (shA hs).n else 1)

def execVredSum (v : VOp) (c : Bool) (s : State) : Res :=
  s.vec v c (selsDA v) (reduceEntry false v) workA (reduceSum false v) State.lastCode
def execVredMax (v : VOp) (c : Bool) (s : State) : Res :=
  s.vec v c (selsDA v) (reduceEntry false v) workA (reducePick true false v) State.lastCode
def execVredMin (v : VOp) (c : Bool) (s : State) : Res :=
  s.vec v c (selsDA v) (reduceEntry false v) workA (reducePick false false v) State.lastCode
def execVscanSum (v : VOp) (c : Bool) (s : State) : Res :=
  s.vec v c (selsDA v) (reduceEntry true v) workA (reduceSum true v) State.lastCode
def execVscanMax (v : VOp) (c : Bool) (s : State) : Res :=
  s.vec v c (selsDA v) (reduceEntry true v) workA (reducePick true true v) State.lastCode

/-! ### Permutations and broadcast (R223) -/

def permEntry (v : VOp) (hs : List Shape) : Bool :=
  ((hs.take 2).all fun h => h.ty == v.ty.toNat && !h.sv) && [5, 6, 7].contains (shB hs).ty && !(shB hs).sv
    && (shD hs).n == (shB hs).n

def permElem (hs : List Shape) (_ : Nat) (s : State) (i : Nat) (_ : W32) : Rounded :=
  let k := s.rawElem (shB hs) i
  (if k < (shA hs).n then s.rawElem (shA hs) k else 0, 0)

def shufEntry (v : VOp) (hs : List Shape) : Bool :=
  (hs.all fun h => h.ty == v.ty.toNat && !h.sv)
    && (match v.imm.toNat with
        | 0 => (shD hs).n == 2 * (shA hs).n && (shB hs).n == (shA hs).n
        | 3 => (shA hs).n == (shD hs).n
        | _ => (shA hs).n == 2 * (shD hs).n)

def shufElem (v : VOp) (hs : List Shape) (_ : Nat) (s : State) (i : Nat) (_ : W32) : Rounded :=
  ((match v.imm.toNat with
    | 0 => s.rawElem (if i % 2 = 0 then shA hs else shB hs) (i / 2)
    | 1 => s.rawElem (shA hs) (2 * i)
    | 2 => s.rawElem (shA hs) (2 * i + 1)
    | _ => s.rawElem (shA hs) ((shA hs).n - 1 - i)), 0)

def execVperm (v : VOp) (s : State) : Res :=
  s.vec v false (selsDAB v) (permEntry v) (fun hs => (shD hs).n) (allElems false permElem) State.lastCode
def execVshuf (v : VOp) (s : State) : Res :=
  s.vec v false (if v.imm = 0 then selsDAB v else selsDA v) (shufEntry v) workD (allElems false (shufElem v)) State.lastCode
def execVbcast (a : Rg) (v : VOp) (s : State) : Res :=
  let x := (s.readG a).toNat
  s.vec v false [v.shD.toNat] (plainEntry v) workD (eachElem false fun _ _ _ _ _ => (x % 2 ^ tyWidth v.ty.toNat, 0))
    State.lastCode

/-! ### Wide integers and the dot product (R224 to R226) -/

/-- The chain length: a CHAIN field of 0 means 16. -/
def chainLen (v : VOp) : Nat := if v.chain = 0 then 16 else v.chain.toNat

/-- The integer of a chain of limbs. -/
def chainValue (s : State) (h : Shape) (l c : Nat) : Nat :=
  (List.range l).foldr (fun j r => s.rawElem h (l * c + j) + 2 ^ 32 * r) 0

def chainEntry (v : VOp) (hs : List Shape) : Bool := plainEntry v hs && (shD hs).n % chainLen v == 0

/-- `vaddc` and `vsubc` (R224). -/
def chainOp (f : Int → Int → Int) (d : Rg) (v : VOp) (c : Bool) (s : State) : Res :=
  s.vecRun v (selsDAB v) (chainEntry v) workA fun hs _ s =>
    let l := chainLen v
    let rs : List Int := (List.range ((shD hs).n / l)).map fun k =>
      f (chainValue s (shA hs) l k) (chainValue s (shB hs) l k)
    let carries := (rs.filter fun (x : Int) => decide (x < 0) || decide (((2 ^ (32 * l) : Nat) : Int) ≤ x)).length
    let (s, _) := State.runGroups (shD hs) false
      (fun _ i _ => (wrapTo (32 * l) (rs.getD (i / l) 0) / 2 ^ (32 * (i % l)) % 2 ^ 32, 0)) s [List.range (shD hs).n]
    let n := BitVec.ofNat 64 carries
    (s.writeG d n).choose c (codeUnsigned n)

def execVaddc (d : Rg) (v : VOp) (c : Bool) (s : State) : Res := chainOp (fun a b => a + b) d v c s
def execVsubc (d : Rg) (v : VOp) (c : Bool) (s : State) : Res := chainOp (fun a b => a - b) d v c s

def mulcEntry (v : VOp) (hs : List Shape) : Bool :=
  (hs.all fun h => h.ty == v.ty.toNat && !h.sv) && (shA hs).n == (shB hs).n && (shA hs).n % chainLen v == 0
    && (shD hs).n == 2 * (shA hs).n

def mulcElem (v : VOp) (hs : List Shape) (_ : Nat) (s : State) (i : Nat) (_ : W32) : Rounded :=
  let l := chainLen v
  let k := i / (2 * l)
  (chainValue s (shA hs) l k * chainValue s (shB hs) l k / 2 ^ (32 * (i % (2 * l))) % 2 ^ 32, 0)

def execVmulc (v : VOp) (c : Bool) (s : State) : Res :=
  s.vec v c (selsDAB v) (mulcEntry v) (fun hs => 2 * (shA hs).n) (allElems false (mulcElem v)) State.lastCode

/-- `vdot` with float sources or block scales has an FP32 destination, else a 32- or 64-bit integer one (R226). -/
def dotFloat (v : VOp) (hs : List Shape) : Bool := !tyInt v.ty.toNat || (shA hs).sv || (shB hs).sv
def dotEntry (v : VOp) (hs : List Shape) : Bool :=
  (shA hs).ty == v.ty.toNat && (shB hs).ty == v.ty.toNat && (shA hs).n == (shB hs).n && (shD hs).n == 1 && !(shD hs).sv
    && (if dotFloat v hs then (shD hs).ty == 8 else (shD hs).ty == 3 || (shD hs).ty == 4)

def dotRun (v : VOp) (hs : List Shape) (mode : Nat) (s : State) : State × BitVec 5 :=
  let (as, fa) := s.shapeValues (shA hs)
  let (bs, fb) := s.shapeValues (shB hs)
  let ps := List.zipWith numMul as bs
  let terms := ps.map (·.1)
  let y := numSum mode terms
  let fl := if (as ++ bs).any Num.isNan then fa ||| fb
    else ps.foldl (fun f p => f ||| p.2) (fa ||| fb) ||| (if sumInvalid terms && !(terms.any Num.isNan) then flNV else 0)
  let float := dotFloat v hs
  let (s, g) := State.runGroups (shD hs) (float && mode == 5)
    (fun _ _ u => if float then f32.round mode v.sat u y else fitInt (shD hs).ty v.sat (y.units 0)) s [[0]]
  (s, fl ||| g)

def execVdot (v : VOp) (c : Bool) (s : State) : Res :=
  s.vec v c (selsDAB v) (dotEntry v) workA (dotRun v) State.lastCode

/-! ### Conversion, packing and scaling (R227 to R229) -/

/-- The source has any type but OCI4 (R227). -/
def cvtEntry (v : VOp) (hs : List Shape) : Bool :=
  (shD hs).ty == v.ty.toNat && (shA hs).ty ≠ 13 && !(shD hs).sv && !(shA hs).sv && (shA hs).n == (shD hs).n

def cvtElem (v : VOp) (hs : List Shape) (mode : Nat) (s : State) (i : Nat) (u : W32) : Rounded :=
  let t := v.ty.toNat
  if tyInt (shA hs).ty && tyInt t then fitInt t v.sat (s.intElem (shA hs) i)
  else roundTo t mode v.sat u (s.numElem (shA hs) i)

def packEntry (v : VOp) (hs : List Shape) : Bool :=
  (shD hs).ty == v.ty.toNat && !(shD hs).sv && !(shA hs).sv && (shD hs).w == 2 * (shA hs).w && (shA hs).n == 2 * (shD hs).n
def packElem (hs : List Shape) (_ : Nat) (s : State) (i : Nat) (_ : W32) : Rounded :=
  (s.rawElem (shA hs) (2 * i) + s.rawElem (shA hs) (2 * i + 1) * 2 ^ (shA hs).w, 0)
def unpackEntry (v : VOp) (hs : List Shape) : Bool :=
  (shD hs).ty == v.ty.toNat && !(shD hs).sv && !(shA hs).sv && 2 * (shD hs).w == (shA hs).w && (shD hs).n == 2 * (shA hs).n
def unpackElem (hs : List Shape) (_ : Nat) (s : State) (i : Nat) (_ : W32) : Rounded :=
  (s.rawElem (shA hs) (i / 2) / 2 ^ ((shD hs).w * (i % 2)) % 2 ^ (shD hs).w, 0)

def scaleElem (x : Num) (v : VOp) (hs : List Shape) (mode : Nat) (s : State) (i : Nat) (u : W32) : Rounded :=
  let (p, fl) := numMul (s.numElem (shA hs) i) x
  let (r, g) := (fmtOf v.ty.toNat).round mode v.sat u p
  (r, fl ||| g)

def execVcvt (v : VOp) (c : Bool) (s : State) : Res :=
  s.vec v c (selsDA v) (cvtEntry v) workD (eachElem true (cvtElem v)) State.lastCode
def execVpack (v : VOp) (s : State) : Res :=
  s.vec v false (selsDA v) (packEntry v) workD (eachElem false packElem) State.lastCode
def execVunpack (v : VOp) (s : State) : Res :=
  s.vec v false (selsDA v) (unpackEntry v) workD (eachElem false unpackElem) State.lastCode
def execVscale (a : Rg) (v : VOp) (c : Bool) (s : State) : Res :=
  s.vec v c (selsDA v) (plainEntry v) workD (eachElem true (scaleElem (f32.value (fld (s.readG a) 31 0)) v)) State.lastCode

/-! ### Quantisation (R230, R231) -/

/-- Q of R230. -/
def quantQ (t : Nat) : Nat :=
  match t with
  | 11 => 448
  | 12 => 57344
  | 1 => 127
  | _ => 7

/-- Magnitudes in descending order. -/
def insertDown (x : Num) : List Num → List Num
  | [] => [x]
  | y :: ys => if numCmp x y == .lt then y :: insertDown x ys else x :: y :: ys

/-- ceil(log2(m / Q)) of a magnitude, exact, kept to -127 to 127; 0 for a zero (R230). -/
def quantExp (t : Nat) (x : Num) : Int :=
  match x with
  | .fin _ m e =>
    if m = 0 then 0
    else
      let q := quantQ t
      let k : Int := m.log2 + e - q.log2
      let fits := if k ≤ e then decide (m * 2 ^ (e - k).toNat ≤ q) else decide (m ≤ q * 2 ^ (k - e).toNat)
      max (-127) (min 127 (if fits then k else k + 1))
  | _ => 0

/-- The codes of a block from element `i` on (R230): `out` outliers are placed; `gen` is the generator, which steps
once for each element that is rounded in STO mode. -/
def quantFrom (t mode : Nat) (sat : Bool) (budget : Nat) (k : Int) (xs : List Num) (i out : Nat) (gen : W32) :
    Nat → List Nat × BitVec 5 × W32
  | 0 => ([], 0, gen)
  | fuel + 1 =>
    if 32 ≤ i then ([], 0, gen)
    else
      let gen := if mode = 5 then genStep gen else gen
      let x := (xs.getD i .nan).scale (-k)
      if t = 11 || t = 12 then
        let (r, fl) := (fmtOf t).round mode sat gen x
        let (rs, fls, g) := quantFrom t mode sat budget k xs (i + 1) out gen fuel
        (r :: rs, fl ||| fls, g)
      else
        let (q, inexact) := match x with
          | .fin n m e => roundInt mode gen n m e
          | _ => (0, false)
        if t = 13 && decide (7 < q.natAbs) && decide (i ≤ 29) && decide (out < budget) then
          let (y, fl) := (fmtOf 11).round mode sat gen x
          let lost := if (xs.getD (i + 1) .nan).isZero && (xs.getD (i + 2) .nan).isZero then 0 else flNX
          let (rs, fls, g) := quantFrom t mode sat budget k xs (i + 3) (out + 1) gen fuel
          (8 :: y / 16 :: y % 16 :: rs, fl ||| lost ||| fls, g)
        else
          let lo : Int := if t = 1 then -128 else -7
          let hi : Int := if t = 1 then 127 else 7
          let r := max lo (min hi q)
          let fl := (if inexact then flNX else 0) ||| (if r = q then 0 else flOF ||| flNX)
          let (rs, fls, g) := quantFrom t mode sat budget k xs (i + 1) out gen fuel
          (wrapTo (tyWidth t) r :: rs, fl ||| fls, g)

/-- One block: its codes, scale byte, flags and the generator after it. -/
def quantBlock (t mode : Nat) (sat : Bool) (budget : Nat) (xs : List Num) (gen : W32) : List Nat × Nat × BitVec 5 × W32 :=
  if xs.any fun x => x.isNan || x.isInf then (List.replicate 32 0, 255, flNV, gen)
  else
    let sorted := (xs.map Num.abs).foldl (fun l x => insertDown x l) []
    let k := quantExp t (sorted.getD budget (.fin false 0 0))
    let (cs, fl, g) := quantFrom t mode sat budget k xs 0 0 gen 32
    (cs, (k + 127).toNat, fl, g)

def quantBlocks (t mode : Nat) (sat : Bool) (budget : Nat) : List (List Num) → W32 → List (List Nat × Nat) × BitVec 5 × W32
  | [], gen => ([], 0, gen)
  | xs :: rest, gen =>
    let (cs, sc, fl, gen) := quantBlock t mode sat budget xs gen
    let (bs, fls, gen) := quantBlocks t mode sat budget rest gen
    ((cs, sc) :: bs, fl ||| fls, gen)

def quantEntry (v : VOp) (hs : List Shape) : Bool :=
  (shD hs).ty == v.ty.toNat && (shD hs).sv && [8, 9, 10].contains (shA hs).ty && !(shA hs).sv && (shA hs).n == (shD hs).n

/-- A block's codes are written, and its scale byte after them (R230). -/
def State.quantPut (s : State) (d : Shape) (b : Nat) (codes : List Nat) (scale : Nat) : State :=
  (s.putAll d ((List.range 32).map fun i => (32 * b + i, codes.getD i 0))).bankWrite (d.scale + b) [BitVec.ofNat 8 scale]

def quantRun (v : VOp) (hs : List Shape) (mode : Nat) (s : State) : State × BitVec 5 :=
  let d := shD hs
  let vals := (s.shapeValues (shA hs)).1
  let blocks := (List.range (d.n / 32)).map fun b => (vals.drop (32 * b)).take 32
  let (bs, fl, gen) := quantBlocks v.ty.toNat mode v.sat v.imm.toNat blocks s.gen
  (bs.zipIdx.foldl (fun s e => s.quantPut d e.2 e.1.1 e.1.2) (if mode = 5 then s.genTo gen else s), fl)

/-- The scale stream stands in the bank, so the instruction passes the commit point wherever its codes go (R46). -/
def execVqnt (v : VOp) (s : State) : Res :=
  s.vec v false (selsDA v) (quantEntry v) workA (fun hs mode s => quantRun v hs mode s.commit) State.lastCode

def dequantEntry (v : VOp) (hs : List Shape) : Bool :=
  (shD hs).ty == v.ty.toNat && !(shD hs).sv && [0, 1, 11, 12, 13].contains (shA hs).ty && (shA hs).sv
    && (shA hs).n == (shD hs).n

def dequantRun (v : VOp) (hs : List Shape) (mode : Nat) (s : State) : State × BitVec 5 :=
  let (vals, fl) := s.shapeValues (shA hs)
  let (s, g) := State.runGroups (shD hs) (mode == 5)
    (fun _ i u => (fmtOf v.ty.toNat).round mode v.sat u (vals.getD i .nan)) s [List.range (shD hs).n]
  (s, fl ||| g)

def execVdq (v : VOp) (s : State) : Res :=
  s.vec v false (selsDA v) (dequantEntry v) workA (dequantRun v) State.lastCode

/-! ### Special functions (R232, R233) -/

def specialElem (fn : Nat) (v : VOp) (hs : List Shape) (mode : Nat) (s : State) (i : Nat) (u : W32) : Rounded :=
  let (x, fl) := specialNum fn (s.numElem (shA hs) i)
  let (r, g) := if v.ty = 8 && fn ≠ 4 then looseRound (specialUlps fn) (Config.freeNat (s.free + i)) v.sat x
    else (fmtOf v.ty.toNat).round mode v.sat u x
  (r, fl ||| g)

/-- An FP32 result that its bound leaves open is a free value, one for each element (log 12). -/
def special (fn : Nat) (v : VOp) (c : Bool) (s : State) : Res :=
  s.vec v c (selsDA v) (plainEntry v) workD
    (fun hs mode s => let (s, fl) := eachElem true (specialElem fn v) hs mode s
                      ({ s with free := s.free + (shD hs).n }, fl)) State.lastCode

def execVexp2 (v : VOp) (c : Bool) (s : State) : Res := special 0 v c s
def execVlog2 (v : VOp) (c : Bool) (s : State) : Res := special 1 v c s
def execVrcp (v : VOp) (c : Bool) (s : State) : Res := special 2 v c s
def execVrsqrt (v : VOp) (c : Bool) (s : State) : Res := special 3 v c s
def execVsqrt (v : VOp) (c : Bool) (s : State) : Res := special 4 v c s
def execVtanh (v : VOp) (c : Bool) (s : State) : Res := special 5 v c s
def execVsig (v : VOp) (c : Bool) (s : State) : Res := special 6 v c s
def execVsilu (v : VOp) (c : Bool) (s : State) : Res := special 7 v c s
def execVgelu (v : VOp) (c : Bool) (s : State) : Res := special 8 v c s

end Sys2Proof.Machine
end

