-- ==== Sys2Proof/Machine/Memory.lean ====
section
/-! DEFINITION. Loads, stores, handle loads, atomics, fences and barriers (R173 to R183), and the take of a granted
block (R112). -/
namespace Sys2Proof.Machine

/-! ### Loads and stores (R174, R175) -/

/-- The bytes of a type code. -/
def tcBytes (tc : BitVec 4) : Nat := tyWidth tc.toNat / 8
/-- A loaded value extended by its type. -/
def extend (tc : BitVec 4) (v : Nat) : W64 :=
  if tySigned tc.toNat then BitVec.ofInt 64 (toSigned (tyWidth tc.toNat) v) else BitVec.ofNat 64 v
def codeTyped (tc : BitVec 4) (x : W64) : BitVec 2 := if tySigned tc.toNat then codeSigned x else codeUnsigned x

namespace State

/-- The address of the indexed forms. -/
def eax (s : State) (tc : BitVec 4) (a b : Rg) (off : W32) : Nat :=
  (s.readG a + s.readG b * BitVec.ofNat 64 (tcBytes tc) + sext32 off).toNat

/-- Is the access a take of a granted block (R112)? -/
def isTake (s : State) (path a n : Nat) : Bool :=
  (path == 1 || path == 2) && n == 8 && faWin (s.pathAddr path a) == 0x51 && faOff (s.pathAddr path a) == 0x48
    && faUnit (s.pathAddr path a) == 52

/-- A sector of the current net instance's region. -/
def inRegion (s : State) (k : Nat) : Bool :=
  match Tbl.find s.nets s.ctx.net with
  | some n => n.sectors.contains k
  | none => false

/-- Does a store go to a tile of its task's write set (R271)? -/
def inWriteSet (s : State) (path a : Nat) : Bool :=
  path == 3 && (match s.taskOf s.cell s.ctx.net with
    | some k => (s.taskAt (cellDie s.cell) k).fresh.any fun p => p.1 == a % 2 ^ 57 / 4096
    | none => false)

def tallyStore (s : State) (path a : Nat) : State :=
  if s.inWriteSet path a then s else s.tally s.cell s.ctx.net fun t => { t with store := t.store + 1 }

end State

/-- A load into a general register. -/
def loadG (i : Instr) (tc : BitVec 4) (d : Rg) (sb : Bool) (path a : Nat) (s : State) : Res :=
  if s.isTake path a (tcBytes tc) then
    if s.inRegion (faSector (s.pathAddr path a)) then .next (s.commit.waitIn i none (s.pathAddr path a))
    else .next (s.raise { cls := 3, faddr := s.pathAddr path a, aux := 8 * 2 ^ 32 })
  else (s.loadAt path a (tcBytes tc) i.acqScope).then i none a fun s bs =>
    let x := extend tc (ofBytes bs)
    .next (((s.writeG d x).choose sb (codeTyped tc x)).advance 3)

/-- A store of bytes. -/
def storeB (i : Instr) (path a : Nat) (bs : List Byte) (s : State) : Res :=
  ((s.commit).storeAt path a bs (s.relLink i)).then i none a fun s _ => .next ((s.tallyStore path a).advance 3)

/-- A store of the low bytes of a general register. -/
def storeG (i : Instr) (tc : BitVec 4) (d : Rg) (path a : Nat) (s : State) : Res :=
  storeB i path a (toBytes (tcBytes tc) (s.readG d).toNat) s

def ldBody (tc : BitVec 4) (d a : Rg) (sb : Bool) (off : W32) (w : Wave) (s : State) : Res :=
  loadG (.ld tc d a sb off w) tc d sb w.path.toNat (s.ea a off) s
def ldxBody (tc : BitVec 4) (d a b : Rg) (sb : Bool) (off : W32) (w : Wave) (s : State) : Res :=
  loadG (.ldx tc d a b sb off w) tc d sb w.path.toNat (s.eax tc a b off) s
def stBody (tc : BitVec 4) (d a : Rg) (off : W32) (w : Wave) (s : State) : Res :=
  storeG (.st tc d a off w) tc d w.path.toNat (s.ea a off) s
def stxBody (tc : BitVec 4) (d a b : Rg) (off : W32) (w : Wave) (s : State) : Res :=
  storeG (.stx tc d a b off w) tc d w.path.toNat (s.eax tc a b off) s
def vldBody (v : BitVec 3) (a : Rg) (off : W32) (w : Wave) (s : State) : Res :=
  (s.loadAt w.path.toNat (s.ea a off) 64 (if w.acq then some w.scope.toNat else none)).then (.vld v a off w) none (s.ea a off) fun s bs =>
    .next ((s.writeV v.toNat (BitVec.ofNat 512 (ofBytes bs))).advance 3)
def vstBody (v : BitVec 3) (a : Rg) (off : W32) (w : Wave) (s : State) : Res :=
  storeB (.vst v a off w) w.path.toNat (s.ea a off) (toBytes 64 (s.readV v.toNat).toNat) s

def execLd (tc : BitVec 4) (d a : Rg) (sb : Bool) (off : W32) (w : Wave) (s : State) : Res :=
  s.onWave w (ldBody tc d a sb off w)
def execSt (tc : BitVec 4) (d a : Rg) (off : W32) (w : Wave) (s : State) : Res := s.onWave w (stBody tc d a off w)
def execVld (v : BitVec 3) (a : Rg) (off : W32) (w : Wave) (s : State) : Res := s.onWave w (vldBody v a off w)
def execVst (v : BitVec 3) (a : Rg) (off : W32) (w : Wave) (s : State) : Res := s.onWave w (vstBody v a off w)
def execLdx (tc : BitVec 4) (d a b : Rg) (sb : Bool) (off : W32) (w : Wave) (s : State) : Res :=
  s.onWave w (ldxBody tc d a b sb off w)
def execStx (tc : BitVec 4) (d a b : Rg) (off : W32) (w : Wave) (s : State) : Res := s.onWave w (stxBody tc d a b off w)

/-! ### The take of a granted block (R112) -/

namespace State

/-- A sector asks the allocator for a refill, once until it is served. -/
def askRefill (s : State) (sector : Nat) : State :=
  if s.mgmt.refills.contains sector then s else { s with mgmt := { s.mgmt with refills := s.mgmt.refills ++ [sector] } }

/-- The grant in the lowest slot leaves the cache; below four grants the sector asks for a refill. -/
def takeBlock (s : State) (sector : Nat) : Option (BitVec 28 × State) :=
  match (s.sectorAt sector).blocks with
  | [] => none
  | b :: bs =>
    let s := s.modSector sector fun k => { k with blocks := bs }
    some (b, if bs.length < 4 then s.askRefill sector else s)

end State

/-- BLOCK_TAKE (R112): a waiting take is served, in a clock before that clock's appends (R333). -/
def execBlockTake (cell fid : Nat) (s : State) : Res :=
  let t := s.focus cell fid
  let give (tc : BitVec 4) (d : Rg) (sb : Bool) : Res :=
    if !t.live || !t.isTake 2 t.me.addr (tcBytes tc) || (t.sectorAt (faSector t.me.addr)).added = t.clock + 1 then .next s
    else match t.takeBlock (faSector t.me.addr) with
      | none => .next (s.askRefill (faSector t.me.addr))
      | some (b, t) =>
        let x : W64 := b.setWidth 64
        .next (((t.writeG d x).choose sb (codeTyped tc x)).advance 3)
  match t.me.wait with
  | some (.ld tc d _ sb _ w) => if w.path = 1 || w.path = 2 then give tc d sb else .next s
  | some (.ldx tc d _ _ sb _ w) => if w.path = 1 || w.path = 2 then give tc d sb else .next s
  | _ => .next s

/-! ### `ldh` (R176) -/

/-- The handle-table entry that the access read at its start, the block-table entry once it is read, and the epoch of the
start; they stand while the access waits on a frozen port (R111, R114, R176). -/
def ldhPin (e : BitVec 256) (bt : Option W32) (epoch : Nat) : Nat :=
  e.toNat + 2 ^ 256 * (match bt with
    | some x => x.toNat + 1
    | none => 0) + 2 ^ 300 * epoch
def pinEntry (k : Nat) : BitVec 256 := BitVec.ofNat 256 k
def pinBlock (k : Nat) : Option W32 :=
  let x := k / 2 ^ 256 % 2 ^ 44
  if x = 0 then none else some (BitVec.ofNat 32 (x - 1))
def pinEpoch (k : Nat) : Nat := k / 2 ^ 300

/-- The handle-table entry of an `ldh`: what it pinned, or what it reads and checks at its start (R110, R396). -/
def State.ldhEntry (s : State) (h : W64) (pos : Nat) : State × Except Hit (BitVec 256) :=
  match s.me.arg with
  | some k => (s, .ok (pinEntry k))
  | none => s.handleEntry (sectorSpan s.sector) s.ctx.asid h pos

def ldhBody (d a b : Rg) (sb : Bool) (off : W32) (w : Wave) (s : State) : Res :=
  let i : Instr := .ldh d a b sb off w
  let h := s.readG a
  let pos := (s.readG b).toNat
  let epoch := (s.me.arg.map pinEpoch).getD s.qcur
  let bt := s.me.arg.bind pinBlock
  let first := bt.isNone
  match s.ldhEntry h pos with
  | (s, .error hit) => .next (s.raiseFrom 2 hit)
  | (s, .ok e) =>
    let r : Acc W32 := match bt with
      | some x => .ok s x
      | none => match s.viaPort fun s => s.loadVirt (btabAddr e pos) 4 with
        | .ok s bs => .ok s (BitVec.ofNat 32 (ofBytes bs))
        | .hit s src hit => .hit s src hit
        | .wait s => .wait s
    r.then i (some (ldhPin e none epoch)) (btabAddr e pos) fun s bt =>
      let o := (sext32 off).toInt
      let tb := tokenBytes e
      if !btypeOk bt then .next (s.raiseFrom 2 { cls := 0x0E, faddr := btabAddr e pos })
      else if tb = 0 || o < 0 || (tb : Int) < o + 8 then
        .next (s.raiseFrom 2 { cls := 5, faddr := h.toNat, aux := entTenant e * 2 ^ 52 + entGen e * 2 ^ 40 + entBound e * 2 ^ 20 + pos % 2 ^ 20 })
      else
        let va := (blockAddr e bt + slotIn e pos * tb + o.toNat) % 2 ^ 64
        let go (s : State) : State × Except Hit (List Byte) := s.loadVirt va 8 i.acqScope
        (s.viaPort go first).then i (some (ldhPin e (some bt) epoch)) va fun s bs =>
          let x := BitVec.ofNat 64 (ofBytes bs)
          .next (((s.writeG d x).choose sb (codeSigned x)).advance 3)

def execLdh (d a b : Rg) (sb : Bool) (off : W32) (w : Wave) (s : State) : Res := s.onWave w (ldhBody d a b sb off w)

/-! ### Atomics (R177 to R179) -/

/-- What an atomic does: its bytes, the new value for an old one (none where nothing is written), how the old value
returns and its choice code, and whether home 9 performs it (R106). -/
structure Atomic where
  n     : Nat
  f     : Nat → Option Nat
  ext   : Nat → W64
  code  : W64 → BitVec 2
  home9 : Bool := false

def atomBytes (w64 : Bool) : Nat := if w64 then 8 else 4
def atomBits (w64 : Bool) : Nat := 8 * atomBytes w64
def signedBack (w64 : Bool) (v : Nat) : W64 := BitVec.ofInt 64 (toSigned (atomBits w64) v)
def unsignedBack (v : Nat) : W64 := BitVec.ofNat 64 v

/-- An atomic whose old value returns sign-extended. -/
def Atomic.signed (w64 : Bool) (b : W64) (f : Nat → Nat → Nat) (home9 : Bool := false) : Atomic where
  n := atomBytes w64
  f := fun old => some (f old (b.toNat % 2 ^ atomBits w64) % 2 ^ atomBits w64)
  ext := signedBack w64
  code := codeSigned
  home9 := home9

/-- An atomic whose old value returns zero-extended. -/
def Atomic.unsigned (w64 : Bool) (b : W64) (f : Nat → Nat → Nat) : Atomic where
  n := atomBytes w64
  f := fun old => some (f old (b.toNat % 2 ^ atomBits w64))
  ext := unsignedBack
  code := codeUnsigned

/-- An FP32 atomic (R179). -/
def Atomic.float (b : W64) (f : Num → Num → Num) : Atomic where
  n := 4
  f := fun old => some (f32.round 0 false 0 (f (f32.value old) (f32.value (fld b 31 0)))).1
  ext := unsignedBack
  code := fun x => codeNum (f32.value (fld x 31 0))

namespace State

/-- An atomic of the current cell reads some units as they stand, with ACQ acquires, and writes them with its link (R290, R295). -/
def atomAs (s : State) (us : List Nat) (acq : Option Nat) (rel : Option Link) (write : State → Option State) : State :=
  let s := s.readAs us s.version acq
  match write s with
  | some s => s.wroteNow us true rel
  | none => s

/-- One atomic step of the current cell at the home of an address, which the right to write allows (R101): the old value, which
is the latest there (R295), and the class it meets instead. -/
def atomHome (s : State) (iss : Issuer) (k : Atomic) (a : Nat) (acq : Option Nat) (rel : Option Link) : State × Except Hit Nat :=
  match s.pieces iss a k.n true (pieceFuel k.n) with
  | (s, .error h) => (s, .error h)
  | (s, .ok ps) =>
    if vaHome a = 9 && !k.home9 then (s, .error { cls := 4, cause := 0xA, faddr := a })
    else
      let s := s.settleAt true a k.n
      let old := ofBytes (ps.flatMap fun p => Mem.load s.mem p.1 p.2.1)
      (s.atomAs (memUnits ps) acq rel fun s => (k.f old).map fun new =>
        { s with mem := storePieces s.mem (toBytes k.n new) ps }, .ok old)

/-- An atomic on chip; its address lies in a bank. -/
def atomBank (s : State) (k : Atomic) (a : Nat) (acq : Option Nat) (rel : Option Link) : State × Nat :=
  let s := s.settleAt false a k.n
  let old := ofBytes (Mem.load s.banks a k.n)
  (s.atomAs (unitsOf false a k.n) acq rel fun s => (k.f old).map fun new =>
    { s with banks := Mem.store s.banks a (toBytes k.n new) }, old)

/-- The address as a record shows it (R391). -/
def shownAddr (s : State) (path a : Nat) : Nat := if path = 0 then a % 2 ^ 16 else if path = 3 then a else s.pathAddr path a

/-- An atomic of the current firing on its path (R178). -/
def atomAt (s : State) (k : Atomic) (path a : Nat) (acq : Option Nat) (rel : Option Link) : Acc Nat :=
  let h (cls : Nat) : Hit := { cls := cls, faddr := s.shownAddr path a, aux := k.n * 2 ^ 32 }
  if a % k.n ≠ 0 then .hit s 0 (h 3)
  else if path = 3 then s.viaPort fun s => s.atomHome s.issuer k a acq rel
  else if path = 0 then let (s, x) := s.atomBank k (s.pathAddr 0 a) acq rel
                        .ok s x
  else
    let hit3 := match winHit (s.prio == 7) true (s.pathAddr path a) k.n with
      | some x => x.cls == 3
      | none => false
    if hit3 then .hit s 0 (h 3)
    else if faWin (s.pathAddr path a) ≠ 0 then .hit s 0 (h 0x0F)
    else let (s, x) := s.atomBank k (s.pathAddr path a) acq rel
         .ok s x

end State

/-- An atomic instruction: the operation of a replayed task that its log holds is not performed again (R406). The
number of the logged operation stands while the access waits. -/
def atomBody (i : Instr) (k : Atomic) (d : Rg) (sb : Bool) (path a : Nat) (s : State) : Res :=
  let s := s.commit
  let (s, ord) := match s.me.arg with
    | some n => (s, some n)
    | none => s.logOrd s.issuer
  let l := ord.bind fun n => s.logAt s.issuer n
  let done (s : State) (old : Nat) : Res :=
    let x := k.ext old
    .next (((s.writeG d x).choose sb (k.code x)).advance 3)
  match State.logOld l with
  | some old => done s (old % 2 ^ (8 * k.n))
  | none => (s.atomAt k path a i.acqScope (s.relLink i)).then i ord a fun s old =>
    done ((s.logPut l 1 (k.ext old).toNat).tally s.cell s.ctx.net fun t => { t with atom := t.atom + 1 }) old

def aaddBody (w64 : Bool) (d a b : Rg) (sb : Bool) (off : W32) (w : Wave) (s : State) : Res :=
  atomBody (.aadd w64 d a b sb off w) (.signed w64 (s.readG b) (fun x y => x + y) true) d sb w.path.toNat (s.ea a off) s
def aandBody (w64 : Bool) (d a b : Rg) (sb : Bool) (off : W32) (w : Wave) (s : State) : Res :=
  atomBody (.aand w64 d a b sb off w) (.signed w64 (s.readG b) (fun x y => x &&& y)) d sb w.path.toNat (s.ea a off) s
def aorBody (w64 : Bool) (d a b : Rg) (sb : Bool) (off : W32) (w : Wave) (s : State) : Res :=
  atomBody (.aor w64 d a b sb off w) (.signed w64 (s.readG b) (fun x y => x ||| y)) d sb w.path.toNat (s.ea a off) s
def axorBody (w64 : Bool) (d a b : Rg) (sb : Bool) (off : W32) (w : Wave) (s : State) : Res :=
  atomBody (.axor w64 d a b sb off w) (.signed w64 (s.readG b) (fun x y => x ^^^ y)) d sb w.path.toNat (s.ea a off) s
def aminBody (w64 : Bool) (d a b : Rg) (sb : Bool) (off : W32) (w : Wave) (s : State) : Res :=
  atomBody (.amin w64 d a b sb off w)
    (.signed w64 (s.readG b) fun x y => if toSigned (atomBits w64) x ≤ toSigned (atomBits w64) y then x else y)
    d sb w.path.toNat (s.ea a off) s
def amaxBody (w64 : Bool) (d a b : Rg) (sb : Bool) (off : W32) (w : Wave) (s : State) : Res :=
  atomBody (.amax w64 d a b sb off w)
    (.signed w64 (s.readG b) fun x y => if toSigned (atomBits w64) x ≤ toSigned (atomBits w64) y then y else x)
    d sb w.path.toNat (s.ea a off) s
def aminzBody (w64 : Bool) (d a b : Rg) (sb : Bool) (off : W32) (w : Wave) (s : State) : Res :=
  atomBody (.aminz w64 d a b sb off w) (.unsigned w64 (s.readG b) Nat.min) d sb w.path.toNat (s.ea a off) s
def amaxzBody (w64 : Bool) (d a b : Rg) (sb : Bool) (off : W32) (w : Wave) (s : State) : Res :=
  atomBody (.amaxz w64 d a b sb off w) (.unsigned w64 (s.readG b) Nat.max) d sb w.path.toNat (s.ea a off) s
def axchgBody (w64 : Bool) (d a b : Rg) (sb : Bool) (off : W32) (w : Wave) (s : State) : Res :=
  atomBody (.axchg w64 d a b sb off w) (.signed w64 (s.readG b) (fun _ y => y) true) d sb w.path.toNat (s.ea a off) s
/-- `acas` writes g[B] where the old value equals g[D]. -/
def acasBody (w64 : Bool) (d a b : Rg) (sb : Bool) (off : W32) (w : Wave) (s : State) : Res :=
  let m := 2 ^ atomBits w64
  let want := (s.readG d).toNat % m
  let new := (s.readG b).toNat % m
  atomBody (.acas w64 d a b sb off w)
    { n := atomBytes w64, f := fun old => if old = want then some new else none, ext := signedBack w64
      code := codeSigned, home9 := true } d sb w.path.toNat (s.ea a off) s
def afaddF32Body (d a b : Rg) (sb : Bool) (off : W32) (w : Wave) (s : State) : Res :=
  atomBody (.afaddF32 d a b sb off w) (.float (s.readG b) fun x y => numSum 0 [x, y]) d sb w.path.toNat (s.ea a off) s
def afmaxF32Body (d a b : Rg) (sb : Bool) (off : W32) (w : Wave) (s : State) : Res :=
  atomBody (.afmaxF32 d a b sb off w) (.float (s.readG b) (pickNum true)) d sb w.path.toNat (s.ea a off) s

def execAadd (w64 : Bool) (d a b : Rg) (sb : Bool) (off : W32) (w : Wave) (s : State) : Res :=
  s.onWave w (aaddBody w64 d a b sb off w)
def execAand (w64 : Bool) (d a b : Rg) (sb : Bool) (off : W32) (w : Wave) (s : State) : Res :=
  s.onWave w (aandBody w64 d a b sb off w)
def execAor (w64 : Bool) (d a b : Rg) (sb : Bool) (off : W32) (w : Wave) (s : State) : Res :=
  s.onWave w (aorBody w64 d a b sb off w)
def execAxor (w64 : Bool) (d a b : Rg) (sb : Bool) (off : W32) (w : Wave) (s : State) : Res :=
  s.onWave w (axorBody w64 d a b sb off w)
def execAmin (w64 : Bool) (d a b : Rg) (sb : Bool) (off : W32) (w : Wave) (s : State) : Res :=
  s.onWave w (aminBody w64 d a b sb off w)
def execAmax (w64 : Bool) (d a b : Rg) (sb : Bool) (off : W32) (w : Wave) (s : State) : Res :=
  s.onWave w (amaxBody w64 d a b sb off w)
def execAminz (w64 : Bool) (d a b : Rg) (sb : Bool) (off : W32) (w : Wave) (s : State) : Res :=
  s.onWave w (aminzBody w64 d a b sb off w)
def execAmaxz (w64 : Bool) (d a b : Rg) (sb : Bool) (off : W32) (w : Wave) (s : State) : Res :=
  s.onWave w (amaxzBody w64 d a b sb off w)
def execAxchg (w64 : Bool) (d a b : Rg) (sb : Bool) (off : W32) (w : Wave) (s : State) : Res :=
  s.onWave w (axchgBody w64 d a b sb off w)
def execAcas (w64 : Bool) (d a b : Rg) (sb : Bool) (off : W32) (w : Wave) (s : State) : Res :=
  s.onWave w (acasBody w64 d a b sb off w)
def execAfaddF32 (d a b : Rg) (sb : Bool) (off : W32) (w : Wave) (s : State) : Res :=
  s.onWave w (afaddF32Body d a b sb off w)
def execAfmaxF32 (d a b : Rg) (sb : Bool) (off : W32) (w : Wave) (s : State) : Res :=
  s.onWave w (afmaxF32Body d a b sb off w)

/-! ### Fences and the barrier (R180 to R183) -/

/-- `fence.acq` (R181): the loads before it count as acquires at its scope, and the fence is one of what the firing's tokens link
(R290). -/
def fenceAcqBody (w : Wave) (s : State) : Res :=
  .next (((s.observe w.scope.toNat (s.me.sync ++ s.ctx.found)).meetShown w.scope.toNat).advance 3)
/-- `fence.rel` (R181): the accesses before it are performed, and those after it that write count as REL at its scope. -/
def fenceRelBody (w : Wave) (s : State) : Res :=
  .next ((s.flush.modCtx fun c => { c with asRel := max c.asRel (w.scope.toNat + 1) }).advance 3)
/-- `fence.full` (R181, R294): the accesses before it are performed, and those after it see what the fences of its scope before
it had performed, and what others than their writers have read. -/
def fenceFullBody (w : Wave) (s : State) : Res :=
  let k := w.scope.toNat
  .next (((((s.flush.fenceOwn k).meetFenced k).observe k s.me.sync).meetShown k).advance 3)

def execFenceAcq (w : Wave) (s : State) : Res := s.onWave w (fenceAcqBody w)
def execFenceRel (w : Wave) (s : State) : Res := s.onWave w (fenceRelBody w)
def execFenceFull (w : Wave) (s : State) : Res := s.onWave w (fenceFullBody w)

/-- The counter of a barrier: net instance, level, unit, id. -/
def barKey (net level cell id : Nat) : Nat :=
  let unit := match level with
    | 0 => cell
    | 1 => cellSector cell
    | 2 => cellSpan cell
    | _ => cellDie cell
  ((net * 4 + level) * 65536 + unit) * 16 + id

namespace State

def barAt (s : State) (k : Nat) : Bar := Tbl.get {} s.bars k

/-- Does a firing of a cell wait in a `bar` of a phase? -/
def atBar (cell : Nat) (c : Ctx) (key phase : Nat) (f : Firing) : Bool :=
  match f.wait with
  | some (.bar id _ w) => barKey c.net w.scope.toNat cell id.toNat == key && f.arg == some phase && !f.parked
  | _ => false

/-- Every `bar` of a completed phase that waits in a running context completes, and its cell acquires at the scope what the
phase's arrivals released and what the firing's tokens link (R183, R290). -/
def completeBars (s : State) (key phase scope : Nat) (ls : List Link) : State :=
  s.mapCells fun cell c => { c with run := { (match c.run.firings.filter (atBar cell c.run key phase) with
      | [] => c.run
      | fs => s.observeIn cell scope (ls ++ fs.flatMap Firing.sync) c.run) with
    firings := c.run.firings.map fun f =>
      if atBar cell c.run key phase f then { f with woff := f.woff + 3, wait := none, arg := none, age := 0, last := s.clock + 1
                                                    recs := none, genEp := none, keep := {} }
      else f } }

end State

/-- `bar` (R183): the accesses before it are performed before it arrives; the N of the phase's first arrival rules (R380). -/
def execBar (id : BitVec 4) (n : BitVec 12) (w : Wave) (s : State) : Res := s.onWave w fun s =>
  let s := s.commit.flush
  let key := barKey s.ctx.net w.scope.toNat s.cell id.toNat
  let b := s.barAt key
  let total := if b.count = 0 then n.toNat else b.n
  let scope := w.scope.toNat
  let ls := b.sync ++ [s.linkOf scope]
  if total ≤ b.count + 1 then
    .next ((({ s with bars := Tbl.put s.bars key { phase := b.phase + 1, done := Tbl.put b.done b.phase ls } }.completeBars key b.phase scope ls).observe
      scope (ls ++ s.me.sync)).advance 3)
  else
    .next ({ s with bars := Tbl.put s.bars key { b with count := b.count + 1, n := total, sync := ls } }.waitIn (.bar id n w)
      (some b.phase) 0)

/-- A `bar` whose phase is complete, and which did not stand in a running context then, goes on. -/
def barRetry (id : BitVec 4) (n : BitVec 12) (w : Wave) (s : State) : Res :=
  let b := s.barAt (barKey s.ctx.net w.scope.toNat s.cell id.toNat)
  match s.me.arg with
  | some phase => if b.phase = phase then .next s
    else .next ((s.observe w.scope.toNat (Tbl.get [] b.done phase ++ s.me.sync)).advance 3)
  | none => .next s

end Sys2Proof.Machine
end

