-- ==== Sys2Proof/Machine/Ring.lean ====
section
/-! DEFINITION. Ring objects: their layout, credits, completion of slots, and releases (R191 to R196, R200). -/
namespace Sys2Proof.Machine

namespace State

/-- The header of the ring object at a fabric address (R191). -/
def ringHead (s : State) (r : Nat) : BitVec 256 := BitVec.ofNat 256 (ofBytes (Mem.load s.banks r 32))
def ringSlot (s : State) (r k : Nat) : W32 := BitVec.ofNat 32 (ofBytes (Mem.load s.banks (r + 32 + 4 * k) 4))
def setRingHead (s : State) (r : Nat) (h : BitVec 256) : State :=
  { s with banks := Mem.store s.banks r (toBytes 32 h.toNat) }
def setRingSlot (s : State) (r k : Nat) (w : W32) : State :=
  { s with banks := Mem.store s.banks (r + 32 + 4 * k) (toBytes 4 w.toNat) }

end State

def rBase (h : BitVec 256) : Nat := fld h 255 240
def rSlotBytes (h : BitVec 256) : Nat := fld h 239 230 * 64
def rN (h : BitVec 256) : Nat := fld h 229 224 + 1
def rExpect (h : BitVec 256) : Nat := fld h 223 200
def rPoison (h : BitVec 256) : Bool := h.getLsbD 199
def rWcnt (h : BitVec 256) : Nat := fld h 191 160
def rRcnt (h : BitVec 256) : Nat := fld h 159 128
/-- A header made of its fields. -/
def ringHeader (base slotu nm1 expect : Nat) (poison : Bool) (wcnt rcnt : Nat) : BitVec 256 :=
  BitVec.ofNat 256 (base % 2 ^ 16 * 2 ^ 240 + slotu % 2 ^ 10 * 2 ^ 230 + nm1 % 64 * 2 ^ 224 + expect % 2 ^ 24 * 2 ^ 200
    + poison.toNat * 2 ^ 199 + wcnt % 2 ^ 32 * 2 ^ 160 + rcnt % 2 ^ 32 * 2 ^ 128)
/-- A header with other counts or poison; the remaining fields stand. -/
def rWith (h : BitVec 256) (poison : Bool) (wcnt rcnt : Nat) : BitVec 256 :=
  ringHeader (rBase h) (fld h 239 230) (fld h 229 224) (rExpect h) poison wcnt rcnt
def slotPh (w : W32) : Bool := w.getLsbD 31
def slotPend (w : W32) : Nat := fld w 23 0
def slotWord (ph : Bool) (pend : Nat) : W32 := BitVec.ofNat 32 (ph.toNat * 2 ^ 31 + pend % 2 ^ 24)
/-- A difference modulo 2^32 (R192). -/
def diff32 (a b : Nat) : Nat := (a % 2 ^ 32 + 2 ^ 32 - b % 2 ^ 32) % 2 ^ 32

namespace State

/-- Ticket `k` is complete (R192). -/
def ticketDone (s : State) (r k : Nat) : Bool :=
  let n := rN (s.ringHead r)
  slotPh (s.ringSlot r (k % n)) == ((k / n + 1) % 2 == 1)

/-- WCNT passes every complete ticket. -/
def advanceWcnt (s : State) (r : Nat) : Nat → State
  | 0 => s
  | fuel + 1 =>
    let h := s.ringHead r
    if s.ticketDone r (rWcnt h) then (s.setRingHead r (rWith h (rPoison h) (rWcnt h + 1) (rRcnt h))).advanceWcnt r fuel else s

/-- A slot completes: its phase flips, PEND reloads, WCNT advances (R192). -/
def completeSlot (s : State) (r k : Nat) : State :=
  let h := s.ringHead r
  (s.setRingSlot r k (slotWord (!slotPh (s.ringSlot r k)) (rExpect h))).advanceWcnt r (rN h)

/-- The class of a ring command (R391). -/
def ringHit (s : State) (r slot n : Nat) (named : Bool) : Hit :=
  { cls := 0x0B, faddr := r
    aux := if named then slotPend (s.ringSlot r slot) * 2 ^ 40 + n % 2 ^ 24 * 2 ^ 16 + slot % 64 else n % 2 ^ 24 * 2 ^ 16 }

/-- A slot and WCNT as they stood before this clock's credits to the slot. -/
def beforeCredits (s : State) (r k : Nat) : W32 × Nat :=
  match Tbl.find s.credited (64 * r + k) with
  | some (c, w, n) => if c = s.clock + 1 then (w, n) else (s.ringSlot r k, rWcnt (s.ringHead r))
  | none => (s.ringSlot r k, rWcnt (s.ringHead r))

/-- A credit that an engine's release precedes links it to the ticket's slot (R290). -/
def linkSlot (s : State) (r k : Nat) (rel : Option Link) : State :=
  let ph := slotPh (s.ringSlot r k)
  let ls := match Tbl.find s.ringRel (64 * r + k) with
    | some (q, ls) => if q = ph then ls else []
    | none => []
  { s with ringRel := Tbl.put s.ringRel (64 * r + k) (ph, ls ++ rel.toList) }

/-- The links of the credits of a slot's last credited ticket. -/
def slotLinks (s : State) (r k : Nat) : List Link := ((Tbl.find s.ringRel (64 * r + k)).map (·.2)).getD []

/-- A credit to one slot (R192, R193). The clock's credits to it are summed before the test: where the sum is more than PEND was
at its start, none of them counts. -/
def creditSlot (s : State) (r k n : Nat) (rel : Option Link := none) : State × Option Hit :=
  let h := s.ringHead r
  if rPoison h then (s, some (s.ringHit r k n true))
  else
    let (w0, wcnt) := s.beforeCredits r k
    let w := s.ringSlot r k
    if slotPend w < n || (slotPh w != slotPh w0 && n ≠ 0) then
      let s := s.setRingSlot r k w0
      let h := s.ringHead r
      let s := if slotPh w = slotPh w0 then s else (s.setRingHead r (rWith h false wcnt (rRcnt h))).advanceWcnt r (rN h)
      let h := s.ringHead r
      (s.setRingHead r (rWith h true (rWcnt h) (rRcnt h)), some (s.ringHit r k n true))
    else
      let s := { s with credited := Tbl.put s.credited (64 * r + k) (s.clock + 1, w0, wcnt) }.linkSlot r k rel
      let s := s.setRingSlot r k (slotWord (slotPh w) (slotPend w - n))
      (if slotPend w = n then s.completeSlot r k else s, none)

/-- The slots from `k` on that a run of bytes touches, each credited its part. -/
def creditFrom (s : State) (r k lo hi : Nat) (rel : Option Link) : Nat → State × Option Hit
  | 0 => (s, none)
  | fuel + 1 =>
    let h := s.ringHead r
    let a := rBase h + k * rSlotBytes h
    let b := a + rSlotBytes h
    let part := min hi b - max lo a
    if part = 0 then s.creditFrom r (k + 1) lo hi rel fuel
    else match s.creditSlot r k part rel with
      | (s, some x) => (s, some x)
      | (s, none) => s.creditFrom r (k + 1) lo hi rel fuel

/-- A credit of the bytes from a bank offset on, as far as they lie in the slot area (R192). -/
def creditRing (s : State) (r off n : Nat) (rel : Option Link := none) : State × Option Hit :=
  let h := s.ringHead r
  if rPoison h then (s, some (s.ringHit r ((off - rBase h) / max 1 (rSlotBytes h)) n true)) else s.creditFrom r 0 off (off + n) rel (rN h)

end State

/-- A ring address in a bank: the cell exists, and the object lies within its bank, aligned to 32. -/
def ringOk (r : Nat) : Bool :=
  decide (r < 2 ^ 48) && faWin r == 0 && cellOk (faCell r) && r % 32 == 0 && decide (r % 2 ^ 16 + 288 ≤ 2 ^ 16)

/-- The fabric address of a ticket's slot. -/
def slotAddr (r : Nat) (h : BitVec 256) (k : Nat) : Nat := r / 2 ^ 16 * 2 ^ 16 + rBase h + k % rN h * rSlotBytes h

end Sys2Proof.Machine
end

