-- ==== Sys2Proof/Machine/Signal.lean ====
section
/-! DEFINITION. Completion signals and the queues parked on them (R205, R311, R312). -/
namespace Sys2Proof.Machine

/-- The tests of a wait packet (R302). -/
def condHolds (cond : Nat) (x v : W64) : Bool :=
  match cond with
  | 0 => x == v
  | 1 => x != v
  | 2 => decide (x.toNat < v.toNat)
  | _ => decide (v.toNat ≤ x.toNat)

namespace State

def queueAt (s : State) (q : Nat) : PhysQ := Tbl.get {} s.queues q
def setQueue (s : State) (q : Nat) (x : PhysQ) : State := { s with queues := Tbl.put s.queues q x }
def modQueue (s : State) (q : Nat) (f : PhysQ → PhysQ) : State := s.setQueue q (f (s.queueAt q))

/-- NEXTPQ along a list of parked queues (R301, R311). -/
def relink (s : State) : List Nat → State
  | [] => s
  | [q] => s.modQueue q fun x => { x with nextpq := 0xFFF }
  | q :: r :: rest => (s.modQueue q fun x => { x with nextpq := r }).relink (r :: rest)

/-- A packet of a queue retires; the front end reads the queue again (R300, R302). -/
def retirePacket (s : State) (q idx : Nat) : State :=
  s.modQueue q fun x => { x with live := x.live.filter (· ≠ idx), rung := true }

/-- A parked queue whose test holds goes on: its wait packet retires (R312). -/
def unpark (s : State) (q : Nat) : State :=
  match (s.queueAt q).wait with
  | some (idx, _) => (s.modQueue q fun x => { x with parked := false, nextpq := 0xFFF, wait := none }).retirePacket q idx
  | none => s

/-- Does the wait of a parked queue hold at a value? -/
def waitHolds (s : State) (q : Nat) (v : W64) : Bool :=
  match (s.queueAt q).wait with
  | some (_, _, cond, _, value) => condHolds cond v value
  | none => true

/-- The home walks a signal's list in park order, each waiter tested against the value that the update wrote
(R312). -/
def walkSignal (s : State) (dpa : Nat) (v : W64) : State :=
  let l := Tbl.get [] s.parks dpa
  let go := l.filter fun q => s.waitHolds q v
  let stay := l.filter fun q => !s.waitHolds q v
  let s := { s with parks := if stay.isEmpty then Tbl.del s.parks dpa else Tbl.put s.parks dpa stay }
  (go.foldl unpark s).relink stay

/-- The home of a signal: the device physical address of its first byte. -/
def signalHome (s : State) (iss : Issuer) (a : Nat) (write : Bool) : State × Except Hit Nat :=
  match s.piece iss a write with
  | (s, .ok (dpa, _)) => (s, .ok dpa)
  | (s, .error h) => (s, .error h)

/-- A walking update (R205, R312), which the right to write allows (R101): the old value. `seen` is what its agent reads of the
signal's units before, and `logged` how the write enters the log (R290, R295). -/
def signalAdd (s : State) (iss : Issuer) (a n : Nat) (seen logged : State → List Nat → State) : State × Except Hit Nat :=
  if a % 8 ≠ 0 then (s, .error { cls := 3, faddr := a, aux := 8 * 2 ^ 32 })
  else match s.signalHome iss a true with
    | (s, .error h) => (s, .error h)
    | (s, .ok dpa) =>
      let s := seen s (unitsOf true dpa 8)
      let old := s.load64 dpa
      let new := old + BitVec.ofNat 64 n
      let s := logged { s with mem := Mem.store s.mem dpa (toBytes 8 new.toNat) } (unitsOf true dpa 8)
      (s.walkSignal dpa new, .ok old.toNat)

/-- A unit's addition to a completion signal; where the unit releases, at a scope, it links what is performed (R290). -/
def unitSignal (s : State) (iss : Issuer) (a n agent : Nat) (rel : Option Nat) : State × Except Hit Nat :=
  s.signalAdd iss a n (fun s _ => s) fun s us => s.logWrites us
    { ver := s.version, cell := agent, atom := true, rel := rel.map fun k => s.unitLink agent k }

end State

end Sys2Proof.Machine
end

