-- ==== Sys2Proof/Machine/Copy.lean ====
section
/-! DEFINITION. Copy queues, packets and ports, `drain` and `sig.add` (R184 to R190, R205, R392, R394, R395). -/
namespace Sys2Proof.Machine

/-- The words of a byte run. -/
def wordsAt (bs : List Byte) (n : Nat) : List W64 := (List.range n).map fun k => BitVec.ofNat 64 (ofBytes ((bs.drop (8 * k)).take 8))
def wordOf (ws : List W64) (k : Nat) : W64 := ws.getD k 0
/-- An address a signed distance away, modulo 2^64. -/
def stepAddr (a : Nat) (d : W64) (k : Nat) : Nat := (BitVec.ofNat 64 a + d * BitVec.ofNat 64 k).toNat

/-- An engine command: its wave word, then its body, counted among its task's commands (R271). -/
def State.engine (s : State) (w : Wave) (body : State → Res) : Res :=
  s.onWave w fun s => body (s.commit.tally s.cell s.ctx.net fun t => { t with eng := t.eng + 1 })

namespace State

/-! ### Reads and writes of engines -/

/-- A read on path 0b010 or 0b011. -/
def engRead (s : State) (iss : Issuer) (path a n : Nat) : State × Except Hit (List Byte) :=
  if path = 3 then s.readVirt iss a n
  else match winHit false false (a % 2 ^ 48) n with
    | some h => (s, .error h)
    | none => (s, .ok (s.fabRead (a % 2 ^ 48) n))

/-- A virtual write page by page: how many bytes are written, and the class that stops it. -/
def writeParts (s : State) (iss : Issuer) (va : Nat) (bs : List Byte) : Nat → State × Nat × Option Hit
  | 0 => (s, 0, none)
  | fuel + 1 =>
    if bs.isEmpty then (s, 0, none)
    else
      let len := min bs.length (4096 - va % 4096)
      match s.piece iss va true with
      | (s, .error h) => (s, 0, some h)
      | (s, .ok (dpa, _)) =>
        let (s, n, h) := { s with mem := Mem.store s.mem dpa (bs.take len) }.writeParts iss ((va + len) % 2 ^ 64) (bs.drop len) fuel
        (s, n + len, h)

/-- A write of an engine outside its task's write set is counted (R271). -/
def tallyWrite (s : State) (iss : Issuer) (virt : Bool) (a : Nat) : State :=
  s.tally iss.cell iss.net fun t =>
    if virt && t.fresh.any fun p => p.1 == a % 2 ^ 57 / 4096 then t else { t with store := t.store + 1 }

/-- A row written by an engine: on chip whole or not at all, in memory page by page. -/
def engPut (s : State) (iss : Issuer) (path a : Nat) (bs : List Byte) : State × Nat × Option Hit :=
  if path = 3 then s.writeParts iss a bs (pieceFuel bs.length)
  else match winHit false true (a % 2 ^ 48) bs.length with
    | some h => (s, 0, some h)
    | none => match s.fabWrite (a % 2 ^ 48) bs with
      | (s, none) => (s, bs.length, none)
      | (s, some h) => (s, 0, some h)

/-- The same, counted once it is written whole (R271). -/
def engWrite (s : State) (iss : Issuer) (path a : Nat) (bs : List Byte) : State × Nat × Option Hit :=
  match s.engPut iss path a bs with
  | (s, n, none) => (s.tallyWrite iss (path == 3) a, n, none)
  | x => x

/-! ### Counts of outstanding point copies (R189, R190) -/

def pointCount (s : State) (cell : Nat) (virt : Bool) : Nat :=
  let p := (s.sectorAt (cellSector cell)).port
  Tbl.get 0 (if virt then p.vcnt else p.fcnt) (cellIx cell)

def addPoint (s : State) (cell : Nat) (virt : Bool) (f : Nat → Nat) : State :=
  s.modSector (cellSector cell) fun k =>
    let p := k.port
    { k with port := if virt then { p with vcnt := Tbl.put p.vcnt (cellIx cell) (f (Tbl.get 0 p.vcnt (cellIx cell))) }
                     else { p with fcnt := Tbl.put p.fcnt (cellIx cell) (f (Tbl.get 0 p.fcnt (cellIx cell))) } }

/-- Is it a posted packet of a queue: one header, and for a virtual one an address space (R185)? -/
def ofQueue (q : CopyQueue) (p : Post) : Bool :=
  p.hdr == q.hdr && (p.path == 3) == (q.path == 3) && (q.path ≠ 3 || p.iss.asid == q.iss.asid)

/-- The posted packet of an index of a queue. -/
def postOf (s : State) (q : CopyQueue) (idx : Nat) : Option Post := s.posts.find? fun p => ofQueue q p && p.idx == idx

/-- A posted packet is over: it leaves the list, and a point copy's count falls. -/
def closePost (s : State) (q : CopyQueue) (idx : Nat) : State :=
  match s.postOf q idx with
  | none => s
  | some p =>
    let s := { s with posts := s.posts.filter fun p => !(ofQueue q p && p.idx == idx) }
    match p.point with
    | some v => s.addPoint p.iss.cell v (· - 1)
    | none => s

end State

/-! ### `cpy.post` (R185 to R187) -/

def pktKind (ws : List W64) : Nat := fld (wordOf ws 1) 63 56
def pktFpath (ws : List W64) : Nat := fld (wordOf ws 1) 50 48
def pktTpath (ws : List W64) : Nat := fld (wordOf ws 1) 47 45
def pktRows (ws : List W64) : Nat := fld (wordOf ws 4) 63 32
def pktRowb (ws : List W64) : Nat := fld (wordOf ws 4) 31 0

/-- The layout of a packet (R186): no reserved value, no reserved bit. The ring of kind 0x04 lies in TO's cell, so
TO is a fabric address there. -/
def pktOk (ws : List W64) : Bool :=
  let k := pktKind ws
  let w1 := wordOf ws 1
  decide (1 ≤ k) && decide (k ≤ 4) && decide (fld w1 55 53 ≤ 5) && [2, 3].contains (pktFpath ws)
  && [2, 3].contains (pktTpath ws) && fld w1 44 16 == 0 && (k == 4 || fld w1 15 0 == 0)
  && decide (1 ≤ pktRows ws) && decide (1 ≤ pktRowb ws) && (k ≠ 3 || pktRowb ws % 8 == 0)
  && ((k ≠ 1 && k ≠ 4) || pktRows ws == 1) && (pktRows ws ≠ 1 || (wordOf ws 5 == 0 && wordOf ws 6 == 0))
  && (k ≠ 4 || pktTpath ws == 2)

/-- The header's fields (R185). -/
def qRidx (ws : List W64) : Nat := (wordOf ws 1).toNat
def qBase (ws : List W64) : Nat := fld (wordOf ws 2) 63 6 * 64
def qLog2n (ws : List W64) : Nat := fld (wordOf ws 3) 63 60
def qPort (ws : List W64) : Nat := fld (wordOf ws 3) 59 58 * 256 + fld (wordOf ws 3) 57 50
def slotOff (ws : List W64) (idx : Nat) : Nat := qBase ws + 64 * (idx % 2 ^ qLog2n ws)

/-- An add of 1 to the 64-bit word WIDX. -/
def claimOne : Atomic := { n := 8, f := fun old => some ((old + 1) % 2 ^ 64), ext := unsignedBack, code := codeUnsigned }

namespace State

/-- A port is told of a queue. -/
def notifyPort (s : State) (sector : Nat) (q : CopyQueue) : State :=
  s.modSector sector fun k =>
    if k.port.queues.any fun r => r.hdr == q.hdr && r.path == q.path && (q.path ≠ 3 || r.iss.asid == q.iss.asid) then k
    else { k with port := { k.port with queues := k.port.queues ++ [q] } }

end State

/-- An option as a number, for what a firing holds while it waits. -/
def optCode : Option Nat → Nat
  | some n => n + 1
  | none => 0
def optOf (n : Nat) : Option Nat := if n = 0 then none else some (n - 1)

/-- What `cpy.post` holds once it has claimed: the index, the image's bank offset, the logged operation's number. Before that it holds
the number alone, which it has from its issue (R404). -/
def claimArg (idx img : Nat) (ord : Option Nat) : Nat := 2 * (idx + 2 ^ 64 * (img + 2 ^ 16 * optCode ord)) + 1
def issueArg (ord : Option Nat) : Nat := 2 * optCode ord

/-- The packet of a claimed index is written once its slot is free; SEQ comes last. `turn` is that of `viaPort`. DESIGN CHOICE (log 58):
a header with a reserved bit, a LOG2N outside 4 to 15, a PSECT above 167 or an address that is aligned to 8 and not to 64 is used
as it stands; R185 gives such a header no fault and no effect. -/
def cpyWrite (i : Instr) (path q arg : Nat) (turn : Bool) (s : State) : Res :=
  let idx := arg / 2 % 2 ^ 64
  let img := arg / 2 ^ 65 % 2 ^ 16
  let ord := optOf (arg / 2 ^ 81)
  (s.loadAt path q 64 none turn).then i (some arg) q fun s bs =>
    let h := wordsAt bs 8
    if 2 ^ qLog2n h ≤ (idx + 2 ^ 64 - qRidx h) % 2 ^ 64 then .next (s.waitIn i (some arg) q)
    else
      let ws := wordsAt (s.bankRead img 64) 8
      let rel := s.relLink i
      (s.storeAt path (slotOff h idx + 8) ((s.bankRead img 64).drop 8) rel false true).then i (some arg) q fun s _ =>
        (s.storeAt path (slotOff h idx) (toBytes 8 idx) rel true true).then i (some arg) q fun s _ =>
          let hdr := BitVec.ofNat 64 (if path = 3 then q else s.pathAddr path q)
          let virt := pktTpath ws == 3
          let s := if pktKind ws = 1 then s.addPoint s.cell virt (· + 1) else s
          let p : Post := { hdr := hdr, path := path, idx := idx, iss := s.issuer, ord := ord
                            point := if pktKind ws = 1 then some virt else none, seq := s.postN }
          let s : State := { s with posts := s.posts ++ [p], postN := s.postN + 1 }
          .next ((s.notifyPort (qPort h) { hdr := hdr, path := path, iss := s.issuer }).advance 4)

def cpyPostBody (d a b : Rg) (off : W32) (w : Wave) (s : State) : Res :=
  let i : Instr := .cpyPost d a b off w
  let path := w.path.toNat
  if s.me.arg.any fun k => k % 2 == 1 then cpyWrite i path s.me.addr (s.me.arg.getD 0) false s
  else
    let img := (s.readG b).toNat % 2 ^ 16
    let q := s.ea a off
    match State.bankHit img 64 with
    | some h => .next (s.raise h)
    | none =>
      let ws := wordsAt (s.bankRead img 64) 8
      let (s, ord) := match s.me.arg with
        | some k => (s, optOf (k / 2))
        | none => if pktKind ws = 4 || wordOf ws 7 ≠ 0 then s.logOrd s.issuer else (s, none)
      let arg := some (issueArg ord)
      if pktKind ws = 1 && s.pointCount s.cell (pktTpath ws == 3) = 0xFFFF then .next (s.waitIn i arg q)
      else (s.atomAt claimOne path q i.acqScope (s.relLink i)).then i arg q fun s idx =>
        cpyWrite i path q (claimArg idx img ord) true (s.writeG d (BitVec.ofNat 64 idx))

def execCpyPost (d a b : Rg) (off : W32) (w : Wave) (s : State) : Res := s.engine w (cpyPostBody d a b off w)

/-! ### The port (R188, R392, R394, R395) -/

namespace State

def modPort (s : State) (sector : Nat) (f : Port → Port) : State :=
  s.modSector sector fun k => { k with port := f k.port }

/-- A fault that ends a command of a port, noted in its window (R189) and recorded for the poster (R395). -/
def portReport (s : State) (sector : Nat) (iss : Issuer) (h : Hit) : State :=
  (s.portNote sector iss.asid h).report
    { hit := h, src := 2, iss := iss, loc := sector * 2 ^ 38 + 52 * 2 ^ 32
      port0 := (s.portWords sector).1, port1 := (s.portWords sector).2 }

/-- The progress that the port's window shows (R189). -/
def showJob (s : State) (sector : Nat) (j : CopyJob) : State :=
  s.modPort sector fun p => { p with qaddr := j.q.hdr, pidx := BitVec.ofNat 64 j.idx, rowd := j.row, byted := j.byte }

end State

/-- The fabric or virtual address of an address of a queue's path. -/
def CopyQueue.addr (q : CopyQueue) (a : Nat) : Nat := if q.path = 3 then a else fabricOf q.iss.cell q.path a
/-- The path as engines take it: fabric or virtual. -/
def CopyQueue.engPath (q : CopyQueue) : Nat := if q.path = 3 then 3 else 2

namespace State

/-- The posted packets of a queue that its port has not started. -/
def unstarted (s : State) (sector : Nat) (q : CopyQueue) : List Post :=
  s.posts.filter fun p => ofQueue q p && !((s.sectorAt sector).port.jobs.any fun j => ofQueue j.q p && j.idx == p.idx)

/-- The packet that a port fetches: the one of an index, or where the header does not give it, the oldest posted one that is not in
progress. -/
def fetched (s : State) (sector : Nat) (q : CopyQueue) (idx : Option Nat) : Option Post :=
  match idx with
  | some i => s.postOf q i
  | none => (s.unstarted sector q).head?

/-- Whose a packet is: its poster, or the queue's address space alone (R395). -/
def packetIssuer (q : CopyQueue) : Option Post → Issuer
  | some p => p.iss
  | none => { q.iss with tv := false, net := 2 ^ 32 }

/-- A packet that the port cannot fetch is over, and the port goes on with the next (R394, R395): RIDX advances where the header
lets it, the poster's count falls, and a queue that cannot advance and has no posted packet left is served no longer. -/
def skipPacket (s : State) (sector : Nat) (q : CopyQueue) (idx : Option Nat) : State :=
  let (s, stuck) : State × Bool := match idx with
    | some i => match s.engPut q.iss q.engPath (q.hdr.toNat + 8) (toBytes 8 (i + 1)) with
      | (s, _, none) => (s, false)
      | (s, _, some _) => (s, true)
    | none => (s, true)
  let s := match s.fetched sector q idx with
    | some p => s.closePost q p.idx
    | none => s
  if stuck && (s.unstarted sector q).isEmpty then
    s.modPort sector fun p => { p with queues := p.queues.filter (· ≠ q) }
  else s

end State

/-- COPY_PACKET_START (R188): the port takes the packet at RIDX once its SEQ matches, and advances RIDX; its window then shows that
packet (R189). -/
def execCopyPacketStart (sector k : Nat) (s : State) : Res :=
  let p := (s.sectorAt sector).port
  match p.queues[k]? with
  | none => .next s
  | some q =>
    if p.f.frozen then .next s
    else
      let stop (s : State) (idx : Option Nat) (h : Hit) : Res :=
        let iss := State.packetIssuer q (s.fetched sector q idx)
        let at' := (idx.orElse fun _ => (s.fetched sector q idx).map fun p => p.idx).getD 0
        let s := s.showJob sector { q := q, idx := at', pkt := [], iss := iss }
        if h.cls = 4 then .next (s.portFreeze sector iss h)
        else .next ((s.portReport sector iss h).skipPacket sector q idx)
      match s.engRead q.iss q.engPath q.hdr.toNat 64 with
      | (s, .error h) => stop s none h
      | (s, .ok bs) =>
        let h := wordsAt bs 8
        let idx := qRidx h
        match s.engRead q.iss q.engPath (q.addr (slotOff h idx)) 64 with
        | (s, .error x) => stop s (some idx) x
        | (s, .ok pb) =>
          let ws := wordsAt pb 8
          if wordOf ws 0 ≠ BitVec.ofNat 64 idx then .next s
          else match s.engPut q.iss q.engPath (q.hdr.toNat + 8) (toBytes 8 (idx + 1)) with
            | (s, _, some x) => stop s (some idx) x
            | (s, _, none) =>
              let post := s.postOf q idx
              let iss := State.packetIssuer q post
              let ord := post.bind fun x => x.ord
              let drop := (State.logOld (ord.bind fun n => s.logAt iss n)).isSome
              let j : CopyJob := { q := q, idx := idx, pkt := ws, iss := iss, ord := ord, drop := drop }
              let s := s.showJob sector j
              if pktOk ws then .next (s.modPort sector fun p => { p with jobs := p.jobs ++ [j] })
              else .next ((s.portReport sector iss { cls := 0x0E, faddr := q.addr (slotOff h idx) }).closePost q idx)

/-- How far a copy gets. -/
inductive Ran where
  | done | froze (h : Hit) | failed (h : Hit)

def Ran.stop (h : Hit) : Ran := if h.cls = 4 then .froze h else .failed h

namespace State

/-- The rest of the row in progress: it is read whole before it is written. -/
def copyRow (s : State) (j : CopyJob) : State × CopyJob × Ran :=
  let n := pktRowb j.pkt
  let src := stepAddr (wordOf j.pkt 2).toNat (wordOf j.pkt 5) j.row
  let dst := stepAddr (wordOf j.pkt 3).toNat (wordOf j.pkt 6) j.row
  let (s, got) : State × Except Hit (List Byte) :=
    if j.buf.length = n then (s, .ok j.buf)
    else if pktKind j.pkt = 3 then
      (s, .ok ((List.range (n / 8)).flatMap fun _ => toBytes 8 (wordOf j.pkt 2).toNat))
    else s.engRead j.iss (pktFpath j.pkt) src n
  match got with
  | .error h => (s, j, .stop h)
  | .ok bs =>
    match s.engWrite j.iss (pktTpath j.pkt) (stepAddr dst 1 j.byte) (bs.drop j.byte) with
    | (s, m, some h) => (s, { j with byte := j.byte + m, buf := bs }, .stop h)
    | (s, _, none) => (s, { j with row := j.row + 1, byte := 0, buf := [] }, .done)

/-- The rows that remain. -/
def copyRows (s : State) (j : CopyJob) : Nat → State × CopyJob × Ran
  | 0 => (s, j, .done)
  | fuel + 1 =>
    if pktRows j.pkt ≤ j.row then (s, j, .done)
    else match s.copyRow j with
      | (s, j, .done) => s.copyRows j fuel
      | r => r

/-- The scope of a packet's release, where it has REL (R186). -/
def pktRel (ws : List W64) : Option Nat := if (wordOf ws 1).getLsbD 51 then some (fld (wordOf ws 1) 55 53) else none

/-- The ring credit of kind 0x04 and the addition to SIG, each once and each counted (R271); a replayed task's are dropped where
its log held them when the packet started (R188, R406). The first of them takes the operation's entry (R404). -/
def copyEnd (s : State) (sector : Nat) (j : CopyJob) : State × CopyJob × Ran :=
  let l := j.ord.bind fun n => s.logAt j.iss n
  let skip := j.drop
  let dest := (wordOf j.pkt 3).toNat % 2 ^ 48
  let ring := dest / 2 ^ 16 * 2 ^ 16 + fld (wordOf j.pkt 1) 15 0
  let (s, h) : State × Option Hit :=
    if pktKind j.pkt ≠ 4 || j.paid || skip then (s, none)
    else if !ringOk ring then (s, some { cls := 3, faddr := ring, aux := 288 * 2 ^ 32 })
    else s.creditRing ring (dest % 2 ^ 16) (pktRowb j.pkt) ((pktRel j.pkt).map fun k => s.unitLink (sector * 64 + 52) k)
  let push (s : State) : State := s.tally j.iss.cell j.iss.net fun t => { t with push := t.push + 1 }
  match h with
  | some h => (s, j, .failed h)
  | none =>
    let now := pktKind j.pkt == 4 && !j.paid && !skip
    let s := if now then push (s.logPut l 3 0) else s
    let j := { j with paid := true }
    if wordOf j.pkt 7 = 0 || skip then (s, j, .done)
    else match s.unitSignal j.iss (wordOf j.pkt 7).toNat 1 (sector * 64 + 52) (pktRel j.pkt) with
      | (s, .error h) => (s, j, .stop h)
      | (s, .ok old) => (push (if pktKind j.pkt = 4 then s else s.logPut l 4 old), j, .done)

end State

/-- COPY_PACKET_COMPLETE (R188): a packet in progress runs to its end, or until a fault freezes the port (R392) or ends
the packet (R395). A packet that resumes does so where the port's window says (R394). -/
def execCopyPacketComplete (sector k : Nat) (s : State) : Res :=
  let p := (s.sectorAt sector).port
  match p.jobs[k]? with
  | none => .next s
  | some j =>
    if p.f.frozen || j.lost.isSome then .next s
    else
      let mine := j.stopped && p.qaddr == j.q.hdr && p.pidx == BitVec.ofNat 64 j.idx
      let j := if mine then { j with row := p.rowd, byte := p.byted, buf := if p.rowd = j.row then j.buf else [] } else j
      let j := { j with stopped := false }
      let (s, j, r) : State × CopyJob × Ran := match s.copyRows j (pktRows j.pkt) with
        | (s, j, .done) => s.copyEnd sector j
        | x => x
      let s := s.showJob sector j
      let ended (s : State) : State :=
        (s.modPort sector fun p => { p with jobs := p.jobs.eraseIdx k }).closePost j.q j.idx
      match r with
      | .done => .next (ended s)
      | .failed h => .next ((ended s).portReport sector j.iss h)
      | .froze h => .next ((s.modPort sector fun p => { p with jobs := p.jobs.set k { j with stopped := true } }).portFreeze sector j.iss h)

/-! ### `drain` and `sig.add` (R190, R205) -/

/-- `drain` waits for the point copies that its cell posted before it on its path, and acquires what they wrote (R190, R296). -/
def drainBody (w : Wave) (s : State) : Res :=
  let bound := s.me.arg.getD s.postN
  let open' := s.posts.any fun p => p.iss.cell == s.cell && p.point == some (w.path == 3) && decide (p.seq < bound)
  if open' then .next (s.waitIn (.drain w) (some bound) 0) else .next ((s.acquire s.version).advance 4)

def execDrain (w : Wave) (s : State) : Res := s.engine w (drainBody w)

def sigAddBody (d a b : Rg) (off : W32) (w : Wave) (s : State) : Res :=
  let i : Instr := .sigAdd d a b off w
  let va := s.ea a off
  let (s, ord) := match s.me.arg with
    | some n => (s, some n)
    | none => s.logOrd s.issuer
  let l := ord.bind fun n => s.logAt s.issuer n
  match State.logOld l with
  | some old => .next ((s.writeG d (BitVec.ofNat 64 old)).advance 4)
  | none =>
    if va % 8 ≠ 0 then .next (s.raise { cls := 3, faddr := va, aux := 8 * 2 ^ 32 })
    else (s.viaPort fun s => (s.settleAt true va 8).signalAdd s.issuer va (s.readG b).toNat
        (fun s us => s.readAs us s.version i.acqScope) fun s us => s.wroteNow us true (s.relLink i)).then i ord va fun s old =>
      .next ((((s.logPut l 4 old).tally s.cell s.ctx.net fun t => { t with push := t.push + 1 }).writeG d
        (BitVec.ofNat 64 old)).advance 4)

def execSigAdd (d a b : Rg) (off : W32) (w : Wave) (s : State) : Res := s.engine w (sigAddBody d a b off w)

end Sys2Proof.Machine
end

