-- ==== Sys2Proof/Machine/Collective.lean ====
section
/-! DEFINITION. The collective engine and the packets of the reliable transport (R204, R340 to R343, R424, R425). -/
namespace Sys2Proof.Machine

/-! ### The communicator table (R341) -/

def commV (e : BitVec 256) : Bool := e.getLsbD 255
def commVc (e : BitVec 256) : Nat := fld e 254 252
def commN (e : BitVec 256) : Nat := fld e 251 242 + 1
def commRank (e : BitVec 256) : Nat := fld e 241 232
def commSeq (e : BitVec 256) : Nat := fld e 223 192
def commPeers (e : BitVec 256) : W64 := nat64 (fld e 191 128)

namespace State

def commBase (s : State) : Nat := fld s.commtab 56 21 * 2 ^ 21
/-- An entry; a base of 0 names no table (R335). -/
def commEntry (s : State) (c : Nat) : BitVec 256 :=
  if s.commBase = 0 then 0 else BitVec.ofNat 256 (ofBytes (devLoad s.mem (s.commBase + 32 * c) 32))
/-- The frame of an entry, where it is poisoned (R397). -/
def commPoison (s : State) (c : Nat) : Option Nat := if s.commBase ≠ 0 && s.poisoned (s.commBase + 32 * c) then some (s.commBase + 32 * c) else none
def setCommEntry (s : State) (c : Nat) (e : BitVec 256) : State :=
  { s with mem := devStore s.mem (s.commBase + 32 * c) (toBytes 32 e.toNat) }

/-- The module that a rank's peer entry names (log 15, log 20). -/
def peerAt (s : State) (peers : W64) (rank : Nat) : Nat :=
  match s.readVirt (Issuer.plain Config.firmAsid) (stepAddr peers.toNat 32 rank) 32 with
  | (_, .ok bs) => Config.peerOf bs
  | (_, .error _) => 0

/-- The lowest rank of a communicator that names a module. -/
def rankOf (s : State) (e : BitVec 256) (p : Nat → Bool) : Option Nat :=
  (List.range (commN e)).find? fun r => p (s.peerAt (commPeers e) r)

def peer (s : State) (p : Nat) : Peer := Tbl.get {} s.peers p

/-- The communicators whose entry is valid (R341) and can be read (R397), in ascending order: V is the top bit of an entry's last
byte. -/
def comms (s : State) : List Nat :=
  let base := s.commBase
  if base = 0 then []
  else ((s.mem.filter fun e => decide (base ≤ e.1) && decide (e.1 < base + 2 ^ 21) && (e.1 - base) % 32 == 31 && dpaExists e.1
    && decide (128 ≤ e.2.toNat)).map fun e => (e.1 - base) / 32).filter fun c => (s.commPoison c).isNone

/-- The peers that a communicator's table names, other than this module's own rank. -/
def commNames (s : State) (c : Nat) : List Nat :=
  let e := s.commEntry c
  ((List.range (commN e)).filter (· ≠ commRank e)).map fun r => s.peerAt (commPeers e) r

/-- Every peer of the module, once. -/
def allPeers (s : State) : List Nat := (s.comms.flatMap fun c => s.commNames c).eraseDups

/-- Is a peer treated as present: it is not lost, or firmware has rebuilt a communicator that names it (R424)? The entries that named
it when it was lost are not valid. -/
def present (s : State) (p : Nat) : Bool := !(s.peer p).lost || s.allPeers.contains p

/-- Something arrives from a peer that is present. -/
def hear (s : State) (p : Nat) : State :=
  if s.present p then { s with peers := Tbl.put s.peers p { s.peer p with heard := s.clock, lost := false } } else s

/-- Has a packet of this number arrived before (R424)? -/
def duplicate (s : State) (x : PeerPacket) : Bool := (Tbl.get [] (s.peer x.peer).got x.vc).contains x.num

/-- A packet is accepted: its number is kept and it is acknowledged. -/
def acceptPacket (s : State) (x : PeerPacket) : State :=
  { s with
    peers := Tbl.put s.peers x.peer { s.peer x.peer with
      got := Tbl.put (s.peer x.peer).got x.vc (x.num :: Tbl.get [] (s.peer x.peer).got x.vc) }
    outbox := s.outbox ++ [.ack x.peer x.vc x.num] }

/-- A packet's arrival: heard, and accepted or dropped as a duplicate, which is acknowledged again. `take` uses an accepted one, where
the module can take it now; one that it cannot take is not acknowledged, and comes again (R424). -/
def receive (s : State) (x : PeerPacket) (take : State → Option Res) : Res :=
  let s := s.hear x.peer
  if !s.present x.peer then .next s
  else if s.duplicate x then .next { s with outbox := s.outbox ++ [.ack x.peer x.vc x.num] }
  else (take (s.acceptPacket x)).getD (.next s)

/-- The bytes of receive credits that a channel of a peer's port has left (R340): a packet holds its own until it is
acknowledged. -/
def creditsLeft (s : State) (p port vc : Nat) : Nat :=
  2 ^ 17 + Config.moreCredits p port vc
    - ((s.sending.filter fun x => x.peer == p && x.port == port && x.vc == vc).map fun x => x.body.length).sum

/-- The ports that are up, and of them those whose channel has credits for some bytes (R340, R424). -/
def upPorts (s : State) : List Nat := (List.range 16).filter fun p => s.ports.getLsbD p
def openPorts (s : State) (p vc n : Nat) : List Nat := s.upPorts.filter fun port => decide (n ≤ s.creditsLeft p port vc)

/-- One of some ports; the spec does not say which (log 9). -/
def anyOf (s : State) (ps : List Nat) : State × Nat :=
  let (k, s) := s.takeFree
  (s, ps.getD (Config.freeNat k % max 1 ps.length) 0)

/-- A packet leaves for a peer over a port with credits for it (R340): numbered by peer and channel, and kept until it is
acknowledged (R424). Nothing is sent to a lost peer (R425). -/
def sendPacket (s : State) (p vc : Nat) (body : List Byte) : State :=
  if !s.present p then s
  else
  let (s, port) := s.anyOf (s.openPorts p vc body.length)
  let x := s.peer p
  let num := Tbl.get 0 x.next vc
  { s with
    peers := Tbl.put s.peers p { x with next := Tbl.put x.next vc (num + 1), lost := false
                                        heard := if x.lost then s.clock else x.heard }
    sending := s.sending ++ [{ peer := p, port := port, vc := vc, num := num, tries := 0, sent := s.clock, body := body }]
    outbox := s.outbox ++ [.packet p port (fld s.netcfg 63 48) vc num body] }

end State

/-! ### `coll.post` (R204) -/

def cdComm (d : List W64) : Nat := fld (wordOf d 0) 63 48
def cdCop (d : List W64) : Nat := fld (wordOf d 0) 47 44
def cdRop (d : List W64) : Nat := fld (wordOf d 0) 43 40
def cdType (d : List W64) : Nat := fld (wordOf d 0) 39 36
def cdSend (d : List W64) : Nat := (wordOf d 1).toNat
def cdRecv (d : List W64) : Nat := (wordOf d 2).toNat
def cdRoot (d : List W64) : Nat := fld (wordOf d 3) 63 32
def cdSig (d : List W64) : Nat := (wordOf d 4).toNat
/-- The bytes of one rank's COUNT elements. -/
def cdSeg (d : List W64) : Nat := fld (wordOf d 0) 31 0 * (tyWidth (cdType d) / 8)

def cdOk (d : List W64) : Bool :=
  decide (cdCop d ≤ 4) && (decide (2 ≤ cdCop d) || decide (cdRop d ≤ 2)) && [3, 8, 9, 10].contains (cdType d)
    && fld (wordOf d 0) 35 32 == 0 && fld (wordOf d 3) 31 0 == 0 && wordOf d 5 == 0 && wordOf d 6 == 0 && wordOf d 7 == 0

/-- The operation's communicator lost a peer (R425): class 0x0C with cause 5. -/
def lostHit (comm rank : Nat) : Hit := { cls := 0x0C, cause := 5, faddr := comm, aux := rank % 2 ^ 10 * 2 ^ 54 }

def collPostBody (d a : Rg) (off : W32) (s : State) : Res :=
  let o := s.ea a off % 2 ^ 16
  match if o % 64 ≠ 0 then some { cls := 3, faddr := o, aux := 64 * 2 ^ 32 } else State.bankHit o 64 with
  | some h => .next (s.raise h)
  | none =>
    let ds := wordsAt (s.bankRead o 64) 8
    let e := s.commEntry (cdComm ds)
    if !cdOk ds then .next (s.raiseAt 2 { cls := 0x0E, faddr := cellAddr s.cell + o } 0 0)
    else if let some dpa := s.commPoison (cdComm ds) then .next (s.raiseAt 2 (State.poisonHit dpa dpa) 0 0)
    else if !commV e then
      .next (s.raiseAt 2 (lostHit (cdComm ds) ((s.rankOf e fun p => (s.peer p).lost).getD 0)) 0 0)
    else
      let (s, ord) := if cdSig ds ≠ 0 then s.logOrd s.issuer else (s, none)
      let seq := commSeq e
      let s := s.setCommEntry (cdComm ds)
        (BitVec.ofNat 256 (e.toNat - seq * 2 ^ 192 + (seq + 1) % 2 ^ 32 * 2 ^ 192))
      let x : Coll := { iss := s.issuer, comm := cdComm ds, seq := seq, desc := ds, n := commN e, rank := commRank e,
                        vc := commVc e, peers := commPeers e, ord := ord }
      .next (({ s with colls := s.colls ++ [x] }.writeG d (BitVec.ofNat 64 seq)).advance 4)

def execCollPost (d a : Rg) (off : W32) (w : Wave) (s : State) : Res := s.engine w (collPostBody d a off)

/-! ### Chunks (R342, R343) -/

/-- A segment cut into chunks of at most 64 KiB: offset and length. -/
def cutChunks (off n : Nat) : Nat → List (Nat × Nat)
  | 0 => []
  | fuel + 1 => if n = 0 then [] else (off, min n 65536) :: cutChunks (off + 65536) (n - 65536) fuel

namespace Coll

def cop (x : Coll) : Nat := cdCop x.desc
def seg (x : Coll) : Nat := cdSeg x.desc
/-- The segments of an operation: one for all-reduce and broadcast, else one for each rank. -/
def segs (x : Coll) : Nat := if x.cop = 0 || x.cop = 3 then 1 else x.n
/-- The chunks, each with its segment; a chunk's number is its place in the list. -/
def chunks (x : Coll) : List (Nat × Nat × Nat) :=
  (List.range x.segs).flatMap fun g => (cutChunks (g * x.seg) x.seg (x.seg / 65536 + 1)).map fun c => (g, c.1, c.2)
def reduces (x : Coll) : Bool := decide (x.cop ≤ 1)
/-- The bytes a rank handles: each chunk of a reduction once as a partial sum, and what lands in RECV. -/
def want (x : Coll) : Nat := (if x.reduces then x.segs * x.seg else 0) + (if x.cop = 1 then x.seg else x.segs * x.seg)
def next (x : Coll) : Nat := (x.rank + 1) % x.n

/-- What the rank itself starts: the peer rank, the chunk's offset and length, whether it is final. A reduction's
chunk `c` starts at rank `c mod n`; a rank's own segment, or the root's buffer, starts at it. -/
def starts (x : Coll) : List (Nat × Nat × Nat × Bool) :=
  match x.cop with
  | 0 | 1 => ((List.range x.chunks.length).filter fun c => c % x.n == x.rank).map fun c =>
      let k := x.chunks.getD c (0, 0, 0)
      (x.next, k.2.1, k.2.2, false)
  | 2 => (x.chunks.filter fun k => k.1 == x.rank).map fun k => (x.next, k.2.1, k.2.2, true)
  | 3 => if x.rank = cdRoot x.desc then x.chunks.map fun k => (x.next, k.2.1, k.2.2, true) else []
  | _ => x.chunks.map fun k => (k.1, k.2.1, k.2.2, true)

end Coll

/-- One pairwise combination (R204). -/
def combine (t rop a b : Nat) : Nat :=
  if tyInt t then
    let x := tyIntValue t a
    let y := tyIntValue t b
    wrapTo (tyWidth t) (if rop = 0 then x + y else if rop = 1 then max x y else min x y)
  else
    let x := tyValue t a
    let y := tyValue t b
    if rop = 0 then ((fmtOf t).round 0 false 0 (numSum 0 [x, y])).1 else exactBits t (pickNum (rop == 1) x y)

/-- Two byte runs combined element by element. -/
def combineBytes (t rop : Nat) (a b : List Byte) : Nat → List Byte
  | 0 => []
  | fuel + 1 =>
    let n := tyWidth t / 8
    if a.isEmpty then [] else
      toBytes n (combine t rop (ofBytes (a.take n)) (ofBytes (b.take n))) ++ combineBytes t rop (a.drop n) (b.drop n) fuel

namespace State

def setColl (s : State) (k : Nat) (x : Coll) : State := { s with colls := s.colls.set k x }

/-- Operations of a communicator go in SEQ order: is `k` the earliest of its own that is in progress? -/
def collTurn (s : State) (k : Nat) : Option Coll :=
  match s.colls[k]? with
  | none => none
  | some x => if (s.colls.take k).any fun y => y.comm == x.comm then none else some x

/-- A chunk as a packet (log 20). -/
def chunkBody (x : Coll) (off : Nat) (final : Bool) (bs : List Byte) : List Byte :=
  toBytes 2 x.comm ++ toBytes 4 x.seq ++ toBytes 8 off ++ toBytes 1 final.toNat ++ bs

/-- May an operation's chunk go (R343): the receiver has granted credits for the whole of it, or is lost? -/
def mayGo (s : State) (x : Coll) (m : Nat × Nat × Bool × List Byte) : Bool :=
  !s.present (s.peerAt x.peers m.1) || !(s.openPorts (s.peerAt x.peers m.1) x.vc (chunkBody x m.2.1 m.2.2.1 m.2.2.2).length).isEmpty

/-- Has an operation a chunk to send or to start? -/
def collReady (s : State) (x : Coll) : Bool :=
  match x.out.head? with
  | some m => s.mayGo x m
  | none => decide (x.sent < x.starts.length)

/-- The operations that are the earliest of their communicators and ready, of a channel. -/
def readyColls (s : State) (vc : Nat) : List Coll :=
  (List.range s.colls.length).filterMap fun k => (s.collTurn k).bind fun x => if x.vc == vc && s.collReady x then some x else none

/-- The communicator that the engine serves next on a channel (R343): round robin in ascending number. -/
def collNext (s : State) (vc : Nat) : Option Nat :=
  let cs := (s.readyColls vc).map (·.comm)
  let last := Tbl.get 0 s.served vc
  ((cs.filter fun c => decide (last ≤ c)).min?).orElse fun _ => cs.min?

/-- A fault of the collective engine: class 0x04 leaves the operation as it was before the chunk; any other ends it. -/
def collFail (s0 s : State) (k : Nat) (x : Coll) (h : Hit) : State :=
  if h.cls = 4 then s0.report { hit := h, src := 2, iss := x.iss }
  else { s with colls := s.colls.eraseIdx k }.report { hit := h, src := 2, iss := x.iss }

/-- Finished bytes go to RECV, as far as they are this rank's. -/
def toRecv (s : State) (x : Coll) (off : Nat) (bs : List Byte) : State × Nat × Option Hit :=
  let lo := if x.cop = 1 then x.rank * x.seg else 0
  if x.cop = 1 && (decide (off < lo) || decide (lo + x.seg ≤ off)) then (s, 0, none)
  else match s.writeVirt x.iss (stepAddr (cdRecv x.desc) 1 (off - lo)) bs with
    | (s, .error h) => (s, 0, some h)
    | (s, .ok ()) => (s.tallyWrite x.iss true (stepAddr (cdRecv x.desc) 1 (off - lo)), bs.length, none)

/-- The rank's own bytes of the operation, from SEND: the root's and a rank's segment stand at its start. -/
def ownBytes (s : State) (x : Coll) (off n : Nat) : State × Except Hit (List Byte) :=
  s.readVirt x.iss (stepAddr (cdSend x.desc) 1 (if x.cop = 2 then off - x.rank * x.seg else off)) n

/-- A chunk is to go to a rank: it is sent when the engine next serves the communicator (R343). -/
def chunkTo (s : State) (k rank off : Nat) (final : Bool) (bs : List Byte) : State :=
  match s.colls[k]? with
  | some x => s.setColl k { x with out := x.out ++ [(rank, off, final, bs)] }
  | none => s

/-- A finished chunk is passed on unchanged until it would return to the rank where it was finished; a reduce-scatter's
goes to the one rank whose segment it is. -/
def passOn (s : State) (k : Nat) (x : Coll) (origin off : Nat) (bs : List Byte) : State :=
  if x.cop = 1 then
    let owner := off / max x.seg 1
    if origin = x.rank && owner ≠ x.rank then s.chunkTo k owner off true bs else s
  else if x.n = 1 || x.next = origin then s else s.chunkTo k x.next off true bs

/-- A chunk's partial sum that includes this rank: finished after the last rank, else it goes on around the ring. -/
def partial' (s0 s : State) (k : Nat) (x : Coll) (c off : Nat) (bs : List Byte) : State :=
  if (x.rank + 1) % x.n = c % x.n then
    match s.toRecv x off bs with
    | (s, _, some h) => collFail s0 s k x h
    | (s, m, none) => (s.setColl k { x with got := x.got + bs.length + m }).passOn k x x.rank off bs
  else (s.setColl k { x with got := x.got + bs.length }).chunkTo k x.next off false bs

end State

/-- The operation's next chunk that this rank starts. -/
def collStart (k : Nat) (x : Coll) (s : State) : Res :=
  match x.starts[x.sent]? with
    | none => .next s
    | some (dest, off, n, final) =>
      match s.ownBytes x off n with
      | (t, .error h) => .next (State.collFail s t k x h)
      | (t, .ok bs) =>
        let y := { x with sent := x.sent + 1 }
        if x.reduces then .next (State.partial' s t k y (x.chunks.findIdx fun c => c.2.1 == off) off bs)
        else
          let here := x.cop ≠ 4 || dest == x.rank
          -- an all-to-all segment lands at the sender's place in the receiver's buffer
          let at' := if x.cop = 4 then x.rank * x.seg + off % (max x.seg 1) else off
          match if here then t.toRecv y at' bs else (t, 0, none) with
          | (t, _, some h) => .next (State.collFail s t k x h)
          | (t, m, none) =>
            let t := t.setColl k { y with got := y.got + m }
            if x.cop = 4 then .next (if here then t else t.chunkTo k dest at' final bs)
            else .next (t.passOn k x x.rank off bs)

/-- COLLECTIVE_CHUNK_SEND (R342, R343): where the operation's communicator is the one that the engine serves next on its channel,
its oldest waiting chunk goes, or its next own one starts. -/
def execCollectiveChunkSend (k : Nat) (s : State) : Res :=
  match s.collTurn k with
  | none => .next s
  | some x =>
    if s.collNext x.vc ≠ some x.comm then .next s
    else
      let t : State := { s with served := Tbl.put s.served x.vc (x.comm + 1) }
      match x.out with
      | (rank, off, final, bs) :: rest =>
        .next ((t.setColl k { x with out := rest }).sendPacket (s.peerAt x.peers rank) x.vc (State.chunkBody x off final bs))
      | [] => collStart k x t

/-- A chunk of an operation lands at this rank, as a partial sum or finished. -/
def landChunk (k : Nat) (x : Coll) (c off : Nat) (data : List Byte) (final : Bool) (s : State) : State :=
  if final then
    match s.toRecv x off data with
    | (t, _, some h) => State.collFail s t k x h
    | (t, m, none) =>
      let origin := match x.cop with
        | 0 | 1 => (c + x.n - 1) % x.n
        | 2 => (x.chunks.getD c (0, 0, 0)).1
        | 3 => cdRoot x.desc
        | _ => x.next
      (t.setColl k { x with got := x.got + m }).passOn k x origin off data
  else if !x.reduces then s
  else match s.ownBytes x off data.length with
    | (t, .error h) => State.collFail s t k x h
    | (t, .ok own) => State.partial' s t k x c off (combineBytes (cdType x.desc) (cdRop x.desc) data own data.length)

/-- COLLECTIVE_CHUNK_LAND (R342, R343): a chunk arrives for the operation of its communicator and SEQ (R426), once that is the
earliest of its communicator; a chunk of one that has ended goes to none. -/
def execCollectiveChunkLand (k : ChunkHead) (off : Nat) (data : List Byte) (final : Bool) (s : State) : Res :=
  s.receive k.pkt fun t => (t.colls.findIdx? fun x => x.comm == k.comm && x.seq == k.seq).bind fun n =>
    (t.collTurn n).bind fun x => (x.chunks.findIdx? fun c => c.2.1 == off && c.2.2 == data.length).map fun c =>
      .next (landChunk n x c off data final t)

/-- COLLECTIVE_COMPLETE (R204): everything is sent and landed; the engine adds 1 to SIG. -/
def execCollectiveComplete (k : Nat) (s : State) : Res :=
  match s.collTurn k with
  | none => .next s
  | some x =>
    if x.sent < x.starts.length || !x.out.isEmpty || x.got < x.want then .next s
    else
      let ended (s : State) : State := { s with colls := s.colls.eraseIdx k }
      let l := x.ord.bind fun n => s.logAt x.iss n
      if cdSig x.desc = 0 || (State.logOld l).isSome then .next (ended s)
      else match s.unitSignal x.iss (cdSig x.desc) 1 wideAgent (some 5) with
        | (t, .error h) => .next (State.collFail s t k x h)
        | (t, .ok old) => .next (ended ((t.logPut l 4 old).tally x.iss.cell x.iss.net fun t => { t with push := t.push + 1 }))

end Sys2Proof.Machine
end

