-- ==== Sys2Proof/Machine/Load.lean ====
section
/-! DEFINITION. What the Orrery loads into a cell from an image and an argument block (R32, R128, R133 to R136, R307,
R308), and template instances. -/
namespace Sys2Proof.Machine

/-! ### The argument block (R307) -/

def argCell (e : W64 × W64) : Nat := fld e.1 63 52
def argIx (e : W64 × W64) : Nat := fld e.1 51 44
def argKind (e : W64 × W64) : Nat := fld e.1 43 42

def readArgs (bs : List Byte) : List (W64 × W64) :=
  (List.range (bs.length / 16)).map fun k => (w64At bs (16 * k), w64At bs (16 * k + 8))

namespace Img

/-- An entry of the argument block, `before` the entries ahead of it, keeps R307's conditions. -/
def argOk (m : Img) (before : List (W64 × W64)) (e : W64 × W64) : Bool :=
  fld e.1 41 0 == 0
  && (match argKind e with
      | 0 => decide (argCell e < m.cells) && decide (1 ≤ argIx e) && decide (argIx e ≤ 31)
      | 1 => m.kindOf (argCell e) (argIx e) == 1 && decide (e.2.toNat ≤ 4095)
      | 2 => m.kindOf (argCell e) (argIx e) == 2
          && decide ((((m.places.filter fun p => p.cell == argCell e && p.place == argIx e).map fun p => p.words.length).sum
            + (before.filter fun b => argKind b == 2 && argCell b == argCell e && argIx b == argIx e).length) < 4)
      | _ => false)

def argsOk (m : Img) (before : List (W64 × W64)) : List (W64 × W64) → Bool
  | [] => true
  | e :: es => m.argOk before e && m.argsOk (before ++ [e]) es

/-- One entry of the argument block applied to the marking of its cell. -/
def applyArg (t : Tbl Place) (e : W64 × W64) : Tbl Place :=
  let p : Place := Tbl.get {} t (argIx e)
  if argKind e = 1 then Tbl.put t (argIx e) { p with count := e.2.toNat }
  else if argKind e = 2 then Tbl.put t (argIx e) { p with words := p.words ++ [e.2] }
  else t

/-- The initial marking of an abstract cell (R32, R133) as R307 amends it. -/
def marking (m : Img) (args : List (W64 × W64)) (acell : Nat) : Tbl Place :=
  (args.filter fun e => argCell e == acell).foldl applyArg
    ((m.places.filter fun p => p.cell == acell).foldl (fun t p =>
      Tbl.put t p.place { kind := p.kind, count := if p.kind = 1 then p.init else 0, words := p.words }) [])

/-- The registers that the argument block sets in an abstract cell (R307). -/
def argRegs (args : List (W64 × W64)) (acell : Nat) : Tbl W64 :=
  (args.filter fun e => argCell e == acell && argKind e == 0).foldl (fun t e => Tbl.put t (argIx e) e.2) []

/-- The transitions of an abstract cell, armed (R53, R128), with their safe points (R136). -/
def transOf (m : Img) (acell : Nat) : Tbl Trans :=
  (m.trans.filter fun t => t.cell == acell).foldl (fun x t =>
    Tbl.put x t.t { loaded := true, record := t.record, armed := true, ioff := t.at' + 8 + recBodyAt t.record
                    safe := (m.side.filter fun d => d.cell == acell && d.t == t.t).map (·.sp) }) []

/-- The context of a cell once it is loaded (R305, step 5): what the scrub leaves (R315), and what the image and the argument block
give, but for the initial marking. -/
def context (m : Img) (args : List (W64 × W64)) (acell asid : Nat) : Ctx :=
  { asid := asid, acell := acell, regs := { g := argRegs args acell }
    places := Tbl.mapV (fun _ p => { p with count := 0, words := [] }) (m.marking args acell), trans := m.transOf acell }

/-- The initial marking is injected into a loaded context (R32; R305, step 6). -/
def inject (m : Img) (args : List (W64 × W64)) (acell net clock floor : Nat) (c : Ctx) : Ctx :=
  { c with valid := true, net := net, places := m.marking args acell, touched := clock + 1, floor := floor }

/-- The `.shape` entries and then the `.data` entries of an abstract cell written into a bank (R134). -/
def loadBank (m : Img) (acell cell : Nat) (banks : Mem) : Mem :=
  (m.bank.filter fun d => d.cell == acell).foldl (fun b d => Mem.store b (cellAddr cell + d.boff) d.bytes) banks

end Img

namespace State

/-- One cell of a net instance loaded (R305, step 5). -/
def loadCell (s : State) (m : Img) (args : List (W64 × W64)) (asid acell cell : Nat) : State :=
  let s : State := { s with banks := m.loadBank acell cell s.banks }
  s.modCell cell fun c => { c with run := m.context args acell asid }

/-- The initial marking of one cell of a net instance injected (R305, step 6). -/
def injectMarking (s : State) (m : Img) (args : List (W64 × W64)) (net acell cell : Nat) : State :=
  s.modCell cell fun c => { c with run := m.inject args acell net s.clock s.version c.run }

end State

/-! ### Templates (R308) -/

def tplFirst (e : W64) : Nat := fld e 63 52
def tplCells (e : W64) : Nat := fld e 51 40
def tplInst (e : W64) : Nat := fld e 39 32

/-- The conditions of R308 on a table. -/
def tplOk (cells : Nat) (t : List W64) : Bool :=
  (t.all fun e => decide (1 ≤ tplCells e) && decide (1 ≤ tplInst e) && fld e 31 0 == 0
    && decide (tplFirst e + tplCells e ≤ cells))
  && (List.range t.length).all fun i => (List.range i).all fun j =>
      let a := wd t i
      let b := wd t j
      decide (tplFirst a + tplCells a ≤ tplFirst b) || decide (tplFirst b + tplCells b ≤ tplFirst a)
where
  wd (t : List W64) (i : Nat) : W64 := t.getD i 0

/-- The cells that a net takes (R305, step 2). -/
def cellsOf (cells : Nat) (t : List W64) : Nat := cells + (t.map fun e => tplCells e * (tplInst e - 1)).sum

/-- The template instances over the mapped cells: instance 0 on the abstract cells, the copies after them. -/
def instsOf (cells : List Nat) (n : Nat) : Nat → List W64 → List Inst
  | _, [] => []
  | k, e :: es =>
    let copies := (List.range (tplInst e - 1)).map fun j =>
      ({ tmpl := k, inst := j + 1, cells := (cells.drop (n + j * tplCells e)).take (tplCells e) } : Inst)
    ({ tmpl := k, inst := 0, cells := (cells.drop (tplFirst e)).take (tplCells e) } : Inst) :: copies
      ++ instsOf cells (n + (tplInst e - 1) * tplCells e) (k + 1) es

end Sys2Proof.Machine
end

