-- ==== Sys2Proof/Machine/Wide.lean ====
section
/-! DEFINITION. The wide form: K-blocks, merging and the normaliser (R77 to R84). -/
namespace Sys2Proof.Machine

/-- Align (R79): the floor in units of `2 ^ e`, and whether the division was inexact. -/
def alignNum (e : Int) : Num → Int × Bool
  | .fin n m pe =>
    let v : Int := if n then -(m : Int) else m
    if e ≤ pe then (v * (2 ^ (pe - e).toNat : Nat), false)
    else (v / (2 ^ (e - pe).toNat : Nat), m % 2 ^ (e - pe).toNat ≠ 0)
  | _ => (0, false)

/-- floor(log2 |p|) of a nonzero product. -/
def topBit : Num → Int
  | .fin _ m e => m.log2 + e
  | _ => 0

/-- The product of largest magnitude among nonzero ones: of several that are equal the first in ascending index, whose sign
an infinite K-block takes (DESIGN CHOICE, log 58: R79 does not say which). -/
def largest : List Num → Num
  | [] => .fin false 0 0
  | x :: xs => let y := largest xs
               if numCmp x.abs y.abs == .lt then y else x

def Wide.zero : Wide := {}
def Wide.isZero (a : Wide) : Bool := a.cls == 0 && a.w == 0 && !a.sticky
def Wide.inf (neg : Bool) : Wide := { cls := if neg then 2 else 1 }
def Wide.nan : Wide := { cls := 3 }

/-- One K-block of up to 32 products (R79). -/
def kBlock (ps : List Num) : Wide :=
  let pos := ps.any (· == .inf false)
  let neg := ps.any (· == .inf true)
  let ps' := ps.filter fun p => !p.isZero
  if ps.any Num.isNan || (pos && neg) then .nan
  else if pos then .inf false
  else if neg then .inf true
  else match ps' with
    | [] => .zero
    | p :: rest =>
      let emax := rest.foldl (fun m x => max m (topBit x)) (topBit p)
      if 471 < emax then .inf (largest ps').sign
      else
        let e := max (emax - 48) (-600)
        let as := ps'.map (alignNum e)
        { w := (as.map (·.1)).sum, e := (e + 600).toNat, sticky := as.any (·.2) }

/-- Norm (R80). -/
def Wide.norm (a : Wide) : Nat → Wide
  | 0 => a
  | fuel + 1 =>
    if 2 ^ 48 ≤ a.w || a.w < -(2 ^ 48) then
      Wide.norm { a with w := a.w / 2, e := a.e + 1, sticky := a.sticky || a.w % 2 ≠ 0 } fuel
    else if 1023 < a.e then .inf (decide (a.w < 0)) else a

def wideNorm (a : Wide) : Wide := a.norm 64

/-- Merge (R80). Where Norm itself makes a finite operand infinite, that infinity is the result, `a`'s before `b`'s (DESIGN
CHOICE, log 58: R80 tests for infinities before Norm and does not say). -/
def wideMerge (a b : Wide) : Wide :=
  if a.cls = 3 || b.cls = 3 || (a.cls = 1 && b.cls = 2) || (a.cls = 2 && b.cls = 1) then .nan
  else if a.cls ≠ 0 then a
  else if b.cls ≠ 0 then b
  else
    let a := wideNorm a
    let b := wideNorm b
    if a.cls ≠ 0 then a
    else if b.cls ≠ 0 then b
    else if a.isZero then b
    else if b.isZero then a
    else
      let e := max a.e b.e
      let da : Int := (2 ^ (e - a.e) : Nat)
      let db : Int := (2 ^ (e - b.e) : Nat)
      wideNorm { w := a.w / da + b.w / db, e := e, sticky := a.sticky || b.sticky || a.w % da ≠ 0 || b.w % db ≠ 0 }

/-- The value of a wide element (R77). -/
def Wide.value (a : Wide) : Num :=
  match a.cls with
  | 0 => let v := 2 * a.w + (if a.sticky then 1 else 0)
         .fin (decide (v < 0)) v.natAbs ((a.e : Int) - 601)
  | 1 => .inf false
  | 2 => .inf true
  | _ => .nan

/-- Products in blocks of 32 in ascending order, merged onto a sum (R81). -/
def wideSum (acc : Wide) (ps : List Num) : Nat → Wide
  | 0 => acc
  | fuel + 1 => if ps.isEmpty then acc else wideSum (wideMerge acc (kBlock (ps.take 32))) (ps.drop 32) fuel

/-- An exact dot product in the wide form. -/
def wideDot (as bs : List Num) : Wide :=
  let ps := List.zipWith (fun a b => (numMul a b).1) as bs
  wideSum .zero ps (ps.length / 32 + 1)

end Sys2Proof.Machine
end

