-- ==== Sys2Proof/Machine/Engines.lean ====
section
/-! DEFINITION. Rings, streams and walkers (R191 to R203), their faults (R392 to R395, R401). -/
namespace Sys2Proof.Machine

/-! ### Ring commands (R194 to R196, R200) -/

namespace State

/-- The fabric address of the ring object at a bank offset of the current cell. -/
def myRing (s : State) (off : Nat) : Nat := cellAddr s.cell + off % 2 ^ 16

/-- The class of a ring base in the issuing bank: misaligned to 32, or an object past the bank (R191, R194). -/
def ringBaseHit (off : Nat) : Option Hit :=
  if off % 32 ≠ 0 || 2 ^ 16 < off % 2 ^ 16 + 288 then some { cls := 3, faddr := off % 2 ^ 16, aux := 288 * 2 ^ 32 } else none

/-- The whole ring object written (R194). -/
def putRing (s : State) (r : Nat) (h : BitVec 256) : State :=
  { s with banks := Mem.store s.banks r (toBytes 32 h.toNat
      ++ (List.range 64).flatMap fun _ => toBytes 4 (slotWord false (rExpect h)).toNat) }

/-- POISON is set at a ring, the rest of its header standing. -/
def poisonRing (s : State) (r : Nat) : State :=
  let h := s.ringHead r
  s.setRingHead r (h ||| (1 <<< 199))

end State

def ringInitBody (a b : Rg) (slotu : BitVec 10) (nslotm1 : BitVec 6) (base : BitVec 16) (off : W32) (s : State) : Res :=
  let r := s.ea a off % 2 ^ 16
  let e := (s.readG b).toNat
  let slots := (nslotm1.toNat + 1) * slotu.toNat * 64
  match State.ringBaseHit r with
  | some h => .next (s.raise h)
  | none =>
    if 2 ^ 16 < base.toNat + slots then .next (s.raise { cls := 3, faddr := base.toNat, aux := slots * 2 ^ 32 })
    else if e = 0 || 0xFFFFFF < e then
      .next ((s.poisonRing (s.myRing r)).raise { cls := 0x0B, faddr := s.myRing r, aux := e % 2 ^ 24 * 2 ^ 16 })
    else .next ((s.putRing (s.myRing r) (ringHeader base.toNat slotu.toNat nslotm1.toNat e false 0 0)).advance 4)

def execRingInit (a b : Rg) (slotu : BitVec 10) (nslotm1 : BitVec 6) (base : BitVec 16) (off : W32) (w : Wave)
    (s : State) : Res := s.engine w (ringInitBody a b slotu nslotm1 base off)

/-- The bank offset of a ticket's slot. -/
def slotOffset (h : BitVec 256) (k : Nat) : Nat := rBase h + k % rN h * rSlotBytes h

/-- `ring.await`: the ticket is complete, or with FREE its slot is free. ACQ observes the ticket's credits (R195, R290). -/
def awaitBody (i : Instr) (free : Bool) (d a b : Rg) (off : W32) (s : State) : Res :=
  let r := s.ea a off % 2 ^ 16
  let k := (s.readG b).toNat % 2 ^ 32
  match State.ringBaseHit r with
  | some h => .next (s.raise h)
  | none =>
    let h := s.ringHead (s.myRing r)
    let ahead := diff32 k (rRcnt h)
    if rPoison h || 2 ^ 31 ≤ ahead then .next (s.raise (s.ringHit (s.myRing r) (k % rN h) 0 true))
    else if (if free then decide (ahead < rN h) else decide (ahead < diff32 (rWcnt h) (rRcnt h))) then
      let s := match i.acqScope with
        | some scope => if free then s else s.observe scope (s.slotLinks (s.myRing r) (k % rN h))
        | none => s
      .next ((s.writeG d (BitVec.ofNat 64 (slotOffset h k))).advance 4)
    else .next (s.waitIn i none r)

def ringAwaitBody (d a b : Rg) (off : W32) (w : Wave) (s : State) : Res := awaitBody (.ringAwait d a b off w) false d a b off s
def ringAwaitFreeBody (d a b : Rg) (off : W32) (w : Wave) (s : State) : Res :=
  awaitBody (.ringAwaitFree d a b off w) true d a b off s
def execRingAwait (d a b : Rg) (off : W32) (w : Wave) (s : State) : Res := s.engine w (ringAwaitBody d a b off w)
def execRingAwaitFree (d a b : Rg) (off : W32) (w : Wave) (s : State) : Res := s.engine w (ringAwaitFreeBody d a b off w)

def ringRelBody (a : Rg) (off : W32) (s : State) : Res :=
  let r := s.ea a off % 2 ^ 16
  match State.ringBaseHit r with
  | some h => .next (s.raise h)
  | none =>
    let h := s.ringHead (s.myRing r)
    if rPoison h || rRcnt h = rWcnt h then .next (s.raise (s.ringHit (s.myRing r) 0 0 false))
    else .next ((s.setRingHead (s.myRing r) (rWith h false (rWcnt h) (rRcnt h + 1))).advance 4)

def execRingRel (a : Rg) (off : W32) (w : Wave) (s : State) : Res := s.engine w (ringRelBody a off)

def strRetBody (a b : Rg) (off : W32) (s : State) : Res :=
  let r := s.ea a off % 2 ^ 16
  let k := (s.readG b).toNat % 2 ^ 32
  match State.ringBaseHit r with
  | some h => .next (s.raise h)
  | none =>
    let h := s.ringHead (s.myRing r)
    if rPoison h || s.ticketDone (s.myRing r) k || rN h ≤ diff32 k (rRcnt h) then
      .next (s.raise (s.ringHit (s.myRing r) (k % rN h) 0 true))
    else .next ((s.completeSlot (s.myRing r) (k % rN h)).advance 4)

def execStrRet (a b : Rg) (off : W32) (w : Wave) (s : State) : Res := s.engine w (strRetBody a b off)

/-! ### Faults of the engines of base dies and the capacity tier (R392 to R395) -/

namespace State

/-- The fault state of an engine: its owner and its number in the owner's table (R393). -/
def engFault (s : State) (o n : Nat) : EngFault := Tbl.get {} (s.ownerAt o).faults n
def setEngFault (s : State) (o n : Nat) (f : EngFault) : State :=
  s.modOwner o fun x => { x with faults := Tbl.put x.faults n f }

/-- The engine notes its fault and its progress (R393), unless one stands there that has frozen it; its record shows them, and class
0x04 freezes it (R392). -/
def engFail (s : State) (o n src : Nat) (iss : Issuer) (h : Hit) (p0 p1 : Nat) : State :=
  (if (s.engFault o n).frozen then s
   else s.setEngFault o n { frozen := h.cls == 4, cls := h.cls, cause := h.cause, asid := iss.asid, faddr := nat64 h.faddr,
                            prog0 := nat64 p0, prog1 := nat64 p1 }).report
    { hit := h, src := src, iss := iss, port0 := p0, port1 := p1 }

/-- One of some numbers, which the spec leaves open (log 9). -/
def pickFree (s : State) (l : List Nat) : Option (Nat × State) :=
  match l with
  | [] => none
  | x :: _ =>
    let (k, s) := s.takeFree
    some (l.getD (Config.freeNat k % l.length) x, s)

end State

/-! ### Streams (R197 to R201) -/

def sdPull (d : List W64) : Bool := (wordOf d 0).getLsbD 63
def sdScope (d : List W64) : Nat := fld (wordOf d 0) 62 60
def sdRing (d : List W64) : Nat := fld (wordOf d 0) 47 0
def sdBase (d : List W64) : Nat := (wordOf d 1).toNat
def sdRows (d : List W64) : Nat := fld (wordOf d 2) 63 48
def sdRowb (d : List W64) : Nat := fld (wordOf d 2) 47 32
def sdTiles (d : List W64) : Nat := fld (wordOf d 5) 63 32
def sdBytes (d : List W64) : Nat := sdRows d * sdRowb d
/-- The memory address of a row of a tile (R198). -/
def sdRow (d : List W64) (tile row : Nat) : Nat := stepAddr (stepAddr (sdBase d) (wordOf d 4) tile) (wordOf d 3) row

/-- The layout of a stream descriptor (R197, R412). -/
def sdOk (d : List W64) (h : BitVec 256) : Bool :=
  decide (fld (wordOf d 0) 62 60 ≤ 5) && fld (wordOf d 0) 59 48 == 0 && ringOk (sdRing d) && decide (vaHome (sdBase d) ≤ 3)
    && decide (1 ≤ sdRows d) && decide (1 ≤ sdRowb d) && decide (sdBytes d ≤ rSlotBytes h) && fld (wordOf d 2) 31 0 == 0
    && decide (1 ≤ sdTiles d) && fld (wordOf d 5) 31 0 == 0 && wordOf d 6 == 0 && wordOf d 7 == 0

/-- A 64-byte descriptor in the issuing bank, aligned to 64. -/
def State.descHit (off : Nat) : Option Hit :=
  if off % 64 ≠ 0 then some { cls := 3, faddr := off % 2 ^ 16, aux := 64 * 2 ^ 32 } else State.bankHit off 64

def State.descWords (s : State) (off : Nat) : List W64 := wordsAt (s.bankRead off 64) 8

/-- A descriptor of 64 bytes, and the number of its logged operation (R404), as a command that waits for an engine holds them. -/
def descArg (d : List W64) (ord : Option Nat) : Nat := ofBytes (State.wordBytes d) + 2 ^ 512 * optCode ord
def argDesc (k : Nat) : List W64 := wordsAt (toBytes 64 k) 8
def argDescOrd (k : Nat) : Option Nat := optOf (k / 2 ^ 512)

/-- A stream takes a descriptor, or the command waits for a free one (R198). -/
def strTake (d a : Rg) (off : W32) (w : Wave) (ds : List W64) (ord : Option Nat) (s : State) : Res :=
  let h := s.ringHead (sdRing ds)
  let o := (vaOwner (sdBase ds)).getD 0
  match s.pickFree ((List.range 128).filter fun n => (Tbl.find (s.ownerAt o).streams n).isNone) with
  | none => .next (s.waitIn (.strSub d a off w) (some (descArg ds ord)) (s.ea a off % 2 ^ 16))
  | some (n, s) =>
    let drop := (State.logOld (ord.bind fun n => s.logAt s.issuer n)).isSome
    let x : Stream := { iss := s.issuer, desc := ds, t0 := if sdPull ds then rRcnt h else rWcnt h, ord := ord, drop := drop }
    .next (((s.modOwner o fun y => { y with streams := Tbl.put y.streams n x }).writeG d
      (BitVec.ofNat 64 (o * 128 + n))).advance 4)

/-- `str.sub` (R198). DESIGN CHOICE (log 58): it reads and checks its descriptor once, when it issues; the spec does not say what one
that waits for a stream does. -/
def strSubBody (d a : Rg) (off : W32) (w : Wave) (s : State) : Res :=
  match s.me.arg with
  | some k => strTake d a off w (argDesc k) (argDescOrd k) s
  | none =>
    let e := s.ea a off % 2 ^ 16
    match State.descHit e with
    | some h => .next (s.raise h)
    | none =>
      let ds := s.descWords e
      if !sdOk ds (s.ringHead (sdRing ds)) then .next (s.raiseAt 2 { cls := 0x0E, faddr := cellAddr s.cell + e } 0 0)
      else
        let (s, ord) := if sdPull ds then (s, none) else s.logOrd s.issuer
        strTake d a off w ds ord s

def execStrSub (d a : Rg) (off : W32) (w : Wave) (s : State) : Res := s.engine w (strSubBody d a off w)

namespace State

/-- Does a firing of some cell wait in `str.unsub` for a stream? -/
def unsubWaits (s : State) (o n : Nat) : Bool :=
  s.cells.any fun e => (e.2.run.firings ++ e.2.sh0.firings ++ e.2.sh1.firings).any fun f => match f.wait with
    | some (.strUnsub _ _ _) => f.arg == some (o * 128 + n)
    | _ => false

/-- A stream frees itself; one that `str.unsub` waits for keeps its count until the wait ends. -/
def freeStream (s : State) (o n : Nat) : State :=
  match Tbl.find (s.ownerAt o).streams n with
  | some x =>
    let s := s.setEngFault o n { s.engFault o n with frozen := false }
    if s.unsubWaits o n then s.modOwner o fun y => { y with streams := Tbl.put y.streams n { x with ended := true } }
    else s.modOwner o fun y => { y with streams := Tbl.del y.streams n }
  | none => s

end State

/-- `str.unsub` (R201): a stream with no tile in progress stops at once; one that has begun a tile, or froze, stops after it. -/
def strUnsubBody (d a : Rg) (w : Wave) (s : State) : Res :=
  let id := match s.me.arg with
    | some n => n
    | none => (s.readG a).toNat
  let o := id / 128
  let n := id % 128
  match if id < 1024 then Tbl.find (s.ownerAt o).streams n else none with
  | none => .next ((s.writeG d 0).advance 4)
  | some x =>
    if x.iss.net ≠ s.ctx.net then .next ((s.writeG d 0).advance 4)
    else if x.ended || (!(s.engFault o n).frozen && x.row == 0 && x.lost.isNone) then
      .next (((s.modOwner o fun y => { y with streams := Tbl.del y.streams n }).writeG d (BitVec.ofNat 64 x.tile)).advance 4)
    else .next ((s.modOwner o fun y => { y with streams := Tbl.put y.streams n { x with stop := true } }).waitIn
      (.strUnsub d a w) (some id) 0)

def execStrUnsub (d a : Rg) (w : Wave) (s : State) : Res := s.engine w (strUnsubBody d a w)

namespace State

/-- A run of rows of a tile: the rows done, and the class that stops it. `move` carries one row. -/
def rowRun (s : State) (move : State → Nat → State × Option Hit) (row rows : Nat) : Nat → State × Nat × Option Hit
  | 0 => (s, row, none)
  | fuel + 1 =>
    if rows ≤ row then (s, row, none)
    else match move s row with
      | (s, some h) => (s, row, some h)
      | (s, none) => s.rowRun move (row + 1) rows fuel

/-- Bytes of a slot area on chip, which a ring that `ring.init` wrote keeps within its bank. -/
def slotHit (a n : Nat) : Option Hit := if a % 2 ^ 16 + n ≤ 2 ^ 16 then none else some { cls := 3, faddr := a, aux := n * 2 ^ 32 }

/-- One row from memory into a slot (R199). -/
def pushRow (s : State) (x : Stream) (slot row : Nat) : State × Option Hit :=
  let n := sdRowb x.desc
  let dest := slot + row * n
  match s.readVirt x.iss (sdRow x.desc x.tile row) n with
  | (s, .error h) => (s, some h)
  | (s, .ok bs) => match slotHit dest n with
    | some h => (s, some h)
    | none => ({ s with banks := Mem.store s.banks dest bs }.tallyWrite x.iss false dest, none)

/-- One row from a slot into memory (R200). -/
def pullRow (s : State) (x : Stream) (slot row : Nat) : State × Option Hit :=
  let n := sdRowb x.desc
  let src := slot + row * n
  match slotHit src n with
  | some h => (s, some h)
  | none =>
    let (s, _, h) := s.engWrite x.iss 3 (sdRow x.desc x.tile row) (Mem.load s.banks src n)
    (s, h)

/-- A stream's tile is done: the stream goes on, or frees itself after its last tile or after `str.unsub`. -/
def nextTile (s : State) (o n : Nat) (x : Stream) : State :=
  let y := { x with tile := x.tile + 1, row := 0 }
  let s := s.modOwner o fun z => { z with streams := Tbl.put z.streams n y }
  if x.stop || sdTiles x.desc ≤ y.tile then s.freeStream o n else s

/-- A tile of a stream: its rows, then its end; a fault freezes the stream or ends and frees it. -/
def runTile (s : State) (o n : Nat) (x : Stream) (move : State → Nat → State × Option Hit) (done : State → State) : State :=
  match s.rowRun move x.row (sdRows x.desc) (sdRows x.desc) with
  | (s, _, none) => done s
  | (s, row, some h) =>
    let s := s.modOwner o fun z => { z with streams := Tbl.put z.streams n { x with row := row } }
    (if h.cls = 4 then s else s.freeStream o n).engFail o n 2 x.iss h x.tile row

/-- Has a stream its tile's ticket: a free slot for a push, a complete one for a pull (R199, R200)? -/
def hasTicket (s : State) (x : Stream) : Bool :=
  let h := s.ringHead (sdRing x.desc)
  let k := x.t0 + x.tile
  if sdPull x.desc then decide (diff32 k (rRcnt h) < diff32 (rWcnt h) (rRcnt h)) else decide (diff32 k (rRcnt h) < rN h)

/-- The streams of a controller that can go on with a tile. -/
def canServe (s : State) (o c : Nat) : List Nat :=
  (List.range 16).filterMap fun j => match Tbl.find (s.ownerAt o).streams (16 * c + j) with
    | some x => if x.ended || x.lost.isSome || (s.engFault o (16 * c + j)).frozen || !s.hasTicket x then none else some (16 * c + j)
    | none => none

/-- The stream that a controller serves next (R198): round robin, from the one after the last. -/
def streamTurn (s : State) (o c : Nat) : Option Nat :=
  let ns := s.canServe o c
  (ns.find? fun n => decide (Tbl.get 0 (s.ownerAt o).turn c ≤ n)).orElse fun _ => ns.head?

/-- The stream, if it goes on with a tile now. -/
def readyStream (s : State) (o n : Nat) (pull : Bool) : Option Stream :=
  match Tbl.find (s.ownerAt o).streams n with
  | some x => if s.streamTurn o (n / 16) = some n && sdPull x.desc == pull then some x else none
  | none => none

/-- Its controller has served it. -/
def servedStream (s : State) (o n : Nat) : State := s.modOwner o fun y => { y with turn := Tbl.put y.turn (n / 16) (n + 1) }

end State

/-- PUSH_STREAM_TILE (R199): once the ticket's slot is free, the tile's rows are written into it and its bytes go to
the ring as a credit. -/
def execPushStreamTile (span n : Nat) (s : State) : Res :=
  match s.readyStream span n false with
  | none => .next s
  | some x =>
    let r := sdRing x.desc
    let slot := slotAddr r (s.ringHead r) (x.t0 + x.tile)
    .next ((s.servedStream span n).runTile span n x (fun s row => s.pushRow x slot row) fun s =>
      let c : Credit := { iss := x.iss, ring := r, off := slot % 2 ^ 16, n := sdBytes x.desc, src := 2
                          stream := some (span, n), ord := x.ord, drop := x.drop, prog0 := x.tile, prog1 := sdRows x.desc
                          rel := some (s.unitLink (spanAgent span) (sdScope x.desc)) }
      { s with credits := s.credits ++ [c] }.nextTile span n x)

/-- PULL_STREAM_TILE (R200): once the ticket is complete, the slot's rows are written to memory and the slot is
released. -/
def execPullStreamTile (span n : Nat) (s : State) : Res :=
  match s.readyStream span n true with
  | none => .next s
  | some x =>
    let r := sdRing x.desc
    let slot := slotAddr r (s.ringHead r) (x.t0 + x.tile)
    .next ((s.servedStream span n).runTile span n x (fun s row => s.pullRow x slot row) fun s =>
      let h := s.ringHead r
      (s.setRingHead r (rWith h (rPoison h) (rWcnt h) (rRcnt h + 1))).nextTile span n x)

/-- RING_CREDIT (R192): credit `k` on its way reaches its ring. A replayed task's credit that its log holds is dropped
(R406). Every performed one is counted (R271), and the command's first takes its entry of the log (R404). One that the ring
refuses is its engine's last fault (R393), ends its command and frees its stream (R395, R401). -/
def execRingCredit (k : Nat) (s : State) : Res :=
  match s.credits[k]? with
  | none => .next s
  | some c =>
    let s := { s with credits := s.credits.eraseIdx k }
    let l := c.ord.bind fun n => s.logAt c.iss n
    if c.drop then .next s
    else match s.creditRing c.ring c.off c.n c.rel with
      | (s, none) =>
        .next ((if s.logged l then s else s.logPut l 3 0).tally c.iss.cell c.iss.net fun t => { t with push := t.push + 1 })
      | (s, some h) =>
        match c.stream with
        | some (o, n) =>
          let s := match Tbl.find (s.ownerAt o).streams n with
            | some x => if x.iss = c.iss then s.freeStream o n else s
            | none => s
          .next (s.engFail o n c.src c.iss h c.prog0 c.prog1)
        | none => .next (s.report { hit := h, src := c.src, iss := c.iss, port0 := c.prog0, port1 := c.prog1 })

/-! ### Walkers (R202, R203) -/

def wdEntry (d : List W64) : Nat := (wordOf d 0).toNat
def wdQuery (d : List W64) : Nat := (wordOf d 1).toNat
def wdDim (d : List W64) : Nat := fld (wordOf d 2) 63 48
def wdType (d : List W64) : Nat := fld (wordOf d 2) 47 44
def wdK (d : List W64) : Nat := fld (wordOf d 2) 43 38 + 1
def wdBeam (d : List W64) : Nat := fld (wordOf d 2) 37 32 + 1
def wdHops (d : List W64) : Nat := fld (wordOf d 2) 31 16
def wdRing (d : List W64) : Nat := fld (wordOf d 3) 63 16
def wdTicket (d : List W64) : Nat := fld (wordOf d 4) 31 0

/-- The layout of a walk descriptor (R202, R412). -/
def wdOk (d : List W64) : Bool :=
  vaHome (wdEntry d) == 8 && decide (1 ≤ wdDim d) && decide (wdDim d ≤ 4096) && [8, 10, 11].contains (wdType d)
    && decide (1 ≤ wdHops d) && fld (wordOf d 2) 15 0 == 0 && ringOk (wdRing d) && fld (wordOf d 3) 15 0 == 0
    && fld (wordOf d 4) 63 32 == 0 && wordOf d 5 == 0 && wordOf d 6 == 0 && wordOf d 7 == 0

/-- A walker accepts a descriptor, or the command waits for one (R203). A descriptor that breaks R202 is the walker's fault. -/
def walkTake (a : Rg) (off : W32) (w : Wave) (d : List W64) (ord : Option Nat) (s : State) : Res :=
  let e := s.ea a off % 2 ^ 16
  match s.pickFree ((List.range 32).filter fun n => (Tbl.find (s.ownerAt 8).walkers n).isNone) with
  | none => .next (s.waitIn (.walkPost a off w) (some (descArg d ord)) e)
  | some (n, s) =>
    if !wdOk d then .next ((s.engFail 8 n 4 s.issuer { cls := 0x0E, faddr := cellAddr s.cell + e } 0 0).advance 4)
    else
      let x : Walk := { iss := s.issuer, desc := d, ord := ord }
      .next ((s.modOwner 8 fun o => { o with walkers := Tbl.put o.walkers n x }).advance 4)

/-- `walk.post` (R203). DESIGN CHOICE (log 58): it reads its descriptor once, when it issues; the spec does not say what one that waits
for a walker does. -/
def walkPostBody (a : Rg) (off : W32) (w : Wave) (s : State) : Res :=
  match s.me.arg with
  | some k => walkTake a off w (argDesc k) (argDescOrd k) s
  | none =>
    let e := s.ea a off % 2 ^ 16
    match State.descHit e with
    | some h => .next (s.raise h)
    | none =>
      let d := s.descWords e
      let (s, ord) := if wdOk d then s.logOrd s.issuer else (s, none)
      walkTake a off w d ord s

def execWalkPost (a : Rg) (off : W32) (w : Wave) (s : State) : Res := s.engine w (walkPostBody a off w)

/-- A node in a search: address, score, block. -/
abbrev Found := Nat × W32 × Nat

/-- Does the first node rank before the second: descending score, NaN last, then the lower block (R203)? -/
def ranks (a b : Found) : Bool :=
  let x := f32.value a.2.1.toNat
  let y := f32.value b.2.1.toNat
  if x.isNan && y.isNan then decide (a.2.2 < b.2.2)
  else if x.isNan then false
  else if y.isNan then true
  else match numCmp x y with
    | .gt => true
    | .lt => false
    | .eq => decide (a.2.2 < b.2.2)

def rankIn (a : Found) : List Found → List Found
  | [] => [a]
  | b :: bs => if ranks a b then a :: b :: bs else b :: rankIn a bs
/-- The best of some nodes, in order. -/
def bestOf (n : Nat) (l : List Found) : List Found := (l.foldl (fun t a => rankIn a t) []).take n

namespace State

/-- A vector of the descriptor's type in memory. -/
def walkVector (s : State) (x : Walk) (va : Nat) : State × Except Hit (List Num) :=
  let b := tyWidth (wdType x.desc) / 8
  match s.readVirt x.iss va (wdDim x.desc * b) with
  | (s, .error h) => (s, .error h)
  | (s, .ok bs) => (s, .ok ((List.range (wdDim x.desc)).map fun k => tyValue (wdType x.desc) (ofBytes ((bs.drop (k * b)).take b))))

/-- A node record: its words. -/
def walkNode (s : State) (x : Walk) (va : Nat) : State × Except Hit (List W64) :=
  match s.readVirt x.iss va 64 with
  | (s, .error h) => (s, .error h)
  | (s, .ok bs) =>
    let ws := wordsAt bs 8
    if 24 < fld (wordOf ws 0) 63 56 then (s, .error { cls := 0x0E, faddr := va }) else (s, .ok ws)

/-- A node with its score (R203). -/
def walkScore (s : State) (x : Walk) (q : List Num) (va : Nat) : State × Except Hit Found :=
  match s.walkNode x va with
  | (s, .error h) => (s, .error h)
  | (s, .ok ws) => match s.walkVector x (wordOf ws 1).toNat with
    | (s, .error h) => (s, .error h)
    | (s, .ok k) => (s, .ok (va, BitVec.ofNat 32 (f32.round 0 false 0 (wideDot q k).value).1, fld (wordOf ws 0) 27 0))

/-- The addresses of the neighbours of some nodes, in order. -/
def walkNear (s : State) (x : Walk) : List Found → State × Except Hit (List Nat)
  | [] => (s, .ok [])
  | f :: fs => match s.walkNode x f.1 with
    | (s, .error h) => (s, .error h)
    | (s, .ok ws) =>
      let n := fld (wordOf ws 0) 63 56
      match s.readVirt x.iss (wordOf ws 2).toNat (8 * n) with
      | (s, .error h) => (s, .error h)
      | (s, .ok bs) => match s.walkNear x fs with
        | (s, .error h) => (s, .error h)
        | (s, .ok rest) => (s, .ok ((wordsAt bs n).map (·.toNat) ++ rest))

def walkScores (s : State) (x : Walk) (q : List Num) : List Nat → State × Except Hit (List Found)
  | [] => (s, .ok [])
  | a :: as => match s.walkScore x q a with
    | (s, .error h) => (s, .error h)
    | (s, .ok f) => match s.walkScores x q as with
      | (s, .error h) => (s, .error h)
      | (s, .ok fs) => (s, .ok (f :: fs))

/-- One expansion of the beam: the walk after it, and whether the beam changed. -/
def walkHop (s : State) (x : Walk) (q : List Num) : State × Except Hit (Walk × Bool) :=
  match s.walkNear x x.beam with
  | (s, .error h) => (s, .error h)
  | (s, .ok near) =>
    let fresh := (near.filter fun a => !x.seen.any fun f => f.1 == a).eraseDups
    match s.walkScores x q fresh with
    | (s, .error h) => (s, .error h)
    | (s, .ok fs) =>
      let beam := bestOf (wdBeam x.desc) (x.beam ++ fs)
      (s, .ok ({ x with hops := x.hops + 1, beam := beam, seen := x.seen ++ fs }, decide (beam ≠ x.beam)))

def walkHops (s : State) (x : Walk) (q : List Num) : Nat → State × Walk × Option Hit
  | 0 => (s, x, none)
  | fuel + 1 =>
    if wdHops x.desc ≤ x.hops then (s, x, none)
    else match s.walkHop x q with
      | (s, .error h) => (s, x, some h)
      | (s, .ok (x, true)) => s.walkHops x q fuel
      | (s, .ok (x, false)) => (s, x, none)

/-- The search, from where it stands. -/
def walkRun (s : State) (x : Walk) : State × Walk × Option Hit :=
  match s.walkVector x (wdQuery x.desc) with
  | (s, .error h) => (s, x, some h)
  | (s, .ok q) =>
    if x.seen.isEmpty then match s.walkScore x q (wdEntry x.desc) with
      | (s, .error h) => (s, x, some h)
      | (s, .ok f) => s.walkHops { x with beam := [f], seen := [f] } q (wdHops x.desc)
    else s.walkHops x q (wdHops x.desc)

end State

/-- A result entry. -/
def foundWord (f : Found) : W64 := nat64 (f.2.1.toNat * 2 ^ 32 + f.2.2 % 2 ^ 28)
/-- The result of a search (R203). -/
def walkResult (x : Walk) : List W64 :=
  let l := (bestOf (wdK x.desc) x.seen).map foundWord
  l ++ List.replicate (wdK x.desc - l.length) (BitVec.allOnes 64)

/-- WALK_RESULT_WRITE (R203): walker `n` searches, and once the ticket's slot is free writes its result there and
credits it. -/
def execWalkResultWrite (n : Nat) (s : State) : Res :=
  match Tbl.find (s.ownerAt 8).walkers n with
  | none => .next s
  | some x =>
    if (s.engFault 8 n).frozen || x.lost.isSome then .next s
    else
      let put (s : State) (x : Walk) : State := s.modOwner 8 fun o => { o with walkers := Tbl.put o.walkers n x }
      let free (s : State) : State := s.modOwner 8 fun o => { o with walkers := Tbl.del o.walkers n }
      let (s, x, h) := if x.done then (s, x, none) else s.walkRun x
      match h with
      | some h =>
        .next ((if h.cls = 4 then put s x else free s).engFail 8 n 4 x.iss h x.hops 0)
      | none =>
        let r := wdRing x.desc
        let rh := s.ringHead r
        if rN rh ≤ diff32 (wdTicket x.desc) (rRcnt rh) then .next (put s { x with done := true })
        else
          let slot := slotAddr r rh (wdTicket x.desc)
          let len := 8 * wdK x.desc
          match State.slotHit slot len with
          | some h => .next ((free s).engFail 8 n 4 x.iss h x.hops 0)
          | none =>
            let s := { s with banks := Mem.store s.banks slot (State.wordBytes (walkResult x)) }.tallyWrite x.iss false slot
            let drop := (State.logOld (x.ord.bind fun n => s.logAt x.iss n)).isSome
            let c : Credit := { iss := x.iss, ring := r, off := slot % 2 ^ 16, n := len, src := 4, stream := some (8, n), ord := x.ord, drop := drop
                                prog0 := x.hops, rel := some (s.unitLink wideAgent 3) }
            .next (free { s with credits := s.credits ++ [c] })

end Sys2Proof.Machine
end

