-- ==== Sys2Proof/Machine/Matrix.lean ====
section
/-! DEFINITION. The matrix node and its normaliser (R234 to R247, R283, R414). -/
namespace Sys2Proof.Machine

/-! ### Fields of a token (R236 to R246) -/

/-- A product or a drain reads rows and columns 0 to M − 1 and N − 1, a load K rows of N elements. -/
structure MxShape where
  m  : Nat
  k  : Nat
  n  : Nat
  q  : Bool := false
  sc : Bool := false

def dim (x : BitVec 7) : Nat := x.toNat + 1

/-- The region drain or plain drain that an instruction asks for: shape, ACC, BYP, NOWR. -/
def drainOf (i : Instr) : Option (MxShape × Bool × Bool × Bool) :=
  match i with
  | .mxDrain _ _ _ mm1 nm1 acc q byp nowr _ _ => some (⟨dim mm1, 0, dim nm1, q, false⟩, acc, byp, nowr)
  | _ => none

/-- The product that an instruction asks for: shape, ACC, and whether its activations come from the bypass buffer. -/
def productOf (i : Instr) : Option (MxShape × Bool × Bool) :=
  match i with
  | .mxMul _ _ _ mm1 km1 nm1 acc q sc _ _ => some (⟨dim mm1, dim km1, dim nm1, q, sc⟩, acc, false)
  | .mxMulb _ mm1 km1 nm1 acc q _ => some (⟨dim mm1, dim km1, dim nm1, q, false⟩, acc, true)
  | _ => none

namespace State

/-! ### Sending (R235, R236, R238) -/

/-- A completion target in a register: none for D = 0 (R236). -/
def target (s : State) (d : Rg) : Except Hit (Option (Nat × Nat)) :=
  if d = 0 then .ok none
  else
    let v := s.readG d
    if fld v 63 20 ≠ 0 then .error { cls := 3, faddr := v.toNat }
    else match s.resolve s.cell s.ctx.net (fld v 19 8) with
      | some c => .ok (some (c, fld v 7 0))
      | none => .error { cls := 3, faddr := v.toNat }

/-- A token goes to the node's ports; its firing waits until the node accepts it. -/
def sendToken (s : State) (i : Instr) (a b : W64) (t : Option (Nat × Nat)) : State :=
  let x : MxToken := { instr := i, iss := s.issuer, a := a, b := b, target := t, sent := s.clock }
  (s.commit.modSector s.sector fun k => { k with node := { k.node with ports := k.node.ports ++ [x] } }).waitIn i none 0

/-- An E-format command of the node: its target, and where it has an operand its layout word and die (R236). -/
def mxCommand (s : State) (i : Instr) (d : Rg) (op : Option (Nat × Nat × W64)) (a b : W64) : Res :=
  match s.target d with
  | .error h => .next (s.raise h)
  | .ok t => match op with
    | none => .next (s.sendToken i a b t)
    | some (path, ea, layout) =>
      let at' := s.pathAddr path ea
      if fld layout 63 32 ≠ 0 then .next (s.raise { cls := 0x0E })
      else if path = 2 && cellDie (faCell at') ≠ cellDie s.cell then .next (s.raise { cls := 3, faddr := at' })
      else .next (s.sendToken i (BitVec.ofNat 64 at') layout t)

end State

def execMxLds (d a b : Rg) (km1 nm1 : BitVec 7) (sc : Bool) (off : W32) (w : Wave) (s : State) : Res :=
  s.onWave w fun s => s.mxCommand (.mxLds d a b km1 nm1 sc off w) d (some (w.path.toNat, s.ea a off, s.readG b)) 0 0
def execMxMul (d a b : Rg) (mm1 km1 nm1 : BitVec 7) (acc q sc : Bool) (off : W32) (w : Wave) (s : State) : Res :=
  s.onWave w fun s =>
    s.mxCommand (.mxMul d a b mm1 km1 nm1 acc q sc off w) d (some (w.path.toNat, s.ea a off, s.readG b)) 0 0
def execMxMulb (d : Rg) (mm1 km1 nm1 : BitVec 7) (acc q : Bool) (w : Wave) (s : State) : Res :=
  s.onWave w fun s => s.mxCommand (.mxMulb d mm1 km1 nm1 acc q w) d none 0 0
def execMxDrain (d a b : Rg) (mm1 nm1 : BitVec 7) (acc q byp nowr : Bool) (off : W32) (w : Wave) (s : State) : Res :=
  s.onWave w fun s =>
    s.mxCommand (.mxDrain d a b mm1 nm1 acc q byp nowr off w) d (some (w.path.toNat, s.ea a off, s.readG b)) 0 0
def execMxScl (d a b : Rg) (w : Wave) (s : State) : Res :=
  s.onWave w fun s => s.mxCommand (.mxScl d a b w) d none (s.readG a) (s.readG b)
def execMxCfg (d : Rg) (aty bty : BitVec 4) (out bsat : Bool) (rg : BitVec 4) (rnm1 : BitVec 8) (w : Wave) (s : State) : Res :=
  s.onWave w fun s => s.mxCommand (.mxCfg d aty bty out bsat rg rnm1 w) d none 0 0
def execNzCfg (d : Rg) (seed : W32) (mode : BitVec 3) (w : Wave) (s : State) : Res :=
  s.onWave w fun s => s.mxCommand (.nzCfg d seed mode w) d none 0 0
def execMxSwap (s : State) : Res := .next (s.sendToken .mxSwap 0 0 none)
def execMxClr (q : Bool) (s : State) : Res := .next (s.sendToken (.mxClr q) 0 0 none)
def execMxStat (d : Rg) (q c : Bool) (s : State) : Res := .next (s.sendToken (.mxStat d q c) 0 0 none)
def execMxStatClr (d : Rg) (q c : Bool) (s : State) : Res := .next (s.sendToken (.mxStatClr d q c) 0 0 none)

/-! ### Operand rows (R64, R238) -/

/-- Bytes of `n` elements packed densely. -/
def packedBytes (t n : Nat) : Nat := (n * tyWidth t + 7) / 8
/-- The elements of a packed row. -/
def rowCodes (t n : Nat) (bs : List Byte) : List Nat :=
  if tyWidth t = 4 then (List.range n).map fun i => (bs.getD (i / 2) 0).toNat / 16 ^ (i % 2) % 16
  else let b := tyWidth t / 8
       (List.range n).map fun i => ofBytes ((bs.drop (i * b)).take b)
def kBlocks (k : Nat) : Nat := (k + 31) / 32
def pitchOf (l : W64) : Nat := fld l 15 0
def scoffOf (l : W64) : Nat := fld l 31 16
/-- The bank of an operand's address, and its row `r`. -/
def bankOf (a : W64) : Nat := a.toNat / 2 ^ 16 * 2 ^ 16
def rowAt (a l : W64) (r : Nat) : Nat := bankOf a + a.toNat % 2 ^ 16 + r * pitchOf l

/-- Does a command's operand lie in a bank that exists: its rows, and its scale bytes up to `scEnd` (R92, R238)? -/
def operandHit (a l : W64) (rows bytes scEnd : Nat) : Option Hit :=
  if faWin a.toNat ≠ 0 || !cellOk (faCell a.toNat) then some { cls := 3, faddr := a.toNat, aux := bytes * 2 ^ 32 }
  else if 2 ^ 16 < a.toNat % 2 ^ 16 + (rows - 1) * pitchOf l + bytes then
    some { cls := 3, faddr := a.toNat, aux := bytes * 2 ^ 32 }
  else if 2 ^ 16 < scEnd then some { cls := 3, faddr := bankOf a + scoffOf l, aux := 2 ^ 32 }
  else none

/-- The rows and scale bytes of a token under the configuration in effect for it. A member of a region that is not its
member 0 ignores its address (R243), and a drain that neither reads nor writes its destination has no rows. -/
def tokenHit (x : MxToken) (aty bty : Nat) (ignores : Bool) : Option Hit :=
  if x.pre.isSome then none else
  let sc (l : W64) (on : Bool) (last : Nat) : Nat := if on then scoffOf l + last else 0
  match x.instr with
  | .mxLds _ _ _ km1 nm1 on _ _ =>
    operandHit x.a x.b (dim km1) (packedBytes bty (dim nm1)) (sc x.b on (128 * (kBlocks (dim km1) - 1) + dim nm1))
  | .mxMul _ _ _ mm1 km1 _ _ _ on _ _ =>
    operandHit x.a x.b (dim mm1) (packedBytes aty (dim km1)) (sc x.b on (4 * (dim mm1 - 1) + kBlocks (dim km1)))
  | .mxDrain _ _ _ mm1 nm1 acc _ _ nowr _ _ =>
    if ignores || (nowr && !acc) then none else operandHit x.a x.b (dim mm1) (4 * dim nm1) 0
  | _ => none

/-! ### Acceptance (R235 to R238) -/

/-- The type pairs of R237. -/
def pairOk (aty bty : Nat) (int32 : Bool) : Bool :=
  let both (l : List Nat) : Bool := l.contains aty && l.contains bty
  both [1] || ((both [11, 12] || both [9, 10]) && !int32) || (both [0, 13] && (!int32 || both [0]))

/-- May node `k` join a region that has a size and members, being in `old` now (R237)? It may still be listed there itself, where
it leaves the region before this configuration is installed. -/
def joinOk (reg : Nat × List Nat) (k old rg rn : Nat) : Bool :=
  rg == 0 || (if old = rg then reg.1 == rn
    else reg.2.isEmpty || reg.2 == [k] || (reg.1 == rn && (reg.2.contains k || decide (reg.2.length < reg.1))))

/-- A sector among the members, in ascending number, once. -/
def addMember (k : Nat) (l : List Nat) : List Nat := (l.filter (· < k)) ++ k :: l.filter (k < ·)

namespace State

def node (s : State) (k : Nat) : Node := (s.sectorAt k).node
def modNode (s : State) (k : Nat) (f : Node → Node) : State := s.modSector k fun x => { x with node := f x.node }
def region (s : State) (net rg : Nat) : Nat × List Nat :=
  match Tbl.find s.nets net with
  | some n => Tbl.get (0, []) n.regions rg
  | none => (0, [])
def setRegion (s : State) (net rg : Nat) (r : Nat × List Nat) : State :=
  s.modNet net fun n => { n with regions := if r.2.isEmpty then Tbl.del n.regions rg else Tbl.put n.regions rg r }

/-- A fault of the node against a token (R236, R414). -/
def nodeFault (s : State) (x : MxToken) (h : Hit) : State :=
  s.report { hit := h, src := 1, iss := x.iss, loc := cellSector x.iss.cell * 2 ^ 38 + 48 * 2 ^ 32 }

/-- The token's instruction, where its firing still waits in it in the running slot, goes on. -/
def tokenFiring (s : State) (x : MxToken) (f : State → State) : State :=
  let t := s.focus x.iss.cell x.iss.fid
  if t.live && t.me.wait == some x.instr && t.ctx.net == x.iss.net && !t.me.parked then f t else s

/-- The instruction completes when its token is accepted; `mx.stat` completes when its value returns (R246). -/
def accepted (s : State) (x : MxToken) : State :=
  match x.instr with
  | .mxStat _ _ _ | .mxStatClr _ _ _ => s
  | .mxSwap | .mxClr _ => s.tokenFiring x fun s => s.advance 1
  | _ => s.tokenFiring x fun s => s.advance 4

/-- A token enters the queue: a drain of a region takes its number, a legal configuration is in effect for later
tokens. -/
def enqueue (s : State) (k : Nat) (x : MxToken) : State :=
  let n := s.node k
  let push (n : Node) (x : MxToken) : Node := { n with queue := n.queue ++ [x] }
  match x.instr with
  | .mxCfg _ aty bty out _ rg rnm1 _ =>
    let g := rg.toNat
    let r := s.region x.iss.net g
    let rn := rnm1.toNat + 1
    if !pairOk aty.toNat bty.toNat out || !joinOk r k n.crg g rn then s.nodeFault x { cls := 0x0E }
    else
      let joins := g ≠ 0 && g ≠ n.crg
      let s := if joins then s.setRegion x.iss.net g (if r.2.isEmpty then rn else r.1, addMember k r.2) else s
      s.modNode k fun n =>
        push { n with caty := aty.toNat, cbty := bty.toNat, crg := g, drains := if joins then 0 else n.drains } x
  | .mxDrain _ _ _ _ _ _ _ _ _ _ _ =>
    if n.crg = 0 then s.modNode k fun n => push n x
    else s.modNode k fun n => push { n with drains := n.drains + 1 } { x with rg := n.crg, num := n.drains }
  | _ => s.modNode k fun n => push n x

end State

/-- The token at the ports that the node takes next: the earliest to reach them, then the lower-numbered cell. -/
def firstToken : List MxToken → Option MxToken
  | [] => none
  | x :: xs => match firstToken xs with
    | none => some x
    | some y => if x.sent < y.sent || (x.sent = y.sent && x.iss.cell ≤ y.iss.cell) then some x else some y

/-- MX_TOKEN_ACCEPT (R235): one token per clock, while the queue has room. -/
def execMxTokenAccept (sector : Nat) (s : State) : Res :=
  let n := s.node sector
  match firstToken n.ports with
  | none => .next s
  | some x =>
    if 8 ≤ n.queue.length || n.took = s.clock + 1 then .next s
    else
      let s := s.modNode sector fun n => { n with ports := n.ports.erase x, took := s.clock + 1 }
      let other := n.crg ≠ 0 && (s.region x.iss.net n.crg).2.any fun m => decide (m < sector)
      match tokenHit x n.caty n.cbty other with
      | some h => .next (s.tokenFiring x fun s => s.raise h)
      | none => .next ((s.enqueue sector x).accepted x)

/-! ### Loads and products (R239 to R241) -/

/-- The values of one block of up to 32 codes of a type under its scale byte, where it has one. -/
def blockOf (t : Nat) (codes : List Nat) (sc : Option Nat) : List Num :=
  match sc with
  | none => codes.map (tyValue t)
  | some b => if t = 13 then ociBlock codes b else codes.map fun c => (numMul (tyValue t c) (e8m0 b)).1

/-- A run of codes in blocks of 32, the block's scale given by number. -/
def blockRun (t : Nat) (sc : Option (Nat → Nat)) (j : Nat) (codes : List Nat) : Nat → List (List Num)
  | 0 => []
  | fuel + 1 =>
    if codes.isEmpty then []
    else blockOf t (codes.take 32) (sc.map fun f => f j) :: blockRun t sc (j + 1) (codes.drop 32) fuel

/-- The K-blocks of a weight column. -/
def columnBlocks (p : Plane) (bty c : Nat) : List (List Num) :=
  blockRun bty (if p.sc then some fun j => (p.scales.getD (j * p.n + c) 0).toNat else none) 0
    (p.codes.map fun r => r.getD c 0) (kBlocks p.k)

/-- One element of a product: its K-blocks merged in ascending k (R241). -/
def dotBlocks (s : Wide) (as ws : List (List Num)) : Wide :=
  (List.zip as ws).foldl (fun s p => wideMerge s (kBlock (List.zipWith (fun x y => (numMul x y).1) p.1 p.2))) s

namespace State

/-- The rows of a load (R239). -/
def loadPlane (s : State) (x : MxToken) (k n bty : Nat) (sc : Bool) : Plane where
  k := k
  n := n
  sc := sc
  codes := (List.range k).map fun r => rowCodes bty n (Mem.load s.banks (rowAt x.a x.b r) (packedBytes bty n))
  scales := if sc then (List.range (kBlocks k)).flatMap fun j => Mem.load s.banks (bankOf x.a + scoffOf x.b + 128 * j) n else []

/-- Runs of bytes at a stride from a virtual address. -/
def readRuns (s : State) (iss : Issuer) (va : Nat) (stride : W64) (n : Nat) : Nat → State × Except Hit (List (List Byte))
  | 0 => (s, .ok [])
  | rows + 1 =>
    match s.readRuns iss va stride n rows with
    | (s, .error h) => (s, .error h)
    | (s, .ok l) => match s.readVirt iss (stepAddr va stride rows) n with
      | (s, .error h) => (s, .error h)
      | (s, .ok bs) => (s, .ok (l ++ [bs]))

/-- The rows of a preload (R303, R304), read from memory. -/
def preloadPlane (s : State) (x : MxToken) (scales : W64) (k n bty : Nat) (sc : Bool) : State × Except Hit Plane :=
  match s.readRuns x.iss x.a.toNat x.b (packedBytes bty n) k with
  | (s, .error h) => (s, .error h)
  | (s, .ok rows) =>
    match s.readRuns x.iss scales.toNat 128 n (if sc then kBlocks k else 0) with
    | (s, .error h) => (s, .error h)
    | (s, .ok ss) => (s, .ok { k := k, n := n, sc := sc, codes := rows.map (rowCodes bty n), scales := ss.flatMap id })

/-- The K-blocks of an activation row. -/
def actBlocks (s : State) (x : MxToken) (n : Node) (h : MxShape) (byp : Bool) (m : Nat) : List (List Num) :=
  if byp then blockRun n.aty none 0 (((n.byp.map fun t => t.codes.getD m []).getD []).take h.k) (kBlocks h.k)
  else
    let codes := rowCodes n.aty h.k (Mem.load s.banks (rowAt x.a x.b m) (packedBytes n.aty h.k))
    let scale (j : Nat) : Nat := (Mem.read s.banks (bankOf x.a + scoffOf x.b + 4 * m + j)).toNat
    blockRun n.aty (if h.sc then some scale else none) 0 codes (kBlocks h.k)

/-- Why a product cannot start (R241). -/
def productHit (n : Node) (h : MxShape) (byp : Bool) : Option Hit :=
  let bad : Option Hit := some { cls := 0x0E }
  match n.active with
  | none => bad
  | some p =>
    if h.k ≠ p.k || h.n ≠ p.n then bad
    else if byp && (match n.byp with
        | none => true
        | some t => decide (t.m < h.m) || h.k ≠ t.n) then bad
    else if h.sc && (h.k % 32 ≠ 0 || n.out) then bad
    else if n.aty = 13 && !h.sc then bad
    else none

/-- The product (R241). -/
def product (s : State) (k : Nat) (x : MxToken) (h : MxShape) (acc byp : Bool) : State :=
  let n := s.node k
  match n.active with
  | none => s
  | some p =>
    let cols := (List.range h.n).map (columnBlocks p n.bty)
    let q := if h.q then 1 else 0
    let old := n.accOf q
    let new := (List.range h.m).foldl (fun t m =>
      let row := s.actBlocks x n h byp m
      (List.range h.n).foldl (fun t c =>
        let e := m * 128 + c
        Tbl.put t e (dotBlocks (if acc then Tbl.get {} old e else {}) row (cols.getD c []))) t) old
    s.modNode k fun n => if h.q then { n with acc1 := new } else { n with acc0 := new }

/-! ### Power (R283, R385) -/

/-- The heavy nodes of a net instance. -/
def heavyNodes (s : State) (net : Nat) : Nat :=
  match Tbl.find s.nets net with
  | some n => (n.sectors.filter fun k => (s.node k).heavy).length
  | none => 0

def quantaOf (s : State) (net : Nat) : Nat := ((Tbl.find s.nets net).map fun n => n.quanta).getD 0

/-- The class of a product whose start would exceed the allocation. -/
def powerHit (s : State) (k : Nat) (x : MxToken) : Option Hit :=
  let heavy := s.heavyNodes x.iss.net
  let q := s.quantaOf x.iss.net
  if !(s.node k).heavy && (Tbl.find s.nets x.iss.net).isSome && decide (q < heavy + 1) then
    some { cls := 9, aux := heavy % 2 ^ 10 * 2 ^ 54 + q % 2 ^ 10 * 2 ^ 44 }
  else none

end State

/-! ### Drains (R83 to R85, R242, R243) -/

/-- What a drain's elements leave behind besides memory: generator, overflow and NaN counts, bypass codes. -/
structure DrainEnd where
  gen : W32
  ovf : Nat
  nan : Nat
  byp : List Nat := []

/-- The normaliser's result for an element: its bits, whether it overflowed, whether it counts as NaN (R83 to R85). -/
def resolveElem (n : Node) (u : W32) (x : Wide) (p : Nat) : Nat × Bool × Bool :=
  if n.out then
    if x.cls = 3 then (0, false, true)
    else
      let r := roundToInt 3 n.mode u (numSum n.mode [x.value, .ofInt (toSigned 32 p)])
      (r.1, r.2 &&& flNV ≠ 0, false)
  else
    let t := f32.value n.t.toNat
    let pv := f32.value p
    let v := numSum n.mode [(numMul x.value t).1, pv]
    let y := (f32.round n.mode false u (if v.isZero then .fin false 0 0 else v)).1
    let yv := f32.value y
    (y, yv.isInf && !t.isInf && !pv.isInf, yv.isNan)

/-- Convert (R242): into the bypass buffer's type; an integer narrows, a float rounds. -/
def bypassCode (n : Node) (u : W32) (y : Nat) : Nat :=
  if n.out then (fitInt n.aty n.bsat (toSigned 32 y)).1 else (roundTo n.aty n.mode n.bsat u (f32.value y)).1

/-- Why a drain is refused (R242). -/
def drainBad (n : Node) (h : MxShape) (byp nowr : Bool) : Bool :=
  (nowr && !byp) || (byp && (decide (96 < h.n) || n.aty == 13))

namespace State

/-- One element of a drain: the memory and what it leaves. In STO mode the output's rounding takes a step of the
generator, and the conversion of an FP32 result another (R83, R242). -/
def drainElem (s : State) (n : Node) (at' : Nat) (x : Wide) (acc byp nowr : Bool) (e : DrainEnd) : State × DrainEnd :=
  let sto := n.mode == 5
  let u := if sto then genStep e.gen else 0
  let p := if acc then ofBytes (Mem.load s.banks at' 4) else 0
  let (y, ended, isNan) := resolveElem n u x p
  let s := if nowr then s else { s with banks := Mem.store s.banks at' (toBytes 4 y) }
  let gen := if sto then u else e.gen
  let u2 := if sto && byp && !n.out then genStep gen else gen
  (s, { gen := u2, ovf := if ended then min (e.ovf + 1) 0xFFFF else e.ovf
        nan := if isNan then min (e.nan + 1) 0xFFFF else e.nan
        byp := if byp then bypassCode n u2 y :: e.byp else e.byp })

/-- A drain's elements, row by row. -/
def drainElems (s : State) (n : Node) (x : MxToken) (val : Nat → Nat → Wide) (acc byp nowr : Bool) (e : DrainEnd) :
    List (Nat × Nat) → State × DrainEnd
  | [] => (s, e)
  | (m, c) :: rest =>
    let (s, e) := s.drainElem n (rowAt x.a x.b m + 4 * c) (val m c) acc byp nowr e
    s.drainElems n x val acc byp nowr e rest

/-- Cut a list into rows of `n`. -/
def rowsOf (n : Nat) (l : List Nat) : Nat → List (List Nat)
  | 0 => []
  | fuel + 1 => l.take n :: rowsOf n (l.drop n) fuel

/-- The drain of a node's plane, or of a region's root values (R242, R243). -/
def drain (s : State) (k : Nat) (x : MxToken) (h : MxShape) (acc byp nowr : Bool) (val : Nat → Nat → Wide) : State :=
  let n := s.node k
  let order := (List.range h.m).flatMap fun m => (List.range h.n).map fun c => (m, c)
  let e0 : DrainEnd := { gen := n.gen, ovf := if h.q then n.ovf1 else n.ovf0, nan := if h.q then n.nan1 else n.nan0 }
  let (s, e) := s.drainElems n x val acc byp nowr e0 order
  s.modNode k fun n =>
    let n := { n with gen := e.gen, byp := if byp then some { m := h.m, n := h.n, codes := rowsOf h.n e.byp.reverse h.m } else n.byp }
    if h.q then { n with ovf1 := e.ovf, nan1 := e.nan } else { n with ovf0 := e.ovf, nan0 := e.nan }

/-! ### Performing a token -/

/-- The address of a sector's node. -/
def nodeUnit (k : Nat) : Nat := k * 2 ^ 38 + 48 * 2 ^ 32

/-- The release of a drain (R236). -/
def drainRel (s : State) (k : Nat) (i : Instr) : Option Link :=
  match i with
  | .mxDrain _ _ _ _ _ _ _ _ _ _ w => if w.rel then some (s.unitLink (k * 64 + 48) w.scope.toNat) else none
  | _ => none

/-- The token's work is complete (R236); its completion token goes, unless it has gone. -/
def tokenDone (s : State) (k : Nat) (x : MxToken) : State :=
  if x.told then s else s.complete x.iss (nodeUnit k) x.target (s.drainRel k x.instr)

/-- The reduction region that a configuration names. -/
def cfgRegion : Instr → Option Nat
  | .mxCfg _ _ _ _ _ rg _ _ => some rg.toNat
  | _ => none

/-- A new configuration is installed (R237): planes and bypass buffer empty, T 1.0; the old region is left, where no accepted
configuration rejoins it. A region whose only member is the node has the size that the node gives it. -/
def installCfg (s : State) (k : Nat) (x : MxToken) (aty bty : Nat) (out bsat : Bool) (rg rn : Nat) : State :=
  let old := (s.node k).rg
  let back := (s.node k).queue.any fun y => cfgRegion y.instr == some old
  let s := if old ≠ 0 && old ≠ rg && !back then
      let r := s.region x.iss.net old
      s.setRegion x.iss.net old (r.1, r.2.erase k)
    else s
  let s := if rg ≠ 0 && (s.region x.iss.net rg).2 == [k] then s.setRegion x.iss.net rg (rn, [k]) else s
  s.modNode k fun n => { n with aty := aty, bty := bty, out := out, bsat := bsat, rg := rg, rn := rn, active := none,
                                shadow := none, byp := none, t := 0x3F800000 }

/-- The value of `mx.stat` has come back (R246). -/
def mxStatBody (d : Rg) (c : Bool) (s : State) : Res :=
  match s.me.arg with
  | none => .next s
  | some v => .next (((s.writeG d (BitVec.ofNat 64 v)).choose c (codeUnsigned (BitVec.ofNat 64 v))).advance 1)

/-- The value of `mx.stat` (R246), returned to the firing that waits for it; one that is parked takes it with its outcome (R318). -/
def returnStat (s : State) (k : Nat) (x : MxToken) (d : Rg) (q c : Bool) : State :=
  let n := s.node k
  let v := if q then n.nan1 % 2 ^ 16 * 2 ^ 16 + n.ovf1 % 2 ^ 16 else n.nan0 % 2 ^ 16 * 2 ^ 16 + n.ovf0 % 2 ^ 16
  let back (f : Firing) : Firing := if f.id = x.iss.fid && f.wait == some x.instr then { f with arg := some v } else f
  let s := s.modNetCtx x.iss.cell x.iss.net fun _ c => { c with firings := c.firings.map back }
  s.tokenFiring x fun s => match mxStatBody d c s with
    | .next t => t
    | _ => s

/-- A token's work, but for products and region drains. -/
def perform (s : State) (k : Nat) (x : MxToken) : State :=
  let n := s.node k
  match x.instr with
  | .mxLds _ _ _ km1 nm1 sc _ _ =>
    if (sc && dim km1 % 32 ≠ 0) || (!sc && n.bty == 13) || (sc && n.out) then s.nodeFault x { cls := 0x0E }
    else match x.pre with
      | none => (s.modNode k fun n => { n with shadow := some (s.loadPlane x (dim km1) (dim nm1) n.bty sc) }).tokenDone k x
      | some sa => match s.preloadPlane x sa (dim km1) (dim nm1) n.bty sc with
        | (s, .error h) => s.nodeFault x h
        | (s, .ok p) => s.modNode k fun n => { n with shadow := some p }
  | .mxDrain _ _ _ mm1 nm1 acc q byp nowr _ _ =>
    let h : MxShape := ⟨dim mm1, 0, dim nm1, q, false⟩
    if drainBad n h byp nowr then s.nodeFault x { cls := 0x0E }
    else (s.drain k x h acc byp nowr fun m c => Tbl.get {} (n.accOf (if q then 1 else 0)) (m * 128 + c)).tokenDone k x
  | .mxScl _ _ _ _ =>
    let t := (f32.round 0 false 0 (numMul (f32.value (fld x.a 31 0)) (f32.value (fld x.b 31 0))).1).1
    (s.modNode k fun n => { n with t := BitVec.ofNat 32 t }).tokenDone k x
  | .mxCfg _ aty bty out bsat rg rnm1 _ =>
    (s.installCfg k x aty.toNat bty.toNat out bsat rg.toNat (rnm1.toNat + 1)).tokenDone k x
  | .nzCfg _ seed mode _ =>
    (s.modNode k fun n => { n with mode := mode.toNat, gen := if seed = 0 then n.gen else seed }).tokenDone k x
  | .mxSwap => s.modNode k fun n => { n with active := n.shadow, shadow := n.active }
  | .mxClr q => s.modNode k fun n => if q then { n with acc1 := [] } else { n with acc0 := [] }
  | .mxStat d q c => s.returnStat k x d q c
  | .mxStatClr d q c => (s.returnStat k x d q c).modNode k fun n =>
      if q then { n with ovf1 := 0, nan1 := 0 } else { n with ovf0 := 0, nan0 := 0 }
  | _ => s

def dropToken (s : State) (k j : Nat) : State := s.modNode k fun n => { n with queue := n.queue.eraseIdx j }

end State

/-! ### Overlap (R235) -/

/-- Is it a load of weights, a setting of scale or normaliser? -/
def isLoad : Instr → Bool
  | .mxLds _ _ _ _ _ _ _ _ => true
  | _ => false
def isSetting : Instr → Bool
  | .mxScl _ _ _ _ | .nzCfg _ _ _ _ => true
  | _ => false

/-- May a drain and a product run together: they name different planes, and the bypass buffer does not join them? -/
def apart (d p : Instr) : Bool :=
  match drainOf d, productOf p with
  | some (h, _, byp, _), some (g, _, fromByp) => h.q != g.q && !(byp && fromByp)
  | _, _ => false

/-- May a later token run while an earlier one does (R235)? A later product starts once an earlier one has merged. -/
def overlaps (x y : MxToken) : Bool :=
  let unit (i : Instr) : Bool := (drainOf i).isSome || (productOf i).isSome
  (isLoad x.instr && unit y.instr) || (unit x.instr && isLoad y.instr) || apart x.instr y.instr || apart y.instr x.instr
    || isSetting y.instr

/-- Do all of some earlier tokens let a later one run? A setting whose completion token has gone holds nothing back. -/
def passesAll (earlier : List MxToken) (x : MxToken) : Bool := (earlier.filter fun y => !y.told).all fun y => overlaps y x

/-- Is the token at a place of the queue running, or done but for its turn? A product runs once it has started. -/
def runs (n : Node) (j : Nat) : Bool :=
  match n.queue[j]? with
  | none => false
  | some x => x.told || (passesAll (n.queue.take j) x && x.rg == 0
      && ((productOf x.instr).isNone || (n.heavy && !(n.queue.take j).any fun y => (productOf y.instr).isSome)))

/-- The next region drain in a queue, with its place, where the tokens before it run and let it run (R235, R243). -/
def nextDrain (n : Node) (net rg : Nat) : Option (Nat × MxToken) :=
  match n.queue.findIdx? fun x => x.rg == rg && x.iss.net == net with
  | none => none
  | some j => match n.queue[j]? with
    | some x => if x.lost.isNone && ((List.range j).all fun i => runs n i) && passesAll (n.queue.take j) x then some (j, x) else none
    | none => none

namespace State

/-- The region drain of each member that may start (R243): the member, the place in its queue and the token. -/
def memberDrains (s : State) (net rg : Nat) : List Nat → Option (List (Nat × Nat × MxToken))
  | [] => some []
  | k :: ks => match nextDrain (s.node k) net rg with
    | some (j, x) => (s.memberDrains net rg ks).map fun l => (k, j, x) :: l
    | none => none

/-- The drains of one number that a whole region may start, member 0's first (R243). -/
def regionDrains (s : State) (net rg : Nat) : Option (List (Nat × Nat × MxToken)) :=
  let r := s.region net rg
  if r.2.isEmpty || r.2.length ≠ r.1 then none
  else match s.memberDrains net rg r.2 with
    | some ((k, j, x) :: l) => if l.all fun e => e.2.2.num == x.num then some ((k, j, x) :: l) else none
    | _ => none

/-- Is the token at a place of a node's queue running, a region drain once its region has started it? -/
def runsAt (s : State) (k j : Nat) : Bool :=
  runs (s.node k) j || (match (s.node k).queue[j]? with
    | some x => x.rg ≠ 0 && (s.regionDrains x.iss.net x.rg).any fun l => l.any fun e => e.1 == k && e.2.1 == j
    | none => false)

/-- May the token at a place of the queue be performed now: those before it run, and let it run? -/
def mayComplete (s : State) (k j : Nat) (x : MxToken) : Bool :=
  ((List.range j).all fun i => s.runsAt k i) && passesAll ((s.node k).queue.take j) x

/-- A product starts, or its token is discarded (R241, R283). -/
def startProduct (s : State) (k j : Nat) (x : MxToken) (h : MxShape) (byp : Bool) : State :=
  match (productHit (s.node k) h byp).orElse fun _ => s.powerHit k x with
  | some hit => (s.dropToken k j).nodeFault x hit
  | none => s.modNode k fun n => { n with heavy := true }

/-- What has started from a place of the queue on by the time that a product has merged: swaps, which its last beat lets go (R240), and
the next product, where the tokens between run and let it run; the node is then still heavy (R235, R283). -/
def carryOn (s : State) (k j : Nat) : Nat → State
  | 0 => s
  | fuel + 1 =>
    let light : State := s.modNode k fun n => { n with heavy := false }
    match (s.node k).queue[j]? with
    | none => light
    | some y => match y.instr, productOf y.instr with
      | .mxSwap, _ =>
        if ((s.node k).queue.take j).all fun x => isSetting x.instr then ((s.dropToken k j).perform k y).carryOn k j fuel else light
      | _, some (h, _, byp) =>
        if !s.mayComplete k j y then light
        else match productHit (s.node k) h byp with
          | some hit => ((s.dropToken k j).nodeFault y hit).carryOn k j fuel
          | none => s
      | _, none => if s.runsAt k j then s.carryOn k (j + 1) fuel else light

/-- A started product is merged. -/
def endProduct (s : State) (k j : Nat) (x : MxToken) (h : MxShape) (acc byp : Bool) : State :=
  (((s.product k x h acc byp).dropToken k j).tokenDone k x).carryOn k j 9

end State

/-- MX_TOKEN_COMPLETE (R235, R236): the token at a place of a node's queue, the head or one that overlaps every token before it, is
performed. A product first starts, which makes its node heavy until it is merged. A setting of scale or normaliser behind
a drain sends its completion token, and acts in its turn, on drains that start after it. A region drain waits for
REGION_DRAIN_START. -/
def execMxTokenComplete (token : QueuedToken) (s : State) : Res :=
  let sector := token.sector
  let k := token.place
  match (s.node sector).queue[k]? with
  | none => .next s
  | some x =>
    if x.rg ≠ 0 || x.lost.isSome || !s.mayComplete sector k x then .next s
    else match productOf x.instr with
      | some (h, acc, byp) =>
        .next (if (s.node sector).heavy then s.endProduct sector k x h acc byp else s.startProduct sector k x h byp)
      | none =>
        if isSetting x.instr && ((s.node sector).queue.take k).any fun y => (drainOf y.instr).isSome then
          .next ((s.tokenDone sector x).modNode sector fun n => { n with queue := n.queue.set k { x with told := true } })
        else .next ((s.dropToken sector k).perform sector x)

/-- One level of the tree of R81. -/
def pairUp : List Wide → List Wide
  | a :: b :: rest => wideMerge a b :: pairUp rest
  | l => l
/-- The root of the tree. -/
def treeRoot (l : List Wide) : Nat → Wide
  | 0 => l.headD {}
  | fuel + 1 => if l.length ≤ 1 then l.headD {} else treeRoot (pairUp l) fuel

/-- REGION_DRAIN_START (R243): every member's drain with the same number may start; it runs to its end. -/
def execRegionDrainStart (net rg : Nat) (s : State) : Res :=
  match s.regionDrains net rg with
  | none | some [] => .next s
  | some ((k0, j0, x0) :: rest) =>
    let l := (k0, j0, x0) :: rest
    match drainOf x0.instr with
    | none => .next s
    | some (h0, acc, byp, nowr) =>
      let pop := l.foldl (fun s e => s.dropToken e.1 e.2.1) s
      let same := l.all fun e => match drainOf e.2.2.instr with
        | some (h, _, _, _) => h.m == h0.m && h.n == h0.n
        | none => false
      if !same || drainBad (s.node k0) h0 byp nowr then .next (pop.nodeFault x0 { cls := 0x0E })
      else
        let val (m c : Nat) : Wide := treeRoot (l.map fun e =>
          let q := match drainOf e.2.2.instr with
            | some (h, _, _, _) => h.q
            | none => false
          Tbl.get {} ((s.node e.1).accOf (if q then 1 else 0)) (m * 128 + c)) l.length
        .next (l.foldl (fun s e => s.tokenDone e.1 e.2.2) (pop.drain k0 x0 h0 acc byp nowr val))

end Sys2Proof.Machine
end

