-- ==== Sys2Proof/Machine/Lanes.lean ====
section
/-! DEFINITION. Decode lanes and handle instructions (R248 to R252, R105, R392 to R395). -/
namespace Sys2Proof.Machine

/-! ### Descriptors (R249) -/

def jdHandle (d : List W64) : W64 := wordOf d 0
def jdP0 (d : List W64) : Nat := fld (wordOf d 1) 63 44
def jdP1 (d : List W64) : Nat := fld (wordOf d 1) 43 24
def jdDim (d : List W64) : Nat := fld (wordOf d 1) 23 16 + 1
def jdQuery (d : List W64) : Nat := fld (wordOf d 2) 47 0
def jdSigma (d : List W64) : W32 := BitVec.ofNat 32 (fld (wordOf d 3) 63 32)
def jdOut (d : List W64) : Nat := fld (wordOf d 4) 47 0

/-- The first check at acceptance (R249). -/
def jdOk (d : List W64) : Bool :=
  fld (wordOf d 1) 15 0 == 0 && fld (wordOf d 2) 63 48 == 0 && fld (wordOf d 3) 31 0 == 0 && fld (wordOf d 4) 63 48 == 0
    && wordOf d 5 == 0 && wordOf d 6 == 0 && wordOf d 7 == 0 && decide (jdP0 d ≤ jdP1 d)
    && faWin (jdQuery d) == 0 && decide (faUnit (jdQuery d) < 48) && faWin (jdOut d) == 0 && decide (faUnit (jdOut d) < 48)
    && jdOut d % 8 == 0

namespace State

/-- The base die whose lanes take a job (R249): the owner of the entry's POOL, or the issuing cell's own span. -/
def laneDie (s : State) (h : W64) : Nat :=
  let own := sectorSpan s.sector
  let e := s.htMem (hIndex h)
  if s.htLen ≤ hIndex h || !entV e then own
  else if 3 < vaHome (entPool e) then own else (vaOwner (entPool e)).getD own

/-- The checks of a lane at acceptance (R249): a class, or the entry that stands for the whole job. -/
def laneCheck (s : State) (iss : Issuer) (o at' : Nat) (d : List W64) : State × Except Hit (BitVec 256) :=
  let bad : Hit := { cls := 0x0E, faddr := at' }
  if !jdOk d then (s, .error bad)
  else match winHit false false (jdQuery d) (4 * jdDim d) with
    | some h => (s, .error h)
    | none => match winHit false true (jdOut d) (8 + 4 * jdDim d) with
      | some h => (s, .error h)
      | none =>
        if jdP0 d = jdP1 d then (s, .ok 0)
        else
          match s.handleEntry o iss.asid (jdHandle d) (jdP1 d - 1) with
          | (s, .error h) => (s, .error h)
          | (s, .ok e) => (s, if 3 < vaHome (entPool e) then .error bad else .ok e)

/-- A free lane of a base die. -/
def freeLane (s : State) (o : Nat) : Option (Nat × State) :=
  s.pickFree ((List.range 16).filter fun n => (Tbl.find (s.ownerAt o).lanes n).isNone)

def putLane (s : State) (o n : Nat) (j : LaneJob) : State := s.modOwner o fun x => { x with lanes := Tbl.put x.lanes n j }
def freeLaneJob (s : State) (o n : Nat) : State := s.modOwner o fun x => { x with lanes := Tbl.del x.lanes n }

end State

/-- What a waiting command of the lanes carries: words that it read, and its completion target. -/
def carryJob (ws : List W64) (t : Option (Nat × Nat)) : Nat :=
  ofBytes (ws.flatMap fun w => toBytes 8 w.toNat) + 2 ^ 512 * (match t with
    | some (c, p) => 1 + p % 2 ^ 8 + 2 ^ 8 * c
    | none => 0)
def jobWords (k : Nat) : List W64 := (List.range 8).map fun i => BitVec.ofNat 64 (k / 2 ^ (64 * i))
def jobTarget (k : Nat) : Option (Nat × Nat) :=
  let t := k / 2 ^ 512
  if t = 0 then none else some ((t - 1) / 2 ^ 8, (t - 1) % 2 ^ 8)

/-- A job that carries its descriptor's copy goes to a lane of its die, once one is free (R249). -/
def dlTake (i : Instr) (fin : Bool) (e : Nat) (ds : List W64) (t : Option (Nat × Nat)) (s : State) : Res :=
  let o := s.laneDie (jdHandle ds)
  match s.freeLane o with
  | none => .next (s.waitIn i (some (carryJob ds t)) e)
  | some (n, s) => match s.laneCheck s.issuer o (cellAddr s.cell + e) ds with
    | (s, .error h) => .next ((s.engFail o (128 + n) 4 s.issuer h (jdP0 ds) 0).advance 4)
    | (s, .ok ent) =>
      let j : LaneJob := { iss := s.issuer, desc := ds, entry := ent, fin := fin, target := t, pos := jdP0 ds,
                           o := List.replicate (jdDim ds) 0, epoch := s.qcur }
      .next ((s.putLane o n j).advance 4)

def dlPostBody (d a : Rg) (fin : Bool) (off : W32) (w : Wave) (s : State) : Res :=
  let i : Instr := .dlPost d a fin off w
  match s.me.arg with
  | some k => dlTake i fin s.me.addr (jobWords k) (jobTarget k) s
  | none =>
    let e := s.ea a off % 2 ^ 16
    match s.target d with
    | .error h => .next (s.raise h)
    | .ok t => match State.descHit e with
      | some h => .next (s.raise h)
      | none => dlTake i fin e (s.descWords e) t s.commit

def execDlPost (d a : Rg) (fin : Bool) (off : W32) (w : Wave) (s : State) : Res := s.onWave w (dlPostBody d a fin off w)

/-- A merge of two records goes to a lane of the issuing cell's span, once one is free (R251). -/
def mergeTake (i : Instr) (dm1 : BitVec 8) (fin : Bool) (x y : W64) (t : Option (Nat × Nat)) (s : State) : Res :=
  match s.freeLane (sectorSpan s.sector) with
  | none => .next (s.waitIn i (some (carryJob [x, y] t)) 0)
  | some (n, s) =>
    let j : LaneJob := { iss := s.issuer, desc := [], entry := 0, fin := fin, target := t, pos := 0,
                         merge := some (x, y, dm1.toNat + 1), epoch := s.qcur }
    .next ((s.putLane (sectorSpan s.sector) n j).advance 4)

def dlMergeBody (d a b : Rg) (dm1 : BitVec 8) (fin : Bool) (off : W32) (w : Wave) (s : State) : Res :=
  let i : Instr := .dlMerge d a b dm1 fin off w
  match s.me.arg with
  | some k => mergeTake i dm1 fin (wordOf (jobWords k) 0) (wordOf (jobWords k) 1) (jobTarget k) s
  | none => match s.target d with
    | .error h => .next (s.raise h)
    | .ok t => mergeTake i dm1 fin (nat64 (s.ea a off % 2 ^ 48)) (nat64 ((s.readG b).toNat % 2 ^ 48)) t s.commit

def execDlMerge (d a b : Rg) (dm1 : BitVec 8) (fin : Bool) (off : W32) (w : Wave) (s : State) : Res :=
  s.onWave w (dlMergeBody d a b dm1 fin off w)

/-! ### The arithmetic of a lane (R250, R251) -/

def num32 (x : W32) : Num := f32.value x.toNat
def to32 (x : Num) : W32 := BitVec.ofNat 32 (f32.round 0 false 0 x).1
def nan32 : W32 := BitVec.ofNat 32 f32.nanBits
def negInf : W32 := 0xFF800000

/-- E(x) (R250): within the bound of `vexp2`, and exact where 2^x is representable; `k` picks the value (log 12). -/
def exp2Lane (k : Nat) (x : Num) : W32 := BitVec.ofNat 32 (looseRound 1 (Config.freeNat k) false (specialNum 0 x).1).1

def numMax (a b : Num) : Num := if numCmp a b == .lt then b else a
def subNum (a b : Num) : Num := numSum 0 [a, b.neg]
def mulNum (a b : Num) : Num := (numMul a b).1

/-- An exact quotient with a sticky bit, to be rounded once. -/
def divNum (a b : Num) : Num :=
  match a, b with
  | .nan, _ => .nan
  | _, .nan => .nan
  | .inf _, .inf _ => .nan
  | .inf n, y => if y.isZero then .nan else .inf (n != y.sign)
  | .fin n _ _, .inf k => .fin (n != k) 0 0
  | .fin n m e, .fin k l f =>
    if l = 0 then .nan
    else let q := m * 2 ^ 320 / l
         .fin (n != k) (2 * q + (if q * l = m * 2 ^ 320 then 0 else 1)) (e - f - 321)

/-- A state record: m, l and o. -/
structure LaneState where
  m : W32
  l : W32
  o : List W32

def LaneState.allNan (x : LaneState) : LaneState := ⟨nan32, nan32, x.o.map fun _ => nan32⟩
def LaneState.finish (x : LaneState) : LaneState := { x with o := x.o.map fun y => to32 (divNum (num32 y) (num32 x.l)) }
def LaneState.bytes (x : LaneState) : List Byte :=
  toBytes 4 x.m.toNat ++ toBytes 4 x.l.toNat ++ x.o.flatMap fun y => toBytes 4 y.toNat
def LaneState.ofBytes (bs : List Byte) (d : Nat) : LaneState :=
  let w (k : Nat) : W32 := BitVec.ofNat 32 (Sys2Proof.ofBytes ((bs.drop (4 * k)).take 4))
  ⟨w 0, w 1, (List.range d).map fun i => w (i + 2)⟩

/-- One position folded into the state (R250). DESIGN CHOICE (log 58): where m and the score are zeros of opposite sign, m keeps
its own: R250 does not say which zero max(m, s) is. -/
def laneFold (k : Nat) (sigma : W32) (q : List W32) (x : LaneState) (key val : List Num) : LaneState :=
  let sum := numSum 0 (List.zipWith (fun a b => mulNum (num32 a) b) q key)
  let sc := to32 (mulNum (num32 sigma) sum)
  let s := num32 sc
  if s == .inf true then x
  else if s.isNan || s == .inf false || (num32 x.m).isNan then x.allNan
  else
    let mn := numMax (num32 x.m) s
    let a := num32 (exp2Lane k (subNum (num32 x.m) mn))
    let b := num32 (exp2Lane (k + 1) (subNum s mn))
    { m := if numCmp (num32 x.m) s == .lt then sc else x.m
      l := to32 (numSum 0 [mulNum (num32 x.l) a, b])
      o := List.zipWith (fun y v => to32 (numSum 0 [mulNum (num32 y) a, mulNum b v])) x.o val }

/-- The merge of two state records (R251); of two zeros, the first record's m stands (log 58). -/
def laneMerge (k : Nat) (x y : LaneState) : LaneState :=
  if x.m = negInf && y.m = negInf then ⟨negInf, 0, x.o.map fun _ => 0⟩
  else if (x.m :: x.l :: y.m :: y.l :: (x.o ++ y.o)).any fun w => (num32 w).isNan then x.allNan
  else
    let m := numMax (num32 x.m) (num32 y.m)
    let a := num32 (exp2Lane k (subNum (num32 x.m) m))
    let b := num32 (exp2Lane (k + 1) (subNum (num32 y.m) m))
    { m := if numCmp (num32 x.m) (num32 y.m) == .lt then y.m else x.m
      l := to32 (numSum 0 [mulNum (num32 x.l) a, mulNum (num32 y.l) b])
      o := List.zipWith (fun p q => to32 (numSum 0 [mulNum (num32 p) a, mulNum (num32 q) b])) x.o y.o }

/-! ### Rows (R105, R248) -/

/-- The bytes of a key or value row; an OCI4 row ends with its scale bytes. -/
def laneRowBytes (t d : Nat) : Nat := if t = 13 then d / 2 + d / 32 else packedBytes t d
/-- Does a block's layout fit (R248)? -/
def laneRowOk (t d tb : Nat) : Bool := decide (laneRowBytes t d ≤ tb / 2) && (t ≠ 13 || d % 32 == 0)
/-- A row decoded exactly (R67, R210). -/
def laneRow (t d : Nat) (bs : List Byte) : List Num :=
  let scale (j : Nat) : Nat := (bs.getD (d / 2 + j) 0).toNat
  (blockRun t (if t = 13 then some scale else none) 0 (rowCodes t d bs) (kBlocks d)).flatten

namespace State

/-- One operand of a lane, which a row of at most a page is: its translation, then the checks of R105, then its frames (R397). -/
def laneRead (s : State) (iss : Issuer) (va n : Nat) : State × Except Hit (List Byte) :=
  let n1 := min n (4096 - va % 4096)
  match s.locate iss va false with
  | (s, .error h) => (s, .error h)
  | (s, .ok (x, c)) =>
    match if n1 = n then (s, .ok (x, c)) else s.locate iss ((va + n1) % 2 ^ 64) false with
    | (s, .error h) => (s, .error h)
    | (s, .ok (y, c')) =>
      let bad (cause : Nat) : Hit := { cls := 4, cause := cause, faddr := va }
      if !c || !c' then (s, .error (bad 8))
      else if va / 2 ^ 21 ≠ (va + n - 1) / 2 ^ 21 then (s, .error (bad 9))
      else match s.storePoison [(x, n1, c), (y, n - n1, c')] with
        | some dpa => (s, .error (poisonHit va dpa))
        | none => (s, .ok (Mem.load s.mem x n1 ++ Mem.load s.mem y (n - n1)))

/-- The block that a position lies in: read once for a job (R111, R250). -/
def laneBlock (s : State) (j : LaneJob) : State × Except Hit (W32 × LaneJob) :=
  let b := j.pos / 2 ^ entLbs j.entry
  match j.block with
  | some (k, bt) => if k = b then (s, .ok (bt, j)) else go b
  | none => go b
where
  go (b : Nat) : State × Except Hit (W32 × LaneJob) :=
    match s.readVirt j.iss (btabAddr j.entry j.pos) 4 with
    | (s, .error h) => (s, .error h)
    | (s, .ok bs) =>
      let bt : W32 := BitVec.ofNat 32 (ofBytes bs)
      if btypeOk bt && laneRowOk (fld bt 31 28) (jdDim j.desc) (tokenBytes j.entry) then (s, .ok (bt, { j with block := some (b, bt) }))
      else (s, .error { cls := 0x0E, faddr := btabAddr j.entry j.pos })

/-- One position of a job: the job after it, which keeps the block-table entry that it read (R111), and the class that stops it. -/
def lanePos (s : State) (j : LaneJob) : State × LaneJob × Option Hit :=
  match s.laneBlock j with
  | (s, .error h) => (s, j, some h)
  | (s, .ok (bt, j)) =>
    let t := fld bt 31 28
    let d := jdDim j.desc
    let tb := tokenBytes j.entry
    let at' := blockAddr j.entry bt + slotIn j.entry j.pos * tb
    match s.laneRead j.iss (at' % 2 ^ 64) (laneRowBytes t d) with
    | (s, .error h) => (s, j, some h)
    | (s, .ok kb) => match s.laneRead j.iss ((at' + tb / 2) % 2 ^ 64) (laneRowBytes t d) with
      | (s, .error h) => (s, j, some h)
      | (s, .ok vb) =>
        let x := laneFold s.free (jdSigma j.desc) (j.q.getD []) ⟨j.m, j.l, j.o⟩ (laneRow t d kb) (laneRow t d vb)
        ({ s with free := s.free + 2 }, { j with pos := j.pos + 1, m := x.m, l := x.l, o := x.o }, none)

/-- The positions that remain; a fault leaves the job at the first position not yet folded in. -/
def lanePositions (s : State) (j : LaneJob) : Nat → State × LaneJob × Option Hit
  | 0 => (s, j, none)
  | fuel + 1 =>
    if jdP1 j.desc ≤ j.pos then (s, j, none)
    else match s.lanePos j with
      | (s, j, none) => s.lanePositions j fuel
      | r => r

/-- The end of a job: the record is written and the completion token leaves. -/
def laneEnd (s : State) (o n : Nat) (j : LaneJob) (at' : Nat) (x : LaneState) : State :=
  let x := if j.fin then x.finish else x
  (({ s with banks := Mem.store s.banks at' x.bytes }.tallyWrite j.iss false at').freeLaneJob o n).complete j.iss (2 ^ 48 + o) j.target
    (some (s.unitLink (ownerAgent o) 3))

def laneFail (s : State) (o n : Nat) (j : LaneJob) (h : Hit) : State :=
  (if h.cls = 4 then s.putLane o n j else s.freeLaneJob o n).engFail o (128 + n) 4 j.iss h j.pos 0

end State

/-- DL_JOB_COMPLETE (R250, R251): a lane's job runs to its end or to a fault. -/
def execDlJobComplete (span n : Nat) (s : State) : Res :=
  match Tbl.find (s.ownerAt span).lanes n with
  | none => .next s
  | some j =>
    if (s.engFault span (128 + n)).frozen || j.lost.isSome then .next s
    else match j.merge with
      | some (x, y, d) =>
        let len := 8 + 4 * d
        let x := x.toNat
        match s.engRead j.iss 2 x len with
        | (s, .error h) => .next (s.laneFail span n j h)
        | (s, .ok xb) => match s.engRead j.iss 2 y.toNat len with
          | (s, .error h) => .next (s.laneFail span n j h)
          | (s, .ok yb) =>
            let r := laneMerge s.free (LaneState.ofBytes xb d) (LaneState.ofBytes yb d)
            let s := { s with free := s.free + 2 }
            match winHit false true x len with
            | some h => .next (s.laneFail span n j h)
            | none =>
              let r := if j.fin then r.finish else r
              match s.fabWrite x r.bytes with
              | (s, some h) => .next (s.laneFail span n j h)
              | (s, none) => .next (((s.tallyWrite j.iss false x).freeLaneJob span n).complete j.iss (2 ^ 48 + span) j.target (some (s.unitLink (ownerAgent span) 3)))
      | none =>
        let d := jdDim j.desc
        let j := match j.q with
          | some _ => j
          | none => { j with q := some ((List.range d).map fun i =>
              BitVec.ofNat 32 (ofBytes (Mem.load s.banks (jdQuery j.desc + 4 * i) 4))) }
        match s.lanePositions j (jdP1 j.desc - j.pos) with
        | (s, j, some h) => .next (s.laneFail span n j h)
        | (s, j, none) => .next (s.laneEnd span n j (jdOut j.desc) ⟨j.m, j.l, j.o⟩)

/-! ### Handle instructions (R252) -/

/-- A handle instruction whose entry lies in a poisoned frame raises class 0x08 (R397). -/
def State.khPoison (s : State) (a : Rg) : Option Hit :=
  let ix := fld (s.readG a) 19 0
  if ix < s.htLen && s.poisoned (s.htAddr ix) then some (poisonHit (s.readG a).toNat (s.htAddr ix)) else none

/-- The entry that a handle instruction names, where there is one. -/
def State.khEntry (s : State) (a : Rg) : Option (Nat × BitVec 256) :=
  let ix := fld (s.readG a) 19 0
  let e := s.htMem ix
  if s.htLen ≤ ix || !entV e then none else some (ix, e)

def execKhNew (d a : Rg) (bnd : BitVec 20) (c : Bool) (s : State) : Res :=
  let v : W64 := match s.khEntry a with
    | none => 0
    | some (ix, e) =>
      if entBound e < bnd.toNat then 0
      else nat64 (entTenant e * 2 ^ 52 + entGen e * 2 ^ 40 + ix * 2 ^ 20 + bnd.toNat)
  match s.khPoison a with
  | some h => .next (s.raise h)
  | none => unsigned d v c 2 s

/-- An entry with another field value at a bit. -/
def entWith (e : BitVec 256) (lo old new : Nat) : BitVec 256 := BitVec.ofNat 256 (e.toNat - old * 2 ^ lo + new * 2 ^ lo)

def execKhBound (d a : Rg) (bnd : BitVec 20) (s : State) : Res :=
  let s := s.commit
  if let some h := s.khPoison a then .next (s.raise h)
  else match s.khEntry a with
  | none => .next ((s.writeG d (BitVec.allOnes 64)).advance 2)
  | some (ix, e) =>
    .next (((s.htStore ix (entWith e 0 (entBound e) bnd.toNat)).writeG d (nat64 (entBound e))).advance 2)

def execKhGen (d a : Rg) (s : State) : Res :=
  let s := s.commit
  if let some h := s.khPoison a then .next (s.raise h)
  else match s.khEntry a with
  | none => .next ((s.writeG d (BitVec.allOnes 64)).advance 2)
  | some (ix, e) =>
    let g := (entGen e + 1) % 4096
    .next (((s.htStore ix (entWith e 228 (entGen e) g)).writeG d (nat64 g)).advance 2)

end Sys2Proof.Machine
end

