-- ==== Sys2Proof/Machine/LadderUnit.lean ====
section
/-! DEFINITION. The ladder unit (R253 to R263). -/
namespace Sys2Proof.Machine

/-- A firing of some context of a cell that waits in an instruction: its slot, 3 for a save area (R319), and its issuer. -/
structure Waiter where
  cell : Nat
  slot : Nat
  fid  : Nat
  inst : Instr
  arg  : Option Nat
  addr : Nat
  iss  : Issuer

/-- The ladder that a ladder command names. -/
def ladderOf : Instr → Option Nat
  | .ladInit l _ _ _ _ _ _ | .ladWts l _ _ _ | .ladPush _ l _ _ _ _ | .ladRead _ l _ _ _ _ | .ladRung _ l _ _ _ _
  | .ladStep _ l _ | .ladWait _ l _ _ | .ladFree l _ => some l.toNat
  | _ => none

namespace State

/-- The firings that wait, with the instruction that each waits in. -/
def allWaiters (s : State) : List Waiter :=
  let of (cell k : Nat) (c : Ctx) : List Waiter := (c.firings.filter fun f => !f.ended).filterMap fun f =>
    f.wait.map fun i => ⟨cell, k, f.id, i, f.arg, f.addr, issuerOf cell c f⟩
  (s.cells.flatMap fun e => [0, 1, 2].flatMap fun k => of e.1 k (e.2.slotCtx k)) ++ s.saves.flatMap fun e => of (e.1 / 4096) 3 e.2

def waiters (s : State) (sector : Nat) : List Waiter := s.allWaiters.filter fun w => cellSector w.cell == sector

/-- Is a waiter the current firing itself? -/
def isMe (s : State) (w : Waiter) : Bool := w.cell == s.cell && w.slot == 0 && w.fid == s.fid

/-- The order of arrival of a command that waits at a unit: `postN` counts arrivals. -/
def arrival (s : State) : State × Nat :=
  match s.me.arg with
  | some n => (s, n)
  | none => ({ s with postN := s.postN + 1 }, s.postN)

def ladder (s : State) (k l : Nat) : Ladder := Tbl.get {} (s.sectorAt k).ladders l
def setLadder (s : State) (k l : Nat) (x : Ladder) : State := s.modSector k fun y => { y with ladders := Tbl.put y.ladders l x }

/-- Does a command that the ladder has not accepted, a push or free that waits or one behind it, hold the current one back
(R263)? What a command that waits carries is twice its order of arrival; where it is accepted one more, with 2^65 times its step. -/
def ladHeld (s : State) (l : Nat) : Bool :=
  !(s.me.arg.any fun a => a % 2 == 1) && (s.waiters s.sector).any fun w =>
    ladderOf w.inst == some l && !(w.arg.any fun a => a % 2 == 1) && !s.isMe w
    && (match s.me.arg, w.arg with
        | some mine, some n => decide (n < mine)
        | _, _ => true)

/-- What a ladder command carries while it is not accepted. -/
def ladArrival (s : State) : State × Nat :=
  match s.me.arg with
  | some a => (s, a % 2 ^ 65 / 2 * 2)
  | none => ({ s with postN := s.postN + 1 }, 2 * s.postN)

/-- What an accepted read or wait carries: its arrival and the step that it names. -/
def ladAccepted (arr step : Nat) : Nat := arr + 1 + 2 ^ 65 * step
def ladStepOf (a : Nat) : Nat := a / 2 ^ 65
/-- The step that the current command names: an accepted one's as it was accepted. -/
def ladNamed (s : State) (b : Rg) : Nat :=
  match s.me.arg with
  | some a => if a % 2 = 1 then ladStepOf a else fld (s.readG b) 31 0
  | none => fld (s.readG b) 31 0

/-- The ladder's class in the issuing firing (R255). -/
def raise11 (s : State) : State := s.raiseFrom 3 { cls := 0x11 }

/-- A ladder command arrives at the unit: it waits while it is held back, and the ladder must be in use. -/
def ladCommand (s : State) (i : Instr) (l : Nat) (f : State → Nat → Ladder → Res) : Res :=
  let held := s.ladHeld l
  let (s, n) := s.ladArrival
  if held then .next (s.waitIn i (some n) 0)
  else
    let x := s.ladder s.sector l
    if !x.v then .next s.raise11 else f s n x

end State

/-! ### Tiles and merging (R254, R258) -/

def Ladder.tsz (x : Ladder) : Nat := (x.ne + 15) / 16
def rungCell (loc : W32) : Nat := fld loc 31 26
def rungOff (loc : W32) : Nat := fld loc 9 0 * 64
/-- The address of a rung's tile. -/
def Ladder.tileAt (x : Ladder) (sector k : Nat) : Nat :=
  let loc := Tbl.get 0 x.rung k
  cellAddr (sector * 64 + rungCell loc) + rungOff loc

def words32 (bs : List Byte) (n : Nat) : List W32 := (List.range n).map fun i => BitVec.ofNat 32 (ofBytes ((bs.drop (4 * i)).take 4))
def bytes32 (ws : List W32) : List Byte := ws.flatMap fun w => toBytes 4 w.toNat

def zeroPos (x : Num) : Num := if x.isZero then .fin false 0 0 else x
/-- One element of a merge: `a` is the rung (R258). -/
def mergeElem (mode : Nat) (a b : W32) : W32 :=
  let x := num32 a
  let y := num32 b
  match mode with
  | 0 => to32 (zeroPos (numSum 0 [x, y]))
  | 1 => to32 (pickNum true x y)
  | _ => to32 ((numSum 0 [x, y]).scale (-1))
def finite32 (w : W32) : Bool := !(num32 w).isInf && !(num32 w).isNan
/-- A merge, and whether some element became infinite from finite operands. -/
def mergeRung (mode : Nat) (a b : List W32) : List W32 × Bool :=
  let r := List.zipWith (mergeElem mode) a b
  (r, (List.zipWith (fun p q => finite32 p && finite32 q) a b).zip r |>.any fun e => e.1 && (num32 e.2).isInf)

/-! ### Commands (R255 to R257, R260 to R262) -/

/-- Do the rung locations fit, with no two tiles of one cell overlapping (R256)? -/
def rungsOk (locs : List W32) (tsz : Nat) : Bool :=
  locs.all (fun w => decide (rungCell w ≤ 47) && fld w 25 10 == 0 && decide (rungOff w + tsz * 64 ≤ 65536))
    && (List.range locs.length).all fun i => (List.range i).all fun j =>
        let a := locs.getD i 0
        let b := locs.getD j 0
        rungCell a ≠ rungCell b || decide (rungOff a + tsz * 64 ≤ rungOff b) || decide (rungOff b + tsz * 64 ≤ rungOff a)

def ladInitBody (lad : BitVec 3) (a : Rg) (mode : BitVec 2) (nrm1 : BitVec 5) (nem1 : BitVec 10) (off : W32) (w : Wave)
    (s : State) : Res :=
  let e := s.ea a off % 2 ^ 16
  let nr := nrm1.toNat + 1
  let ne := nem1.toNat + 1
  let held := s.ladHeld lad.toNat
  let (s, n) := s.ladArrival
  if held then .next (s.waitIn (.ladInit lad a mode nrm1 nem1 off w) (some n) 0)
  else
    let x := s.ladder s.sector lad.toNat
    if x.v then .next s.raise11
    else match State.bankHit e (4 * nr) with
    | some h => .next (s.raise h)
    | none =>
      let locs := words32 (s.bankRead e (4 * nr)) nr
      if !rungsOk locs ((ne + 15) / 16) then .next s.raise11
      else .next ((s.setLadder s.sector lad.toNat
        { v := true, mode := mode.toNat, nr := nr, ne := ne
          rung := ((List.range nr).zip locs).foldl (fun t p => Tbl.put t p.1 p.2) x.rung }).advance 4)

def execLadInit (lad : BitVec 3) (a : Rg) (mode : BitVec 2) (nrm1 : BitVec 5) (nem1 : BitVec 10) (off : W32) (w : Wave)
    (s : State) : Res := s.onWave w fun s => ladInitBody lad a mode nrm1 nem1 off w s.commit

def ladWtsBody (lad : BitVec 3) (a : Rg) (off : W32) (w : Wave) (s : State) : Res :=
  s.ladCommand (.ladWts lad a off w) lad.toNat fun s _ x =>
    let e := s.ea a off % 2 ^ 16
    match State.bankHit e (4 * x.nr) with
    | some h => .next (s.raise h)
    | none =>
      let ws := words32 (s.bankRead e (4 * x.nr)) x.nr
      let t := ((List.range x.nr).zip ws).foldl (fun t p => Tbl.put t p.1 p.2) x.wts
      .next ((s.setLadder s.sector lad.toNat { x with wts := t }).advance 4)

def execLadWts (lad : BitVec 3) (a : Rg) (off : W32) (w : Wave) (s : State) : Res :=
  s.onWave w fun s => ladWtsBody lad a off w s.commit

/-- Trailing zeros of a step number; 32 for 0 (R257). -/
def ctz32 (n : Nat) : Nat := if n % 2 ^ 32 = 0 then 32 else ((List.range 32).takeWhile fun k => n / 2 ^ k % 2 == 0).length

def ladPushBody (d : Rg) (lad : BitVec 3) (a b : Rg) (off : W32) (w : Wave) (s : State) : Res :=
  let i : Instr := .ladPush d lad a b off w
  match s.target d with
  | .error h => .next (s.raise h)
  | .ok t => s.ladCommand i lad.toNat fun s arr x =>
    let e := s.ea a off % 2 ^ 16
    if 2 ≤ x.pend.length then .next (s.waitIn i (some arr) 0)
    else
      let n := (x.step + 1) % 2 ^ 32
      if (b ≠ 0 && fld (s.readG b) 31 0 ≠ n) || x.nr ≤ ctz32 n then .next s.raise11
      else match State.bankHit e (4 * x.ne) with
        | some h => .next (s.raise h)
        | none =>
          let p : PendPush := { step := n, carry := words32 (s.bankRead e (4 * x.ne)) x.ne, k := 0, iss := s.issuer }
          .next (((s.setLadder s.sector lad.toNat { x with step := n, pend := x.pend ++ [p] }).complete s.issuer
            (s.sector * 2 ^ 38 + 49 * 2 ^ 32) t).advance 4)

def execLadPush (d : Rg) (lad : BitVec 3) (a b : Rg) (off : W32) (w : Wave) (s : State) : Res :=
  s.onWave w fun s => ladPushBody d lad a b off w s.commit

/-- Does a chain of the ladder run? -/
def Ladder.running (x : Ladder) : Bool :=
  match x.pend with
  | p :: _ => decide (p.k ≠ 0) || x.busy ≠ 0
  | [] => false

/-- DONE − n, read as a signed difference, is at least 0. -/
def stepReached (done n : Nat) : Bool := decide (diff32 done n < 2 ^ 31)

def ladReadBody (d : Rg) (lad : BitVec 3) (a b : Rg) (off : W32) (w : Wave) (s : State) : Res :=
  let i : Instr := .ladRead d lad a b off w
  s.ladCommand i lad.toNat fun s arr x =>
    let e := s.ea a off % 2 ^ 16
    match State.bankHit e (4 * x.ne) with
    | some h => .next (s.raise h)
    | none =>
      if !stepReached x.done (s.ladNamed b) || x.running then .next (s.waitIn i (some (State.ladAccepted arr (s.ladNamed b))) 0)
      else
        let rungs := ((List.range x.nr).filter fun k => x.occ.getLsbD k).map fun k =>
          (num32 (Tbl.get 0 x.wts k), words32 (Mem.load s.banks (x.tileAt s.sector k) (4 * x.ne)) x.ne)
        let y := (List.range x.ne).map fun j => to32 (if rungs.isEmpty then .fin false 0 0
          else numSum 0 (rungs.map fun r => mulNum r.1 (num32 (r.2.getD j 0))))
        .next (((s.vecStore e (bytes32 y)).writeG d (BitVec.ofNat 64 x.done)).advance 4)

def execLadRead (d : Rg) (lad : BitVec 3) (a b : Rg) (off : W32) (w : Wave) (s : State) : Res :=
  s.onWave w fun s => ladReadBody d lad a b off w s.commit

def ladRungBody (d : Rg) (lad : BitVec 3) (k : BitVec 5) (a : Rg) (off : W32) (w : Wave) (s : State) : Res :=
  let i : Instr := .ladRung d lad k a off w
  s.ladCommand i lad.toNat fun s arr x =>
    let e := s.ea a off % 2 ^ 16
    if x.nr ≤ k.toNat then .next s.raise11
    else match State.bankHit e (4 * x.ne) with
      | some h => .next (s.raise h)
      | none =>
        if x.busy.getLsbD k.toNat then .next (s.waitIn i (some (State.ladAccepted arr 0)) 0)
        else
          let occ := x.occ.getLsbD k.toNat
          let bs := if occ then Mem.load s.banks (x.tileAt s.sector k.toNat) (4 * x.ne) else List.replicate (4 * x.ne) 0
          .next (((s.vecStore e bs).writeG d (BitVec.ofNat 64 occ.toNat)).advance 4)

def execLadRung (d : Rg) (lad : BitVec 3) (k : BitVec 5) (a : Rg) (off : W32) (w : Wave) (s : State) : Res :=
  s.onWave w fun s => ladRungBody d lad k a off w s.commit

def ladStepBody (d : Rg) (lad : BitVec 3) (w : Wave) (s : State) : Res :=
  s.ladCommand (.ladStep d lad w) lad.toNat fun s _ x => .next ((s.writeG d (BitVec.ofNat 64 x.step)).advance 4)
def execLadStep (d : Rg) (lad : BitVec 3) (w : Wave) (s : State) : Res := s.onWave w fun s => ladStepBody d lad w s.commit

def ladWaitBody (d : Rg) (lad : BitVec 3) (b : Rg) (w : Wave) (s : State) : Res :=
  let i : Instr := .ladWait d lad b w
  s.ladCommand i lad.toNat fun s arr x =>
    if stepReached x.done (s.ladNamed b) then .next ((s.writeG d (BitVec.ofNat 64 x.done)).advance 4)
    else .next (s.waitIn i (some (State.ladAccepted arr (s.ladNamed b))) 0)
def execLadWait (d : Rg) (lad : BitVec 3) (b : Rg) (w : Wave) (s : State) : Res :=
  s.onWave w fun s => ladWaitBody d lad b w s.commit

/-- The reads and waits that a ladder has accepted. -/
def State.ladWaits (s : State) (sector l : Nat) : List Waiter :=
  (s.waiters sector).filter fun w => (w.arg.any fun a => a % 2 == 1) && (match w.inst with
    | .ladRead _ k _ _ _ _ => k.toNat == l
    | .ladWait _ k _ _ => k.toNat == l
    | _ => false)

/-- Those that still wait on a freed ladder end with class 0x11, in whichever slot they stand (R262). -/
def State.endLadWaits (s : State) (sector l : Nat) : State :=
  (s.ladWaits sector l).foldl (fun s w => s.endNamed 3 w.iss { cls := 0x11 } 0 0) s

def ladFreeBody (lad : BitVec 3) (w : Wave) (s : State) : Res :=
  s.ladCommand (.ladFree lad w) lad.toNat fun s arr x =>
    if !x.pend.isEmpty then .next (s.waitIn (.ladFree lad w) (some arr) 0)
    else .next (((s.setLadder s.sector lad.toNat { x with v := false }).advance 4).endLadWaits s.sector lad.toNat)
def execLadFree (lad : BitVec 3) (w : Wave) (s : State) : Res := s.onWave w fun s => ladFreeBody lad w s.commit

/-! ### The chain (R257, R259, R260) -/

/-- Has the ladder accepted a read, of a firing in whichever slot or save area, that can be performed now, so that no chain may start
(R260)? -/
def State.readFirst (s : State) (sector l : Nat) (x : Ladder) : Bool :=
  (s.ladWaits sector l).any fun w => match w.inst with
    | .ladRead _ _ _ _ _ _ => w.arg.any fun a => stepReached x.done (State.ladStepOf a)
    | _ => false

/-- LADDER_CHAIN_STEP (R257, R259): the chain of the ladder's oldest push begins its next rung step, which makes the
rung busy, or ends the step that is running. -/
def execLadderChainStep (sector lad : Nat) (s : State) : Res :=
  let x := s.ladder sector lad
  match x.pend with
  | [] => .next s
  | p :: rest =>
    let bit : BitVec 24 := 1 <<< p.k
    let ended (x : Ladder) : Ladder := { x with done := p.step, pend := rest, busy := 0 }
    if p.lost.isSome then .next s
    else if x.busy = 0 then
      if p.k = 0 && s.readFirst sector lad x then .next s
      else if x.nr ≤ p.k || (x.nr = p.k + 1 && x.occ.getLsbD p.k) then
        .next ((s.setLadder sector lad (ended x)).report { hit := { cls := 0x11 }, src := 3, iss := p.iss })
      else .next (s.setLadder sector lad { x with busy := bit })
    else if x.occ.getLsbD p.k then
      let (c, inf) := mergeRung x.mode (words32 (Mem.load s.banks (x.tileAt sector p.k) (4 * x.ne)) x.ne) p.carry
      .next (s.setLadder sector lad { x with
        busy := 0, occ := x.occ &&& ~~~bit, pend := { p with carry := c, k := p.k + 1 } :: rest
        ovfc := if inf then min (x.ovfc + 1) 0xFFFF else x.ovfc })
    else
      let s := { s with banks := Mem.store s.banks (x.tileAt sector p.k) (bytes32 p.carry) }
      .next (s.setLadder sector lad (ended { x with
        occ := x.occ ||| bit
        nanc := if p.carry.any (fun w => (num32 w).isNan) then min (x.nanc + 1) 0xFFFF else x.nanc }))

end Sys2Proof.Machine
end

