-- ==== Sys2Proof/Machine/QueueUnit.lean ====
section
/-! DEFINITION. The sector queue with its spill ring (R277 to R281, R392 to R395). -/
namespace Sys2Proof.Machine

namespace State

def squeue (s : State) (k : Nat) : Queue := (s.sectorAt k).queue
def modSqueue (s : State) (k : Nat) (f : Queue → Queue) : State := s.modSector k fun x => { x with queue := f x.queue }
def queueUnit (k : Nat) : Nat := k * 2 ^ 38 + 51 * 2 ^ 32

end State

/-- The eight words of an entry. -/
def Queue.entry (q : Queue) (e : Nat) : List W64 := (List.range 8).map fun i => Tbl.get 0 q.ent (e * 8 + i)
def Queue.setEntry (q : Queue) (e : Nat) (ws : List W64) : Queue :=
  { q with ent := ((List.range 8).zip ws).foldl (fun t p => Tbl.put t (e * 8 + p.1) p.2) q.ent }
/-- Records in the spill ring. -/
def Queue.spilled (q : Queue) : Nat := diff32 q.swr q.srd
/-- The address of a spill record. -/
def Queue.record (q : Queue) (i : Nat) : Nat := (q.sbase + 64 * (i % 2 ^ q.slog)) % 2 ^ 64

namespace State

/-- A queue notes the fault of its spill or refill, which class 0x04 or 0x08 freezes, with no token and no freeze of the region
(R392, R393); any other ends the command (R395). -/
def queueFail (s : State) (k : Nat) (iss : Issuer) (h : Hit) (prog : Nat) : State :=
  let fz := h.cls == 4 || h.cls == 8
  (s.modSector k fun x => { x with qfault := { frozen := fz, cls := h.cls, cause := h.cause, asid := iss.asid,
                                               faddr := nat64 h.faddr, prog0 := nat64 prog } }).report
    { hit := h, src := 3, iss := iss, loc := queueUnit k, quiet := fz }

/-- The bytes of a spill record of which nothing is known (R394; log 9), where its page translates. -/
def tearSpill (s : State) (k i : Nat) (iss : Issuer) : State × Except Hit Unit :=
  let bs := (List.range 64).map fun j => Config.freeByte (s.free + j)
  { s with free := s.free + 64 }.writeVirt iss ((s.squeue k).record i) bs

/-- The spill writes that wait, in push order: each is performed, or freezes the queue; any other class ends it. -/
def spillOut (s : State) (k : Nat) : List (Nat × List Byte × Issuer) → State
  | [] => s.modSqueue k fun q => { q with spill := [] }
  | (i, bs, iss) :: rest =>
    match s.writeVirt iss ((s.squeue k).record i) bs with
    | (s, .ok ()) => s.spillOut k rest
    | (s, .error h) =>
      if h.cls = 4 || h.cls = 8 then
        (s.modSqueue k fun q => { q with spill := (i, bs, iss) :: rest }).queueFail k iss h i
      else (s.queueFail k iss h i).spillOut k rest

/-- What becomes of a push at the queue (R279): performed, waiting, or a class. -/
def queuePush (s : State) (k : Nat) (iss : Issuer) (ws : List W64) : State × Option (Except Hit Unit) :=
  let q := s.squeue k
  if q.swr = q.srd && decide (q.qcnt < 32) then
    (s.modSqueue k fun q => { q.setEntry ((q.head + q.qcnt) % 32) ws with
        qcnt := q.qcnt + 1, pushes := (q.pushes + 1) % 2 ^ 32 }, some (.ok ()))
  else if q.slog = 0 then (s, some (.error { cls := 0x12 }))
  else if q.spilled = 2 ^ q.slog || (s.sectorAt k).qfault.frozen then (s, none)
  else
    let s := s.modSqueue k fun q => { q with swr := (q.swr + 1) % 2 ^ 32, pushes := (q.pushes + 1) % 2 ^ 32 }
    (s.spillOut k (q.spill ++ [(q.swr, wordBytes ws, iss)]), some (.ok ()))

/-- A pop at the queue (R281): the record, or none while it waits. `acq` says that the pop acquires at `.sect` or wider. -/
def queuePop (s : State) (k : Nat) (acq : Bool) : State × Option (List W64) :=
  let q := s.squeue k
  if q.qcnt = 0 || (acq && decide (q.qcnt ≤ q.infl)) then (s, none)
  else
    (s.modSqueue k fun q => { q with head := (q.head + 1) % 32, qcnt := q.qcnt - 1, pops := (q.pops + 1) % 2 ^ 32 },
     some (q.entry q.head))

/-- A push with REL links its entry, by the number of the push, to the pop that reads it (R290). -/
def linkPush (s : State) (k n : Nat) (rel : Option Link) : State :=
  match rel with
  | none => s
  | some l => s.modSqueue k fun q => { q with rels := Tbl.put q.rels n l }

/-- The link of the entry that pop number `n` reads, which leaves the queue. -/
def takeLink (s : State) (k n : Nat) : State × List Link :=
  (s.modSqueue k fun q => { q with rels := Tbl.del q.rels n }, (Tbl.find (s.squeue k).rels n).toList)

/-- The order of arrival that a waiting push or pop keeps, and the number of its logged operation. -/
def argSeq (a : Nat) : Nat := a % 2 ^ 64
def argOrd (a : Nat) : Option Nat := if a / 2 ^ 64 = 0 then none else some (a / 2 ^ 64 - 1)

/-- Does an earlier push, or pop, that waits at the queue hold the current one back (R278)? -/
def queueHeld (s : State) (k : Nat) (pop : Bool) : Bool :=
  let mine := s.me.arg
  let before (n : Nat) : Bool := match mine with
    | some m => decide (n < argSeq m)
    | none => true
  (s.allWaiters.any fun w =>
    (match w.inst with
     | .qPushReg _ _ _ | .qPushBank _ _ _ _ => !pop && w.addr == k
     | .qPopReg _ _ _ _ | .qPopBank _ _ _ _ => pop && w.addr == k
     | _ => false)
    && !s.isMe w && (match w.arg with
      | some n => before (argSeq n)
      | none => true))
  || (pop && s.dies.any fun d => d.2.tasks.any fun t =>
      t.2.v && t.2.st == 0 && t.2.qwait && t.2.record.isNone && t.2.qsect == k && (match t.2.held with
        | some n => before n
        | none => false))

/-- The queue that PATH and g[B] name (R278): its sector, or the class. -/
def queueOf (s : State) (b : Rg) (w : Wave) : Except (Nat × Hit) Nat :=
  if w.path = 1 then .ok s.sector
  else
    let a := (s.readG b).toNat % 2 ^ 48
    if !sectorOk (faSector a) then .error (0, { cls := 3, faddr := a, aux := 64 * 2 ^ 32 })
    else if !s.inRegion (faSector a) then .error (3, { cls := 0x12 })
    else .ok (faSector a)

end State

/-! ### The queue instructions (R278 to R281) -/

def qPushBody (i : Instr) (words : State → List W64) (b : Rg) (w : Wave) (s : State) : Res :=
  match s.queueOf b w with
  | .error (src, h) => .next (s.raiseFrom src h)
  | .ok k =>
    let held := s.queueHeld k false
    let (s, arg) := match s.me.arg with
      | some a => (s, a)
      | none =>
        let (s, ord) := s.logOrd s.issuer
        ({ s with postN := s.postN + 1 }, s.postN + 2 ^ 64 * (match ord with
          | some n => n + 1
          | none => 0))
    let l := (State.argOrd arg).bind fun n => s.logAt s.issuer n
    if (State.logOld l).isSome then .next (s.advance 3)
    else if held then .next (s.waitIn i (some arg) k)
    else
      let num := (s.squeue k).pushes
      match s.queuePush k s.issuer (words s) with
      | (s, none) => .next (s.waitIn i (some arg) k)
      | (s, some (.error h)) => .next (s.raiseFrom 3 h)
      | (s, some (.ok ())) =>
        .next ((((s.linkPush k num (s.relLink i)).logPut l 2 0).tally s.cell s.ctx.net fun t => { t with push := t.push + 1 }).advance 3)

/-- The eight registers from `a` on. -/
def regWords (a : Rg) (s : State) : List W64 := (List.range 8).map fun i => s.readG (a + BitVec.ofNat 5 i)

def qPushRegBody (a b : Rg) (w : Wave) (s : State) : Res := qPushBody (.qPushReg a b w) (regWords a) b w s
def qPushBankBody (a b : Rg) (off : W32) (w : Wave) (s : State) : Res :=
  let e := s.ea a off % 2 ^ 16
  match State.bankHit e 64 with
  | some h => .next (s.raise h)
  | none => qPushBody (.qPushBank a b off w) (fun s => wordsAt (s.bankRead e 64) 8) b w s

def execQPushReg (a b : Rg) (w : Wave) (s : State) : Res := s.onWave w fun s => qPushRegBody a b w s.commit
def execQPushBank (a b : Rg) (off : W32) (w : Wave) (s : State) : Res := s.onWave w fun s => qPushBankBody a b off w s.commit

def qPopBody (i : Instr) (b : Rg) (w : Wave) (f : State → List W64 → State) (s : State) : Res :=
  match s.queueOf b w with
  | .error (src, h) => .next (s.raiseFrom src h)
  | .ok k =>
    let held := s.queueHeld k true
    let (s, n) := s.arrival
    let num := (s.squeue k).pops
    if held then .next (s.waitIn i (some n) k)
    else match s.queuePop k (w.acq && w.scope ≠ 0) with
      | (s, none) => .next (s.waitIn i (some n) k)
      | (s, some ws) =>
        let (s, ls) := s.takeLink k num
        let s := match i.acqScope with
          | some scope => s.observe scope ls
          | none => s
        .next ((f s ws).advance 3)

/-- Eight words to the registers from `d` on. -/
def putRegs (d : Rg) (s : State) (ws : List W64) : State :=
  ((List.range 8).zip ws).foldl (fun s p => s.writeG (d + BitVec.ofNat 5 p.1) p.2) s

def qPopRegBody (d b : Rg) (c : Bool) (w : Wave) (s : State) : Res :=
  qPopBody (.qPopReg d b c w) b w (fun s ws => (putRegs d s ws).choose c (codeSigned (wordOf ws 0))) s
def qPopBankBody (a b : Rg) (off : W32) (w : Wave) (s : State) : Res :=
  let e := s.ea a off % 2 ^ 16
  match State.bankHit e 64 with
  | some h => .next (s.raise h)
  | none => qPopBody (.qPopBank a b off w) b w (fun s ws => s.vecStore e (State.wordBytes ws)) s

def execQPopReg (d b : Rg) (c : Bool) (w : Wave) (s : State) : Res := s.onWave w fun s => qPopRegBody d b c w s.commit
def execQPopBank (a b : Rg) (off : W32) (w : Wave) (s : State) : Res := s.onWave w fun s => qPopBankBody a b off w s.commit

def execQCnt (d b : Rg) (c : Bool) (w : Wave) (s : State) : Res := s.onWave w fun s =>
  let s := s.commit
  match s.queueOf b w with
  | .error (src, h) => .next (s.raiseFrom src h)
  | .ok k =>
    let q := s.squeue k
    unsigned d (BitVec.ofNat 64 (q.qcnt + q.spilled - q.infl)) c 3 s

/-! ### Refill (R280) -/

/-- REFILL_BATCH_START: a batch claims entries at the tail. -/
def execRefillBatchStart (sector : Nat) (s : State) : Res :=
  let q := s.squeue sector
  let b := min 8 q.spilled
  if q.infl ≠ 0 || q.spilled = 0 || 32 - q.qcnt < b || (s.sectorAt sector).qfault.frozen then .next s
  else .next (s.modSqueue sector fun q => { q with qcnt := q.qcnt + b, infl := b })

/-- The net instance whose region holds a sector, as the issuer of what the sector's queue does itself. -/
def State.sectorIssuer (s : State) (sector : Nat) : Issuer :=
  match s.nets.find? fun e => e.2.sectors.contains sector with
  | some (n, x) => { cell := sector * 64, net := n, asid := x.asid }
  | none => State.Issuer.plain 0

/-- The records of a batch, oldest first; one whose spill write was aborted while its page did not translate holds anything. -/
def State.readBatch (s : State) (k : Nat) (q : Queue) (iss : Issuer) (i : Nat) : Nat → State × Except Hit (List (List W64))
  | 0 => (s, .ok [])
  | n + 1 => match (if q.torn.contains (i % 2 ^ 32) then (s.tearSpill k i iss).1 else s).readVirt iss (q.record i) 64 with
    | (s, .error h) => (s, .error h)
    | (s, .ok bs) => match s.readBatch k q iss (i + 1) n with
      | (s, .error h) => (s, .error h)
      | (s, .ok rest) => (s, .ok (wordsAt bs 8 :: rest))

/-- REFILL_BATCH_LAND: once the spill writes of its records are performed, the batch lands whole and is released. -/
def execRefillBatchLand (sector : Nat) (s : State) : Res :=
  let q := s.squeue sector
  if q.infl = 0 || !q.spill.isEmpty || (s.sectorAt sector).qfault.frozen then .next s
  else
    let iss := s.sectorIssuer sector
    match s.readBatch sector q iss q.srd q.infl with
    | (s, .error h) =>
      .next ((if h.cls = 4 || h.cls = 8 then s else s.modSqueue sector fun q => { q with qcnt := q.qcnt - q.infl, infl := 0 }).queueFail
        sector iss h q.srd)
    | (s, .ok rs) =>
      let first := (q.head + q.qcnt + 32 - q.infl) % 32
      .next (s.modSqueue sector fun q =>
        { ((List.range q.infl).zip rs).foldl (fun q p => q.setEntry ((first + p.1) % 32) p.2) q with
          srd := (q.srd + q.infl) % 2 ^ 32, infl := 0, torn := q.torn.filter fun i => q.infl ≤ diff32 i q.srd })

end Sys2Proof.Machine
end

