-- ==== Sys2Proof/Machine/Tasks.lean ====
section
/-! DEFINITION. Futures and tasks as the future tables and the dependence table keep them: names and references (R264,
R268, R270), submission (R273, R274, R310), readiness (R57), renamed tiles (R275, R276), capture (R270, R271). -/
namespace Sys2Proof.Machine

/-! ### Names (R264, R272) -/

def futName (k f gen : Nat) : W64 := nat64 (k % 1024 * 2 ^ 38 + gen % 4096 * 2 ^ 20 + f % 256)
def taskId (gen k : Nat) : W64 := nat64 (gen % 4096 * 2 ^ 12 + k % 4096)

namespace State

def futureAt (s : State) (k f : Nat) : Future := Tbl.get {} (s.sectorAt k).futures f
def setFuture (s : State) (k f : Nat) (x : Future) : State :=
  s.modSector k fun y => { y with futures := Tbl.put y.futures f x }

def netHas (s : State) (net k : Nat) : Bool :=
  match Tbl.find s.nets net with
  | some n => n.sectors.contains k
  | none => false

/-- The entry that a name of a net instance's names; none where the name is stale (R264). -/
def futureOf (s : State) (net : Nat) (name : W64) : Option (Nat × Nat) :=
  let k := fld name 47 38
  let f := fld name 7 0
  let x := s.futureAt k f
  if name = futName k f (fld name 31 20) && s.netHas net k && x.v && x.gen == fld name 31 20 then some (k, f) else none

/-! ### The outstanding work of cells (R56, R60, R270, R276) -/

/-- Has an engine command of some issuers not reached its release? -/
def commandsOpen (s : State) (p : Issuer → Bool) : Bool :=
  s.stores.any (fun x => p x.iss) || s.posts.any (fun x => p x.iss) || s.credits.any (fun x => p x.iss) || s.colls.any (fun x => p x.iss)
  || s.owners.any (fun e => e.2.streams.any (fun x => p x.2.iss && !x.2.ended) || e.2.lanes.any (fun x => p x.2.iss)
    || e.2.walkers.any fun x => p x.2.iss)
  || s.sectors.any fun e => e.2.node.ports.any (fun x => p x.iss) || e.2.node.queue.any (fun x => p x.iss)
    || e.2.ladders.any fun l => l.2.pend.any fun x => p x.iss

/-- Does a firing of a context of the net instance, in a cell that `p` picks, do what `q` says? -/
def anyFiring (s : State) (net : Nat) (p : Nat → Bool) (q : Firing → Bool) : Bool :=
  (s.cells.any fun e => p e.1 && [0, 1, 2].any fun k =>
      let c := e.2.slotCtx k
      c.valid && c.net == net && c.busy.any q)
  || s.saves.any fun e => e.2.net == net && e.2.valid && p (e.1 / 4096) && e.2.busy.any q

end State

namespace State

/-- The template instance that runs a task. -/
def taskInst (s : State) (net k : Nat) : Option Inst :=
  (Tbl.find s.nets net).bind fun n => n.insts.find? fun i =>
    i.task == some k && i.tmpl == (s.taskAt n.die k).tmpl && i.inst == (s.taskAt n.die k).inst

def modInst (s : State) (net : Nat) (p : Inst → Bool) (f : Inst → Inst) : State :=
  s.modNet net fun n => { n with insts := n.insts.map fun i => if p i then f i else i }

def instBusy (s : State) (net : Nat) (i : Inst) : Bool := s.anyFiring net (fun c => i.cells.contains c) fun _ => true
def instCommands (s : State) (net : Nat) (i : Inst) : Bool :=
  s.commandsOpen fun x => x.net == net && i.cells.contains x.cell

/-! ### The rename pool and the versions of tiles (R275, R276) -/

def poolSize (s : State) (die : Nat) : Nat := fld (s.dieAt die).rpool 63 41

/-- The pool tiles in use: the fresh tiles of tasks, and the versions kept in the pool. -/
def poolUsed (s : State) (die : Nat) : List Nat :=
  ((s.dieAt die).tasks.flatMap fun t => t.2.fresh.map (·.2)) ++ (s.dieAt die).vers.filterMap (·.pool)

/-- `n` free tiles of the pool, the lowest ones. -/
def poolFree (s : State) (die n : Nat) : Option (List Nat) :=
  let used := s.poolUsed die
  let l := ((List.range (min (s.poolSize die) (used.length + n))).filter fun i => !used.contains i).take n
  if l.length = n then some l else none

def liveTask (t : Task) : Bool := t.v && t.st ≠ 3

/-- Does a live task resolve a read to a version that is not its tile's newest: the version is the latest one
submitted before the task? -/
def versionNeeded (s : State) (die : Nat) (v : Version) : Bool :=
  let d := s.dieAt die
  d.tasks.any fun e => liveTask e.2 && e.2.asid == v.asid && decide (v.order < e.2.order)
    && !(d.vers.any fun w => w.asid == v.asid && w.tile == v.tile && decide (v.order < w.order) && decide (w.order < e.2.order))

def newestVersion (s : State) (die : Nat) (v : Version) : Bool :=
  !((s.dieAt die).vers.any fun w => w.asid == v.asid && w.tile == v.tile && decide (v.order < w.order))

/-- Versions that no live task resolves to, and that are not a tile's newest, leave the pool. -/
def pruneVersions (s : State) (die : Nat) : State :=
  s.modDie die fun d => { d with vers := d.vers.filter fun v => s.newestVersion die v || s.versionNeeded die v }

/-- The virtual address of a tile. -/
def tileVa (t : Nat) : Nat := (BitVec.ofNat 57 (t * 4096)).signExtend 64 |>.toNat

/-- WHERE of a fault of a die's dependence table against no instruction. DESIGN CHOICE (log 58): R373 asks for the unit's own address,
and the table has none in the fabric (R91); the record shows that of the future table of the die's first sector. -/
def tableUnit (die : Nat) : Nat := die % 4 * 2 ^ 46 + 50 * 2 ^ 32

/-- A unit's access of a task's tile that meets a poisoned frame is not performed: class 0x08 in the task's region (R397). -/
def tilePoison (s : State) (t : Task) (tile dpa : Nat) : State :=
  s.report { hit := poisonHit (tileVa tile) dpa, src := 3, iss := { net := t.net, asid := t.asid }
             loc := tableUnit (((Tbl.find s.nets t.net).map fun n => n.die).getD 0) }

/-- A tile at its own address, where it translates and its frame is sound. -/
def tileAt (s : State) (t : Task) (tile : Nat) (write : Bool) : State × Option Nat :=
  match s.translate t.asid (tileVa tile) write with
  | (s, .ok e) => if s.poisoned e.dpa then (s.tilePoison t tile e.dpa, none) else (s, some e.dpa)
  | (s, .error x) => match x.frame with
    | some dpa => (s.tilePoison t tile dpa, none)
    | none => (s, none)

/-- One tile of a write set commits (R276, step 2): `p` is the pool tile that holds the task's bytes. -/
def commitTile (s : State) (die k : Nat) (tile p : Nat) : State :=
  let t := s.taskAt die k
  let mine : Version := { asid := t.asid, tile := tile, order := t.order, pool := some p, net := t.net, keep := false }
  let ofTile (v : Version) : Bool := v.asid == t.asid && v.tile == tile
  let put (s : State) (v : Version) : State := s.modDie die fun d => { d with vers := d.vers ++ [v] }
  if (s.dieAt die).vers.any fun v => ofTile v && decide (t.order < v.order) then put s mine
  else match s.tileAt t tile true with
    | (s, none) => put s { mine with keep := true }
    | (s, some dpa) =>
      let pa := s.poolTile die p
      let old := devLoad s.mem dpa 4096
      let new := devLoad s.mem pa 4096
      -- the version that the own address held goes to the task's pool tile
      let s : State := { s with mem := devStore (devStore s.mem dpa new) pa old }
      let older (v : Version) : Version :=
        if ofTile v && v.pool.isNone then { v with pool := some p, keep := false } else { v with keep := v.keep && !ofTile v }
      put (s.modDie die fun d => { d with vers := d.vers.map older }) { mine with pool := none }

/-! ### The table (R274, R310) -/

/-- A task leaves the table, complete or captured: no task waits for it any longer, and its log entries are free
(R404). -/
def leaveTable (s : State) (die k : Nat) : State :=
  s.modDie die fun d =>
    let t : Task := Tbl.get {} d.tasks k
    let key := k % 4096 * 2 ^ 12 + t.gen % 4096
    { d with
      tasks := Tbl.mapV (fun _ x => { x with preds := x.preds.filter (· ≠ k) }) (Tbl.put d.tasks k { t with v := false, st := 3, fresh := [] })
      alogs := d.alogs.filter fun e => e.2.1 / 2 ^ 40 ≠ key }

/-- A future that a task waits on is filled, or its task is over (R274). -/
def futureReady (s : State) (net : Nat) (name : W64) : Bool :=
  match s.futureOf net name with
  | none => true
  | some (k, f) => let x := s.futureAt k f; x.filled || x.st == 2

/-- Every condition but the record holds. -/
def otherwiseReady (s : State) (t : Task) : Bool :=
  t.v && t.st == 0 && t.preds.isEmpty && (!t.futw || s.futureReady t.net t.futn) && (!t.trel || t.reld)

/-! ### References and the start of a capture (R268, R270) -/

def sat16 (n : Nat) : Nat := min n 0xFFFF

/-- The reclamation record (R271). -/
def reclaimed (s : State) (k f : Nat) (t : Task) (task cause tiles child : Nat) : State :=
  let g := (s.futureAt k f).gen
  s.reclaimRing (sectorDie k)
    [ nat64 (2 ^ 56 + task % 4096 * 2 ^ 44 + k % 1024 * 2 ^ 34 + f % 256 * 2 ^ 26 + g % 4096 * 2 ^ 14 + cause % 4 * 2 ^ 12),
      nat64 (sat16 tiles * 2 ^ 48 + sat16 t.atom * 2 ^ 32 + sat16 t.push * 2 ^ 16 + sat16 t.store),
      nat64 (sat16 t.emits * 2 ^ 48 + sat16 t.eng * 2 ^ 32 + sat16 child * 2 ^ 16 + sat16 t.fills),
      nat64 s.clock, 0, 0, 0, 0 ]

/-- The future that a task belongs to. -/
def taskFuture (t : Task) : Option (Nat × Nat) := if t.fut then some (fld t.fname 47 38, fld t.fname 7 0) else none

/-- The last reference is gone: a future whose task is done is freed; one whose task is running begins to be captured;
one whose task is pending leaves at once, and so does that task's own reference (R270). The references that fall with
it are returned. DESIGN CHOICE (log 58): an entry whose `fut.spawn` still waits for the table is freed with a record of TASK 0, and
the spawn allocates anew; R270 does not speak of one. -/
def lastGone (s : State) (k f cause : Nat) : State × List (Nat × Nat × Nat) :=
  let x := s.futureAt k f
  let die := sectorDie k
  if x.st = 2 then (s.setFuture k f { x with v := false }, [])
  else if x.st = 1 then
    ((s.setFuture k f { x with st := 3 }).modTask die x.task fun t => { t with capt := some cause }, [])
  else if x.st = 0 then
    if taskFuture (s.taskAt die x.task) ≠ some (k, f) || !(s.taskAt die x.task).v then
      ((s.reclaimed k f {} 0 cause 0 0).setFuture k f { x with v := false }, [])
    else
    let t := s.taskAt die x.task
    let more := if t.fheld then (match s.futureOf t.net t.futn with
      | some (k', f') => [(k', f', 0)]
      | none => []) else []
    let s := s.leaveTable die x.task
    ((s.reclaimed k f t x.task cause 0 0).modSector k fun y =>
      { y with futures := Tbl.put y.futures f { x with v := false } }, more)
  else (s, [])

/-- References dropped one after another, each with the cause that a capture would have. -/
def dropRefs (s : State) : Nat → List (Nat × Nat × Nat) → State
  | 0, _ => s
  | _, [] => s
  | fuel + 1, (k, f, cause) :: rest =>
    let x := s.futureAt k f
    let s := s.setFuture k f { x with ref := x.ref - 1 }
    if x.ref ≤ 1 then
      let (s, more) := s.lastGone k f cause
      s.dropRefs fuel (more ++ rest)
    else s.dropRefs fuel rest

def dropFuel (s : State) (n : Nat) : Nat := n + (s.dies.map fun d => d.2.tasks.length).sum + 1

/-- A task's own reference on the future that it waits on falls (R273). -/
def dropOwn (s : State) (die k : Nat) : State :=
  let t := s.taskAt die k
  if !t.fheld then s
  else
    let s := s.modTask die k fun t => { t with fheld := false }
    match s.futureOf t.net t.futn with
    | some (kk, f) => s.dropRefs (s.dropFuel 1) [(kk, f, 0)]
    | none => s

/-! ### Readiness (R57, R274) -/

/-- The entries in submission order. -/
def inOrder (l : List (Nat × Task)) : List (Nat × Task) :=
  l.foldl (fun acc e =>
    (acc.takeWhile fun x => decide (x.2.order < e.2.order)) ++ e :: acc.dropWhile fun x => decide (x.2.order < e.2.order)) []

/-- The task that becomes ready next, or that turns to its queue next. -/
def nextReady (s : State) (die : Nat) : Option (Nat × Task) :=
  (inOrder (s.dieAt die).tasks).find? fun e =>
    s.otherwiseReady e.2 && (!e.2.qwait || e.2.held.isNone || e.2.record.isSome)

/-- Tasks become ready, one after another, until none is left whose conditions hold. -/
def refreshTasks (s : State) (die : Nat) : Nat → State
  | 0 => s
  | fuel + 1 =>
    match s.nextReady die with
    | none => s
    | some (k, t) =>
      let s := if t.qwait && t.record.isNone then
          { s.modTask die k (fun t => { t with held := some s.postN, heldAt := s.clock }) with postN := s.postN + 1 }
        else
          { (s.modTask die k fun t => { t with st := 1, ready := some s.postN }).dropOwn die k with postN := s.postN + 1 }
      s.refreshTasks die fuel

def settleTasks (s : State) (die : Nat) : State := s.refreshTasks die (2 * (s.dieAt die).tasks.length + 1)

/-- References that a task still holds as the spawner (R270 step 5, R276 step 4): the entries of the die. -/
def heldBy (s : State) (die task : Nat) : List (Nat × Nat) :=
  (s.sectors.filter fun e => sectorDie e.1 == die).flatMap fun e =>
    (e.2.futures.filter fun f => f.2.v && f.2.pheld && f.2.hasp && f.2.ptask == task).map fun f => (e.1, f.1)

/-- They are dropped: the state, and how many futures this captures. -/
def dropHeld (s : State) (die task cause : Nat) : State × Nat :=
  let l := s.heldBy die task
  let n := (l.filter fun e => let x := s.futureAt e.1 e.2; decide (x.ref ≤ 1) && decide (x.st ≤ 1)).length
  let s := l.foldl (fun s e => s.setFuture e.1 e.2 { s.futureAt e.1 e.2 with pheld := false }) s
  (s.dropRefs (s.dropFuel l.length) (l.map fun e => (e.1, e.2, cause)), n)

/-! ### Submission (R273, R274) -/

end State

/-- What is submitted. -/
structure Submit where
  tmpl   : Nat
  args   : List W64
  reads  : List Nat := []
  writes : List Nat := []
  futn   : Option W64 := none
  qsect  : Option Nat := none
  time   : Option W64 := none

def rangeTiles (w : W64) : List Nat := (List.range (fld w 63 52 + 1)).map fun i => (fld w 44 0 + i) % 2 ^ 45
def dcRanges (d : List W64) (base n : Nat) : List W64 := (List.range n).map fun i => wordOf d (base + i)

/-- The checks of a descriptor that need no translation (R273): class 0x0E where one fails. -/
def dcOk (d : List W64) (templs die : Nat) : Bool :=
  let w0 := wordOf d 0
  let nr := fld w0 47 44
  let nw := fld w0 43 40
  let ws := (dcRanges d 16 nw).map rangeTiles
  fld w0 36 0 == 0 && wordOf d 7 == 0 && decide (nr ≤ 8) && decide (nw ≤ 8) && decide (fld w0 63 48 < templs)
  && ((dcRanges d 8 nr ++ dcRanges d 16 nw).all fun r => fld r 51 45 == 0)
  && (ws.all fun ts => ts.all fun t => t / 2 ^ 41 == die)
  && ((List.range nw).all fun i => (List.range i).all fun j => !((ws.getD i []).any fun t => (ws.getD j []).contains t))
  && (!w0.getLsbD 38 || (fld (wordOf d 5) 63 48 == 0 && fld (wordOf d 5) 37 0 == 0 && sectorOk (fld (wordOf d 5) 47 38)))

def dcSubmit (d : List W64) : Submit :=
  let w0 := wordOf d 0
  { tmpl := fld w0 63 48, args := [wordOf d 1, wordOf d 2, wordOf d 3]
    reads := (dcRanges d 8 (fld w0 47 44)).flatMap rangeTiles, writes := (dcRanges d 16 (fld w0 43 40)).flatMap rangeTiles
    futn := if w0.getLsbD 39 then some (wordOf d 4) else none
    qsect := if w0.getLsbD 38 then some (fld (wordOf d 5) 47 38) else none
    time := if w0.getLsbD 37 then some (wordOf d 6) else none }

namespace State

/-- Every tile of the write set translates with WR, and with RD where it is read too (R273). -/
def tilesOk (s : State) (asid : Nat) (reads : List Nat) : List Nat → State × Bool
  | [] => (s, true)
  | t :: ts =>
    match s.translate asid (tileVa t) true with
    | (s, .error _) => (s, false)
    | (s, .ok _) =>
      if reads.contains t then
        match s.translate asid (tileVa t) false with
        | (s, .error _) => (s, false)
        | (s, .ok _) => s.tilesOk asid reads ts
      else s.tilesOk asid reads ts

/-- The checks of a submission, in the order of R273: class 0x0E, then 0x12, then 0x10. A write set above the pool is
class 0x0E too (R310). `desc` is the descriptor's words, where there is one. -/
def submitHit (s : State) (net asid die templs : Nat) (desc : Option (List W64)) (x : Submit) (at' : Nat) : State × Option Hit :=
  let bad : Option Hit := some { cls := 0x0E, faddr := at' }
  if !(match desc with
      | some d => dcOk d templs die
      | none => decide (x.tmpl < templs)) then (s, bad)
  else match s.tilesOk asid x.reads x.writes with
    | (s, false) => (s, bad)
    | (s, true) =>
      if s.poolSize die < x.writes.length then (s, bad)
      else if (match x.qsect with
        | some k => !s.netHas net k
        | none => false) then (s, some { cls := 0x12 })
      else if (match x.futn with
        | some n => (match s.futureOf net n with
          | some (k, f) => (s.futureAt k f).ref == 0xFFFF
          | none => true)
        | none => false) then (s, some { cls := 0x10 })
      else (s, none)

/-- The entries that a submission may take: not in use, and left by the instance that ran there before. -/
def freeEntries (s : State) (die : Nat) : List Nat :=
  let ns := s.nets.filter fun n => n.2.die == die
  (List.range 4096).filter fun k => !(s.taskAt die k).v
    && !(ns.any fun n => n.2.insts.any fun i => i.task == some k && (!i.idle || s.instBusy n.1 i))

def wheelFull (s : State) : Bool := decide (4096 ≤ s.wheel.length)

/-- Does a submission wait for the table or the wheel (R274)? -/
def submitWaits (s : State) (die : Nat) (x : Submit) : Bool :=
  (s.freeEntries die).isEmpty || (x.time.isSome && s.wheelFull)

/-- A submission that waits for nothing is accepted (R274): its entry, and the state. -/
def submit (s : State) (net asid die : Nat) (x : Submit) (fut : Option (Nat × Nat)) (rel : Option Link := none) : State × Nat :=
  match s.pickFree (s.freeEntries die) with
  | none => (s, 0)
  | some (k, s) =>
    let d := s.dieAt die
    let gen := ((s.taskAt die k).gen + 1) % 4096
    let preds := (d.tasks.filter fun e => liveTask e.2 && e.2.asid == asid && e.2.writes.any fun t => x.reads.contains t).map (·.1)
    let t : Task := { v := true, gen := gen, tmpl := x.tmpl, futw := x.futn.isSome, fut := fut.isSome
                      fname := match fut with
                        | some (k, f) => futName k f 0
                        | none => 0
                      wtiles := x.writes.length, qwait := x.qsect.isSome, trel := x.time.isSome, asid := asid, net := net
                      args := x.args, reads := x.reads, writes := x.writes, futn := x.futn.getD 0, fheld := x.futn.isSome
                      qsect := x.qsect.getD 0, order := d.orders + 1, preds := preds, sync := rel.toList }
    let s : State := { s with nets := Tbl.mapV (fun _ n => if n.die = die then
      { n with insts := n.insts.map fun i => if i.task = some k then { i with task := none } else i } else n) s.nets }
    let s := s.modDie die fun d => { d with orders := d.orders + 1, tasks := Tbl.put d.tasks k t }
    let s := match x.futn.bind fun n => s.futureOf net n with
      | some (kk, f) => s.setFuture kk f { s.futureAt kk f with ref := (s.futureAt kk f).ref + 1 }
      | none => s
    let word := nat64 (2 ^ 52 + 2 ^ 48 + die % 4 * 2 ^ 46 + gen % 4096 * 2 ^ 12 + k % 4096)
    let s : State := match x.time with
      | some tm => { s with wheel := s.wheel ++ [{ time := tm, word := word, net := net }] }
      | none => s
    ((match fut with
      | some (kk, f) => s.setFuture kk f { s.futureAt kk f with task := k }
      | none => s).settleTasks die, k)

/-! ### Completion (R276) and capture (R270) -/

/-- The release of a completion: what is performed (R276, log 5). -/
def shareDone (s : State) (die k : Nat) : State :=
  let l := s.unitLink s.cell 3
  let s := s.modDie die fun d => { d with
    tasks := Tbl.mapV (fun _ x => if x.preds.contains k then { x with sync := x.sync ++ [l] } else x) d.tasks }
  match taskFuture (s.taskAt die k) with
  | some (kk, f) => s.setFuture kk f { s.futureAt kk f with sync := (s.futureAt kk f).sync ++ [l] }
  | none => s

/-- The commit of a task (R276, steps 2 to 5). -/
def commitTask (s : State) (die k : Nat) : State :=
  let t := s.taskAt die k
  let s := t.fresh.foldl (fun s p => s.commitTile die k p.1 p.2) s
  let s := ((s.shareDone die k).leaveTable die k).pruneVersions die
  let s := match taskFuture t with
    | some (kk, f) =>
      let x := s.futureAt kk f
      s.setFuture kk f { x with st := 2, nofill := x.nofill || !x.filled, value := if x.filled then x.value else 0 }
    | none => s
  let (s, _) := s.dropHeld die k 2
  (s.modInst t.net (fun i => i.task == some k) fun i => { i with idle := true }).settleTasks die

/-- Is the capture of a future, under a generation, in progress (R270)? -/
def beingCaptured (s : State) (e : Nat × Nat × Nat) : Bool :=
  let x := s.futureAt e.1 e.2.1
  x.v && x.st == 3 && x.gen == e.2.2

/-- Steps 4 and 5 of a capture (R270): the fresh tiles return, the tasks that depended on it go on, and its own references
fall. The futures that this captures are remembered. -/
def captureStart (s : State) (die k : Nat) : State :=
  let n := (s.taskAt die k).fresh.length
  let s := (s.modDie die fun d => { d with tasks := Tbl.mapV (fun _ x => { x with preds := x.preds.filter (· ≠ k) }) d.tasks }).modTask die k
    fun t => { t with st := 3, fresh := [], lost := n }
  let s := s.pruneVersions die
  let l := (s.heldBy die k).map fun e => (e.1, e.2, (s.futureAt e.1 e.2).gen)
  let (s, child) := s.dropHeld die k 1
  (s.modTask die k fun t => { t with child := child, kids := some (l.filter s.beingCaptured) }).settleTasks die

/-- Step 6 (R270): the record, once the captures of step 5 are over; the instance and the entry are freed. -/
def captureEnd (s : State) (die k : Nat) : State :=
  let t := s.taskAt die k
  let s := s.leaveTable die k
  let s := match taskFuture t with
    | some (kk, f) => (s.reclaimed kk f t k (t.capt.getD 0) t.lost t.child).setFuture kk f { s.futureAt kk f with v := false }
    | none => s
  ((s.modInst t.net (fun i => i.task == some k) fun i => { i with idle := true, task := none }).modTask die k
    fun t => { t with capt := none, kids := none }).settleTasks die

/-- A capture goes on to its end unless one that it started is in progress. -/
def captureTask (s : State) (die k : Nat) : State :=
  if ((s.taskAt die k).kids.getD []).any s.beingCaptured then s else s.captureEnd die k

/-- Is a firing's task being captured (R269, R270)? -/
def capturing (s : State) : Bool :=
  match s.taskOf s.cell s.ctx.net with
  | some k => let t := s.taskAt (cellDie s.cell) k; t.v && t.capt.isSome
  | none => false

end State

/-- CAPTURE_COMPLETE (R270): every firing of the instance has ended, and every engine command has reached its
release; the record waits for the captures of step 5. -/
def execCaptureComplete (die task : Nat) (s : State) : Res :=
  let t := s.taskAt die task
  let busy : Bool := match s.taskInst t.net task with
    | none => false
    | some i => s.instBusy t.net i || s.instCommands t.net i
  if !t.v || t.capt.isNone then .next s
  else if t.kids.isSome then .next (s.captureTask die task)
  else if busy then .next s
  else .next ((s.captureStart die task).captureTask die task)

/-! ### The task commands (R272 to R276) -/

namespace State

/-- The templates of the current net instance. -/
def templs (s : State) : Nat := match Tbl.find s.nets s.ctx.net with
  | some n => n.templs
  | none => 0

/-- A descriptor must be aligned to 64 and lie in the bank (R273). -/
def taskDescHit (off : Nat) : Option Hit :=
  if off % 64 ≠ 0 || 2 ^ 16 < off % 2 ^ 16 + 192 then some { cls := 3, faddr := off % 2 ^ 16, aux := 192 * 2 ^ 32 } else none

end State

/-- The descriptor that a waiting submission carries. -/
def heldDesc (k : Nat) : List W64 := (List.range 24).map fun i => BitVec.ofNat 64 (k / 2 ^ (64 * i))

/-- A submission by the current firing. A descriptor is read once. -/
def tskSub (i : Instr) (d : Rg) (desc : Option (List W64)) (x : Submit) (at' : Nat) (s : State) : Res :=
  let die := cellDie s.cell
  let arg := desc.map fun ws => ofBytes (State.wordBytes ws)
  match s.submitHit s.ctx.net s.ctx.asid die s.templs desc x at' with
  | (s, some h) => .next (s.raiseFrom 3 h)
  | (s, none) =>
    if s.submitWaits die x then .next (s.waitIn i arg at')
    else
      let (s, k) := s.submit s.ctx.net s.ctx.asid die x none (s.relLink i)
      .next ((s.writeG d (taskId (s.taskAt die k).gen k)).advance 4)

def tskSubInlineBody (d a b : Rg) (imm : W32) (tmpl : BitVec 16) (w : Wave) (s : State) : Res :=
  tskSub (.tskSubInline d a b imm tmpl w) d none { tmpl := tmpl.toNat, args := [s.readG a, s.readG b, sext32 imm] } 0 s

def tskSubDescBody (d a : Rg) (off : W32) (w : Wave) (s : State) : Res :=
  let i : Instr := .tskSubDesc d a off w
  match s.me.arg with
  | some k => let ws := heldDesc k
              tskSub i d (some ws) (dcSubmit ws) s.me.addr s
  | none =>
    let e := s.ea a off % 2 ^ 16
    match State.taskDescHit e with
    | some h => .next (s.raise h)
    | none =>
      let ws := wordsAt (s.bankRead e 192) 24
      tskSub i d (some ws) (dcSubmit ws) (cellAddr s.cell + e) s

def execTskSubInline (d a b : Rg) (imm : W32) (tmpl : BitVec 16) (w : Wave) (s : State) : Res :=
  s.onWave w fun s => tskSubInlineBody d a b imm tmpl w s.commit
def execTskSubDesc (d a : Rg) (off : W32) (w : Wave) (s : State) : Res :=
  s.onWave w fun s => tskSubDescBody d a off w s.commit

/-- `tsk.done` (R276): the first one of a task waits for the instance's accesses and commands and commits; a later one
has no effect; one of a task that is captured ends its firing. -/
def tskDoneBody (w : Wave) (s : State) : Res :=
  let die := cellDie s.cell
  let net := s.ctx.net
  match s.taskOf s.cell net with
  | none => .next (s.raiseFrom 3 { cls := 0x12 })
  | some k =>
    let t := s.taskAt die k
    if !t.v || (t.doneRq && s.me.arg.isNone) then .next (s.advance 4)
    else if t.capt.isSome then .next s.endFiring
    else
      let s := s.modTask die k fun t => { t with doneRq := true }
      let waits : Bool := match s.taskInst net k with
        | some i => s.instCommands net i || s.anyFiring net (fun c => i.cells.contains c) fun f => match f.wait with
            | some j => j.accesses
            | none => false
        | none => false
      if waits then .next (s.waitIn (.tskDone w) (some 1) 0) else .next ((s.commitTask die k).advance 4)

def execTskDone (w : Wave) (s : State) : Res := s.onWave w fun s => tskDoneBody w s.commit

/-! ### Records for waiting tasks, and dispatch (R274, R275, R309) -/

/-- TASK_QWAIT_POP (R274): a task whose other conditions hold takes its record, in turn. -/
def execTaskQwaitPop (die task : Nat) (s : State) : Res :=
  let t := s.taskAt die task
  match t.held with
  | none => .next s
  | some n =>
    if !t.v || t.st ≠ 0 || !t.qwait || t.record.isSome then .next s
    else
      let first := (s.dieAt die).tasks.any fun e => e.2.v && e.2.st == 0 && e.2.qwait && e.2.record.isNone && e.2.qsect == t.qsect
        && e.2.held.isSome && (decide (e.2.heldAt < t.heldAt) || (e.2.heldAt == t.heldAt && decide (e.2.order < t.order)))
      let held := s.allWaiters.any fun w => (match w.inst with
        | .qPopReg _ _ _ _ | .qPopBank _ _ _ _ => w.addr == t.qsect
        | _ => false) && (match w.arg with
          | some m => decide (State.argSeq m < n)
          | none => false)
      if first || held then .next s
      else
        let num := (s.squeue t.qsect).pops
        match s.queuePop t.qsect true with
        | (s, none) => .next s
        | (s, some ws) =>
          let (s, ls) := s.takeLink t.qsect num
          .next ((s.modTask die task fun t => { t with record := some ws, sync := t.sync ++ ls }).settleTasks die)

namespace State

/-- The bytes with which a fresh tile starts (R275): the version that the task reads, or zeros. -/
def freshBytes (s : State) (die : Nat) (t : Task) (tile : Nat) : State × List Byte :=
  let zero := List.replicate 4096 (0 : Byte)
  if !t.reads.contains tile then (s, zero)
  else match s.versionFor die t.asid t.order tile with
    | some p =>
      let pa := s.poolTile die p
      if s.poisoned pa then (s.tilePoison t tile pa, zero) else (s, devLoad s.mem pa 4096)
    | none => match s.tileAt t tile false with
      | (s, some dpa) => (s, devLoad s.mem dpa 4096)
      | (s, none) => (s, zero)

def putFresh (s : State) (die k : Nat) : List (Nat × Nat) → State
  | [] => s
  | (tile, p) :: rest =>
    let (s, bs) := s.freshBytes die (s.taskAt die k) tile
    let pa := s.poolTile die p
    let s : State := if s.poisoned pa then s.tilePoison (s.taskAt die k) tile pa else { s with mem := devStore s.mem pa bs }
    (s.modTask die k fun t => { t with fresh := t.fresh ++ [(tile, p)] }).putFresh die k rest

/-- The lowest idle instance of a template whose firings have ended and whose contexts all stand in slots. -/
def idleInst (s : State) (net tmpl : Nat) : Option Inst :=
  (Tbl.find s.nets net).bind fun n => n.insts.find? fun i => i.tmpl == tmpl && i.idle && !s.instBusy net i
    && i.cells.all fun c => ((s.cellAt c).slotFor net).isSome

/-- The initial marking of one cell (R307, R309), the numbering of its logged operations from 0 (R404). Words that wait at an entry
and the capacities that places have reached stand (R383); what the task's release and those before it link is acquired (R290). -/
def injectCell (s : State) (m : Img) (args : List (W64 × W64)) (net cell : Nat) (ls : List Link) : State :=
  match (s.cellAt cell).slotFor net with
  | none => s
  | some slot => s.modSlot cell slot fun c => { c with
      places := Tbl.mapV (fun p x => { x with
        entry := (c.place p).entry, cap := (c.place p).cap, ext := (c.place p).ext, pool := (c.place p).pool }) (m.marking args c.acell)
      ord := 0
      floor := (s.observeIn cell 3 ls c).floor
      know := (s.observeIn cell 3 ls c).know
      touched := s.clock + 1 }

/-- What the first cell of the instance receives (R275). -/
def taskRegs (k : Nat) (t : Task) (name : W64) : List W64 :=
  t.args ++ [name, taskId t.gen k] ++ t.record.getD []

/-- A task goes to an instance (R275, R309); one that runs while its die's log has overflowed cannot be replayed (R404). -/
def dispatchTo (s : State) (die k : Nat) (net : Nat) (i : Inst) (tiles : List Nat) : State :=
  let t := s.taskAt die k
  let s := s.putFresh die k (t.writes.zip tiles)
  let n : Net := Tbl.get {} s.nets net
  let name := match taskFuture t with
    | some (kk, f) => futName kk f (s.futureAt kk f).gen
    | none => 0
  let s := match i.cells.head? with
    | none => s
    | some c => match (s.cellAt c).slotFor net with
      | none => s
      | some slot => s.modSlot c slot fun x => ((taskRegs k t name).zip (List.range 13)).foldl (fun (x : Ctx) (p : W64 × Nat) =>
          x.poke 0 (p.2 + 1) fun _ => p.1.setWidth 512) x
  let m := readImg n.image
  let s := i.cells.foldl (fun s c => s.injectCell m n.args net c t.sync) s
  let full := (s.dieAt die).alog.getLsbD 14
  let s := s.modTask die k fun t => { t with st := 2, inst := i.inst, net := net, ovf := t.ovf || full }
  let s := match taskFuture t with
    | some (kk, f) => s.setFuture kk f { s.futureAt kk f with st := 1 }
    | none => s
  s.modInst net (fun j => j.tmpl == i.tmpl && j.inst == i.inst) fun j => { j with idle := false, task := some k }

end State

/-- TASK_DISPATCH (R57, R275, R309): the ready task of its template that became ready first goes to the lowest idle
instance, once the pool holds its fresh tiles. -/
def execTaskDispatch (die task : Nat) (s : State) : Res :=
  let t := s.taskAt die task
  if !t.v || t.st ≠ 1 then .next s
  else if (s.dieAt die).tasks.any fun e => e.2.v && e.2.st == 1 && e.2.net == t.net && e.2.tmpl == t.tmpl
      && decide (e.2.ready.getD 0 < t.ready.getD 0) then .next s
  else match s.idleInst t.net t.tmpl, s.poolFree die t.writes.length with
    | some i, some tiles => .next (s.dispatchTo die task t.net i tiles)
    | _, _ => .next s

end Sys2Proof.Machine
end

