-- ==== Sys2Proof/Machine/Futures.lean ====
section
/-! DEFINITION. The future instructions (R266 to R270). -/
namespace Sys2Proof.Machine

/-- A stale name, a count at its limit, a capture (R268, R269): class 0x10 in the issuing firing. -/
def State.raise10 (s : State) : State := s.raiseFrom 3 { cls := 0x10 }

namespace State

/-- The entries of a sector's future table that are free. -/
def freeFutures (s : State) (k : Nat) : List Nat := (List.range 256).filter fun f => !(s.futureAt k f).v

/-- The task that the current firing belongs to, while it is live. -/
def myTask (s : State) : Option Nat :=
  (s.taskOf s.cell s.ctx.net).bind fun k => if (s.taskAt (cellDie s.cell) k).v then some k else none

/-- A new entry (R267, steps 2 and 3). -/
def newFuture (s : State) (k f : Nat) : State :=
  let x := s.futureAt k f
  s.setFuture k f { v := true, st := 0, ref := 1, gen := (x.gen + 1) % 4096, hasp := s.myTask.isSome, pheld := s.myTask.isSome
                    ptask := s.myTask.getD 0, task := 0, value := x.value }

end State

/-- What a waiting `fut.spawn` carries: its descriptor, and the entry that it has allocated with its generation. -/
def spawnArg (ws : List W64) (e : Option (Nat × Nat)) : Nat :=
  ofBytes (State.wordBytes ws) + 2 ^ 1536 * (match e with
    | some (f, g) => 1 + f % 2 ^ 8 + 2 ^ 8 * g
    | none => 0)
def spawnEntry (k : Nat) : Option (Nat × Nat) :=
  let x := k / 2 ^ 1536
  if x = 0 then none else some ((x - 1) % 2 ^ 8, (x - 1) / 2 ^ 8)

/-- The future's task is submitted, once the table and the wheel have room (R267, steps 4 and 5). -/
def spawnSubmit (d a : Rg) (off : W32) (ws : List W64) (at' f : Nat) (s : State) : Res :=
  let die := cellDie s.cell
  let k := s.sector
  let g := (s.futureAt k f).gen
  if s.submitWaits die (dcSubmit ws) then .next (s.waitIn (.futSpawn d a off) (some (spawnArg ws (some (f, g)))) at')
  else
    let (s, _) := s.submit s.ctx.net s.ctx.asid die (dcSubmit ws) (some (k, f)) (some (s.linkOf 3))
    .next ((s.writeG d (futName k f g)).advance 2)

/-- The descriptor is checked, and an entry allocated once one is free (R267, steps 1 to 3). -/
def spawnTake (d a : Rg) (off : W32) (ws : List W64) (at' : Nat) (s : State) : Res :=
  match s.submitHit s.ctx.net s.ctx.asid (cellDie s.cell) s.templs (some ws) (dcSubmit ws) at' with
  | (s, some h) => .next (s.raiseFrom 3 h)
  | (s, none) => match s.pickFree (s.freeFutures s.sector) with
    | none => .next (s.waitIn (.futSpawn d a off) (some (spawnArg ws none)) at')
    | some (f, s) => spawnSubmit d a off ws at' f (s.newFuture s.sector f)

/-- `fut.spawn` (R267): the descriptor is read once, at issue. -/
def futSpawnBody (d a : Rg) (off : W32) (s : State) : Res :=
  match s.me.arg with
  | none =>
    let e := s.ea a off % 2 ^ 16
    match State.taskDescHit e with
    | some h => .next (s.raise h)
    | none => spawnTake d a off (wordsAt (s.bankRead e 192) 24) (cellAddr s.cell + e) s
  | some k => match spawnEntry k with
    | some (f, g) =>
      if (s.futureAt s.sector f).v && (s.futureAt s.sector f).gen == g then spawnSubmit d a off (heldDesc k) s.me.addr f s
      else spawnTake d a off (heldDesc k) s.me.addr s
    | none => spawnTake d a off (heldDesc k) s.me.addr s

def execFutSpawn (d a : Rg) (off : W32) (s : State) : Res := futSpawnBody d a off s.commit

/-- `fut.ref` (R268). -/
def execFutRef (d a : Rg) (s : State) : Res :=
  let s := s.commit
  match s.futureOf s.ctx.net (s.readG a) with
  | none => .next s.raise10
  | some (k, f) =>
    let x := s.futureAt k f
    if x.ref = 0xFFFF || x.st = 3 then .next s.raise10
    else .next (((s.setFuture k f { x with ref := x.ref + 1 }).writeG d (nat64 (x.ref + 1))).advance 2)

/-- `fut.drop` (R268). -/
def execFutDrop (d a : Rg) (s : State) : Res :=
  let s := s.commit
  match s.futureOf s.ctx.net (s.readG a) with
  | none => .next s.raise10
  | some (k, f) =>
    let x := s.futureAt k f
    if x.ref = 0 then .next s.raise10
    else
      let mine := x.pheld && s.myTask == some x.ptask && cellDie s.cell == sectorDie k
      let s := s.setFuture k f { x with pheld := x.pheld && !mine }
      let s := s.dropRefs (s.dropFuel 1) [(k, f, 0)]
      .next (((s.settleTasks (sectorDie k)).writeG d (nat64 (x.ref - 1))).advance 2)

/-- A wait on a future (R269): `holds` is its condition, and `links` are those of the value or completion that it returns, beside
what its firing's tokens link (R290). While it waits, the accesses that its cell issues after it wait for it. -/
def futWait (i : Instr) (name : W64) (holds : Future → Bool) (links : Future → List Link) (f : State → W64 → State) (s : State) : Res :=
  match s.futureOf s.ctx.net name with
  | none => .next s.raise10
  | some (k, e) =>
    let x := s.futureAt k e
    if holds x then .next ((f (s.observe 3 (links x ++ s.me.sync)) x.value).advance 2)
    else if x.st = 3 then .next s.raise10
    else
      let at' := (s.me.arg.getD s.ctx.chain)
      .next ((s.waitIn i (some at') 0).modMe fun m => { m with link := at' })

def futWaitRegBody (d a : Rg) (c : Bool) (s : State) : Res :=
  futWait (.futWaitReg d a c) (s.readG a) (fun x => x.filled || x.nofill)
    (fun x => if x.filled then x.sync.take 1 else x.sync) (fun s v => (s.writeG d v).choose c (codeSigned v)) s
def futWaitBankBody (a b : Rg) (off : W32) (s : State) : Res :=
  let e := s.ea a off % 2 ^ 16
  match State.bankHit e 8 with
  | some h => .next (s.raise h)
  | none => futWait (.futWaitBank a b off) (s.readG b) (fun x => x.st == 2) (fun x => x.sync)
    (fun s v => s.vecStore e (toBytes 8 v.toNat)) s

def execFutWaitReg (d a : Rg) (c : Bool) (s : State) : Res := futWaitRegBody d a c s.commit
def execFutWaitBank (a b : Rg) (off : W32) (s : State) : Res := futWaitBankBody a b off s.commit

/-- `fut.fill` (R269). -/
def execFutFill (d a b : Rg) (s : State) : Res :=
  let s := s.commit
  match s.futureOf s.ctx.net (s.readG a) with
  | none => .next ((s.writeG d 0).advance 2)
  | some (k, f) =>
    let x := s.futureAt k f
    if x.filled || x.st = 3 then .next ((s.writeG d 0).advance 2)
    else
      let s := (s.setFuture k f { x with filled := true, value := s.readG b, sync := [s.linkOf 3] }).tally s.cell s.ctx.net
        fun t => { t with fills := t.fills + 1 }
      .next (((s.settleTasks (sectorDie k)).writeG d 1).advance 2)

/-- `fut.rcp` (R58, R269): a reclamation point. -/
def execFutRcp (s : State) : Res :=
  let s := s.commit
  if s.capturing then .next s.endFiring else .next (s.advance 2)

/-- `fut.stat` (R269): word 0 of the entry, as a signed result (R39). -/
def execFutStat (d a : Rg) (c : Bool) (s : State) : Res :=
  let s := s.commit
  let v := match s.futureOf s.ctx.net (s.readG a) with
    | none => 0
    | some (k, f) => (s.futureAt k f).word0
  signed d v c 2 s

end Sys2Proof.Machine
end

