-- ==== Sys2Proof/Machine/Power.lean ====
section
/-! DEFINITION. The module's power account (R24, R282, R283, R320 to R322). -/
namespace Sys2Proof.Machine

namespace State

/-- ALLOC, FREE and DEFICIT (R320): POOL is 10 bits. -/
def quantaAlloc (s : State) : Nat := (s.nets.map fun n => n.2.quanta).sum
def quantaFree (s : State) : Nat := s.pool - s.quantaAlloc
def quantaDeficit (s : State) : Nat := s.quantaAlloc - s.pool

/-- `cr.pwr` (R320). -/
def pwrWord (s : State) : W64 :=
  nat64 (s.pool % 1024 * 2 ^ 54 + s.quantaAlloc % 1024 * 2 ^ 44 + s.quantaFree % 1024 * 2 ^ 34 + s.quantaDeficit % 1024 * 2 ^ 24)

/-- POOL written (R322): every allocation stands. A value above 600 is no pool (R320) and is not taken. -/
def setPool (s : State) (n : Nat) : State := if n ≤ 600 then { s with pool := n } else s

end State

/-- The account has served a request (R321). -/
def State.serveAccount (s : State) : State := { s with account := s.clock + 1 }

/-- `pwr.acq` (R282). -/
def execPwrAcq (d a : Rg) (s : State) : Res :=
  let s := s.commit.serveAccount
  let n := (s.readG a).toNat
  if 600 < n then .next (s.raiseFrom 3 { cls := 9, aux := s.heavyNodes s.ctx.net % 2 ^ 10 * 2 ^ 54 + s.quantaOf s.ctx.net % 2 ^ 10 * 2 ^ 44 })
  else if s.quantaDeficit ≠ 0 || s.quantaFree < n || (Tbl.find s.nets s.ctx.net).isNone then .next ((s.writeG d 0).advance 1)
  else .next (((s.modNet s.ctx.net fun x => { x with quanta := x.quanta + n }).writeG d (nat64 n)).advance 1)

/-- `pwr.rel` (R282). -/
def execPwrRel (d a : Rg) (s : State) : Res :=
  let s := s.commit.serveAccount
  let r := min (s.readG a).toNat (s.quantaOf s.ctx.net)
  .next (((s.modNet s.ctx.net fun x => { x with quanta := x.quanta - r }).writeG d (nat64 r)).advance 1)

/-- POOL_WRITE (R322). -/
def execPoolWrite (pool : Nat) (s : State) : Res := .next (s.setPool pool)

end Sys2Proof.Machine
end

