-- ==== Sys2Proof/Machine/Launch.lean ====
section
/-! DEFINITION. From a doorbell to firing and back: host queues (R299 to R302, R311, R312), bundles (R303, R304), placement
(R305 to R308, R386), the partition controller (R314, R315), launch packets (R313, R387), completion (R56). -/
namespace Sys2Proof.Machine

namespace State

/-! ### Failures (R373, R386) -/

/-- The record of a launch that fails: SRC 6, TV 0, the queue and packet, the net record. -/
def launchRecord (s : State) (pq idx asid cls cause ioff rec : Nat) : State :=
  s.report { hit := { cls := cls, cause := cause, faddr := pq % 4096 * 2 ^ 52 + idx % 2 ^ 52, aux := rec * 2 ^ 52 }, src := 6
             iss := { asid := asid, ioff := ioff, net := 2 ^ 32 } }

/-- An access of the front end or the Orrery that meets a class: the record names it (log 21). -/
def launchFault (s : State) (asid : Nat) (h : Hit) : State :=
  s.report { hit := h, src := 6, iss := { asid := asid, net := 2 ^ 32 } }

/-- ADDEND is added to a signal, with a release at `.sys` (R205, R304); an address of 0 names no signal. -/
def addSignal (s : State) (asid : Nat) (sig addend : W64) : State :=
  if sig = 0 then s
  else match s.unitSignal (State.Issuer.plain asid) sig.toNat addend.toNat wideAgent (some 5) with
    | (s, .ok _) => s
    | (s, .error h) => s.launchFault asid h

/-! ### Doorbells (R300, R387) -/

def word32At (s : State) (dpa : Nat) : Nat := ofBytes (devLoad s.mem dpa 4)

/-- The stage-1 entry of a doorbell, by its DPA, and the stage-2 entry that a stage-1 entry names. -/
def bellFirst (s : State) (vm : Nat) (v : W32) : Option Nat :=
  let ng := fld v 21 16
  let w0 := Tbl.get 0 s.dbtab (2 * vm)
  let b1 := fld w0 56 16 * 2 ^ 16
  if fld v 31 22 ≠ 0 || fld v 15 12 ≠ 0 || b1 = 0 || fld (Tbl.get 0 s.dbtab (2 * vm + 1)) 56 16 = 0 || fld w0 6 0 ≤ ng then none
  else some (b1 + 4 * (ng * 4096 + fld v 11 0))
def bellSecond (s : State) (vm e1 : Nat) : Option Nat :=
  let w1 := Tbl.get 0 s.dbtab (2 * vm + 1)
  if e1 / 2 ^ 31 ≠ 1 || fld w1 12 0 ≤ e1 % 4096 then none else some (fld w1 56 16 * 2 ^ 16 + 4 * (e1 % 4096))

/-- The physical queue that a doorbell reaches, or none where it is discarded. -/
def doorbellQueue (s : State) (vm : Nat) (v : W32) : Option Nat :=
  (s.bellFirst vm v).bind fun a => (s.bellSecond vm (s.word32At a)).bind fun b =>
    let e2 := s.word32At b
    let q := s.queueAt (e2 % 4096)
    if e2 / 2 ^ 31 ≠ 1 || !q.v || q.vm ≠ vm then none else some (e2 % 4096)

/-- The table entry of a doorbell that lies in a poisoned frame (R397). -/
def bellPoison (s : State) (vm : Nat) (v : W32) : Option Nat :=
  (s.bellFirst vm v).bind fun a => if s.poisoned a then some a
    else (s.bellSecond vm (s.word32At a)).bind fun b => if s.poisoned b then some b else none

end State

/-- DOORBELL (R300): a doorbell rung at a die by a function. A refused doorbell writes a record and nothing else happens, and so does
one whose table entry is poisoned (R397). It reaches the device through the function's BAR2 (R323, R329), which the host has
programmed while the link is up (R420). -/
def execDoorbell (vm die : Nat) (value : W32) (s : State) : Res :=
  if !s.link || (Tbl.get {} s.pcie vm).bar2.isNone then .next s
  else if let some dpa := s.bellPoison vm value then .next (s.launchFault 0 (State.poisonHit dpa dpa))
  else match s.doorbellQueue vm value with
  | some pq => .next (s.modQueue pq fun q => { q with rung := true, bell := die % 4 })
  | none => .next (s.report { hit := { cls := 1, cause := 0xD, faddr := value.toNat, aux := vm }, src := 6
                              iss := { net := 2 ^ 32 } })

/-! ### Packets (R299, R302) -/

/-- The fields of a packet below SEQ. -/
def pkType (ws : List W64) : Nat := fld (wordOf ws 1) 63 56
def pkBar (ws : List W64) : Bool := (wordOf ws 1).getLsbD 55 || pkType ws == 3
def pkOk (ws : List W64) : Bool :=
  let w1 := wordOf ws 1
  let z (l : List Nat) : Bool := l.all fun k => wordOf ws k == 0
  match pkType ws with
  | 1 => fld w1 51 0 == 0 && z [5, 6, 7]
  | 2 => fld w1 54 51 == 0 && fld w1 50 48 ≤ 3 && fld w1 47 0 == 0 && z [4, 5, 6, 7]
  | 3 => fld w1 54 0 == 0 && z [4, 5, 6, 7]
  | _ => false

namespace State

/-- The packet at the head of a queue, where it has been written (R299): its index and words. -/
def headPacket (s : State) (q : PhysQ) : Except Hit (Option (Nat × List W64)) :=
  let iss := State.Issuer.plain q.asid
  match s.readVirt iss q.hdr.toNat 64 with
  | (_, .error h) => .error h
  | (s, .ok h) =>
    let ridx := (wordOf (wordsAt h 8) 1).toNat
    match s.readVirt iss (stepAddr q.arr.toNat 64 (ridx % 2 ^ q.log2n)) 64 with
    | (_, .error h) => .error h
    | (_, .ok bs) => let ws := wordsAt bs 8
                     .ok (if wordOf ws 0 = nat64 ridx then some (ridx, ws) else none)

/-- Does a die's front end read a queue (R300, R311)? -/
def reading (die : Nat) (q : PhysQ) : Bool := q.v && q.rung && q.bell == die && !q.parked

/-- The front end of a die ends its reading of the queues whose next slot holds no packet: SEQ ≠ RIDX (R300). So does an access
that meets a class (log 21); a queue in home 9 whose host link is down is no fault, and starts no packet (R419). -/
def endReadings (s : State) (die : Nat) : State :=
  s.queues.foldl (fun t e =>
    if reading die e.2 then match s.headPacket e.2 with
      | .ok (some _) => t
      | .ok none => t.modQueue e.1 fun q => { q with rung := false }
      | .error h =>
        if h.cls = 0x0C && h.cause = 4 then t
        else (t.modQueue e.1 fun q => { q with rung := false }).launchFault e.2.asid h
    else t) s

/-- A packet of a queue that its front end may start now (R302, R311). -/
def readyPacket (s : State) (die : Nat) (q : PhysQ) : Option (Nat × List W64) :=
  if !reading die q then none
  else match s.headPacket q with
    | .ok (some (i, ws)) =>
      if (pkBar ws && !q.live.isEmpty) || ((pkType ws == 2 || pkType ws == 3) && pkOk ws && q.wait.isSome) then none else some (i, ws)
    | _ => none

/-- The queue that the front end serves: the highest PRIO, and round robin within it. -/
def pickQueue (s : State) (die : Nat) : Option Nat :=
  let l := s.queues.filter fun e => (s.readyPacket die e.2).isSome
  let top := (l.map fun e => e.2.prio).foldl max 0
  let c := (l.filter fun e => e.2.prio == top).map (·.1)
  match c.find? fun k => decide (Tbl.get 0 (s.dieAt die).rr top < k) with
  | some k => some k
  | none => c.head?

end State

/-- PACKET_START (R300, R302): the front end of a die reads its queues and takes one packet, one in a clock. A held die does nothing
(R336). -/
def execPacketStart (die : Nat) (s : State) : Res :=
  if s.mgmt.held || (s.dieAt die).fed = s.clock + 1 then .next s else
  let s := s.endReadings die
  match s.pickQueue die with
  | none => .next s
  | some pq =>
    let q := s.queueAt pq
    match s.readyPacket die q with
    | none => .next s
    | some (i, ws) =>
      match s.writeVirt (State.Issuer.plain q.asid) (stepAddr q.hdr.toNat 8 1) (toBytes 8 (i + 1)) with
      | (s, .error h) => .next ((s.modQueue pq fun q => { q with rung := false }).launchFault q.asid h)
      | (s, .ok ()) =>
        let s := (s.modDie die fun d => { d with rr := Tbl.put d.rr q.prio pq, fed := s.clock + 1 }).modQueue pq fun q => { q with live := q.live ++ [i] }
        if !pkOk ws then
          let s := s.launchRecord pq i q.asid 1 0xC 0 0
          .next ((if pkType ws = 1 then s.addSignal q.asid (wordOf ws 3) (wordOf ws 4) else s).retirePacket pq i)
        else if pkType ws = 1 then
          let b : Bundle := { pq := pq, idx := i, die := die, asid := q.asid, body := wordOf ws 2
                              nsub := fld (wordOf ws 1) 54 52 + 1, sig := wordOf ws 3, addend := wordOf ws 4 }
          .next { s with bundles := Tbl.put s.bundles s.bundleN b, bundleN := s.bundleN + 1 }
        else
          .next (s.modQueue pq fun q =>
            { q with wait := some (i, pkType ws == 2, fld (wordOf ws 1) 50 48, wordOf ws 2, wordOf ws 3) })

/-- WAIT_PACKET (R311): the test, and parking where it fails. -/
def execWaitPacket (pq : Nat) (s : State) : Res :=
  let q := s.queueAt pq
  match q.wait with
  | some (i, true, cond, sig, v) =>
    if q.parked || s.mgmt.held then .next s
    else if sig.toNat % 8 ≠ 0 then
      .next (((s.launchFault q.asid { cls := 3, faddr := sig.toNat, aux := 8 * 2 ^ 32 }).modQueue pq
        fun q => { q with wait := none }).retirePacket pq i)
    else match s.signalHome (State.Issuer.plain q.asid) sig.toNat false with
      | (s, .error h) => .next (((s.launchFault q.asid h).modQueue pq fun q => { q with wait := none }).retirePacket pq i)
      | (s, .ok dpa) =>
        if condHolds cond (s.load64 dpa) v then .next ((s.modQueue pq fun q => { q with wait := none }).retirePacket pq i)
        else
          let l := Tbl.get [] s.parks dpa ++ [pq]
          .next (({ s with parks := Tbl.put s.parks dpa l }.modQueue pq fun q => { q with parked := true }).relink l)
  | _ => .next s

/-- SIGNAL_PACKET (R302, R312). -/
def execSignalPacket (pq : Nat) (s : State) : Res :=
  let q := s.queueAt pq
  match q.wait with
  | some (i, false, _, sig, v) =>
    if s.mgmt.held then .next s
    else .next (((s.modQueue pq fun q => { q with wait := none }).addSignal q.asid sig v).retirePacket pq i)
  | _ => .next s

/-! ### Bundles (R303, R304) -/

def blKind (r : List W64) : Nat := fld (wordOf r 0) 63 56
/-- A record keeps the table of R303. `rs` are the bundle's records. -/
def blOk (rs : List (List W64)) (r : List W64) : Bool :=
  let w (k : Nat) : W64 := wordOf r k
  let cfg : W32 := BitVec.ofNat 32 (fld (w 1) 63 32)
  let wave : W32 := packWave ⟨0, 0xFE, 0xFE, 0, false, false, 0⟩
  match blKind r with
  | 1 => fld (w 0) 52 0 == 0 && (fld (w 5) 63 59 == 0 || (decide (6 ≤ fld (w 5) 63 59) && decide (fld (w 5) 63 59 ≤ 20)))
      && fld (w 5) 58 0 == 0 && w 7 == 0
  | 2 => blKind (rs.getD (fld (w 0) 55 53) []) == 1 && fld (w 0) 40 0 == 0 && fld (w 1) 16 0 == 0 && decide (fld (w 1) 31 25 ≤ 95)
      && fld (w 3) 31 0 == 0 && w 5 == 0 && w 6 == 0 && w 7 == 0
      && (match decodeOpC0 ⟨3, 0xC0, 5, 0, 0, 0, false⟩ 0 wave cfg with
          | .ok _ => true
          | .error _ => false)
  | 3 => fld (w 0) 55 0 == 0 && w 3 == 0 && w 4 == 0 && w 5 == 0 && w 6 == 0 && w 7 == 0
  | _ => false

/-- The net instance that stands for a net record until it has its NETID. -/
def tempNet (k rec : Nat) : Nat := 2 ^ 34 + 8 * k + rec

namespace State

def bundleAt (s : State) (k : Nat) : Option Bundle := Tbl.find s.bundles k
def modBundle (s : State) (k : Nat) (f : Bundle → Bundle) : State :=
  match Tbl.find s.bundles k with
  | some b => { s with bundles := Tbl.put s.bundles k (f b) }
  | none => s
def setStage (s : State) (k rec : Nat) (x : Stage) : State := s.modBundle k fun b => { b with stages := b.stages.set rec x }

def usable (u : SectorUse) : Bool := match u with
  | .free => true
  | _ => false
def freeSectors (s : State) (die : Nat) : List Nat :=
  ((List.range 168).map fun i => die * 256 + i).filter fun k => usable (s.sectorAt k).use

/-- The bundle retires (R304, step 6). -/
def retireBundle (s : State) (k : Nat) : State :=
  match s.bundleAt k with
  | none => s
  | some b => ({ s with bundles := Tbl.del s.bundles k }.addSignal b.asid b.sig b.addend).retirePacket b.pq b.idx

/-- A sector after its scrub (R315): what it clears, and the futures' GEN that it keeps. -/
def scrubbed (k : Sector) (asid : Nat) : Sector :=
  { use := .free, lastAs := some asid
    futures := Tbl.mapV (fun _ f => { gen := f.gen }) k.futures }

/-- No sub-launch of the bundle starts (R386): its sectors return, cleared of what was loaded, and it retires at once. -/
def abandon (s : State) (k : Nat) : State :=
  let mine (u : SectorUse) : Bool := match u with
    | .granted b _ => b == k
    | _ => false
  let asid := ((s.bundleAt k).map fun b => b.asid).getD 0
  ({ s with
    sectors := Tbl.mapV (fun _ x => if mine x.use then scrubbed x asid else x) s.sectors
    cells := s.cells.filter fun c => !mine (s.sectorAt (cellSector c.1)).use
    nets := s.nets.filter fun n => decide (n.1 < 2 ^ 32) || n.1 / 8 ≠ tempNet k 0 / 8 }).retireBundle k

def failBundle (s : State) (k rec cls cause ioff : Nat) : State :=
  match s.bundleAt k with
  | none => s
  | some b => (s.launchRecord b.pq b.idx b.asid cls cause ioff rec).abandon k

/-- The records of a body. -/
def readRecords (s : State) (iss : Issuer) (body : Nat) : Nat → State × Except Hit (List (List W64))
  | 0 => (s, .ok [])
  | n + 1 => match s.readRecords iss body n with
    | (s, .error h) => (s, .error h)
    | (s, .ok l) => match s.readVirt iss (stepAddr body 64 n) 64 with
      | (s, .error h) => (s, .error h)
      | (s, .ok bs) => (s, .ok (l ++ [wordsAt bs 8]))

/-- The die of a bundle's nets: the DIE of its first net record without ANYDIE, else the die with the most free sectors,
else the die that took the packet. -/
def bundleDie (s : State) (b : Bundle) (rs : List (List W64)) : Nat :=
  let nets := rs.filter fun r => blKind r == 1
  match nets.find? fun r => !(wordOf r 0).getLsbD 53 with
  | some r => fld (wordOf r 0) 55 54
  | none =>
    if nets.isEmpty then b.die
    else
      let n (d : Nat) : Nat := (s.freeSectors d).length
      [1, 2, 3].foldl (fun m d => if n m < n d then d else m) 0

/-- The issuer of a preload or copy of a bundle: no firing, and the number of its record. -/
def bundleIss (b : Bundle) (k rec sector net : Nat) : Issuer := { cell := sector * 64, asid := b.asid, net := net, fid := 8 * k + rec }

/-- A preload goes to the ports of its node (R304, step 2): the `mx.cfg`, then the `mx.lds`. -/
def postPreload (s : State) (b : Bundle) (k rec : Nat) (r : List W64) : Option State :=
  let net := tempNet k (fld (wordOf r 0) 55 53)
  match (Tbl.find s.nets net).bind fun n => n.map[fld (wordOf r 0) 52 41]? with
  | none => none
  | some cell =>
    let k' := cellSector cell
    let iss := bundleIss b k rec k' net
    let w : Wave := ⟨0, 0xFE, 0xFE, 0, false, false, 0⟩
    let cfg : W32 := BitVec.ofNat 32 (fld (wordOf r 1) 63 32)
    let put (s : State) (i : Instr) (a c : W64) : State := s.modNode k' fun n =>
      { n with ports := n.ports ++ [{ instr := i, iss := iss, a := a, b := c, sent := s.clock, pre := some (wordOf r 4) }] }
    match decodeOpC0 ⟨3, 0xC0, 5, 0, 0, 0, false⟩ 0 (packWave w) cfg with
    | .error _ => none
    | .ok i =>
      let lds : Instr := .mxLds 0 0 0 (BitVec.ofNat 7 (fld (wordOf r 1) 31 25)) (BitVec.ofNat 7 (fld (wordOf r 1) 24 18))
        ((wordOf r 1).getLsbD 17) 0 { w with path := 1 }
      some (put (put s i 0 0) lds (wordOf r 2) (nat64 (fld (wordOf r 3) 63 32)))

/-- A copy claims its slot (R187, R304 step 3): the index. -/
def claimCopy (s : State) (b : Bundle) (k rec : Nat) (r : List W64) : State × Except Hit Nat :=
  let iss := bundleIss b k rec 0 (2 ^ 33)
  let q := (wordOf r 1).toNat
  match s.readVirt iss q 8 with
  | (s, .error h) => (s, .error h)
  | (s, .ok hb) =>
    let idx := ofBytes hb
    match s.writeVirt iss q (toBytes 8 (idx + 1)) with
    | (s, .error h) => (s, .error h)
    | (s, .ok ()) => (s, .ok idx)

/-- The packet of a claimed index is written, SEQ last, and its port notified (R187): false while the slot is not free. -/
def postCopy (s : State) (b : Bundle) (k rec : Nat) (r : List W64) (idx : Nat) : State × Except Hit Bool :=
  let iss := bundleIss b k rec 0 (2 ^ 33)
  let q := (wordOf r 1).toNat
  match s.readVirt iss q 64 with
  | (s, .error h) => (s, .error h)
  | (s, .ok hb) =>
    let h := wordsAt hb 8
    if 2 ^ qLog2n h ≤ (idx + 2 ^ 64 - qRidx h) % 2 ^ 64 then (s, .ok false)
    else match s.readVirt iss (wordOf r 2).toNat 64 with
      | (s, .error h) => (s, .error h)
      | (s, .ok pb) => match s.writeVirt iss (slotOff h idx) (toBytes 8 idx ++ pb.drop 8) with
        | (s, .error h) => (s, .error h)
        | (s, .ok ()) =>
          let p : Post := { hdr := nat64 q, path := 3, idx := idx, iss := iss, seq := s.postN }
          let s : State := { s with posts := s.posts ++ [p], postN := s.postN + 1 }
          (s.notifyPort (qPort h) { hdr := nat64 q, path := 3, iss := iss }, .ok true)

/-- Does a preload or copy still wait? -/
def stageWaits : Stage → Bool
  | .asked | .claimed _ => true
  | _ => false

/-- Every net of a bundle has been placed (R304, step 1). -/
def allPlaced (b : Bundle) : Bool := (b.recs.zip b.stages).all fun e => blKind e.1 ≠ 1 || (match e.2 with
  | .asked | .wanting _ | .granted _ => false
  | _ => true)

/-- The preloads and copies that wait are posted, one after another. -/
def postAll (s : State) (b : Bundle) (k : Nat) : List (Nat × List W64 × Stage) → State
  | [] => s
  | (i, r, x) :: rest =>
    if !stageWaits x then s.postAll b k rest
    else if blKind r = 2 then
      match s.postPreload b k i r with
      | some s => (s.setStage k i .posted).postAll b k rest
      | none => s.failBundle k i 1 0xC 0
    else if blKind r = 3 then
      let claim : State × Except Hit Nat := match x with
        | .claimed idx => (s, .ok idx)
        | _ => s.claimCopy b k i r
      match claim with
      | (s, .error h) => (s.launchFault b.asid h).abandon k
      | (s, .ok idx) => match s.postCopy b k i r idx with
        | (s, .ok true) => (s.setStage k i .posted).postAll b k rest
        | (s, .ok false) => s.setStage k i (.claimed idx)
        | (s, .error h) => (s.launchFault b.asid h).abandon k
    else s.postAll b k rest

end State

/-- BUNDLE_RUN (R304): the records are read and checked; once every net has been placed, the preloads and copies are
posted. -/
def execBundleRun (k : Nat) (s : State) : Res :=
  match s.bundleAt k with
  | none => .next s
  | some b =>
    if s.mgmt.held then .next s
    else if !b.read then
      match s.readRecords (State.Issuer.plain b.asid) b.body.toNat b.nsub with
      | (s, .error h) => .next ((s.launchFault b.asid h).abandon k)
      | (s, .ok rs) =>
        match rs.findIdx? fun r => !blOk rs r with
        | some i => .next (s.failBundle k (if blKind (rs.getD i []) = 1 then i else 0) 1 0xC 0)
        | none => .next (s.modBundle k fun b =>
            { b with read := true, recs := rs, stages := rs.map fun _ => .asked, die := s.bundleDie b rs })
    else if !State.allPlaced b then .next s
    else .next (s.postAll b k ((List.range b.recs.length).zip (b.recs.zip b.stages)))

/-! ### Placement (R305) -/

namespace State

/-- An image in memory: up to the end of the section that its directory gives as the signature block (R130, R131). -/
def readImage (s : State) (iss : Issuer) (va : Nat) : State × Except Hit (List Byte) :=
  match s.readVirt iss va 64 with
  | (s, .error h) => (s, .error h)
  | (s, .ok h) =>
    let n := fld (w64At h 8) 63 48
    let dir := fld (w64At h 8) 47 0
    if fld (w64At h 0) 63 32 ≠ 0x31465053 || n < 4 || 9 < n || dir % 8 ≠ 0 then (s, .ok h)
    else match s.readVirt iss (stepAddr va dir 1) (16 * n) with
      | (s, .error h) => (s, .error h)
      | (s, .ok db) =>
        let ends := (List.range n).map fun k => let e := w128At db (16 * k)
                                                if fld e 127 120 = 0xF then fld e 63 32 + fld e 31 0 else 0
        s.readVirt iss va (max 64 (max (dir + 16 * n) (ends.foldl max 0)))

/-- What the tenant's policy asks of a signature (R332). -/
def signPolicy (s : State) (asid : Nat) : Option (List Byte) :=
  let p := Tbl.get 0 s.mgmt.policy asid
  if p.getLsbD 63 then some (toBytes 64 (Tbl.get 0 s.mgmt.keys (fld p 55 48)).toNat) else none

/-- More than 48 transitions of one priority in one cell (R51). -/
def crowded (m : Img) : Bool := m.trans.any fun t =>
  decide (48 < (m.trans.filter fun u => u.cell == t.cell && recPrio u.record == recPrio t.record).length)

/-- A preload of the bundle names a cell that the net record's image does not have (R303). -/
def strayPreload (b : Bundle) (rec cells : Nat) : Bool :=
  b.recs.any fun r => blKind r == 2 && fld (wordOf r 0) 55 53 == rec && decide (cells ≤ fld (wordOf r 0) 52 41)

end State

/-- NET_PLACEMENT (R305, steps 1 and 2): the image, the template table and the argument block are read and checked, and
the sub-launch asks for its sectors. -/
def execNetPlacement (k rec : Nat) (s : State) : Res :=
  match s.bundleAt k with
  | none => .next s
  | some b =>
    let r := b.recs.getD rec []
    if s.mgmt.held || blKind r ≠ 1 || b.stages[rec]? ≠ some .asked then .next s
    else
      let iss := State.Issuer.plain b.asid
      let lost (s : State) (h : Hit) : Res := .next ((s.launchFault b.asid h).abandon k)
      match s.readImage iss (wordOf r 1).toNat with
      | (s, .error h) => lost s h
      | (s, .ok bytes) =>
        match Img.check bytes (s.signPolicy b.asid) with
        | some bad => .next (s.failBundle k rec 1 bad.2 bad.1)
        | none =>
          let m := readImg bytes
          if State.strayPreload b rec m.cells then .next (s.failBundle k 0 1 0xC 0)
          else match s.readVirt iss (wordOf r 3).toNat (8 * m.templates) with
          | (s, .error h) => lost s h
          | (s, .ok tb) =>
            let ttab := wordsAt tb m.templates
            if (m.templates = 0 && wordOf r 3 ≠ 0) || !tplOk m.cells ttab || m.argbytes % 16 ≠ 0 then .next (s.failBundle k rec 1 0xC 0)
            else match s.readVirt iss (wordOf r 2).toNat m.argbytes with
              | (s, .error h) => lost s h
              | (s, .ok ab) =>
                let args := readArgs ab
                if !m.argsOk [] args then .next (s.failBundle k rec 1 0xC 0)
                else if 8064 < cellsOf m.cells ttab then .next (s.failBundle k rec 0x15 1 0)
                else if s.pool < m.quanta then .next (s.failBundle k rec 0x15 2 0)
                else if State.crowded m then .next (s.failBundle k rec 0x15 3 0)
                else .next (s.setStage k rec (.wanting { image := bytes, args := args, ttab := ttab }))

/-! ### The partition controller (R314) -/

namespace State

def tenantAt (s : State) (die t : Nat) : Tenant := Tbl.get {} (s.dieAt die).tenants t

/-- The placements that wait for sectors on a die: bundle, record, tenant slot, what they carry. -/
def waitingNets (s : State) (die : Nat) : List (Nat × Nat × Nat × Launch) :=
  (s.bundles.filter fun e => e.2.die == die).flatMap fun e =>
    ((List.range e.2.stages.length).zip e.2.stages).filterMap fun x => match x.2 with
      | .wanting l => some (e.1, x.1, (s.queueAt e.2.pq).tslot, l)
      | _ => none

/-- TARGET × TOTAL / 256 − RECV, in 256ths of a sector-clock. -/
def deficit (s : State) (die t : Nat) : Int :=
  let x := s.tenantAt die t
  (x.target * (s.dieAt die).total : Nat) - (256 * x.recv : Nat)

/-- The tenant that the controller grants to: the one it holds sectors for, else the largest deficit. -/
def pickTenant (s : State) (die : Nat) : Option Nat :=
  let w := s.waitingNets die
  let c := (List.range 64).filter fun t => (s.tenantAt die t).v && w.any fun x => x.2.2.1 == t
  match (s.dieAt die).hold with
  | some t => if c.contains t then some t else c.foldl pick none
  | none => c.foldl pick none
where
  pick (m : Option Nat) (t : Nat) : Option Nat := match m with
    | none => some t
    | some u => if s.deficit die u < s.deficit die t then some t else some u

/-- `n` of some numbers, in an order that the spec leaves open (log 22). -/
def pickMany (s : State) : Nat → List Nat → State × List Nat
  | 0, _ => (s, [])
  | n + 1, l => match s.pickFree l with
    | none => (s, [])
    | some (x, s) => let (s, r) := s.pickMany n (l.erase x)
                     (s, x :: r)

def sortUp (l : List Nat) : List Nat := l.foldl (fun acc x => acc.takeWhile (· < x) ++ x :: acc.dropWhile (· < x)) []

/-- Pool tiles are zeroed. -/
def zeroTiles (s : State) (die : Nat) (ps : List Nat) : State :=
  { s with mem := ps.foldl (fun m p => devStore m (s.poolTile die p) (List.replicate 4096 0)) s.mem }

/-- The versions in a die's pool that only tasks of an address space's completed net instances hold. -/
def leftVersions (s : State) (die asid : Nat) : List Version :=
  (s.dieAt die).vers.filter fun v => v.asid == asid && (Tbl.find s.nets v.net).isNone && v.pool.isSome && !s.versionNeeded die v

/-- The rest of the scrub where a sector goes to another address space (R315): its banks are zeroed, and the tasks that
the old tenant left behind give up their tiles, their fresh ones and the versions kept for them, zeroed. -/
def changeTenant (s : State) (die sector asid : Nat) : State :=
  match (s.sectorAt sector).lastAs with
  | none => s
  | some old =>
    if old = asid then s
    else
      let lo := cellAddr (sector * 64)
      let s : State := { s with banks := s.banks.filter fun e => decide (e.1 < lo) || decide (lo + 48 * 2 ^ 32 ≤ e.1) }
      let dead := (s.dieAt die).tasks.filter fun e => e.2.v && e.2.asid == old && (Tbl.find s.nets e.2.net).isNone
      let s := dead.foldl (fun s e => (s.zeroTiles die (e.2.fresh.map (·.2))).leaveTable die e.1) s
      let left := s.leftVersions die old
      (s.zeroTiles die (left.filterMap (·.pool))).modDie die fun d => { d with vers := d.vers.filter fun v => !left.contains v }

/-- A grant (R305, step 2, R314): the sectors, which the controller chooses. -/
def grantNet (s : State) (die k rec : Nat) (b : Bundle) (l : Launch) (n : Nat) : State :=
  let m := readImg l.image
  let (s, picked) := s.pickMany n (s.freeSectors die)
  let sectors := sortUp picked
  let s := sectors.foldl (fun s x => (s.changeTenant die x b.asid).modSector x fun y => { y with use := .granted k rec }) s
  let x : Net := { asid := b.asid, vm := (s.queueAt b.pq).vm, die := die, sectors := sectors, image := l.image, args := l.args
                   fplace := if m.fcell = 0xFFF then none else some (m.fcell, m.fplace), templs := m.templates, bundle := k, tslot := (s.queueAt b.pq).tslot }
  (s.setNet (tempNet k rec) x).setStage k rec (.granted l)

end State

/-- SECTOR_GRANT (R314): the controller of a die serves the waiting tenant with the largest deficit, and holds free sectors
for it while its request does not fit. -/
def execSectorGrant (die : Nat) (s : State) : Res :=
  match if s.mgmt.held then none else s.pickTenant die with
  | none => .next s
  | some t =>
    match (s.waitingNets die).find? fun x => x.2.2.1 == t with
    | none => .next s
    | some (k, rec, _, l) =>
      let n := (cellsOf (readImg l.image).cells l.ttab + 47) / 48
      match s.bundleAt k with
      | none => .next s
      | some b =>
        if (s.freeSectors die).length < n then .next (s.modDie die fun d => { d with hold := some t })
        else
          .next ((s.modDie die fun d => { d with hold := none }).grantNet die k rec b l n)

/-! ### Injection (R304 to R308) -/

namespace State

/-- Have the preloads of a bundle been accepted, and its copies posted (R304, step 4)? -/
def bundleAccepted (s : State) (b : Bundle) (k : Nat) : Bool :=
  State.allPlaced b && ((b.recs.zip b.stages).all fun e => blKind e.1 == 1 || !stageWaits e.2)
  && !(s.sectors.any fun e => e.2.node.ports.any fun x => x.pre.isSome && x.iss.fid / 8 == k)

/-- The lowest NETID that no instance holds (R306). -/
def freeNetid (s : State) : Option Nat := (List.range 4096).find? fun n => (Tbl.find s.nets n).isNone

/-- The sector queues' spill rings (R305, step 5). -/
def setSpill (s : State) (sectors : List Nat) (r : List W64) : State :=
  let slog := fld (wordOf r 5) 63 59
  ((List.range sectors.length).zip sectors).foldl (fun s e =>
    s.modSqueue e.2 fun q => { q with sbase := stepAddr (wordOf r 4).toNat (nat64 (64 * 2 ^ slog)) e.1 / 64 * 64, slog := slog }) s

/-- A net's cells, each with its abstract cell: the abstract cells, and the copies of the templates. -/
def netCells (x : Net) : List (Nat × Nat) :=
  (List.range x.map.length).zip x.map
  ++ (x.insts.filter fun i => i.inst ≠ 0).flatMap fun i =>
    let first := ((x.insts.find? fun j => j.tmpl == i.tmpl && j.inst == 0).bind fun j => j.cells.head?).getD 0
    let a := (x.map.findIdx? (· == first)).getD 0
    ((List.range i.cells.length).zip i.cells).map fun e => (a + e.1, e.2)

/-- The net's cells loaded (R305, step 5). -/
def loadNet (s : State) (x : Net) (m : Img) : State :=
  (netCells x).foldl (fun s e => s.loadCell m x.args x.asid e.1 e.2) s

/-- Every cell and template copy of a net mapped onto a cell of its sectors, which the Orrery chooses, and loaded (R305, steps 4
and 5). -/
def placeNet (s : State) (k rec : Nat) (b : Bundle) (l : Launch) (x : Net) (m : Img) : State :=
  let (s, cells) := s.pickMany (cellsOf m.cells l.ttab) (x.sectors.flatMap fun y => (List.range 48).map fun c => y * 64 + c)
  let x := { x with map := cells.take m.cells, insts := instsOf cells m.cells 0 l.ttab }
  (((s.setNet (tempNet k rec) x).setSpill x.sectors (b.recs.getD rec [])).loadNet x m).setStage k rec .placed

/-- Do the free quanta cover a placement's (R305, step 3, R322)? -/
def quantaCover (s : State) (n : Nat) : Bool := decide (n ≤ s.quantaFree) && (n = 0 || s.quantaDeficit = 0)

/-- The preload tokens still at their nodes belong to the instance under its number. -/
def renameTokens (s : State) (old net : Nat) : State :=
  let f (x : MxToken) : MxToken := if x.iss.net = old then { x with iss := { x.iss with net := net } } else x
  { s with sectors := Tbl.mapV (fun _ k =>
      { k with node := { k.node with ports := k.node.ports.map f, queue := k.node.queue.map f } }) s.sectors }

/-- A placement that asks the power account for its quanta (R305 step 6, R321): its die, its place in the order of bundles, and its
net. -/
def placementAsks (s : State) : List (Nat × Nat × Net) :=
  if s.mgmt.held then []
  else s.bundles.flatMap fun e => (e.2.stages.zipIdx).filterMap fun x =>
    match x.1, Tbl.find s.nets (tempNet e.1 x.2) with
    | .placed, some n =>
      let q := (readImg n.image).quanta
      if q ≠ 0 && s.quantaCover q && s.bundleAccepted e.2 e.1 && s.freeNetid.isSome then some (n.die, 8 * e.1 + x.2, n) else none
    | _, _ => none

end State

/-- BUNDLE_RETIRE (R304, steps 5 and 6): every net has completed, every preload too, every copy has performed its REL. -/
def execBundleRetire (k : Nat) (s : State) : Res :=
  match s.bundleAt k with
  | none => .next s
  | some b =>
    let nets := (b.recs.zip b.stages).all fun e => if blKind e.1 = 1 then e.2 == .complete else e.2 == .posted
    let tokens := s.sectors.any fun e => (e.2.node.ports ++ e.2.node.queue).any fun x => x.pre.isSome && x.iss.fid / 8 == k
    let copies := s.posts.any fun p => p.iss.net == 2 ^ 33 && p.iss.fid / 8 == k
    if s.mgmt.held || !b.read || !nets || tokens || copies then .next s else .next (s.retireBundle k)

/-! ### Launch packets (R313, R387) -/

namespace State

/-- A tenant's entry of the launch table; a base of 0 names no table. -/
def launchEntry (s : State) (tenant : Nat) : W64 :=
  let base := fld s.ltab 56 15 * 2 ^ 15
  if base = 0 then 0 else s.load64 (base + 8 * tenant)

/-- The DPA of a tenant's entry, where its frame is poisoned (R397). -/
def launchPoison (s : State) (tenant : Nat) : Option Nat :=
  let dpa := fld s.ltab 56 15 * 2 ^ 15 + 8 * tenant
  if fld s.ltab 56 15 ≠ 0 && s.poisoned dpa then some dpa else none

/-- The network interface claims a slot of a queue (R299): its index. -/
def claimSlot (s : State) (pq : Nat) : State × Except Hit Nat :=
  let q := s.queueAt pq
  let iss := State.Issuer.plain q.asid
  match s.readVirt iss q.hdr.toNat 8 with
  | (s, .error h) => (s, .error h)
  | (s, .ok hb) =>
    let widx := (wordOf (wordsAt hb 1) 0).toNat
    match s.writeVirt iss q.hdr.toNat (toBytes 8 (widx + 1)) with
    | (s, .error h) => (s, .error h)
    | (s, .ok ()) => (s, .ok widx)

/-- A claimed packet is written, SEQ last, and the queue rung, once `i` − RIDX is below the queue's size (R299): false while it is
not. -/
def writeClaimed (s : State) (pq i : Nat) (ws : List W64) : State × Except Hit Bool :=
  let q := s.queueAt pq
  let iss := State.Issuer.plain q.asid
  match s.readVirt iss (stepAddr q.hdr.toNat 8 1) 8 with
  | (s, .error h) => (s, .error h)
  | (s, .ok hb) =>
    if 2 ^ q.log2n ≤ (i + 2 ^ 64 - (wordOf (wordsAt hb 1) 0).toNat) % 2 ^ 64 then (s, .ok false)
    else match s.writeVirt iss (stepAddr q.arr.toNat 64 (i % 2 ^ q.log2n)) (toBytes 8 i ++ wordBytes (ws.drop 1)) with
      | (s, .error h) => (s, .error h)
      | (s, .ok ()) => (s.modQueue pq fun q => { q with rung := true }, .ok true)

/-- A launch packet that R313 discards (R387). -/
def refusePacket (s : State) (ws : List W64) : State :=
  s.report { hit := { cls := 1, cause := 0xE, faddr := (wordOf ws 0).toNat }, src := 6, iss := { net := 2 ^ 32 } }

/-- A launch packet's task (R313): submitted to its net instance as an inline `tsk.sub`; false while it waits. -/
def takeTask (s : State) (net : Nat) (ws : List W64) : State × Bool :=
  match Tbl.find s.nets net with
  | none => (s.refusePacket ws, true)
  | some n =>
    if n.done || n.halted.isSome then (s.refusePacket ws, true)
    else
      let x : Submit := { tmpl := fld (wordOf ws 1) 15 0, args := [wordOf ws 2, wordOf ws 3, wordOf ws 4] }
      match s.submitHit net n.asid n.die n.templs none x 0 with
      | (s, some h) => (s.report { hit := h, src := 3, iss := { net := net, asid := n.asid }, loc := tableUnit n.die }, true)
      | (s, none) => if s.submitWaits n.die x then (s, false) else ((s.submit net n.asid n.die x none).1, true)

/-- What the network interface owes is done, as far as it can be now. -/
def takeIncoming (s : State) (x : Incoming) : State × Bool :=
  match x with
  | .packet pq i ws => match s.writeClaimed pq i ws with
    | (s, .ok done) => (s, done)
    | (s, .error h) => (s.launchFault (s.queueAt pq).asid h, true)
  | .task net ws => s.takeTask net ws

/-- The waiting claims and submissions are tried, in their order. -/
def serveIncoming (s : State) : State :=
  s.incoming.foldl (fun s x =>
    let (s, done) := s.takeIncoming x
    if done then s else { s with incoming := s.incoming ++ [x] }) { s with incoming := [] }

end State

/-- A launch packet that the module has accepted: its slot is claimed at once, and it is written when the queue has room; its task
waits while `tsk.sub` would. -/
def takeLaunch (words : List W64) (s : State) : Res :=
  let ws := (List.range 8).map (wordOf words)
  let e := s.launchEntry (fld (wordOf ws 0) 63 52)
  let kind := fld (wordOf ws 0) 51 48
  let owe (s : State) (x : Incoming) : State := { s with incoming := s.incoming ++ [x] }.serveIncoming
  if let some dpa := s.launchPoison (fld (wordOf ws 0) 63 52) then .next (s.launchFault 0 (State.poisonHit dpa dpa))
  else if !e.getLsbD 63 then .next (s.refusePacket ws)
  else if kind = 1 then
    if !(s.queueAt (fld e 61 50)).v then .next (s.refusePacket ws)
    else match s.claimSlot (fld e 61 50) with
      | (s, .ok i) => .next (owe s (.packet (fld e 61 50) i ws))
      | (s, .error h) => .next (s.launchFault (s.queueAt (fld e 61 50)).asid h)
  else if kind = 2 && e.getLsbD 62 then .next (owe s (.task (fld e 49 38) ws))
  else .next (s.refusePacket ws)

/-- LAUNCH_PACKET (R313, R424): a 64-byte packet from the reliable transport; a duplicate is dropped. -/
def execLaunchPacket (words : LaunchBody) (s : State) : Res :=
  s.receive words.pkt fun t => some (takeLaunch words.words t)

/-! ### Completion and scrub (R56, R315) -/

namespace State

/-- The firings of a net instance's contexts, in any slot or save area. -/
def netBusy (s : State) (net : Nat) : Bool := s.anyFiring net (fun _ => true) fun _ => true

/-- A block that a sector's cache gives back waits until its pages leave quarantine (R115, R333). -/
def freeBlocks (s : State) (asid : Nat) (bs : List (BitVec 28)) : State :=
  bs.foldl (fun s b => { s with mgmt := { s.mgmt with limbo := s.mgmt.limbo ++ [(asid, b, s.qcur)] }, qcur := s.qcur + 1 }) s

end State

/-- NET_INSTANCE_COMPLETE (R56): `halt` has deposited, no firing is in progress, and every engine command has reached its
release. The scrub begins, the quanta return, and the timer entries of the instance leave the wheel (R344). -/
def execNetInstanceComplete (net : Nat) (s : State) : Res :=
  match Tbl.find s.nets net with
  | none => .next s
  | some n =>
    if notPast s.clock n.halted || n.done || 4096 ≤ net || s.netBusy net || s.commandsOpen (fun i => i.net == net) then .next s
    else
      let done (b : Bundle) : Bundle := { b with stages := b.stages.map fun x => if x = .injected net then .complete else x }
      let orphan (t : Task) : Task := if t.net = net then { t with net := 2 ^ 32 } else t
      let s : State := { s with
        nets := Tbl.put s.nets net { n with done := true, quanta := 0 }
        bundles := Tbl.mapV (fun k b => if k = n.bundle then done b else b) s.bundles
        wheel := s.wheel.filter fun t => t.word.getLsbD 48 || t.net ≠ net
        flights := s.flights.filter fun f => f.net ≠ net }
      let s := s.modDie n.die fun d => { d with
        tasks := Tbl.mapV (fun _ t => orphan t) d.tasks, vers := d.vers.filter fun v => v.net ≠ net || !v.keep }
      .next (n.sectors.foldl (fun s k => s.modSector k fun x => { x with use := .scrubbing net }) s)

/-- SCRUB_COMPLETE (R306, R315): the sectors are cleared and return to the controller, and the number is free. -/
def execScrubComplete (net : Nat) (s : State) : Res :=
  match Tbl.find s.nets net with
  | none => .next s
  | some n =>
    if !n.done then .next s
    else
      let s := n.sectors.foldl (fun s k =>
        let s := s.freeBlocks n.asid (s.sectorAt k).blocks
        s.modSector k fun x => State.scrubbed x n.asid) s
      .next { s with
        cells := s.cells.filter fun c => !n.sectors.contains (cellSector c.1)
        bars := s.bars.filter fun b => b.1 / (4 * 65536 * 16) ≠ net
        saves := s.saves.filter fun c => c.2.net ≠ net
        nets := Tbl.del s.nets net }

end Sys2Proof.Machine
end

