-- ==== Sys2Proof/Machine/Issue.lean ====
section
/-! DEFINITION. How a firing issues its next instruction: the words at its place in the loaded record (R41, R127),
the waits of R45, R47 and R169, and the registers that a vector instruction reads (R213). -/
namespace Sys2Proof.Machine

namespace State

/-- Is the instruction one that R123 does not perform: it issues now, and its wave word is inconsistent? -/
def offChain (s : State) (i : Instr) : Bool :=
  s.me.wait.isNone && (i.wave.any fun x => !waveOk s.ctx.wave x)

/-- What R172 and R287 to R291 ask before an instruction takes effect: an access has its cell's accesses before it performed at
`.cell`; a release has them performed; an acquire observes what its firing's tokens link, and at its scope what R294 gives. -/
def order (s : State) (i : Instr) : State :=
  if s.offChain i then s
  else
    let s := if i.wave.isSome && i.accesses then s.atCell else s
    let s := if i.releases || (s.relScopeOf i).isSome then s.flush else s
    match i.acqScope with
    | some k => (s.observe k s.me.sync).meetShown k
    | none => s

/-- The bytes of the current firing's body from its next instruction on. -/
def bodyBytes (s : State) : List Byte := recBody s.myTrans.record s.me.woff

/-- Has the current firing an instruction to issue: it is in progress, waits in none, and its body is not complete? -/
def unissued (s : State) : Bool :=
  !s.mgmt.held && s.live && s.me.wait.isNone && decide (s.me.woff < recBlen s.myTrans.record)

/-- May the current firing issue in this clock (R41)? A window write to a register takes effect at the end of its clock
(R95): the cell issues nothing after it. -/
def mayIssue (s : State) : Bool := s.unissued && s.clockDone && s.ctx.poked ≠ s.clock + 1

/-- The firings of the cell that were selected earlier than the current one and are in progress. -/
def earlier (s : State) : List Firing := (s.ctx.firings.takeWhile fun f => f.id ≠ s.fid).filter fun f => !f.ended

/-- The instructions that a firing has not completed. -/
def remaining (s : State) (f : Firing) : List Instr :=
  ((recInstrs (s.ctx.tr f.trans).record).filter fun e => decide (f.woff ≤ e.1)).map (·.2)

end State

/-- A vector instruction as its checks see it: the selectors it names, the destination first, its entry's conditions and its
work (R211, R214). -/
structure VecForm where
  v     : VOp
  sels  : List Nat
  entry : List Shape → Bool
  work  : List Shape → Nat

/-- The form of each vector instruction (R218 to R232). -/
def vecForm (i : Instr) : Option VecForm :=
  match i with
  | .vadd v _ | .vsub v _ | .vmul v _ | .vfma v _ | .vfms v _ | .vnfma v _ | .vmax v _ | .vmin v _ | .vand v _ | .vor v _
  | .vxor v _ | .vshl v _ | .vshr v _ | .vsra v _ => some ⟨v, selsDAB v, plainEntry v, workD⟩
  | .vabs v _ | .vneg v _ | .vcpy v _ | .vscale _ v _ | .vexp2 v _ | .vlog2 v _ | .vrcp v _ | .vrsqrt v _ | .vsqrt v _
  | .vtanh v _ | .vsig v _ | .vsilu v _ | .vgelu v _ => some ⟨v, selsDA v, plainEntry v, workD⟩
  | .vsel v _ => some ⟨v, selsDAB v ++ [v.imm.toNat % 16], selEntry v, workD⟩
  | .vcmpEq v _ | .vcmpNe v _ | .vcmpLt v _ | .vcmpLe v _ | .vcmpGt v _ | .vcmpGe v _ => some ⟨v, selsDAB v, cmpEntry v, workD⟩
  | .vredSum v _ | .vredMax v _ | .vredMin v _ => some ⟨v, selsDA v, reduceEntry false v, workA⟩
  | .vscanSum v _ | .vscanMax v _ => some ⟨v, selsDA v, reduceEntry true v, workA⟩
  | .vperm v => some ⟨v, selsDAB v, permEntry v, fun hs => (shD hs).n⟩
  | .vshuf v => some ⟨v, if v.imm = 0 then selsDAB v else selsDA v, shufEntry v, workD⟩
  | .vbcast _ v => some ⟨v, [v.shD.toNat], plainEntry v, workD⟩
  | .vaddc _ v _ | .vsubc _ v _ => some ⟨v, selsDAB v, chainEntry v, workA⟩
  | .vmulc v _ => some ⟨v, selsDAB v, mulcEntry v, fun hs => 2 * (shA hs).n⟩
  | .vdot v _ => some ⟨v, selsDAB v, dotEntry v, workA⟩
  | .vcvt v _ => some ⟨v, selsDA v, cvtEntry v, workD⟩
  | .vpack v => some ⟨v, selsDA v, packEntry v, workD⟩
  | .vunpack v => some ⟨v, selsDA v, unpackEntry v, workD⟩
  | .vqnt v => some ⟨v, selsDA v, quantEntry v, workA⟩
  | .vdq v => some ⟨v, selsDA v, dequantEntry v, workA⟩
  | _ => none

/-- The half bytes of the lane file at which an element slot stands. -/
def Shape.halves (h : Shape) (i : Nat) : Nat × Nat :=
  if h.slotW < 8 then ((2 * (h.base : Int) + h.slot i).toNat, 1) else (2 * (h.byteAt (h.slot i)).toNat, h.slotW / 4)

/-- The lane registers that hold an element slot of a record (R213). -/
def Shape.lanes (h : Shape) : List Nat :=
  if h.lane then
    (List.range 8).filter fun r => (List.range h.n).any fun i =>
      let x := h.halves i
      decide (x.1 / 128 ≤ r) && decide (r ≤ (x.1 + x.2 - 1) / 128)
  else []

/-- Of those, the ones that hold bits of no slot: where such a record is the destination, they keep them. -/
def Shape.partLanes (h : Shape) : List Nat :=
  let hs := (List.range h.n).map h.halves
  h.lanes.filter fun r => (List.range 128).any fun k => !(hs.any fun x => decide (x.1 ≤ 128 * r + k) && decide (128 * r + k < x.1 + x.2))

/-- Does the instruction read its destination's elements (R218)? -/
def readsDest : Instr → Bool
  | .vfma _ _ | .vfms _ _ | .vnfma _ _ => true
  | _ => false

/-- A lane register that an instruction may write; which ones a vector instruction writes stands in records that
are read only when it issues (log 7). -/
def mayWriteLane (i : Instr) (r : Nat) : Bool :=
  match i with
  | .vld v _ _ _ => v.toNat == r
  | i => i.vector.isSome

/-- The control register of a control-register instruction, where it is one that R169 orders. -/
def orderedCsr (i : Instr) : Option Nat :=
  let k := match i with
    | .csrr _ r _ | .csrw _ _ r | .csrs _ _ r | .csrc _ _ r => r.toNat
    | _ => 2
  if k ≤ 1 then some k else none

/-- A request to the power account (R321). -/
def asksPower : Instr → Bool
  | .pwrAcq _ _ | .pwrRel _ _ => true
  | _ => false

namespace State

/-- The lane registers whose values a vector instruction needs: those of its sources (R213), and those of which its
destination keeps a part. -/
def lanesRead (i : Instr) (hs : List Shape) : List Nat :=
  (hs.drop 1).flatMap Shape.lanes ++ (if readsDest i then (shD hs).lanes else (shD hs).partLanes)

/-- May an earlier firing still write one of some lane registers (R45)? -/
def lanesAwaited (s : State) (rs : List Nat) : Bool :=
  let rest := s.earlier.flatMap s.remaining
  !rest.isEmpty && rs.any fun r => (Tbl.find s.me.regs.v r).isNone && rest.any fun j => mayWriteLane j r

/-- The records of a vector instruction that passes its checks (R211). -/
def vecShapes (s : State) (i : Instr) : Option (List Shape) :=
  match vecForm i with
  | none => none
  | some p => match s.vecCheck p.v p.sels p.entry p.work with
    | .ok (hs, _) => some hs
    | .error _ => none

/-- Must a vector instruction whose records are read and checked wait before it executes: for a lane register (R45, R213),
where it stores to the bank, for earlier firings to pass their commit points (R47), or for a vector instruction of an
earlier firing that waits so itself (R213; log 7)? -/
def vecWaits (s : State) (i : Instr) : Bool :=
  s.earlier ≠ [] && (match s.vecShapes i with
    | none => false
    | some hs => (s.earlier.any fun f => f.recs.isSome && (s.me.recs.isNone || decide (f.vecNo < s.me.vecNo))) || s.lanesAwaited (lanesRead i hs)
        || (!s.me.commit && (s.earlier.any fun f => !f.commit) && (!(shD hs).lane || (match i with
            | .vqnt _ => true
            | _ => false))))

/-- A vector instruction issues, and is to wait before it executes (R213). -/
def mustHold (s : State) (i : Instr) : Bool := s.me.recs.isNone && s.vecWaits i

/-- It has read its records: a change to their bytes no longer reaches it (R207). -/
def holdVec (s : State) (i : Instr) : State :=
  match vecForm i with
  | none => s
  | some p => match s.recordsAt p.sels with
    | .ok bs => ((s.sawRecords p.sels).modMe fun f => { f with recs := some bs, vecNo := s.ctx.vecs, genEp := some s.ctx.genEp }).modCtx
      fun c => { c with vecs := c.vecs + 1 }
    | .error _ => s

/-- Would the instruction pass the firing's commit point (R46, R112, R146)? A vector instruction's records say so (R213):
`vecWaits`. -/
def passes (s : State) (i : Instr) : Bool :=
  match i with
  | .ld tc _ a _ off w => s.isTake w.path.toNat (s.ea a off) (tcBytes tc)
  | .ldx tc _ a b _ off w => s.isTake w.path.toNat (s.eax tc a b off) (tcBytes tc)
  | i => match i.cellRef with
    | some c => match s.resolve s.cell s.ctx.net c.toNat with
      | some d => d ≠ s.cell
      | none => false
    | none => i.vector.isNone && i.canPass

/-! ### The wave chain (R172, R181, R287) and releases -/

/-- The instructions that other firings of the cell have issued and in which they wait. -/
def waiting (s : State) (p : Firing → Bool) : List Instr :=
  (s.ctx.busy.filter fun f => f.id ≠ s.fid && p f).filterMap fun f => f.wait

/-- Must the instruction, at a place on the chain, wait for those before it, a `fut.wait` among them (R269)? One that a completed
`fence.rel` makes count as REL waits as a release (R181). -/
def chained (s : State) (i : Instr) (link : Nat) : Bool :=
  i.wave.isSome && (s.waiting fun f => decide (f.link < link)).any fun j =>
    (j.wave.isSome || j.waitsFuture) && (i.awaits j || (s.relScopeOf i).isSome)

/-- Must a release that is not on the chain wait for the cell's own accesses (R147, R267, R269)? -/
def releaseWaits (s : State) (i : Instr) : Bool :=
  i.wave.isNone && i.releases && (s.waiting fun _ => true).any fun j => match i with
    | .emit _ _ _ _ _ _ | .emitW _ _ _ _ _ => j.stores
    | _ => j.onChain

/-- Does the fabric hold a word of this cell for the cell that an emission goes to (R35)? -/
def emitWaits (s : State) (i : Instr) : Bool :=
  let dst := match i with
    | .emit _ _ _ _ _ c | .emitW _ _ _ _ c => s.resolve s.cell s.ctx.net c.toNat
    | _ => none
  match dst with
  | some d => d ≠ s.cell && s.flights.any fun f => f.held && f.src == cellAddr s.cell && f.dst == d
  | none => false

/-- An access or fence that must wait for others on the chain issues, and then waits (R123, R287). -/
def mustQueue (s : State) (i : Instr) : Bool := (i.accesses || i.isFence) && !s.offChain i && s.chained i (s.ctx.chain + 1)

/-- Must `mcount` wait: the marking has changed in this clock, and it reads COUNT as it stood at the clock's start (R149)? -/
def markingMoved (s : State) (i : Instr) : Bool :=
  match i with
  | .mcount _ _ _ => s.ctx.touched == s.clock + 1 || s.ctx.picked == s.clock + 1
  | _ => false

/-- It takes its place on the chain, and an atomic its number among the logged operations (R404). -/
def joinChain (s : State) (i : Instr) : State :=
  match i.wave with
  | none => s
  | some x => match s.takeWave x with
    | none => s.raise { cls := 0x0A }
    | some s =>
      let s := if s.passes i then s.commit else s
      let (s, ord) := if i.loads && i.stores then s.logOrd s.issuer else (s, none)
      (s.waitIn i ord 0).modMe fun f => { f with queued := true }

/-- Does something before it hold the instruction back: an earlier firing may still write a register that it reads (R45), would
pass its commit point while an earlier firing is refundable (R47), an earlier firing still holds an access to the same
ordered control register (R169); an emission to a cell for which the fabric holds one (R35), a release or a command on the
chain that is to follow what has not been performed, a vector instruction that has read its records, or one behind a `fut.wait`
(R269)? -/
def heldUp (s : State) (i : Instr) : Bool :=
  let es := s.earlier
  let rest := es.flatMap s.remaining
  (i.reads.any fun r => r ≠ 0 && (Tbl.find s.me.regs.g r.toNat).isNone && rest.any fun j => j.writes.contains r)
  || (match i with
      | .vst v _ _ _ => s.lanesAwaited [v.toNat]
      | _ => false)
  || (match orderedCsr i with
      | some k => rest.any fun j => orderedCsr j == some k
      | none => false)
  || (!s.me.commit && (es.any fun f => !f.commit) && s.passes i)
  || s.emitWaits i || s.releaseWaits i || s.markingMoved i || (s.me.recs.isSome && s.vecWaits i)
  || (!(i.accesses || i.isFence) && s.chained i (s.ctx.chain + 1))
  || (i.vector.isSome && s.me.recs.isNone && (s.waiting fun _ => true).any Instr.waitsFuture)

/-- Has a firing of a cell a request to the power account that nothing holds back? -/
def asksAccount (s : State) (cell : Nat) : Bool :=
  (s.cellAt cell).run.busy.any fun f =>
    let t := s.focus cell f.id
    t.mayIssue && (match decodeBytes t.bodyBytes with
      | .ok (i, _) => asksPower i && !t.heldUp i
      | .error _ => false)

/-- Must a request to the power account wait: the account has served one in this clock, or a cell of lower die and address, or a
placement on a lower die, has a request now (R321)? -/
def accountWaits (s : State) (i : Instr) : Bool :=
  asksPower i && (s.account == s.clock + 1 || (s.cells.any fun e => decide (cellAddr e.1 < cellAddr s.cell) && s.asksAccount e.1)
    || s.placementAsks.any fun p => decide (p.1 < cellDie s.cell))

/-- Must the instruction wait before it issues? -/
def stalls (s : State) (i : Instr) : Bool := s.heldUp i || s.accountWaits i

/-- Does the current firing's next instruction decode and wait for nothing before it issues? -/
def decodesReady (s : State) : Bool :=
  match decodeBytes s.bodyBytes with
  | .ok (i, _) => !s.stalls i
  | .error _ => true

end State

end Sys2Proof.Machine
end

