-- ==== Sys2Proof/Machine/Resume.lean ====
section
/-! DEFINITION. How an instruction in which a firing waits goes on: a withheld access (R89, R173), a condition that holds
now (R381). -/
namespace Sys2Proof.Machine

/-- The current firing's waiting instruction is tried again. A token of the matrix node is not: its firing goes on when
the node accepts it, or, where it waits for a value (R246), when that is back. -/
def retry (i : Instr) (s : State) : Res :=
  match i with
  | .ld tc d a c off w => ldBody tc d a c off w s
  | .st tc d a off w => stBody tc d a off w s
  | .vld v a off w => vldBody v a off w s
  | .vst v a off w => vstBody v a off w s
  | .ldx tc d a b c off w => ldxBody tc d a b c off w s
  | .stx tc d a b off w => stxBody tc d a b off w s
  | .ldh d a b c off w => ldhBody d a b c off w s
  | .aadd w64 d a b c off w => aaddBody w64 d a b c off w s
  | .aand w64 d a b c off w => aandBody w64 d a b c off w s
  | .aor w64 d a b c off w => aorBody w64 d a b c off w s
  | .axor w64 d a b c off w => axorBody w64 d a b c off w s
  | .amin w64 d a b c off w => aminBody w64 d a b c off w s
  | .amax w64 d a b c off w => amaxBody w64 d a b c off w s
  | .aminz w64 d a b c off w => aminzBody w64 d a b c off w s
  | .amaxz w64 d a b c off w => amaxzBody w64 d a b c off w s
  | .axchg w64 d a b c off w => axchgBody w64 d a b c off w s
  | .acas w64 d a b c off w => acasBody w64 d a b c off w s
  | .afaddF32 d a b c off w => afaddF32Body d a b c off w s
  | .afmaxF32 d a b c off w => afmaxF32Body d a b c off w s
  | .sigAdd d a b off w => sigAddBody d a b off w s
  | .cpyPost d a b off w => cpyPostBody d a b off w s
  | .drain w => drainBody w s
  | .ringAwait d a b off w => ringAwaitBody d a b off w s
  | .ringAwaitFree d a b off w => ringAwaitFreeBody d a b off w s
  | .strSub d a off w => strSubBody d a off w s
  | .strUnsub d a w => strUnsubBody d a w s
  | .walkPost a off w => walkPostBody a off w s
  | .dlPost d a fin off w => dlPostBody d a fin off w s
  | .dlMerge d a b dm1 fin off w => dlMergeBody d a b dm1 fin off w s
  | .ladInit lad a mode nrm1 nem1 off w => ladInitBody lad a mode nrm1 nem1 off w s
  | .ladWts lad a off w => ladWtsBody lad a off w s
  | .ladPush d lad a b off w => ladPushBody d lad a b off w s
  | .ladRead d lad a b off w => ladReadBody d lad a b off w s
  | .ladRung d lad k a off w => ladRungBody d lad k a off w s
  | .ladStep d lad w => ladStepBody d lad w s
  | .ladWait d lad b w => ladWaitBody d lad b w s
  | .ladFree lad w => ladFreeBody lad w s
  | .futSpawn d a off => futSpawnBody d a off s
  | .futWaitReg d a c => futWaitRegBody d a c s
  | .futWaitBank a b off => futWaitBankBody a b off s
  | .tskSubInline d a b imm tmpl w => tskSubInlineBody d a b imm tmpl w s
  | .tskSubDesc d a off w => tskSubDescBody d a off w s
  | .tskDone w => tskDoneBody w s
  | .qPushReg a b w => qPushRegBody a b w s
  | .qPushBank a b off w => qPushBankBody a b off w s
  | .qPopReg d b c w => qPopRegBody d b c w s
  | .qPopBank a b off w => qPopBankBody a b off w s
  | .bar id n w => barRetry id n w s
  | .fenceAcq w => fenceAcqBody w s
  | .fenceRel w => fenceRelBody w s
  | .fenceFull w => fenceFullBody w s
  | .mxStat d _ c => State.mxStatBody d c s
  | .mxStatClr d _ c => State.mxStatBody d c s
  | _ => .next s

/-- The instruction is tried again in its order (R172). -/
def resume (i : Instr) (s : State) : Res := retry i (s.order i)

/-- The instruction in which a firing waits, once what is before it on the chain has been performed. -/
def State.released (s : State) : Option Instr :=
  match s.live, s.me.wait with
  | true, some i => if s.me.lost || s.me.queued && s.chained i s.me.link then none else some i
  | _, _ => none

/-- ACCESS_REPLY (R173): an access that its port withheld is performed, once the port has resumed. -/
def execAccessReply (cell fid : Nat) (s : State) : Res :=
  let t := s.focus cell fid
  match t.released with
  | some i => if i.accesses then resume i t else .next s
  | none => .next s

/-- CONDITION_WAIT_END (R381): a condition that a firing waits for holds. -/
def execConditionWaitEnd (cell fid : Nat) (s : State) : Res :=
  let t := s.focus cell fid
  match t.released with
  | some i => if i.accesses then .next s else resume i t
  | none => .next s

end Sys2Proof.Machine
end

