-- ==== Sys2Proof/Machine/Castle.lean ====
section
/-! DEFINITION. Castling: parking, the exchange of contexts, streams and the outcomes of parked instructions (R59, R316
to R319, R388). -/
namespace Sys2Proof.Machine

/-- CASTLE_GO (R317, R318): firmware writes `cr.castle` of a cell. -/
def execCastleGo (cell : Nat) (value : W64) (s : State) : Res :=
  if cellOk cell then .next (s.castleWrite cell value) else .next s

/-! ### Parking (R59, R318) -/

/-- The safe point at which a firing's instruction in progress stands. -/
def Ctx.safePoint (c : Ctx) (f : Firing) : Option SafePoint := (c.tr f.trans).safe.find? fun p => p.woff == f.woff

/-- Has a firing of the running slot a token that the node has not accepted? -/
def State.atNode (s : State) (cell : Nat) (f : Firing) : Bool :=
  (s.node (cellSector cell)).ports.any fun x => x.iss.cell == cell && x.iss.net == (s.cellAt cell).run.net && x.iss.fid == f.id

/-- May a firing in progress be parked: its instruction stands at a safe point, and it waits there, though not for the
node to accept its token; or what comes before it holds it back from issuing (R35, R45, R147, R169, R172; log 23)? -/
def State.parkable (s : State) (cell : Nat) (f : Firing) : Bool :=
  let t := s.focus cell f.id
  f.parked || (f.commit && (t.ctx.safePoint f).isSome && (match f.wait with
    | some _ => !s.atNode cell f
    | none => match decodeBytes t.bodyBytes with
      | .ok (i, _) => t.stalls i
      | .error _ => false))

/-- Every register as a firing reads it (R45). -/
def Ctx.viewOf (c : Ctx) (f : Firing) : Regs :=
  (notLater c.firings f.id).reverse.foldl (fun r x => r.atop x.regs) c.regs

def Regs.live (r : Regs) (p : SafePoint) : Regs where
  g := r.g.filter fun e => p.glive.getLsbD e.1
  v := r.v.filter fun e => p.vlive.getLsbD e.1
  sh := r.sh.filter fun e => p.shlive.getLsbD e.1

/-- The places of the `take` instructions of a record from a word of its body on. -/
def laterTakes (record : List Byte) (woff : Nat) : List Nat :=
  ((recInstrs record).filter fun e => decide (woff ≤ e.1)).filterMap fun e => match e.2 with
    | .take _ p _ => some p.toNat
    | _ => none

/-- The buffered words that a firing's later `take` instructions read, in the order of those, with their places: no more than
three (R318). -/
def Ctx.laterWords (c : Ctx) (f : Firing) : List (Nat × W64) :=
  ((laterTakes (c.tr f.trans).record f.woff).foldl (fun (acc : List (Nat × W64) × List (Nat × W64)) p =>
    match takeWord p acc.2 with
    | some (w, r) => (acc.1 ++ [(p, w)], r)
    | none => acc) ([], f.inbuf)).1.take 3

/-- The park record of a firing that is parked now. -/
def Ctx.parkOf (c : Ctx) (f : Firing) : Park :=
  let p := (c.safePoint f).getD ⟨f.woff, 0, 0, 0⟩
  { valid := true, trans := f.trans, woff := f.woff, glive := p.glive, vlive := p.vlive, shlive := p.shlive
    inbuf := (c.laterWords f).map (·.2), regs := (c.viewOf f).live p, fid := f.id }

/-- A context goes out: its firings are parked with their records, each keeping the registers as it reads them for the
instruction that runs on outside; every write joins the slot's registers. Records that stand from an earlier parking
whose outcome is not in stay with their firings. -/
def Ctx.parkAll (c : Ctx) : Ctx :=
  let keep := c.busy.filter fun f => f.parked
  let fresh := c.busy.filter fun f => !f.parked
  let old := c.parks.filter fun e => e.2.valid && keep.any fun f => f.id == e.2.fid
  let slots := (List.range 4).filter fun j => (Tbl.find old j).isNone
  let parks := (slots.zip fresh).foldl (fun t e => Tbl.put t e.1 (c.parkOf e.2)) old
  { c with
    regs := c.firings.foldl (fun r f => r.atop f.regs) c.regs
    parks := parks
    firings := c.busy.map fun f => if f.parked then f else { f with parked := true, rdy := false, regs := c.viewOf f, inbuf := c.laterWords f } }

/-! ### Resumption (R318) -/

/-- A firing whose instruction has had its outcome goes on from the record; one whose instruction still runs keeps its
wait. A record that firmware wrote, of no firing that is parked here, makes a firing that stands after its instruction. -/
def Ctx.wake (c : Ctx) (j : Nat) (p : Park) : Ctx :=
  if !p.valid then c
  else
    let c := { c with parks := Tbl.put c.parks j { p with valid := false } }
    let words (l : List (Nat × W64)) : List (Nat × W64) := (List.range l.length).map fun i =>
      let x := l.getD i (0, 0)
      (x.1, p.inbuf.getD i x.2)
    match c.firings.find? fun f => f.parked && f.id == p.fid && f.trans == p.trans with
    | some f => { c with firings := c.firings.map fun x => if x.id = f.id then
        { x with parked := false, regs := p.regs, inbuf := words x.inbuf } else x }
    | none =>
      let len := ((recInstrs (c.tr p.trans).record).map (·.1)).find? fun w => decide (p.woff < w)
      let next := len.getD (recBlen (c.tr p.trans).record)
      let f : Firing := { id := c.nextId, trans := p.trans, woff := if p.rdy then next else p.woff, commit := true
                          inbuf := (laterTakes (c.tr p.trans).record p.woff).zip p.inbuf, regs := p.regs }
      if (c.tr p.trans).loaded then { c with firings := c.firings ++ [f], nextId := c.nextId + 1 } else c

/-- A context comes in. A parked firing whose record firmware has cleared is gone. -/
def Ctx.wakeAll (c : Ctx) (clock : Nat) : Ctx :=
  let ids := (c.parks.filter fun e => e.2.valid).map fun e => e.2.fid
  let c := { c with firings := c.firings.filter fun f => !f.parked || ids.contains f.id }
  let c := c.parks.foldl (fun c e => c.wake e.1 e.2) c
  Ctx.settle { c with touched := clock }

/-! ### The exchange (R318) -/

/-- CONTEXT_EXCHANGE: from clock 65 on, once every firing in progress is parked, the running slot and the shadow slot
exchange contents, and GO reads 0. -/
def execContextExchange (cell : Nat) (s : State) : Res :=
  let c := s.cellAt cell
  let k := 1 + c.slot.toNat
  if !c.go || s.clock < c.goClock + 65 || !(c.run.busy.all fun f => s.parkable cell f) then .next s
  else
    let out := if c.run.valid then c.run.parkAll else c.run
    let inn := (c.slotCtx k).wakeAll s.clock
    .next (s.setCell cell ({ c with go := false, moving := c.moving ++ if c.stream then [(⟨2 - c.slot.toNat, c.dir, c.ctxmem.toNat⟩ : CtxMove)] else [] }.setSlot 0 inn |>.setSlot k out))

/-! ### Streams (R317, R319) -/

/-- The 16 KiB of a slot's window. -/
def Ctx.windowBytes (c : Ctx) (clock : Nat) : List Byte :=
  (List.range 2048).flatMap fun i => toBytes 8 (c.shadowWord clock (8 * i)).toNat

/-- A data place's words as an image holds them; the words of an extension stay in the spill pool (R383). -/
def placeFrom (x : Place) (e : W64) (store : List W64) : Place :=
  let n := fld e 11 0
  if fld e 63 62 = 2 then { x with kind := 2, count := 0, words := store.take n, ext := e.getLsbD 12 }
  else { x with kind := fld e 63 62, count := n, words := [], more := [], ext := false }

/-- A context made of a window image, over what the window does not show. -/
def Ctx.ofImage (hidden : Ctx) (bs : List Byte) : Ctx :=
  let w (off : Nat) : W64 := BitVec.ofNat 64 (ofBytes ((bs.drop off).take 8))
  let offs (lo hi : Nat) : List Nat := (List.range ((hi - lo) / 8)).map fun i => lo + 8 * i
  let c := (offs 0 0x380 ++ offs 0xC00 0xE20 ++ offs 0x3000 0x4000).foldl (fun c off => c.setShadowWord off (w off)) hidden
  (List.range 256).foldl (fun c p =>
    let x := placeFrom (c.place p) (w (0x400 + 8 * p)) ((List.range 4).map fun k => w (0x1000 + 32 * p + 8 * k))
    if x = {} && (Tbl.find c.places p).isNone then c else c.setPlace p x) c

namespace State

/-- The abstract cell that a physical cell holds for a net instance. -/
def acellOf (s : State) (net cell : Nat) : Nat :=
  match Tbl.find s.nets net with
  | none => 0
  | some n => match n.map.findIdx? (· == cell) with
    | some a => a
    | none => match n.instOf cell with
      | none => 0
      | some i =>
        let first := ((n.insts.find? fun j => j.tmpl == i.tmpl && j.inst == 0).bind fun j => j.cells.head?).getD 0
        (n.map.findIdx? (· == first)).getD 0 + (i.cells.findIdx? (· == cell)).getD 0

/-- What a load from memory starts from: what the save left out of the window, and the transitions of the net's image,
not armed until the image's words say so (R319). -/
def hiddenCtx (s : State) (cell net : Nat) : Ctx :=
  let a := s.acellOf net cell
  let h : Ctx := (Tbl.find s.saves (cell * 4096 + net)).getD {}
  let t := match Tbl.find s.nets net with
    | some n => (readImg n.image).transOf a
    | none => []
  { h with acell := a, trans := Tbl.mapV (fun k x => { x with armed := false, since := (h.tr k).since }) t }

end State

/-- CONTEXT_STREAM_COMPLETE (R318, R319): the stream that started first saves its shadow slot to memory, or loads it from
there, under the address space of the region's tenant. -/
def execContextStreamComplete (cell : Nat) (s : State) : Res :=
  let c := s.cellAt cell
  match c.moving with
  | [] => .next s
  | m :: rest =>
    let k := m.slot
    let x := c.slotCtx k
    let asid := if x.valid then x.asid else c.run.asid
    let iss : Issuer := { State.Issuer.plain asid with cell := cell, net := if x.valid then x.net else c.run.net }
    let stop (s : State) : State := s.modCell cell fun c => { c with moving := rest }
    let va := m.addr
    let plain : Issuer := { iss with net := 2 ^ 32 }
    if !m.dir then
      if !x.valid then .next (stop s)
      else match s.writeVirt plain va (x.windowBytes s.clock) with
        | (s, .error h) => .next ((stop s).report { hit := h, iss := iss, loc := cellAddr cell })
        | (s, .ok ()) =>
          .next ((stop { s with saves := Tbl.put s.saves (cell * 4096 + x.net % 4096) { x with area := va } }).modCell cell fun c => c.setSlot k {})
    else match s.readVirt plain va 16384 with
      | (s, .error h) => .next ((stop s).report { hit := h, iss := iss, loc := cellAddr cell })
      | (s, .ok bs) =>
        let net := fld (BitVec.ofNat 64 (ofBytes ((bs.drop 0xE00).take 8))) 50 39
        let y := (s.hiddenCtx cell net).ofImage bs
        .next ((stop { s with saves := Tbl.del s.saves (cell * 4096 + net) }).modCell cell fun c => c.setSlot k y)

/-! ### Outcomes (R318, R388) -/

/-- The reply that a record keeps: what the instruction wrote, a scalar or the words of a record or of a lane. -/
def replyOf (r : Regs) : List Byte :=
  ((r.g.flatMap fun e => toBytes 8 e.2.toNat) ++ (r.v.flatMap fun e => toBytes 64 e.2.toNat)).take 64

/-- A parked firing's instruction is tried in its own context, standing for a moment in the running slot; the registers
that it writes go to its park record, and the firing does not go on. -/
def outcomeIn (cell j : Nat) (c : Ctx) (put : State → Ctx → State) (s : State) : Res :=
  let p : Park := Tbl.get {} c.parks j
  match c.firings.find? fun f => f.parked && f.id == p.fid with
  | none => .next s
  | some f =>
    match p.valid, f.rdy, f.wait with
    | true, false, some i =>
      let run := (s.cellAt cell).run
      let away : Ctx := { c with regs := f.regs, firings := [{ f with regs := {} }] }
      let t := (s.modCell cell fun x => { x with run := away }).focus cell f.id
      match resume i t with
      | .next t =>
        let back := (t.cellAt cell).run
        let t := t.modCell cell fun x => { x with run := run }
        let others := c.firings.filter fun x => x.id ≠ f.id
        match back.firings.find? fun x => x.id == f.id with
        | none => .next (put t { back with regs := c.regs, firings := others, parks := Tbl.put c.parks j { p with valid := false } })
        | some g =>
          let gs := c.firings.map fun x => if x.id = f.id then { g with regs := f.regs, rdy := g.wait.isNone } else x
          let p := if g.wait.isNone then { p with rdy := true, regs := p.regs.atop g.regs, reply := replyOf g.regs } else p
          .next (put t { back with regs := c.regs, firings := gs, parks := Tbl.put c.parks j p })
      | r => r
    | _, _, _ => .next s

/-- PARKED_OUTCOME (R318): the outcome of a parked firing's instruction, in whichever slot or save area holds its record;
`slot` is 1 or 2 for a shadow slot, or 3 and up for the save area of net instance `slot` − 3. -/
def execParkedOutcome (cell slot k : Nat) (s : State) : Res :=
  if slot = 1 || slot = 2 then
    outcomeIn cell k ((s.cellAt cell).slotCtx slot) (fun s c => s.modCell cell fun x => x.setSlot slot c) s
  else if 3 ≤ slot then
    match Tbl.find s.saves (cell * 4096 + (slot - 3) % 4096) with
    | none => .next s
    | some c => outcomeIn cell k c (fun s d =>
      ({ s with saves := Tbl.put s.saves (cell * 4096 + (slot - 3) % 4096) d }).saveChanges c d) s
  else .next s

end Sys2Proof.Machine
end

