-- ==== Sys2Proof/Machine/Firmware.lean ====
section
/-! DEFINITION. The management cluster: boot and images (R326, R336 to R338), the mailbox (R324, R325, R327, R344), the
block allocator (R112, R333), attestation (R339, R423), the watchdog and plug-ins (R421, R422), sensors (R330). -/
namespace Sys2Proof.Machine

/-- The epoch that a gather of a decode lane holds; a merge and an empty range make no tagged access (R114, R403). -/
def LaneJob.tag (j : LaneJob) : Option Nat := if j.merge.isSome || jdP1 j.desc ≤ jdP0 j.desc then none else some j.epoch

/-- The epoch that an `ldh` which has read its entry holds while it waits (R111, R114). -/
def Firing.tag (f : Firing) : Option Nat :=
  match f.wait, f.arg with
  | some (.ldh _ _ _ _ _ _), some k => some (pinEpoch k)
  | _, _ => none

/-- The epochs of what is in flight: gathers of lanes, of running and of parked firings, and accepted stores (R114). -/
def State.tags (s : State) : List Nat :=
  (s.owners.flatMap fun o => o.2.lanes.filterMap fun l => l.2.tag)
  ++ (s.cells.flatMap fun c => (c.2.run.firings ++ c.2.sh0.firings ++ c.2.sh1.firings).filterMap Firing.tag)
  ++ (s.saves.flatMap fun c => c.2.firings.filterMap Firing.tag)
  ++ (s.stores.filter fun l => l.virt).map fun l => l.epoch

/-- The largest `cr.qdone` may read (R114): below the epoch of everything in flight, and below the current epoch. -/
def State.qdone (s : State) : Nat := s.tags.foldl min s.qcur - 1

namespace State

/-- Firmware runs (R336, R338, R421). -/
def fwUp (s : State) : Bool := !s.mgmt.held && !s.mgmt.recovery && !s.mgmt.restarting

def modMgmt (s : State) (f : Mgmt → Mgmt) : State := { s with mgmt := f s.mgmt }

/-! ### Reset (R324) -/

/-- The module resets: every context and region is lost. What is fused, the drive, the schedule, the links, what memory
holds and what has left the module stand (log 25). -/
def restart (s : State) : State :=
  { State.reset with
    agenda := s.agenda, free := s.free, banks := s.banks, mem := s.mem, link := s.link, pcie := s.pcie, ports := s.ports
    outbox := s.outbox, late := s.late
    mgmt := { ({} : Mgmt) with drive := s.mgmt.drive, fused := s.mgmt.fused, sigs := s.mgmt.sigs, sensors := s.mgmt.sensors } }

end State

/-! ### Images (R336) -/

def sigLen : Nat := 9732
def fwWord (img : List Byte) (k : Nat) : W64 := wordOf (wordsAt img 8) k
def fwStage (img : List Byte) : Nat := fld (fwWord img 0) 31 24
def fwMinor (img : List Byte) : Nat := fld (fwWord img 0) 15 0
/-- Header, code and signature. -/
def fwLen (img : List Byte) : Nat := 64 + fld (fwWord img 1) 31 0 + sigLen
/-- The digest of header and code. -/
def fwDigest (img : List Byte) : List Byte := Shake.shake256 (img.take (fwLen img - sigLen)) 64

/-- Is an image accepted as a stage: a valid header, FLOOR at least the fused counter, a signature that verifies against
the root key? -/
def State.fwOk (s : State) (img : List Byte) : Bool :=
  fld (fwWord img 0) 63 32 == 0x46574C48 && decide (1 ≤ fwStage img) && decide (fwStage img ≤ 3)
  && fld (fwWord img 0) 23 16 == 3 && ((List.range 6).all fun k => fwWord img (k + 2) == 0)
  && decide (s.mgmt.fused ≤ fld (fwWord img 1) 63 32) && img.length == fwLen img
  && (let sig := img.drop (fwLen img - sigLen)
      Xmss.verify (Xmss.Key.of Config.rootPublic) (fwDigest img) sig && Shake.shake256 Config.rootPublic 64 == Config.rootKey)

/-! ### The boot directory (R337) -/

namespace State

/-- The directory's words. -/
def bootDir (s : State) : List W64 := wordsAt (Mem.load s.mgmt.drive 0 512) 64
def slotFirst (d : List W64) (st : Nat) : Nat := (wordOf d (2 * st)).toNat
def slotBlocks (d : List W64) (st : Nat) : Nat := fld (wordOf d (2 * st + 1)) 63 32
def slotsMeet (d : List W64) (a b : Nat) : Bool :=
  decide (slotFirst d a < slotFirst d b + slotBlocks d b) && decide (slotFirst d b < slotFirst d a + slotBlocks d a)

def dirOk (d : List W64) : Bool :=
  fld (wordOf d 0) 63 32 == 0x31444C48 && fld (wordOf d 0) 31 0 == 1 && wordOf d 1 == 0
  && ([1, 2, 3].all fun st => fld (wordOf d (2 * st + 1)) 31 0 == 0) && ((List.range 56).all fun k => wordOf d (k + 8) == 0)
  && !slotsMeet d 1 2 && !slotsMeet d 1 3 && !slotsMeet d 2 3

/-- Does an image of some bytes fit the slot of a stage? -/
def fits (d : List W64) (st n : Nat) : Bool := decide (n ≤ slotBlocks d st * Config.lbaBytes)

/-- A stage as the ROM reads it from its slot. -/
def stageImage (s : State) (d : List W64) (st : Nat) : List Byte :=
  let at' := slotFirst d st * Config.lbaBytes
  Mem.load s.mgmt.drive at' (fwLen (Mem.load s.mgmt.drive at' 64))

/-- Stages 1 to 3 verified and loaded (R336 to R338): none where one fails. -/
def loadStages (s : State) : Option State :=
  let d := s.bootDir
  if !dirOk d then none
  else
    let imgs := [1, 2, 3].map fun st => (st, s.stageImage d st)
    if imgs.all fun e => fits d e.1 e.2.length && fwStage e.2 == e.1 && s.fwOk e.2 then
      some (s.modMgmt fun m => { m with
        verMaj := 3, verMin := fwMinor (s.stageImage d 1)
        stages := imgs.map fun e => (e.1, BitVec.ofNat 512 (ofBytes (fwDigest e.2))) })
    else none

end State

/-- BOOT (R336 to R338): after reset the ROM loads the stages, and the monitor releases the compute dies; a failure enters
recovery. -/
def execBoot (s : State) : Res :=
  if !s.mgmt.held || s.mgmt.recovery then .next s
  else match s.loadStages with
    | some s => .next (s.modMgmt fun m => { m with held := false, since := s.clock })
    | none => .next (s.modMgmt fun m => { m with recovery := true })

/-! ### The mailbox (R324, R327) -/

namespace State

/-- A response (R324). -/
def answer (s : State) (m : Master) (tag : BitVec 16) (status : Nat) (ws : List W64) : State :=
  { s with outbox := s.outbox ++ [.mailbox m tag.toNat status ws] }

end State

/-- A command at the mailbox. `always` is VERSION's, `rom` says that recovery's ROM service takes it, `side` that the
side-band port may give it. The host's mailbox is out of reach while its link is down (R419) and until BAR0 is programmed (R420), and
its command of a clock comes before the side-band port's (R327). -/
def onMail (always rom side : Bool) (m : Master) (tag : BitVec 16) (s : State) (body : State → Res) : Res :=
  if m == .host && (!s.link || (Tbl.get {} s.pcie 0).bar0.isNone || s.mgmt.sideAt = s.clock + 1) then .next s
  else
  let s := if m == .sideBand then s.modMgmt fun g => { g with sideAt := s.clock + 1 } else s
  if s.mgmt.restarting || (s.mgmt.loading.isSome && !always) || (s.mgmt.held && !s.mgmt.recovery) then
    .next (s.answer m tag 1 [])
  else if (s.mgmt.recovery && !rom) || (m == .sideBand && !side) then .next (s.answer m tag 2 [])
  else body s

/-- A stepping as a letter's place and a digit (R1). -/
def Stepping.code : Stepping → Nat × Nat
  | .b0 => (2, 0)
  | .a2 => (1, 2)
  | .a1 => (1, 1)

/-- The steppings of the dies, as the capability list gives them (R1, R328). -/
def State.steppings (s : State) : List (Nat × Nat) := s.mgmt.caps.filterMap fun r => match r.body with
  | .device st _ _ _ _ _ _ _ | .die _ st _ | .memory _ st _ _ => some st.code
  | _ => none

/-- A capability record's header (R328). -/
def CapRec.header (r : CapRec) : W64 := nat64 (r.id % 2 ^ 16 * 2 ^ 48 + r.ver % 256 * 2 ^ 40 + r.next % 2 ^ 24 * 2 ^ 16 + r.len % 2 ^ 16)

/-- A word of the configuration window that R328 places: the first record's offset at 0, and the records' headers. -/
def State.capWord (s : State) (off : Nat) : Option W64 :=
  if off = 0 then some (nat64 s.mgmt.capAt) else (s.mgmt.caps.find? fun r => r.off == off).map CapRec.header

/-- The mailbox's offset and the vendor's ID, as the device identity record gives them. -/
def State.vendorId (s : State) : Nat := (s.mgmt.caps.findSome? fun r => match r.body with
  | .device _ _ v _ _ _ _ _ => some v
  | _ => none).getD 0

/-- VERSION. -/
def execVersion (m : Master) (tag : BitVec 16) (s : State) : Res :=
  onMail true true true m tag s fun s => .next (s.answer m tag 0 (Config.versionWords s.mgmt.verMaj s.mgmt.verMin s.steppings))

/-- RESET. -/
def execReset (m : Master) (tag : BitVec 16) (s : State) : Res :=
  onMail false true true m tag s fun s => .next (s.answer m tag 0 []).restart

/-- The bytes of the staging buffer (R326). -/
def stagingBytes : Nat := 2 ^ 24

/-- LOAD_IMAGE (R326) is accepted; `data` are the bytes that the I/O die reads at a bus address of the host. -/
def execLoadImage (m : Master) (tag : BitVec 16) (src len : W64) (data : List Byte) (s : State) : Res :=
  onMail false true true m tag s fun s =>
    if (src ≠ 0 && m == .sideBand) || len = 0 || stagingBytes < len.toNat then .next (s.answer m tag 3 [])
    else
      let img := if src = 0 then Mem.load s.mgmt.staging 0 len.toNat else data.take len.toNat
      .next (s.modMgmt fun g => { g with loading := some (m, tag.toNat, img) })

namespace State

/-- Does a stage's slot lie past the directory, which LOAD_IMAGE never changes (R337)? -/
def slotFree (d : List W64) (st : Nat) : Bool := decide (512 ≤ slotFirst d st * Config.lbaBytes)

/-- A LOAD_IMAGE ends (R326, R338): an image that passes and fits goes to its slot; in recovery the module then resets. -/
def finishLoad (s : State) : State :=
  match s.mgmt.loading with
  | none => s
  | some (m, tag, img) =>
    let s := s.modMgmt fun g => { g with loading := none }
    let d := s.bootDir
    if s.fwOk img && dirOk d && fits d (fwStage img) img.length && slotFree d (fwStage img) then
      let s := s.modMgmt fun g => { g with stopped := [], drive := Mem.store g.drive (slotFirst d (fwStage img) * Config.lbaBytes) img }
      let s := s.answer m (BitVec.ofNat 16 tag) 0 []
      if s.mgmt.recovery then s.restart else s
    else s.answer m (BitVec.ofNat 16 tag) 3 []

end State

/-- IMAGE_DATA (R326). -/
def execImageData (m : Master) (tag : BitVec 16) (off cnt : W32) (data : List W64) (s : State) : Res :=
  onMail false true true m tag s fun s =>
    if cnt = 0 || 48 < cnt.toNat || stagingBytes < off.toNat + cnt.toNat then .next (s.answer m tag 3 [])
    else
      let bs := (((List.range 6).map fun k => data.getD k 0).flatMap fun w => toBytes 8 w.toNat).take cnt.toNat
      .next ((s.modMgmt fun g => { g with staging := Mem.store g.staging off.toNat bs }).answer m tag 0 [])

/-- SET_POOL (R322, R324): the old POOL is the answer's word 1. -/
def execSetPool (m : Master) (tag : BitVec 16) (pool : W64) (s : State) : Res :=
  onMail false false true m tag s fun s =>
    if 600 < pool.toNat then .next (s.answer m tag 3 []) else .next ((s.setPool pool.toNat).answer m tag 0 [nat64 s.pool])

namespace State

/-- The net instance whose region holds a sector (R314). -/
def regionOf (s : State) (k : Nat) : Option Nat :=
  match (s.sectorAt k).use with
  | .running n => some n
  | _ => none

/-- The region that a command names by die and sector. -/
def namedRegion (s : State) (die sector : Nat) : Option (Nat × Net) :=
  if 4 ≤ die || 168 ≤ sector then none
  else (s.regionOf (die * 256 + sector)).bind fun n => (Tbl.find s.nets n).map fun x => (n, x)

/-- Every cell of a net instance's region. -/
def regionCells (x : Net) : List Nat := x.sectors.flatMap fun k => (List.range 48).map fun i => k * 64 + i

end State

/-- CASTLE (R317, R324): `cr.castle` of every cell of the region is written, with GO. -/
def execCastle (m : Master) (tag : BitVec 16) (die sector : Nat) (slot stream dir : Bool) (s : State) : Res :=
  onMail false false true m tag s fun s =>
    match s.namedRegion die sector with
    | none => .next (s.answer m tag 3 [])
    | some (_, x) =>
      let v := nat64 (2 ^ 63 + slot.toNat * 2 ^ 62 + stream.toNat * 2 ^ 61 + dir.toNat * 2 ^ 60)
      .next (((State.regionCells x).foldl (fun s c => s.castleWrite c v) s).answer m tag 0 [])

/-- END (R56, R324): as a `halt` that the region deposits in the next clock. -/
def execEndRegion (m : Master) (tag : BitVec 16) (die sector : Nat) (s : State) : Res :=
  onMail false false true m tag s fun s =>
    match s.namedRegion die sector with
    | none => .next (s.answer m tag 3 [])
    | some (n, _) =>
      .next ((s.modNet n fun x => { x with halted := some (x.halted.getD (s.clock + 1)) }).answer m tag 0 [])

/-! ### Blocks (R112, R115, R325, R333) -/

namespace State

def blockPool (s : State) (asid : Nat) : List (BitVec 28) := Tbl.get [] s.mgmt.pools asid
def setBlockPool (s : State) (asid : Nat) (l : List (BitVec 28)) : State :=
  s.modMgmt fun g => { g with pools := Tbl.put g.pools asid l }

/-- Freed blocks whose pages have left quarantine return to their tenant's pool (R333). -/
def returnBlocks (s : State) : State :=
  let out := s.mgmt.limbo.filter fun e => decide (e.2.2 ≤ s.qdone)
  let s := s.modMgmt fun g => { g with limbo := g.limbo.filter fun e => !decide (e.2.2 ≤ s.qdone) }
  out.foldl (fun s e => s.setBlockPool e.1 (s.blockPool e.1 ++ [e.2.1])) s

/-- Block numbers packed 28 bits each into the answer's seven words (R325). -/
def packBlocks (l : List (BitVec 28)) : List W64 :=
  let v := (l.foldr (fun b acc => acc * 2 ^ 28 + b.toNat) 0)
  (List.range 7).map fun k => nat64 (v / 2 ^ (64 * k))

end State

/-- BLOCK_ALLOC (R325): the list of a count above 16 is written with a release at `.sys` before the answer. -/
def execBlockAlloc (m : Master) (tag : BitVec 16) (arg addr : W64) (s : State) : Res :=
  onMail false false false m tag s fun s =>
    let n := fld arg 6 0
    let asid := fld arg 27 16
    let bad : Res := .next (s.answer m tag 3 [])
    if fld arg 15 7 ≠ 0 || fld arg 63 28 ≠ 0 || n = 0 || 64 < n then bad
    else if n ≤ 16 && addr ≠ 0 then bad
    else if 16 < n && (addr.toNat % 4 ≠ 0 || 3 < vaHome addr.toNat) then bad
    else
      let iss := State.Issuer.plain asid
      let where' := s.pieces iss addr.toNat (4 * n) true (State.pieceFuel (4 * n))
      match if n ≤ 16 then none else (match where'.2 with
        | .error h => some h
        | .ok _ => none) with
      | some _ => bad
      | none =>
        let s := (if n ≤ 16 then s else where'.1).returnBlocks
        let pool := s.blockPool asid
        if pool.length < n then .next (s.answer m tag 1 [])
        else
          let got := pool.take n
          let s := s.setBlockPool asid (pool.drop n)
          let s := if n ≤ 16 then s else (s.releaseVirt iss addr.toNat (got.flatMap fun b => toBytes 4 b.toNat) 5).1
          .next (s.answer m tag 0 (State.packBlocks (got.take 16)))

/-- BLOCK_FREE (R115, R324, R333): the blocks' pages enter quarantine. -/
def execBlockFree (m : Master) (tag : BitVec 16) (asid : Nat) (blocks : List Nat) (s : State) : Res :=
  onMail false false false m tag s fun s =>
    if 13 < blocks.length || 4096 ≤ asid || blocks.any fun b => 2 ^ 28 ≤ b then .next (s.answer m tag 3 [])
    else .next ((s.freeBlocks asid (blocks.map (BitVec.ofNat 28))).answer m tag 0 [])

/-- The tenant whose region holds a sector. -/
def State.sectorAsid (s : State) (k : Nat) : Option Nat :=
  (s.regionOf k).bind fun n => (Tbl.find s.nets n).map fun x => x.asid

/-- BLOCK_APPEND (R333): one grant of the tenant's pool at slot COUNT; a write to a full cache is discarded. -/
def execBlockAppend (sector : Nat) (block : W32) (s : State) : Res :=
  let s := s.returnBlocks
  match s.sectorAsid sector with
  | none => .next s
  | some a =>
    let b : BitVec 28 := block.setWidth 28
    if !s.fwUp || !(s.blockPool a).contains b then .next s
    else if 16 ≤ (s.sectorAt sector).blocks.length then .next (s.appendBlock sector block)
    else .next ((s.appendBlock sector block).setBlockPool a ((s.blockPool a).erase b))

/-- BLOCK_CACHE_REFILL (R112, R333): the first request is served, up to 16 grants, as far as the pool reaches. -/
def execBlockCacheRefill (sector : Nat) (s : State) : Res :=
  if !s.fwUp || s.mgmt.refills.head? ≠ some sector then .next s
  else
    let s := (s.modMgmt fun g => { g with refills := g.refills.drop 1 }).returnBlocks
    match s.sectorAsid sector with
    | none => .next s
    | some a =>
      let n := 16 - (s.sectorAt sector).blocks.length
      let pool := s.blockPool a
      .next (((pool.take n).foldl (fun s b => s.appendBlock sector (b.setWidth 32)) s).setBlockPool a (pool.drop n))

/-! ### The timer wheel (R344) -/

/-- The sector and place of a place entry that DEST names. -/
def timerCell (w : W64) : Nat := faCell (fld w 47 0)
def timerPlace (w : W64) : Nat := faOff (fld w 47 0) / 8

/-- TIMER_POST (R344). -/
def execTimerPost (m : Master) (tag : BitVec 16) (time word1 : W64) (asid : Nat) (s : State) : Res :=
  onMail false false false m tag s fun s =>
    let a := fld word1 47 0
    let region := (s.regionOf (faSector a)).bind fun n => (Tbl.find s.nets n).map fun x => (n, x)
    let okForm := fld word1 63 52 ≠ 0 && fld word1 51 48 == 0 && faUnit a < 48 && faWin a == 2 && faOff a < 0x800
      && faOff a % 8 == 0
    match region with
    | some (n, x) =>
      if !okForm || x.asid ≠ asid || s.wheelFull then .next (s.answer m tag 3 [])
      else
        let s : State := { s with wheel := s.wheel ++ [{ time := time, word := word1, net := n }] }
        .next (s.answer m tag 0 [])
    | none => .next (s.answer m tag 3 [])

namespace State

/-- May entry `k` of the wheel be released: its time has come, and no entry of the same TIME was posted before it? -/
def dueTimer (s : State) (k : Nat) (now : W64) : Option Timer :=
  match s.wheel[k]? with
  | none => none
  | some t => if decide (now.toNat < t.time.toNat) || (s.wheel.take k).any (fun u => u.time == t.time) then none else some t

def dropTimer (s : State) (k : Nat) : State := { s with wheel := s.wheel.eraseIdx k }

end State

/-- The network interface as the sender of timer tokens. -/
def timerUnit : Nat := 2 ^ 49

/-- TIMER_TOKEN_RELEASE (R344): COUNT tokens leave for DEST, if it still lies in the recorded instance's region. -/
def execTimerTokenRelease (k : Nat) (now : W64) (s : State) : Res :=
  match s.dueTimer k now with
  | none => .next s
  | some t =>
    if t.word.getLsbD 48 then .next s
    else
      let s := s.dropTimer k
      if s.regionOf (cellSector (timerCell t.word)) = some t.net then
        .next (s.send timerUnit (timerCell t.word) (timerPlace t.word) t.net (.tokens (fld t.word 63 52)))
      else .next s

/-- TASK_TIME_RELEASE (R344): RELD is set in the entry that the task id names, when its GEN matches. -/
def execTaskTimeRelease (k : Nat) (now : W64) (s : State) : Res :=
  match s.dueTimer k now with
  | none => .next s
  | some t =>
    if !t.word.getLsbD 48 then .next s
    else
      let s := s.dropTimer k
      let die := fld t.word 47 46
      let x := s.taskAt die (fld t.word 11 0)
      if x.v && x.gen % 4096 == fld t.word 23 12 then
        .next ((s.modTask die (fld t.word 11 0) fun y => { y with reld := true }).settleTasks die)
      else .next s

/-! ### Attestation (R339, R423) -/

namespace State

def spdm (s : State) (a : SpdmAnswer) : State := { s with outbox := s.outbox ++ [.spdm a] }

/-- A request is answered, or draws Busy while the cores restart. -/
def onSpdm (s : State) (f : State → State) : State := if s.mgmt.restarting then s.spdm (.error .busy) else f s

/-- A measurement (R339): none where it is reserved or was not taken. -/
def measurement (s : State) (i : Nat) : Option (BitVec 512) :=
  match i with
  | 0 => some Config.romDigest
  | 4 => some (Config.fusedDigest s.mgmt.fused s.mgmt.sigs)
  | 5 => some (BitVec.ofNat 512 (ofBytes (Shake.shake256
      ((List.range 4096).flatMap fun a => toBytes 8 (Tbl.get 0 s.mgmt.policy a).toNat) 64)))
  | i => if i ≤ 3 then Tbl.find s.mgmt.stages i else none

/-- Evidence (R339): the mask of what is returned, the digests, the signature with the next index. Event 0x08 is written
once, when 1,024 indices are left (R418, R423). -/
def evidence (s : State) (nonce : List Byte) (mask : Nat) : State :=
  if 2 ^ 20 ≤ s.mgmt.sigs then s.spdm (.error .exhausted)
  else
    let ms := (List.range 6).filterMap fun i => if mask / 2 ^ i % 2 = 1 then (s.measurement i).map fun d => (i, d) else none
    let head := toBytes 8 (ms.map fun m => 2 ^ m.1).sum
    let digests := ms.flatMap fun m => toBytes 64 m.2.toNat
    let sig := Xmss.sign Config.identitySeed Config.identityRandom Config.identitySecret 20 s.mgmt.sigs
      (Shake.shake256 (nonce ++ head ++ digests) 64)
    let left := 2 ^ 20 - (s.mgmt.sigs + 1)
    let s := (s.spdm (.evidence (head ++ digests ++ sig))).modMgmt fun g => { g with sigs := g.sigs + 1 }
    if left = 1024 then s.sysEvent 8 0 left else s

end State

def execSpdmGetVersion (s : State) : Res := .next (s.onSpdm fun s => s.spdm .version)
def execSpdmGetCapabilities (s : State) : Res := .next (s.onSpdm fun s => s.spdm .capabilities)
def execSpdmNegotiateAlgorithms (s : State) : Res := .next (s.onSpdm fun s => s.spdm .algorithms)

/-- VENDOR_DEFINED_REQUEST (R339, R423): StandardID 3 with the vendor's ID, and 41 bytes, the first 0x01; any other payload is
malformed. -/
def execVendorDefinedRequest (request : VendorRequest) (s : State) : Res :=
  let payload := request.payload
  .next (s.onSpdm fun s =>
    if request.standard ≠ 3 || request.vendor ≠ s.vendorId then s.spdm (.error .unsupportedRequest)
    else if payload.length ≠ 41 || payload.head? ≠ some 1 then s.spdm (.error .invalidRequest)
    else s.evidence ((payload.drop 1).take 32) (ofBytes (payload.drop 33)))

/-- Any other SPDM request (R423). -/
def execSpdmOtherRequest (_code : Byte) (s : State) : Res := .next (s.onSpdm fun s => s.spdm (.error .unsupportedRequest))

/-! ### Commands as 64 bytes (R324) -/

/-- A 64-byte command at a master's mailbox, with the bytes at the bus address that it may name: an unknown command, a set
reserved bit or a word beyond the command's arguments that is not 0 draws STATUS 0x03 (log 24). -/
def State.mailCommand (s : State) (m : Master) (ws : List W64) (data : List Byte) : Res :=
  let w (k : Nat) : W64 := wordOf ws k
  let tag : BitVec 16 := BitVec.ofNat 16 (fld (w 0) 47 32)
  let args := (List.range 7).map fun k => w (k + 1)
  let clean (n : Nat) : Bool := fld (w 0) 23 0 == 0 && (args.drop n).all fun x => x == 0
  let invalid (always rom side : Bool) : Res := onMail always rom side m tag s fun s => .next (s.answer m tag 3 [])
  match fld (w 0) 63 48 with
  | 0x01 => if clean 0 then execVersion m tag s else invalid true true true
  | 0x02 => if clean 0 then execReset m tag s else invalid false true true
  | 0x10 => if clean 2 then execLoadImage m tag (w 1) (w 2) data s else invalid false true true
  | 0x11 =>
    if clean 7 then execImageData m tag (BitVec.ofNat 32 (fld (w 1) 63 32)) (BitVec.ofNat 32 (fld (w 1) 31 0)) (args.drop 1) s
    else invalid false true true
  | 0x20 => if clean 1 then execSetPool m tag (w 1) s else invalid false false true
  | 0x21 => match if clean 7 then Config.castleArgs args else none with
    | some (die, sector, slot, stream, dir) => execCastle m tag die sector slot stream dir s
    | none => invalid false false true
  | 0x22 => match if clean 7 then Config.endArgs args else none with
    | some (die, sector) => execEndRegion m tag die sector s
    | none => invalid false false true
  | 0x30 => if clean 2 then execBlockAlloc m tag (w 1) (w 2) s else invalid false false false
  | 0x31 => match if clean 7 then Config.freeArgs args else none with
    | some (asid, blocks) => execBlockFree m tag asid blocks s
    | none => invalid false false false
  | 0x40 => match if clean 7 then Config.timerArgs args else none with
    | some (time, word, asid) => execTimerPost m tag time word asid s
    | none => invalid false false false
  | _ => invalid false false true

end Sys2Proof.Machine
end

