-- ==== Sys2Proof/Machine/Cores.lean ====
section
/-! DEFINITION. The eight management cores: modes and physical memory protection (R26, R331), the watchdog (R421), plug-ins (R422),
what firmware writes in device memory (R416), sensors (R330). -/
namespace Sys2Proof.Machine

/-! ### Modes and protection (R26, R331) -/

/-- The plug-in that runs on a core, by its tenant slot (R331). -/
def CoreSt.plugin (c : CoreSt) : Option Nat := match (c.pmp[8]?).map Pmp.owner with
  | some (.plugin slot) => slot
  | _ => none

/-- May a core reach something in its mode (R331)? The entries of the mode's owner grant it. -/
def CoreSt.may (c : CoreSt) (g : Grant) : Bool :=
  c.pmp.any fun e => e.grants.contains g && (match c.mode, e.owner with
    | .m, .monitor => true
    | .s, .scheduler => true
    | .u, .plugin (some _) => true
    | _, _ => false)

/-- A core takes an exception: it goes to M mode, and the mode that it left stands (R422). -/
def CoreSt.except (c : CoreSt) : CoreSt := { c with trap := some c.mode, mode := .m }

/-- What a core does, as its firmware makes it (log 57): an instruction leaves registers, where `x0` stays 0; an access without a grant
is an exception; an environment call goes one mode up, and a return to the same mode or down, to U only where a plug-in runs. -/
def CoreSt.act (c : CoreSt) : CoreAct → CoreSt
  | .retire x f pc csr => { c with x := 0 :: (List.range 31).map fun k => x.getD (k + 1) 0
                                   f := (List.range 32).map fun k => f.getD k 0, pc := pc, csr := csr }
  | .access g => if c.may g then c else c.except
  | .trap => c.except
  | .call => { c with mode := if c.mode = .u then .s else .m }
  | .ret m =>
    if m = .m && c.mode ≠ .m || m = .s && c.mode = .u || m = .u && c.plugin.isNone then c else { c with mode := m }

namespace State

/-- A core acts: not while the cores reset (R421), and not between an exception and what follows it (R422). -/
def coreAct (s : State) (core : Nat) (a : CoreAct) : State :=
  if s.mgmt.restarting then s
  else s.modMgmt fun g => { g with cores := g.cores.modify core fun c => if c.trap.isSome then c else c.act a }

/-! ### The watchdog (R421) -/

/-- Clocks of a millisecond at 2.0 GHz (R22). -/
def msClocks : Nat := 2000000

/-- A write to `cr.mwdog` (R421): PERIOD from 1 to 60,000, and KICK, which restarts the period. -/
def writeWatchdog (s : State) (v : W64) : State :=
  let p := fld v 63 48
  s.modMgmt fun g => { g with
    period := if 1 ≤ p && p ≤ 60000 then p else g.period
    since := if v.getLsbD 47 then s.clock else g.since }

/-- `cr.mwdog` as it reads. -/
def watchdogWord (s : State) : W64 := nat64 (s.mgmt.period * 2 ^ 48 + s.mgmt.restarts)

/-- Has the watchdog expired: no restart within PERIOD (R421), or an exception in S or M mode (R422)? -/
def dogDue (s : State) : Bool :=
  s.fwUp && (decide (s.mgmt.since + s.mgmt.period * msClocks ≤ s.clock)
    || s.mgmt.cores.any fun c => c.trap == some .s || c.trap == some .m)

/-- The watchdog's expiry (R421, step 1): the cores reset. -/
def dogBite (s : State) : State :=
  if !s.dogDue then s
  else s.modMgmt fun g =>
    { g with restarting := true, loading := none, restarts := min (g.restarts + 1) 0xFFFF, cores := List.replicate 8 {} }

/-- The restart ends (R421, steps 2 and 3): the stages are loaded again and event 0x03 is written; a stage that fails
enters recovery with the regions running. -/
def finishRestart (s : State) : State :=
  if !s.mgmt.restarting then s
  else
    let s := s.modMgmt fun g => { g with restarting := false, since := s.clock }
    match s.loadStages with
    | some s => s.sysEvent 3 0 s.mgmt.restarts
    | none => s.modMgmt fun g => { g with recovery := true }

end State

/-- WATCHDOG_KICK (R421): the monitor writes `cr.mwdog`. -/
def execWatchdogKick (value : W64) (s : State) : Res := .next (s.writeWatchdog value)

/-- WATCHDOG_EXPIRY (R421, step 1): PERIOD has gone by without a kick, or a core has taken an exception in S or M mode (R422). -/
def execWatchdogExpiry (s : State) : Res := .next s.dogBite

/-! ### Plug-ins (R331, R422) -/

/-- Is the plug-in of a core to be stopped (R422): its core took an exception in U mode, or no environment call finished its request
within 10 ms? -/
def CoreSt.overdue (c : CoreSt) (clock : Nat) : Bool :=
  c.trap == some .u || c.asked.any fun t => decide (t + 10 * State.msClocks ≤ clock)

/-- The scheduler has taken a core back from a stopped plug-in. -/
def CoreSt.clear (c : CoreSt) (slot : Nat) : CoreSt :=
  if c.plugin = some slot then { c with mode := .s, pmp := pmpOf none, page := [], trap := none, asked := none } else c

namespace State

/-- Is a slot's plug-in to be stopped? -/
def pluginDue (s : State) (slot : Nat) : Bool :=
  s.fwUp && decide (slot < 64) && !s.mgmt.stopped.contains slot
    && s.mgmt.cores.any fun c => c.plugin == some slot && c.overdue s.clock

/-- The scheduler stops a plug-in and writes event 0x04 (R422). -/
def stopPlugin (s : State) (slot : Nat) : State :=
  if !s.pluginDue slot then s
  else (s.modMgmt fun g =>
    { g with stopped := g.stopped ++ [slot], cores := g.cores.map fun c => c.clear slot }).sysEvent 4 0 (slot * 2 ^ 58)

/-- What firmware's time limits bring in a clock (R421, R422). -/
def limits (s : State) : State := (s.mgmt.cores.filterMap CoreSt.plugin).foldl stopPlugin s.dogBite

end State

/-- PLUGIN_STOP (R422). -/
def execPluginStop (slot : Nat) (s : State) : Res := .next (s.stopPlugin slot)

namespace State

/-- A core switches to a plug-in and gives it a request (R331): the monitor rewrites entries 8 to 15, and the plug-in runs in U mode. A
stopped one is not started (R422). -/
def runPlugin (s : State) (core slot : Nat) : State :=
  if 64 ≤ slot || s.mgmt.stopped.contains slot || !s.fwUp then s
  else s.modMgmt fun g => { g with cores := g.cores.modify core fun c =>
    if c.trap.isSome then c else { c with mode := .u, pmp := pmpOf (some slot), page := [], asked := some s.clock } }

/-- An environment call of the plug-in on a core finishes its request (R331, R422), with what it wrote in its request page (log 57): the
scheduler checks the request against the ASID of the plug-in's tenant slot, and writes the service target and the image policy that
the plug-in decides. -/
def pluginCall (s : State) (core : Nat) (page : List Byte) : State :=
  match s.mgmt.cores[core]? with
  | none => s
  | some c => match c.plugin with
    | none => s
    | some slot =>
      if !s.fwUp || c.trap.isSome || c.mode ≠ .u || !c.may .requestPage then s
      else
        let s := s.modMgmt fun g => { g with cores := g.cores.modify core fun c => { c with page := page.take 4096, asked := none } }
        let (die, asid, target, policy) := Config.requestOf (page.take 4096)
        let t := s.tenantAt die slot
        if !{ c with mode := .s }.may .policies || 4 ≤ die || !t.v || t.asid ≠ asid || target.any (fun n => decide (256 ≤ n)) then s
        else
          let s := match target with
            | some n => s.modDie die fun d => { d with tenants := Tbl.put d.tenants slot { t with target := n } }
            | none => s
          match policy with
          | some w => s.modMgmt fun g => { g with policy := Tbl.put g.policy asid (w &&& 0x80FF000000000000) }
          | none => s

/-! ### What firmware writes in device memory (R416) -/

/-- A frame of some bytes of device memory that is poisoned (R397). -/
def badFrame (s : State) (dpa n : Nat) : Option Nat :=
  ((List.range ((dpa % 2 ^ 16 + n - 1) / 2 ^ 16 + 1)).map fun k => if k = 0 then dpa else (dpa / 2 ^ 16 + k) * 2 ^ 16).find? s.poisoned

/-- Firmware writes bytes of device memory by their DPA: a leaf (R416, step 3), its own tables (step 6). Its writes are
released at `.sys`: DESIGN CHOICE (log 57). A poisoned frame takes none and gives a record (R397). -/
def fwStore (s : State) (dpa : Nat) (bs : List Byte) : State :=
  if !s.fwUp || bs.isEmpty then s
  else match s.badFrame dpa bs.length with
    | some d => s.launchFault 0 (poisonHit d d)
    | none =>
      if !bytesExist dpa bs.length then s
      else
        let s : State := { s with mem := devStore s.mem dpa bs }
        s.logWrites (unitsOf true dpa bs.length)
          { ver := s.version, cell := wideAgent, rel := some (s.unitLink wideAgent 5) }

/-- Firmware copies a page into a frame of device memory (R416, step 2). -/
def fwCopy (s : State) (dst src n : Nat) : State :=
  if !s.fwUp || n = 0 then s
  else match s.badFrame src n with
    | some d => s.launchFault 0 (poisonHit d d)
    | none => s.fwStore dst (devLoad s.mem src n)

end State

/-- SENSOR_REFRESH (R330): the eight values of the sensor record. -/
def execSensorRefresh (vals : List W32) (s : State) : Res :=
  .next (s.modMgmt fun g => { g with sensors := (List.range 8).map fun k => vals.getD k 0 })

end Sys2Proof.Machine
end

