-- ==== Sys2Proof/Machine/HostPort.lean ====
section
/-! DEFINITION. The host link: its functions' base addresses (R323, R420), what the host and peer modules do in memory (R327), the link
down and up (R419, R420). -/
namespace Sys2Proof.Machine

namespace State

/-- The host programs BAR0 of function 0, or BAR2 of a function (R323, R420). -/
def programBar (s : State) (fn : Nat) (two : Bool) (base : W64) : State :=
  if !s.link || 64 ≤ fn || (!two && fn ≠ 0) then s
  else
    let f := Tbl.get {} s.pcie fn
    { s with pcie := Tbl.put s.pcie fn (if two then { f with bar2 := some base } else { f with bar0 := some base }) }

/-! ### What the host and peer modules do in memory (R327) -/

/-- Does the link of the host, or some port of the peer modules, carry an access? -/
def reaches (s : State) (peer : Bool) : Bool := if peer then s.ports ≠ 0 else s.link

/-- A write of the host or of a peer module; one that does not translate writes nothing (log 57). -/
def hostWrite (s : State) (peer : Bool) (asid addr : Nat) (bytes : List Byte) : State :=
  if s.reaches peer then (s.writeVirt (Issuer.plain asid) addr bytes).1 else s

/-- A FetchAdd, a PCIe AtomicOp where it is the host's: it walks no parked queue (R312). -/
def hostAdd (s : State) (peer : Bool) (asid addr n : Nat) : State :=
  if !s.reaches peer then s
  else match s.readVirt (Issuer.plain asid) addr 8 with
    | (s, .ok bs) => (s.writeVirt (Issuer.plain asid) addr (toBytes 8 (ofBytes bs + n))).1
    | (s, .error _) => s

/-- A claim in a copy queue by its header (R187, R327): a FetchAdd of 1 on WIDX, and the port that the header names is notified.
DESIGN CHOICE (log 57): with the claim, since the claimant's writes of the packet are accesses of their own; the port takes the packet
when its SEQ stands. -/
def hostClaim (s : State) (peer : Bool) (asid hdr : Nat) : State :=
  if !s.reaches peer then s
  else match s.readVirt (Issuer.plain asid) hdr 64 with
    | (s, .ok bs) =>
      (s.hostAdd peer asid hdr 1).notifyPort (qPort (wordsAt bs 8)) { hdr := nat64 hdr, path := 3, iss := Issuer.plain asid }
    | (s, .error _) => s

end State

/-! ### The host link (R419, R420) -/

/-- HOST_LINK_DOWN (R418, R419): accepted stores to home 9 are in flight; they are not performed, and their regions take class 0x0C
with cause 4. -/
def execHostLinkDown (s : State) : Res :=
  if !s.link then .next s
  else
    let lost (l : Late) : Bool := l.virt && vaHome l.addr == 9
    let t : State := { s with
      link := false, stores := s.stores.filter fun l => !lost l
      due := s.due ++ (s.stores.filter lost).map fun l =>
        { hit := { cls := 0x0C, cause := 4, faddr := l.addr }, iss := l.iss } }
    .next (t.sysEvent 1 0 0)

/-- HOST_LINK_UP (R420): the functions come up from their PCIe reset state, event 0x02 is written, then the front end reads every host
queue again. -/
def execHostLinkUp (s : State) : Res :=
  if s.link then .next s
  else
    let s := { s with link := true, pcie := [] }.sysEvent 2 0 0
    .next { s with queues := Tbl.mapV (fun _ q => if q.v then { q with rung := true } else q) s.queues }

end Sys2Proof.Machine
end

