-- ==== Sys2Proof/Machine/Inject.lean ====
section
/-! DEFINITION. Injection of a placed net (R304 step 4, R305 steps 3 to 6, R306), in the order of the power account's requests (R321). -/
namespace Sys2Proof.Machine

/-- Must a placement's request to the power account wait: the account has served one in this clock, or there is one of a lower die, of a
cell of its own die, or of an earlier placement there (R321)? The Orrery has no fabric address: that it comes after its die's
cells, and placements in the order of their bundles, is DESIGN CHOICE (log 22). -/
def State.placementWaits (s : State) (die n : Nat) : Bool :=
  s.account == s.clock + 1
  || (s.cells.any fun e => decide (cellDie e.1 ≤ die) && s.asksAccount e.1)
  || s.placementAsks.any fun p => decide (p.1 < die) || (p.1 == die && decide (p.2.1 < n))

/-- NET_INJECT (R304 step 4, R305 steps 3 to 6, R306): with the quanta free, the net is mapped, which the Orrery may not achieve
within its bound (cause 0x4), and loaded; once the bundle's preloads and copies are accepted, the instance takes its number, its
quanta, which the power account gives it in its turn (R321), and its initial marking; word 6 of its record is written with a release. -/
def execNetInject (k rec : Nat) (s : State) : Res :=
  match s.bundleAt k, Tbl.find s.nets (tempNet k rec) with
  | some b, some x =>
    let m := readImg x.image
    if s.mgmt.held || !s.quantaCover m.quanta then .next s
    else match b.stages[rec]? with
    | some (.granted l) =>
      let (i, s) := s.takeFree
      .next (if Config.freeBool i then s.failBundle k rec 0x15 4 0 else s.placeNet k rec b l x m)
    | _ =>
    if !s.bundleAccepted b k || (m.quanta ≠ 0 && s.placementWaits x.die (8 * k + rec)) then .next s
    else match s.freeNetid with
      | none => .next s
      | some net =>
        let s : State := { s with
          nets := Tbl.put (Tbl.del s.nets (tempNet k rec)) net { x with quanta := m.quanta }
          account := if m.quanta = 0 then s.account else s.clock + 1 }
        let s := (State.netCells x).foldl (fun s e => s.injectMarking m x.args net e.1 e.2) (s.renameTokens (tempNet k rec) net)
        let s := x.sectors.foldl (fun s c => s.modSector c fun y => { y with use := .running net }) s
        let s := match s.releaseVirt (State.Issuer.plain b.asid) (stepAddr b.body.toNat 64 rec + 48) (toBytes 8 net) 5 with
          | (s, .ok ()) => s
          | (s, .error h) => s.launchFault b.asid h
        .next (s.setStage k rec (.injected net))
  | _, _ => .next s

end Sys2Proof.Machine
end

