-- ==== Sys2Proof/Machine/Registers.lean ====
section
/-! DEFINITION. Firmware's writes: windows of the map (R91 to R95, R129, R277), tables and registers of the configuration
window (R28, R102, R104, R115, R301, R314, R332, R334, R335, R384, R397, R399, R404, R421). -/
namespace Sys2Proof.Machine

/-! ### Windows (R91 to R95, R129) -/

namespace State

/-- A class that a firmware access meets: a record that names the unit; no firing and no region issued it (log 26). -/
def fwHit (s : State) (a : Nat) (h : Hit) : State :=
  s.report { hit := h, iss := { net := 2 ^ 32 }, loc := a / 2 ^ 32 * 2 ^ 32, quiet := true }

/-- A firmware write on chip, with the rights of firmware (R91). -/
def fwWrite (s : State) (a : Nat) (bs : List Byte) : State :=
  match winHit true true a bs.length with
  | some h => s.fwHit a h
  | none => match s.fabWrite a bs with
    | (s, none) => s
    | (s, some h) => s.fwHit a h

/-- An eight-byte write. -/
def fwWrite8 (s : State) (a : Nat) (w : W64) : State := s.fwWrite a (toBytes 8 w.toNat)

end State

/-- The address of an offset in a window of a unit of a sector. -/
def unitAddr (sector unit win off : Nat) : Nat := sector * 2 ^ 38 + unit * 2 ^ 32 + win * 2 ^ 16 + off % 2 ^ 16
def cellWin (cell win off : Nat) : Nat := cellAddr cell + win * 2 ^ 16 + off % 2 ^ 16

/-- PLACE_ENTRY_WRITE (R93). -/
def execPlaceEntryWrite (cell place : Nat) (value : W64) (s : State) : Res :=
  .next (if place < 256 then s.fwWrite8 (cellWin cell 2 (8 * place)) value else s)

/-- WORD_STORE_WRITE (R93). -/
def execWordStoreWrite (cell place slot : Nat) (value : W64) (s : State) : Res :=
  .next (if place < 256 && slot < 4 then s.fwWrite8 (cellWin cell 2 (0x1000 + 32 * place + 8 * slot)) value else s)

/-- LOADED_RECORD_WRITE (R129): eight bytes of a transition's record, from an offset in its slot. -/
def execLoadedRecordWrite (cell t off : Nat) (value : W64) (s : State) : Res :=
  .next (if t < 64 && off < 512 then s.fwWrite8 (cellWin cell 3 (0x8000 + 512 * t + off)) value else s)

/-- TRANSITION_STATE_WRITE (R53, R129): ARMED is the one writable field, and setting it checks the record. -/
def execTransitionStateWrite (cell t : Nat) (value : W64) (s : State) : Res :=
  .next (if t < 64 then s.fwWrite8 (cellWin cell 3 (8 * t)) value else s)

/-- REGISTER_WINDOW_WRITE (R93, R95): a write through window 0x0001 reaches a cell's register. -/
def execRegisterWindowWrite (cell off : Nat) (data : List Byte) (s : State) : Res :=
  .next (s.fwWrite (cellWin cell 1 off) data)

/-- QUEUE_COUNTER_WRITE (R277). -/
def execQueueCounterWrite (sector off : Nat) (value : W64) (s : State) : Res :=
  .next (if 0x800 ≤ off && off < 0x820 then s.fwWrite8 (unitAddr sector 51 0x40 off) value else s)

/-! ### Translation and quarantine (R102, R104, R115) -/

/-- RANGE_TABLE_WRITE (R102): every owner's copy takes the entry; reserved bits stay 0. -/
def execRangeTableWrite (n : Nat) (value : BitVec 128) (s : State) : Res :=
  if 48 ≤ n then .next s
  else .next { s with range := Tbl.put s.range n (value &&& 0xFFF80000FFFFFFFFFFFFFFFFFFFFFFFF) }

/-- TLB_INVALIDATE (R104): an owner's TLB drops what it holds for a page of an address space. -/
def execTlbInvalidate (owner asid : Nat) (va : W64) (s : State) : Res :=
  .next (s.acquireAll.modOwner owner fun o => { o with tlb := o.tlb.filter fun e => !e.covers asid va.toNat })

/-- QUARANTINE_ENQUEUE (R114, R115). -/
def execQuarantineEnqueue (owner : Nat) (value : W64) (s : State) : Res :=
  if 10 ≤ owner then .next s
  else if 1024 ≤ (s.ownerAt owner).qenq.length then .next (s.modOwner owner fun o => { o with full := true })
  else
    let q : Quar := { page := value &&& 0x007FFFFFFFFF0000, tag := s.qcur }
    let s := s.modOwner owner fun o => { o with qenq := o.qenq ++ [q], full := false }
    .next { s with qcur := (s.qcur + 1) % 2 ^ 64 }

/-- QUARANTINE_RELEASE (R115): the oldest entry goes to the release ring once `cr.qdone` has reached its tag. -/
def execQuarantineRelease (owner : Nat) (s : State) : Res :=
  match (s.ownerAt owner).qenq with
  | [] => .next s
  | q :: rest =>
    if s.qdone < q.tag then .next s
    else .next (s.modOwner owner fun o => { o with qenq := rest, rel := o.rel ++ [q.page], full := false })

/-! ### Registers of the configuration window -/

/-- HANDLE_TABLE_BASE_WRITE (R335): `cr.htbase` or `cr.htlen`, and every base die drops its cached entries. -/
def execHandleTableBaseWrite (isLen : Bool) (value : W64) (s : State) : Res :=
  let s : State := { s with owners := Tbl.mapV (fun _ o => { o with hcache := [] }) s.owners }
  .next (if isLen then { s with htlen := value &&& 0x1FFFFF } else { s with htbase := value &&& 0x01FFFFFFFFFFFFE0 })

/-- The software's write to a ring's index register (R334): RIDX, and LOST cleared by a 0. -/
def RingIdx.write (x : RingIdx) (v : W64) : RingIdx :=
  { x with ridx := fld v 39 16, lost := if fld v 15 0 = 0 then 0 else x.lost }

/-- RECORD_RING_INDEX_WRITE (R334): ring 0 is the host's fault ring, ring `d` + 1 the reclamation ring of die `d`. -/
def execRecordRingIndexWrite (ring : Nat) (value : W64) (s : State) : Res :=
  match ring with
  | 0 => .next { s with fidx := s.fidx.write value }
  | d + 1 => .next (if d < 4 then s.modDie d fun x => { x with ridx := x.ridx.write value } else s)

/-- A physical queue entry written (R301): PARKED and NEXTPQ are read-only. -/
def PhysQ.write (q : PhysQ) (v : BitVec 256) : PhysQ :=
  { q with v := v.getLsbD 255, vm := fld v 254 249, asid := fld v 248 237, prio := fld v 236 235, tslot := fld v 234 229
           log2n := fld v 228 225, hdr := nat64 (fld v 191 134 * 64), arr := nat64 (fld v 127 70 * 64) }

/-- A tenant slot written (R314). -/
def tenantOf (v : BitVec 256) : Tenant :=
  { v := v.getLsbD 127, asid := fld v 126 115, target := fld v 114 107, recv := fld v 47 0 }

/-- REGISTER_WRITE (R91 to R93, R335): a register or window entry without a behaviour of its own takes the value;
reserved and read-only fields stand. -/
def execRegisterWrite (r : RegName) (value : BitVec 256) (s : State) : Res :=
  let v : W64 := value.setWidth 64
  match r with
  | .cellCr cell k => .next (s.fwWrite8 (cellWin cell 4 (8 * k)) v)
  | .shadow cell slot off => .next (s.fwWrite8 (cellWin cell (5 + slot % 2) off) v)
  | .ladder sector off => .next (s.fwWrite8 (unitAddr sector 49 0x20 off) v)
  | .future sector off => .next (s.fwWrite8 (unitAddr sector 50 0x30 off) v)
  | .queueEntry sector off => .next (s.fwWrite8 (unitAddr sector 51 0x40 off) v)
  | .port sector off => .next (s.fwWrite8 (unitAddr sector 52 0x50 off) v)
  | .asidbase owner =>
    .next (if owner < 10 then s.modOwner owner fun o => { o with asidbase := v &&& 0x01FFFFFFFFFF8000 } else s)
  | .dbtab n word =>
    .next (if n < 64 && word < 2 then
      { s with dbtab := Tbl.put s.dbtab (2 * n + word) (v &&& (if word = 0 then 0x01FFFFFFFFFF007F else 0x01FFFFFFFFFF1FFF)) }
      else s)
  | .ltab => .next { s with ltab := v &&& 0x01FFFFFFFFFF8000 }
  | .commtab => .next { s with commtab := v &&& 0x01FFFFFFFFE00000 }
  | .netcfg => .next { s with netcfg := v &&& 0xFFFF000000000000 }
  | .rpool die => .next (if die < 4 then s.modDie die fun d => { d with rpool := v &&& 0xFFFFFFFFFFFFF000 } else s)
  | .fring => .next { s with fring := v &&& 0xFFFFFFFFFFFFF01F }
  | .rring die => .next (if die < 4 then s.modDie die fun d => { d with rring := v &&& 0xFFFFFFFFFFFFF01F } else s)
  | .zspill die => .next (if die < 4 then s.modDie die fun d => { d with zspill := v } else s)
  | .alog die =>
    .next (if die < 4 then s.modDie die fun d =>
      { d with alog := (v &&& 0xFFFFFFFFFFFF8000) ||| (v &&& d.alog &&& 0x4000) } else s)
  | .poison owner n =>
    .next (if owner < 9 && n < 256 then s.modOwner owner fun o =>
      { o with poison := Tbl.put o.poison n (v &&& 0x8000001FFFFFFFFF) } else s)
  | .imagePolicy asid =>
    .next (if asid < 4096 then s.modMgmt fun g => { g with policy := Tbl.put g.policy asid (v &&& 0x80FF000000000000) } else s)
  | .keyDigest n high =>
    .next (if n < 256 then s.modMgmt fun g =>
      let old := Tbl.get 0 g.keys n
      let lo : BitVec 256 := if high then old.setWidth 256 else value
      let hi : BitVec 256 := if high then value else (old >>> 256).setWidth 256
      { g with keys := Tbl.put g.keys n (hi ++ lo) } else s)
  | .tenantSlot die n =>
    .next (if die < 4 && n < 64 then s.modDie die fun d => { d with tenants := Tbl.put d.tenants n (tenantOf value) } else s)
  | .clearReceived die =>
    .next (if die < 4 then s.modDie die fun d =>
      { d with total := 0, tenants := Tbl.mapV (fun _ t => { t with recv := 0 }) d.tenants } else s)
  | .physQueue n =>
    .next (if n < 4096 then { s with queues := Tbl.put s.queues n ((Tbl.get {} s.queues n).write value) } else s)
  | .mwdogPeriod => .next (s.writeWatchdog (v &&& 0xFFFF000000000000))
  | .liveAsid => .next (if v.toNat ≤ s.asids then { s with asids := v.toNat } else s)

/-- ECCSTAT_CLEAR (R399): a write to `cr.eccstat` of a compute die or a base die clears CECNT and UECNT. -/
def execEccstatClear (die : Bool) (n : Nat) (s : State) : Res :=
  .next (if die then (if n < 4 then s.modDie n fun d => { d with cecnt := 0, uecnt := 0 } else s)
    else if n < 8 then s.modOwner n fun o => { o with cecnt := 0, uecnt := 0 } else s)

end Sys2Proof.Machine
end

