-- ==== Sys2Proof/Machine/Service.lean ====
section
/-! DEFINITION. Service of frozen engines (R392 to R394), timeouts (R402), soft errors (R399, R400), replay (R405), the
Zugzwang detector (R381 to R384). -/
namespace Sys2Proof.Machine

/-! ### Engines by name (R393) -/

namespace State

def engState (s : State) : EngineId → EngFault
  | .port k => (s.sectorAt k).port.f
  | .stream o n => s.engFault o n
  | .lane o n => s.engFault o (128 + n)
  | .walker n => s.engFault 8 n
  | .queue k => (s.sectorAt k).qfault

def setEngState (s : State) (e : EngineId) (f : EngFault) : State :=
  match e with
  | .port k => s.modPort k fun p => { p with f := f, whose := if f.frozen then p.whose else none }
  | .stream o n => s.setEngFault o n f
  | .lane o n => s.setEngFault o (128 + n) f
  | .walker n => s.setEngFault 8 n f
  | .queue k => s.modSector k fun x => { x with qfault := f }

/-- The engine goes on. -/
def thaw (s : State) (e : EngineId) : State := s.setEngState e { s.engState e with frozen := false, age := 0 }

/-- The address of an engine's fault state (R391, R393; log 24). -/
def engAddr : EngineId → Nat
  | .port k => unitAddr k 52 0x50 0
  | .stream o n => Config.faultTable true o + 32 * n
  | .lane o n => Config.faultTable true o + 32 * (128 + n)
  | .walker n => Config.faultTable true 8 + 32 * n
  | .queue k => Config.faultTable false (sectorDie k) + 32 * sectorIx k

/-! ### Abort (R394) -/

/-- A spill write is aborted: SWR stands, and what its record holds in memory is open, now or once its page translates. -/
def loseSpill (s : State) (k i : Nat) (iss : Issuer) : State :=
  match s.tearSpill k i iss with
  | (s, .ok ()) => s
  | (s, .error _) => s.modSqueue k fun q => { q with torn := i % 2 ^ 32 :: q.torn }

/-- A firing of a cell in whichever context holds it: the net instance and the firing. -/
def findFiring (s : State) (cell fid : Nat) (p : Firing → Bool) : Option (Ctx × Firing) :=
  let at' (c : Ctx) : Option (Ctx × Firing) := if c.valid then (c.busy.find? fun f => f.id == fid && p f).map fun f => (c, f) else none
  let x := s.cellAt cell
  (at' x.run).orElse fun _ => (at' x.sh0).orElse fun _ => (at' x.sh1).orElse fun _ =>
    (s.saves.filter fun e => e.1 / 4096 == cell).findSome? fun e => at' e.2

/-- Whose command reads (R395), and the source of its records (R373). -/
def readerIssuer (s : State) : Reader → Option (Nat × Issuer)
  | .firing cell fid => (s.findFiring cell fid (fun _ => true)).map fun x => (0, issuerOf cell x.1 x.2)
  | .packet k n => ((s.sectorAt k).port.jobs[n]?).map fun j => (2, j.iss)
  | .stream o n => (Tbl.find (s.ownerAt o).streams n).map fun x => (2, x.iss)
  | .lane o n => (Tbl.find (s.ownerAt o).lanes n).map fun j => (4, j.iss)
  | .walker n => (Tbl.find (s.ownerAt 8).walkers n).map fun x => (4, x.iss)
  | .node k => (s.node k).queue.head?.map fun x => (1, x.iss)
  | .ladder k l n => ((s.ladder k l).pend[n]?).map fun p => (3, p.iss)

/-- A unit's command ends without its release, credit, addition to SIG or token, and its region learns of it (R394, R402). -/
def endReader (s : State) (r : Reader) (h : Hit) : State :=
  match r with
  | .firing _ _ => s
  | .packet k n => match (s.sectorAt k).port.jobs[n]? with
    | some j =>
      let s := ((s.showJob k j).modPort k fun p => { p with jobs := p.jobs.eraseIdx n }).closePost j.q j.idx
      s.report { hit := h, src := 2, iss := j.iss, port0 := (s.portWords k).1, port1 := (s.portWords k).2
                 loc := k * 2 ^ 38 + 52 * 2 ^ 32 }
    | none => s
  | .stream o n => match Tbl.find (s.ownerAt o).streams n with
    | some x => (s.freeStream o n).report { hit := h, src := 2, iss := x.iss, port0 := x.tile, port1 := x.row }
    | none => s
  | .lane o n => match Tbl.find (s.ownerAt o).lanes n with
    | some j => (s.freeLaneJob o n).report { hit := h, src := 4, iss := j.iss, port0 := j.pos }
    | none => s
  | .walker n => match Tbl.find (s.ownerAt 8).walkers n with
    | some x => (s.modOwner 8 fun o => { o with walkers := Tbl.del o.walkers n }).report
        { hit := h, src := 4, iss := x.iss, port0 := x.hops }
    | none => s
  | .node k => match (s.node k).queue with
    | x :: _ =>
      let s := (s.dropToken k 0).nodeFault x h
      if (productOf x.instr).isSome then s.modNode k fun n => { n with heavy := false } else s
    | [] => s
  | .ladder k l n =>
    let x := s.ladder k l
    match x.pend[n]? with
    | some p => (s.setLadder k l { x with pend := x.pend.eraseIdx n, done := p.step, busy := if n = 0 then 0 else x.busy }).report
        { hit := h, src := 3, iss := p.iss }
    | none => s

/-- The stopped command of an engine ends; its region learns of it with a cause of class 0x0C. -/
def abortEngine (s : State) (e : EngineId) (cause aux : Nat) : State :=
  let h : Hit := { cls := 0x0C, cause := cause, faddr := engAddr e, aux := aux }
  match e with
  | .port k =>
    let p := (s.sectorAt k).port
    let p0 := p.pidx.toNat
    let p1 := (s.portWords k).2
    let s := s.thaw e
    match p.whose with
    | some i => s.endNamed 2 i h p0 p1
    | none => match p.jobs.findIdx? fun j => j.q.hdr == p.qaddr && BitVec.ofNat 64 j.idx == p.pidx with
      | some n => s.endReader (.packet k n) h
      | none => match p.queues.find? fun q => q.hdr == p.qaddr with
        | some q =>
          let idx := match s.engRead q.iss q.engPath q.hdr.toNat 64 with
            | (_, .ok bs) => some (qRidx (wordsAt bs 8))
            | (_, .error _) => none
          (s.skipPacket k q idx).report { hit := h, src := 2, iss := packetIssuer q (s.fetched k q idx), port0 := p0, port1 := p1
                                          loc := k * 2 ^ 38 + 52 * 2 ^ 32 }
        | none => s
  | .stream o n => (s.thaw e).endReader (.stream o n) h
  | .lane o n => (s.thaw e).endReader (.lane o n) h
  | .walker n => (s.thaw e).endReader (.walker n) h
  | .queue k =>
    let q := s.squeue k
    let s := s.thaw e
    match q.spill with
    | (i, _, iss) :: rest =>
      ((s.loseSpill k i iss).report { hit := h, src := 3, iss := iss, loc := queueUnit k }).spillOut k rest
    | [] => (s.modSqueue k fun q => { q with qcnt := q.qcnt - q.infl, infl := 0 }).report
        { hit := h, src := 3, iss := s.sectorIssuer k, loc := queueUnit k }

end State

/-- ENGINE_RESUME (R394): firmware writes 0 to FROZEN; a queue's waiting spill writes are tried again. -/
def execEngineResume (e : EngineId) (s : State) : Res :=
  if !(s.engState e).frozen || !s.fwUp then .next s
  else match e with
    | .queue k => .next ((s.thaw e).spillOut k (s.squeue k).spill)
    | _ => .next (s.thaw e)

/-- ENGINE_ABORT (R394): firmware writes the engine's address to `cr.eabort`. -/
def execEngineAbort (e : EngineId) (s : State) : Res :=
  if !(s.engState e).frozen || !s.fwUp then .next s else .next (s.abortEngine e 3 0)

/-- FROZEN_ENGINE_TIMEOUT (R402): an engine frozen for 2^28 clocks is aborted. -/
def execFrozenEngineTimeout (e : EngineId) (s : State) : Res :=
  let f := s.engState e
  if !f.frozen || f.age < 2 ^ 28 then .next s else .next (s.abortEngine e 2 f.age)

/-! ### Requests without a reply (R402) -/

namespace State

/-- Does a port withhold the claim or the packet of a firing's `cpy.post` (R392)? -/
def postWithheld (s : State) (cell fid : Nat) : Bool :=
  (s.withheld (cellSector cell)).any fun w => w.1 == cell && w.2.2 == fid

/-- Has a firing's request had no reply for 2^22 clocks (R402)? -/
def overdue (s : State) (cell : Nat) (f : Firing) : Bool :=
  (match f.wait with
   | some i => (i.accesses && !f.queued) || s.postWithheld cell f.id
   | none => false) && decide (2 ^ 22 ≤ f.age)

end State

/-- REQUEST_TIMEOUT (R402): a request without a reply for 2^22 clocks, those of a frozen port not counted, is over. -/
def execRequestTimeout (cell fid : Nat) (s : State) : Res :=
  match s.findFiring cell fid (s.overdue cell) with
  | none => .next s
  | some (c, f) => .next (s.endNamed 0 (State.issuerOf cell c f) { cls := 0x0C, cause := 1, faddr := f.addr, aux := f.age } 0 0)

/-! ### Soft errors (R397, R399, R400) -/

namespace State

/-- The `cr.eccstat` of the compute die or base die that holds the structure of a code, whose address is given (R399). -/
def countError (s : State) (code : Nat) (corrected : Bool) (addr : Nat) : State :=
  let ce (n : Nat) : Nat := if corrected then min (n + 1) (2 ^ 32 - 1) else n
  let ue (n : Nat) : Nat := if corrected then n else min (n + 1) 0xFFFF
  if code ≤ 7 then
    s.modDie (cellDie (faCell addr)) fun d => { d with cecnt := ce d.cecnt, uecnt := ue d.uecnt, last := if corrected then d.last else code }
  else
    let o := (vaOwner addr).getD 8
    if 8 ≤ o then s
    else s.modOwner o fun d => { d with cecnt := ce d.cecnt, uecnt := ue d.uecnt, last := if corrected then d.last else code }

/-- The frame of a DPA enters its owner's poison table (R397); none where the table is full. -/
def poisonFrame (s : State) (dpa : Nat) : Option State :=
  let o := (vaOwner dpa).getD 8
  let t := (s.ownerAt o).poison
  if s.poisoned dpa then some s
  else ((List.range 256).find? fun i => !(Tbl.get 0 t i).getLsbD 63).map fun i =>
    s.modOwner o fun x => { x with poison := Tbl.put x.poison i (nat64 (2 ^ 63 + dpa / 2 ^ 16 % 2 ^ 37)) }

/-- Class 0x13 (R391, R400). -/
def softHit (code addr : Nat) : Hit := { cls := 0x13, faddr := addr, aux := code % 256 * 2 ^ 56 }

/-- An owner drops the entry of code 0x08 that a number names, of its TLB or of its handle-table cache, and fetches it again; a
range-table copy that it fetches again is as before (R400). -/
def dropCached (s : State) (o k : Nat) : State :=
  s.modOwner o fun x =>
    let n := x.tlb.length
    let j := k % (n + x.hcache.length + 48)
    if j < n then { x with tlb := x.tlb.eraseIdx j } else { x with hcache := x.hcache.eraseIdx (j - n) }

/-- The reading firing of another region gets nothing: it waits in its access, which is never performed, until that times out
(R400, R402). -/
def loseRead (s : State) (cell fid addr : Nat) : State :=
  let lose (c : Ctx) (f : Firing) : Firing :=
    let issued := ((recInstrs (c.tr f.trans).record).find? fun e => e.1 == f.woff).map (·.2)
    match f.wait.orElse fun _ => issued with
    | some i =>
      if i.accesses then { f with wait := some i, lost := true, queued := false, addr := if f.wait.isSome then f.addr else addr }
      else f
    | none => f
  s.modSlot cell 0 fun c => { c with firings := c.firings.map fun f => if f.id = fid && !f.ended then lose c f else f }

/-- What a unit reads returns nothing: its command goes no further, until that times out. -/
def loseUnit (s : State) (r : Reader) (addr : Nat) : State :=
  let l : Option Lost := some { addr := addr }
  match r with
  | .firing cell fid => s.loseRead cell fid addr
  | .packet k n => s.modPort k fun p => { p with jobs := p.jobs.zipIdx.map fun j => if j.2 = n then { j.1 with lost := l } else j.1 }
  | .stream o n => s.modOwner o fun x => { x with streams := Tbl.mapV (fun k y => if k = n then { y with lost := l } else y) x.streams }
  | .lane o n => s.modOwner o fun x => { x with lanes := Tbl.mapV (fun k y => if k = n then { y with lost := l } else y) x.lanes }
  | .walker n => s.modOwner 8 fun x => { x with walkers := Tbl.mapV (fun k y => if k = n then { y with lost := l } else y) x.walkers }
  | .node k => s.modNode k fun n => { n with queue := match n.queue with
      | x :: xs => { x with lost := l } :: xs
      | [] => [] }
  | .ladder k m n =>
    let x := s.ladder k m
    s.setLadder k m { x with pend := x.pend.zipIdx.map fun p => if p.2 = n then { p.1 with lost := l } else p.1 }

/-- An uncorrectable error that `r` finds in a structure that a region holds: the region's class, in the reading firing where it is of the
region; another reader gets nothing (R400). -/
def strike (s : State) (r : Reader) (net asid : Nat) (h : Hit) (addr : Nat) : State :=
  let told (s : State) : State := s.report { hit := h, iss := { net := net, asid := asid }, loc := addr % 2 ^ 48 / 2 ^ 32 * 2 ^ 32 }
  match r with
  | .firing cell fid => match s.findFiring cell fid (fun _ => true) with
    | some (c, f) => if c.net = net then s.endNamed 0 (issuerOf cell c f) h 0 0 else told (s.loseRead cell fid addr)
    | none => told s
  | r => told (s.loseUnit r addr)

/-- A soft error that a read finds; `addr` is the address of the failing unit, or with code 0x08 one whose owner holds the entry. A
corrected error changes no result. An uncorrectable one in the structures 0x01 to 0x07 freezes the region that holds the structure,
and the read returns nothing; in memory it poisons its frame, or where the table is full freezes the reader's region (R397). -/
def softError (s : State) (r : Reader) (code : Nat) (corrected : Bool) (addr : Nat) : State :=
  if code = 0 || 10 < code then s
  else
    let corrected := corrected || code == 8
    let s := s.countError code corrected addr
    if corrected then (if code = 8 then s.dropCached ((vaOwner addr).getD 8) (addr % 2 ^ 32) else s)
    else
      let h := softHit code addr
      let reader (s : State) : State := match r, s.readerIssuer r with
        | .firing _ _, some (_, i) => s.endNamed 0 i h 0 0
        | r, some (src, i) => (s.loseUnit r addr).report { hit := h, src := src, iss := i }
        | _, none => s
      if code ≤ 7 then
        let held : Option Ctx := if code = 5 then
            (if faWin addr = 6 then some (s.cellAt (faCell addr)).sh1 else some (s.cellAt (faCell addr)).sh0)
          else none
        match held with
        | some c => s.strike r c.net c.asid h addr
        | none => match s.regionOf (faSector addr) with
          | some n => s.strike r n (((Tbl.find s.nets n).map fun x => x.asid).getD 0) h addr
          | none => reader s
      else match s.poisonFrame addr with
        | some s => s
        | none => reader s

end State

/-! ### Replay (R405) -/

namespace State

/-- Is a replay refused: the task is over, its GEN differs, R404 forbids it, or the instance does not run its template? -/
def replayBad (s : State) (die k gen net : Nat) : Bool :=
  let t := s.taskAt die k
  !t.v || t.capt.isSome || t.st ≥ 3 || t.gen % 4096 ≠ gen || t.ovf || (match Tbl.find s.nets net with
    | some n => n.die ≠ die || n.done || n.halted.isSome || n.frozen.isSome || decide (n.templs ≤ t.tmpl)
    | none => true)

/-- A replay that GO asks for: refused, or dispatched to an idle instance with new fresh tiles; it waits for them. -/
def tryReplay (s : State) (die : Nat) : State :=
  let d := s.dieAt die
  if !d.rpGo then s
  else
    let k := d.rpTid % 4096
    let ended (s : State) (err : Bool) : State := s.modDie die fun d => { d with rpGo := false, rpErr := err }
    if s.replayBad die k (d.rpTid / 4096) d.rpNet then ended s true
    else
      let s' := s.modTask die k fun t => { t with fresh := [] }
      match s.idleInst d.rpNet (s.taskAt die k).tmpl, s'.poolFree die (s.taskAt die k).writes.length with
      | some i, some tiles =>
        ended ((s'.dispatchTo die k d.rpNet i tiles).modTask die k fun t => { t with replay := true, doneRq := false }) false
      | _, _ => s

/-- `cr.replay` as it reads. -/
def replayWord (s : State) (die : Nat) : W64 :=
  let d := s.dieAt die
  nat64 (d.rpGo.toNat * 2 ^ 63 + d.rpErr.toNat * 2 ^ 62 + d.rpNet % 4096 * 2 ^ 36 + d.rpTid % 2 ^ 24)

end State

/-- TASK_REPLAY (R405): firmware writes `cr.replay` of a die. -/
def execTaskReplay (die : Nat) (value : W64) (s : State) : Res :=
  if 4 ≤ die then .next s
  else
    let s := s.modDie die fun d => { d with rpNet := fld value 47 36, rpTid := fld value 23 0, rpGo := d.rpGo || value.getLsbD 63 }
    .next (s.tryReplay die)

/-! ### The Zugzwang detector (R381 to R384) -/

namespace State

/-- Does a stream wait for its ring (R381)? -/
def streamWaits (s : State) (o n : Nat) (x : Stream) : Bool :=
  !(s.engFault o n).frozen && !s.hasTicket x

/-- Does a walker wait for its ring? -/
def walkWaits (s : State) (n : Nat) (x : Walk) : Bool :=
  let h := s.ringHead (wdRing x.desc)
  !(s.engFault 8 n).frozen && x.done && decide (rN h ≤ diff32 (wdTicket x.desc) (rRcnt h))

/-- Does a node wait, with a region drain at the head of its queue, for another member? -/
def nodeWaits (s : State) (net : Nat) (n : Node) : Bool :=
  match n.queue with
  | x :: _ => x.rg ≠ 0 && (s.regionDrains net x.rg).isNone
  | [] => false

/-- Does a collective operation wait: behind an earlier one of its communicator, or for a peer's chunk or credits (R381, R413)? -/
def collWaits (s : State) (k : Nat) : Bool :=
  match s.collTurn k with
  | none => true
  | some x => !s.collReady x && (!x.out.isEmpty || decide (x.got < x.want))

/-- Does a firing of a region in a running slot go on by itself: it may issue its next instruction or deposit? -/
def atWork (s : State) (net : Nat) : Bool :=
  s.cells.any fun e => e.2.run.valid && e.2.run.net == net && e.2.run.busy.any fun f =>
    let t := s.focus e.1 f.id
    !f.parked && (t.bodyDone || (t.unissued && t.decodesReady))

/-- Is something of a region outstanding (R381, items 1 to 5), or a firing of it at work? -/
def outstanding (s : State) (net : Nat) : Bool :=
  let p (i : Issuer) : Bool := i.net == net
  let k := ((Tbl.find s.nets net).map fun n => n.sectors).getD []
  s.flights.zipIdx.any (fun f => f.1.net == net && !s.heldBack f.2 f.1) || s.stores.any (fun l => p l.iss)
  || s.anyFiring net (fun _ => true) (fun f => match f.wait with
      | some i => i.accesses && !f.queued
      | none => false)
  || s.sectors.any (fun e => (s.withheld e.1).any fun w => w.2.1 == net)
  || s.atWork net
  || s.posts.any (fun x => p x.iss) || s.credits.any (fun x => p x.iss)
  || s.colls.zipIdx.any (fun x => p x.1.iss && !s.collWaits x.2)
  || s.owners.any (fun o => o.2.streams.any (fun x => p x.2.iss && !x.2.ended && !s.streamWaits o.1 x.1 x.2)
      || o.2.lanes.any (fun x => p x.2.iss) || o.2.walkers.any (fun x => p x.2.iss && !s.walkWaits x.1 x.2))
  || s.sectors.any (fun e => ((e.2.node.ports ++ e.2.node.queue).any (fun x => p x.iss) && !s.nodeWaits net e.2.node)
      || e.2.ladders.any (fun l => l.2.pend.any fun x => p x.iss)
      || (k.contains e.1 && (e.2.queue.infl ≠ 0 || !e.2.queue.spill.isEmpty)))
  || s.dies.any (fun d => d.2.tasks.any fun t => t.2.v && t.2.net == net && t.2.capt.isSome)
  || s.wheel.any (fun t => !t.word.getLsbD 48 && t.net == net)
  || s.cells.any fun c => k.contains (cellSector c.1) && (c.2.go || c.2.moving ≠ [])

/-- Do a region's contexts stand in running slots? -/
def inRunning (s : State) (net : Nat) (n : Net) : Bool :=
  (n.map ++ n.insts.flatMap fun i => i.cells).all fun c => (s.cellAt c).run.valid && (s.cellAt c).run.net == net

/-- Has the marking of a region changed in this clock, or can a cell of it select (R381)? -/
def stirs (s : State) (net : Nat) : Bool :=
  s.cells.any fun e => e.2.run.valid && e.2.run.net == net
    && (e.2.run.touched == s.clock + 1 || (s.canSelect e.1 && e.2.run.pick.isSome))

/-- The idle count of a region after some clocks (R381): the clock that ends, and those between, are idle or not. -/
def idleAfter (s : State) (net : Nat) (n : Net) (clocks : Nat) : Nat :=
  if !s.inRunning net n || n.done then n.idle
  else if s.outstanding net || s.stirs net then 0
  else if n.active = s.clock + 1 then clocks - 1
  else n.idle + clocks

/-- Does a valid entry of the launch table name the instance for task launches (R313, R381)? -/
def launchable (s : State) (net : Nat) : Bool :=
  (List.range 4096).any fun t => let e := s.launchEntry t; e.getLsbD 63 && e.getLsbD 62 && fld e 49 38 == net

/-- The full data places of a region (R382): cell, place and capacity, in ascending address. -/
def fullPlaces (s : State) (net : Nat) : List (Nat × Nat × Nat) :=
  s.cells.flatMap fun e =>
    if !e.2.run.valid || e.2.run.net ≠ net then []
    else (e.2.run.places.filter fun p => p.2.isData && p.2.n == p.2.cap
        && (!p.2.entry.isEmpty || s.flights.any fun f => f.held && f.net == net && f.dst == e.1 && f.index == p.1)).map
      fun p => (e.1, p.1, p.2.cap)

/-- The one with the smallest capacity, the lowest address first. -/
def smallest : List (Nat × Nat × Nat) → Option (Nat × Nat × Nat)
  | [] => none
  | x :: xs => match smallest xs with
    | some y => if y.2.2 < x.2.2 then some y else some x
    | none => some x

/-- Units of 64 bytes that the extension of a capacity takes (R383). -/
def extUnits (cap : Nat) : Nat := (cap - 4 + 7) / 8

/-- Words in the extensions of a region. -/
def extWords (s : State) (net : Nat) : Nat :=
  (s.cells.map fun e => if e.2.run.valid && e.2.run.net == net then (e.2.run.places.map fun p => p.2.more.length).sum else 0).sum

/-- Class 0x0D of a region. -/
def stuck (s : State) (net cause faddr : Nat) : State :=
  let n : Net := (Tbl.find s.nets net).getD {}
  s.report { hit := { cls := 0x0D, cause := cause, faddr := faddr, aux := s.extWords net }, src := 5
             iss := { net := net, asid := n.asid }, loc := cellAddr (n.sectors.headD 0 * 64) }

end State

namespace State

/-- The contexts of a die's cells, in slots and save areas. -/
def dieCtxs (s : State) (die : Nat) : List Ctx :=
  (s.cells.flatMap fun e => if cellDie e.1 = die then [e.2.run, e.2.sh0, e.2.sh1] else [])
    ++ (s.saves.filter fun e => cellDie (e.1 / 4096) == die).map (·.2)

/-- The extents of the die's spill pool in use: their first unit and the unit after the last. -/
def poolExtents (s : State) (die : Nat) : List (Nat × Nat) :=
  (s.dieCtxs die).flatMap fun c => (c.places.filter fun p => p.2.ext).map fun p => (p.2.pool, p.2.pool + extUnits p.2.cap)

/-- The lowest unit from which `n` units of a pool are free. DESIGN CHOICE (log 60): the spec does not say where in the pool an
extension lies. -/
def poolSpace (es : List (Nat × Nat)) (n : Nat) : Nat :=
  ((0 :: es.map (·.2)).filter fun a => es.all fun e => decide (e.2 ≤ a) || decide (a + n ≤ e.1)).foldl
    (fun m a => match m with
      | none => some a
      | some b => some (min a b)) none |>.getD 0

/-- A region idle for 65,536 clocks is stuck (R382, R383), one that has halted and only completes apart: a full data place is
enlarged, or class 0x0D freezes the region. -/
def zugzwang (s : State) (net : Nat) : State :=
  match Tbl.find s.nets net with
  | none => s
  | some n =>
    let completes := n.halted.isSome && !s.netBusy net && !s.commandsOpen fun i => i.net == net
    if n.done || n.frozen.isSome || completes || n.idle < 65536 || !s.inRunning net n || s.outstanding net || s.launchable net
    then s
    else
      let declared (s : State) : State := s.modNet net fun n => { n with idle := 0 }
      match smallest (s.fullPlaces net) with
      | none => declared (s.stuck net 1 0)
      | some (cell, p, cap) =>
        let at' := cellAddr cell + 0x20000 + 8 * p
        let new := min (2 * cap) 4095
        let units := extUnits new - extUnits cap
        let z := (s.dieAt n.die).zspill
        let used := (s.nets.map fun e => if e.2.die = n.die then e.2.spill else 0).sum
        let log2sz := fld z 19 15
        if 4095 ≤ cap then declared (s.stuck net 3 at')
        else if fld z 14 0 < n.spill + units || log2sz = 0 || 2 ^ log2sz * 2 ^ 14 < used + units then declared (s.stuck net 2 at')
        else
          let s' := s.modSlot cell 0 fun c => c.setPlace p { c.place p with ext := false }
          let k := poolSpace (s'.poolExtents n.die) (extUnits new)
          if 2 ^ log2sz * 2 ^ 14 < k + extUnits new then declared (s.stuck net 2 at')
          else
          let s := s.modSlot cell 0 fun c =>
            { c.setPlace p { c.place p with cap := new, ext := true, pool := k } with touched := s.clock + 1 }
          declared (s.modNet net fun n => { n with spill := n.spill + units })

/-- The words of an extension as they stand in the die's spill pool (R383, R384). -/
def spillWords (s : State) (die : Nat) (p : Place) : State :=
  if !p.ext || p.more.isEmpty then s
  else (s.writeVirt (Issuer.plain Config.firmAsid) (fld (s.dieAt die).zspill 63 20 * 2 ^ 20 + 64 * p.pool) (wordBytes p.more)).1

/-- The extensions of every context, in a slot or a save area, stand in their pools. -/
def spillAll (s : State) : State :=
  [0, 1, 2, 3].foldl (fun t die => (s.dieCtxs die).foldl (fun t c => c.places.foldl (fun t p => t.spillWords die p.2) t) t) s

end State

/-- ZUGZWANG_DECLARE (R382, R383): the declaration, which comes with the clock after the count reaches 65,536 (`State.tick`). -/
def execZugzwangDeclare (net : Nat) (s : State) : Res := .next (s.zugzwang net)

end Sys2Proof.Machine
end

