-- ==== Sys2Proof/Machine/Scaleout.lean ====
section
/-! DEFINITION. Scale-out links and peer modules (R424, R425). Times are clocks of 2.0 GHz (R22). -/
namespace Sys2Proof.Machine

namespace State

/-- Is some port up? -/
def anyPort (s : State) : Bool := s.ports ≠ 0
end State

/-- RETRANSMIT_TIMEOUT (R424): a packet not acknowledged within 20 µs is sent again, up to 32 times. -/
def execRetransmitTimeout (k : Nat) (s : State) : Res :=
  match s.sending[k]? with
  | none => .next s
  | some x =>
    if s.clock < x.sent + 40000 || 32 ≤ x.tries || !s.anyPort then .next s
    else
      let (s, port) := s.anyOf s.upPorts
      .next { s with
        sending := s.sending.set k { x with port := port, tries := x.tries + 1, sent := s.clock }
        outbox := s.outbox ++ [.packet x.peer port (fld s.netcfg 63 48) x.vc x.num x.body] }

/-- PACKET_ACKNOWLEDGE (R424). -/
def execPacketAcknowledge (peer vc num : Nat) (s : State) : Res :=
  .next ({ s with sending := s.sending.filter fun x => !(x.peer == peer && x.vc == vc && x.num == num) }.hear peer)

/-- SCALEOUT_PORT_DOWN (R418, R424). -/
def execScaleoutPortDown (p : Nat) (s : State) : Res :=
  if 16 ≤ p || !s.ports.getLsbD p then .next s
  else .next ({ s with ports := s.ports &&& ~~~(1#16 <<< p) }.sysEvent 6 p 0)

/-- SCALEOUT_PORT_UP (R418, R424). -/
def execScaleoutPortUp (p : Nat) (s : State) : Res :=
  if 16 ≤ p || s.ports.getLsbD p then .next s
  else .next ({ s with ports := s.ports ||| (1#16 <<< p) }.sysEvent 7 p 0)

/-- HEARTBEAT_SEND (R424): to every peer in the communicators. -/
def execHeartbeatSend (s : State) : Res :=
  .next (if s.anyPort then { s with outbox := s.outbox ++ s.allPeers.map fun p => .heartbeat p } else s)

/-- HEARTBEAT_RECEIVE (R424): a peer that is not present is not heard. -/
def execHeartbeatReceive (peer : Nat) (s : State) : Res := .next (s.hear peer)

namespace State

/-- An operation of a lost peer's communicator whose last chunk has not landed ends: what its RECV holds is open (log 9),
and its region takes class 0x0C with cause 5 and freezes (R425). -/
def loseColl (s : State) (rank : Nat) (x : Coll) : State :=
  let n := if x.cop = 1 then x.seg else x.segs * x.seg
  let bs := (List.range n).map fun j => Config.freeByte (s.free + j)
  let s := ({ s with free := s.free + n }.writeVirt x.iss (cdRecv x.desc) bs).1
  s.report { hit := lostHit x.comm rank, src := 2, iss := x.iss }

/-- One communicator loses a peer (R425). -/
def loseComm (s : State) (peer c : Nat) : State :=
  let e := s.commEntry c
  match s.rankOf e (· == peer) with
  | none => s
  | some r =>
    let gone := s.colls.filter fun x => x.comm == c && decide (x.got < x.want)
    let s := { s with colls := s.colls.filter fun x => !(x.comm == c && decide (x.got < x.want)) }.setCommEntry c
      (BitVec.ofNat 256 (e.toNat % 2 ^ 255))
    gone.foldl (fun s x => s.loseColl r x) s

end State

/-- The clocks of 1 ms (R22, R424). -/
def lostAfter : Nat := 2000000

/-- PEER_LOST (R424, R425): event 0x05, then every communicator that names the module. The loss is that of a peer that sends a fatal
notice, or from which nothing arrives for 1 ms. -/
def execPeerLost (peer : PeerLoss) (s : State) : Res :=
  let quiet := !peer.notice
  let peer := peer.peer
  let cs := s.comms.filter fun c => (s.commNames c).contains peer
  if quiet && decide (s.clock < (s.peer peer).heard + lostAfter) then .next s
  else match cs with
  | [] => .next s
  | c :: _ =>
    let rank := (s.rankOf (s.commEntry c) (· == peer)).getD 0
    let s : State := { s with peers := Tbl.put s.peers peer { s.peer peer with lost := true }
                              sending := s.sending.filter fun x => x.peer ≠ peer }
    .next (cs.foldl (fun s c => s.loseComm peer c) (s.sysEvent 5 0 (rank % 2 ^ 10 * 2 ^ 54)))

/-- FATAL_NOTICE (R424): the notice on every port that is up, before the module resets for a fault in its I/O die or an
uncorrectable error that poisons no frame. -/
def execFatalNotice (s : State) : Res :=
  let notices : List Out := ((List.range 16).filter fun p => s.ports.getLsbD p).map fun p => .fatal p
  .next { s with outbox := s.outbox ++ notices }.restart

end Sys2Proof.Machine
end

