-- ==== Sys2Proof/Machine/Dispatch.lean ====
section
/-! DEFINITION. One arm for each row of the table of operations and events. -/
namespace Sys2Proof.Machine

def exec (i : Instr) (s : State) : Host.Outcome State Fault Refusal :=
  match i with
  | .firingSelect cell => Sys2Proof.Machine.execFiringSelect cell s
  | .firingDeposit cell fid => Sys2Proof.Machine.execFiringDeposit cell fid s
  | .tokenArrival k => Sys2Proof.Machine.execTokenArrival k s
  | .wordArrival k => Sys2Proof.Machine.execWordArrival k s
  | .heldWordDelivery k => Sys2Proof.Machine.execHeldWordDelivery k s
  | .entryWordJoin cell place => Sys2Proof.Machine.execEntryWordJoin cell place s
  | .netInstanceComplete net => Sys2Proof.Machine.execNetInstanceComplete net s
  | .scrubComplete net => Sys2Proof.Machine.execScrubComplete net s
  | .accessReply cell fid => Sys2Proof.Machine.execAccessReply cell fid s
  | .conditionWaitEnd cell fid => Sys2Proof.Machine.execConditionWaitEnd cell fid s
  | .emit rel scope a place count cell => Sys2Proof.Machine.execEmit rel scope a place count cell s
  | .emitW rel scope a place cell => Sys2Proof.Machine.execEmitW rel scope a place cell s
  | .take d place sb => Sys2Proof.Machine.execTake d place sb s
  | .mcount d place sb => Sys2Proof.Machine.execMcount d place sb s
  | .mset a place count => Sys2Proof.Machine.execMset a place count s
  | .arm t cell => Sys2Proof.Machine.execArm t cell s
  | .disarm t cell => Sys2Proof.Machine.execDisarm t cell s
  | .sel k => Sys2Proof.Machine.execSel k s
  | .selx a => Sys2Proof.Machine.execSelx a s
  | .safept => Sys2Proof.Machine.execSafept s
  | .halt => Sys2Proof.Machine.execHalt s
  | .trap k => Sys2Proof.Machine.execTrap k s
  | .nop => Sys2Proof.Machine.execNop s
  | .cfgLoad a off => Sys2Proof.Machine.execCfgLoad a off s
  | .csrr d reg sb => Sys2Proof.Machine.execCsrr d reg sb s
  | .csrw d a reg => Sys2Proof.Machine.execCsrw d a reg s
  | .csrs d a reg => Sys2Proof.Machine.execCsrs d a reg s
  | .csrc d a reg => Sys2Proof.Machine.execCsrc d a reg s
  | .add d a b sb => Sys2Proof.Machine.execAdd d a b sb s
  | .sub d a b sb => Sys2Proof.Machine.execSub d a b sb s
  | .mul d a b sb => Sys2Proof.Machine.execMul d a b sb s
  | .mulh d a b sb => Sys2Proof.Machine.execMulh d a b sb s
  | .mulhz d a b sb => Sys2Proof.Machine.execMulhz d a b sb s
  | .div d a b sb => Sys2Proof.Machine.execDiv d a b sb s
  | .divz d a b sb => Sys2Proof.Machine.execDivz d a b sb s
  | .rem d a b sb => Sys2Proof.Machine.execRem d a b sb s
  | .remz d a b sb => Sys2Proof.Machine.execRemz d a b sb s
  | .and d a b sb => Sys2Proof.Machine.execAnd d a b sb s
  | .or d a b sb => Sys2Proof.Machine.execOr d a b sb s
  | .xor d a b sb => Sys2Proof.Machine.execXor d a b sb s
  | .andn d a b sb => Sys2Proof.Machine.execAndn d a b sb s
  | .shl d a b sb => Sys2Proof.Machine.execShl d a b sb s
  | .shr d a b sb => Sys2Proof.Machine.execShr d a b sb s
  | .sra d a b sb => Sys2Proof.Machine.execSra d a b sb s
  | .rol d a b sb => Sys2Proof.Machine.execRol d a b sb s
  | .min d a b sb => Sys2Proof.Machine.execMin d a b sb s
  | .max d a b sb => Sys2Proof.Machine.execMax d a b sb s
  | .minz d a b sb => Sys2Proof.Machine.execMinz d a b sb s
  | .maxz d a b sb => Sys2Proof.Machine.execMaxz d a b sb s
  | .clz d a sb => Sys2Proof.Machine.execClz d a sb s
  | .ctz d a sb => Sys2Proof.Machine.execCtz d a sb s
  | .pop d a sb => Sys2Proof.Machine.execPop d a sb s
  | .mov d a sb => Sys2Proof.Machine.execMov d a sb s
  | .sext d a pos sb => Sys2Proof.Machine.execSext d a pos sb s
  | .zext d a pos sb => Sys2Proof.Machine.execZext d a pos sb s
  | .bext d a b sb => Sys2Proof.Machine.execBext d a b sb s
  | .bins d a b sb => Sys2Proof.Machine.execBins d a b sb s
  | .addr d a b sb => Sys2Proof.Machine.execAddr d a b sb s
  | .li d imm sb => Sys2Proof.Machine.execLi d imm sb s
  | .lih d imm sb => Sys2Proof.Machine.execLih d imm sb s
  | .addi d a imm sb => Sys2Proof.Machine.execAddi d a imm sb s
  | .andi d a imm sb => Sys2Proof.Machine.execAndi d a imm sb s
  | .ori d a imm sb => Sys2Proof.Machine.execOri d a imm sb s
  | .xori d a imm sb => Sys2Proof.Machine.execXori d a imm sb s
  | .shli d a n sb => Sys2Proof.Machine.execShli d a n sb s
  | .shri d a n sb => Sys2Proof.Machine.execShri d a n sb s
  | .srai d a n sb => Sys2Proof.Machine.execSrai d a n sb s
  | .ld tc d a sb off w => Sys2Proof.Machine.execLd tc d a sb off w s
  | .st tc d a off w => Sys2Proof.Machine.execSt tc d a off w s
  | .vld v a off w => Sys2Proof.Machine.execVld v a off w s
  | .vst v a off w => Sys2Proof.Machine.execVst v a off w s
  | .ldx tc d a b sb off w => Sys2Proof.Machine.execLdx tc d a b sb off w s
  | .stx tc d a b off w => Sys2Proof.Machine.execStx tc d a b off w s
  | .ldh d a b sb off w => Sys2Proof.Machine.execLdh d a b sb off w s
  | .aadd w64 d a b sb off w => Sys2Proof.Machine.execAadd w64 d a b sb off w s
  | .aand w64 d a b sb off w => Sys2Proof.Machine.execAand w64 d a b sb off w s
  | .aor w64 d a b sb off w => Sys2Proof.Machine.execAor w64 d a b sb off w s
  | .axor w64 d a b sb off w => Sys2Proof.Machine.execAxor w64 d a b sb off w s
  | .amin w64 d a b sb off w => Sys2Proof.Machine.execAmin w64 d a b sb off w s
  | .amax w64 d a b sb off w => Sys2Proof.Machine.execAmax w64 d a b sb off w s
  | .aminz w64 d a b sb off w => Sys2Proof.Machine.execAminz w64 d a b sb off w s
  | .amaxz w64 d a b sb off w => Sys2Proof.Machine.execAmaxz w64 d a b sb off w s
  | .axchg w64 d a b sb off w => Sys2Proof.Machine.execAxchg w64 d a b sb off w s
  | .acas w64 d a b sb off w => Sys2Proof.Machine.execAcas w64 d a b sb off w s
  | .afaddF32 d a b sb off w => Sys2Proof.Machine.execAfaddF32 d a b sb off w s
  | .afmaxF32 d a b sb off w => Sys2Proof.Machine.execAfmaxF32 d a b sb off w s
  | .fenceAcq w => Sys2Proof.Machine.execFenceAcq w s
  | .fenceRel w => Sys2Proof.Machine.execFenceRel w s
  | .fenceFull w => Sys2Proof.Machine.execFenceFull w s
  | .bar id n w => Sys2Proof.Machine.execBar id n w s
  | .cpyPost d a b off w => Sys2Proof.Machine.execCpyPost d a b off w s
  | .drain w => Sys2Proof.Machine.execDrain w s
  | .ringInit a b slotu nslotm1 base off w => Sys2Proof.Machine.execRingInit a b slotu nslotm1 base off w s
  | .ringAwait d a b off w => Sys2Proof.Machine.execRingAwait d a b off w s
  | .ringAwaitFree d a b off w => Sys2Proof.Machine.execRingAwaitFree d a b off w s
  | .ringRel a off w => Sys2Proof.Machine.execRingRel a off w s
  | .strSub d a off w => Sys2Proof.Machine.execStrSub d a off w s
  | .strUnsub d a w => Sys2Proof.Machine.execStrUnsub d a w s
  | .strRet a b off w => Sys2Proof.Machine.execStrRet a b off w s
  | .walkPost a off w => Sys2Proof.Machine.execWalkPost a off w s
  | .collPost d a off w => Sys2Proof.Machine.execCollPost d a off w s
  | .sigAdd d a b off w => Sys2Proof.Machine.execSigAdd d a b off w s
  | .copyPacketStart sector k => Sys2Proof.Machine.execCopyPacketStart sector k s
  | .copyPacketComplete sector k => Sys2Proof.Machine.execCopyPacketComplete sector k s
  | .ringCredit k => Sys2Proof.Machine.execRingCredit k s
  | .pushStreamTile span n => Sys2Proof.Machine.execPushStreamTile span n s
  | .pullStreamTile span n => Sys2Proof.Machine.execPullStreamTile span n s
  | .walkResultWrite n => Sys2Proof.Machine.execWalkResultWrite n s
  | .collectiveChunkSend k => Sys2Proof.Machine.execCollectiveChunkSend k s
  | .collectiveChunkLand k off data final => Sys2Proof.Machine.execCollectiveChunkLand k off data final s
  | .collectiveComplete k => Sys2Proof.Machine.execCollectiveComplete k s
  | .vadd v sb => Sys2Proof.Machine.execVadd v sb s
  | .vsub v sb => Sys2Proof.Machine.execVsub v sb s
  | .vmul v sb => Sys2Proof.Machine.execVmul v sb s
  | .vfma v sb => Sys2Proof.Machine.execVfma v sb s
  | .vfms v sb => Sys2Proof.Machine.execVfms v sb s
  | .vnfma v sb => Sys2Proof.Machine.execVnfma v sb s
  | .vmax v sb => Sys2Proof.Machine.execVmax v sb s
  | .vmin v sb => Sys2Proof.Machine.execVmin v sb s
  | .vabs v sb => Sys2Proof.Machine.execVabs v sb s
  | .vneg v sb => Sys2Proof.Machine.execVneg v sb s
  | .vcpy v sb => Sys2Proof.Machine.execVcpy v sb s
  | .vsel v sb => Sys2Proof.Machine.execVsel v sb s
  | .vand v sb => Sys2Proof.Machine.execVand v sb s
  | .vor v sb => Sys2Proof.Machine.execVor v sb s
  | .vxor v sb => Sys2Proof.Machine.execVxor v sb s
  | .vshl v sb => Sys2Proof.Machine.execVshl v sb s
  | .vshr v sb => Sys2Proof.Machine.execVshr v sb s
  | .vsra v sb => Sys2Proof.Machine.execVsra v sb s
  | .vcmpEq v sb => Sys2Proof.Machine.execVcmpEq v sb s
  | .vcmpNe v sb => Sys2Proof.Machine.execVcmpNe v sb s
  | .vcmpLt v sb => Sys2Proof.Machine.execVcmpLt v sb s
  | .vcmpLe v sb => Sys2Proof.Machine.execVcmpLe v sb s
  | .vcmpGt v sb => Sys2Proof.Machine.execVcmpGt v sb s
  | .vcmpGe v sb => Sys2Proof.Machine.execVcmpGe v sb s
  | .vredSum v sb => Sys2Proof.Machine.execVredSum v sb s
  | .vredMax v sb => Sys2Proof.Machine.execVredMax v sb s
  | .vredMin v sb => Sys2Proof.Machine.execVredMin v sb s
  | .vscanSum v sb => Sys2Proof.Machine.execVscanSum v sb s
  | .vscanMax v sb => Sys2Proof.Machine.execVscanMax v sb s
  | .vperm v => Sys2Proof.Machine.execVperm v s
  | .vshuf v => Sys2Proof.Machine.execVshuf v s
  | .vbcast a v => Sys2Proof.Machine.execVbcast a v s
  | .vaddc d v sb => Sys2Proof.Machine.execVaddc d v sb s
  | .vsubc d v sb => Sys2Proof.Machine.execVsubc d v sb s
  | .vmulc v sb => Sys2Proof.Machine.execVmulc v sb s
  | .vdot v sb => Sys2Proof.Machine.execVdot v sb s
  | .vcvt v sb => Sys2Proof.Machine.execVcvt v sb s
  | .vpack v => Sys2Proof.Machine.execVpack v s
  | .vunpack v => Sys2Proof.Machine.execVunpack v s
  | .vscale a v sb => Sys2Proof.Machine.execVscale a v sb s
  | .vqnt v => Sys2Proof.Machine.execVqnt v s
  | .vdq v => Sys2Proof.Machine.execVdq v s
  | .vexp2 v sb => Sys2Proof.Machine.execVexp2 v sb s
  | .vlog2 v sb => Sys2Proof.Machine.execVlog2 v sb s
  | .vrcp v sb => Sys2Proof.Machine.execVrcp v sb s
  | .vrsqrt v sb => Sys2Proof.Machine.execVrsqrt v sb s
  | .vsqrt v sb => Sys2Proof.Machine.execVsqrt v sb s
  | .vtanh v sb => Sys2Proof.Machine.execVtanh v sb s
  | .vsig v sb => Sys2Proof.Machine.execVsig v sb s
  | .vsilu v sb => Sys2Proof.Machine.execVsilu v sb s
  | .vgelu v sb => Sys2Proof.Machine.execVgelu v sb s
  | .mxLds d a b km1 nm1 sc off w => Sys2Proof.Machine.execMxLds d a b km1 nm1 sc off w s
  | .mxMul d a b mm1 km1 nm1 acc q sc off w => Sys2Proof.Machine.execMxMul d a b mm1 km1 nm1 acc q sc off w s
  | .mxMulb d mm1 km1 nm1 acc q w => Sys2Proof.Machine.execMxMulb d mm1 km1 nm1 acc q w s
  | .mxDrain d a b mm1 nm1 acc q byp nowr off w => Sys2Proof.Machine.execMxDrain d a b mm1 nm1 acc q byp nowr off w s
  | .mxScl d a b w => Sys2Proof.Machine.execMxScl d a b w s
  | .mxCfg d aty bty out bsat rg rnm1 w => Sys2Proof.Machine.execMxCfg d aty bty out bsat rg rnm1 w s
  | .mxSwap => Sys2Proof.Machine.execMxSwap s
  | .mxClr q => Sys2Proof.Machine.execMxClr q s
  | .mxStat d q sb => Sys2Proof.Machine.execMxStat d q sb s
  | .mxStatClr d q sb => Sys2Proof.Machine.execMxStatClr d q sb s
  | .nzCfg d seed mode w => Sys2Proof.Machine.execNzCfg d seed mode w s
  | .mxTokenAccept sector => Sys2Proof.Machine.execMxTokenAccept sector s
  | .mxTokenComplete token => Sys2Proof.Machine.execMxTokenComplete token s
  | .regionDrainStart net rg => Sys2Proof.Machine.execRegionDrainStart net rg s
  | .dlPost d a fin off w => Sys2Proof.Machine.execDlPost d a fin off w s
  | .dlJobComplete span n => Sys2Proof.Machine.execDlJobComplete span n s
  | .dlMerge d a b dm1 fin off w => Sys2Proof.Machine.execDlMerge d a b dm1 fin off w s
  | .khNew d a bnd sb => Sys2Proof.Machine.execKhNew d a bnd sb s
  | .khBound d a bnd => Sys2Proof.Machine.execKhBound d a bnd s
  | .khGen d a => Sys2Proof.Machine.execKhGen d a s
  | .ladInit lad a mode nrm1 nem1 off w => Sys2Proof.Machine.execLadInit lad a mode nrm1 nem1 off w s
  | .ladWts lad a off w => Sys2Proof.Machine.execLadWts lad a off w s
  | .ladPush d lad a b off w => Sys2Proof.Machine.execLadPush d lad a b off w s
  | .ladderChainStep sector lad => Sys2Proof.Machine.execLadderChainStep sector lad s
  | .ladRead d lad a b off w => Sys2Proof.Machine.execLadRead d lad a b off w s
  | .ladRung d lad k a off w => Sys2Proof.Machine.execLadRung d lad k a off w s
  | .ladStep d lad w => Sys2Proof.Machine.execLadStep d lad w s
  | .ladWait d lad b w => Sys2Proof.Machine.execLadWait d lad b w s
  | .ladFree lad w => Sys2Proof.Machine.execLadFree lad w s
  | .futSpawn d a off => Sys2Proof.Machine.execFutSpawn d a off s
  | .futRef d a => Sys2Proof.Machine.execFutRef d a s
  | .futDrop d a => Sys2Proof.Machine.execFutDrop d a s
  | .futWaitReg d a sb => Sys2Proof.Machine.execFutWaitReg d a sb s
  | .futWaitBank a b off => Sys2Proof.Machine.execFutWaitBank a b off s
  | .futFill d a b => Sys2Proof.Machine.execFutFill d a b s
  | .futRcp => Sys2Proof.Machine.execFutRcp s
  | .futStat d a sb => Sys2Proof.Machine.execFutStat d a sb s
  | .captureComplete die task => Sys2Proof.Machine.execCaptureComplete die task s
  | .tskSubInline d a b imm tmpl w => Sys2Proof.Machine.execTskSubInline d a b imm tmpl w s
  | .tskSubDesc d a off w => Sys2Proof.Machine.execTskSubDesc d a off w s
  | .tskDone w => Sys2Proof.Machine.execTskDone w s
  | .taskQwaitPop die task => Sys2Proof.Machine.execTaskQwaitPop die task s
  | .taskDispatch die task => Sys2Proof.Machine.execTaskDispatch die task s
  | .qPushReg a b w => Sys2Proof.Machine.execQPushReg a b w s
  | .qPushBank a b off w => Sys2Proof.Machine.execQPushBank a b off w s
  | .qPopReg d b sb w => Sys2Proof.Machine.execQPopReg d b sb w s
  | .qPopBank a b off w => Sys2Proof.Machine.execQPopBank a b off w s
  | .qCnt d b sb w => Sys2Proof.Machine.execQCnt d b sb w s
  | .refillBatchStart sector => Sys2Proof.Machine.execRefillBatchStart sector s
  | .refillBatchLand sector => Sys2Proof.Machine.execRefillBatchLand sector s
  | .pwrAcq d a => Sys2Proof.Machine.execPwrAcq d a s
  | .pwrRel d a => Sys2Proof.Machine.execPwrRel d a s
  | .doorbell vm die value => Sys2Proof.Machine.execDoorbell vm die value s
  | .packetStart die => Sys2Proof.Machine.execPacketStart die s
  | .bundleRun k => Sys2Proof.Machine.execBundleRun k s
  | .bundleRetire k => Sys2Proof.Machine.execBundleRetire k s
  | .waitPacket pq => Sys2Proof.Machine.execWaitPacket pq s
  | .signalPacket pq => Sys2Proof.Machine.execSignalPacket pq s
  | .netPlacement k rec => Sys2Proof.Machine.execNetPlacement k rec s
  | .sectorGrant die => Sys2Proof.Machine.execSectorGrant die s
  | .netInject k rec => Sys2Proof.Machine.execNetInject k rec s
  | .launchPacket words => Sys2Proof.Machine.execLaunchPacket words s
  | .castleGo cell value => Sys2Proof.Machine.execCastleGo cell value s
  | .contextExchange cell => Sys2Proof.Machine.execContextExchange cell s
  | .contextStreamComplete cell => Sys2Proof.Machine.execContextStreamComplete cell s
  | .parkedOutcome cell slot k => Sys2Proof.Machine.execParkedOutcome cell slot k s
  | .poolWrite pool => Sys2Proof.Machine.execPoolWrite pool s
  | .version m tag => Sys2Proof.Machine.execVersion m tag s
  | .reset m tag => Sys2Proof.Machine.execReset m tag s
  | .loadImage m tag src len data => Sys2Proof.Machine.execLoadImage m tag src len data s
  | .imageData m tag off cnt data => Sys2Proof.Machine.execImageData m tag off cnt data s
  | .setPool m tag pool => Sys2Proof.Machine.execSetPool m tag pool s
  | .castle m tag die sector slot stream dir => Sys2Proof.Machine.execCastle m tag die sector slot stream dir s
  | .endRegion m tag die sector => Sys2Proof.Machine.execEndRegion m tag die sector s
  | .blockAlloc m tag arg addr => Sys2Proof.Machine.execBlockAlloc m tag arg addr s
  | .blockFree m tag asid blocks => Sys2Proof.Machine.execBlockFree m tag asid blocks s
  | .timerPost m tag time word1 asid => Sys2Proof.Machine.execTimerPost m tag time word1 asid s
  | .blockTake cell fid => Sys2Proof.Machine.execBlockTake cell fid s
  | .blockAppend sector block => Sys2Proof.Machine.execBlockAppend sector block s
  | .blockCacheRefill sector => Sys2Proof.Machine.execBlockCacheRefill sector s
  | .placeEntryWrite cell place value => Sys2Proof.Machine.execPlaceEntryWrite cell place value s
  | .wordStoreWrite cell place slot value => Sys2Proof.Machine.execWordStoreWrite cell place slot value s
  | .loadedRecordWrite cell t off value => Sys2Proof.Machine.execLoadedRecordWrite cell t off value s
  | .registerWindowWrite cell off data => Sys2Proof.Machine.execRegisterWindowWrite cell off data s
  | .queueCounterWrite sector off value => Sys2Proof.Machine.execQueueCounterWrite sector off value s
  | .rangeTableWrite n value => Sys2Proof.Machine.execRangeTableWrite n value s
  | .tlbInvalidate owner asid va => Sys2Proof.Machine.execTlbInvalidate owner asid va s
  | .quarantineEnqueue owner value => Sys2Proof.Machine.execQuarantineEnqueue owner value s
  | .quarantineRelease owner => Sys2Proof.Machine.execQuarantineRelease owner s
  | .handleTableBaseWrite isLen value => Sys2Proof.Machine.execHandleTableBaseWrite isLen value s
  | .recordRingIndexWrite ring value => Sys2Proof.Machine.execRecordRingIndexWrite ring value s
  | .registerWrite r value => Sys2Proof.Machine.execRegisterWrite r value s
  | .timerTokenRelease k now => Sys2Proof.Machine.execTimerTokenRelease k now s
  | .taskTimeRelease k now => Sys2Proof.Machine.execTaskTimeRelease k now s
  | .engineResume e => Sys2Proof.Machine.execEngineResume e s
  | .engineAbort e => Sys2Proof.Machine.execEngineAbort e s
  | .requestTimeout cell fid => Sys2Proof.Machine.execRequestTimeout cell fid s
  | .frozenEngineTimeout e => Sys2Proof.Machine.execFrozenEngineTimeout e s
  | .zugzwangDeclare net => Sys2Proof.Machine.execZugzwangDeclare net s
  | .eccstatClear die n => Sys2Proof.Machine.execEccstatClear die n s
  | .taskReplay die value => Sys2Proof.Machine.execTaskReplay die value s
  | .hostLinkDown => Sys2Proof.Machine.execHostLinkDown s
  | .hostLinkUp => Sys2Proof.Machine.execHostLinkUp s
  | .watchdogKick value => Sys2Proof.Machine.execWatchdogKick value s
  | .watchdogExpiry => Sys2Proof.Machine.execWatchdogExpiry s
  | .pluginStop slot => Sys2Proof.Machine.execPluginStop slot s
  | .boot => Sys2Proof.Machine.execBoot s
  | .spdmGetVersion => Sys2Proof.Machine.execSpdmGetVersion s
  | .spdmGetCapabilities => Sys2Proof.Machine.execSpdmGetCapabilities s
  | .spdmNegotiateAlgorithms => Sys2Proof.Machine.execSpdmNegotiateAlgorithms s
  | .vendorDefinedRequest request => Sys2Proof.Machine.execVendorDefinedRequest request s
  | .spdmOtherRequest code => Sys2Proof.Machine.execSpdmOtherRequest code s
  | .sensorRefresh vals => Sys2Proof.Machine.execSensorRefresh vals s
  | .retransmitTimeout k => Sys2Proof.Machine.execRetransmitTimeout k s
  | .scaleoutPortDown p => Sys2Proof.Machine.execScaleoutPortDown p s
  | .scaleoutPortUp p => Sys2Proof.Machine.execScaleoutPortUp p s
  | .heartbeatSend => Sys2Proof.Machine.execHeartbeatSend s
  | .peerLost peer => Sys2Proof.Machine.execPeerLost peer s
  | .transitionStateWrite cell t value => Sys2Proof.Machine.execTransitionStateWrite cell t value s
  | .heartbeatReceive peer => Sys2Proof.Machine.execHeartbeatReceive peer s
  | .packetAcknowledge peer vc num => Sys2Proof.Machine.execPacketAcknowledge peer vc num s
  | .fatalNotice => Sys2Proof.Machine.execFatalNotice s

end Sys2Proof.Machine
end

