-- ==== Sys2Proof/Machine/Tick.lean ====
section
/-! DEFINITION. The passing of clocks: enabled lengths (R50), ages of requests and of frozen engines (R402), idle counts
(R381), sector-clocks (R314), firmware's time limits (R421, R422), what it finishes in its own time (R326, R405, R421), and what the network interface owes
(R313). -/
namespace Sys2Proof.Machine

/-- The enabled transitions and lengths at the start of a clock (R38, R50, R53). -/
def Ctx.refresh (c : Ctx) (clock : Nat) : Ctx :=
  { c with trans := Tbl.mapV (fun t x =>
      if c.enabled t then { x with en := true, since := some (x.since.getD clock) }
      else { x with en := false, since := none }) c.trans }

/-- A request that a copy port holds (R89); a take of a granted block waits at the block cache. -/
def atPort : Instr → Bool
  | .ld _ _ _ _ _ w | .ldx _ _ _ _ _ _ w => w.path == 3
  | i => i.accesses

/-- A firing's request grows older; not while its port is frozen, or before the chain lets it go (R402). `post` says that the port
withholds what its `cpy.post` asks. -/
def Firing.older (f : Firing) (n : Nat) (frozen post : Bool) : Firing :=
  match f.wait with
  | some i => if (i.accesses && !f.queued && !(frozen && atPort i)) || (!i.accesses && post && !frozen) then { f with age := f.age + n } else f
  | none => f

def Ctx.older (c : Ctx) (n : Nat) (frozen : Bool) (post : Nat → Bool) : Ctx :=
  { c with firings := c.firings.map fun f => f.older n frozen (post f.id) }

/-- A frozen engine grows older. -/
def EngFault.older (f : EngFault) (n : Nat) : EngFault := if f.frozen then { f with age := f.age + n } else f

/-- An engine's request grows older while the engine is not frozen (R402). -/
def olderLost (l : Option Lost) (n : Nat) (frozen : Bool) : Option Lost := l.map fun x => if frozen then x else { x with age := x.age + n }

def Owner.older (o : Owner) (n : Nat) : Owner :=
  let fz (k : Nat) : Bool := (Tbl.get {} o.faults k).frozen
  { o with
    faults := Tbl.mapV (fun _ f => f.older n) o.faults
    streams := Tbl.mapV (fun k x => { x with lost := olderLost x.lost n (fz k) }) o.streams
    lanes := Tbl.mapV (fun k x => { x with lost := olderLost x.lost n (fz (128 + k)) }) o.lanes
    walkers := Tbl.mapV (fun k x => { x with lost := olderLost x.lost n (fz k) }) o.walkers }

def Sector.older (k : Sector) (n : Nat) : Sector :=
  let job (j : CopyJob) : CopyJob := { j with lost := olderLost j.lost n k.port.f.frozen }
  let push (p : PendPush) : PendPush := { p with lost := olderLost p.lost n false }
  { k with
    port := { k.port with f := k.port.f.older n, jobs := k.port.jobs.map job }
    qfault := k.qfault.older n
    node := { k.node with queue := k.node.queue.map fun x => { x with lost := olderLost x.lost n false } }
    ladders := Tbl.mapV (fun _ l => { l with pend := l.pend.map push }) k.ladders }

namespace State

/-- Requests and frozen engines grow older by `n` clocks. -/
def older (s : State) (n : Nat) : State :=
  let fz (cell : Nat) : Bool := (s.sectorAt (cellSector cell)).port.f.frozen
  let c (cell : Nat) (c : Ctx) : Ctx := c.older n (fz cell) (s.postWithheld cell)
  { s with
    cells := Tbl.mapV (fun k x => { x with run := c k x.run, sh0 := c k x.sh0, sh1 := c k x.sh1 }) s.cells
    saves := Tbl.mapV (fun k x => c (k / 4096) x) s.saves
    owners := Tbl.mapV (fun _ o => o.older n) s.owners
    sectors := Tbl.mapV (fun _ k => k.older n) s.sectors
    stores := s.stores.map fun l => if l.virt && fz l.iss.cell then l else { l with age := l.age + n } }

/-- The sectors that a die's tenant slot holds: those of the regions placed from its queues. -/
def sectorsOf (s : State) (die t : Nat) : Nat :=
  (s.nets.map fun e => if e.2.die = die && e.2.tslot = t then e.2.sectors.length else 0).sum

/-- TOTAL and every RECV advance (R314). -/
def sectorClocks (s : State) (n : Nat) : State :=
  { s with dies := Tbl.mapV (fun die d => { d with
      total := d.total + 168 * n
      tenants := Tbl.mapV (fun t x => { x with recv := (x.recv + n * s.sectorsOf die t) % 2 ^ 48 }) d.tenants }) s.dies }

/-- The idle counts of the regions (R381). -/
def idleCounts (s : State) (n : Nat) : State :=
  { s with nets := Tbl.mapV (fun k x => { x with idle := s.idleAfter k x n }) s.nets }

/-- Firmware finishes what it has under way, now or later (log 9). -/
def firmware (s : State) : State :=
  if s.mgmt.loading.isNone && !s.mgmt.restarting then s
  else
    let (k, s) := s.takeFree
    if Config.freeBool k then s.finishLoad.finishRestart else s

/-- Replays that wait for an instance or for tiles. -/
def replays (s : State) : State := [0, 1, 2, 3].foldl tryReplay s

/-- The units' requests that have had no reply for 2^22 clocks (R402), the last of a unit first. -/
def overdueReads (s : State) : List (Reader × Lost) :=
  let keep (r : Reader) (l : Option Lost) : List (Reader × Lost) := match l with
    | some x => if 2 ^ 22 ≤ x.age then [(r, x)] else []
    | none => []
  s.sectors.flatMap (fun e =>
      (e.2.port.jobs.zipIdx.flatMap fun j => keep (.packet e.1 j.2) j.1.lost).reverse
      ++ (match e.2.node.queue with
          | x :: _ => keep (.node e.1) x.lost
          | [] => [])
      ++ e.2.ladders.flatMap fun l => (l.2.pend.zipIdx.flatMap fun p => keep (.ladder e.1 l.1 p.2) p.1.lost).reverse)
    ++ s.owners.flatMap fun e =>
      e.2.streams.flatMap (fun x => keep (.stream e.1 x.1) x.2.lost)
      ++ e.2.lanes.flatMap (fun x => keep (.lane e.1 x.1) x.2.lost)
      ++ e.2.walkers.flatMap fun x => keep (.walker x.1) x.2.lost

/-- An accepted store that is not performed for 2^22 clocks is a request without a reply, and never is; the command of a unit whose read
had none ends (R402). -/
def expire (s : State) : State :=
  let old (l : Late) : Bool := decide (2 ^ 22 ≤ l.age)
  let t : State := { s with
    stores := s.stores.filter fun l => !old l
    due := s.due ++ (s.stores.filter old).map fun l =>
      { hit := { cls := 0x0C, cause := 1, faddr := l.addr, aux := l.age }, iss := l.iss } }
  t.overdueReads.foldl (fun t x => t.endReader x.1 { cls := 0x0C, cause := 1, faddr := x.2.addr, aux := x.2.age }) t

/-- In every extended place the oldest words move into the cell (R383). -/
def refillAll (s : State) : State :=
  let g (c : Ctx) : Ctx := { c with places := Tbl.mapV (fun _ p => p.refill) c.places }
  s.mapCells fun _ c => { c with run := g c.run, sh0 := g c.sh0, sh1 := g c.sh1 }

/-- The detectors declare the regions whose idle counts have reached the bound (R382). -/
def declare (s : State) : State := s.nets.foldl (fun t n => t.zugzwang n.1) s

/-- A clock passes: its faults are recorded, ages and counts advance, and the next clock begins. -/
def nextClock (s : State) : State :=
  let s := ((s.deliver.idleCounts 1).older 1).sectorClocks 1
  let s := ({ s.expire.refillAll.spillAll with clock := s.clock + 1 }.limits.firmware).replays.serveIncoming
  let f (c : Ctx) : Ctx := if c.valid then c.refresh s.clock else c
  (s.mapCells fun _ c => { c with run := f c.run, sh0 := f c.sh0, sh1 := f c.sh1 }).declare

/-- `n` clocks pass. -/
def tick (s : State) : Nat → State
  | 0 => s
  | n + 1 => s.nextClock.tick n

end State

end Sys2Proof.Machine
end

