-- ==== Sys2Proof/Machine/Policy.lean ====
section
/-! DEFINITION. The schedule where the agenda names none (log 1): the first thing that the module can do by itself, else a
clock passes. -/
namespace Sys2Proof.Machine

/-- Something that the module does by itself. -/
abbrev Act := State → Res

namespace State

/-- The firings of a cell deposit and their waits end. -/
def firingActs (s : State) (cell : Nat) : List Act :=
  (s.cellAt cell).run.busy.flatMap fun f =>
    [execFiringDeposit cell f.id, execAccessReply cell f.id, execConditionWaitEnd cell f.id, execBlockTake cell f.id]

/-- What else the running context of a cell may do. -/
def cellActs (s : State) (cell : Nat) : List Act :=
  [execContextExchange cell, execContextStreamComplete cell]
  ++ (((s.cellAt cell).run.places.filter fun p => !p.2.entry.isEmpty).map fun p => execEntryWordJoin cell p.1)

def sectorActs (k : Nat) (x : Sector) : List Act :=
  execMxTokenAccept k :: ((List.range x.node.queue.length).map fun j => execMxTokenComplete ⟨k, j⟩) ++ [execRefillBatchStart k, execRefillBatchLand k, execBlockCacheRefill k]
  ++ (x.ladders.map fun l => execLadderChainStep k l.1)
  ++ ((List.range x.port.queues.length).map fun q => execCopyPacketStart k q)
  ++ ((List.range x.port.jobs.length).map fun j => execCopyPacketComplete k j)

def ownerActs (o : Nat) (x : Owner) : List Act :=
  (x.streams.flatMap fun e => [execPushStreamTile o e.1, execPullStreamTile o e.1]) ++ (x.lanes.map fun e => execDlJobComplete o e.1)
  ++ (x.walkers.map fun e => execWalkResultWrite e.1) ++ [execQuarantineRelease o]

def dieActs (die : Nat) (d : Die) : List Act :=
  d.tasks.flatMap fun t =>
    if t.2.v then [execTaskQwaitPop die t.1, execTaskDispatch die t.1, execCaptureComplete die t.1] else []

def launchActs (s : State) : List Act :=
  ((List.range 4).flatMap fun d => [execPacketStart d, execSectorGrant d])
  ++ (s.queues.flatMap fun q => [execWaitPacket q.1, execSignalPacket q.1])
  ++ (s.bundles.flatMap fun b => execBundleRun b.1
      :: ((List.range b.2.stages.length).flatMap fun r => [execNetPlacement b.1 r, execNetInject b.1 r]) ++ [execBundleRetire b.1])

def netActs (s : State) : List Act :=
  s.nets.flatMap fun n => (n.2.regions.map fun r => execRegionDrainStart n.1 r.1)
    ++ [execNetInstanceComplete n.1, execScrubComplete n.1, execZugzwangDeclare n.1]

/-- What the module may do by itself: boot, selections, deposits, arrivals (R44), cells, sectors, engines, tasks, launches, net
instances. Nothing that the outside world does is among them, nor what depends on the network interface's time. -/
def ownActs (s : State) : List Act :=
  execBoot :: (s.cells.map fun c => execFiringSelect c.1)
  ++ (s.cells.flatMap fun c => s.firingActs c.1)
  ++ ((List.range s.stores.length).map fun k s => .next (s.performLate k))
  ++ ((List.range s.flights.length).flatMap fun k => [execTokenArrival k, execWordArrival k, execHeldWordDelivery k])
  ++ ((List.range s.credits.length).map fun k => execRingCredit k)
  ++ (s.cells.flatMap fun c => s.cellActs c.1) ++ (s.sectors.flatMap fun k => sectorActs k.1 k.2)
  ++ (s.owners.flatMap fun o => ownerActs o.1 o.2) ++ (s.dies.flatMap fun d => dieActs d.1 d.2)
  ++ ((List.range s.colls.length).flatMap fun k => [execCollectiveChunkSend k, execCollectiveComplete k])
  ++ s.launchActs ++ s.netActs

/-- What an act makes of the state, where it changes anything but the count of free values and the firing in focus. -/
def acted (s : State) (f : Act) : Option State :=
  match f s with
  | .next t => if { t with free := s.free, cell := s.cell, fid := s.fid } = s then none else some t
  | _ => none

/-- The first firing that may issue. -/
def readyFiring (s : State) : Option (Nat × Nat) :=
  s.cells.findSome? fun e => (e.2.run.busy.find? fun f =>
    let t := s.focus e.1 f.id
    t.mayIssue && t.decodesReady).map fun f => (e.1, f.id)

/-- The state after the first act that changes it, else after one clock. -/
def idleStep (s : State) : State := (s.ownActs.findSome? s.acted).getD (s.tick 1)

end State

end Sys2Proof.Machine
end

