-- ==== Sys2Proof/Machine/Step.lean ====
section
/-! DEFINITION. One step of the module: the next move of its schedule (log 1). -/
namespace Sys2Proof.Machine

/-- A firing issues its next instruction: the decoded instruction runs, unless it must wait first. -/
def issue (s : State) : Host.Outcome State Fault Refusal :=
  if !s.mayIssue then .next s
  else match decodeBytes s.bodyBytes with
    | .error _ => .fault .undecodable
    | .ok (i, _) => if s.stalls i then .next s else if s.mustQueue i then .next (s.joinChain i)
      else if s.mustHold i then .next (s.holdVec i) else exec i (s.order i)

/-- One move of the schedule. -/
def runMove (m : Move) (s : State) : Host.Outcome State Fault Refusal :=
  match m with
  | .tick n => .next (s.tick n)
  | .issue cell fid => issue (s.focus cell fid)
  | .event i => if (encodeParts i).isSome then .fault .notAnEvent else exec i s
  | .soft r code corrected addr => .next (s.softError r code corrected addr)
  | .relax n => .next { s with late := n }
  | .perform k => .next (s.performLate k)
  | .mail m words data => s.mailCommand m words data
  | .hostWrite peer asid addr bytes => .next (s.hostWrite peer asid addr bytes)
  | .hostAdd peer asid addr n => .next (s.hostAdd peer asid addr n)
  | .hostClaim peer asid hdr => .next (s.hostClaim peer asid hdr)
  | .bar fn two base => .next (s.programBar fn two base)
  | .plugin core slot => .next (s.runPlugin core slot)
  | .request core page => .next (s.pluginCall core page)
  | .core n a => .next (s.coreAct n a)
  | .fwStore dpa bytes => .next (s.fwStore dpa bytes)
  | .fwCopy dst src n => .next (s.fwCopy dst src n)

/-- One step: the version of memory that stands is kept, and the next move of the schedule is made. -/
def step (s₀ : State) : Host.Outcome State Fault Refusal :=
  let s := s₀.remember
  match s.agenda with
  | m :: rest => runMove m { s with agenda := rest }
  | [] => match s.readyFiring with
    | some (cell, fid) => issue (s.focus cell fid)
    | none => .next s.idleStep

/-- A context whose one firing stands at the start of a body of `n` words (R41, R125 to R128). -/
def bodyCtx (bytes : List Byte) (n : Nat) : Ctx :=
  { valid := true
    trans := [(0, { loaded := true, armed := true
                    record := toBytes 8 (n * 2 ^ 40) ++ bytes })]
    firings := [{}]
    nextId := 1 }

/-- `s` with an instruction of the opcode table where `step` issues next (log 16): cell 0 runs a firing whose body
holds its words, and the schedule names that firing. -/
def State.withFetchWord (s : State) (nbits w : Nat) : State :=
  let bytes := tableBytes nbits w
  { s with
    cells := Tbl.put s.cells 0 { s.cellAt 0 with run := bodyCtx bytes 4 }
    mgmt := { s.mgmt with held := false }
    agenda := [.issue 0 0] }

end Sys2Proof.Machine
end

