-- ==== Sys2Proof/Safety.lean ====
section
/-! DEFINITION. What a safe run is: the model goes on to a next state. The classes of the spec are taken inside the
machine (R372 to R376) and are part of a safe run. With it, the invariant of the module and the words that claims
use for what a step leaves alone. -/
namespace Sys2Proof

/-- A step that goes on. -/
def Goes (s : Machine.State) : Prop := ∃ t, Machine.step s = .next t

/-- `k` steps that all go on. -/
def SafeFor : Nat → Machine.State → Prop
  | 0, _ => True
  | k + 1, s => ∃ t, Machine.step s = .next t ∧ SafeFor k t

end Sys2Proof

namespace Sys2Proof.Machine

/-- Firings in order of selection: their identities strictly rise. -/
def Ordered (fs : List Firing) : Prop := fs.Pairwise fun a b => a.id < b.id

/-- A context in good order: its firings in order of selection, under identities that it has given out. -/
def Ctx.good (c : Ctx) : Prop := Ordered c.firings ∧ ∀ f ∈ c.firings, f.id < c.nextId

namespace State

/-- The current firing exists, is in progress, and its cell's firings are in order of selection. -/
def Runs (s : State) : Prop := s.live = true ∧ Ordered s.ctx.firings

/-- `t` is `s` but for the record of the current firing: every byte of memory and of every bank, every other firing
and cell, every unit and every register outside the firing stands. -/
def OnlyMe (s t : State) : Prop := t = s.modMe fun _ => t.me

/-- The invariant: both byte memories in canonical form, and every context of every cell and save area in good
order. -/
def Inv (s : State) : Prop :=
  Mem.wf s.mem = true ∧ Mem.wf s.banks = true
  ∧ (∀ e ∈ s.cells, e.2.run.good ∧ e.2.sh0.good ∧ e.2.sh1.good)
  ∧ ∀ e ∈ s.saves, e.2.good

end State

/-- What a firing holds, but for what ends with an instruction: what it holds beside its registers, its choice code and where its
body stands. -/
def Firing.rest (f : Firing) : Firing := { f with regs := {}, choice := 0, woff := 0, wait := none, arg := none, age := 0, last := 0, recs := none, genEp := none, keep := {} }

/-- A register instruction completes: `d` holds `x` (g0 stays 0, R142), every other general register, every
lane register and every selector stands, the choice code is `c` where one is given, the body goes on `n` words further
and waits for nothing, the flags stand, what else the firing holds is as `f` holds it, and nothing but the firing's own
record changes: no byte of memory or of a bank, no other register of the module. -/
structure WroteAs (s t : State) (f : Firing) (d : Rg) (x : W64) (c : Option (BitVec 2)) (n : Nat) : Prop where
  dest   : t.readG d = if d = 0 then 0 else x
  others : ∀ r, r ≠ d → t.readG r = s.heldG r
  lanes  : ∀ k, t.readV k = s.heldV k
  sels   : ∀ k, t.readSh k = s.heldSh k
  choice : t.me.choice = c.getD s.me.choice
  place  : t.me.woff = s.me.woff + n ∧ t.me.wait = none
  kept   : t.me.rest = f.rest ∧ t.fstat = s.fstat
  memory : ∀ a, Mem.read t.mem a = Mem.read s.mem a ∧ Mem.read t.banks a = Mem.read s.banks a
  only   : s.OnlyMe t

/-- The same, where all else that the firing holds stands. -/
abbrev Wrote (s t : State) (d : Rg) (x : W64) (c : Option (BitVec 2)) (n : Nat) : Prop := WroteAs s t s.me d x c n

/-- No register is written: the firing is as `f` but for its place in the body, and nothing else changes. -/
structure Passed (s t : State) (f : Firing) (n : Nat) : Prop where
  regs   : (∀ r, t.readG r = s.heldG r) ∧ (∀ k, t.readV k = s.heldV k) ∧ ∀ k, t.readSh k = s.heldSh k
  choice : t.me.choice = f.choice
  place  : t.me.woff = s.me.woff + n ∧ t.me.wait = none
  kept   : t.me.rest = f.rest
  memory : ∀ a, Mem.read t.mem a = Mem.read s.mem a ∧ Mem.read t.banks a = Mem.read s.banks a
  only   : s.OnlyMe t

end Sys2Proof.Machine
end

