-- ==== Sys2Proof/Certificates/Slice0/Obligations.lean ====
section
/-! DEFINITION. The statements for the provers, from the numbered rules of spec/. Words that they use stand under
Sys2Proof.Claim. Unless a statement says otherwise the current firing is in progress (`State.Runs`: R41) and the
firings of its cell are in the order of their selection, which the invariant of Safety.lean gives in every state that
a run reaches. -/
namespace Sys2Proof.Claim
open Sys2Proof.Machine

/-! ### Words for what a step does -/

/-- The choice code of a result (R39): 1 for zero, 2 for a negative result that is taken as signed, else 0. -/
def code (u : Bool) (x : W64) : BitVec 2 := if x = 0 then 1 else if u = false ∧ x.toInt < 0 then 2 else 0

/-- A scalar instruction as the tables of R161 to R165 give it: destination, sources, S bit, whether R39 takes the
result as unsigned, its words, and what the result is of g[A], g[B] and the old g[D]. -/
structure Form where
  d   : Rg
  a   : Rg
  b   : Rg
  sb  : Bool
  u   : Bool
  n   : Nat
  val : W64 → W64 → W64 → W64 → Prop

/-- A scalar instruction completes with its result (R39, R41, R142). -/
def Completes (i : Instr) (f : Form) : Prop :=
  ∀ s : State, s.Runs → ∃ (x : W64) (t : State), f.val (s.readG f.a) (s.readG f.b) (s.readG f.d) x
    ∧ exec i s = .next t ∧ Wrote s t f.d x (if f.sb then some (code f.u x) else none) f.n

/-- The number of leading bits that are 0. -/
def Leading (x : W64) (n : Nat) : Prop :=
  n ≤ 64 ∧ (∀ k, k < n → x.getLsbD (63 - k) = false) ∧ (n < 64 → x.getLsbD (63 - n) = true)
/-- The number of trailing bits that are 0. -/
def Trailing (x : W64) (n : Nat) : Prop :=
  n ≤ 64 ∧ (∀ k, k < n → x.getLsbD k = false) ∧ (n < 64 → x.getLsbD n = true)

/-- The arithmetic and logic of R161. -/
def formAlu (i : Instr) : Option Form :=
  match i with
  | .add d a b sb => some ⟨d, a, b, sb, false, 1, fun x y _ r => r.toNat = (x.toNat + y.toNat) % 2 ^ 64⟩
  | .sub d a b sb => some ⟨d, a, b, sb, false, 1, fun x y _ r => (r.toNat + y.toNat) % 2 ^ 64 = x.toNat⟩
  | .mul d a b sb => some ⟨d, a, b, sb, false, 1, fun x y _ r => r.toNat = x.toNat * y.toNat % 2 ^ 64⟩
  | .mulh d a b sb => some ⟨d, a, b, sb, false, 1,
                             fun x y _ r => ∃ low : Nat, low < 2 ^ 64 ∧ x.toInt * y.toInt = r.toInt * 2 ^ 64 + low⟩
  | .mulhz d a b sb => some ⟨d, a, b, sb, true, 1,
                              fun x y _ r => ∃ low : Nat, low < 2 ^ 64 ∧ x.toNat * y.toNat = r.toNat * 2 ^ 64 + low⟩
  | .and d a b sb => some ⟨d, a, b, sb, false, 1,
                            fun x y _ r => ∀ k, r.getLsbD k = (x.getLsbD k && y.getLsbD k)⟩
  | .or d a b sb => some ⟨d, a, b, sb, false, 1,
                           fun x y _ r => ∀ k, r.getLsbD k = (x.getLsbD k || y.getLsbD k)⟩
  | .xor d a b sb => some ⟨d, a, b, sb, false, 1,
                            fun x y _ r => ∀ k, r.getLsbD k = (x.getLsbD k != y.getLsbD k)⟩
  | .andn d a b sb => some ⟨d, a, b, sb, false, 1,
                             fun x y _ r => ∀ k, r.getLsbD k = (x.getLsbD k && !y.getLsbD k)⟩
  | .min d a b sb => some ⟨d, a, b, sb, false, 1,
                            fun x y _ r => (r = x ∨ r = y) ∧ r.toInt ≤ x.toInt ∧ r.toInt ≤ y.toInt⟩
  | .max d a b sb => some ⟨d, a, b, sb, false, 1,
                            fun x y _ r => (r = x ∨ r = y) ∧ x.toInt ≤ r.toInt ∧ y.toInt ≤ r.toInt⟩
  | .minz d a b sb => some ⟨d, a, b, sb, true, 1,
                             fun x y _ r => (r = x ∨ r = y) ∧ r.toNat ≤ x.toNat ∧ r.toNat ≤ y.toNat⟩
  | .maxz d a b sb => some ⟨d, a, b, sb, true, 1,
                             fun x y _ r => (r = x ∨ r = y) ∧ x.toNat ≤ r.toNat ∧ y.toNat ≤ r.toNat⟩
  | .mov d a sb => some ⟨d, a, 0, sb, false, 1, fun x _ _ r => r = x⟩
  | _ => none

/-- The shifts, counts and extensions of R161: s = g[B][5:0]. -/
def formBits (i : Instr) : Option Form :=
  match i with
  | .shl d a b sb => some ⟨d, a, b, sb, false, 1, fun x y _ r => ∀ k, k < 64 →
      r.getLsbD k = (decide (y.toNat % 64 ≤ k) && x.getLsbD (k - y.toNat % 64))⟩
  | .shr d a b sb => some ⟨d, a, b, sb, false, 1, fun x y _ r => ∀ k, k < 64 →
      r.getLsbD k = (decide (k + y.toNat % 64 < 64) && x.getLsbD (k + y.toNat % 64))⟩
  | .sra d a b sb => some ⟨d, a, b, sb, false, 1, fun x y _ r => ∀ k, k < 64 →
      r.getLsbD k = x.getLsbD (min (k + y.toNat % 64) 63)⟩
  | .rol d a b sb => some ⟨d, a, b, sb, false, 1, fun x y _ r => ∀ k, k < 64 →
      r.getLsbD ((k + y.toNat % 64) % 64) = x.getLsbD k⟩
  | .clz d a sb => some ⟨d, a, 0, sb, true, 1, fun x _ _ r => Leading x r.toNat⟩
  | .ctz d a sb => some ⟨d, a, 0, sb, true, 1, fun x _ _ r => Trailing x r.toNat⟩
  | .pop d a sb => some ⟨d, a, 0, sb, true, 1,
                          fun x _ _ r => r.toNat = ((List.range 64).map fun k => (x.getLsbD k).toNat).sum⟩
  | .sext d a p sb => some ⟨d, a, 0, sb, false, 1, fun x _ _ r => ∀ k, k < 64 →
      r.getLsbD k = x.getLsbD (min k p.toNat)⟩
  | .zext d a p sb => some ⟨d, a, 0, sb, true, 1, fun x _ _ r => ∀ k, k < 64 →
      r.getLsbD k = (decide (k ≤ p.toNat) && x.getLsbD k)⟩
  | _ => none

/-- Division (R162). -/
def formDiv (i : Instr) : Option Form :=
  match i with
  | .div d a b sb => some ⟨d, a, b, sb, false, 1, fun x y _ r =>
      if y = 0 then r.toInt = -1
      else if x.toInt = -2 ^ 63 ∧ y.toInt = -1 then r.toInt = -2 ^ 63
      else r.toInt = x.toInt.tdiv y.toInt⟩
  | .rem d a b sb => some ⟨d, a, b, sb, false, 1, fun x y _ r =>
      if y = 0 then r = x
      else if x.toInt = -2 ^ 63 ∧ y.toInt = -1 then r = 0
      else r.toInt = x.toInt - x.toInt.tdiv y.toInt * y.toInt⟩
  | .divz d a b sb => some ⟨d, a, b, sb, true, 1, fun x y _ r =>
      if y = 0 then r.toNat = 2 ^ 64 - 1 else r.toNat = x.toNat / y.toNat⟩
  | .remz d a b sb => some ⟨d, a, b, sb, true, 1, fun x y _ r =>
      if y = 0 then r = x else r.toNat = x.toNat % y.toNat⟩
  | _ => none

/-- The length of a field descriptor (R163): g[B][14:8], and 64 for 0 or more than 64. -/
def fieldWidth (y : W64) : Nat :=
  let n := y.toNat / 2 ^ 8 % 2 ^ 7
  if 1 ≤ n ∧ n ≤ 64 then n else 64

/-- Fields (R163): lo = g[B][5:0]. -/
def formField (i : Instr) : Option Form :=
  match i with
  | .bext d a b sb => some ⟨d, a, b, sb, true, 1, fun x y _ r => ∀ k, k < 64 →
      r.getLsbD k = (decide (k < fieldWidth y) && x.getLsbD (k + y.toNat % 64))⟩
  | .bins d a b sb => some ⟨d, a, b, sb, false, 1, fun x y old r => ∀ k, k < 64 →
      r.getLsbD k = if y.toNat % 64 ≤ k ∧ k < y.toNat % 64 + fieldWidth y then x.getLsbD (k - y.toNat % 64)
                    else old.getLsbD k⟩
  | _ => none

/-- The immediates (R165). -/
def formImm (i : Instr) : Option Form :=
  match i with
  | .li d imm sb => some ⟨d, 0, 0, sb, false, 2, fun _ _ _ r => r.toInt = imm.toInt⟩
  | .lih d imm sb => some ⟨d, 0, 0, sb, false, 2, fun _ _ old r =>
      r.toNat / 2 ^ 32 = imm.toNat ∧ r.toNat % 2 ^ 32 = old.toNat % 2 ^ 32⟩
  | .addi d a imm sb => some ⟨d, a, 0, sb, false, 2, fun x _ _ r =>
      (2 ^ 64 : Int) ∣ r.toInt - (x.toInt + imm.toInt)⟩
  | .andi d a imm sb => some ⟨d, a, 0, sb, false, 2, fun x _ _ r => ∀ k,
      r.getLsbD k = (x.getLsbD k && imm.getLsbD k)⟩
  | .ori d a imm sb => some ⟨d, a, 0, sb, false, 2, fun x _ _ r => ∀ k,
      r.getLsbD k = (x.getLsbD k || imm.getLsbD k)⟩
  | .xori d a imm sb => some ⟨d, a, 0, sb, false, 2, fun x _ _ r => ∀ k,
      r.getLsbD k = (x.getLsbD k != imm.getLsbD k)⟩
  | .shli d a n sb => some ⟨d, a, 0, sb, false, 2, fun x _ _ r => ∀ k, k < 64 →
      r.getLsbD k = (decide (n.toNat ≤ k) && x.getLsbD (k - n.toNat))⟩
  | .shri d a n sb => some ⟨d, a, 0, sb, false, 2, fun x _ _ r => ∀ k, k < 64 →
      r.getLsbD k = (decide (k + n.toNat < 64) && x.getLsbD (k + n.toNat))⟩
  | .srai d a n sb => some ⟨d, a, 0, sb, false, 2, fun x _ _ r => ∀ k, k < 64 →
      r.getLsbD k = x.getLsbD (min (k + n.toNat) 63)⟩
  | _ => none

end Sys2Proof.Claim

section
open Sys2Proof Sys2Proof.Machine Sys2Proof.Claim

/-! ### Scalar instructions (R161 to R165) -/

/-- R161: add, sub, mul, mulh, mulhz, and, or, xor, andn, min, max, minz, maxz, mov. -/
def Sys2Proof.Claim.AluWritesItsResult : Prop := ∀ i f, formAlu i = some f → Completes i f

/-- R161: shl, shr, sra, rol, clz, ctz, pop, sext, zext. -/
def Sys2Proof.Claim.ShiftsAndCountsWriteTheirResult : Prop :=
  ∀ i f, formBits i = some f → Completes i f

/-- R161, R39: each register instruction completes with the result of its table row in g[D] (g0 discards it) and, where S is
1, with the choice code of that result; every other register, every flag, all of memory and everything outside the firing
stand. -/
def Obligations.RegisterInstructionsWriteTheirResult : Prop := Sys2Proof.Claim.AluWritesItsResult ∧ Sys2Proof.Claim.ShiftsAndCountsWriteTheirResult

/-- R162: div, rem, divz and remz complete for all operands with the table's results, set no flag, and leave every other
register and all of memory alone. -/
def Obligations.DivisionNeverFaults : Prop := ∀ i f, formDiv i = some f → Completes i f

/-- R163: bext takes the field that g[B] describes out of g[A], and bins replaces that field of g[D] by the low bits of
g[A]; a length of 0 or above 64 is 64, and a field ends at bit 63. -/
def Obligations.FieldsAreTakenAndReplaced : Prop :=
  ∀ i f, formField i = some f → Completes i f

/-- R165: each immediate instruction completes with the result of its table row in g[D]; everything else stands. -/
def Obligations.ImmediatesWriteTheirResult : Prop :=
  ∀ i f, formImm i = some f → Completes i f

end

namespace Sys2Proof.Claim
open Sys2Proof.Machine

/-! ### Words for net control -/

/-- The choice code that an instruction sets where its S bit is 1. -/
def codeIf (sb u : Bool) (x : W64) : Option (BitVec 2) := if sb then some (code u x) else none

/-- The value that `addr` gives for where placement puts an abstract cell (R164). A cell's number is its die, sector and
cell fields side by side. -/
def addrValue (x : W64) : Option Nat → W64
  | none => BitVec.allOnes 64
  | some c => BitVec.ofNat 64 (c * 2 ^ 32 + x.toNat % 2 ^ 32)

/-- The count that `emit` and `mset` name: COUNT, or g[A] where A is not 0 (R147, R150). -/
def countIn (s : State) (a : Rg) (count : BitVec 12) : Nat := if a = 0 then count.toNat else (s.readG a).toNat

/-- An OP 0x20 instruction is local: CELL is 0xFFF or resolves to the issuing cell (R146). -/
def Local (s : State) (cell : BitVec 12) : Prop := s.resolve s.cell s.ctx.net cell.toNat = some s.cell

/-- Nothing in the registers or memory changed, and the firing's body goes on two words further. -/
def Went (s t : State) (n : Nat) : Prop :=
  (∀ r, t.readG r = s.heldG r) ∧ (∀ k, t.readV k = s.heldV k) ∧ (∀ k, t.readSh k = s.heldSh k)
  ∧ t.me.woff = s.me.woff + n ∧ t.me.wait = none ∧ t.mem = s.mem ∧ t.banks = s.banks

/-- An item left for another cell's place or transition: it is the last in flight, from the issuing cell, and the firing
has passed its commit point (R146, R143). Nothing else changes but the firing. -/
structure Sent (s t : State) (dst index : Nat) (x : Cargo) (link : Option Link) (n : Nat) : Prop where
  flight : t.flights = s.flights ++ [⟨cellAddr s.cell, dst, index, x, s.ctx.net, s.clock, false, false, link⟩]
  commit : t.me.commit = true
  went   : Went s t n
  rest   : t = { s.modMe (fun _ => t.me) with flights := t.flights }

/-- The link of an `emit` (R289 to R291): with REL, at its scope, the writes that happen before it, those of vector instructions
among them (R216). -/
def linked (s : State) (rel : Bool) (scope : BitVec 3) : Option Link :=
  if rel = true then some { agent := s.cell, scope := scope.toNat, know := s.ctx.know, floor := s.ctx.floor } else none

/-- The value of a control register that every firing may read (R166, R168). -/
def csrNow (s : State) (k : Nat) : W64 :=
  match k with
  | 0 => (s.ctx.fstat ||| s.me.flags).setWidth 64
  | 1 => s.ctx.sgen.setWidth 64
  | 2 => BitVec.ofNat 64 (s.ctx.acell % 2 ^ 12 * 2 ^ 52 + s.cell / 2 ^ 14 % 4 * 2 ^ 16 + s.cell / 2 ^ 6 % 2 ^ 8 * 2 ^ 8 + s.cell % 2 ^ 6)
  | 3 => BitVec.ofNat 64 s.clock
  | _ => BitVec.ofNat 64 (s.ctx.net % 2 ^ 12 * 2 ^ 16 + s.ctx.asid % 2 ^ 12)

end Sys2Proof.Claim

section
open Sys2Proof Sys2Proof.Machine Sys2Proof.Claim

/-! ### Net control and control registers (R146 to R168) -/

/-- R164, R308: `addr` completes and writes the address of the placed cell, all ones where the net has no such cell; 0xFFF is the
cell itself, and in a copy of a template a number of the template's range is the copy's cell. -/
def Obligations.AddrPlacesAnAbstractCell : Prop :=
  ∀ (d a b : Rg) (sb : Bool) (s : State), s.Runs →
    (∃ t, exec (.addr d a b sb) s = .next t
      ∧ Wrote s t d
          (addrValue (s.readG a) (s.resolve s.cell s.ctx.net ((s.readG b).toNat % 2 ^ 12)))
          (codeIf sb false
            (addrValue (s.readG a) (s.resolve s.cell s.ctx.net ((s.readG b).toNat % 2 ^ 12)))) 1)
    ∧ s.resolve s.cell s.ctx.net 0xFFF = some s.cell
    ∧ (∀ n c, Tbl.find s.nets s.ctx.net = some n → c ≠ 0xFFF → n.map.length ≤ c →
        s.resolve s.cell s.ctx.net c = none)
    ∧ ∀ n i j a k, Tbl.find s.nets s.ctx.net = some n → n.instOf s.cell = some i →
        n.insts.find? (fun x => x.tmpl == i.tmpl && x.inst == 0) = some j → j.cells.Nodup →
        i.cells.length = j.cells.length → a ≠ 0xFFF → k < j.cells.length → n.map[a]? = j.cells[k]? →
        s.resolve s.cell s.ctx.net a = i.cells[k]?

/-- R148: `take` reads the oldest unread word that came from the place, and the input buffer loses it. -/
def Sys2Proof.Claim.TakeReadsTheOldestWord : Prop :=
  ∀ (d : Rg) (place : Byte) (sb : Bool) (s : State)
    (pre post : List (Nat × W64)) (w : W64), s.Runs →
    s.me.inbuf = pre ++ (place.toNat, w) :: post → (∀ e ∈ pre, e.1 ≠ place.toNat) →
    ∃ t, exec (.take d place sb) s = .next t
      ∧ WroteAs s t { s.me with inbuf := pre ++ post } d w (codeIf sb false w) 2

/-- R149, R166, R168: `mcount` reads COUNT of a place and `csrr` a control register that every firing may read. -/
def Sys2Proof.Claim.CountsAndControlRegistersAreRead : Prop :=
  ∀ (d : Rg) (sb : Bool) (s : State), s.Runs →
    (∀ place : Byte, ∃ t, exec (.mcount d place sb) s = .next t
      ∧ Wrote s t d (BitVec.ofNat 64 (s.ctx.place place.toNat).n)
          (codeIf sb true (BitVec.ofNat 64 (s.ctx.place place.toNat).n)) 2)
    ∧ ∀ reg : BitVec 9, reg.toNat ≤ 4 → ∃ t, exec (.csrr d reg sb) s = .next t
      ∧ Wrote s t d (csrNow s reg.toNat)
          (codeIf sb true (csrNow s reg.toNat)) 2

/-- R148: `take` reads the oldest unread word that came from the place, and the input buffer loses it.

R149, R166, R168: `mcount` reads COUNT of a place and `csrr` a control register that every firing may read. -/
def Obligations.PlacesAndControlRegistersAreRead : Prop :=
  Sys2Proof.Claim.TakeReadsTheOldestWord ∧ Sys2Proof.Claim.CountsAndControlRegistersAreRead

/-- R146, R147, R150, R152: a local `emit`, `emit.w`, `mset`, `arm` or `disarm` is held in the firing, last of its held
actions, and takes effect at deposit only. -/
def Sys2Proof.Claim.LocalActionsAreHeld : Prop :=
  ∀ (s : State) (rel : Bool) (scope : BitVec 3) (a : Rg) (place : Byte)
    (count cell : BitVec 12) (tr : BitVec 6), s.Runs → Local s cell →
    let held (i : Instr) (h : Held) : Prop :=
      ∃ t, exec i s = .next t
        ∧ Passed s t { s.me with held := s.me.held ++ [h] } 2
    (countIn s a count ≤ 4095 →
      held (.emit rel scope a place count cell) (.tokens place.toNat (countIn s a count))
      ∧ held (.mset a place count) (.set place.toNat (countIn s a count)))
    ∧ held (.emitW rel scope a place cell) (.word place.toNat (s.readG a))
    ∧ held (.arm tr cell) (.arm tr.toNat)
    ∧ held (.disarm tr cell) (.disarm tr.toNat)

/-- R146: an `emit`, `emit.w`, `arm` or `disarm` whose CELL is another cell goes into the fabric when it executes and
passes the commit point; an `emit` with REL carries the writes that happen before it, at its scope (R290). (An emission out of a
task's instance is a logged operation as well, R404: not this one.) -/
def Sys2Proof.Claim.RemoteActionsAreSent : Prop :=
  ∀ (s : State) (rel : Bool) (scope : BitVec 3) (a : Rg) (place : Byte)
    (count cell : BitVec 12) (tr : BitVec 6) (dst : Nat), s.Runs →
    s.resolve s.cell s.ctx.net cell.toNat = some dst → dst ≠ s.cell →
    let sent (i : Instr) (index : Nat) (x : Cargo) (link : Option Link) : Prop :=
      ∃ t, exec i s = .next t ∧ Sent s t dst index x link 2
    (s.outside dst = false → countIn s a count ≤ 4095 →
      sent (.emit rel scope a place count cell) place.toNat (.tokens (countIn s a count)) (linked s rel scope))
    ∧ (s.outside dst = false → sent (.emitW rel scope a place cell) place.toNat (.word (s.readG a)) (linked s rel scope))
    ∧ sent (.arm tr cell) tr.toNat (.arm true) none
    ∧ sent (.disarm tr cell) tr.toNat (.arm false) none

/-- R146, R147, R150, R152: a local `emit`, `emit.w`, `mset`, `arm` or `disarm` is held in the firing, last of its held
actions, and takes effect at deposit only.

R146: an `emit`, `emit.w`, `arm` or `disarm` whose CELL is another cell goes into the fabric when it executes and
passes the commit point; an `emit` with REL carries the writes that happen before it, at its scope (R290). (An emission out of a
task's instance is a logged operation as well, R404: not this one.) -/
def Obligations.ActionsAreHeldOrSent : Prop := Sys2Proof.Claim.LocalActionsAreHeld ∧ Sys2Proof.Claim.RemoteActionsAreSent

/-- R153, R156: `sel` and `selx` set the choice code, `halt` marks the firing, `safept` and `nop` do nothing, and
`cfg.load` holds the mask that the cell sees in its bank (R159, R288): with no accepted store of the cell waiting there, the one
that stands there. -/
def Obligations.ChoiceAndMarkersComplete : Prop :=
  ∀ (s : State) (k : BitVec 2) (a : Rg) (off : W32), s.Runs →
    (∃ t, exec (.sel k) s = .next t ∧ Passed s t { s.me with choice := k } 1)
    ∧ (∃ t, exec (.selx a) s = .next t
        ∧ Passed s t { s.me with choice := BitVec.ofNat 2 ((s.readG a).toNat % 4) } 1)
    ∧ (∃ t, exec .safept s = .next t ∧ Passed s t s.me 1)
    ∧ (∃ t, exec .nop s = .next t ∧ Passed s t s.me 1)
    ∧ (∃ t, exec .halt s = .next t ∧ Passed s t { s.me with halt := true } 1)
    ∧ ((s.readG a + off.signExtend 64).toNat % 2 ^ 16 ≤ 0xFFF8 →
        ∃ t, exec (.cfgLoad a off) s = .next t
          ∧ Passed s t { s.me with cfg := some (BitVec.ofNat 64 (ofBytes
              (s.peekBank (cellAddr s.cell + (s.readG a + off.signExtend 64).toNat % 2 ^ 16) 8))) } 2)
    ∧ (s.cell < 2 ^ 16 → (∀ l ∈ s.stores, s.mine l = false) → ∀ b < 2 ^ 16,
        s.peekBank (cellAddr s.cell + b) 8 = Mem.load s.banks (cellAddr s.cell + b) 8)

/-- R168: `csrw`, `csrs` and `csrc` return the old value of `cr.fstat` or `cr.sgen` in g[D], write the new one with the
reserved fields kept at 0 and a generator of 0 made 1 (a vector instruction that waits goes on from the generator as it stood:
R169), replace the collected flags for `cr.fstat`, and pass the commit point. -/
def Obligations.ControlRegistersAreWritten : Prop :=
  ∀ (s : State) (d a : Rg) (reg : BitVec 9) (i : Instr) (new : W64),
    s.Runs → reg.toNat ≤ 1 →
    (i = .csrw d a reg ∧ new = s.readG a
      ∨ i = .csrs d a reg ∧ new = (csrNow s reg.toNat ||| s.readG a)
      ∨ i = .csrc d a reg ∧ new = (csrNow s reg.toNat &&& ~~~(s.readG a))) →
    ∃ t, exec i s = .next t
      ∧ t.readG d = (if d = 0 then 0 else csrNow s reg.toNat)
      ∧ (∀ r, r ≠ d → t.readG r = s.heldG r) ∧ (∀ k, t.readV k = s.heldV k) ∧ (∀ k, t.readSh k = s.heldSh k)
      ∧ t.ctx.fstat = (if reg.toNat = 0 then new.setWidth 5 else s.ctx.fstat)
      ∧ t.me.flags = (if reg.toNat = 0 then new.setWidth 5 else s.me.flags)
      ∧ t.ctx.sgen = (if reg.toNat = 1 then (if new.setWidth 32 = (0 : W32) then 1 else new.setWidth 32) else s.ctx.sgen)
      ∧ t.me.commit = true ∧ t.me.choice = s.me.choice ∧ t.me.woff = s.me.woff + 2 ∧ t.me.wait = none
      ∧ t = (s.modMe fun _ => t.me).modCtx fun c =>
          { c with fstat := t.ctx.fstat, sgen := t.ctx.sgen, genEp := t.ctx.genEp, gens := t.ctx.gens }

end

namespace Sys2Proof.Claim
open Sys2Proof.Machine

/-! ### Words for taking a fault -/

/-- The fault place of a region that is not frozen (R375): its cell, the place, and the context slot that holds the region's
context there, or none where a save area holds it. -/
def faultPlace (s : State) (net : Nat) : Option (Nat × Nat × Option Nat) :=
  match Tbl.find s.nets net with
  | none => none
  | some n => match n.fplace, n.frozen with
    | some (acell, place), none => some (n.map.getD acell 0, place, (s.cellAt (n.map.getD acell 0)).slotFor net)
    | _, _ => none

/-- A token can be placed: the fault place is a control place and holds fewer than 4,095 tokens; for a context in a save
area the token waits in the fabric (R375, R388). -/
def Takes (s : State) : Option (Nat × Nat × Option Nat) → Prop
  | none => False
  | some (_, _, none) => True
  | some (c, p, some k) => (((s.cellAt c).slotCtx k).place p).kind = 1 ∧ (((s.cellAt c).slotCtx k).place p).count < 4095

/-- One token came to the fault place. -/
def TokenCame (s t : State) (net : Nat) : Option (Nat × Nat × Option Nat) → Prop
  | none => False
  | some (c, p, none) => t.flights = s.flights ++ [⟨cellAddr c, c, p, .tokens 1, net, s.clock, false, true, none⟩]
  | some (c, p, some k) => ((t.cellAt c).slotCtx k).place p
      = { ((s.cellAt c).slotCtx k).place p with count := (((s.cellAt c).slotCtx k).place p).count + 1 }

/-- A region is frozen since a clock (R376). -/
def FrozenSince (t : State) (net clock : Nat) : Prop := ∃ n, Tbl.find t.nets net = some n ∧ n.frozen = some clock

/-- The fault of the current firing's instruction: a copy port (SRC 2) adds what it shows of its packet (R373). -/
def faultOf (s : State) (src : Nat) (h : Hit) : Flt :=
  { hit := h, src := src, iss := s.issuer
    port0 := if src = 2 then (s.sectorAt (cellSector s.cell)).port.pidx.toNat else 0
    port1 := if src = 2 then (s.sectorAt (cellSector s.cell)).port.rowd % 2 ^ 32 * 2 ^ 32 + (s.sectorAt (cellSector s.cell)).port.byted % 2 ^ 32
      else 0 }
/-- Its record. -/
def recordOf (s : State) (src : Nat) (h : Hit) (act : Bool) : List W64 := (faultOf s src h).words act s.clock

/-- A sector whose copy port shows a fault that it reported (R189): its class, cause, address and ASID. -/
def portShows (k : Sector) (asid : Nat) (h : Hit) : Sector :=
  { k with port := { k.port with f := { k.port.f with cls := h.cls, cause := h.cause, asid := asid, faddr := BitVec.ofNat 64 h.faddr } } }

/-- The current firing took a fault. It is over and does not deposit: its held actions, input buffer and deductions are gone, its
register writes stand. Its fault is the last of the clock's, which are recorded and delivered at the clock's end (R377). -/
structure Faulted (s t : State) (src : Nat) (h : Hit) : Prop where
  ends     : t.live = false
  firing   : ∃ f : Firing, f.id = s.fid ∧ f.ended = true ∧ f.held = [] ∧ f.inbuf = [] ∧ f.taken = [] ∧ f.regs = s.me.regs
               ∧ (t.ctx.regs, t.ctx.firings)
                   = settle s.ctx.regs (s.ctx.firings.map fun x => if x.id = s.fid then f else x)
  record   : t.due = s.due ++ [faultOf s src h] ∧ t.fidx = s.fidx ∧ t.mem = s.mem ∧ t.nets = s.nets
  banks    : ∀ a, Mem.read t.banks a = Mem.read s.banks a
  units    : t.dies = s.dies ∧ t.range = s.range ∧ t.queues = s.queues ∧ t.bars = s.bars
  sectors  : (src ≠ 2 → t.sectors = s.sectors)
               ∧ (src = 2 → ∀ k, t.sectorAt k = if k = cellSector s.cell then portShows (s.sectorAt k) s.ctx.asid h else s.sectorAt k)

/-- The records of a clock's faults stand in the host's fault ring, one by one, and the clock's list is empty. -/
def Recorded (s t : State) (f : Flt) (act : Bool) : Prop :=
  t.fidx = (State.ringRecord { s with due := [] } s.fring s.fidx (f.words act s.clock)).2
  ∧ t.mem = (State.ringRecord { s with due := [] } s.fring s.fidx (f.words act s.clock)).1.mem ∧ t.due = []

/-- An instruction takes a fault. -/
def Traps (i : Instr) (s : State) (src : Nat) (h : Hit) : Prop := ∃ t, exec i s = .next t ∧ Faulted s t src h

/-- A wave word is consistent with the last-wave record (R123). -/
def Consistent (x : Wave) (w : Option (Byte × Byte)) : Prop :=
  x.pred = 0xFE
  ∨ (x.pred = 0xFF ∧ (w = none ∨ ∃ own succ, w = some (own, succ) ∧ (succ = 0xFE ∨ succ = 0xFF)))
  ∨ ∃ own succ, w = some (own, succ) ∧ x.pred = own ∧ (succ = x.own ∨ succ = 0xFE)

end Sys2Proof.Claim

section
open Sys2Proof Sys2Proof.Machine Sys2Proof.Claim

/-! ### Faults (R123, R157, R372 to R376) -/

/-- R373: the fields of a fault record of an instruction, where each stands; the record of a decode lane (SRC 4) carries in word 4 the
job's next position, which the lane gives it. -/
def Obligations.FaultRecordHoldsItsFields : Prop :=
  ∀ (s : State) (src : Nat) (h : Hit) (act : Bool), src < 8 → h.cls < 256 → h.cause < 256 →
    let ws := recordOf s src h act
    let w (k : Nat) : Nat := (ws.getD k 0).toNat
    ws.length = 8
    ∧ w 0 / 2 ^ 56 = 2 ∧ w 0 / 2 ^ 48 % 2 ^ 8 = h.cls ∧ w 0 / 2 ^ 40 % 2 ^ 8 = h.cause ∧ w 0 / 2 ^ 37 % 2 ^ 3 = src
    ∧ w 0 / 2 ^ 36 % 2 = act.toNat ∧ w 0 / 2 ^ 35 % 2 = 1 ∧ w 0 / 2 ^ 24 % 2 ^ 11 = 0
    ∧ w 0 / 2 ^ 12 % 2 ^ 12 = s.ctx.asid % 2 ^ 12 ∧ w 0 % 2 ^ 12 = 0
    ∧ w 1 = s.cell * 2 ^ 32 % 2 ^ 64
    ∧ w 2 / 2 ^ 58 = s.me.trans % 2 ^ 6 ∧ w 2 / 2 ^ 54 % 2 ^ 4 = s.me.woff % 2 ^ 4 ∧ w 2 / 2 ^ 48 % 2 ^ 6 = 0
    ∧ w 2 % 2 ^ 48 = (s.myTrans.ioff + 4 * s.me.woff) % 2 ^ 48
    ∧ w 3 = h.faddr % 2 ^ 64 ∧ (src ≠ 2 → src ≠ 4 → w 4 = 0 ∧ w 5 = 0)
    ∧ (∀ p0 p1, let u (k : Nat) : Nat := ((({ faultOf s 4 h with port0 := p0, port1 := p1 } : Flt).words act s.clock).getD k 0).toNat
        w 0 / 2 ^ 40 % 2 ^ 16 = u 0 / 2 ^ 40 % 2 ^ 16 ∧ u 0 / 2 ^ 37 % 2 ^ 3 = 4 ∧ u 4 = p0 % 2 ^ 64 ∧ u 5 = p1 % 2 ^ 64)
    ∧ (src = 2 → w 4 = (s.sectorAt (cellSector s.cell)).port.pidx.toNat % 2 ^ 64
        ∧ w 5 / 2 ^ 32 = (s.sectorAt (cellSector s.cell)).port.rowd % 2 ^ 32 ∧ w 5 % 2 ^ 32 = (s.sectorAt (cellSector s.cell)).port.byted % 2 ^ 32)
    ∧ w 6 = s.clock % 2 ^ 64 ∧ w 7 = h.aux % 2 ^ 64

/-- R157, R372: `trap k` raises class 0x14 with code k: the firing ends without a deposit. -/
def Sys2Proof.Claim.TrapRaisesItsClass : Prop :=
  ∀ (s : State) (k : BitVec 10), s.Runs → Traps (.trap k) s 0 { cls := 0x14, aux := k.toNat }

/-- R375 to R377: the faults of a clock are recorded in ascending WHERE and, of one WHERE, in ascending CLASS. A clock's one fault
of a class that R375 delivers with a token: its record goes to the host's fault ring with ACT 1 and the fault place takes a token,
or, where the region declares none that takes it, with ACT 0 and the region freezes. One of a freezing class has ACT 0 and freezes
its region in every case; one of neither kind has ACT 0 and changes no region. -/
def Sys2Proof.Claim.FaultsAreDelivered : Prop :=
  (∀ fs : List Flt, (inOrder fs).Perm fs
    ∧ (inOrder fs).Pairwise fun f g => f.place < g.place ∨ (f.place = g.place ∧ f.hit.cls ≤ g.hit.cls))
  ∧ ∀ (s : State) (f : Flt), s.due = [f] →
    (f.delivery = .token → Takes s (faultPlace s f.iss.net) →
      Recorded s s.deliver f true ∧ TokenCame s s.deliver f.iss.net (faultPlace s f.iss.net) ∧ s.deliver.nets = s.nets)
    ∧ (f.delivery = .token → ¬ Takes s (faultPlace s f.iss.net) → ∀ n, Tbl.find s.nets f.iss.net = some n →
      Recorded s s.deliver f false ∧ FrozenSince s.deliver f.iss.net (n.frozen.getD s.clock) ∧ s.deliver.cells = s.cells)
    ∧ (f.delivery = .freeze → ∀ n, Tbl.find s.nets f.iss.net = some n →
      Recorded s s.deliver f false ∧ FrozenSince s.deliver f.iss.net (n.frozen.getD s.clock) ∧ s.deliver.cells = s.cells)
    ∧ (f.delivery = .neither → Recorded s s.deliver f false ∧ s.deliver.nets = s.nets ∧ s.deliver.cells = s.cells)
    ∧ ((f.delivery = .freeze ↔ f.quiet = false ∧ f.hit.cls ∈ [0x0C, 0x0D, 0x13])
      ∧ (f.delivery = .neither ↔ f.quiet = true ∨ f.hit.cls ∈ [0x04, 0x15] ∨ (f.src = 6 ∧ f.hit.cls ∉ [0x0C, 0x0D, 0x13])))

/-- R157, R372 to R377: `trap k` raises class 0x14 with code k: the firing ends without a deposit. At the end of the clock its
record is written, and the fault place takes a token or the region freezes: in ascending WHERE and CLASS where the clock has
several faults. -/
def Obligations.TrapEndsItsFiring : Prop := Sys2Proof.Claim.TrapRaisesItsClass ∧ Sys2Proof.Claim.FaultsAreDelivered

/-- R123: an instruction whose wave word is inconsistent with the cell's last-wave record is not performed; it raises
class 0x0A, and the record stands. -/
def Obligations.InconsistentWaveRaises0A : Prop :=
  ∀ (i : Instr) (x : Wave) (s : State), s.Runs → i.wave = some x → ¬ Consistent x s.ctx.wave →
    ∃ t, exec i s = .next t ∧ Faulted s t 0 { cls := 0x0A } ∧ t.ctx.wave = s.ctx.wave

/-- R147, R150, R159, R166: where `emit`, `mset`, `cfg.load` and the control-register instructions raise a class instead
of their effect: a count above 4,095, eight bytes that leave the bank, an access that the priority does not allow. -/
def Obligations.NetControlRaisesItsClasses : Prop :=
  ∀ (s : State) (a d : Rg) (place : Byte) (count cell : BitVec 12) (off : W32) (reg : BitVec 9) (sb : Bool), s.Runs →
    (4095 < countIn s a count →
      Traps (.emit false 0 a place count 0xFFF) s 0
        { cls := 2, faddr := s.cell * 2 ^ 32 + 0x20000 + 8 * place.toNat
          aux := countIn s a count % 2 ^ 12 * 2 ^ 52 + s.cell * 2 ^ 32 }
      ∧ Traps (.mset a place count) s 0
        { cls := 2, faddr := s.cell * 2 ^ 32 + 0x20000 + 8 * place.toNat
          aux := countIn s a count % 2 ^ 12 * 2 ^ 52 + s.cell * 2 ^ 32 })
    ∧ (0xFFF8 < (s.readG a + off.signExtend 64).toNat % 2 ^ 16 →
      Traps (.cfgLoad a off) s 0
        { cls := 3, faddr := (s.readG a + off.signExtend 64).toNat % 2 ^ 16, aux := 8 * 2 ^ 32 })
    ∧ (s.prio ≠ 7 → 5 ≤ reg.toNat → Traps (.csrr d reg sb) s 0 { cls := 0x0F })
    ∧ (s.prio ≠ 7 → 2 ≤ reg.toNat →
      Traps (.csrw d a reg) s 0 { cls := 0x0F } ∧ Traps (.csrs d a reg) s 0 { cls := 0x0F }
      ∧ Traps (.csrc d a reg) s 0 { cls := 0x0F })

end

namespace Sys2Proof.Claim
open Sys2Proof.Machine

/-! ### Words for cells: selection, deposit, arrivals -/

/-- A transition that is enabled since a clock (R38). -/
def Candidate (c : Ctx) (t : Nat) (x : Trans) : Prop :=
  (t, x) ∈ c.trans ∧ x.since.isSome = true ∧ c.enabled t = true

/-- R50: a transition wins where every other candidate has a lower priority, or the same and a later start, or the same
and a higher index; one with `cfg.load` is picked only where no firing is in progress (R159), and until then none is in its place
(log 28). -/
def Wins (c : Ctx) (t : Nat) (x : Trans) : Prop :=
  Candidate c t x ∧ c.tr t = x ∧ (c.busy = [] ∨ hasCfgLoad x = false) ∧ ∀ u y, Candidate c u y → u ≠ t →
    recPrio y.record < recPrio x.record
    ∨ (recPrio y.record = recPrio x.record ∧ (x.since.getD 0 < y.since.getD 0
        ∨ (x.since.getD 0 = y.since.getD 0 ∧ t < u)))

/-- The weight of a normal or test arc (R37). -/
def arcWeight (a : Arc) (p : Place) : Nat := if a.weight = 0 ∧ p.kind ≠ 2 then 16 else a.weight

/-- What an input arc does to its place at reserve (R36, R37): a normal arc takes its weight, oldest words first (a data place
gives at most four, R37); a reset arc empties the place, but for the words that have not moved into the cell (R383);
a test or an inhibitor arc takes nothing. -/
def Reserved (a : Arc) (p q : Place) : Prop :=
  (a.kind = 0 → if p.kind = 2 then a.weight ≤ 4 → q.all = p.all.drop a.weight else q.count = p.count - arcWeight a p)
  ∧ (a.kind = 3 → if p.kind = 2 then q.all = (if p.moving then p.more else []) else q.count = 0)
  ∧ (a.kind = 1 ∨ a.kind = 2 → q = p)
  ∧ q.kind = p.kind

/-- A count added to a control place at deposit; one that would pass 4,095 is refused whole (R378). -/
def addCount (c n : Nat) : Nat := if c + n ≤ 4095 then c + n else c

/-- A held action on a control place (R151). -/
def heldCount (p c : Nat) : Held → Nat
  | .tokens q n => if q = p then addCount c n else c
  | .set q n => if q = p then n else c
  | _ => c

/-- An output arc of the chosen group on a control place (R37, R40). -/
def arcCount (p : Nat) (code : BitVec 2) (c : Nat) (a : Arc) : Nat :=
  if a.group = code.toNat ∧ a.place = p then addCount c (if a.weight = 0 then 16 else a.weight) else c

/-- Does a held action set a place (R150)? -/
def setsPlace (p : Nat) : Held → Bool
  | .set q _ => q = p
  | _ => false

/-- What other firings of the clock have added to a place that a firing sets: it follows (R151). -/
def addedBefore (s : State) (cell p : Nat) (hs : List Held) : List Nat :=
  if (s.cellAt cell).run.gave = s.clock + 1 ∧ hs.any (setsPlace p) = true then
    ((s.cellAt cell).run.added.filter fun e => e.1 == p).map fun e => e.2.1
  else []

/-- The words that a firing holds for a data place, in body order. -/
def heldWords (p : Nat) (hs : List Held) : List W64 := hs.filterMap fun h =>
  match h with
  | .word q w => if q = p then some w else none
  | _ => none

/-- A flight that may arrive now at a context of its net instance. -/
def Arriving (s : State) (k slot : Nat) (f : Flight) : Prop :=
  s.flights[k]? = some f ∧ s.mayArrive k f = true ∧ (s.cellAt f.dst).slotFor f.net = some slot

/-- No emitter of a higher WHERE has added to the context in this clock (R378). -/
def InTurn (s : State) (slot : Nat) (f : Flight) : Prop :=
  ((s.cellAt f.dst).slotCtx slot).took ≠ s.clock + 1 ∨ ((s.cellAt f.dst).slotCtx slot).taker ≤ f.src

/-- Nothing changed but one context and the flights. -/
def OneCtx (s t : State) (cell slot : Nat) : Prop :=
  t = { s.modSlot cell slot (fun _ => (t.cellAt cell).slotCtx slot) with flights := t.flights }

end Sys2Proof.Claim

section
open Sys2Proof Sys2Proof.Machine Sys2Proof.Claim

/-! ### Cells: selection, deposit, arrivals (R35 to R50, R151) -/

/-- R36, R41, R42, R50: the cell picks the winner; a firing starts at word 0 with choice code 0, the transition's enabled length
starts anew, each place with one input arc of the transition takes that arc's effect, and every other place stands. The firing
may observe what the tokens that its normal arcs take, the oldest first, and those on its test arcs' places link (R290). -/
def Obligations.SelectionReserves : Prop :=
  ∀ (s : State) (cell t : Nat) (x : Trans), s.canSelect cell = true → Wins (s.cellAt cell).run t x →
    ∃ s', exec (.firingSelect cell) s = .next s'
      ∧ (∃ f, (s'.cellAt cell).run.firings = (s.cellAt cell).run.firings ++ [f]
          ∧ f.id = (s.cellAt cell).run.nextId ∧ f.trans = t ∧ f.woff = 0 ∧ f.choice = 0 ∧ f.commit = false
          ∧ f.ended = false ∧ f.held = [] ∧ f.wait = none
          ∧ (∀ v, v ∈ f.sync ↔ ∃ a ∈ recIns x.record, ∃ l ∈ ((s.cellAt cell).run.place a.place).rel, l.link = v
              ∧ ((a.kind = 0 ∧ l.start < arcWeight a ((s.cellAt cell).run.place a.place)) ∨ a.kind = 2))
          ∧ (∀ a ∈ recIns x.record, (∀ b ∈ recIns x.record, b.place = a.place → b = a) → (recIns x.record).count a = 1 →
              a.kind = 0 → a.weight ≤ 4 → ((s.cellAt cell).run.place a.place).kind = 2 →
              (f.inbuf.filter fun e => e.1 == a.place).map (·.2) = ((s.cellAt cell).run.place a.place).all.take a.weight))
      ∧ (s'.cellAt cell).run.nextId = (s.cellAt cell).run.nextId + 1 ∧ ((s'.cellAt cell).run.tr t).since = none
      ∧ (∀ a ∈ recIns x.record, (∀ b ∈ recIns x.record, b.place = a.place → b = a) → (recIns x.record).count a = 1 →
          Reserved a ((s.cellAt cell).run.place a.place) ((s'.cellAt cell).run.place a.place))
      ∧ (∀ p, (∀ a ∈ recIns x.record, a.place ≠ p) → (s'.cellAt cell).run.place p = (s.cellAt cell).run.place p)
      ∧ (s'.cellAt cell).run.regs = (s.cellAt cell).run.regs ∧ (∀ c, c ≠ cell → s'.cellAt c = s.cellAt c)
      ∧ s'.mem = s.mem ∧ s'.banks = s.banks ∧ s'.flights = s.flights ∧ s'.sectors = s.sectors

/-- R40, R41, R151, R156: a firing whose body is complete deposits. Its held actions on a control place take effect in body order
and then the output arcs of the chosen group; where it sets a place, what other firings of the clock added there follows; the words
that it holds for a data place with room join its queue in body order; its flags join `cr.fstat`; `halt` ends the net instance; the
firing is over. It deposits before the fabric arrivals of its clock and after the deposits of firings selected earlier (R44, R151,
R378); one with `cfg.load` deposits once its cell has no accepted store that is not performed (R298). -/
def Obligations.DepositFollowsTheOrder : Prop :=
  ∀ (s : State) (cell fid : Nat), Ordered (s.cellAt cell).run.firings → (s.focus cell fid).bodyDone = true →
    (s.focus cell fid).clockDone = true → (s.cellAt cell).run.took ≠ s.clock + 1 →
    ((s.cellAt cell).run.gave ≠ s.clock + 1 ∨ (s.cellAt cell).run.giver < fid) → ((s.focus cell fid).me.cfg = none ∨ ∀ l ∈ s.stores, (s.focus cell fid).mine l = false) →
    let f := (s.focus cell fid).me
    let outs := recOuts ((s.cellAt cell).run.tr f.trans).record
    ∃ t, exec (.firingDeposit cell fid) s = .next t
      ∧ (t.focus cell fid).live = false
      ∧ (t.cellAt cell).run.fstat = (s.cellAt cell).run.fstat ||| f.flags
      ∧ (∀ p, ((s.cellAt cell).run.place p).kind = 1 →
          ((t.cellAt cell).run.place p).count
            = (addedBefore s cell p f.held).foldl addCount
                (outs.foldl (arcCount p f.choice) (f.held.foldl (heldCount p) ((s.cellAt cell).run.place p).count)))
      ∧ (∀ p, ((s.cellAt cell).run.place p).kind = 2 → ((s.cellAt cell).run.place p).entry = [] →
          ((s.cellAt cell).run.place p).all.length + (heldWords p f.held).length ≤ ((s.cellAt cell).run.place p).cap →
          ((t.cellAt cell).run.place p).all = ((s.cellAt cell).run.place p).all ++ heldWords p f.held)
      ∧ (f.halt = true → ∀ n, Tbl.find s.nets (s.cellAt cell).run.net = some n →
          ∃ n', Tbl.find t.nets (s.cellAt cell).run.net = some n' ∧ n'.halted = some (n.halted.getD s.clock))
      ∧ (∀ c, c ≠ cell → t.cellAt c = s.cellAt c)
      ∧ t.banks = s.banks ∧ t.sectors = s.sectors ∧ t.dies = s.dies

/-- R35, R43, R44: a count in flight joins a control place that can take it, a remote `disarm` clears ARMED, a word joins
the tail of a data place with room or is held by the fabric at a full one, a held word joins once there is room, and the
first local word that waits at a place's entry joins once there is room (R147). The arrivals of a clock come from emitters of
rising WHERE (R378), and a token brings what its sender released (R290). -/
def Obligations.ArrivalsJoinTheirPlaces : Prop :=
  ∀ (s : State),
    (∀ k slot f n, Arriving s k slot f → InTurn s slot f → slot ≤ 2 → f.cargo = .tokens n → n ≠ 0 →
      (((s.cellAt f.dst).slotCtx slot).place f.index).kind = 1 →
      (((s.cellAt f.dst).slotCtx slot).place f.index).count + n ≤ 4095 →
      ∃ t, exec (.tokenArrival k) s = .next t ∧ t.flights = s.flights.eraseIdx k ∧ OneCtx s t f.dst slot
        ∧ (((t.cellAt f.dst).slotCtx slot).place f.index).count = (((s.cellAt f.dst).slotCtx slot).place f.index).count + n
        ∧ (((t.cellAt f.dst).slotCtx slot).place f.index).rel = (((s.cellAt f.dst).slotCtx slot).place f.index).rel
            ++ f.rel.toList.map (fun l => (⟨(((s.cellAt f.dst).slotCtx slot).place f.index).count, n, l⟩ : TokLink))
        ∧ ∀ p, p ≠ f.index → ((t.cellAt f.dst).slotCtx slot).place p = ((s.cellAt f.dst).slotCtx slot).place p)
    ∧ (∀ k slot f, Arriving s k slot f → slot ≤ 2 → f.cargo = .arm false →
      ∃ t, exec (.tokenArrival k) s = .next t ∧ t.flights = s.flights.eraseIdx k ∧ OneCtx s t f.dst slot
        ∧ (((t.cellAt f.dst).slotCtx slot).tr f.index).armed = false
        ∧ (((t.cellAt f.dst).slotCtx slot).tr f.index).since = none
        ∧ ∀ x, x ≠ f.index → ((t.cellAt f.dst).slotCtx slot).tr x = ((s.cellAt f.dst).slotCtx slot).tr x)
    ∧ (∀ k slot f w, Arriving s k slot f → InTurn s slot f → slot ≤ 2 → f.cargo = .word w →
      let p := ((s.cellAt f.dst).slotCtx slot).place f.index
      p.kind = 2 → p.took ≠ s.clock + 1 →
      ∃ t, exec (.wordArrival k) s = .next t
        ∧ (p.all.length < p.cap ∧ p.entry = [] →
            t.flights = s.flights.eraseIdx k ∧ OneCtx s t f.dst slot
            ∧ (((t.cellAt f.dst).slotCtx slot).place f.index).all = p.all ++ [w])
        ∧ (¬ (p.all.length < p.cap ∧ p.entry = []) → t = { s with flights := s.flights.set k { f with held := true } }))
    ∧ (∀ k slot f w, s.flights[k]? = some f → InTurn s slot f → f.held = true → (s.cellAt f.dst).slotFor f.net = some slot → slot ≤ 2 →
      f.cargo = .word w →
      let p := ((s.cellAt f.dst).slotCtx slot).place f.index
      p.kind = 2 → p.took ≠ s.clock + 1 → p.all.length < p.cap → p.entry = [] →
      ∃ t, exec (.heldWordDelivery k) s = .next t ∧ t.flights = s.flights.eraseIdx k ∧ OneCtx s t f.dst slot
        ∧ (((t.cellAt f.dst).slotCtx slot).place f.index).all = p.all ++ [w])
    ∧ (∀ cell place w ws,
      let p := (s.cellAt cell).run.place place
      p.entry = w :: ws → p.all.length < p.cap →
      ∃ t, exec (.entryWordJoin cell place) s = .next t ∧ OneCtx s t cell 0
        ∧ ((t.cellAt cell).run.place place).all = p.all ++ [w] ∧ ((t.cellAt cell).run.place place).entry = ws)

/-- R56, R306, R315: a halted net instance with no firing in progress and no command open completes: it is done, its
sectors are scrubbing, its flights are gone; once it is done the scrub clears its sectors' cells and units, keeps their
futures' GEN, and frees its number. -/
def Obligations.NetInstancesCompleteAndAreScrubbed : Prop :=
  ∀ (s : State) (net : Nat) (n : Net), Tbl.find s.nets net = some n →
    (notPast s.clock n.halted = false → n.done = false → net < 4096 → s.netBusy net = false →
      s.commandsOpen (fun i => i.net == net) = false →
      ∃ t, exec (.netInstanceComplete net) s = .next t
        ∧ (∃ n', Tbl.find t.nets net = some n' ∧ n'.done = true ∧ n'.quanta = 0)
        ∧ (∀ m, m ≠ net → Tbl.find t.nets m = Tbl.find s.nets m)
        ∧ (∀ k ∈ n.sectors, (t.sectorAt k).use = .scrubbing net)
        ∧ (∀ k, k ∉ n.sectors → t.sectorAt k = s.sectorAt k)
        ∧ (∀ f ∈ t.flights, f.net ≠ net) ∧ t.mem = s.mem ∧ t.banks = s.banks ∧ t.cells = s.cells)
    ∧ (n.done = true →
      ∃ t, exec (.scrubComplete net) s = .next t
        ∧ (∀ k ∈ n.sectors, ∀ f, (Tbl.get {} (t.sectorAt k).futures f).v = false
            ∧ (Tbl.get {} (t.sectorAt k).futures f).gen = (Tbl.get {} (s.sectorAt k).futures f).gen)
        ∧ Tbl.find t.nets net = none ∧ (∀ m, m ≠ net → Tbl.find t.nets m = Tbl.find s.nets m)
        ∧ (∀ k ∈ n.sectors, (t.sectorAt k).use = .free ∧ (t.sectorAt k).lastAs = some n.asid
            ∧ (t.sectorAt k).node = {} ∧ (t.sectorAt k).ladders = [] ∧ (t.sectorAt k).queue = {}
            ∧ (t.sectorAt k).port = {} ∧ (t.sectorAt k).blocks = [])
        ∧ (∀ k, k ∉ n.sectors → t.sectorAt k = s.sectorAt k)
        ∧ (∀ c, n.sectors.contains (cellSector c) = true → t.cellAt c = {})
        ∧ (∀ c, n.sectors.contains (cellSector c) = false → t.cellAt c = s.cellAt c)
        ∧ t.mem = s.mem)

end

namespace Sys2Proof.Claim
open Sys2Proof.Machine

/-! ### Words for memory -/

/-- Nothing changed but the current firing and its cell's last-wave record and chain. -/
def OnlyMeAndWave (s t : State) : Prop :=
  t = (s.modMe fun _ => t.me).modCtx fun c => { c with wave := t.ctx.wave, chain := t.ctx.chain }

/-- The same, what the cell has read of memory (R286) and what it has learnt or may learn of others' releases (R290, R294). -/
def OnlyMeWaveAndSeen (s t : State) : Prop :=
  t = { (s.modMe fun _ => t.me).modCtx (fun c => { c with wave := t.ctx.wave, chain := t.ctx.chain, seen := t.ctx.seen,
                                                           know := t.ctx.know, floor := t.ctx.floor, found := t.ctx.found }) with
        wlog := t.wlog }

/-- A wave-word instruction that loads completes: the destination, the choice code, three words further, the last-wave
record; every other register stands. -/
structure LoadEnds (s t : State) (d : Rg) (x : W64) (c : Option (BitVec 2)) (w : Wave) : Prop where
  dest   : t.readG d = if d = 0 then 0 else x
  others : ∀ r, r ≠ d → t.readG r = s.heldG r
  lanes  : ∀ k, t.readV k = s.heldV k
  sels   : ∀ k, t.readSh k = s.heldSh k
  choice : t.me.choice = c.getD s.me.choice
  place  : t.me.woff = s.me.woff + 3 ∧ t.me.wait = none
  wave   : t.ctx.wave = some (w.own, w.succ)
  flags  : t.fstat = s.fstat ∧ t.me.held = s.me.held ∧ t.me.inbuf = s.me.inbuf

/-- No register was written, three words further, the last-wave record. -/
structure StoreEnds (s t : State) (w : Wave) : Prop where
  regs   : (∀ r, t.readG r = s.heldG r) ∧ (∀ k, t.readV k = s.heldV k) ∧ ∀ k, t.readSh k = s.heldSh k
  choice : t.me.choice = s.me.choice
  place  : t.me.woff = s.me.woff + 3 ∧ t.me.wait = none
  wave   : t.ctx.wave = some (w.own, w.succ)
  flags  : t.fstat = s.fstat ∧ t.me.held = s.me.held ∧ t.me.inbuf = s.me.inbuf

/-- The bytes of a type code of `ld` and `st` (R174). -/
def accBytes (tc : BitVec 4) : Nat :=
  if tc = 1 ∨ tc = 5 then 1 else if tc = 2 ∨ tc = 6 then 2 else if tc = 3 ∨ tc = 7 then 4 else 8

/-- What a register holds after a load of bytes worth `v` (R175): sign-extended for `.i8 .i16 .i32`, zero-extended for
`.z8 .z16 .z32`, whole for `.i64`. -/
def Extended (tc : BitVec 4) (v : Nat) (x : W64) : Prop :=
  if tc = 1 ∨ tc = 2 ∨ tc = 3 then
    ∃ k : Int, x.toInt = v + k * (2 ^ (8 * accBytes tc) : Nat) ∧ -(2 ^ (8 * accBytes tc - 1) : Nat) ≤ x.toInt
      ∧ x.toInt < (2 ^ (8 * accBytes tc - 1) : Nat)
  else x.toNat = v

/-- The `.z` types are unsigned (R39, R175). -/
def unsignedType (tc : BitVec 4) : Bool := tc = 5 || tc = 6 || tc = 7

/-- The address of `off(gA)` and of `off(gA, gB)` (R88, R175). -/
def at2 (s : State) (a : Rg) (off : W32) : Nat := (s.readG a + off.signExtend 64).toNat
def at3 (s : State) (n : Nat) (a b : Rg) (off : W32) : Nat :=
  (s.readG a + BitVec.ofNat 64 (n * (s.readG b).toNat) + off.signExtend 64).toNat

/-- The path of a wave word names on-chip memory (R88): bank, sector or fabric. -/
def onChip (w : Wave) : Prop := w.path.toNat ≤ 2

/-- A version of memory that a load of some 8-byte units may read (R286, R292; log 5): none older than what happens before the
load, nor than what the cell has read of them; the latest, unless the schedule lets the load read an older one. -/
structure MayRead (s : State) (us : List Nat) (v : Nat) : Prop where
  floor  : s.ctx.floor ≤ v
  seen   : ∀ u ∈ us, Tbl.get 0 s.ctx.seen u ≤ v ∧ Tbl.get 0 s.ctx.know u ≤ v
  strong : s.late = 0 → s.version ≤ v

/-- The bytes at an address on an on-chip path: of the cell's own bank as it stands, of another bank as a version had it,
the cell's own accepted stores over them (R287); of another window as it stands. -/
def onChipBytes (s : State) (w : Wave) (a n v : Nat) : List Byte :=
  let ad := s.pathAddr w.path.toNat a
  if faWin ad = 0 then s.seeOwn false ad (Mem.load (if faCell ad = s.cell then s.banks else (s.asOf v).1) ad n)
  else s.fabRead ad n

/-- The bytes of pieces of memory, as a version had them, the cell's own accepted stores to the same addresses over them. -/
def virtBytes (s : State) (a v : Nat) (ps : List (Nat × Nat × Bool)) : List Byte :=
  s.seeOwn true a (ps.flatMap fun p => Mem.load (s.asOf v).2 p.1 p.2.1)

/-- An access that the rules of R91 to R94 and R175 let through. -/
def lets (s : State) (w : Wave) (a n : Nat) (write : Bool) : Prop := s.pathHit w.path.toNat a n write = none

/-- Does an on-chip access go to a bank? -/
def inBank (s : State) (w : Wave) (a : Nat) : Prop := faWin (s.pathAddr w.path.toNat a) = 0

/-- The state in which an access is performed: its place on the wave chain is taken. -/
def chained (s : State) (w : Wave) : State := (s.takeWave w).getD s

/-- The bytes of both memories outside an interval stand. -/
def BytesStand (m k : Mem) (a n : Nat) : Prop := ∀ c, c < a ∨ a + n ≤ c → Mem.read k c = Mem.read m c

/-- The store of bytes in a bank: they stand at the address, every other byte of every bank and all of memory stand. -/
structure BankStored (s t : State) (w : Wave) (a : Nat) (bs : List Byte) : Prop where
  stored : Mem.load t.banks (s.pathAddr w.path.toNat a) bs.length = bs
  banks  : BytesStand s.banks t.banks (s.pathAddr w.path.toNat a) bs.length
  memory : ∀ c, Mem.read t.mem c = Mem.read s.mem c
  commit : t.me.commit = true
  ends   : StoreEnds s t w
  frame  : t = { (s.modMe fun _ => t.me).modCtx (fun c => { c with wave := t.ctx.wave, chain := t.ctx.chain, seen := t.ctx.seen, know := t.ctx.know }) with
                 banks := t.banks, dies := t.dies, wlog := t.wlog }

/-- The store is performed as it is accepted: the schedule does not put it off, and none of the cell's that it meets is put
off (R285, R287; log 5). -/
def atOnce (s : State) (virt : Bool) (a n : Nat) : Prop := s.late = 0 ∧ s.pends virt a n = false

/-- The store is accepted and is not performed yet: it is the last of those, under the present epoch, with the link of its
release where it is one (R290), and every byte stands. -/
structure Accepted (s t : State) (i : Instr) (w : Wave) (virt : Bool) (a : Nat) (bs : List Byte) (ps : List (Nat × Nat × Bool)) : Prop where
  store  : t.stores = s.stores ++ [{ iss := s.issuer, virt := virt, addr := a, bytes := bs, parts := ps, epoch := s.qcur
                                     rel := s.relLink i }]
  memory : t.mem = s.mem ∧ t.banks = s.banks
  commit : t.me.commit = true
  ends   : StoreEnds s t w

/-- A store into a bank: at once on the bank path, after the cell's accepted stores that it meets (R287), else at once or
accepted. -/
def Stored (s t : State) (i : Instr) (w : Wave) (a : Nat) (bs : List Byte) : Prop :=
  ((w.path = 0 ∧ s.pends false (s.pathAddr w.path.toNat a) bs.length = false) ∨ atOnce s false (s.pathAddr w.path.toNat a) bs.length →
    BankStored s t w a bs)
  ∧ (w.path = 0 → Mem.load t.banks (s.pathAddr w.path.toNat a) bs.length = bs ∧ StoreEnds s t w)
  ∧ (w.path ≠ 0 → ¬ atOnce s false (s.pathAddr w.path.toNat a) bs.length → Accepted s t i w false (s.pathAddr w.path.toNat a) bs [])

/-- The bytes of a register that a store writes, lowest first (R3, R175). -/
def lowBytes (n : Nat) (x : W64) : List Byte := (List.range n).map fun k => BitVec.ofNat 8 (x.toNat / 2 ^ (8 * k))
def laneBytes (x : Lane) : List Byte := (List.range 64).map fun k => BitVec.ofNat 8 (x.toNat / 2 ^ (8 * k))

/-- The number that bytes hold, lowest first. -/
def numberOf (bs : List Byte) : Nat := (bs.zipIdx.map fun e => e.1.toNat * 2 ^ (8 * e.2)).sum

/-- A virtual access that its copy port can perform now (R89, R392): the port is not frozen and withholds none before it. -/
def portFree (s : State) : Prop :=
  (s.sectorAt (cellSector s.cell)).port.f.frozen = false ∧ ∀ x, (s.withheld (cellSector s.cell)).head? = some x → x = s.meAtPort

/-- The sectors are the same but for the accesses that their ports withhold. -/
def ButWaits (s t : State) : Prop :=
  ∀ k, { t.sectorAt k with port := { (t.sectorAt k).port with waits := (s.sectorAt k).port.waits } } = s.sectorAt k

/-- What a virtual load may change beside the firing and its wave: what the cell has read of memory and what it has learnt of
others' releases, what owners' TLBs hold, the counter of free values, and what the port withheld. -/
def VirtualFrame (s t : State) : Prop :=
  t = { (s.modMe fun _ => t.me).modCtx (fun c => { c with wave := t.ctx.wave, chain := t.ctx.chain, seen := t.ctx.seen,
                                                           know := t.ctx.know, floor := t.ctx.floor, found := t.ctx.found }) with
        owners := t.owners, free := t.free, wlog := t.wlog, sectors := t.sectors }
  ∧ ButWaits s t

/-- A virtual store: performed at the addresses that translation gives, or accepted. No byte of a bank changes. -/
def VirtStored (s t : State) (i : Instr) (w : Wave) (a : Nat) (bs : List Byte) (ps : List (Nat × Nat × Bool)) : Prop :=
  (atOnce s true a bs.length → StoreEnds s t w ∧ t.me.commit = true ∧ t.mem = State.storePieces s.mem bs ps ∧ t.banks = s.banks
    ∧ t.stores = s.stores)
  ∧ (¬ atOnce s true a bs.length → Accepted s t i w true a bs ps)

end Sys2Proof.Claim

section
open Sys2Proof Sys2Proof.Machine Sys2Proof.Claim

/-! ### Loads and stores (R88 to R94, R112, R123, R172 to R176) -/

/-- R175: `ld`, `ldx` and `vld` on a bank, sector or fabric path write the extended bytes at the address, and the last-wave
record takes OWN and SUCC (R123). A load of another cell's bank reads a version that R286 and R292 allow (log 5). Nothing else
changes but what the cell has learnt of others' writes (R290, R294). (A `ld` of the block window takes a block: not this one.) -/
def Sys2Proof.Claim.OnChipLoadsComplete : Prop :=
  ∀ (s : State) (w : Wave), s.Runs → Consistent w s.ctx.wave → onChip w →
    (∀ (tc : BitVec 4) (d a b : Rg) (sb : Bool) (off : W32), 1 ≤ tc.toNat → tc.toNat ≤ 7 →
      (∀ ad, (ad = at2 s a off ∧ lets s w ad (accBytes tc) false ∧ s.isTake w.path.toNat ad (accBytes tc) = false) →
        ∃ v x t, exec (.ld tc d a sb off w) s = .next t ∧ Extended tc (numberOf (onChipBytes s w ad (accBytes tc) v)) x
          ∧ MayRead s (unitsOf false (s.pathAddr w.path.toNat ad) (accBytes tc)) v
          ∧ LoadEnds s t d x (codeIf sb (unsignedType tc) x) w ∧ OnlyMeWaveAndSeen s t)
      ∧ (∀ ad, (ad = at3 s (accBytes tc) a b off ∧ lets s w ad (accBytes tc) false ∧ s.isTake w.path.toNat ad (accBytes tc) = false) →
        ∃ v x t, exec (.ldx tc d a b sb off w) s = .next t ∧ Extended tc (numberOf (onChipBytes s w ad (accBytes tc) v)) x
          ∧ MayRead s (unitsOf false (s.pathAddr w.path.toNat ad) (accBytes tc)) v
          ∧ LoadEnds s t d x (codeIf sb (unsignedType tc) x) w ∧ OnlyMeWaveAndSeen s t))
    ∧ (∀ (v : BitVec 3) (a : Rg) (off : W32), lets s w (at2 s a off) 64 false →
        ∃ ver t, exec (.vld v a off w) s = .next t
          ∧ (∀ k, k < 64 → ((t.readV v.toNat) >>> (8 * k)).setWidth 8
              = (onChipBytes s w (at2 s a off) 64 ver).getD k 0)
          ∧ MayRead s (unitsOf false (s.pathAddr w.path.toNat (at2 s a off)) 64) ver
          ∧ (∀ k, k ≠ v.toNat → t.readV k = s.heldV k) ∧ (∀ r, t.readG r = s.heldG r)
          ∧ t.me.woff = s.me.woff + 3 ∧ t.me.wait = none ∧ t.ctx.wave = some (w.own, w.succ) ∧ OnlyMeWaveAndSeen s t)

/-- R175: `st`, `stx` and `vst` into a bank store the bytes of the register at the address that the path names, pass the
commit point, and leave every other byte as it was. On the sector and fabric paths the store may be accepted and performed
later (R173, R285, log 5). -/
def Sys2Proof.Claim.BankStoresComplete : Prop :=
  ∀ (s : State) (w : Wave), s.Runs → Consistent w s.ctx.wave → onChip w →
    (∀ (tc : BitVec 4) (d a b : Rg) (off : W32), 1 ≤ tc.toNat → tc.toNat ≤ 4 →
      (lets s w (at2 s a off) (accBytes tc) true → inBank s w (at2 s a off) →
        ∃ t, exec (.st tc d a off w) s = .next t
          ∧ Stored s t (.st tc d a off w) w (at2 s a off) (lowBytes (accBytes tc) (s.readG d)))
      ∧ (lets s w (at3 s (accBytes tc) a b off) (accBytes tc) true → inBank s w (at3 s (accBytes tc) a b off) →
        ∃ t, exec (.stx tc d a b off w) s = .next t
          ∧ Stored s t (.stx tc d a b off w) w (at3 s (accBytes tc) a b off) (lowBytes (accBytes tc) (s.readG d))))
    ∧ (∀ (v : BitVec 3) (a : Rg) (off : W32), lets s w (at2 s a off) 64 true → inBank s w (at2 s a off) →
        ∃ t, exec (.vst v a off w) s = .next t
          ∧ Stored s t (.vst v a off w) w (at2 s a off) (laneBytes (s.readV v.toNat)))

/-- R175: `ld`, `ldx` and `vld` on a bank, sector or fabric path write the extended bytes at the address, and the last-wave
record takes OWN and SUCC (R123). A load of another cell's bank reads a version that R286 and R292 allow (log 5). Nothing else
changes but what the cell has learnt of others' writes (R290, R294). (A `ld` of the block window takes a block: not this one.)

R175: `st`, `stx` and `vst` into a bank store the bytes of the register at the address that the path names, pass the
commit point, and leave every other byte as it was. On the sector and fabric paths the store may be accepted and performed
later (R173, R285, log 5). -/
def Obligations.OnChipAccessesComplete : Prop := Sys2Proof.Claim.OnChipLoadsComplete ∧ Sys2Proof.Claim.BankStoresComplete

/-- R89, R103, R175: a virtual load whose translation succeeds writes the extended bytes of a version that R286 and R292
allow (log 5); a virtual store whose pages all translate writes the bytes at the addresses that translation gives, at once or later
(R285), and no byte of a bank. -/
def Sys2Proof.Claim.VirtualAccessesComplete : Prop :=
  ∀ (s : State) (w : Wave) (tc : BitVec 4) (d a b : Rg) (sb : Bool) (v : BitVec 3) (off : W32) (s1 : State)
    (ps : List (Nat × Nat × Bool)),
    s.Runs → Consistent w s.ctx.wave → w.path = 3 → portFree s → 1 ≤ tc.toNat → tc.toNat ≤ 7 →
    let reads (ad n : Nat) : Prop := (chained s w).leavePort.pieces (chained s w).issuer ad n false (State.pieceFuel n) = (s1, .ok ps)
    let writes (ad n : Nat) : Prop := (chained s w).commit.leavePort.pieces (chained s w).issuer ad n true (State.pieceFuel n) = (s1, .ok ps)
    (reads (at2 s a off) (accBytes tc) →
      ∃ ver x t, exec (.ld tc d a sb off w) s = .next t ∧ Extended tc (numberOf (virtBytes s (at2 s a off) ver ps)) x
        ∧ MayRead s (memUnits ps) ver ∧ LoadEnds s t d x (codeIf sb (unsignedType tc) x) w ∧ VirtualFrame s t)
    ∧ (reads (at3 s (accBytes tc) a b off) (accBytes tc) →
      ∃ ver x t, exec (.ldx tc d a b sb off w) s = .next t
        ∧ Extended tc (numberOf (virtBytes s (at3 s (accBytes tc) a b off) ver ps)) x
        ∧ MayRead s (memUnits ps) ver ∧ LoadEnds s t d x (codeIf sb (unsignedType tc) x) w ∧ VirtualFrame s t)
    ∧ (reads (at2 s a off) 64 →
      ∃ ver t, exec (.vld v a off w) s = .next t
        ∧ (∀ k, k < 64 → ((t.readV v.toNat) >>> (8 * k)).setWidth 8 = (virtBytes s (at2 s a off) ver ps).getD k 0)
        ∧ MayRead s (memUnits ps) ver
        ∧ (∀ k, k ≠ v.toNat → t.readV k = s.heldV k) ∧ (∀ r, t.readG r = s.heldG r)
        ∧ t.me.woff = s.me.woff + 3 ∧ t.me.wait = none ∧ VirtualFrame s t)
    ∧ (tc.toNat ≤ 4 → writes (at2 s a off) (accBytes tc) →
      ∃ t, exec (.st tc d a off w) s = .next t ∧ VirtStored s t (.st tc d a off w) w (at2 s a off) (lowBytes (accBytes tc) (s.readG d)) ps)
    ∧ (tc.toNat ≤ 4 → writes (at3 s (accBytes tc) a b off) (accBytes tc) →
      ∃ t, exec (.stx tc d a b off w) s = .next t
        ∧ VirtStored s t (.stx tc d a b off w) w (at3 s (accBytes tc) a b off) (lowBytes (accBytes tc) (s.readG d)) ps)
    ∧ (writes (at2 s a off) 64 →
      ∃ t, exec (.vst v a off w) s = .next t ∧ VirtStored s t (.vst v a off w) w (at2 s a off) (laneBytes (s.readV v.toNat)) ps)

end

namespace Sys2Proof.Claim
open Sys2Proof.Machine

/-! ### Words for atomics -/

/-- An unsigned number of `n` bytes as two's complement. -/
def signedN (n v : Nat) : Int := if v < 2 ^ (8 * n - 1) then v else (v : Int) - (2 ^ (8 * n) : Nat)

/-- What an atomic writes for an old value, g[B] and g[D] (R177); none where it writes nothing. The float forms add and pick
as R179 says. -/
def atomNew (i : Instr) (n old b d : Nat) : Option Nat :=
  let y := b % 2 ^ (8 * n)
  match i with
  | .aadd .. => some ((old + y) % 2 ^ (8 * n))
  | .aand .. => some (old &&& y)
  | .aor .. => some (old ||| y)
  | .axor .. => some (old ^^^ y)
  | .amin .. => some (if signedN n old ≤ signedN n y then old else y)
  | .amax .. => some (if signedN n old ≤ signedN n y then y else old)
  | .aminz .. => some (min old y)
  | .amaxz .. => some (max old y)
  | .axchg .. => some y
  | .acas .. => if old = d % 2 ^ (8 * n) then some y else none
  | .afaddF32 .. => some (f32.round 0 false 0 (numSum 0 [f32.value old, f32.value y])).1
  | .afmaxF32 .. => some (f32.round 0 false 0 (pickNum true (f32.value old) (f32.value y))).1
  | _ => none

/-- An atomic: its bytes, destination, base, operand, S bit, offset, wave word. -/
def atomOf (i : Instr) : Option (Nat × Rg × Rg × Rg × Bool × W32 × Wave) :=
  match i with
  | .aadd w64 d a b sb off w | .aand w64 d a b sb off w | .aor w64 d a b sb off w | .axor w64 d a b sb off w
  | .amin w64 d a b sb off w | .amax w64 d a b sb off w | .aminz w64 d a b sb off w | .amaxz w64 d a b sb off w
  | .axchg w64 d a b sb off w | .acas w64 d a b sb off w => some (if w64 then 8 else 4, d, a, b, sb, off, w)
  | .afaddF32 d a b sb off w | .afmaxF32 d a b sb off w => some (4, d, a, b, sb, off, w)
  | _ => none

/-- The old value returns zero-extended for the unsigned and float forms, else sign-extended (R177). -/
def zeroBack (i : Instr) : Bool :=
  match i with
  | .aminz .. | .amaxz .. | .afaddF32 .. | .afmaxF32 .. => true
  | _ => false

/-- The old value as g[D] holds it. -/
def Returned (i : Instr) (n old : Nat) (x : W64) : Prop :=
  if zeroBack i then x.toNat = old else x.toInt = signedN n old

/-- The choice code of an atomic (R178): by float class, unsigned, or signed. -/
def atomCode (i : Instr) (x : W64) : BitVec 2 :=
  match i with
  | .afaddF32 .. | .afmaxF32 .. => codeNum (f32.value (x.toNat % 2 ^ 32))
  | .aminz .. | .amaxz .. => code true x
  | _ => code false x

/-- The firing is not in a task, so that the operation is not logged (R404). -/
def noTask (s : State) : Prop := s.taskOf s.cell s.ctx.net = none

/-- An access with a wave word: the word, the address, the bytes, and whether it writes (R174 to R178). -/
def accessOf (s : State) (i : Instr) : Option (Wave × Nat × Nat × Bool) :=
  match i with
  | .ld tc _ a _ off w => if 1 ≤ tc.toNat ∧ tc.toNat ≤ 7 then some (w, at2 s a off, accBytes tc, false) else none
  | .ldx tc _ a b _ off w => if 1 ≤ tc.toNat ∧ tc.toNat ≤ 7 then some (w, at3 s (accBytes tc) a b off, accBytes tc, false) else none
  | .vld _ a off w => some (w, at2 s a off, 64, false)
  | .st tc _ a off w => if 1 ≤ tc.toNat ∧ tc.toNat ≤ 4 then some (w, at2 s a off, accBytes tc, true) else none
  | .stx tc _ a b off w => if 1 ≤ tc.toNat ∧ tc.toNat ≤ 4 then some (w, at3 s (accBytes tc) a b off, accBytes tc, true) else none
  | .vst _ a off w => some (w, at2 s a off, 64, true)
  | i => match atomOf i with
    | some (n, _, a, _, _, off, w) => if at2 s a off % n = 0 then some (w, at2 s a off, n, true) else none
    | none => none

/-- What a waiting take of a granted block asks for (R112): its type, destination and S bit. -/
def takes (s : State) (tc : BitVec 4) (d : Rg) (sb : Bool) : Prop :=
  ∃ w : Wave, (w.path = 1 ∨ w.path = 2) ∧ ((∃ a off, s.me.wait = some (.ld tc d a sb off w))
    ∨ ∃ a b off, s.me.wait = some (.ldx tc d a b sb off w)) ∧ s.isTake 2 s.me.addr (tcBytes tc) = true

end Sys2Proof.Claim

section
open Sys2Proof Sys2Proof.Machine Sys2Proof.Claim

/-! ### Handle loads, atomics, barriers, faults of accesses -/

/-- R110, R176: `ldh` through a live handle reads eight bytes of the position's token in the block that the block table
names, as of a version that R286 and R292 allow (log 5). The entry is the one that the base die reads, once the handle's tenant
is the cell's (R396). -/
def Sys2Proof.Claim.HandleLoadsComplete : Prop :=
  ∀ (s : State) (w : Wave) (d a b : Rg) (sb : Bool) (off : W32) (s1 s2 s3 : State) (e : BitVec 256) (bt : W32) (bs : List Byte)
    (ps : List (Nat × Nat × Bool)),
    s.Runs → Consistent w s.ctx.wave → portFree s → s.me.arg = none →
    State.tenantHit s.ctx.asid (s.readG a) (s.readG b).toNat = none → s.htPoison (s.readG a) = none →
    (chained s w).htRead (sectorSpan (cellSector s.cell)) (hIndex (s.readG a)) = (s1, e) →
    s1.handleHit (s.readG a) (s.readG b).toNat e = none →
    s1.leavePort.loadVirt (btabAddr e (s.readG b).toNat) 4 = (s2, .ok bs) → bt = BitVec.ofNat 32 (numberOf bs) →
    btypeOk bt = true → 0 ≤ off.toInt → off.toInt + 8 ≤ (tokenBytes e : Int) → tokenBytes e ≠ 0 →
    let ad := (blockAddr e bt + (s.readG b).toNat % 2 ^ entLbs e * tokenBytes e + off.toNat) % 2 ^ 64
    s2.pieces s2.issuer ad 8 false (State.pieceFuel 8) = (s3, .ok ps) →
    ∃ ver x t, exec (.ldh d a b sb off w) s = .next t ∧ x.toNat = numberOf (virtBytes s ad ver ps)
      ∧ MayRead s (memUnits ps) ver ∧ LoadEnds s t d x (codeIf sb false x) w ∧ t.mem = s.mem ∧ t.banks = s.banks

/-- R89, R103, R175: a virtual load whose translation succeeds writes the extended bytes of a version that R286 and R292
allow (log 5); a virtual store whose pages all translate writes the bytes at the addresses that translation gives, at once or later
(R285), and no byte of a bank.

R110, R176: `ldh` through a live handle reads eight bytes of the position's token in the block that the block table
names, as of a version that R286 and R292 allow (log 5). The entry is the one that the base die reads. -/
def Obligations.AddressSpaceAccessesComplete : Prop := Sys2Proof.Claim.VirtualAccessesComplete ∧ Sys2Proof.Claim.HandleLoadsComplete

/-- R177, R178, R179: an atomic in a bank, aligned to its size, returns the old bytes at the address and writes the new
value there as one step; a failing `acas` writes nothing. Every other byte stands. The cell's accepted stores to the address,
and those that these meet, are performed before it (R287, R295). -/
def Sys2Proof.Claim.BankAtomicsComplete : Prop :=
  ∀ (i : Instr) (n : Nat) (d a b : Rg) (sb : Bool) (off : W32) (w : Wave) (s : State),
    atomOf i = some (n, d, a, b, sb, off, w) → s.Runs → Consistent w s.ctx.wave → s.me.arg = none → noTask s →
    onChip w → inBank s w (at2 s a off) → (w.path = 0 ∨ lets s w (at2 s a off) n true) → at2 s a off % n = 0 →
    let ad := s.pathAddr w.path.toNat (at2 s a off)
    let m := s.settleAt false ad n
    let old := numberOf (Mem.load m.banks ad n)
    ∃ x t, exec i s = .next t ∧ Returned i n old x
      ∧ LoadEnds s t d x (if sb then some (atomCode i x) else none) w ∧ t.me.commit = true
      ∧ Mem.load t.banks ad n = (match atomNew i n old (s.readG b).toNat (s.readG d).toNat with
          | some new => (List.range n).map fun k => BitVec.ofNat 8 (new / 2 ^ (8 * k))
          | none => Mem.load m.banks ad n)
      ∧ BytesStand m.banks t.banks ad n
      ∧ (s.pends false ad n = false → m = s
        ∧ t = { (s.modMe fun _ => t.me).modCtx (fun c => { c with wave := t.ctx.wave, chain := t.ctx.chain, seen := t.ctx.seen,
                                                                   know := t.ctx.know, floor := t.ctx.floor, found := t.ctx.found }) with
                banks := t.banks, wlog := t.wlog })

/-- R97, R101, R178: an atomic on a virtual address that the right to write lets through is performed at the memory that
translation gives. -/
def Sys2Proof.Claim.VirtualAtomicsComplete : Prop :=
  ∀ (i : Instr) (n : Nat) (d a b : Rg) (sb : Bool) (off : W32) (w : Wave) (s s1 : State) (dpa : Nat) (cc : Bool),
    atomOf i = some (n, d, a, b, sb, off, w) → s.Runs → Consistent w s.ctx.wave → s.me.arg = none → noTask s →
    w.path = 3 → portFree s → at2 s a off % n = 0 →
    (vaHome (at2 s a off) ≠ 9 ∨ ∃ v, i = .aadd v d a b sb off w ∨ i = .axchg v d a b sb off w ∨ i = .acas v d a b sb off w) →
    (chained s w).commit.leavePort.pieces (chained s w).issuer (at2 s a off) n true (State.pieceFuel n) = (s1, .ok [(dpa, n, cc)]) →
    let m := s1.settleAt true (at2 s a off) n
    let old := numberOf (Mem.load m.mem dpa n)
    ∃ x t, exec i s = .next t ∧ Returned i n old x
      ∧ LoadEnds s t d x (if sb then some (atomCode i x) else none) w ∧ t.me.commit = true
      ∧ Mem.load t.mem dpa n = (match atomNew i n old (s.readG b).toNat (s.readG d).toNat with
          | some new => (List.range n).map fun k => BitVec.ofNat 8 (new / 2 ^ (8 * k))
          | none => Mem.load m.mem dpa n)
      ∧ BytesStand m.mem t.mem dpa n ∧ t.banks = m.banks
      ∧ (s.pends true (at2 s a off) n = false → m.mem = s.mem ∧ m.banks = s.banks)

/-- R177, R178, R179: an atomic in a bank, aligned to its size, returns the old bytes at the address and writes the new
value there as one step; a failing `acas` writes nothing. Every other byte stands. The cell's accepted stores to the address,
and those that these meet, are performed before it (R287, R295).

R97, R101, R178: an atomic on a virtual address that the right to write lets through is performed at the memory that
translation gives. -/
def Obligations.AtomicsComplete : Prop := Sys2Proof.Claim.BankAtomicsComplete ∧ Sys2Proof.Claim.VirtualAtomicsComplete

/-- R92, R175, R178: where `ld`, `ldx`, `vld`, `st`, `stx`, `vst` or an atomic raises a class from the cell instead of its effect: outside
the bank or the map, a right that the window does not give, an atomic whose address is not aligned to its size. -/
def Obligations.AccessesRaiseTheirClasses : Prop :=
  ∀ (s : State) (w : Wave), s.Runs → Consistent w s.ctx.wave →
    (∀ (i : Instr) (ad n : Nat) (wr : Bool) (h : Hit), onChip w → accessOf s i = some (w, ad, n, wr) → atomOf i = none →
      (wr = true ∨ s.isTake w.path.toNat ad n = false) → s.pathHit w.path.toNat ad n wr = some h → Traps i s 0 h)
    ∧ (∀ a n write, s.pathHit 0 a n write
        = if a % 2 ^ 16 + n ≤ 2 ^ 16 then none else some { cls := 3, faddr := a % 2 ^ 16, aux := n * 2 ^ 32 })
    ∧ (∀ (i : Instr) (n : Nat) (d a b : Rg) (sb : Bool) (off : W32), atomOf i = some (n, d, a, b, sb, off, w) →
      s.me.arg = none → noTask s → at2 s a off % n ≠ 0 →
      Traps i s 0 { cls := 3, aux := n * 2 ^ 32
                    faddr := if w.path = 0 then at2 s a off % 2 ^ 16 else if w.path = 3 then at2 s a off
                             else s.pathAddr w.path.toNat (at2 s a off) })

/-- R89, R392: a virtual load, store or atomic whose translation fails freezes the sector's copy port, which reports the fault, and
the firing waits in it, in front of those that the port withholds; no register is written and the body stands where it stood. While
the port is frozen, or withholds an access before it, a virtual access waits at the port and changes nothing else. -/
def Obligations.FailedTranslationsFreezeThePort : Prop :=
  ∀ (s : State) (i : Instr) (w : Wave) (ad n : Nat) (wr : Bool), s.Runs → Consistent w s.ctx.wave → w.path = 3 →
    accessOf s i = some (w, ad, n, wr) → ((atomOf i).isSome = true → s.me.arg = none ∧ noTask s) →
    (∀ s1 h, portFree s →
      (if wr then (chained s w).commit else chained s w).leavePort.pieces (chained s w).issuer ad n wr (State.pieceFuel n)
        = (s1, .error h) →
      h.cls = 4 →
      ∃ t, exec i s = .next t
        ∧ (t.sectorAt (cellSector s.cell)).port.f.frozen = true ∧ (t.sectorAt (cellSector s.cell)).port.f.cls = 4
        ∧ (t.sectorAt (cellSector s.cell)).port.f.cause = h.cause
        ∧ (t.sectorAt (cellSector s.cell)).port.f.asid = s.ctx.asid
        ∧ (t.sectorAt (cellSector s.cell)).port.f.faddr.toNat = h.faddr % 2 ^ 64
        ∧ (∃ f, t.due = s.due ++ [f] ∧ f.hit = h ∧ f.src = 2 ∧ f.iss = s.issuer)
        ∧ (t.sectorAt (cellSector s.cell)).port.waits.head? = some s.meAtPort
        ∧ (∀ k, k ≠ cellSector s.cell → t.sectorAt k = s.sectorAt k)
        ∧ t.me.wait = some i ∧ t.me.woff = s.me.woff ∧ (∀ r, t.readG r = s.readG r) ∧ t.nets = s.nets)
    ∧ (¬ portFree s →
      ∃ t, exec i s = .next t ∧ t.me.wait = some i
        ∧ t.me.woff = s.me.woff ∧ (∀ r, t.readG r = s.readG r) ∧ s.meAtPort ∈ (t.sectorAt (cellSector s.cell)).port.waits
        ∧ ButWaits s t ∧ OnlyMeAndWave { s with sectors := t.sectors } t)

/-- The accepted stores of the current cell are performed, in the order of their acceptance: none of them is left, those of
other cells stand, and their bytes are at their homes, but for those that meet poison there (R397). -/
def Sys2Proof.Claim.Performed (s t : State) : Prop :=
  t.stores = s.stores.filter (fun l => !s.mine l)
  ∧ t.banks = (s.stores.filter s.mine).foldl (fun m l => if l.virt then m else Mem.store m l.addr l.bytes) s.banks
  ∧ t.mem = (s.stores.filter s.mine).foldl
      (fun m l => if l.virt = true ∧ s.storePoison l.parts = none then State.storePieces m l.bytes l.parts else m) s.mem

/-- A context of a cell reads nothing older than what a link says, where both scopes of the release and of an acquire cover the two
agents (R290, R292). -/
def Sys2Proof.Claim.Learnt (c : Ctx) (cell scope : Nat) (l : Link) : Prop :=
  l.reaches cell scope = true → l.floor ≤ c.floor ∧ ∀ e ∈ l.know, e.2 ≤ Tbl.get 0 c.know e.1

/-- R123, R181, R294: a fence with a consistent wave word completes, and the record takes its OWN and SUCC. After `fence.acq`
the cell reads nothing older than what the releases that its firing's tokens and its earlier loads link say; at `fence.rel` its
accepted stores are performed, and its later accesses count as REL at the scope; at `fence.full` its stores are performed, its
writes stand in the order of R294 at the scope, and it reads nothing older than what stands there or has been read by others. -/
def Sys2Proof.Claim.FencesComplete : Prop :=
  ∀ (x : Wave) (s : State), s.Runs → Consistent x s.ctx.wave →
    let went (t : State) : Prop := t.ctx.wave = some (x.own, x.succ) ∧ t.me.woff = s.me.woff + 3 ∧ t.me.wait = none
      ∧ (∀ r, t.readG r = s.heldG r) ∧ (∀ k, t.readV k = s.heldV k) ∧ (∀ k, t.readSh k = s.heldSh k) ∧ s.ctx.floor ≤ t.ctx.floor
    (∃ t, exec (.fenceAcq x) s = .next t ∧ went t ∧ t.stores = s.stores ∧ t.mem = s.mem ∧ t.banks = s.banks
      ∧ ∀ l, l ∈ s.me.sync ∨ l ∈ s.ctx.found → Learnt t.ctx s.cell x.scope.toNat l)
    ∧ (∃ t, exec (.fenceRel x) s = .next t ∧ went t ∧ Performed s t ∧ t.ctx.asRel = max s.ctx.asRel (x.scope.toNat + 1))
    ∧ ∃ t, exec (.fenceFull x) s = .next t ∧ went t ∧ Performed s t
      ∧ (∀ u, ∀ y ∈ Tbl.get [] t.wlog u, y.cell = s.cell → x.scope.toNat < y.fenced)
      ∧ (∀ e ∈ t.performedTo x.scope.toNat (·.fenced), e.2 ≤ Tbl.get 0 t.ctx.know e.1)
      ∧ (∀ e ∈ t.performedTo x.scope.toNat (·.shown), e.2 ≤ Tbl.get 0 t.ctx.know e.1)
      ∧ ∀ l ∈ s.me.sync, Learnt t.ctx s.cell x.scope.toNat l

/-- R183, R380: the cell's accepted stores are performed as `bar` arrives. The last arrival of a phase completes it: the
counter returns to 0, every `bar` of the phase that waits in a running context goes on, and so does this one, and their cells
read nothing older than what the phase's arrivals released and their firings' tokens link (R290); an earlier arrival waits. -/
def Sys2Proof.Claim.BarriersComplete : Prop :=
  ∀ (s : State) (id : BitVec 4) (n : BitVec 12) (w : Wave), s.Runs → Consistent w s.ctx.wave → s.me.wait = none →
    let key := barKey s.ctx.net w.scope.toNat s.cell id.toNat
    let b := s.barAt key
    let total := if b.count = 0 then n.toNat else b.n
    let links := b.sync ++ [(chained s w).commit.flush.linkOf w.scope.toNat]
    (total ≤ b.count + 1 →
      ∃ t, exec (.bar id n w) s = .next t ∧ t.barAt key = { phase := b.phase + 1, done := Tbl.put b.done b.phase links }
        ∧ (∀ k, k ≠ key → t.barAt k = s.barAt k) ∧ t.me.woff = s.me.woff + 3 ∧ t.me.wait = none ∧ t.me.commit = true
        ∧ (∀ r, t.readG r = s.heldG r) ∧ t.ctx.wave = some (w.own, w.succ) ∧ Performed s t
        ∧ (∀ l, l ∈ links ∨ l ∈ s.me.sync → Learnt t.ctx s.cell w.scope.toNat l)
        ∧ (∀ c f id' n' w', c ≠ s.cell → f ∈ (s.cellAt c).run.firings →
            f.wait = some (.bar id' n' w') → f.arg = some b.phase → f.parked = false →
            barKey (s.cellAt c).run.net w'.scope.toNat c id'.toNat = key →
            { f with woff := f.woff + 3, wait := none, arg := none, age := 0, last := s.clock + 1, recs := none, genEp := none, keep := {} }
              ∈ (t.cellAt c).run.firings ∧ ∀ l, l ∈ links ∨ l ∈ f.sync → Learnt (t.cellAt c).run c w.scope.toNat l))
    ∧ (b.count + 1 < total →
      ∃ t, exec (.bar id n w) s = .next t ∧ t.barAt key = { b with count := b.count + 1, n := total, sync := links }
        ∧ t.me.wait = some (.bar id n w) ∧ t.me.woff = s.me.woff ∧ t.me.commit = true ∧ Performed s t)

/-- R123, R181, R294: a fence with a consistent wave word completes, and the record takes its OWN and SUCC. After `fence.acq`
the cell reads nothing older than what the releases that its firing's tokens and its earlier loads link say; at `fence.rel` its
accepted stores are performed, and its later accesses count as REL at the scope; at `fence.full` its stores are performed, its
writes stand in the order of R294 at the scope, and it reads nothing older than what stands there or has been read by others.

R183, R380: the cell's accepted stores are performed as `bar` arrives. The last arrival of a phase completes it: the
counter returns to 0, every `bar` of the phase that waits in a running context goes on, and so does this one, and their cells
read nothing older than what the phase's arrivals released and their firings' tokens link (R290); an earlier arrival waits. -/
def Obligations.FencesAndBarriersComplete : Prop := Sys2Proof.Claim.FencesComplete ∧ Sys2Proof.Claim.BarriersComplete

/-- R287 to R295 (log 5): what an instruction asks of memory before its own effect, and what an access does to the order. An
access has its cell's stores to its own bank performed, and the others performed at `.cell`; a release performs its cell's
accepted stores (R172, R289); one that acquires observes what its firing's tokens link, and at its scope the writes that reads
have shown to others (R294); a load observes the releases that wrote what it reads, with ACQ at once (R290); an accepted store is
performed unless one of its cell's before it meets it (R287), and its cell then reads no older bytes (R286); an access that is
performed at once has the stores that it meets performed before it; a store that meets no other is seen by its own cell's load of
the same address before it is performed. -/
def Obligations.MemoryOrderIsKept : Prop :=
  ∀ (s : State),
    (∀ i : Instr, s.offChain i = true → s.order i = s)
    ∧ (∀ i : Instr, s.offChain i = false → i.releases = true →
      Performed (if i.wave.isSome = true ∧ i.accesses = true then s.atCell else s) (s.order i))
    ∧ (∀ i : Instr, i.releases = false → s.relScopeOf i = none → (i.wave = none ∨ i.accesses = false) →
      (s.order i).stores = s.stores ∧ (s.order i).mem = s.mem ∧ (s.order i).banks = s.banks)
    ∧ (∀ i : Instr, s.offChain i = false → i.wave.isSome = true → i.accesses = true →
      ∀ l ∈ (s.order i).stores, s.mine l = true → l.done = true ∧ ¬ (l.virt = false ∧ l.addr / 2 ^ 16 = s.cell * 2 ^ 16))
    ∧ (∀ i : Instr, (s.order i).ctx.firings = s.ctx.firings ∧ s.ctx.floor ≤ (s.order i).ctx.floor)
    ∧ (∀ (i : Instr) (k : Nat), s.offChain i = false → i.acqScope = some k →
      (∀ l ∈ s.me.sync, Learnt (s.order i).ctx s.cell k l)
      ∧ ∀ e ∈ s.performedTo k (·.shown), e.2 ≤ Tbl.get 0 (s.order i).ctx.know e.1)
    ∧ (∀ us v, ∀ u ∈ us, v ≤ Tbl.get 0 (s.readAs us v none).ctx.seen u
      ∧ ∀ l ∈ s.linksAt us v u, l ∈ (s.readAs us v none).ctx.found ∧ ∀ k, Learnt (s.readAs us v (some k)).ctx s.cell k l)
    ∧ (∀ k l, s.stores[k]? = some l →
      (∀ m ∈ s.stores.take k, m.iss.cell = l.iss.cell → m.iss.net = l.iss.net →
        l.last = false ∧ m.meets l.virt l.addr l.bytes.length = false) →
      (l.virt = true → s.storePoison l.parts = none) →
      (s.performLate k).stores = s.stores.eraseIdx k
      ∧ (s.performLate k).banks = (if l.virt then s.banks else Mem.store s.banks l.addr l.bytes)
      ∧ (s.performLate k).mem = (if l.virt then State.storePieces s.mem l.bytes l.parts else s.mem)
      ∧ (s.mine l = true → ∀ u ∈ l.units, (s.performLate k).version ≤ Tbl.get 0 (s.performLate k).ctx.seen u))
    ∧ (∀ k l m, s.stores[k]? = some l → m ∈ s.stores.take k → m.iss.cell = l.iss.cell → m.iss.net = l.iss.net →
      (l.last = true ∨ m.meets l.virt l.addr l.bytes.length = true) → s.performLate k = s)
    ∧ (∀ virt a n, ∀ l ∈ (s.settleAt virt a n).stores, s.mine l = true → l.meets virt a n = false)
    ∧ (∀ virt a (bs old : List Byte) ps rel last, old.length = bs.length → (s.accept virt a bs ps rel last).seeOwn virt a old = bs)

/-- R112, R333: a waiting take of a granted block takes the lowest slot's grant into its register, the grants move down, and
below four of them the sector asks for a refill; with none it asks and waits on. A clock's takes come before its appends. -/
def Sys2Proof.Claim.BlockTakesAreServed : Prop :=
  ∀ (s : State) (cell fid : Nat) (tc : BitVec 4) (d : Rg) (sb : Bool), (s.focus cell fid).Runs → takes (s.focus cell fid) tc d sb →
    let k := faSector (s.focus cell fid).me.addr
    (s.sectorAt k).added ≠ s.clock + 1 →
    (∀ b bs, (s.sectorAt k).blocks = b :: bs →
      ∃ t, exec (.blockTake cell fid) s = .next t
        ∧ t.readG d = (if d = 0 then 0 else BitVec.ofNat 64 b.toNat)
        ∧ (∀ r, r ≠ d → t.readG r = (s.focus cell fid).heldG r)
        ∧ (t.sectorAt k).blocks = bs ∧ (∀ j, j ≠ k → t.sectorAt j = s.sectorAt j)
        ∧ (bs.length < 4 → k ∈ t.mgmt.refills)
        ∧ t.me.woff = (s.focus cell fid).me.woff + 3 ∧ t.me.wait = none ∧ t.mem = s.mem ∧ t.banks = s.banks)
    ∧ ((s.sectorAt k).blocks = [] → ∃ t, exec (.blockTake cell fid) s = .next t ∧ k ∈ t.mgmt.refills
        ∧ (t.focus cell fid).me = (s.focus cell fid).me)

/-- R173, R381: a virtual load that its frozen port withheld is performed once the port has resumed and its translation
succeeds; a fence that waited for what is before it on the chain, and a `bar` whose phase is complete, go on. -/
def Sys2Proof.Claim.WaitingFiringsGoOn : Prop :=
  ∀ (s : State) (cell fid : Nat), (s.focus cell fid).Runs →
    (∀ tc d a sb off w s1 ps, (s.focus cell fid).released = some (.ld tc d a sb off w) → w.path = 3 → 1 ≤ tc.toNat → tc.toNat ≤ 7 →
      portFree (s.focus cell fid) →
      let r := (s.focus cell fid).order (.ld tc d a sb off w)
      r.leavePort.pieces r.issuer (at2 r a off) (accBytes tc) false (State.pieceFuel (accBytes tc)) = (s1, .ok ps) →
      ∃ ver x t, exec (.accessReply cell fid) s = .next t ∧ Extended tc (numberOf (virtBytes r (at2 r a off) ver ps)) x
        ∧ MayRead r (memUnits ps) ver
        ∧ t.readG d = (if d = 0 then 0 else x) ∧ (∀ r, r ≠ d → t.readG r = (s.focus cell fid).heldG r)
        ∧ t.me.woff = (s.focus cell fid).me.woff + 3 ∧ t.me.wait = none ∧ t.mem = r.mem ∧ t.banks = r.banks)
    ∧ (∀ w, ((s.focus cell fid).released = some (.fenceAcq w) ∨ (s.focus cell fid).released = some (.fenceRel w)
          ∨ (s.focus cell fid).released = some (.fenceFull w)) →
      ∃ t, exec (.conditionWaitEnd cell fid) s = .next t ∧ t.me.woff = (s.focus cell fid).me.woff + 3 ∧ t.me.wait = none
        ∧ (∀ r, t.readG r = (s.focus cell fid).heldG r) ∧ (s.focus cell fid).ctx.floor ≤ t.ctx.floor
        ∧ ((s.focus cell fid).released ≠ some (.fenceAcq w) → Performed (s.focus cell fid) t))
    ∧ (∀ id n w phase, (s.focus cell fid).released = some (.bar id n w) → (s.focus cell fid).me.arg = some phase →
      (s.barAt (barKey (s.focus cell fid).ctx.net w.scope.toNat cell id.toNat)).phase ≠ phase →
      ∃ t, exec (.conditionWaitEnd cell fid) s = .next t ∧ t.me.woff = (s.focus cell fid).me.woff + 3 ∧ t.me.wait = none
        ∧ (∀ r, t.readG r = (s.focus cell fid).heldG r) ∧ Performed (s.focus cell fid) t
        ∧ ∀ l, l ∈ Tbl.get [] (s.barAt (barKey (s.focus cell fid).ctx.net w.scope.toNat cell id.toNat)).done phase
              ∨ l ∈ (s.focus cell fid).me.sync → Learnt t.ctx cell w.scope.toNat l)

/-- R112, R333: a waiting take of a granted block takes the lowest slot's grant into its register, the grants move down, and
below four of them the sector asks for a refill; with none it asks and waits on. A clock's takes come before its appends.

R173, R381: a virtual load that its frozen port withheld is performed once the port has resumed and its translation
succeeds; a fence that waited for what is before it on the chain, and a `bar` whose phase is complete, go on. -/
def Obligations.WaitingFiringsGoOn : Prop := Sys2Proof.Claim.BlockTakesAreServed ∧ Sys2Proof.Claim.WaitingFiringsGoOn

end

namespace Sys2Proof.Claim
open Sys2Proof.Machine

/-! ### Words for engine commands, rings, copies, streams -/

/-- An engine command may run: its firing is in progress, its wave word is consistent, it waits for nothing, and it is no
task's (what a task's commands also count stands in the dependence table, R271, R404). -/
def Ready (s : State) (w : Wave) : Prop :=
  s.Runs ∧ Consistent w s.ctx.wave ∧ s.me.arg = none ∧ s.me.wait = none ∧ noTask s

/-- A command completed: its place on the wave chain and its commit point are passed (R123, R173), the body goes on `n`
words further; the destination register alone was written, where there is one. -/
structure CmdEnds (s t : State) (d : Option (Rg × W64)) (w : Wave) (n : Nat) : Prop where
  dest   : ∀ r x, d = some (r, x) → t.readG r = if r = 0 then 0 else x
  others : ∀ r, (∀ x, d ≠ some (r, x)) → t.readG r = s.heldG r
  lanes  : ∀ k, t.readV k = s.heldV k
  sels   : ∀ k, t.readSh k = s.heldSh k
  choice : t.me.choice = s.me.choice
  place  : t.me.woff = s.me.woff + n ∧ t.me.wait = none
  wave   : t.ctx.wave = some (w.own, w.succ)
  commit : t.me.commit = true
  held   : t.me.held = s.me.held ∧ t.me.inbuf = s.me.inbuf ∧ t.fstat = s.fstat

/-- A command waits in its instruction. -/
structure CmdWaits (s t : State) (i : Instr) : Prop where
  wait   : t.me.wait = some i ∧ t.me.woff = s.me.woff
  regs   : (∀ r, t.readG r = s.readG r) ∧ (∀ k, t.readV k = s.readV k) ∧ ∀ k, t.readSh k = s.readSh k

/-- The bank offset of `off(gA)`, and the fabric address of the ring object there (R191, R194). -/
def ringOff (s : State) (a : Rg) (off : W32) : Nat := at2 s a off % 2 ^ 16
def ringAt (s : State) (a : Rg) (off : W32) : Nat := cellAddr s.cell + at2 s a off % 2 ^ 16

/-- A ring object's place is lawful: aligned to 32 and whole in the bank (R191). -/
def ringFits (s : State) (a : Rg) (off : W32) : Prop := ringOff s a off % 32 = 0 ∧ ringOff s a off + 288 ≤ 2 ^ 16

/-- The fields of a ring's header (R191). -/
structure RingIs (s : State) (r base bytes n expect : Nat) (poison : Bool) (wcnt rcnt : Nat) : Prop where
  base   : rBase (s.ringHead r) = base
  bytes  : rSlotBytes (s.ringHead r) = bytes
  n      : rN (s.ringHead r) = n
  expect : rExpect (s.ringHead r) = expect
  poison : rPoison (s.ringHead r) = poison
  wcnt   : rWcnt (s.ringHead r) = wcnt
  rcnt   : rRcnt (s.ringHead r) = rcnt

/-- Nothing changed but the current firing, its wave, and the banks. -/
def OnlyBanks (s t : State) : Prop :=
  t = { (s.modMe fun _ => t.me).modCtx (fun c => { c with wave := t.ctx.wave, chain := t.ctx.chain }) with banks := t.banks }

/-- Nothing changed but the current firing, its wave, and what its cell has learnt of others' writes. -/
def OnlyMeWaveAndLearnt (s t : State) : Prop :=
  t = (s.modMe fun _ => t.me).modCtx fun c => { c with wave := t.ctx.wave, chain := t.ctx.chain, know := t.ctx.know, floor := t.ctx.floor }

/-- The words of an image of a packet or descriptor in the issuing bank. -/
def imageWords (s : State) (off : Nat) : List W64 := wordsAt (Mem.load s.banks (cellAddr s.cell + off % 2 ^ 16) 64) 8

/-- Where a copy queue's header, and the slot of a claimed index, stand on chip (R185). -/
def slotAt (s : State) (w : Wave) (h : List W64) (idx : Nat) : Nat := s.pathAddr w.path.toNat (slotOff h idx)

/-- An interval of bytes in one bank that the map lets an access reach. -/
def bankSpan (a n : Nat) : Prop := faWin a = 0 ∧ winHit false true a n = none ∧ winHit false false a n = none

end Sys2Proof.Claim

section
open Sys2Proof Sys2Proof.Machine Sys2Proof.Claim

/-! ### Rings (R191 to R196, R200) -/

/-- R191, R194, R195, R196, R200: `ring.init` lays out the header and all 64 slot states; `ring.await` and
`ring.await.free` give the slot's bank offset when the ticket is complete, or its slot free, and wait otherwise;
`ring.rel` counts one release; `str.ret` completes the ticket's slot. No byte outside the ring object changes. With ACQ,
`ring.await` observes what the ticket's credits released (R290). -/
def Obligations.RingCommandsComplete : Prop :=
  ∀ (s : State) (d a b : Rg) (off : W32) (w : Wave), Ready s w → ringFits s a off →
    let r := ringAt s a off
    let h := s.ringHead r
    let k := (s.readG b).toNat % 2 ^ 32
    let ahead := diff32 k (rRcnt h)
    (∀ (slotu : BitVec 10) (nm1 : BitVec 6) (base : BitVec 16),
      base.toNat + (nm1.toNat + 1) * slotu.toNat * 64 ≤ 2 ^ 16 → 1 ≤ (s.readG b).toNat → (s.readG b).toNat ≤ 0xFFFFFF →
      ∃ t, exec (.ringInit a b slotu nm1 base off w) s = .next t ∧ CmdEnds s t none w 4 ∧ OnlyBanks s t
        ∧ RingIs t r base.toNat (slotu.toNat * 64) (nm1.toNat + 1) (s.readG b).toNat false 0 0
        ∧ (∀ j, j < 64 → slotPh (t.ringSlot r j) = false ∧ slotPend (t.ringSlot r j) = (s.readG b).toNat)
        ∧ BytesStand s.banks t.banks r 288)
    ∧ (rPoison h = false → ahead < 2 ^ 31 →
        (ahead < diff32 (rWcnt h) (rRcnt h) →
          ∃ t, exec (.ringAwait d a b off w) s = .next t
            ∧ CmdEnds s t (some (d, BitVec.ofNat 64 (rBase h + k % rN h * rSlotBytes h))) w 4 ∧ OnlyMeWaveAndLearnt s t
            ∧ (w.acq = false → OnlyMeAndWave s t)
            ∧ (w.acq = true → ∀ l ∈ s.slotLinks r (k % rN h), Learnt t.ctx s.cell w.scope.toNat l))
        ∧ (diff32 (rWcnt h) (rRcnt h) ≤ ahead →
          ∃ t, exec (.ringAwait d a b off w) s = .next t ∧ CmdWaits s t (.ringAwait d a b off w))
        ∧ (ahead < rN h →
          ∃ t, exec (.ringAwaitFree d a b off w) s = .next t
            ∧ CmdEnds s t (some (d, BitVec.ofNat 64 (rBase h + k % rN h * rSlotBytes h))) w 4 ∧ OnlyMeAndWave s t)
        ∧ (rN h ≤ ahead →
          ∃ t, exec (.ringAwaitFree d a b off w) s = .next t ∧ CmdWaits s t (.ringAwaitFree d a b off w)))
    ∧ (rPoison h = false → rRcnt h ≠ rWcnt h →
        ∃ t, exec (.ringRel a off w) s = .next t ∧ CmdEnds s t none w 4 ∧ OnlyBanks s t
          ∧ RingIs t r (rBase h) (rSlotBytes h) (rN h) (rExpect h) false (rWcnt h) ((rRcnt h + 1) % 2 ^ 32)
          ∧ BytesStand s.banks t.banks r 32)
    ∧ (rPoison h = false → s.ticketDone r k = false → ahead < rN h →
        ∃ t, exec (.strRet a b off w) s = .next t ∧ CmdEnds s t none w 4 ∧ OnlyBanks s t
          ∧ slotPh (t.ringSlot r (k % rN h)) = !slotPh (s.ringSlot r (k % rN h))
          ∧ slotPend (t.ringSlot r (k % rN h)) = rExpect h
          ∧ (∀ j, j < 64 → j ≠ k % rN h → t.ringSlot r j = s.ringSlot r j)
          ∧ BytesStand s.banks t.banks r 288)

/-- R192: a credit whose bytes lie in one slot subtracts from its PEND; at 0 the slot completes: its phase flips and PEND
reloads from EXPECT. The credits of one clock are summed before the test: where they are more than PEND was at its start, also
where some of them have completed the slot, the ring is poisoned and none of them counts. -/
def Obligations.CreditsComplete : Prop :=
  ∀ (s : State) (k j : Nat) (c : Credit), s.credits[k]? = some c → c.ord = none → c.drop = false → c.ring % 32 = 0 →
    s.taskOf c.iss.cell c.iss.net = none →
    let h := s.ringHead c.ring
    let before := (s.beforeCredits c.ring j).1
    rPoison h = false → j < rN h → 0 < c.n →
    rBase h + j * rSlotBytes h ≤ c.off → c.off + c.n ≤ rBase h + (j + 1) * rSlotBytes h →
    ∃ t, exec (.ringCredit k) s = .next t
      ∧ (slotPh before = slotPh (s.ringSlot c.ring j) → c.n < slotPend (s.ringSlot c.ring j) →
          slotPend (t.ringSlot c.ring j) = slotPend (s.ringSlot c.ring j) - c.n
          ∧ slotPh (t.ringSlot c.ring j) = slotPh (s.ringSlot c.ring j) ∧ t.ringHead c.ring = s.ringHead c.ring
          ∧ t.credits = s.credits.eraseIdx k ∧ t.beforeCredits c.ring j = s.beforeCredits c.ring j
          ∧ t = { s with credits := t.credits, banks := t.banks, credited := t.credited, ringRel := t.ringRel })
      ∧ (slotPh before = slotPh (s.ringSlot c.ring j) → c.n = slotPend (s.ringSlot c.ring j) →
          slotPend (t.ringSlot c.ring j) = rExpect h
          ∧ slotPh (t.ringSlot c.ring j) = !slotPh (s.ringSlot c.ring j)
          ∧ t.credits = s.credits.eraseIdx k ∧ t.beforeCredits c.ring j = s.beforeCredits c.ring j
          ∧ t = { s with credits := t.credits, banks := t.banks, credited := t.credited, ringRel := t.ringRel }
          ∧ (∀ i, i < 64 → i ≠ j → t.ringSlot c.ring i = s.ringSlot c.ring i))
      ∧ (slotPh before ≠ slotPh (s.ringSlot c.ring j) ∨ slotPend (s.ringSlot c.ring j) < c.n →
          rPoison (t.ringHead c.ring) = true ∧ t.ringSlot c.ring j = before
          ∧ ∃ f, t.due = s.due ++ [f] ∧ f.hit.cls = 0x0B ∧ f.src = c.src ∧ f.iss = c.iss)

/-! ### Copies and signals (R185 to R190, R205) -/

/-- R187: `cpy.post` whose queue and slot lie in banks claims an index by adding 1 to WIDX, and once the slot is free
writes the image's words there with the index as SEQ; the port that the header names is told. (The schedule puts no store off,
and the cell has none that is accepted and not performed: log 5.) -/
def Obligations.CopyPostsWriteTheirPacket : Prop :=
  ∀ (s : State) (d a b : Rg) (off : W32) (w : Wave), Ready s w → onChip w → (w.path = 0 ∨ s.late = 0) →
    (∀ l ∈ s.stores, s.mine l = false) →
    let q := s.pathAddr w.path.toNat (at2 s a off)
    let img := (s.readG b).toNat % 2 ^ 16
    let ws := imageWords s img
    let h := wordsAt (Mem.load s.banks q 64) 8
    let idx := (wordOf h 0).toNat
    let slot := slotAt s w h idx
    img + 64 ≤ 2 ^ 16 → at2 s a off % 8 = 0 → inBank s w (at2 s a off) →
    lets s w (at2 s a off) 64 false → lets s w (at2 s a off) 8 true →
    inBank s w (slotOff h idx) → inBank s w (slotOff h idx + 8) → lets s w (slotOff h idx + 8) 56 true →
    lets s w (slotOff h idx) 8 true → s.pathAddr w.path.toNat (slotOff h idx + 8) = slot + 8 →
    (slot + 64 ≤ q ∨ q + 64 ≤ slot) →
    (cellAddr s.cell + img + 64 ≤ q ∨ q + 64 ≤ cellAddr s.cell + img) →
    (pktKind ws ≠ 1 ∨ s.pointCount s.cell (pktTpath ws == 3) ≠ 0xFFFF) →
    (idx + 2 ^ 64 - qRidx h) % 2 ^ 64 < 2 ^ qLog2n h →
    ∃ t, exec (.cpyPost d a b off w) s = .next t ∧ CmdEnds s t (some (d, BitVec.ofNat 64 idx)) w 4
      ∧ numberOf (Mem.load t.banks q 8) = (idx + 1) % 2 ^ 64
      ∧ numberOf (Mem.load t.banks slot 8) = idx
      ∧ Mem.load t.banks (slot + 8) 56 = (Mem.load s.banks (cellAddr s.cell + img) 64).drop 8
      ∧ (∃ p, t.posts = s.posts ++ [p] ∧ p.idx = idx ∧ p.hdr = BitVec.ofNat 64 q ∧ p.iss.cell = s.cell
          ∧ p.point = if pktKind ws = 1 then some (pktTpath ws == 3) else none)
      ∧ (∃ c ∈ (t.sectorAt (qPort h)).port.queues, c.hdr = BitVec.ofNat 64 q ∧ c.path = w.path.toNat)
      ∧ t.mem = s.mem

/-- R188: a port that is not frozen takes the packet at RIDX of a queue in a bank once its SEQ is the index, and advances
RIDX; the packet is then in progress. -/
def Sys2Proof.Claim.CopyPortsTakePackets : Prop :=
  ∀ (s : State) (sector k : Nat) (q : CopyQueue), (s.sectorAt sector).port.queues[k]? = some q →
    (s.sectorAt sector).port.f.frozen = false → q.path = 2 → q.hdr.toNat + 64 ≤ 2 ^ 48 →
    s.taskOf q.iss.cell q.iss.net = none →
    let h := wordsAt (Mem.load s.banks q.hdr.toNat 64) 8
    let idx := qRidx h
    let slot := slotOff h idx
    let ws := wordsAt (Mem.load s.banks slot 64) 8
    bankSpan q.hdr.toNat 64 → bankSpan (q.hdr.toNat + 8) 8 → slot + 64 ≤ 2 ^ 48 → bankSpan slot 64 →
    wordOf ws 0 = BitVec.ofNat 64 idx → pktOk ws = true →
    ∃ t, exec (.copyPacketStart sector k) s = .next t
      ∧ (∃ j, (t.sectorAt sector).port.jobs = (s.sectorAt sector).port.jobs ++ [j] ∧ j.idx = idx ∧ j.pkt = ws ∧ j.row = 0
          ∧ j.byte = 0 ∧ j.q = q)
      ∧ numberOf (Mem.load t.banks (q.hdr.toNat + 8) 8) = (idx + 1) % 2 ^ 64
      ∧ BytesStand s.banks t.banks (q.hdr.toNat + 8) 8 ∧ t.mem = s.mem ∧ t.cells = s.cells
      ∧ ∀ j, j ≠ sector → t.sectorAt j = s.sectorAt j

/-- R186, R188: a point copy, or a fill of one row, between banks moves its bytes whole, leaves every other byte, and its
packet leaves the port and the poster's count. -/
def Sys2Proof.Claim.CopyPacketsMoveTheirBytes : Prop :=
  ∀ (s : State) (sector k : Nat) (j : CopyJob), (s.sectorAt sector).port.jobs[k]? = some j →
    (s.sectorAt sector).port.f.frozen = false →
    j.lost = none → j.stopped = false → j.row = 0 → j.byte = 0 → j.buf = [] → j.ord = none → s.taskOf j.iss.cell j.iss.net = none →
    (pktKind j.pkt = 1 ∨ (pktKind j.pkt = 3 ∧ pktRowb j.pkt % 8 = 0)) → pktRows j.pkt = 1 → 1 ≤ pktRowb j.pkt →
    pktFpath j.pkt = 2 → pktTpath j.pkt = 2 → wordOf j.pkt 7 = 0 →
    let from' := (wordOf j.pkt 2).toNat
    let dest := (wordOf j.pkt 3).toNat
    let n := pktRowb j.pkt
    (pktKind j.pkt = 1 → from' < 2 ^ 48 ∧ bankSpan from' n) → dest < 2 ^ 48 → bankSpan dest n →
    ∃ t, exec (.copyPacketComplete sector k) s = .next t
      ∧ Mem.load t.banks dest n = (if pktKind j.pkt = 1 then Mem.load s.banks from' n
          else (List.range n).map fun i => BitVec.ofNat 8 (from' / 2 ^ (8 * (i % 8))))
      ∧ BytesStand s.banks t.banks dest n ∧ t.mem = s.mem ∧ t.cells = s.cells
      ∧ (t.sectorAt sector).port.jobs = (s.sectorAt sector).port.jobs.eraseIdx k
      ∧ (∀ p ∈ t.posts, p ∈ s.posts ∧ ¬ (State.ofQueue j.q p = true ∧ p.idx = j.idx))
      ∧ (∀ p v, s.postOf j.q j.idx = some p → p.point = some v → t.pointCount p.iss.cell v = s.pointCount p.iss.cell v - 1)

/-- R188: a port that is not frozen takes the packet at RIDX of a queue in a bank once its SEQ is the index, and advances
RIDX; the packet is then in progress.

R186, R188: a point copy, or a fill of one row, between banks moves its bytes whole, leaves every other byte, and its
packet leaves the port and the poster's count. -/
def Obligations.CopyPortsServeTheirQueues : Prop := Sys2Proof.Claim.CopyPortsTakePackets ∧ Sys2Proof.Claim.CopyPacketsMoveTheirBytes

/-- R190, R205, R296: `drain` completes when no point copy that the cell posted before it on its path is open, and the cell reads
nothing older than what stands then; it waits otherwise. `sig.add` adds to the signal's word at its home and gives the old
value. -/
def Obligations.DrainAndSignalComplete : Prop :=
  ∀ (s : State) (d a b : Rg) (off : W32) (w : Wave), Ready s w →
    ((∀ p ∈ s.posts, p.iss.cell = s.cell → p.point = some (w.path == 3) → s.postN ≤ p.seq) →
      ∃ t, exec (.drain w) s = .next t ∧ CmdEnds s t none w 4 ∧ OnlyMeWaveAndLearnt s t ∧ t.version ≤ t.ctx.floor)
    ∧ (∀ p ∈ s.posts, p.iss.cell = s.cell → p.point = some (w.path == 3) → p.seq < s.postN →
      ∃ t, exec (.drain w) s = .next t ∧ CmdWaits s t (.drain w))
    ∧ (∀ dpa cc s1, portFree s → at2 s a off % 8 = 0 → s.pends true (at2 s a off) 8 = false →
      (chained s w).commit.leavePort.piece (chained s w).issuer (at2 s a off) true = (s1, .ok (dpa, cc)) →
      ∃ t, exec (.sigAdd d a b off w) s = .next t
        ∧ CmdEnds s t (some (d, BitVec.ofNat 64 (numberOf (Mem.load s.mem dpa 8)))) w 4
        ∧ numberOf (Mem.load t.mem dpa 8) = (numberOf (Mem.load s.mem dpa 8) + (s.readG b).toNat) % 2 ^ 64
        ∧ BytesStand s.mem t.mem dpa 8 ∧ t.banks = s.banks)

/-! ### Streams, walkers, collectives (R197 to R204, R341 to R343) -/

/-- R197, R198, R201, R202: `str.sub` starts a stream under a free number of the owner of its memory; `str.unsub` ends a
stream of its net instance that has no tile in progress and gives the tiles done, and 0 for a number that names no stream; one whose
tile is in progress, or which is frozen there, ends after that tile: the command waits, and completes with the tiles done once the
stream has ended (log 33 reads what a tile in progress is); `walk.post` gives the walk to a free walker. A `str.sub` or `walk.post`
that finds none free waits, with the descriptor as it issued (log 58, the model's choice). -/
def Obligations.StreamAndWalkCommandsComplete : Prop :=
  ∀ (s : State) (d a : Rg) (off : W32) (w : Wave), Ready s w →
    let o := at2 s a off % 2 ^ 16
    let ds := imageWords s o
    let home := (vaOwner (sdBase ds)).getD 0
    (o % 64 = 0 → sdOk ds (s.ringHead (sdRing ds)) = true →
      (∃ n, n < 128 ∧ Tbl.find (s.ownerAt home).streams n = none) →
      ∃ t n x, exec (.strSub d a off w) s = .next t ∧ n < 128 ∧ Tbl.find (s.ownerAt home).streams n = none
        ∧ CmdEnds s t (some (d, BitVec.ofNat 64 (home * 128 + n))) w 4
        ∧ Tbl.find (t.ownerAt home).streams n = some x ∧ x.desc = ds ∧ x.tile = 0 ∧ x.row = 0
        ∧ x.t0 = (if sdPull ds then rRcnt (s.ringHead (sdRing ds)) else rWcnt (s.ringHead (sdRing ds)))
        ∧ (∀ m, m ≠ n → Tbl.find (t.ownerAt home).streams m = Tbl.find (s.ownerAt home).streams m)
        ∧ t.mem = s.mem ∧ t.banks = s.banks)
    ∧ (o % 64 = 0 → sdOk ds (s.ringHead (sdRing ds)) = true → (∀ n, n < 128 → Tbl.find (s.ownerAt home).streams n ≠ none) →
      ∃ t, exec (.strSub d a off w) s = .next t ∧ CmdWaits s t (.strSub d a off w) ∧ t.owners = s.owners)
    ∧ (o % 64 = 0 → wdOk ds = true → (∀ n, n < 32 → Tbl.find (s.ownerAt 8).walkers n ≠ none) →
      ∃ t, exec (.walkPost a off w) s = .next t ∧ CmdWaits s t (.walkPost a off w) ∧ t.owners = s.owners)
    ∧ (∀ own n x, (s.readG a).toNat = own * 128 + n → n < 128 → own < 8 → Tbl.find (s.ownerAt own).streams n = some x →
      x.iss.net = s.ctx.net → (s.engFault own n).frozen = false → x.row = 0 → x.lost = none →
      ∃ t, exec (.strUnsub d a w) s = .next t ∧ CmdEnds s t (some (d, BitVec.ofNat 64 x.tile)) w 4
        ∧ Tbl.find (t.ownerAt own).streams n = none ∧ t.mem = s.mem ∧ t.banks = s.banks)
    ∧ (∀ own n x, (s.readG a).toNat = own * 128 + n → n < 128 → own < 8 → Tbl.find (s.ownerAt own).streams n = some x →
      x.iss.net = s.ctx.net → x.ended = false → ((s.engFault own n).frozen = true ∨ x.row ≠ 0 ∨ x.lost ≠ none) →
      ∃ t, exec (.strUnsub d a w) s = .next t ∧ CmdWaits s t (.strUnsub d a w) ∧ t.me.arg = some (own * 128 + n)
        ∧ Tbl.find (t.ownerAt own).streams n = some { x with stop := true } ∧ t.mem = s.mem ∧ t.banks = s.banks)
    ∧ (∀ cell fid own n x, (s.focus cell fid).released = some (.strUnsub d a w) → (s.focus cell fid).me.arg = some (own * 128 + n) →
      n < 128 → own < 8 → Tbl.find (s.ownerAt own).streams n = some x → x.iss.net = (s.focus cell fid).ctx.net → x.ended = true →
      ∃ t, exec (.conditionWaitEnd cell fid) s = .next t ∧ t.readG d = (if d = 0 then 0 else BitVec.ofNat 64 x.tile)
        ∧ t.me.woff = (s.focus cell fid).me.woff + 4 ∧ t.me.wait = none ∧ Tbl.find (t.ownerAt own).streams n = none)
    ∧ (1024 ≤ (s.readG a).toNat → ∃ t, exec (.strUnsub d a w) s = .next t ∧ CmdEnds s t (some (d, 0)) w 4 ∧ OnlyMeAndWave s t)
    ∧ (o % 64 = 0 → wdOk ds = true → (∃ n, n < 32 ∧ Tbl.find (s.ownerAt 8).walkers n = none) →
      ∃ t n x, exec (.walkPost a off w) s = .next t ∧ n < 32 ∧ Tbl.find (s.ownerAt 8).walkers n = none
        ∧ CmdEnds s t none w 4 ∧ Tbl.find (t.ownerAt 8).walkers n = some x ∧ x.desc = ds ∧ x.done = false ∧ x.hops = 0
        ∧ (∀ m, m ≠ n → Tbl.find (t.ownerAt 8).walkers m = Tbl.find (s.ownerAt 8).walkers m)
        ∧ t.mem = s.mem ∧ t.banks = s.banks)

/-- R198, R199, R200, R203: the stream that its controller serves next moves a tile: a push stream whose ticket's slot is free
writes a one-row tile from memory into the slot and sends its bytes to the ring as a credit; a pull stream whose ticket is complete
writes a one-row tile from the slot to memory and releases the slot; a search that is done writes its result into its ticket's slot
once it is free, sends the credit, and frees the walker. -/
def Obligations.StreamsAndWalkersMoveTheirBytes : Prop :=
  ∀ (s s1 : State) (o n : Nat) (bs : List Byte),
    (∀ x, s.readyStream o n false = some x →
      let h := s.ringHead (sdRing x.desc)
      let slot := slotAddr (sdRing x.desc) h (x.t0 + x.tile)
      sdRows x.desc = 1 → 1 ≤ sdRowb x.desc → diff32 (x.t0 + x.tile) (rRcnt h) < rN h → x.row = 0 →
      slot % 2 ^ 16 + sdRowb x.desc ≤ 2 ^ 16 →
      (s.servedStream o n).readVirt x.iss (sdRow x.desc x.tile 0) (sdRowb x.desc) = (s1, .ok bs) →
      ∃ t c, exec (.pushStreamTile o n) s = .next t ∧ Mem.load t.banks slot bs.length = bs
        ∧ BytesStand s.banks t.banks slot bs.length ∧ t.mem = s.mem
        ∧ t.credits = s.credits ++ [c] ∧ c.ring = sdRing x.desc ∧ c.off = slot % 2 ^ 16 ∧ c.n = sdRowb x.desc
        ∧ (x.stop = false → x.tile + 1 < sdTiles x.desc →
            Tbl.find (t.ownerAt o).streams n = some { x with tile := x.tile + 1, row := 0 }))
    ∧ (∀ x dpa cc, s.readyStream o n true = some x → s.taskOf x.iss.cell x.iss.net = none →
      let h := s.ringHead (sdRing x.desc)
      let slot := slotAddr (sdRing x.desc) h (x.t0 + x.tile)
      sdRows x.desc = 1 → 1 ≤ sdRowb x.desc → diff32 (x.t0 + x.tile) (rRcnt h) < diff32 (rWcnt h) (rRcnt h) → x.row = 0 →
      slot % 2 ^ 16 + sdRowb x.desc ≤ 2 ^ 16 → sdRow x.desc x.tile 0 % 4096 + sdRowb x.desc ≤ 4096 →
      (s.servedStream o n).piece x.iss (sdRow x.desc x.tile 0) true = (s1, .ok (dpa, cc)) →
      ∃ t, exec (.pullStreamTile o n) s = .next t
        ∧ Mem.load t.mem dpa (sdRowb x.desc) = Mem.load s.banks slot (sdRowb x.desc)
        ∧ BytesStand s.mem t.mem dpa (sdRowb x.desc)
        ∧ RingIs t (sdRing x.desc) (rBase h) (rSlotBytes h) (rN h) (rExpect h) (rPoison h) (rWcnt h) ((rRcnt h + 1) % 2 ^ 32)
        ∧ BytesStand s.banks t.banks (sdRing x.desc) 32)
    ∧ (∀ x, Tbl.find (s.ownerAt 8).walkers n = some x → (s.engFault 8 n).frozen = false → x.lost = none → x.done = true →
      let h := s.ringHead (wdRing x.desc)
      let slot := slotAddr (wdRing x.desc) h (wdTicket x.desc)
      diff32 (wdTicket x.desc) (rRcnt h) < rN h → slot % 2 ^ 16 + 8 * wdK x.desc ≤ 2 ^ 16 →
      ∃ t c, exec (.walkResultWrite n) s = .next t
        ∧ (∀ i, i < wdK x.desc → numberOf (Mem.load t.banks (slot + 8 * i) 8)
            = ((((bestOf (wdK x.desc) x.seen).map foundWord)[i]?).getD (BitVec.allOnes 64)).toNat)
        ∧ BytesStand s.banks t.banks slot (8 * wdK x.desc) ∧ t.mem = s.mem
        ∧ Tbl.find (t.ownerAt 8).walkers n = none
        ∧ t.credits = s.credits ++ [c] ∧ c.ring = wdRing x.desc ∧ c.off = slot % 2 ^ 16 ∧ c.n = 8 * wdK x.desc)

/-- R204, R341 to R343, R424 to R426: `coll.post` through a valid communicator whose entry can be read takes the next SEQ, which it
gives, and starts an operation; where the engine serves its communicator next on its channel (R343), a chunk that waits goes as one
packet over a port whose channel has credits for it (R340), and a broadcast's root, with none that waits, copies a chunk to its RECV
and has it wait for the next rank; nothing goes to a peer that is lost; a finished chunk of the operation's communicator and SEQ
that lands from a peer that is present is written to RECV and waits for the next rank, unless it was finished there, and its packet
is acknowledged; a duplicate of a packet changes no operation, and a chunk whose operation has ended goes to none; an operation
whose chunks are all sent and landed ends and adds 1 to its signal. The packet's body, which module a peer entry names, and how an
arriving chunk names its operation are the model's choice (log 20). -/
def Obligations.CollectivesComplete : Prop :=
  ∀ (s s1 : State) (d a : Rg) (off : W32) (w : Wave) (k : Nat) (x : Coll),
    (Ready s w → at2 s a off % 2 ^ 16 % 64 = 0 → cdOk (imageWords s (at2 s a off)) = true → s.commBase ≠ 0 →
      commV (s.commEntry (cdComm (imageWords s (at2 s a off)))) = true →
      s.commPoison (cdComm (imageWords s (at2 s a off))) = none →
      bytesExist (s.commBase + 32 * cdComm (imageWords s (at2 s a off))) 32 = true →
      let ds := imageWords s (at2 s a off)
      let e := s.commEntry (cdComm ds)
      ∃ t y, exec (.collPost d a off w) s = .next t ∧ CmdEnds s t (some (d, BitVec.ofNat 64 (commSeq e))) w 4
        ∧ t.colls = s.colls ++ [y] ∧ y.desc = ds ∧ y.comm = cdComm ds ∧ y.seq = commSeq e ∧ y.n = commN e ∧ y.sent = 0 ∧ y.got = 0
        ∧ commSeq (t.commEntry (cdComm ds)) = (commSeq e + 1) % 2 ^ 32
        ∧ commN (t.commEntry (cdComm ds)) = commN e ∧ commRank (t.commEntry (cdComm ds)) = commRank e
        ∧ BytesStand s.mem t.mem (s.commBase + 32 * cdComm ds) 32 ∧ t.banks = s.banks)
    ∧ (∀ (o rank : Nat) (final : Bool) (bs : List Byte) (rest : List (Nat × Nat × Bool × List Byte)), s.collTurn k = some x →
      s.collNext x.vc = some x.comm → x.out = (rank, o, final, bs) :: rest → s.present (s.peerAt x.peers rank) = true →
      ∃ t p, exec (.collectiveChunkSend k) s = .next t ∧ t.colls[k]? = some { x with out := rest }
        ∧ t.sending = s.sending ++ [p] ∧ p.peer = s.peerAt x.peers rank ∧ p.vc = x.vc ∧ p.body = State.chunkBody x o final bs
        ∧ p.port ∈ s.openPorts p.peer p.vc p.body.length
        ∧ t.outbox = s.outbox ++ [.packet p.peer p.port (fld s.netcfg 63 48) p.vc p.num p.body] ∧ t.mem = s.mem ∧ t.banks = s.banks)
    ∧ (∀ (o rank : Nat) (final : Bool) (bs : List Byte) (rest : List (Nat × Nat × Bool × List Byte)), s.collTurn k = some x →
      s.collNext x.vc = some x.comm → x.out = (rank, o, final, bs) :: rest → s.present (s.peerAt x.peers rank) = false →
      ∃ t, exec (.collectiveChunkSend k) s = .next t ∧ t.colls[k]? = some { x with out := rest }
        ∧ t.sending = s.sending ∧ t.outbox = s.outbox ∧ t.mem = s.mem ∧ t.banks = s.banks)
    ∧ (∀ (s2 : State) (bs : List Byte) (o n dest : Nat), s.collTurn k = some x → x.cop = 3 → s.taskOf x.iss.cell x.iss.net = none → x.rank = cdRoot x.desc →
      s.collNext x.vc = some x.comm → x.out = [] → x.starts[x.sent]? = some (dest, o, n, true) →
      State.readVirt { s with served := Tbl.put s.served x.vc (x.comm + 1) } x.iss (stepAddr (cdSend x.desc) 1 o) n = (s1, .ok bs) →
      s1.writeVirt x.iss (stepAddr (cdRecv x.desc) 1 o) bs = (s2, .ok ()) →
      ∃ t, exec (.collectiveChunkSend k) s = .next t ∧ t.mem = s2.mem ∧ t.banks = s.banks
        ∧ t.colls[k]? = some { x with sent := x.sent + 1, got := x.got + bs.length
                                      out := if x.n = 1 ∨ x.next = x.rank then [] else [(x.next, o, true, bs)] })
    ∧ (∀ (s2 : State) (c o : Nat) (data : List Byte) (h : ChunkHead), s.present h.pkt.peer = true → s.duplicate h.pkt = false →
      (s.colls.findIdx? fun y => y.comm == h.comm && y.seq == h.seq) = some k →
      s.collTurn k = some x → x.cop = 0 → s.taskOf x.iss.cell x.iss.net = none →
      x.chunks.findIdx? (fun c => c.2.1 == o && c.2.2 == data.length) = some c →
      ((s.hear h.pkt.peer).acceptPacket h.pkt).writeVirt x.iss (stepAddr (cdRecv x.desc) 1 o) data = (s2, .ok ()) →
      ∃ t, exec (.collectiveChunkLand h o data true) s = .next t ∧ t.mem = s2.mem ∧ t.banks = s.banks
        ∧ t.outbox = s.outbox ++ [.ack h.pkt.peer h.pkt.vc h.pkt.num] ∧ t.duplicate h.pkt = true
        ∧ t.colls[k]? = some { x with got := x.got + data.length
                                      out := if x.n = 1 ∨ x.next = (c + x.n - 1) % x.n then x.out else x.out ++ [(x.next, o, true, data)] })
    ∧ (∀ (o : Nat) (data : List Byte) (final : Bool) (h : ChunkHead), s.present h.pkt.peer = true →
      (s.duplicate h.pkt = true ∨ ∀ y ∈ s.colls, ¬ (y.comm = h.comm ∧ y.seq = h.seq)) →
      ∃ t, exec (.collectiveChunkLand h o data final) s = .next t ∧ t.colls = s.colls ∧ t.mem = s.mem ∧ t.banks = s.banks
        ∧ (s.duplicate h.pkt = true → t.outbox = s.outbox ++ [.ack h.pkt.peer h.pkt.vc h.pkt.num]))
    ∧ (s.collTurn k = some x → x.out = [] → x.starts.length ≤ x.sent → x.want ≤ x.got → cdSig x.desc = 0 →
      ∃ t, exec (.collectiveComplete k) s = .next t ∧ t = { s with colls := s.colls.eraseIdx k })
    ∧ (∀ s2 old, s.collTurn k = some x → x.out = [] → x.starts.length ≤ x.sent → x.want ≤ x.got → cdSig x.desc ≠ 0 → x.ord = none →
      s.taskOf x.iss.cell x.iss.net = none →
      s.unitSignal x.iss (cdSig x.desc) 1 wideAgent (some 5) = (s2, .ok old) →
      ∃ t, exec (.collectiveComplete k) s = .next t ∧ t.colls = s.colls.eraseIdx k ∧ t.mem = s2.mem ∧ t.banks = s.banks)

end

namespace Sys2Proof.Claim
open Sys2Proof.Machine

/-! ### Words for vector instructions -/

/-- A vector instruction: word 1, S bit, the selectors it names (destination first), its entry's checks and its work
(R206 to R214). -/
structure VPart where
  v     : VOp
  sb    : Bool
  sels  : List Nat
  entry : List Shape → Bool
  work  : List Shape → Nat

def vecPart (i : Instr) : Option VPart :=
  let abd (v : VOp) (sb : Bool) : Option VPart := some ⟨v, sb, selsDAB v, plainEntry v, workD⟩
  let ad (v : VOp) (sb : Bool) : Option VPart := some ⟨v, sb, selsDA v, plainEntry v, workD⟩
  match i with
  | .vadd v sb | .vsub v sb | .vmul v sb | .vfma v sb | .vfms v sb | .vnfma v sb | .vmax v sb | .vmin v sb
  | .vand v sb | .vor v sb | .vxor v sb | .vshl v sb | .vshr v sb | .vsra v sb => abd v sb
  | .vabs v sb | .vneg v sb | .vcpy v sb | .vscale _ v sb | .vexp2 v sb | .vlog2 v sb | .vrcp v sb | .vrsqrt v sb
  | .vsqrt v sb | .vtanh v sb | .vsig v sb | .vsilu v sb | .vgelu v sb => ad v sb
  | .vsel v sb => some ⟨v, sb, selsDAB v ++ [v.imm.toNat % 16], selEntry v, workD⟩
  | .vcmpEq v sb | .vcmpNe v sb | .vcmpLt v sb | .vcmpLe v sb | .vcmpGt v sb | .vcmpGe v sb =>
    some ⟨v, sb, selsDAB v, cmpEntry v, workD⟩
  | .vredSum v sb | .vredMax v sb | .vredMin v sb => some ⟨v, sb, selsDA v, reduceEntry false v, workA⟩
  | .vscanSum v sb | .vscanMax v sb => some ⟨v, sb, selsDA v, reduceEntry true v, workA⟩
  | .vperm v => some ⟨v, false, selsDAB v, permEntry v, fun hs => (shD hs).n⟩
  | .vshuf v => some ⟨v, false, if v.imm = 0 then selsDAB v else selsDA v, shufEntry v, workD⟩
  | .vbcast _ v => some ⟨v, false, [v.shD.toNat], plainEntry v, workD⟩
  | .vaddc _ v sb | .vsubc _ v sb => some ⟨v, sb, selsDAB v, chainEntry v, workA⟩
  | .vmulc v sb => some ⟨v, sb, selsDAB v, mulcEntry v, fun hs => 2 * (shA hs).n⟩
  | .vdot v sb => some ⟨v, sb, selsDAB v, dotEntry v, workA⟩
  | .vcvt v sb => some ⟨v, sb, selsDA v, cvtEntry v, workD⟩
  | .vpack v => some ⟨v, false, selsDA v, packEntry v, workD⟩
  | .vunpack v => some ⟨v, false, selsDA v, unpackEntry v, workD⟩
  | .vqnt v => some ⟨v, false, selsDA v, quantEntry v, workA⟩
  | .vdq v => some ⟨v, false, selsDA v, dequantEntry v, workA⟩
  | _ => none

/-- The instruction passes the checks of R211 with these records and this rounding mode. -/
def Checked (s : State) (p : VPart) (hs : List Shape) (mode : Nat) : Prop :=
  s.vecCheck p.v p.sels p.entry p.work = .ok (hs, mode)

/-- One dimension of stride 1: element `k` stands in slot `k`. -/
def Flat (h : Shape) : Prop := h.exts.drop 1 = [1, 1, 1] ∧ h.strs = [1, 0, 0, 0] ∧ h.exts.length = 4

/-- The first and the last byte of an element's slot (R209). -/
def slotByte (h : Shape) (k : Nat) : Int := h.byteAt (h.slot k)
def slotLast (h : Shape) (k : Nat) : Int := slotByte h k + (h.slotW / 8 - 1 : Nat)

/-- The bytes of its bank or of the lane file that a record's slots touch. -/
def inSlots (h : Shape) (b : Nat) : Prop := ∃ k, k < h.n ∧ slotByte h k ≤ (b : Int) ∧ (b : Int) ≤ slotLast h k

/-- The scale bytes of a record with block scales (R210). -/
def inScales (h : Shape) (b : Nat) : Prop := h.sv = true ∧ h.scale ≤ b ∧ b ≤ h.scale + (h.n - 1) / 32

/-- An integer in a type: it wraps, or with SAT it is kept in the type's range (R75, R219). -/
def intFit (t : Nat) (sat : Bool) (x : Int) : Nat :=
  let w := tyWidth t
  let lo : Int := if t ≤ 4 then -(2 ^ (w - 1) : Nat) else 0
  let hi : Int := if t ≤ 4 then (2 ^ (w - 1) : Nat) - 1 else (2 ^ w : Nat) - 1
  ((if sat then max lo (min hi x) else x) % (2 ^ w : Nat)).toNat

/-- A rounded value's bits (R75, R76). -/
def bitsOf (t mode : Nat) (sat : Bool) (x : Machine.Num) : Nat := ((fmtOf t).round mode sat 0 x).1

/-- The exact result of an arithmetic instruction before it is rounded (R218, R219). -/
def exactNum (i : Instr) (mode : Nat) (a b d : Machine.Num) : Machine.Num :=
  match i with
  | .vadd .. => numSum mode [a, b]
  | .vsub .. => numSum mode [a, b.neg]
  | .vmul .. => (numMul a b).1
  | .vfma .. => numSum mode [(numMul a b).1, d]
  | .vfms .. => numSum mode [(numMul a b).1, d.neg]
  | _ => numSum mode [(numMul a b).1.neg, d]
def exactInt (i : Instr) (a b d : Int) : Int :=
  match i with
  | .vadd .. => a + b
  | .vsub .. => a - b
  | .vmul .. => a * b
  | .vfma .. => a * b + d
  | .vfms .. => a * b - d
  | _ => d - a * b

/-- Element `k` of the result of an elementwise instruction, of the sources as they stood before (R218 to R221, R223, R227
to R229). -/
def elemOf (i : Instr) (s : State) (hs : List Shape) (mode k : Nat) : Option Nat :=
  let raw (j : Nat) : Nat := s.rawElem (hs.getD j {}) k
  let num (j : Nat) : Machine.Num := s.numElem (hs.getD j {}) k
  let int (j : Nat) : Int := s.intElem (hs.getD j {}) k
  match i with
  | .vadd v _ | .vsub v _ | .vmul v _ | .vfma v _ | .vfms v _ | .vnfma v _ =>
    some (if tyInt v.ty.toNat then intFit v.ty.toNat v.sat (exactInt i (int 1) (int 2) (int 0))
          else bitsOf v.ty.toNat mode v.sat (exactNum i mode (num 1) (num 2) (num 0)))
  | .vmax v _ => some (if tyInt v.ty.toNat then intFit v.ty.toNat false (max (int 1) (int 2))
                       else bitsOf v.ty.toNat 0 false (pickNum true (num 1) (num 2)))
  | .vmin v _ => some (if tyInt v.ty.toNat then intFit v.ty.toNat false (min (int 1) (int 2))
                       else bitsOf v.ty.toNat 0 false (pickNum false (num 1) (num 2)))
  | .vabs v _ => some (if tyInt v.ty.toNat then intFit v.ty.toNat v.sat (int 1).natAbs
                       else bitsOf v.ty.toNat 0 false (num 1).abs)
  | .vneg v _ => some (if tyInt v.ty.toNat then intFit v.ty.toNat v.sat (-(int 1))
                       else bitsOf v.ty.toNat 0 false (num 1).neg)
  | .vcpy _ _ => some (raw 1)
  | .vsel _ _ => some (if raw 3 = 0 then raw 2 else raw 1)
  | .vand _ _ => some (raw 1 &&& raw 2)
  | .vor _ _ => some (raw 1 ||| raw 2)
  | .vxor _ _ => some (raw 1 ^^^ raw 2)
  | .vshl v _ => some (raw 1 * 2 ^ (raw 2 % tyWidth v.ty.toNat) % 2 ^ tyWidth v.ty.toNat)
  | .vshr v _ => some (raw 1 / 2 ^ (raw 2 % tyWidth v.ty.toNat))
  | .vsra v _ => some ((toSigned (tyWidth v.ty.toNat) (raw 1) / (2 ^ (raw 2 % tyWidth v.ty.toNat) : Nat)
      % (2 ^ tyWidth v.ty.toNat : Nat)).toNat)
  | .vcmpEq _ _ => some (if !(num 1).isNan && !(num 2).isNan && numCmp (num 1) (num 2) == .eq then 1 else 0)
  | .vcmpNe _ _ => some (if !(num 1).isNan && !(num 2).isNan && numCmp (num 1) (num 2) == .eq then 0 else 1)
  | .vcmpLt _ _ => some (if !(num 1).isNan && !(num 2).isNan && numCmp (num 1) (num 2) == .lt then 1 else 0)
  | .vcmpLe _ _ => some (if !(num 1).isNan && !(num 2).isNan && numCmp (num 1) (num 2) != .gt then 1 else 0)
  | .vcmpGt _ _ => some (if !(num 1).isNan && !(num 2).isNan && numCmp (num 1) (num 2) == .gt then 1 else 0)
  | .vcmpGe _ _ => some (if !(num 1).isNan && !(num 2).isNan && numCmp (num 1) (num 2) != .lt then 1 else 0)
  | .vbcast a v => some ((s.readG a).toNat % 2 ^ tyWidth v.ty.toNat)
  | .vcvt v _ => some (if tyInt (hs.getD 1 {}).ty && tyInt v.ty.toNat then intFit v.ty.toNat v.sat (int 1)
                       else (roundTo v.ty.toNat mode v.sat 0 (num 1)).1)
  | .vscale a v _ => some (bitsOf v.ty.toNat mode v.sat (numMul (num 1) (f32.value ((s.readG a).toNat % 2 ^ 32))).1)
  | .vsqrt v _ => some (bitsOf v.ty.toNat mode v.sat (specialNum 4 (num 1)).1)
  | .vpack _ => some (s.rawElem (hs.getD 1 {}) (2 * k) + 2 ^ (hs.getD 1 {}).w * s.rawElem (hs.getD 1 {}) (2 * k + 1))
  | .vunpack _ => some (s.rawElem (hs.getD 1 {}) (k / 2) / 2 ^ ((hs.getD 0 {}).w * (k % 2)))
  | _ => none

/-- The special functions of R232 but `vsqrt`, by their number. -/
def specialFn (i : Instr) : Option Nat :=
  match i with
  | .vexp2 .. => some 0
  | .vlog2 .. => some 1
  | .vrcp .. => some 2
  | .vrsqrt .. => some 3
  | .vtanh .. => some 5
  | .vsig .. => some 6
  | .vsilu .. => some 7
  | .vgelu .. => some 8
  | _ => none

/-- Element `k` of an instruction that reads every source before it writes (R215, R222 to R226). -/
def wholeOf (i : Instr) (s : State) (hs : List Shape) (mode k : Nat) : Option Nat :=
  let a := hs.getD 1 {}
  let b := hs.getD 2 {}
  let vals := (s.shapeValues a).1
  let sum (t : Nat) (sat : Bool) (xs : List Machine.Num) : Nat :=
    if tyInt t then intFit t sat ((numSum mode xs).units 0) else bitsOf t mode sat (numSum mode xs)
  let pick (larger : Bool) (t : Nat) (xs : List Machine.Num) : Nat :=
    match xs with
    | [] => exactBits t .nan
    | x :: rest => exactBits t (rest.foldl (pickNum larger) x)
  match i with
  | .vperm _ => some (if s.rawElem b k < a.n then s.rawElem a (s.rawElem b k) else 0)
  | .vshuf v => some (if v.imm = 0 then s.rawElem (if k % 2 = 0 then a else b) (k / 2)
                      else if v.imm = 1 then s.rawElem a (2 * k)
                      else if v.imm = 2 then s.rawElem a (2 * k + 1) else s.rawElem a (a.n - 1 - k))
  | .vredMax v _ => some (pick true v.ty.toNat vals)
  | .vredMin v _ => some (pick false v.ty.toNat vals)
  | .vscanMax v _ => some (pick true v.ty.toNat (vals.take (k + 1)))
  | .vredSum v _ => if tyInt v.ty.toNat then some (sum v.ty.toNat v.sat vals) else none
  | .vscanSum v _ => if tyInt v.ty.toNat then some (sum v.ty.toNat v.sat (vals.take (k + 1))) else none
  | .vmulc v _ =>
    let l := if v.chain = 0 then 16 else v.chain.toNat
    let limbs (h : Shape) (c : Nat) : Nat := ((List.range l).map fun j => 2 ^ (32 * j) * s.rawElem h (l * c + j)).sum
    some (limbs a (k / (2 * l)) * limbs b (k / (2 * l)) / 2 ^ (32 * (k % (2 * l))) % 2 ^ 32)
  | .vdq v => if mode = 5 then none else some (bitsOf v.ty.toNat mode v.sat (vals.getD k .nan))
  | _ => none

/-- What a vector instruction leaves when it completes (R211 to R217): two words further, flags that only join, a choice code
only with S, general registers and selectors as they were but for a register that it names; with a bank destination the commit
point passed and every lane register as it was, with a lane destination every byte of the lane file outside the destination's slots;
every byte of memory, of other banks, and of its own bank outside the destination's slots and scale bytes as it was; the generator
as it was but in STO mode (R69); every other cell, and of its own every place, transition, wave record and other firing, as they
were: it learns only what it has read and written (R286). -/
structure VecEnds (s t : State) (p : VPart) (hs : List Shape) (mode : Nat) (d : Option Rg) : Prop where
  place  : t.me.woff = s.me.woff + 2 ∧ t.me.wait = none
  flags  : s.fstat ||| t.fstat = t.fstat
  choice : p.sb = false → t.me.choice = s.me.choice
  regs   : (∀ r, d ≠ some r → t.readG r = s.heldG r) ∧ ∀ k, t.readSh k = s.heldSh k
  commit : (hs.headD {}).lane = false → t.me.commit = true
  lanes  : (hs.headD {}).lane = false → ∀ k, t.readV k = s.heldV k
  bytes  : (hs.headD {}).lane = true → ∀ b, b < 512 → ¬ inSlots (hs.headD {}) b → t.laneByte b = s.heldByte b
  bank   : ∀ c, (∀ b, b < 2 ^ 16 → c = cellAddr s.cell + b →
             ((hs.headD {}).lane = true ∨ ¬ inSlots (hs.headD {}) b) ∧ ¬ inScales (hs.headD {}) b) →
             Mem.read t.banks c = Mem.read s.banks c
  memory : t.mem = s.mem
  gen    : mode ≠ 5 → t.ctx.sgen = s.ctx.sgen ∧ t.ctx.gens = s.ctx.gens
  firing : t.me.rest = { s.me with commit := t.me.commit, flags := t.me.flags }.rest
  rest   : t = { (s.modMe fun _ => t.me).modCtx fun c =>
                   { c with sgen := t.ctx.sgen, gens := t.ctx.gens, know := t.ctx.know, seen := t.ctx.seen } with
                 banks := t.banks, free := t.free, wlog := t.wlog }

/-- The (e+1)-th largest magnitude of a block (R230). -/
def NthLargest (e : Nat) (xs : List Machine.Num) (m : Machine.Num) : Prop :=
  m ∈ xs.map Machine.Num.abs ∧ (xs.filter fun x => numCmp x.abs m == .gt).length ≤ e
    ∧ e < (xs.filter fun x => numCmp x.abs m != .lt).length

/-- Q of R230, and a multiple of it by a power of two. -/
def quantMost (t : Nat) : Nat := if t = 11 then 448 else if t = 12 then 57344 else if t = 1 then 127 else 7
def quantStep (t : Nat) (k : Int) : Machine.Num := .fin false (quantMost t) k

/-- The exponent of a block whose (e+1)-th largest magnitude is `m` (R230): 0 for a zero, else the least `k` with m ≤ Q · 2^k,
kept from -127 to 127. -/
def ScaleExp (t : Nat) (m : Machine.Num) (k : Int) : Prop :=
  (m.isZero = true → k = 0) ∧ (m.isZero = false → -127 ≤ k ∧ k ≤ 127 ∧ (k = 127 ∨ numCmp m (quantStep t k) ≠ .gt)
    ∧ (k = -127 ∨ numCmp m (quantStep t (k - 1)) = .gt))

/-- A value rounded to an integer that no range bounds (R76). -/
def toInteger (mode : Nat) (x : Machine.Num) : Int :=
  match x with
  | .fin neg m e => (roundInt mode 0 neg m e).1
  | _ => 0

/-- The codes of a block (R230), element by element from element `i` on: `left` outliers are still allowed, and `ps` are the slots
that an outlier before has taken. -/
def quantCodes (t mode : Nat) (sat : Bool) (k : Int) : Nat → List Nat → Nat → List Machine.Num → List Nat
  | left, p :: ps, i, _ :: xs => p :: quantCodes t mode sat k left ps (i + 1) xs
  | left, [], i, x :: xs =>
    let y := x.scale (-k)
    let q := toInteger mode y
    if t = 11 ∨ t = 12 then bitsOf t mode sat y :: quantCodes t mode sat k left [] (i + 1) xs
    else if t = 13 ∧ 7 < q.natAbs ∧ i ≤ 29 ∧ 0 < left then
      8 :: quantCodes t mode sat k (left - 1) [bitsOf 11 mode sat y / 16, bitsOf 11 mode sat y % 16] (i + 1) xs
    else (if t = 1 then intFit 1 true q else ((max (-7) (min 7 q)) % 16).toNat) :: quantCodes t mode sat k left [] (i + 1) xs
  | _, _, _, [] => []

/-- The general register that a vector instruction writes. -/
def vecDest (i : Instr) : Option Rg :=
  match i with
  | .vaddc d _ _ | .vsubc d _ _ => some d
  | _ => none

end Sys2Proof.Claim

section
open Sys2Proof Sys2Proof.Machine Sys2Proof.Claim

/-! ### Vector instructions (R206 to R233) -/

/-- R211 to R217: each of the 51 vector instructions completes where its checks pass, and changes nothing but what its entry
names: vadd, vsub, vmul, vfma, vfms, vnfma, vmax, vmin, vabs, vneg, vcpy, vsel, vand, vor, vxor, vshl, vshr, vsra, vcmpEq, vcmpNe,
vcmpLt, vcmpLe, vcmpGt, vcmpGe, vredSum, vredMax, vredMin, vscanSum, vscanMax, vperm, vshuf, vbcast, vaddc, vsubc, vmulc, vdot,
vcvt, vpack, vunpack, vscale, vqnt, vdq, vexp2, vlog2, vrcp, vrsqrt, vsqrt, vtanh, vsig, vsilu, vgelu. -/
def Obligations.VectorInstructionsComplete : Prop :=
  ∀ (i : Instr) (p : VPart) (s : State) (hs : List Shape) (mode : Nat), vecPart i = some p → s.Runs → Checked s p hs mode →
    ∃ t, exec i s = .next t ∧ VecEnds s t p hs mode (vecDest i)

/-- R211: a vector instruction whose checks fail raises the first failing check's class: 0x03 for a selector whose record
does not lie in a bank; 0x0E for a record that is not well formed, an entry that it breaks, a rounding code of 6, a code of 7 where
the destination's record names 6 or 7, or more work than 60; and, where none of these holds, 0x03 for an element's slot that lies
outside the bank or the lane file, or a scale byte that lies outside the bank. What the record shows of the failing byte is log 31's. -/
def Obligations.VectorChecksRaise : Prop :=
  ∀ (i : Instr) (p : VPart) (s : State), vecPart i = some p → s.Runs →
    (∀ h, s.vecCheck p.v p.sels p.entry p.work = .error h → Traps i s 0 h)
    ∧ (∀ k, s.shapes p.sels = .error k → s.vecCheck p.v p.sels p.entry p.work = .error k ∧ k.cls = 3)
    ∧ (∀ hs, s.shapes p.sels = .ok hs →
        ((∃ h ∈ hs, h.wellFormed = false ∨ h.packOk = false) ∨ p.entry hs = false ∨ p.v.rnd = 6 ∨ 60 < p.work hs
          ∨ (p.v.rnd = 7 ∧ ((hs.headD {}).rnd = 6 ∨ (hs.headD {}).rnd = 7))) →
        Traps i s 0 { cls := 0x0E })
    ∧ (∀ hs, s.shapes p.sels = .ok hs → (∀ h ∈ hs, h.wellFormed = true ∧ h.packOk = true) → p.entry hs = true → p.work hs ≤ 60 →
        p.v.rnd ≠ 6 → (p.v.rnd = 7 → (hs.headD {}).rnd < 6) →
        (∃ h ∈ hs, (∃ k, k < h.n ∧ (slotByte h k < 0 ∨ (h.limit : Int) ≤ slotLast h k))
          ∨ (h.sv = true ∧ 0xFFFF < h.scale + (h.n - 1) / 32)) →
        ∃ x, Traps i s 0 x ∧ x.cls = 3 ∧ x.cause = 0)

/-- R218 to R221, R223, R227 to R229, R232: the elements of an elementwise result that one group holds (R214), in every
rounding mode but STO, for a destination of one dimension: each is the operation on the source elements as they stood before
the instruction. -/
def Sys2Proof.Claim.VectorElementsAreComputed : Prop :=
  ∀ (i : Instr) (p : VPart) (s : State) (hs : List Shape) (mode : Nat), vecPart i = some p → s.Runs → Checked s p hs mode →
    mode ≠ 5 → Flat (hs.headD {}) → (hs.headD {}).n ≤ groupLen hs →
    ∃ t, exec i s = .next t ∧ ∀ k x, k < (hs.headD {}).n → elemOf i s hs mode k = some x →
      t.rawElem (hs.headD {}) k = x % 2 ^ (hs.headD {}).w

/-- R215, R222, R223, R225, R231: the elements of permutations, reductions, scans, long products and dequantised blocks,
whose sources are all read before any element is written. -/
def Sys2Proof.Claim.VectorWholeResultsAreComputed : Prop :=
  ∀ (i : Instr) (p : VPart) (s : State) (hs : List Shape) (mode : Nat), vecPart i = some p → s.Runs → Checked s p hs mode →
    Flat (hs.headD {}) →
    ∃ t, exec i s = .next t ∧ ∀ k x, k < (hs.headD {}).n → wholeOf i s hs mode k = some x →
      t.rawElem (hs.headD {}) k = x % 2 ^ (hs.headD {}).w

/-- R218 to R221, R223, R227 to R229, R232: the elements of an elementwise result that one group holds (R214), in every
rounding mode but STO, for a destination of one dimension: each is the operation on the source elements as they stood before
the instruction.

R215, R222, R223, R225, R231: the elements of permutations, reductions, scans, long products and dequantised blocks,
whose sources are all read before any element is written. -/
def Obligations.VectorResultsAreComputed : Prop := Sys2Proof.Claim.VectorElementsAreComputed ∧ Sys2Proof.Claim.VectorWholeResultsAreComputed

/-- R224: `vaddc` and `vsubc` add or subtract chains of 32-bit limbs; g[D] counts the chains that carry or borrow. -/
def Sys2Proof.Claim.LongSumsCountTheirCarries : Prop :=
  ∀ (i : Instr) (d : Rg) (v : VOp) (sb : Bool) (s : State) (hs : List Shape) (mode : Nat) (p : VPart) (f : Int → Int → Int),
    (i = .vaddc d v sb ∧ (f = fun a b => a + b) ∨ i = .vsubc d v sb ∧ (f = fun a b => a - b)) →
    vecPart i = some p → s.Runs → Checked s p hs mode → Flat (hs.headD {}) →
    let l := if v.chain = 0 then 16 else v.chain.toNat
    let limbs (u : State) (h : Shape) (c : Nat) : Nat := ((List.range l).map fun j => 2 ^ (32 * j) * u.rawElem h (l * c + j)).sum
    let x (c : Nat) : Int := f (limbs s (hs.getD 1 {}) c) (limbs s (hs.getD 2 {}) c)
    let carries := ((List.range ((hs.headD {}).n / l)).filter fun c => decide (x c < 0 ∨ ((2 ^ (32 * l) : Nat) : Int) ≤ x c)).length
    ∃ t, exec i s = .next t
      ∧ t.readG d = (if d = 0 then 0 else BitVec.ofNat 64 carries)
      ∧ t.me.choice = (if sb then (if carries = 0 then 1 else 0) else s.me.choice)
      ∧ ((hs.headD {}).ty = 7 → ∀ c, c < (hs.headD {}).n / l → (limbs t (hs.headD {}) c : Int) = x c % (2 ^ (32 * l) : Nat))

/-- R226, R230, R232: `vdot` writes the exact sum of the products, rounded once or wrapped; `vqnt` writes the codes and the
scale byte of each block, 0xFF and zero codes for a block with a NaN or an infinity, and for every other block the exponent of its
(e+1)-th largest magnitude and the rounded codes, with up to e outliers in OCI4; it passes the commit point wherever its codes go
(log 31, the model's reading); a special function writes the value rounded to its type, and in FP32 a value within its bound, which
the spec leaves open (log 12). -/
def Sys2Proof.Claim.DotQuantAndSpecialsAreComputed : Prop :=
  ∀ (p : VPart) (s : State) (hs : List Shape) (mode : Nat), s.Runs → mode ≠ 5 → Flat (hs.headD {}) →
    (∀ v sb, vecPart (.vdot v sb) = some p → Checked s p hs mode →
      let ps := List.zipWith (fun a b => (numMul a b).1) (s.shapeValues (hs.getD 1 {})).1 (s.shapeValues (hs.getD 2 {})).1
      ∃ t, exec (.vdot v sb) s = .next t
        ∧ t.rawElem (hs.headD {}) 0 % 2 ^ (hs.headD {}).w
          = (if (hs.headD {}).ty = 8 then bitsOf 8 mode v.sat (numSum mode ps)
             else intFit (hs.headD {}).ty v.sat ((numSum mode ps).units 0)) % 2 ^ (hs.headD {}).w)
    ∧ (∀ v, vecPart (.vqnt v) = some p → Checked s p hs mode → v.imm.toNat ≤ 10 →
      (∀ b, inScales (hs.headD {}) b → (hs.headD {}).lane = true ∨ ¬ inSlots (hs.headD {}) b) →
      let block (b : Nat) : List Machine.Num := (((s.shapeValues (hs.getD 1 {})).1).drop (32 * b)).take 32
      ∃ t, exec (.vqnt v) s = .next t ∧ t.me.commit = true
        ∧ (∀ b, b < (hs.headD {}).n / 32 → (block b).any (fun x => x.isNan || x.isInf) = true →
            t.scaleByte (hs.headD {}) b = 255 ∧ ∀ j, j < 32 → t.rawElem (hs.headD {}) (32 * b + j) = 0)
        ∧ (∀ b, b < (hs.headD {}).n / 32 → (∀ x ∈ block b, x.isZero = true) →
            t.scaleByte (hs.headD {}) b = 127 ∧ ∀ j, j < 32 → t.rawElem (hs.headD {}) (32 * b + j) % 2 ^ ((hs.headD {}).w - 1) = 0)
        ∧ (∀ b, b < (hs.headD {}).n / 32 → (∀ x ∈ block b, x.isNan = false ∧ x.isInf = false) →
            ∃ m k, NthLargest v.imm.toNat (block b) m ∧ ScaleExp v.ty.toNat m k ∧ (t.scaleByte (hs.headD {}) b : Int) = k + 127
              ∧ ∀ j, j < 32 → t.rawElem (hs.headD {}) (32 * b + j)
                  = (quantCodes v.ty.toNat mode v.sat k v.imm.toNat [] 0 (block b)).getD j 0 % 2 ^ (hs.headD {}).w))
    ∧ (∀ i fn, specialFn i = some fn → vecPart i = some p → Checked s p hs mode → (hs.headD {}).n ≤ groupLen hs →
      ∃ t, exec i s = .next t ∧ ∀ k, k < (hs.headD {}).n →
        t.rawElem (hs.headD {}) k
          = (if p.v.ty = 8 then (looseRound (specialUlps fn) (Config.freeNat (s.free + k)) p.v.sat (specialNum fn (s.numElem (hs.getD 1 {}) k)).1).1
             else bitsOf p.v.ty.toNat mode p.v.sat (specialNum fn (s.numElem (hs.getD 1 {}) k)).1) % 2 ^ (hs.headD {}).w)

/-- R224: `vaddc` and `vsubc` add or subtract chains of 32-bit limbs; g[D] counts the chains that carry or borrow.

R226, R230, R232: `vdot` writes the exact sum of the products, rounded once or wrapped; `vqnt` writes the codes and the
scale byte of each block, 0xFF and zero codes for a block with a NaN or an infinity, and for every other block the exponent of its
(e+1)-th largest magnitude and the rounded codes, with up to e outliers in OCI4; it passes the commit point wherever its codes go
(log 31, the model's reading); a special function writes the value rounded to its type, and in FP32 a value within its bound, which
the spec leaves open (log 12). -/
def Obligations.SumsDotsQuantAndSpecialsAreComputed : Prop := Sys2Proof.Claim.LongSumsCountTheirCarries ∧ Sys2Proof.Claim.DotQuantAndSpecialsAreComputed

end

namespace Sys2Proof.Claim
open Sys2Proof.Machine

/-! ### Words for matrix commands and sector units -/

/-- A wave-word command may run: its firing is in progress and its wave word is consistent. -/
def Starts (s : State) (w : Wave) : Prop := s.Runs ∧ Consistent w s.ctx.wave

/-- A completion target in a register (R236): none for register number 0, else CELL in bits [19:8] and PLACE in [7:0]. -/
def Targets (s : State) (d : Rg) (t : Option (Nat × Nat)) : Prop :=
  (d = 0 ∧ t = none)
  ∨ (d ≠ 0 ∧ (s.readG d).toNat < 2 ^ 20 ∧ ∃ c, s.resolve s.cell s.ctx.net ((s.readG d).toNat / 2 ^ 8) = some c
      ∧ t = some (c, (s.readG d).toNat % 2 ^ 8))

/-- Nothing changed but the current firing, its wave, and the record of its sector. -/
def OnlySector (s t : State) : Prop :=
  t = { (s.modMe fun _ => t.me).modCtx (fun c => { c with wave := t.ctx.wave, chain := t.ctx.chain }) with sectors := t.sectors }
  ∧ ∀ k, k ≠ cellSector s.cell → t.sectorAt k = s.sectorAt k

/-- A command went to the ports of the node of its sector with the values that it read, passed its commit point, and waits
there for its acceptance (R235). -/
structure NodeSent (s t : State) (i : Instr) (a b : W64) (tg : Option (Nat × Nat)) : Prop where
  token  : (t.node (cellSector s.cell)).ports = (s.node (cellSector s.cell)).ports
             ++ [{ instr := i, iss := s.issuer, a := a, b := b, target := tg, sent := s.clock }]
  node   : { t.node (cellSector s.cell) with ports := [] } = { s.node (cellSector s.cell) with ports := [] }
  waits  : CmdWaits s t i
  commit : t.me.commit = true
  only   : OnlySector s t

/-- The same, with the last-wave record. -/
def NodeSentW (s t : State) (i : Instr) (a b : W64) (tg : Option (Nat × Nat)) (w : Wave) : Prop :=
  NodeSent s t i a b tg ∧ t.ctx.wave = some (w.own, w.succ)

/-- An operand's address may be sent (R236, R238): the layout word's high half is 0, and a fabric address names a cell of
the issuing die. -/
def OperandOk (s : State) (a b : Rg) (off : W32) (w : Wave) : Prop :=
  (s.readG b).toNat < 2 ^ 32 ∧ (w.path = 2 → cellDie (faCell (s.pathAddr 2 (at2 s a off))) = cellDie s.cell)

/-- The operand's address as the path names it. -/
def operandAt (s : State) (a : Rg) (off : W32) (w : Wave) : W64 := BitVec.ofNat 64 (s.pathAddr w.path.toNat (at2 s a off))

/-- The firing that waits for a token: in progress, in that instruction, of the token's net instance. -/
def Awaits (s : State) (x : MxToken) : Prop :=
  let t := s.focus x.iss.cell x.iss.fid
  t.live = true ∧ t.me.wait = some x.instr ∧ t.ctx.net = x.iss.net ∧ Ordered t.ctx.firings

/-- How many words the token's instruction has, or none for `mx.stat`, which waits on for its value (R246). -/
def mxWords : Instr → Option Nat
  | .mxStat _ _ _ | .mxStatClr _ _ _ => none
  | .mxSwap | .mxClr _ => some 1
  | _ => some 4

/-- A legal configuration (R237). -/
def CfgLegal (s : State) (k : Nat) (x : MxToken) : Prop :=
  ∀ d aty bty out bsat rg rnm1 w, x.instr = .mxCfg d aty bty out bsat rg rnm1 w →
    pairOk aty.toNat bty.toNat out = true
    ∧ joinOk (s.region x.iss.net rg.toNat) k (s.node k).crg rg.toNat (rnm1.toNat + 1) = true

/-- The completion token of a command left for its target (R236), unless it had left before (R235); that of a drain with REL
releases what is performed (R236, R290). -/
def Told (s t : State) (k : Nat) (x : MxToken) : Prop :=
  t.flights = s.flights ++ if x.told then [] else match x.target with
    | some (c, p) => [⟨k * 2 ^ 38 + 48 * 2 ^ 32, c, p, .tokens 1, x.iss.net, s.clock, false, false, t.drainRel k x.instr⟩]
    | none => []

/-- Nothing changed but the record of one node, the byte memories of the banks, and the flights. -/
def OnlyNode (s t : State) (k : Nat) : Prop :=
  t = { s.modNode k (fun _ => t.node k) with flights := t.flights, banks := t.banks }

/-- The element of a plane or accumulator (R234). -/
def accAt (n : Node) (q : Bool) (m c : Nat) : Wide := Tbl.get {} (n.accOf (if q then 1 else 0)) (m * 128 + c)

/-- The destination rows of a drain: within the bank that its address names, and none over another (R238). -/
def RowsApart (x : MxToken) (m n : Nat) : Prop :=
  x.a.toNat % 2 ^ 16 + (m - 1) * (x.b.toNat % 2 ^ 16) + 4 * n ≤ 2 ^ 16 ∧ (m = 1 ∨ 4 * n ≤ x.b.toNat % 2 ^ 16)

/-- Where a drain's element stands. -/
def elemAt (x : MxToken) (m c : Nat) : Nat := x.a.toNat + m * (x.b.toNat % 2 ^ 16) + 4 * c

/-- A drain left its results (R83 to R85, R242): element (m, c) resolves with the word that stood at its place where ACC is
1, and stands there unless NOWR is 1; every other byte stands. -/
def Drained (s t : State) (n : Node) (x : MxToken) (h : MxShape) (acc nowr : Bool) (val : Nat → Nat → Wide) : Prop :=
  (nowr = false → RowsApart x h.m h.n → n.mode ≠ 5 → ∀ m c, m < h.m → c < h.n →
    numberOf (Mem.load t.banks (elemAt x m c) 4)
      = (resolveElem n 0 (val m c) (if acc then numberOf (Mem.load s.banks (elemAt x m c) 4) else 0)).1 % 2 ^ 32)
  ∧ (nowr = true → t.banks = s.banks)
  ∧ (∀ a, (∀ m c, m < h.m → c < h.n → a < elemAt x m c ∨ elemAt x m c + 4 ≤ a) →
      Mem.read t.banks a = Mem.read s.banks a)

end Sys2Proof.Claim

section
open Sys2Proof Sys2Proof.Machine Sys2Proof.Claim

/-! ### The matrix node (R234 to R247, R283) -/

/-- R235, R236, R238: a matrix command goes to the ports of its sector's node with its completion target, its operand's
address and layout word or its register values; its firing waits for the acceptance. -/
def Obligations.MatrixCommandsAreSent : Prop :=
  ∀ (s : State),
    (∀ (w : Wave) (d a b : Rg) (off : W32) (mm1 km1 nm1 : BitVec 7) (acc q sc byp nowr : Bool) tg,
      Starts s w → Targets s d tg → OperandOk s a b off w →
      (∃ t, exec (.mxLds d a b km1 nm1 sc off w) s = .next t
        ∧ NodeSentW s t (.mxLds d a b km1 nm1 sc off w) (operandAt s a off w) (s.readG b) tg w)
      ∧ (∃ t, exec (.mxMul d a b mm1 km1 nm1 acc q sc off w) s = .next t
        ∧ NodeSentW s t (.mxMul d a b mm1 km1 nm1 acc q sc off w) (operandAt s a off w) (s.readG b) tg w)
      ∧ ∃ t, exec (.mxDrain d a b mm1 nm1 acc q byp nowr off w) s = .next t
        ∧ NodeSentW s t (.mxDrain d a b mm1 nm1 acc q byp nowr off w) (operandAt s a off w) (s.readG b) tg w)
    ∧ (∀ (w : Wave) (d a b : Rg) (mm1 km1 nm1 : BitVec 7) (acc q out bsat : Bool) (aty bty rg : BitVec 4) (rnm1 : BitVec 8)
        (seed : W32) (mode : BitVec 3) tg, Starts s w → Targets s d tg →
      (∃ t, exec (.mxMulb d mm1 km1 nm1 acc q w) s = .next t ∧ NodeSentW s t (.mxMulb d mm1 km1 nm1 acc q w) 0 0 tg w)
      ∧ (∃ t, exec (.mxScl d a b w) s = .next t ∧ NodeSentW s t (.mxScl d a b w) (s.readG a) (s.readG b) tg w)
      ∧ (∃ t, exec (.mxCfg d aty bty out bsat rg rnm1 w) s = .next t
        ∧ NodeSentW s t (.mxCfg d aty bty out bsat rg rnm1 w) 0 0 tg w)
      ∧ ∃ t, exec (.nzCfg d seed mode w) s = .next t ∧ NodeSentW s t (.nzCfg d seed mode w) 0 0 tg w)
    ∧ (s.Runs → ∀ (d : Rg) (q c : Bool),
      (∃ t, exec .mxSwap s = .next t ∧ NodeSent s t .mxSwap 0 0 none)
      ∧ (∃ t, exec (.mxClr q) s = .next t ∧ NodeSent s t (.mxClr q) 0 0 none)
      ∧ (∃ t, exec (.mxStat d q c) s = .next t ∧ NodeSent s t (.mxStat d q c) 0 0 none)
      ∧ ∃ t, exec (.mxStatClr d q c) s = .next t ∧ NodeSent s t (.mxStatClr d q c) 0 0 none)
    ∧ (∀ (w : Wave) (d a b : Rg) (off : W32) (km1 nm1 : BitVec 7) (sc : Bool), Starts s w →
      (∀ tg, Targets s d tg → 2 ^ 32 ≤ (s.readG b).toNat →
        ∃ t, exec (.mxLds d a b km1 nm1 sc off w) s = .next t ∧ t.live = false)
      ∧ (d ≠ 0 → 2 ^ 20 ≤ (s.readG d).toNat →
        ∃ t, exec (.mxLds d a b km1 nm1 sc off w) s = .next t ∧ t.live = false))

/-- R235 to R238, R243: a node whose queue has room takes the earliest token from its ports, and its instruction is then
complete, except `mx.stat`, which waits on for its value. The first operand error of a token is raised in its firing. -/
def Obligations.NodesAcceptTokensInOrder : Prop :=
  ∀ (s : State) (k : Nat) (x : MxToken) (l r : List MxToken),
    (s.node k).ports = l ++ x :: r → (s.node k).queue.length < 8 → (s.node k).took ≠ s.clock + 1 →
    (∀ y ∈ l, x.sent < y.sent ∨ (x.sent = y.sent ∧ x.iss.cell < y.iss.cell)) →
    (∀ y ∈ r, x.sent < y.sent ∨ (x.sent = y.sent ∧ x.iss.cell ≤ y.iss.cell)) →
    let other := (s.node k).crg ≠ 0 && (s.region x.iss.net (s.node k).crg).2.any fun m => decide (m < k)
    ∃ t, exec (.mxTokenAccept k) s = .next t
      ∧ (t.node k).ports = l ++ r ∧ (t.node k).took = s.clock + 1
      ∧ (tokenHit x (s.node k).caty (s.node k).cbty other = none → CfgLegal s k x →
          (∃ rg num, (t.node k).queue = (s.node k).queue ++ [{ x with rg := rg, num := num }])
          ∧ (t.node k).acc0 = (s.node k).acc0 ∧ (t.node k).acc1 = (s.node k).acc1
          ∧ (t.node k).active = (s.node k).active ∧ (t.node k).shadow = (s.node k).shadow
          ∧ t.banks = s.banks ∧ t.mem = s.mem ∧ t.flights = s.flights ∧ t.dies = s.dies
          ∧ (∀ n, mxWords x.instr = some n → Awaits s x →
              (t.focus x.iss.cell x.iss.fid).me.woff = (s.focus x.iss.cell x.iss.fid).me.woff + n
              ∧ (t.focus x.iss.cell x.iss.fid).me.wait = none)
          ∧ (mxWords x.instr = none → t.cells = s.cells))
      ∧ (∀ h, tokenHit x (s.node k).caty (s.node k).cbty other = some h → (t.node k).queue = (s.node k).queue
          ∧ (Awaits s x → (t.focus x.iss.cell x.iss.fid).live = false))
      ∧ (tokenHit x (s.node k).caty (s.node k).cbty other = none → ¬ CfgLegal s k x →
          (t.node k).queue = (s.node k).queue ∧ (t.node k).caty = (s.node k).caty ∧ (t.node k).cbty = (s.node k).cbty)

/-- R235, R237, R239, R240, R242, R244 to R247: what a token does that stands at the head of the queue, or behind running tokens
each of which it may overlap (R235). A load fills the shadow plane from its
rows; a swap exchanges the planes; a clear empties an accumulator; `mx.scl` sets T to the product, `mx.cfg` installs its
configuration with empty planes and T 1.0, `nz.cfg` sets MODE and the generator; `mx.stat` returns the NaN and overflow
counts; a drain outside a region leaves its results. The token leaves the queue, and its target is told. A setting of scale or
normaliser behind a drain tells its target at once and acts in its turn. -/
def Obligations.NodesPerformTokens : Prop :=
  ∀ (s : State) (k j : Nat) (x : MxToken), (s.node k).queue[j]? = some x → s.mayComplete k j x = true → x.rg = 0 → x.lost = none →
    x.pre = none →
    let n := s.node k
    let rest := n.queue.eraseIdx j
    (∀ d a b km1 nm1 sc off w, x.instr = .mxLds d a b km1 nm1 sc off w →
      (sc = true → (km1.toNat + 1) % 32 = 0 ∧ n.out = false) → (sc = false → n.bty ≠ 13) →
      ∃ t p, exec (.mxTokenComplete ⟨k, j⟩) s = .next t ∧ OnlyNode s t k ∧ t.banks = s.banks ∧ Told s t k x
        ∧ t.node k = { n with queue := rest, shadow := some p }
        ∧ p.k = km1.toNat + 1 ∧ p.n = nm1.toNat + 1 ∧ p.sc = sc
        ∧ (∀ r, r < km1.toNat + 1 → p.codes.getD r []
            = rowCodes n.bty (nm1.toNat + 1) (Mem.load s.banks (x.a.toNat + r * (x.b.toNat % 2 ^ 16))
                (packedBytes n.bty (nm1.toNat + 1))))
        ∧ (sc = true → ∀ j c, j < (km1.toNat + 1) / 32 → c < nm1.toNat + 1 → p.scales.getD (j * (nm1.toNat + 1) + c) 0
            = Mem.read s.banks (x.a.toNat / 2 ^ 16 * 2 ^ 16 + x.b.toNat / 2 ^ 16 % 2 ^ 16 + 128 * j + c)))
    ∧ (x.instr = .mxSwap →
      ∃ t, exec (.mxTokenComplete ⟨k, j⟩) s = .next t ∧ OnlyNode s t k ∧ t.banks = s.banks ∧ t.flights = s.flights
        ∧ t.node k = { n with queue := rest, active := n.shadow, shadow := n.active })
    ∧ (∀ q, x.instr = .mxClr q →
      ∃ t, exec (.mxTokenComplete ⟨k, j⟩) s = .next t ∧ OnlyNode s t k ∧ t.banks = s.banks ∧ t.flights = s.flights
        ∧ t.node k = (if q then { n with queue := rest, acc1 := [] } else { n with queue := rest, acc0 := [] }))
    ∧ (isSetting x.instr = true → (∃ y ∈ n.queue.take j, (drainOf y.instr).isSome = true) →
      ∃ t, exec (.mxTokenComplete ⟨k, j⟩) s = .next t ∧ OnlyNode s t k ∧ t.banks = s.banks ∧ Told s t k x
        ∧ t.node k = { n with queue := n.queue.set j { x with told := true } })
    ∧ (∀ d a b w, (∀ y ∈ n.queue.take j, drainOf y.instr = none) → x.instr = .mxScl d a b w →
      ∃ t, exec (.mxTokenComplete ⟨k, j⟩) s = .next t ∧ OnlyNode s t k ∧ t.banks = s.banks ∧ Told s t k x
        ∧ t.node k = { n with
            queue := rest
            t := BitVec.ofNat 32
              (f32.round 0 false 0 (numMul (f32.value (x.a.toNat % 2 ^ 32)) (f32.value (x.b.toNat % 2 ^ 32))).1).1 })
    ∧ (∀ d aty bty out bsat rg rnm1 w, x.instr = .mxCfg d aty bty out bsat rg rnm1 w →
      ∃ t, exec (.mxTokenComplete ⟨k, j⟩) s = .next t ∧ t.banks = s.banks ∧ Told s t k x
        ∧ t.node k = { n with
            queue := rest, aty := aty.toNat, bty := bty.toNat, out := out, bsat := bsat, rg := rg.toNat
            rn := rnm1.toNat + 1, active := none, shadow := none, byp := none, t := 0x3F800000 }
        ∧ (n.rg = 0 ∨ n.rg = rg.toNat ∨ (rest.any fun y => State.cfgRegion y.instr == some n.rg) = true →
            rg = 0 ∨ (s.region x.iss.net rg.toNat).2 ≠ [k] → OnlyNode s t k)
        ∧ (rg ≠ 0 → (s.region x.iss.net rg.toNat).2 = [k] → t.region x.iss.net rg.toNat = (rnm1.toNat + 1, [k]))
        ∧ (n.rg ≠ 0 → n.rg ≠ rg.toNat → (rest.any fun y => State.cfgRegion y.instr == some n.rg) = false →
            (t.region x.iss.net n.rg).2 = (s.region x.iss.net n.rg).2.erase k ∧ t.cells = s.cells ∧ t.mem = s.mem))
    ∧ (∀ d seed mode w, (∀ y ∈ n.queue.take j, drainOf y.instr = none) → x.instr = .nzCfg d seed mode w →
      ∃ t, exec (.mxTokenComplete ⟨k, j⟩) s = .next t ∧ OnlyNode s t k ∧ t.banks = s.banks ∧ Told s t k x
        ∧ t.node k = { n with queue := rest, mode := mode.toNat, gen := if seed = 0 then n.gen else seed })
    ∧ (∀ (d : Rg) (q c : Bool), x.instr = .mxStat d q c ∨ x.instr = .mxStatClr d q c → Awaits s x → d ≠ 0 →
      ∃ t, exec (.mxTokenComplete ⟨k, j⟩) s = .next t
        ∧ (t.focus x.iss.cell x.iss.fid).readG d = BitVec.ofNat 64 (if q then n.nan1 % 2 ^ 16 * 2 ^ 16 + n.ovf1 % 2 ^ 16
            else n.nan0 % 2 ^ 16 * 2 ^ 16 + n.ovf0 % 2 ^ 16)
        ∧ (t.focus x.iss.cell x.iss.fid).me.woff = (s.focus x.iss.cell x.iss.fid).me.woff + 1
        ∧ (t.focus x.iss.cell x.iss.fid).me.wait = none
        ∧ t.node k = (if x.instr = .mxStat d q c then { n with queue := rest }
            else if q then { n with queue := rest, ovf1 := 0, nan1 := 0 } else { n with queue := rest, ovf0 := 0, nan0 := 0 })
        ∧ t.banks = s.banks ∧ t.flights = s.flights)
    ∧ (∀ d a b mm1 nm1 acc q byp nowr off w, x.instr = .mxDrain d a b mm1 nm1 acc q byp nowr off w →
      (nowr = true → byp = true) → (byp = true → nm1.toNat + 1 ≤ 96 ∧ n.aty ≠ 13) →
      ∃ t, exec (.mxTokenComplete ⟨k, j⟩) s = .next t ∧ OnlyNode s t k ∧ Told s t k x
        ∧ (t.node k).queue = rest ∧ (t.node k).acc0 = n.acc0 ∧ (t.node k).acc1 = n.acc1
        ∧ (t.node k).active = n.active ∧ (t.node k).shadow = n.shadow ∧ (byp = false → (t.node k).byp = n.byp)
        ∧ Drained s t n x ⟨mm1.toNat + 1, 0, nm1.toNat + 1, q, false⟩ acc nowr (accAt n q))

/-- R235, R241, R283: a product at the head of the queue, or behind running tokens each of which it may overlap, starts when it is
lawful and the allocation of its region has room for one more heavy node, and is discarded with class 0x09 where it has none; a
started product merges, for each element, its K-blocks into the accumulator's value or into zero, and leaves the queue; a swap right
behind it has then been performed (R240), and its node stays heavy where a product right behind it has started. -/
def Sys2Proof.Claim.ProductsStartAndMerge : Prop :=
  ∀ (s : State) (k j : Nat) (x : MxToken) (h : MxShape) (acc byp : Bool),
    (s.node k).queue[j]? = some x → s.mayComplete k j x = true → x.rg = 0 → x.lost = none → productOf x.instr = some (h, acc, byp) →
    let n := s.node k
    let rest := n.queue.eraseIdx j
    (n.heavy = false → State.productHit n h byp = none →
      (∀ r, Tbl.find s.nets x.iss.net = some r → s.heavyNodes x.iss.net + 1 ≤ r.quanta) →
      ∃ t, exec (.mxTokenComplete ⟨k, j⟩) s = .next t ∧ t = s.modNode k fun n => { n with heavy := true })
    ∧ (n.heavy = false → State.productHit n h byp = none →
      (∃ r, Tbl.find s.nets x.iss.net = some r ∧ r.quanta < s.heavyNodes x.iss.net + 1) →
      ∃ t, exec (.mxTokenComplete ⟨k, j⟩) s = .next t ∧ t.node k = { n with queue := rest }
        ∧ ∃ f, t.due = s.due ++ [f] ∧ f.hit.cls = 9 ∧ f.src = 1 ∧ f.iss = x.iss)
    ∧ (∀ p, n.heavy = true → n.active = some p →
      ∃ t, exec (.mxTokenComplete ⟨k, j⟩) s = .next t ∧ t.banks = s.banks ∧ t.mem = s.mem ∧ Told s t k x
        ∧ (∀ m c, m < h.m → c < h.n → h.n ≤ 128 → accAt (t.node k) h.q m c
            = dotBlocks (if acc then accAt n h.q m c else {}) (s.actBlocks x n h byp m) (columnBlocks p n.bty c))
        ∧ (∀ m c, c < 128 → h.m ≤ m ∨ h.n ≤ c → h.n ≤ 128 → accAt (t.node k) h.q m c = accAt n h.q m c)
        ∧ (∀ m c, accAt (t.node k) (!h.q) m c = accAt n (!h.q) m c)
        ∧ (rest[j]? = none → OnlyNode s t k ∧ (t.node k).queue = rest ∧ (t.node k).heavy = false
            ∧ (t.node k).active = n.active ∧ (t.node k).shadow = n.shadow)
        ∧ (∀ y, j = 0 → rest = [y] → y.instr = .mxSwap → OnlyNode s t k ∧ (t.node k).queue = [] ∧ (t.node k).heavy = false
            ∧ (t.node k).active = n.shadow ∧ (t.node k).shadow = n.active)
        ∧ (∀ y h2 acc2 byp2, j = 0 → rest.head? = some y → productOf y.instr = some (h2, acc2, byp2) →
            State.productHit n h2 byp2 = none → OnlyNode s t k ∧ (t.node k).queue = rest ∧ (t.node k).heavy = true))

/-- R81, R242, R243: once every member of a region has a drain of one number that may start, at the head of its queue or behind
tokens that run and let it, the drain starts: each member's token leaves its queue, and the root of the tree over the members'
elements resolves at member 0, which writes the result. -/
def Sys2Proof.Claim.RegionDrainsStartTogether : Prop :=
  ∀ (s : State) (net rg num : Nat) (l : List (Nat × Nat × MxToken)) (k0 j0 : Nat) (x0 : MxToken) (m n : Nat) (acc byp nowr : Bool),
    s.region net rg = (l.length, l.map (·.1)) → l.head? = some (k0, j0, x0) → (l.map (·.1)).Nodup → rg ≠ 0 →
    (∀ e ∈ l, nextDrain (s.node e.1) net rg = some e.2 ∧ e.2.2.num = num
      ∧ ∃ q, (∃ a b c, drainOf e.2.2.instr = some (⟨m, 0, n, q, false⟩, a, b, c))
        ∧ (e.1 = k0 → drainOf e.2.2.instr = some (⟨m, 0, n, q, false⟩, acc, byp, nowr))) →
    drainBad (s.node k0) ⟨m, 0, n, false, false⟩ byp nowr = false →
    ∃ t, exec (.regionDrainStart net rg) s = .next t
      ∧ (∀ e ∈ l, (t.node e.1).queue = (s.node e.1).queue.eraseIdx e.2.1 ∧ (t.node e.1).acc0 = (s.node e.1).acc0
          ∧ (t.node e.1).acc1 = (s.node e.1).acc1)
      ∧ (∀ k, k ∉ l.map (·.1) → t.sectorAt k = s.sectorAt k)
      ∧ Drained s t (s.node k0) x0 ⟨m, 0, n, false, false⟩ acc nowr (fun i c =>
          treeRoot (l.map fun e => accAt (s.node e.1)
            (match drainOf e.2.2.instr with
              | some (h, _, _, _) => h.q
              | none => false) i c) l.length)
      ∧ t.cells = s.cells ∧ t.mem = s.mem ∧ t.nets = s.nets

/-- R235, R241, R283: a product at the head of the queue, or behind running tokens each of which it may overlap, starts when it is
lawful and the allocation of its region has room for one more heavy node, and is discarded with class 0x09 where it has none; a
started product merges, for each element, its K-blocks into the accumulator's value or into zero, and leaves the queue; a swap right
behind it has then been performed (R240), and its node stays heavy where a product right behind it has started.

R81, R242, R243: once every member of a region has a drain of one number that may start, at the head of its queue or behind
tokens that run and let it, the drain starts: each member's token leaves its queue, and the root of the tree over the members'
elements resolves at member 0, which writes the result. -/
def Obligations.NodesStartProductsAndRegionDrains : Prop := Sys2Proof.Claim.ProductsStartAndMerge ∧ Sys2Proof.Claim.RegionDrainsStartTogether

end

namespace Sys2Proof.Claim
open Sys2Proof.Machine

/-! ### Words for lanes, handles and ladders -/

/-- A job descriptor in the issuing bank (R249): aligned to 64, and lawful. -/
def jobImage (s : State) (a : Rg) (off : W32) : List W64 := imageWords s (at2 s a off)

/-- A descriptor that a lane accepts (R249): its fields, its query and its output fit, and either it folds no position or its
handle passes the checks of R110 in a sound frame and its entry names a pool of a base die. No stale copy of the entry stands in
the die's cache. -/
def JobLawful (s : State) (ds : List W64) : Prop :=
  jdOk ds = true ∧ winHit false false (jdQuery ds) (4 * jdDim ds) = none ∧ winHit false true (jdOut ds) (8 + 4 * jdDim ds) = none
  ∧ (jdP0 ds = jdP1 ds
    ∨ State.tenantHit s.ctx.asid (jdHandle ds) (jdP1 ds - 1) = none ∧ s.htPoison (jdHandle ds) = none
      ∧ s.handleHit (jdHandle ds) (jdP1 ds - 1) (s.htMem (hIndex (jdHandle ds))) = none
      ∧ vaHome (entPool (s.htMem (hIndex (jdHandle ds)))) ≤ 3
      ∧ ∀ e, Tbl.find (s.ownerAt (s.laneDie (jdHandle ds))).hcache (hIndex (jdHandle ds)) = some e →
          e = s.htMem (hIndex (jdHandle ds)))

/-- A lane of a base die is free. -/
def laneFree (s : State) (o n : Nat) : Prop := n < 16 ∧ Tbl.find (s.ownerAt o).lanes n = none

/-- A lane of a base die holds a job. -/
def laneHas (s : State) (o n : Nat) (j : LaneJob) : Prop := Tbl.find (s.ownerAt o).lanes n = some j

/-- Completion of a lane's job: the lane is free, the target is told, and its token links what is performed (R290). The source of the
token, 2^48 and the number of the lane's owner, is a name of the model's own (log 36). -/
def LaneEnds (s t : State) (o n : Nat) (j : LaneJob) : Prop :=
  Tbl.find (t.ownerAt o).lanes n = none
  ∧ (∀ m, m ≠ n → Tbl.find (t.ownerAt o).lanes m = Tbl.find (s.ownerAt o).lanes m)
  ∧ t.cells = s.cells
  ∧ t.flights = s.flights ++ match j.target with
    | some (c, p) => [⟨2 ^ 48 + o, c, p, .tokens 1, j.iss.net, s.clock, false, false, some (t.unitLink (ownerAgent o) 3)⟩]
    | none => []

/-- A state record with FIN applied (R250, R251). -/
def finished (fin : Bool) (x : LaneState) : List Byte := (if fin then x.finish else x).bytes

/-- The entry that a handle instruction names lies in a poisoned frame (R397). -/
def entryPoisoned (s : State) (a : Rg) : Prop :=
  (s.readG a).toNat % 2 ^ 20 < s.htLen ∧ s.poisoned (s.htAddr ((s.readG a).toNat % 2 ^ 20)) = true

/-- A handle-table entry that stands (R108). -/
def entryAt (s : State) (a : Rg) (ix : Nat) (e : BitVec 256) : Prop :=
  ix = (s.readG a).toNat % 2 ^ 20 ∧ ix < s.htLen ∧ e = s.htMem ix ∧ entV e = true

/-- A handle instruction that goes on: its destination and place, its commit point; nothing outside its firing, memory
and the cached copies of entries changes. -/
structure HandleEnds (s t : State) (d : Rg) (x : W64) : Prop where
  dest   : t.readG d = if d = 0 then 0 else x
  others : ∀ r, r ≠ d → t.readG r = s.heldG r
  place  : t.me.woff = s.me.woff + 2 ∧ t.me.wait = none ∧ t.me.commit = true ∧ t.me.choice = s.me.choice
  only   : t = { (s.modMe fun _ => t.me) with mem := t.mem, owners := t.owners }

/-- The ladder has accepted a command that waits (R263): what it carries is twice its order of arrival and one. -/
def taken (w : Waiter) : Prop := ∃ n, w.arg = some (2 * n + 1)

/-- No command of a ladder that it has not accepted, a push or free that waits or one held back, waits before the current one
(R263). -/
def NoneBefore (s : State) (l : Nat) : Prop :=
  ∀ w ∈ s.waiters (cellSector s.cell), s.isMe w = false → ladderOf w.inst = some l → taken w

/-- A ladder command arrives at a unit that takes it. -/
def LadderTakes (s : State) (w : Wave) (l : Nat) : Prop := Starts s w ∧ s.me.arg = none ∧ NoneBefore s l

/-- The other ladders and sectors stand, and nothing else changed but the firing, the banks, the flights, the count of
arrivals, and what is on record of the bytes that the cell wrote (R216, R263). -/
def LadderFrame (s t : State) (l : Nat) : Prop :=
  t = { (s.modMe fun _ => t.me).modCtx (fun c => { c with wave := t.ctx.wave, chain := t.ctx.chain, seen := t.ctx.seen,
                                                           know := t.ctx.know }) with
    sectors := t.sectors, flights := t.flights, postN := t.postN, banks := t.banks, wlog := t.wlog }
  ∧ (∀ k, k ≠ cellSector s.cell → t.sectorAt k = s.sectorAt k)
  ∧ ∀ m, m ≠ l → t.ladder (cellSector s.cell) m = s.ladder (cellSector s.cell) m

/-- Word `j` of the issuing bank at `off(gA)`. -/
def bankWord (s : State) (a : Rg) (off : W32) (j : Nat) : Nat :=
  numberOf (Mem.load s.banks (cellAddr s.cell + at2 s a off % 2 ^ 16 + 4 * j) 4)

/-- An operand of `n` bytes lies in the issuing bank (R253). -/
def bankFits (s : State) (a : Rg) (off : W32) (n : Nat) : Prop := at2 s a off % 2 ^ 16 + n ≤ 2 ^ 16

/-- Word `j` of a rung's tile. -/
def rungWord (s : State) (x : Ladder) (sector k j : Nat) : Nat := numberOf (Mem.load s.banks (x.tileAt sector k + 4 * j) 4)

/-- DONE has reached a step (R260): their difference, signed, is at least 0. -/
def reached (done n : Nat) : Prop := (done + 2 ^ 32 - n % 2 ^ 32) % 2 ^ 32 < 2 ^ 31

end Sys2Proof.Claim

section
open Sys2Proof Sys2Proof.Machine Sys2Proof.Claim

/-! ### Decode lanes and handles (R248 to R252) -/

/-- R249 to R252: `dl.post` and `dl.merge` go to a free lane, or wait for one; a job that folds no position ends with the
empty record, a job whose positions all fold ends with their state, a merge ends with the merged record, each divided
through where FIN is 1, written at its place with its lane free and its target told (the value of E is free within its
bound, log 12; the source of the completion token is a name of the model's own, log 36; of two zeros of opposite sign m keeps its
own, log 58); `kh.new` makes a handle from an entry, `kh.bound` and `kh.gen` change one field of an entry and give its old
bound and its new generation, and an entry in a poisoned frame raises class 0x08 (R397). -/
def Obligations.LanesAndHandlesComplete : Prop :=
  ∀ (s : State),
    (∀ (w : Wave) (d a b : Rg) (dm1 : BitVec 8) (fin : Bool) (off : W32) tg, Starts s w → s.me.arg = none → Targets s d tg →
      (at2 s a off % 2 ^ 16 % 64 = 0 → JobLawful s (jobImage s a off) →
        let o := s.laneDie (jdHandle (jobImage s a off))
        (∃ n, laneFree s o n) →
        ∃ n j t, laneFree s o n ∧ exec (.dlPost d a fin off w) s = .next t ∧ CmdEnds s t none w 4 ∧ laneHas t o n j
          ∧ j.desc = jobImage s a off ∧ j.fin = fin ∧ j.target = tg ∧ j.pos = jdP0 j.desc ∧ j.merge = none
          ∧ j.m = 0xFF800000 ∧ j.l = 0 ∧ j.o = List.replicate (jdDim j.desc) 0
          ∧ (∀ m, m ≠ n → Tbl.find (t.ownerAt o).lanes m = Tbl.find (s.ownerAt o).lanes m)
          ∧ t.banks = s.banks ∧ t.mem = s.mem)
      ∧ (at2 s a off % 2 ^ 16 % 64 = 0 → (∀ n, ¬ laneFree s (s.laneDie (jdHandle (jobImage s a off))) n) →
        ∃ t, exec (.dlPost d a fin off w) s = .next t ∧ CmdWaits s t (.dlPost d a fin off w)
          ∧ t.me.arg = some (carryJob (jobImage s a off) tg) ∧ OnlyMeAndWave s t)
      ∧ ((∃ n, laneFree s (cellSpan s.cell) n) →
        ∃ n j t, laneFree s (cellSpan s.cell) n ∧ exec (.dlMerge d a b dm1 fin off w) s = .next t ∧ CmdEnds s t none w 4
          ∧ laneHas t (cellSpan s.cell) n j ∧ j.fin = fin ∧ j.target = tg
          ∧ j.merge = some (BitVec.ofNat 64 (at2 s a off % 2 ^ 48), BitVec.ofNat 64 ((s.readG b).toNat % 2 ^ 48), dm1.toNat + 1)
          ∧ t.banks = s.banks ∧ t.mem = s.mem)
      ∧ ((∀ n, ¬ laneFree s (cellSpan s.cell) n) →
        ∃ t, exec (.dlMerge d a b dm1 fin off w) s = .next t ∧ CmdWaits s t (.dlMerge d a b dm1 fin off w)))
    ∧ (∀ o n j, laneHas s o n j → (s.engFault o (128 + n)).frozen = false → j.lost = none → j.merge = none →
      (jdP1 j.desc ≤ j.pos →
        ∃ t, exec (.dlJobComplete o n) s = .next t ∧ LaneEnds s t o n j
          ∧ t.banks = Mem.store s.banks (jdOut j.desc) (finished j.fin ⟨j.m, j.l, j.o⟩))
      ∧ (∀ s1 j1 q, j.q = some q → s.lanePositions j (jdP1 j.desc - j.pos) = (s1, j1, none) →
        ∃ t, exec (.dlJobComplete o n) s = .next t
          ∧ Tbl.find (t.ownerAt o).lanes n = none
          ∧ t.banks = Mem.store s1.banks (jdOut j1.desc) (finished j1.fin ⟨j1.m, j1.l, j1.o⟩)))
    ∧ (∀ o n j x y k, laneHas s o n j → (s.engFault o (128 + n)).frozen = false → j.lost = none → j.merge = some (x, y, k) →
      bankSpan x.toNat (8 + 4 * k) → bankSpan y.toNat (8 + 4 * k) → x.toNat < 2 ^ 48 → y.toNat < 2 ^ 48 →
      ∃ t, exec (.dlJobComplete o n) s = .next t ∧ LaneEnds s t o n j ∧ t.mem = s.mem
        ∧ t.banks = Mem.store s.banks x.toNat (finished j.fin
            (laneMerge s.free (LaneState.ofBytes (Mem.load s.banks x.toNat (8 + 4 * k)) k)
              (LaneState.ofBytes (Mem.load s.banks y.toNat (8 + 4 * k)) k))))
    ∧ (s.Runs → ∀ (d a : Rg) (bnd : BitVec 20) (c : Bool),
      (entryPoisoned s a → let h : Hit := { cls := 8, faddr := (s.readG a).toNat,
                                            aux := s.htAddr ((s.readG a).toNat % 2 ^ 20) / 2 ^ 16 % 2 ^ 37 }
        Traps (.khNew d a bnd c) s 0 h ∧ Traps (.khBound d a bnd) s 0 h ∧ Traps (.khGen d a) s 0 h)
      ∧ (∀ ix e, entryAt s a ix e → ¬ entryPoisoned s a →
        let v : W64 := if entBound e < bnd.toNat then 0
          else BitVec.ofNat 64 (entTenant e * 2 ^ 52 + entGen e * 2 ^ 40 + ix * 2 ^ 20 + bnd.toNat)
        (∃ t, exec (.khNew d a bnd c) s = .next t ∧ Wrote s t d v (codeIf c true v) 2)
        ∧ (∃ t, exec (.khBound d a bnd) s = .next t ∧ HandleEnds s t d (BitVec.ofNat 64 (entBound e))
          ∧ (t.htMem ix).toNat = e.toNat / 2 ^ 20 * 2 ^ 20 + bnd.toNat ∧ BytesStand s.mem t.mem (s.htAddr ix) 32)
        ∧ ∃ t, exec (.khGen d a) s = .next t ∧ HandleEnds s t d (BitVec.ofNat 64 ((entGen e + 1) % 2 ^ 12))
          ∧ (t.htMem ix).toNat
              = e.toNat / 2 ^ 240 * 2 ^ 240 + (entGen e + 1) % 2 ^ 12 * 2 ^ 228 + e.toNat % 2 ^ 228
          ∧ BytesStand s.mem t.mem (s.htAddr ix) 32)
      ∧ ((∀ ix e, ¬ entryAt s a ix e) → ¬ entryPoisoned s a →
        (∃ t, exec (.khNew d a bnd c) s = .next t ∧ Wrote s t d 0 (codeIf c true 0) 2)
        ∧ (∃ t, exec (.khBound d a bnd) s = .next t ∧ HandleEnds s t d (BitVec.allOnes 64) ∧ t.mem = s.mem)
        ∧ ∃ t, exec (.khGen d a) s = .next t ∧ HandleEnds s t d (BitVec.allOnes 64) ∧ t.mem = s.mem))

/-! ### Ladders (R253 to R263) -/

/-- R256, R257, R260 to R262: `lad.init` lays out an unused ladder, `lad.wts` sets its weights, `lad.push` takes the next
step's carry unless two pushes are pending, `lad.read` writes the weighted sum of the occupied rungs once DONE has reached
its step and no chain runs, `lad.rung` copies a rung that is not busy, `lad.step` and `lad.wait` give STEP and DONE, and
`lad.free` ends the ladder once no push is pending, and with class 0x11 the reads and waits that it had accepted. A ladder that
is not in use, a wrong step and a step above the rungs raise class 0x11 with SRC 3. -/
def Sys2Proof.Claim.LadderCommandsComplete : Prop :=
  ∀ (s : State) (w : Wave) (lad : BitVec 3) (d a b : Rg) (off : W32), LadderTakes s w lad.toNat →
    let k := cellSector s.cell
    let l := lad.toNat
    let x := s.ladder k l
    (∀ (mode : BitVec 2) (nrm1 : BitVec 5) (nem1 : BitVec 10), bankFits s a off (4 * (nrm1.toNat + 1)) →
      let locs := (List.range (nrm1.toNat + 1)).map fun j => BitVec.ofNat 32 (bankWord s a off j)
      (x.v = false → rungsOk locs ((nem1.toNat + 1 + 15) / 16) = true →
        ∃ t, exec (.ladInit lad a mode nrm1 nem1 off w) s = .next t ∧ CmdEnds s t none w 4 ∧ LadderFrame s t l
          ∧ t.banks = s.banks ∧ t.flights = s.flights
          ∧ (t.ladder k l).v = true ∧ (t.ladder k l).mode = mode.toNat ∧ (t.ladder k l).nr = nrm1.toNat + 1
          ∧ (t.ladder k l).ne = nem1.toNat + 1 ∧ (t.ladder k l).step = 0 ∧ (t.ladder k l).done = 0
          ∧ (t.ladder k l).occ = 0 ∧ (t.ladder k l).busy = 0 ∧ (t.ladder k l).pend = []
          ∧ ∀ j, j < nrm1.toNat + 1 → Tbl.get 0 (t.ladder k l).rung j = BitVec.ofNat 32 (bankWord s a off j))
      ∧ (x.v = true ∨ rungsOk locs ((nem1.toNat + 1 + 15) / 16) = false →
        Traps (.ladInit lad a mode nrm1 nem1 off w) s 3 { cls := 0x11 }))
    ∧ (x.v = false →
      Traps (.ladWts lad a off w) s 3 { cls := 0x11 } ∧ Traps (.ladRead d lad a b off w) s 3 { cls := 0x11 }
      ∧ Traps (.ladStep d lad w) s 3 { cls := 0x11 } ∧ Traps (.ladWait d lad b w) s 3 { cls := 0x11 }
      ∧ Traps (.ladFree lad w) s 3 { cls := 0x11 })
    ∧ (x.v = true →
      (bankFits s a off (4 * x.nr) →
        ∃ t, exec (.ladWts lad a off w) s = .next t ∧ CmdEnds s t none w 4 ∧ LadderFrame s t l ∧ t.banks = s.banks
          ∧ t.ladder k l = { x with wts := (t.ladder k l).wts }
          ∧ ∀ j, j < x.nr → Tbl.get 0 (t.ladder k l).wts j = BitVec.ofNat 32 (bankWord s a off j))
      ∧ (∀ tg, bankFits s a off (4 * x.ne) → Targets s d tg →
        (x.pend.length < 2 → (b = 0 ∨ (s.readG b).toNat % 2 ^ 32 = (x.step + 1) % 2 ^ 32) →
          (∃ z, z < x.nr ∧ z < 32 ∧ (x.step + 1) % 2 ^ z = 0 ∧ (x.step + 1) % 2 ^ (z + 1) ≠ 0) →
          ∃ t p, exec (.ladPush d lad a b off w) s = .next t ∧ CmdEnds s t none w 4 ∧ LadderFrame s t l ∧ t.banks = s.banks
            ∧ t.ladder k l = { x with step := (x.step + 1) % 2 ^ 32, pend := x.pend ++ [p] }
            ∧ p.step = (x.step + 1) % 2 ^ 32 ∧ p.k = 0
            ∧ p.carry = (List.range x.ne).map (fun j => BitVec.ofNat 32 (bankWord s a off j))
            ∧ t.flights = s.flights ++ match tg with
              | some (c, p) => [⟨k * 2 ^ 38 + 49 * 2 ^ 32, c, p, .tokens 1, s.ctx.net, s.clock, false, false, none⟩]
              | none => [])
        ∧ (x.pend.length < 2 → b ≠ 0 → (s.readG b).toNat % 2 ^ 32 ≠ (x.step + 1) % 2 ^ 32 →
          Traps (.ladPush d lad a b off w) s 3 { cls := 0x11 })
        ∧ (2 ≤ x.pend.length → ∃ t, exec (.ladPush d lad a b off w) s = .next t ∧ CmdWaits s t (.ladPush d lad a b off w)))
      ∧ (bankFits s a off (4 * x.ne) →
        (reached x.done (s.readG b).toNat → x.busy = 0 → (∀ p ps, x.pend = p :: ps → p.k = 0) →
          ∃ t, exec (.ladRead d lad a b off w) s = .next t ∧ CmdEnds s t (some (d, BitVec.ofNat 64 x.done)) w 4
            ∧ LadderFrame s t l ∧ t.sectors = s.sectors
            ∧ (∀ j, j < x.ne → numberOf (Mem.load t.banks (cellAddr s.cell + at2 s a off % 2 ^ 16 + 4 * j) 4) = (to32 (
                let occ := (List.range x.nr).filter fun r => x.occ.getLsbD r
                if occ = [] then .fin false 0 0
                else numSum 0 (occ.map fun r => mulNum (num32 (Tbl.get 0 x.wts r))
                  (num32 (BitVec.ofNat 32 (rungWord s x k r j)))))).toNat)
            ∧ BytesStand s.banks t.banks (cellAddr s.cell + at2 s a off % 2 ^ 16) (4 * x.ne))
        ∧ (¬ reached x.done (s.readG b).toNat →
          ∃ t, exec (.ladRead d lad a b off w) s = .next t ∧ CmdWaits s t (.ladRead d lad a b off w)))
      ∧ (∀ r : BitVec 5, r.toNat < x.nr → bankFits s a off (4 * x.ne) →
        (x.busy.getLsbD r.toNat = false →
          ∃ t, exec (.ladRung d lad r a off w) s = .next t
            ∧ CmdEnds s t (some (d, if x.occ.getLsbD r.toNat then 1 else 0)) w 4 ∧ LadderFrame s t l ∧ t.sectors = s.sectors
            ∧ Mem.load t.banks (cellAddr s.cell + at2 s a off % 2 ^ 16) (4 * x.ne)
              = (if x.occ.getLsbD r.toNat then Mem.load s.banks (x.tileAt k r.toNat) (4 * x.ne) else List.replicate (4 * x.ne) 0)
            ∧ BytesStand s.banks t.banks (cellAddr s.cell + at2 s a off % 2 ^ 16) (4 * x.ne))
        ∧ (x.busy.getLsbD r.toNat = true →
          ∃ t, exec (.ladRung d lad r a off w) s = .next t ∧ CmdWaits s t (.ladRung d lad r a off w)))
      ∧ (∀ r : BitVec 5, x.nr ≤ r.toNat → Traps (.ladRung d lad r a off w) s 3 { cls := 0x11 })
      ∧ (∃ t, exec (.ladStep d lad w) s = .next t ∧ CmdEnds s t (some (d, BitVec.ofNat 64 x.step)) w 4 ∧ LadderFrame s t l
          ∧ t.sectors = s.sectors ∧ t.banks = s.banks)
      ∧ (reached x.done (s.readG b).toNat →
        ∃ t, exec (.ladWait d lad b w) s = .next t ∧ CmdEnds s t (some (d, BitVec.ofNat 64 x.done)) w 4 ∧ LadderFrame s t l
          ∧ t.sectors = s.sectors ∧ t.banks = s.banks)
      ∧ (¬ reached x.done (s.readG b).toNat →
        ∃ t, exec (.ladWait d lad b w) s = .next t ∧ CmdWaits s t (.ladWait d lad b w))
      ∧ (x.pend = [] → s.ladWaits k l = [] →
        ∃ t, exec (.ladFree lad w) s = .next t ∧ CmdEnds s t none w 4 ∧ LadderFrame s t l ∧ t.banks = s.banks
          ∧ t.ladder k l = { x with v := false })
      ∧ (x.pend = [] → (∀ r ∈ s.ladWaits k l, s.isMe r = false) →
        ∃ t, exec (.ladFree lad w) s = .next t ∧ t.ladder k l = { x with v := false }
          ∧ t.due = s.due ++ (s.ladWaits k l).map fun r => { hit := { cls := 0x11 }, src := 3, iss := r.iss })
      ∧ (x.pend ≠ [] → ∃ t, exec (.ladFree lad w) s = .next t ∧ CmdWaits s t (.ladFree lad w)))

/-- R257 to R259: one rung step of a ladder's chain. The chain of its oldest push makes a rung busy; a busy rung that is
occupied merges its tile with the carry and passes the result on, and is empty; an empty busy rung takes the carry, and the
push is complete. -/
def Sys2Proof.Claim.LadderChainsRunRungByRung : Prop :=
  ∀ (s : State) (k l : Nat) (p : PendPush) (rest : List PendPush),
    let x := s.ladder k l
    x.pend = p :: rest → p.lost = none →
    (x.busy = 0 → (p.k ≠ 0 ∨ s.readFirst k l x = false) → p.k < x.nr → (x.nr ≠ p.k + 1 ∨ x.occ.getLsbD p.k = false) →
      ∃ t, exec (.ladderChainStep k l) s = .next t ∧ t = s.setLadder k l { x with busy := 1 <<< p.k })
    ∧ (x.busy ≠ 0 → x.occ.getLsbD p.k = true →
      ∃ t c, exec (.ladderChainStep k l) s = .next t ∧ t = s.setLadder k l (t.ladder k l)
        ∧ (t.ladder k l).busy = 0 ∧ (t.ladder k l).pend = { p with carry := c, k := p.k + 1 } :: rest
        ∧ (t.ladder k l).done = x.done
        ∧ (∀ r, r < 24 → (t.ladder k l).occ.getLsbD r = (x.occ.getLsbD r && r != p.k))
        ∧ ∀ j, j < x.ne → j < p.carry.length →
            c.getD j 0 = mergeElem x.mode (BitVec.ofNat 32 (rungWord s x k p.k j)) (p.carry.getD j 0))
    ∧ (x.busy ≠ 0 → x.occ.getLsbD p.k = false → p.k < 24 →
      ∃ t, exec (.ladderChainStep k l) s = .next t
        ∧ (t.ladder k l).busy = 0 ∧ (t.ladder k l).pend = rest ∧ (t.ladder k l).done = p.step
        ∧ (∀ r, r < 24 → (t.ladder k l).occ.getLsbD r = (x.occ.getLsbD r || r == p.k))
        ∧ (∀ j, j < p.carry.length → rungWord t x k p.k j = (p.carry.getD j 0).toNat)
        ∧ BytesStand s.banks t.banks (x.tileAt k p.k) (4 * p.carry.length)
        ∧ (∀ m, m ≠ l → t.ladder k m = s.ladder k m) ∧ t.mem = s.mem ∧ t.cells = s.cells)

/-- R256, R257, R260 to R262: `lad.init` lays out an unused ladder, `lad.wts` sets its weights, `lad.push` takes the next
step's carry unless two pushes are pending, `lad.read` writes the weighted sum of the occupied rungs once DONE has reached
its step and no chain runs, `lad.rung` copies a rung that is not busy, `lad.step` and `lad.wait` give STEP and DONE, and
`lad.free` ends the ladder once no push is pending, and with class 0x11 the reads and waits that it had accepted. A ladder that
is not in use, a wrong step and a step above the rungs raise class 0x11 with SRC 3.

R257 to R259: one rung step of a ladder's chain. The chain of its oldest push makes a rung busy; a busy rung that is
occupied merges its tile with the carry and passes the result on, and is empty; an empty busy rung takes the carry, and the
push is complete. -/
def Obligations.LaddersComplete : Prop := Sys2Proof.Claim.LadderCommandsComplete ∧ Sys2Proof.Claim.LadderChainsRunRungByRung

end

namespace Sys2Proof.Claim
open Sys2Proof.Machine

/-! ### Words for futures, tasks and queues -/

/-- An instruction without a wave word completes: its destination alone is written, the body goes on `n` words further, the
commit point is passed. -/
structure PlainEnds (s t : State) (d : Option (Rg × W64)) (n : Nat) : Prop where
  dest   : ∀ r x, d = some (r, x) → t.readG r = if r = 0 then 0 else x
  others : ∀ r, (∀ x, d ≠ some (r, x)) → t.readG r = s.heldG r
  lanes  : (∀ k, t.readV k = s.heldV k) ∧ ∀ k, t.readSh k = s.heldSh k
  place  : t.me.woff = s.me.woff + n ∧ t.me.wait = none ∧ t.me.commit = true
  held   : t.me.held = s.me.held ∧ t.me.inbuf = s.me.inbuf ∧ t.fstat = s.fstat

/-- No task has its conditions hold without being ready (R274). -/
def Settled (s : State) : Prop := ∀ die, s.nextReady die = none

/-- A general register names a future of the net instance (R264). -/
def Names (s : State) (a : Rg) (k f : Nat) : Prop := s.futureOf s.ctx.net (s.readG a) = some (k, f)
def NoName (s : State) (a : Rg) : Prop := s.futureOf s.ctx.net (s.readG a) = none

/-- The 24 words of a task descriptor in the issuing bank (R273). -/
def taskWords (s : State) (a : Rg) (off : W32) : List W64 :=
  wordsAt (Mem.load s.banks (cellAddr s.cell + at2 s a off % 2 ^ 16) 192) 24

/-- Where a task descriptor may stand (R273). -/
def taskFits (s : State) (a : Rg) (off : W32) : Prop := at2 s a off % 64 = 0 ∧ at2 s a off % 2 ^ 16 + 192 ≤ 2 ^ 16

/-- The task stands in the dependence table as it was submitted (R274, R310). -/
def TaskIs (t : State) (die e gen net asid : Nat) (x : Submit) : Prop :=
  let k := t.taskAt die e
  k.gen = gen ∧ k.tmpl = x.tmpl ∧ k.args = x.args ∧ k.reads = x.reads ∧ k.writes = x.writes ∧ k.asid = asid
  ∧ k.net = net ∧ k.wtiles = x.writes.length ∧ k.futw = x.futn.isSome ∧ k.qwait = x.qsect.isSome ∧ k.trel = x.time.isSome

/-- The entry that a submission took was free. -/
def EntryFree (s : State) (die e : Nat) : Prop := e < 4096 ∧ (s.taskAt die e).v = false

/-- A queue that PATH and g[B] name (R278). -/
def QueueIs (s : State) (b : Rg) (w : Wave) (k : Nat) : Prop :=
  (w.path = 1 ∧ k = cellSector s.cell)
  ∨ (w.path ≠ 1 ∧ k = (s.readG b).toNat / 2 ^ 38 % 2 ^ 10 ∧ sectorOk k = true
      ∧ ∃ n, Tbl.find s.nets s.ctx.net = some n ∧ k ∈ n.sectors)

/-- No earlier push, or pop, waits at a queue (R278): the words of the waiting instructions name their queue. -/
def NonePushes (s : State) (k : Nat) : Prop :=
  ∀ w ∈ s.allWaiters, w.addr = k → (∀ a b v, w.inst ≠ .qPushReg a b v) ∧ ∀ a b off v, w.inst ≠ .qPushBank a b off v
def NonePops (s : State) (k : Nat) : Prop :=
  (∀ w ∈ s.allWaiters, w.addr = k → (∀ d b c v, w.inst ≠ .qPopReg d b c v) ∧ ∀ a b off v, w.inst ≠ .qPopBank a b off v)
  ∧ ∀ d ∈ s.dies, ∀ e ∈ d.2.tasks, ¬ (e.2.v = true ∧ e.2.qwait = true ∧ e.2.record = none ∧ e.2.qsect = k
      ∧ e.2.held.isSome = true)

/-- The words of an entry of a queue (R277). -/
def entryWords (q : Queue) (e : Nat) : List W64 := (List.range 8).map fun i => Tbl.get 0 q.ent (e * 8 + i)

/-- A queue took a push at its tail (R279): that entry holds the words, and QCNT and PUSHES are one more. -/
structure PushedTail (q r : Queue) (ws : List W64) : Prop where
  entry  : entryWords r ((q.head + q.qcnt) % 32) = ws
  others : ∀ e, e < 32 → e ≠ (q.head + q.qcnt) % 32 → entryWords r e = entryWords q e
  counts : r.qcnt = q.qcnt + 1 ∧ r.pushes = (q.pushes + 1) % 2 ^ 32
  rest   : { r with ent := [], qcnt := 0, pushes := 0, rels := [] } = { q with ent := [], qcnt := 0, pushes := 0, rels := [] }

/-- A pop took the head entry (R281), and with it the link of the push that filled it, where that had REL (R290). -/
def PoppedHead (q r : Queue) : Prop :=
  r = { q with head := (q.head + 1) % 32, qcnt := q.qcnt - 1, pops := (q.pops + 1) % 2 ^ 32, rels := Tbl.del q.rels q.pops }

end Sys2Proof.Claim

section
open Sys2Proof Sys2Proof.Machine Sys2Proof.Claim

/-! ### Futures and tasks (R57, R58, R264 to R276, R309) -/

/-- R264 to R270: `fut.spawn` submits its descriptor's task and gives the name of a free entry with its generation advanced;
`fut.ref` and `fut.drop` count references, and the last one frees a future whose task is done and begins the capture of one
that runs; waits give the value once the future is filled, or its task over, and wait until then; `fut.fill` fills a future
once and says whether it did; `fut.rcp` passes, or ends its firing while its task is captured; `fut.stat` gives the entry's
word 0. A stale name raises class 0x10 with SRC 3, except in `fut.fill` and `fut.stat`, where it gives 0. -/
def Sys2Proof.Claim.FuturesComplete : Prop :=
  ∀ (s : State) (d a b : Rg) (off : W32) (c : Bool), s.Runs → noTask s → s.me.arg = none →
    (∀ s1, taskFits s a off →
      let x := dcSubmit (taskWords s a off)
      let die := cellDie s.cell
      let k := cellSector s.cell
      s.commit.submitHit s.ctx.net s.ctx.asid die s.templs (some (taskWords s a off)) x (cellAddr s.cell + at2 s a off % 2 ^ 16)
        = (s1, none) →
      s1.submitWaits die x = false → (∃ f, f < 256 ∧ (s.futureAt k f).v = false) →
      ∃ f e t, f < 256 ∧ (s.futureAt k f).v = false ∧ EntryFree s die e ∧ exec (.futSpawn d a off) s = .next t
        ∧ PlainEnds s t (some (d, BitVec.ofNat 64
            (k % 2 ^ 10 * 2 ^ 38 + ((s.futureAt k f).gen + 1) % 2 ^ 12 * 2 ^ 20 + f))) 2
        ∧ (t.futureAt k f).gen = ((s.futureAt k f).gen + 1) % 2 ^ 12 ∧ (t.futureAt k f).st = 0
        ∧ (t.futureAt k f).filled = false ∧ (t.futureAt k f).task = e
        ∧ TaskIs t die e (((s.taskAt die e).gen + 1) % 2 ^ 12) s.ctx.net s.ctx.asid x ∧ (t.taskAt die e).fut = true)
    ∧ (∀ k f, Names s a k f →
      let x := s.futureAt k f
      (x.ref < 0xFFFF → x.st ≠ 3 →
        ∃ t, exec (.futRef d a) s = .next t ∧ PlainEnds s t (some (d, BitVec.ofNat 64 (x.ref + 1))) 2
          ∧ t.futureAt k f = { x with ref := x.ref + 1 } ∧ t.mem = s.mem ∧ t.banks = s.banks)
      ∧ (x.ref = 0xFFFF ∨ x.st = 3 → Traps (.futRef d a) s 3 { cls := 0x10 })
      ∧ (1 ≤ x.ref →
        ∃ t, exec (.futDrop d a) s = .next t ∧ PlainEnds s t (some (d, BitVec.ofNat 64 (x.ref - 1))) 2
          ∧ (Settled s → 2 ≤ x.ref → t.futureAt k f = { x with ref := x.ref - 1 })
          ∧ (Settled s → x.ref = 1 → x.st = 2 → (t.futureAt k f).v = false ∧ t.mem = s.mem)
          ∧ (Settled s → x.ref = 1 → x.st = 1 → (t.futureAt k f).st = 3 ∧ (t.futureAt k f).v = true
              ∧ (t.taskAt (sectorDie k) x.task).capt = some 0))
      ∧ (x.ref = 0 → Traps (.futDrop d a) s 3 { cls := 0x10 })
      ∧ (x.filled = true ∨ x.nofill = true →
        ∃ t, exec (.futWaitReg d a c) s = .next t ∧ PlainEnds s t (some (d, x.value)) 2
          ∧ t.me.choice = (codeIf c false x.value).getD s.me.choice ∧ OnlyMeWaveAndLearnt s t)
      ∧ (x.filled = false → x.nofill = false → x.st ≠ 3 →
        ∃ t, exec (.futWaitReg d a c) s = .next t ∧ CmdWaits s t (.futWaitReg d a c))
      ∧ (x.filled = false → x.nofill = false → x.st = 3 → Traps (.futWaitReg d a c) s 3 { cls := 0x10 })
      ∧ (x.filled = false → x.st ≠ 3 →
        ∃ t, exec (.futFill d a b) s = .next t ∧ PlainEnds s t (some (d, 1)) 2
          ∧ (t.futureAt k f).filled = true ∧ (t.futureAt k f).value = s.readG b ∧ (t.futureAt k f).gen = x.gen)
      ∧ (x.filled = true ∨ x.st = 3 →
        ∃ t, exec (.futFill d a b) s = .next t ∧ PlainEnds s t (some (d, 0)) 2 ∧ t = s.modMe fun _ => t.me)
      ∧ (∃ t, exec (.futStat d a c) s = .next t ∧ PlainEnds s t (some (d, x.word0)) 2
          ∧ t.me.choice = (codeIf c false x.word0).getD s.me.choice ∧ t = s.modMe fun _ => t.me))
    ∧ (∀ k f, Names s b k f → bankFits s a off 8 →
      let x := s.futureAt k f
      let p := cellAddr s.cell + at2 s a off % 2 ^ 16
      (x.st = 2 →
        ∃ t, exec (.futWaitBank a b off) s = .next t ∧ PlainEnds s t none 2 ∧ numberOf (Mem.load t.banks p 8) = x.value.toNat
          ∧ BytesStand s.banks t.banks p 8
          ∧ t = { (s.modMe fun _ => t.me).modCtx (fun c => { c with know := t.ctx.know, floor := t.ctx.floor, seen := t.ctx.seen })
                  with banks := t.banks, wlog := t.wlog })
      ∧ (x.st ≠ 2 → x.st ≠ 3 → ∃ t, exec (.futWaitBank a b off) s = .next t ∧ CmdWaits s t (.futWaitBank a b off)))
    ∧ (NoName s a →
      Traps (.futRef d a) s 3 { cls := 0x10 } ∧ Traps (.futDrop d a) s 3 { cls := 0x10 }
      ∧ Traps (.futWaitReg d a c) s 3 { cls := 0x10 }
      ∧ (∃ t, exec (.futFill d a b) s = .next t ∧ PlainEnds s t (some (d, 0)) 2 ∧ t = s.modMe fun _ => t.me)
      ∧ ∃ t, exec (.futStat d a c) s = .next t ∧ PlainEnds s t (some (d, 0)) 2 ∧ t = s.modMe fun _ => t.me)
    ∧ (∃ t, exec .futRcp s = .next t ∧ PlainEnds s t none 2 ∧ t = s.modMe fun _ => t.me)

/-- R58, R269: in a task that is being captured `fut.rcp` ends its firing: no record is written and no token comes. -/
def Sys2Proof.Claim.ReclamationPointsEndCapturedFirings : Prop :=
  ∀ (s : State) (k : Nat), s.Runs → s.taskOf s.cell s.ctx.net = some k → (s.taskAt (cellDie s.cell) k).v = true →
    ((s.taskAt (cellDie s.cell) k).capt ≠ none →
      ∃ t, exec .futRcp s = .next t ∧ t.live = false ∧ t.mem = s.mem ∧ t.banks = s.banks ∧ t.fidx = s.fidx
        ∧ t.flights = s.flights ∧ t.sectors = s.sectors ∧ t.nets = s.nets)
    ∧ ((s.taskAt (cellDie s.cell) k).capt = none →
      ∃ t, exec .futRcp s = .next t ∧ PlainEnds s t none 2 ∧ t = s.modMe fun _ => t.me)

/-- R264 to R270: `fut.spawn` submits its descriptor's task and gives the name of a free entry with its generation advanced;
`fut.ref` and `fut.drop` count references, and the last one frees a future whose task is done and begins the capture of one
that runs; waits give the value once the future is filled, or its task over, and wait until then; `fut.fill` fills a future
once and says whether it did; `fut.rcp` passes, or ends its firing while its task is captured; `fut.stat` gives the entry's
word 0. A stale name raises class 0x10 with SRC 3, except in `fut.fill` and `fut.stat`, where it gives 0.

R58, R269: in a task that is being captured `fut.rcp` ends its firing: no record is written and no token comes. -/
def Obligations.FuturesComplete : Prop := Sys2Proof.Claim.FuturesComplete ∧ Sys2Proof.Claim.ReclamationPointsEndCapturedFirings

/-- R57, R272 to R276, R309: the `tsk.sub` forms submit a task and give its ID; `tsk.done` completes its task: the
entry is left, its future is done with the value that filled it or 0, its instance is idle; later ones pass; outside a task it
raises class 0x12. A task takes its record from its queue; the ready task goes to an idle instance with its arguments, name,
ID and record in g1 and on; a capture whose work has ended frees the entry, the future and the instance. -/
def Obligations.TasksComplete : Prop :=
  ∀ (s : State),
    (∀ (w : Wave) (d a b : Rg) (imm : W32) (tmpl : BitVec 16), Starts s w → noTask s →
      let die := cellDie s.cell
      let x : Submit := { tmpl := tmpl.toNat, args := [s.readG a, s.readG b, imm.signExtend 64] }
      (tmpl.toNat < s.templs → (∃ e, e ∈ (chained s w).commit.freeEntries die) →
        ∃ e t, EntryFree s die e ∧ exec (.tskSubInline d a b imm tmpl w) s = .next t
          ∧ CmdEnds s t (some (d, BitVec.ofNat 64 (((s.taskAt die e).gen + 1) % 2 ^ 12 * 2 ^ 12 + e))) w 4
          ∧ TaskIs t die e (((s.taskAt die e).gen + 1) % 2 ^ 12) s.ctx.net s.ctx.asid x ∧ (t.taskAt die e).fut = false)
      ∧ (tmpl.toNat < s.templs → (chained s w).commit.freeEntries die = [] →
        ∃ t, exec (.tskSubInline d a b imm tmpl w) s = .next t ∧ CmdWaits s t (.tskSubInline d a b imm tmpl w))
      ∧ (s.templs ≤ tmpl.toNat → Traps (.tskSubInline d a b imm tmpl w) s 3 { cls := 0x0E }))
    ∧ (∀ (w : Wave) (d a : Rg) (off : W32) s1, Starts s w → noTask s → s.me.arg = none → taskFits s a off →
      let die := cellDie s.cell
      let x := dcSubmit (taskWords s a off)
      (chained s w).commit.submitHit s.ctx.net s.ctx.asid die s.templs (some (taskWords s a off)) x
        (cellAddr s.cell + at2 s a off % 2 ^ 16) = (s1, none) →
      s1.submitWaits die x = false →
      ∃ e t, EntryFree s die e ∧ exec (.tskSubDesc d a off w) s = .next t
        ∧ CmdEnds s t (some (d, BitVec.ofNat 64 (((s.taskAt die e).gen + 1) % 2 ^ 12 * 2 ^ 12 + e))) w 4
        ∧ TaskIs t die e (((s.taskAt die e).gen + 1) % 2 ^ 12) s.ctx.net s.ctx.asid x ∧ (t.taskAt die e).fut = false)
    ∧ (∀ (w : Wave), Starts s w → noTask s → Traps (.tskDone w) s 3 { cls := 0x12 })
    ∧ (∀ (w : Wave) k, Starts s w → s.taskOf s.cell s.ctx.net = some k → s.me.arg = none →
      let die := cellDie s.cell
      let x := s.taskAt die k
      (x.v = true → x.capt = none → x.doneRq = false →
        (∀ i, s.taskInst s.ctx.net k = some i → s.instCommands s.ctx.net i = false
          ∧ s.anyFiring s.ctx.net (fun c => i.cells.contains c) (fun f => match f.wait with
            | some j => j.accesses
            | none => false) = false) →
        ∃ t, exec (.tskDone w) s = .next t ∧ CmdEnds s t none w 4 ∧ (t.taskAt die k).v = false
          ∧ (∀ kk f, State.taskFuture x = some (kk, f) → (t.futureAt kk f).st = 2
              ∧ (t.futureAt kk f).value = (if (s.futureAt kk f).filled then (s.futureAt kk f).value else 0))
          ∧ ∀ n, Tbl.find s.nets x.net = some n → ∃ n', Tbl.find t.nets x.net = some n'
              ∧ ∀ i ∈ n'.insts, i.task = some k → i.idle = true)
      ∧ (x.v = false ∨ x.doneRq = true →
        ∃ t, exec (.tskDone w) s = .next t ∧ CmdEnds s t none w 4 ∧ OnlyMeAndWave s t))
    ∧ (∀ die k x n, s.taskAt die k = x → x.held = some n → x.v = true → x.st = 0 → x.qwait = true → x.record = none →
      (∀ e ∈ (s.dieAt die).tasks, e = (k, x) ∨ ¬ (e.2.v = true ∧ e.2.st = 0 ∧ e.2.qwait = true ∧ e.2.record = none
        ∧ e.2.qsect = x.qsect ∧ e.2.held.isSome = true)) →
      (∀ w ∈ s.allWaiters, w.addr = x.qsect →
        (∀ d b c v, w.inst ≠ .qPopReg d b c v) ∧ ∀ a b off v, w.inst ≠ .qPopBank a b off v) →
      let q := s.squeue x.qsect
      q.infl < q.qcnt →
      ∃ t, exec (.taskQwaitPop die k) s = .next t ∧ (t.taskAt die k).record = some (entryWords q q.head)
        ∧ PoppedHead q (t.squeue x.qsect))
    ∧ (∀ die k x i tiles, s.taskAt die k = x → x.v = true → x.st = 1 →
      (∀ e ∈ (s.dieAt die).tasks, e.2.v = true → e.2.st = 1 → e.2.net = x.net → e.2.tmpl = x.tmpl →
        x.ready.getD 0 ≤ e.2.ready.getD 0) →
      s.idleInst x.net x.tmpl = some i → s.poolFree die x.writes.length = some tiles →
      ∃ t, exec (.taskDispatch die k) s = .next t ∧ (t.taskAt die k).st = 2 ∧ (t.taskAt die k).inst = i.inst
        ∧ (t.taskAt die k).fresh = x.fresh ++ x.writes.zip tiles
        ∧ (∀ n, Tbl.find s.nets x.net = some n → ∃ n', Tbl.find t.nets x.net = some n'
            ∧ ∀ j ∈ n'.insts, j.tmpl = i.tmpl → j.inst = i.inst → j.idle = false ∧ j.task = some k)
        ∧ (∀ kk f, State.taskFuture x = some (kk, f) → (t.futureAt kk f).st = 1)
        ∧ (∀ cell slot, i.cells.head? = some cell → (s.cellAt cell).slotFor x.net = some slot → slot ≤ 2 →
            ((s.cellAt cell).slotCtx slot).firings = [] → State.taskFuture x = none → x.args.length = 3 →
            ∀ j, j < 5 + (x.record.getD []).length → j < 13 →
              Tbl.get 0 ((t.cellAt cell).slotCtx slot).regs.g (j + 1)
                = (x.args ++ [0, BitVec.ofNat 64 (x.gen % 2 ^ 12 * 2 ^ 12 + k % 2 ^ 12)] ++ x.record.getD []).getD j 0))
    ∧ (∀ die k x kids, s.taskAt die k = x → x.v = true → x.capt ≠ none → x.kids = some kids →
      (∀ e ∈ kids, s.beingCaptured e = false) →
      ∃ t, exec (.captureComplete die k) s = .next t ∧ (t.taskAt die k).v = false
        ∧ (∀ kk f, State.taskFuture x = some (kk, f) → (t.futureAt kk f).v = false)
        ∧ ∀ n, Tbl.find s.nets x.net = some n → ∃ n', Tbl.find t.nets x.net = some n'
            ∧ ∀ i ∈ n'.insts, i.task ≠ some k)

/-! ### Sector queues and power (R277 to R282) -/

/-- R277 to R282: a push joins the tail of a queue with room and nothing spilled, from eight registers or 64 bytes of the bank; a
full queue without a spill ring raises class 0x12; a pop takes the head into eight registers or the bank, or waits; `q.cnt` counts;
a refill claims up to eight entries and lands them whole; `pwr.acq` gives all the quanta asked for or none, raises class 0x09 above
600, and `pwr.rel` gives back what the region holds at most. -/
def Obligations.QueuesAndPowerComplete : Prop :=
  ∀ (s : State) (w : Wave) (d a b : Rg) (off : W32) (c : Bool) (k : Nat), Ready s w → QueueIs s b w k →
    let q := s.squeue k
    let at' := cellAddr s.cell + at2 s a off % 2 ^ 16
    (NonePushes s k → q.swr = q.srd →
      (q.qcnt < 32 →
        (∃ t, exec (.qPushReg a b w) s = .next t ∧ CmdEnds s t none w 3 ∧ t.banks = s.banks ∧ t.mem = s.mem
          ∧ PushedTail q (t.squeue k) ((List.range 8).map fun i => s.readG (a + BitVec.ofNat 5 i)))
        ∧ (bankFits s a off 64 →
          ∃ t, exec (.qPushBank a b off w) s = .next t ∧ CmdEnds s t none w 3 ∧ t.banks = s.banks ∧ t.mem = s.mem
            ∧ PushedTail q (t.squeue k) (wordsAt (Mem.load s.banks at' 64) 8)))
      ∧ (32 ≤ q.qcnt → q.slog = 0 → Traps (.qPushReg a b w) s 3 { cls := 0x12 })
      ∧ (32 ≤ q.qcnt → q.slog ≠ 0 → (s.sectorAt k).qfault.frozen = true →
        ∃ t, exec (.qPushReg a b w) s = .next t ∧ CmdWaits s t (.qPushReg a b w)))
    ∧ (NonePops s k →
      (q.infl < q.qcnt →
        (∃ t, exec (.qPopReg d b c w) s = .next t
          ∧ (∀ i, i < 8 → t.readG (d + BitVec.ofNat 5 i)
              = if d + BitVec.ofNat 5 i = 0 then 0 else (entryWords q q.head).getD i 0)
          ∧ (∀ r, (∀ i, i < 8 → r ≠ d + BitVec.ofNat 5 i) → t.readG r = s.heldG r)
          ∧ t.me.choice = (codeIf c false ((entryWords q q.head).getD 0 0)).getD s.me.choice
          ∧ t.me.woff = s.me.woff + 3 ∧ t.me.wait = none ∧ PoppedHead q (t.squeue k) ∧ t.banks = s.banks ∧ t.mem = s.mem)
        ∧ (bankFits s a off 64 →
          ∃ t, exec (.qPopBank a b off w) s = .next t ∧ CmdEnds s t none w 3
            ∧ wordsAt (Mem.load t.banks at' 64) 8 = entryWords q q.head ∧ BytesStand s.banks t.banks at' 64
            ∧ PoppedHead q (t.squeue k) ∧ t.mem = s.mem))
      ∧ (q.qcnt = 0 →
        (∃ t, exec (.qPopReg d b c w) s = .next t ∧ CmdWaits s t (.qPopReg d b c w))
        ∧ (bankFits s a off 64 → ∃ t, exec (.qPopBank a b off w) s = .next t ∧ CmdWaits s t (.qPopBank a b off w))))
    ∧ (∃ t, exec (.qCnt d b c w) s = .next t ∧ LoadEnds s t d
        (BitVec.ofNat 64 (q.qcnt + diff32 q.swr q.srd - q.infl)) (codeIf c true
          (BitVec.ofNat 64 (q.qcnt + diff32 q.swr q.srd - q.infl))) w ∧ OnlyMeAndWave s t)
    ∧ (∀ j, let r := s.squeue j
      (r.infl = 0 → diff32 r.swr r.srd ≠ 0 → min 8 (diff32 r.swr r.srd) ≤ 32 - r.qcnt → (s.sectorAt j).qfault.frozen = false →
        ∃ t, exec (.refillBatchStart j) s = .next t ∧ t.mem = s.mem ∧ t.cells = s.cells
          ∧ t.squeue j = { r with qcnt := r.qcnt + min 8 (diff32 r.swr r.srd), infl := min 8 (diff32 r.swr r.srd) })
      ∧ (∀ s1 rs, r.infl ≠ 0 → r.infl ≤ 32 → r.spill = [] → (s.sectorAt j).qfault.frozen = false →
        s.readBatch j r (s.sectorIssuer j) r.srd r.infl = (s1, .ok rs) →
        ∃ t, exec (.refillBatchLand j) s = .next t ∧ (t.squeue j).infl = 0 ∧ (t.squeue j).qcnt = r.qcnt
          ∧ (t.squeue j).srd = (r.srd + r.infl) % 2 ^ 32
          ∧ ∀ i, i < r.infl → i < rs.length → (rs.getD i []).length = 8 →
              entryWords (t.squeue j) ((r.head + r.qcnt + 32 - r.infl + i) % 32) = rs.getD i []))
    ∧ (∀ n, Tbl.find s.nets s.ctx.net = some n →
      (∀ m, m = (s.readG a).toNat → m ≤ 600 →
        let free := s.pool - s.quantaAlloc
        (s.quantaAlloc ≤ s.pool → m ≤ free →
          ∃ t, exec (.pwrAcq d a) s = .next t ∧ PlainEnds s t (some (d, BitVec.ofNat 64 m)) 1
            ∧ Tbl.find t.nets s.ctx.net = some { n with quanta := n.quanta + m } ∧ t.mem = s.mem ∧ t.sectors = s.sectors)
        ∧ (s.pool < s.quantaAlloc ∨ free < m →
          ∃ t, exec (.pwrAcq d a) s = .next t ∧ PlainEnds s t (some (d, 0)) 1
            ∧ t = { s.modMe (fun _ => t.me) with account := s.clock + 1 }))
      ∧ (600 < (s.readG a).toNat → ∃ x, Traps (.pwrAcq d a) s 3 { cls := 9, aux := x })
      ∧ ∃ t, exec (.pwrRel d a) s = .next t
          ∧ PlainEnds s t (some (d, BitVec.ofNat 64 (min (s.readG a).toNat n.quanta))) 1
          ∧ Tbl.find t.nets s.ctx.net = some { n with quanta := n.quanta - min (s.readG a).toNat n.quanta }
          ∧ t.mem = s.mem ∧ t.sectors = s.sectors)

end

namespace Sys2Proof.Claim
open Sys2Proof.Machine

/-! ### Words for launches and castling -/

/-- A launch or firmware event that fails is reported, and nothing else changes: its record, with TV 0, is written at the end of
the clock (R373, R375, R377). -/
def Reported (s t : State) (f : Flt) : Prop := t = { s with due := s.due ++ [f] }

/-- The packet of a queue retires (R300): it is live no longer, and the front end reads the queue again. -/
def Retired (t : State) (pq idx : Nat) : Prop := idx ∉ (t.queueAt pq).live ∧ (t.queueAt pq).rung = true

/-- Every sub-launch record of a bundle keeps the table of R303. -/
def RecordsOk (rs : List (List W64)) : Prop := ∀ r ∈ rs, blOk rs r = true

/-- A bundle's net record waits for its sectors: the record is the first of its tenant on the die, and the controller picks
that tenant (R314). -/
def NextGrant (s : State) (die k rec : Nat) (l : Launch) : Prop :=
  ∃ t, s.pickTenant die = some t ∧ (s.waitingNets die).find? (fun x => x.2.2.1 == t) = some (k, rec, t, l)

/-- The sectors that an image with its template copies needs: one for each 48 cells. -/
def sectorsFor (l : Launch) : Nat := (cellsOf (readImg l.image).cells l.ttab + 47) / 48

/-- A context stands in another slot as it stood (R316, R318): what it belongs to, its places, its transitions' state, its
flags, its generator and its last-wave record. -/
structure SameContext (x y : Ctx) : Prop where
  whose  : y.valid = x.valid ∧ y.asid = x.asid ∧ y.net = x.net ∧ y.acell = x.acell
  marks  : y.places = x.places ∧ y.trans = x.trans
  values : y.fstat = x.fstat ∧ y.sgen = x.sgen ∧ y.wave = x.wave ∧ y.ord = x.ord

/-- A context with no firing and no park record. -/
def Quiet (x : Ctx) : Prop := x.firings = [] ∧ ∀ e ∈ x.parks, e.2.valid = false

end Sys2Proof.Claim

section
open Sys2Proof Sys2Proof.Machine Sys2Proof.Claim

/-! ### Launches (R299 to R315, R322, R386, R387) -/

/-- R300, R302, R311 to R313, R387, R424: a doorbell rung while the link is up through a BAR2 that the host has programmed marks the
queue that it names rung at its die, and reports a record where it names none; without them it reaches nothing (R420); the front end
ends its reading of a queue with no packet and takes a packet, as a bundle, a wait or a signal; a wait whose test holds retires and
one whose test fails parks its queue; a signal packet adds and retires; a launch packet claims a slot of its queue and is written
there once the queue has room, or submits a task once the table has, and one without a table entry is refused with a record; its
packet is acknowledged, and a duplicate is dropped. While compute dies are held none of the front end's steps is taken (R336). -/
def Obligations.PacketsAreServed : Prop :=
  ∀ (s : State),
    (∀ vm die v, s.link = false ∨ (Tbl.get {} s.pcie vm).bar2 = none → exec (.doorbell vm die v) s = .next s)
    ∧ (∀ vm die v pq, s.link = true → (Tbl.get {} s.pcie vm).bar2 ≠ none → s.bellPoison vm v = none → s.doorbellQueue vm v = some pq →
      ∃ t, exec (.doorbell vm die v) s = .next t ∧ t = s.modQueue pq fun q => { q with rung := true, bell := die % 4 })
    ∧ (∀ vm die v, s.link = true → (Tbl.get {} s.pcie vm).bar2 ≠ none → s.bellPoison vm v = none → s.doorbellQueue vm v = none →
      ∃ t, exec (.doorbell vm die v) s = .next t ∧ Reported s t
        { hit := { cls := 1, cause := 0xD, faddr := v.toNat, aux := vm }, src := 6, iss := { net := 2 ^ 32 } })
    ∧ (∀ die, s.mgmt.held = true → exec (.packetStart die) s = .next s)
    ∧ (∀ die pq, s.mgmt.held = false → (s.dieAt die).fed ≠ s.clock + 1 → s.pickQueue die = none →
      State.reading die (s.queueAt pq) = true → s.headPacket (s.queueAt pq) = .ok none →
      ∃ t, exec (.packetStart die) s = .next t ∧ t = s.endReadings die ∧ (t.queueAt pq).rung = false)
    ∧ (∀ die pq i ws s1, s.mgmt.held = false → (s.dieAt die).fed ≠ s.clock + 1 → 
      let u := s.endReadings die
      u.pickQueue die = some pq → u.readyPacket die (u.queueAt pq) = some (i, ws) →
      u.writeVirt (State.Issuer.plain (u.queueAt pq).asid) (stepAddr (u.queueAt pq).hdr.toNat 8 1) (toBytes 8 (i + 1))
        = (s1, .ok ()) → pkOk ws = true →
      ∃ t, exec (.packetStart die) s = .next t ∧ (t.queueAt pq).live = (u.queueAt pq).live ++ [i] ∧ t.mem = s1.mem
        ∧ t.cells = s.cells ∧ t.banks = s.banks ∧ t.sectors = s.sectors
        ∧ (pkType ws = 1 → ∃ b, Tbl.find t.bundles s.bundleN = some b ∧ t.bundleN = s.bundleN + 1 ∧ b.pq = pq ∧ b.idx = i
            ∧ b.die = die ∧ b.asid = (u.queueAt pq).asid ∧ b.body = wordOf ws 2 ∧ b.sig = wordOf ws 3 ∧ b.addend = wordOf ws 4
            ∧ b.nsub = (wordOf ws 1).toNat / 2 ^ 52 % 2 ^ 3 + 1 ∧ b.read = false)
        ∧ (pkType ws ≠ 1 → (t.queueAt pq).wait
            = some (i, pkType ws == 2, (wordOf ws 1).toNat / 2 ^ 48 % 2 ^ 3, wordOf ws 2, wordOf ws 3)))
    ∧ (∀ pq i cond (sig v : W64) s1 dpa, (s.queueAt pq).wait = some (i, true, cond, sig, v) → (s.queueAt pq).parked = false → s.mgmt.held = false →
      sig.toNat % 8 = 0 → s.signalHome (State.Issuer.plain (s.queueAt pq).asid) sig.toNat false = (s1, .ok dpa) →
      (condHolds cond (s1.load64 dpa) v = true →
        ∃ t, exec (.waitPacket pq) s = .next t ∧ (t.queueAt pq).wait = none ∧ Retired t pq i ∧ t.mem = s1.mem
          ∧ ∀ q, q ≠ pq → t.queueAt q = s.queueAt q)
      ∧ (condHolds cond (s1.load64 dpa) v = false →
        ∃ t, exec (.waitPacket pq) s = .next t ∧ (t.queueAt pq).parked = true ∧ (t.queueAt pq).wait = (s.queueAt pq).wait
          ∧ Tbl.get [] t.parks dpa = Tbl.get [] s.parks dpa ++ [pq] ∧ t.mem = s1.mem))
    ∧ (∀ pq i cond (sig v : W64) s1 old, (s.queueAt pq).wait = some (i, false, cond, sig, v) → sig ≠ 0 → s.mgmt.held = false →
      (s.modQueue pq fun q => { q with wait := none }).unitSignal (State.Issuer.plain (s.queueAt pq).asid) sig.toNat v.toNat
        wideAgent (some 5) = (s1, .ok old) →
      ∃ t, exec (.signalPacket pq) s = .next t ∧ Retired t pq i ∧ t.mem = s1.mem ∧ t.parks = s1.parks)
    ∧ (∀ (x : LaunchBody), s.present x.pkt.peer = true → s.duplicate x.pkt = true →
      ∃ t, exec (.launchPacket x) s = .next t
        ∧ t = { s.hear x.pkt.peer with outbox := s.outbox ++ [.ack x.pkt.peer x.pkt.vc x.pkt.num] })
    ∧ (∀ (x : LaunchBody) s1 s2 ix, x.words.length = 8 → s.incoming = [] → s.present x.pkt.peer = true → s.duplicate x.pkt = false →
      s.launchPoison ((x.words.getD 0 0).toNat / 2 ^ 52) = none →
      let words := x.words
      let u := (s.hear x.pkt.peer).acceptPacket x.pkt
      let e := s.launchEntry ((words.getD 0 0).toNat / 2 ^ 52)
      let kind := (words.getD 0 0).toNat / 2 ^ 48 % 2 ^ 4
      let pq := e.toNat / 2 ^ 50 % 2 ^ 12
      let net := e.toNat / 2 ^ 38 % 2 ^ 12
      (e.getLsbD 63 = true → kind = 1 → (s.queueAt pq).v = true → u.claimSlot pq = (s1, .ok ix) →
        (s1.writeClaimed pq ix words = (s2, .ok true) →
          ∃ t, exec (.launchPacket x) s = .next t ∧ t.mem = s2.mem ∧ (t.queueAt pq).rung = true ∧ t.incoming = []
            ∧ t.outbox = u.outbox)
        ∧ (s1.writeClaimed pq ix words = (s2, .ok false) →
          ∃ t, exec (.launchPacket x) s = .next t ∧ t.mem = s1.mem ∧ t.incoming = [.packet pq ix words]))
      ∧ (∀ n, e.getLsbD 63 = true → kind = 2 → e.getLsbD 62 = true → Tbl.find s.nets net = some n → n.done = false →
        n.halted = none → (words.getD 1 0).toNat % 2 ^ 16 < n.templs →
        (s.freeEntries n.die = [] → ∃ t, exec (.launchPacket x) s = .next t ∧ t = { u with incoming := [.task net words] })
        ∧ (s.freeEntries n.die ≠ [] → ∃ t k, exec (.launchPacket x) s = .next t ∧ EntryFree s n.die k
          ∧ TaskIs t n.die k (((s.taskAt n.die k).gen + 1) % 2 ^ 12) net n.asid
              { tmpl := (words.getD 1 0).toNat % 2 ^ 16, args := [words.getD 2 0, words.getD 3 0, words.getD 4 0] }))
      ∧ (e.getLsbD 63 = false →
        ∃ t, exec (.launchPacket x) s = .next t ∧ Reported u t
          { hit := { cls := 1, cause := 0xE, faddr := (words.getD 0 0).toNat }, src := 6, iss := { net := 2 ^ 32 } }))

/-- R304 to R308, R314, R315, R322, R386: a bundle's records are read and checked; a lawful net record asks for its sectors,
and an image that fails its checks ends the bundle; the controller grants one free sector for each 48 cells or holds
sectors for the request; with its quanta free the net is mapped onto cells of its sectors and loaded (or finds no mapping, which
log 22 leaves free, and ends the bundle), and with the bundle's other sub-launches accepted it takes the lowest free number, its
sectors run it, and it holds its quanta, once the power account's requests before it are served (R321; the place of a placement among
them is log 22's); a bundle whose sub-launches are all complete retires; a pool of up to 600 quanta is taken, and a write above it is
discarded (log 38). Held dies place, grant and inject nothing (R336). The number under which a placed net stands until it has its
own is a name of the model's (log 43). -/
def Obligations.BundlesBecomeNets : Prop :=
  ∀ (s : State) (k rec : Nat) (b : Bundle), s.bundleAt k = some b →
    let r := b.recs.getD rec []
    (s.mgmt.held = true → exec (.bundleRun k) s = .next s ∧ exec (.netPlacement k rec) s = .next s
      ∧ (∀ die, exec (.sectorGrant die) s = .next s) ∧ exec (.netInject k rec) s = .next s ∧ exec (.bundleRetire k) s = .next s)
    ∧ (∀ s1 rs, s.mgmt.held = false → b.read = false → s.readRecords (State.Issuer.plain b.asid) b.body.toNat b.nsub = (s1, .ok rs) → RecordsOk rs →
      ∃ t b', exec (.bundleRun k) s = .next t ∧ t.bundleAt k = some b' ∧ b'.read = true ∧ b'.recs = rs
        ∧ b'.stages = rs.map (fun _ => Stage.asked) ∧ b'.body = b.body ∧ b'.sig = b.sig ∧ t.mem = s1.mem ∧ t.nets = s.nets)
    ∧ (∀ s1 s2 s3 bytes tb ab, s.mgmt.held = false → blKind r = 1 → b.stages[rec]? = some .asked →
      s.readImage (State.Issuer.plain b.asid) (wordOf r 1).toNat = (s1, .ok bytes) →
      (Img.check bytes (s1.signPolicy b.asid) = none →
        let m := readImg bytes
        State.strayPreload b rec m.cells = false →
        s1.readVirt (State.Issuer.plain b.asid) (wordOf r 3).toNat (8 * m.templates) = (s2, .ok tb) →
        (m.templates = 0 → wordOf r 3 = 0) → tplOk m.cells (wordsAt tb m.templates) = true → m.argbytes % 16 = 0 →
        s2.readVirt (State.Issuer.plain b.asid) (wordOf r 2).toNat m.argbytes = (s3, .ok ab) →
        m.argsOk [] (readArgs ab) = true → cellsOf m.cells (wordsAt tb m.templates) ≤ 8064 → m.quanta ≤ s.pool →
        State.crowded m = false →
        ∃ t b', exec (.netPlacement k rec) s = .next t ∧ t.bundleAt k = some b'
          ∧ b' = { b with stages := b.stages.set rec (.wanting ⟨bytes, readArgs ab, wordsAt tb m.templates⟩) }
          ∧ t.mem = s3.mem)
      ∧ (∀ at' cause, Img.check bytes (s1.signPolicy b.asid) = some (at', cause) → b.sig = 0 →
        ∃ t, exec (.netPlacement k rec) s = .next t ∧ t.bundleAt k = none ∧ Retired t b.pq b.idx))
    ∧ (∀ die l, s.mgmt.held = false → NextGrant s die k rec l →
      ((s.freeSectors die).length < sectorsFor l →
        ∃ t, exec (.sectorGrant die) s = .next t ∧ (∃ u, (t.dieAt die).hold = some u ∧ s.pickTenant die = some u)
          ∧ t.sectors = s.sectors ∧ t.nets = s.nets ∧ t.bundles = s.bundles)
      ∧ (sectorsFor l ≤ (s.freeSectors die).length →
        ∃ t b' x, exec (.sectorGrant die) s = .next t ∧ (t.dieAt die).hold = none ∧ t.bundleAt k = some b'
          ∧ b' = { b with stages := b.stages.set rec (.granted l) } ∧ Tbl.find t.nets (tempNet k rec) = some x
          ∧ x.sectors.length = sectorsFor l ∧ x.asid = b.asid ∧ x.image = l.image
          ∧ ∀ c ∈ x.sectors, c ∈ s.freeSectors die ∧ (t.sectorAt c).use = .granted k rec))
    ∧ (∀ x l, s.mgmt.held = false → Tbl.find s.nets (tempNet k rec) = some x → b.stages[rec]? = some (.granted l) →
      let m := readImg x.image
      m.quanta ≤ s.quantaFree → (m.quanta = 0 ∨ s.quantaDeficit = 0) → b.sig = 0 →
      ∃ t, exec (.netInject k rec) s = .next t
        ∧ ((t.bundleAt k = none ∧ Retired t b.pq b.idx)
          ∨ ∃ b' y, t.bundleAt k = some b' ∧ b'.stages = b.stages.set rec .placed ∧ Tbl.find t.nets (tempNet k rec) = some y
              ∧ y.sectors = x.sectors ∧ (∀ c ∈ y.map, cellSector c ∈ x.sectors)
              ∧ ∀ e ∈ State.netCells y, ∃ a, (a, e.2) ∈ State.netCells y ∧ (t.cellAt e.2).run = m.context x.args a x.asid))
    ∧ (∀ x net, s.mgmt.held = false → Tbl.find s.nets (tempNet k rec) = some x → b.stages[rec]? = some .placed →
      s.bundleAccepted b k = true →
      let m := readImg x.image
      (m.quanta = 0 ∨ s.placementWaits x.die (8 * k + rec) = false) →
      m.quanta ≤ s.quantaFree → (m.quanta = 0 ∨ s.quantaDeficit = 0) → net < 4096 → Tbl.find s.nets net = none →
      (∀ j, j < net → Tbl.find s.nets j ≠ none) →
      ∃ t b', exec (.netInject k rec) s = .next t ∧ Tbl.find t.nets net = some { x with quanta := m.quanta }
        ∧ Tbl.find t.nets (tempNet k rec) = none ∧ (∀ c ∈ x.sectors, (t.sectorAt c).use = .running net)
        ∧ t.bundleAt k = some b' ∧ b'.stages = b.stages.set rec (.injected net))
    ∧ (s.mgmt.held = false → b.read = true → (∀ e ∈ b.recs.zip b.stages, if blKind e.1 = 1 then e.2 = .complete else e.2 = .posted) →
      (∀ e ∈ s.sectors, ∀ x ∈ e.2.node.ports ++ e.2.node.queue, x.pre = none) → (∀ p ∈ s.posts, p.iss.net ≠ 2 ^ 33) → b.sig = 0 →
      ∃ t, exec (.bundleRetire k) s = .next t ∧ t.bundleAt k = none ∧ Retired t b.pq b.idx ∧ t.mem = s.mem ∧ t.nets = s.nets
        ∧ ∀ j, j ≠ k → t.bundleAt j = s.bundleAt j)
    ∧ (∀ n, (n ≤ 600 → ∃ t, exec (.poolWrite n) s = .next t ∧ t = { s with pool := n })
        ∧ (600 < n → ∃ t, exec (.poolWrite n) s = .next t ∧ t = s))

/-! ### Castling (R59, R316 to R319, R388) -/

/-- R317 to R319, R388: a write of `cr.castle` with GO starts a swap; from clock 65 on, with every firing in progress
parkable, the running slot and the named shadow slot exchange contents and GO reads 0; a stream that a swap has started saves its
slot's window to memory, or makes a context of a window in memory, in the order in which they started; the outcome of a parked
firing's instruction goes to its park record. The exchange in one step, where R318 gives its clocks, and a stream in one step under
the address space of its slot's context, or of the running one where its slot holds none, are the model's reading (log 44). -/
def Obligations.CellsCastle : Prop :=
  ∀ (s : State) (cell : Nat),
    let c := s.cellAt cell
    (∀ v : W64, cellOk cell = true → c.go = false → v.getLsbD 63 = true →
      ∃ t, exec (.castleGo cell v) s = .next t ∧ (t.cellAt cell).go = true ∧ (t.cellAt cell).slot = v.getLsbD 62
        ∧ (t.cellAt cell).stream = v.getLsbD 61 ∧ (t.cellAt cell).dir = v.getLsbD 60 ∧ (t.cellAt cell).goClock = s.clock
        ∧ (t.cellAt cell).sh0 = c.sh0 ∧ (t.cellAt cell).sh1 = c.sh1 ∧ (∀ d, d ≠ cell → t.cellAt d = s.cellAt d) ∧ t.mem = s.mem)
    ∧ (c.go = true → c.goClock + 65 ≤ s.clock → (∀ f ∈ c.run.firings, f.ended = false → s.parkable cell f = true) →
      ∃ t, exec (.contextExchange cell) s = .next t ∧ (t.cellAt cell).go = false
        ∧ (t.cellAt cell).moving = c.moving ++ (if c.stream then [⟨if c.slot then 1 else 2, c.dir, c.ctxmem.toNat⟩] else [])
        ∧ (let x := if c.slot then c.sh1 else c.sh0
           SameContext x (t.cellAt cell).run
           ∧ SameContext c.run (if c.slot then (t.cellAt cell).sh1 else (t.cellAt cell).sh0)
           ∧ (Quiet x → (t.cellAt cell).run.regs = x.regs ∧ (t.cellAt cell).run.firings = [])
           ∧ (if c.slot then (t.cellAt cell).sh0 = c.sh0 else (t.cellAt cell).sh1 = c.sh1))
        ∧ (∀ d, d ≠ cell → t.cellAt d = s.cellAt d) ∧ t.mem = s.mem ∧ t.banks = s.banks)
    ∧ (∀ m rest, c.moving = m :: rest → (m.slot = 1 ∨ m.slot = 2) →
      let k := m.slot
      let x := c.slotCtx k
      (∀ s1, m.dir = false → x.valid = true →
        s.writeVirt { State.Issuer.plain x.asid with cell := cell, net := 2 ^ 32 } m.addr (x.windowBytes s.clock)
          = (s1, .ok ()) →
        ∃ t, exec (.contextStreamComplete cell) s = .next t ∧ t.mem = s1.mem ∧ (t.cellAt cell).moving = rest
          ∧ ((t.cellAt cell).slotCtx k).valid = false
          ∧ Tbl.find t.saves (cell * 4096 + x.net % 4096) = some { x with area := m.addr })
      ∧ (∀ s1 bs, m.dir = true →
        s.readVirt { State.Issuer.plain (if x.valid then x.asid else c.run.asid) with cell := cell, net := 2 ^ 32 }
          m.addr 16384 = (s1, .ok bs) →
        let net := numberOf ((bs.drop 0xE00).take 8) / 2 ^ 39 % 2 ^ 12
        ∃ t, exec (.contextStreamComplete cell) s = .next t ∧ (t.cellAt cell).moving = rest
          ∧ (t.cellAt cell).slotCtx k = (s1.hiddenCtx cell net).ofImage bs
          ∧ Tbl.find t.saves (cell * 4096 + net) = none ∧ t.mem = s1.mem))
    ∧ (∀ slot j p f i (t1 : State), (slot = 1 ∨ slot = 2) →
      let x := c.slotCtx slot
      Tbl.find x.parks j = some p → p.valid = true → x.firings = [f] → f.parked = true → f.id = p.fid → f.rdy = false →
      f.wait = some i →
      resume i ((s.modCell cell fun y => { y with run := { x with regs := f.regs, firings := [{ f with regs := {} }] } }).focus
        cell f.id) = .next t1 → t1.cell = cell → t1.fid = f.id → t1.live = true → t1.me.wait = none → t1.ctx.firings.length = 1 →
      ∃ t p', exec (.parkedOutcome cell slot j) s = .next t ∧ t.mem = t1.mem
        ∧ Tbl.find ((t.cellAt cell).slotCtx slot).parks j = some p' ∧ p'.valid = true ∧ p'.rdy = true
        ∧ p'.regs = p.regs.atop t1.me.regs ∧ (t.cellAt cell).run = c.run)

end

namespace Sys2Proof.Claim
open Sys2Proof.Machine

/-! ### Words for the management cluster -/

/-- The mailbox takes a command (R324, R327): firmware runs, no LOAD_IMAGE is open, the host's link is up and its BAR0 programmed
(R419, R420), and the host's command does not come after the side-band port's of the same clock. -/
def MailOpen (s : State) (m : Master) : Prop :=
  s.fwUp = true ∧ s.mgmt.loading = none ∧ (m = .host → s.link = true ∧ (Tbl.get {} s.pcie 0).bar0 ≠ none ∧ s.mgmt.sideAt ≠ s.clock + 1)

/-- The side-band port's command is on record, so that the host's of the same clock is not taken after it (R327). -/
def mailed (s : State) (m : Master) : State :=
  if m = .sideBand then { s with mgmt := { s.mgmt with sideAt := s.clock + 1 } } else s

/-- A response with a status and words (R324). -/
def Answered (s t : State) (m : Master) (tag : BitVec 16) (status : Nat) (ws : List W64) : Prop :=
  t.outbox = s.outbox ++ [.mailbox m tag.toNat status ws]

/-- A response, and nothing else. -/
def OnlyAnswered (s t : State) (m : Master) (tag : BitVec 16) (status : Nat) (ws : List W64) : Prop :=
  t = { mailed s m with outbox := s.outbox ++ [.mailbox m tag.toNat status ws] }

/-- A region that a command names (R314). -/
def Region (s : State) (die sector n : Nat) (x : Net) : Prop :=
  die < 4 ∧ sector < 168 ∧ (s.sectorAt (die * 256 + sector)).use = .running n ∧ Tbl.find s.nets n = some x

/-- No freed block's pages have left quarantine yet (R115). -/
def NoneDue (s : State) : Prop := ∀ e ∈ s.mgmt.limbo, s.qdone < e.2.2

/-- A system event record went to the host's fault ring (R418). -/
def EventCame (s t : State) (event port detail : Nat) : Prop :=
  let ws : List W64 := [BitVec.ofNat 64 (3 * 2 ^ 56 + event % 256 * 2 ^ 48 + port % 256 * 2 ^ 40), BitVec.ofNat 64 detail, 0, 0, 0, 0, 0, 0]
  t.fidx = (s.ringRecord s.fring s.fidx ws).2 ∧ t.mem = (s.ringRecord s.fring s.fidx ws).1.mem

/-- The module right after a reset that keeps memory, the banks, the links and their functions, the drive, what is fused and the
signature counter (log 25). -/
def Restarted (s t : State) : Prop :=
  t.clock = 0 ∧ t.cells = [] ∧ t.sectors = [] ∧ t.owners = [] ∧ t.dies = [] ∧ t.nets = [] ∧ t.bundles = [] ∧ t.queues = []
  ∧ t.flights = [] ∧ t.stores = [] ∧ t.range = [] ∧ t.asids = 4096 ∧ t.qcur = 1 ∧ t.pool = 600 ∧ t.mgmt.held = true ∧ t.mgmt.loading = none
  ∧ t.mem = s.mem ∧ t.banks = s.banks ∧ t.link = s.link ∧ t.pcie = s.pcie ∧ t.ports = s.ports
  ∧ t.mgmt.drive = s.mgmt.drive ∧ t.mgmt.fused = s.mgmt.fused ∧ t.mgmt.sigs = s.mgmt.sigs

/-- Evidence (R339): a mask of the measurements that it returns, their digests, and the signature with the next index over the
nonce, the mask and the digests. -/
def EvidenceOf (s : State) (nonce : List Byte) (mask : Nat) (e : List Byte) : Prop :=
  ∃ ms : List (Nat × BitVec 512),
    (∀ i, (∃ d, (i, d) ∈ ms) ↔ i < 6 ∧ mask / 2 ^ i % 2 = 1 ∧ s.measurement i ≠ none) ∧ (∀ i d, (i, d) ∈ ms → s.measurement i = some d)
    ∧ ms.Pairwise (fun a b => a.1 < b.1)
    ∧ let told := toBytes 8 (ms.map fun m => 2 ^ m.1).sum ++ ms.flatMap fun m => toBytes 64 m.2.toNat
      e = told ++ Xmss.sign Config.identitySeed Config.identityRandom Config.identitySecret 20 s.mgmt.sigs
        (Shake.shake256 (nonce ++ told) 64)

/-- The watchdog is due (R421, R422): PERIOD milliseconds without a kick, or an exception in S or M mode. -/
def DogDue (s : State) : Prop :=
  s.mgmt.since + s.mgmt.period * 2000000 ≤ s.clock ∨ ∃ c ∈ s.mgmt.cores, c.trap = some .s ∨ c.trap = some .m

/-- A slot's plug-in is to be stopped (R422): its core took an exception in U mode, or its request has run for 10 ms. -/
def StopDue (s : State) (slot : Nat) : Prop :=
  slot < 64 ∧ slot ∉ s.mgmt.stopped
  ∧ ∃ c ∈ s.mgmt.cores, c.plugin = some slot ∧ (c.trap = some .u ∨ ∃ k, c.asked = some k ∧ k + 20000000 ≤ s.clock)

/-- The earliest entry of the timer wheel may be released (R344). -/
def Due (s : State) (k : Nat) (now : W64) (x : Timer) : Prop :=
  s.wheel[k]? = some x ∧ x.time.toNat ≤ now.toNat ∧ ∀ u ∈ s.wheel.take k, u.time ≠ x.time

end Sys2Proof.Claim

section
open Sys2Proof Sys2Proof.Machine Sys2Proof.Claim

/-! ### The management cluster (R112, R322 to R345, R418 to R423) -/

/-- R322 to R327: the mailbox commands. VERSION, RESET, LOAD_IMAGE, IMAGE_DATA, SET_POOL, CASTLE, END, BLOCK_ALLOC,
BLOCK_FREE and TIMER_POST each have their effect and their answer; arguments that the table refuses are answered with
status 3 and change nothing, and so is a 64-byte command with a reserved bit of word 0 set. The model's readings: what RESET keeps
(log 25), the old POOL in word 1 of SET_POOL's answer (log 45), the words of VERSION's answer (log 24). -/
def Obligations.MailboxCommandsComplete : Prop :=
  ∀ (s : State) (m : Master) (tag : BitVec 16), MailOpen s m →
    let u := mailed s m
    (∃ t, exec (.version m tag) s = .next t
      ∧ OnlyAnswered s t m tag 0 (Config.versionWords s.mgmt.verMaj s.mgmt.verMin s.steppings))
    ∧ (∃ t, exec (.reset m tag) s = .next t ∧ Answered s t m tag 0 [] ∧ Restarted s t)
    ∧ (∀ (src len : W64) data, 1 ≤ len.toNat → len.toNat ≤ 2 ^ 24 → (src = 0 ∨ m ≠ .sideBand) →
      ∃ t, exec (.loadImage m tag src len data) s = .next t
        ∧ t.mgmt.loading = some (m, tag.toNat,
            if src = 0 then Mem.load s.mgmt.staging 0 len.toNat else data.take len.toNat)
        ∧ t = { u with mgmt := { u.mgmt with loading := t.mgmt.loading } })
    ∧ (∀ (src len : W64) data, len = 0 ∨ 2 ^ 24 < len.toNat ∨ (src ≠ 0 ∧ m = .sideBand) →
      ∃ t, exec (.loadImage m tag src len data) s = .next t ∧ OnlyAnswered s t m tag 3 [])
    ∧ (∀ (off cnt : W32) (data : List W64), 1 ≤ cnt.toNat → cnt.toNat ≤ 48 → off.toNat + cnt.toNat ≤ 2 ^ 24 →
      ∃ t, exec (.imageData m tag off cnt data) s = .next t ∧ Answered s t m tag 0 []
        ∧ (∀ k, k < cnt.toNat → Mem.read t.mgmt.staging (off.toNat + k)
            = BitVec.ofNat 8 ((data.getD (k / 8) 0).toNat / 2 ^ (8 * (k % 8))))
        ∧ BytesStand s.mgmt.staging t.mgmt.staging off.toNat cnt.toNat
        ∧ t = { u with outbox := t.outbox, mgmt := { u.mgmt with staging := t.mgmt.staging } })
    ∧ (∀ (off cnt : W32) (data : List W64), cnt = 0 ∨ 48 < cnt.toNat ∨ 2 ^ 24 < off.toNat + cnt.toNat →
      ∃ t, exec (.imageData m tag off cnt data) s = .next t ∧ OnlyAnswered s t m tag 3 [])
    ∧ (∀ pool : W64,
      (pool.toNat ≤ 600 → ∃ t, exec (.setPool m tag pool) s = .next t ∧ Answered s t m tag 0 [BitVec.ofNat 64 s.pool]
        ∧ t = { u with pool := pool.toNat, outbox := t.outbox })
      ∧ (600 < pool.toNat → ∃ t, exec (.setPool m tag pool) s = .next t ∧ OnlyAnswered s t m tag 3 []))
    ∧ (∀ die sector n x, Region s die sector n x →
      (∀ slot stream dir, ∃ t, exec (.castle m tag die sector slot stream dir) s = .next t ∧ Answered s t m tag 0 []
        ∧ (∀ c, c / 64 ∈ x.sectors → c % 64 < 48 → (t.cellAt c).go = true
            ∧ ((s.cellAt c).go = false → (t.cellAt c).slot = slot ∧ (t.cellAt c).stream = stream ∧ (t.cellAt c).dir = dir
                ∧ (t.cellAt c).goClock = s.clock))
        ∧ (∀ c, c / 64 ∉ x.sectors → t.cellAt c = s.cellAt c) ∧ t.mem = s.mem)
      ∧ ∃ t, exec (.endRegion m tag die sector) s = .next t ∧ Answered s t m tag 0 []
          ∧ Tbl.find t.nets n = some { x with halted := some (x.halted.getD (s.clock + 1)) }
          ∧ (∀ j, j ≠ n → Tbl.find t.nets j = Tbl.find s.nets j) ∧ t.cells = s.cells ∧ t.mem = s.mem)
    ∧ (∀ die sector slot stream dir, 4 ≤ die ∨ 168 ≤ sector →
      (∃ t, exec (.castle m tag die sector slot stream dir) s = .next t ∧ OnlyAnswered s t m tag 3 [])
      ∧ ∃ t, exec (.endRegion m tag die sector) s = .next t ∧ OnlyAnswered s t m tag 3 [])
    ∧ (m ≠ .sideBand → NoneDue s → ∀ (arg addr : W64) n asid, arg.toNat = asid * 2 ^ 16 + n → 1 ≤ n → n ≤ 16 →
      asid < 4096 → addr = 0 →
      let pool := Tbl.get [] s.mgmt.pools asid
      (n ≤ pool.length →
        ∃ t, exec (.blockAlloc m tag arg addr) s = .next t ∧ Answered s t m tag 0 (State.packBlocks (pool.take n))
          ∧ Tbl.get [] t.mgmt.pools asid = pool.drop n ∧ t.mem = s.mem)
      ∧ (pool.length < n → ∃ t, exec (.blockAlloc m tag arg addr) s = .next t ∧ Answered s t m tag 1 [] ∧ t.mem = s.mem))
    ∧ (m ≠ .sideBand → ∀ asid (blocks : List Nat), blocks.length ≤ 13 → asid < 4096 → (∀ b ∈ blocks, b < 2 ^ 28) →
      ∃ t l, exec (.blockFree m tag asid blocks) s = .next t ∧ Answered s t m tag 0 []
        ∧ t.mgmt.limbo = s.mgmt.limbo ++ l ∧ l.map (fun e => e.2.1.toNat) = blocks ∧ (∀ e ∈ l, e.1 = asid ∧ s.qcur ≤ e.2.2)
        ∧ t.qcur = s.qcur + blocks.length)
    ∧ (m ≠ .sideBand → ∀ (time word1 : W64) cell place n x, word1.toNat % 2 ^ 48 = cellAddr cell + 0x20000 + 8 * place →
      place < 256 → cell % 64 < 48 → word1.toNat / 2 ^ 52 ≠ 0 → word1.toNat / 2 ^ 48 % 16 = 0 →
      (s.sectorAt (cell / 64)).use = .running n → Tbl.find s.nets n = some x →
      (s.wheel.length < 4096 →
        ∃ t, exec (.timerPost m tag time word1 x.asid) s = .next t ∧ Answered s t m tag 0 []
          ∧ t = { u with wheel := s.wheel ++ [⟨time, word1, n⟩], outbox := t.outbox })
      ∧ (4096 ≤ s.wheel.length →
        ∃ t, exec (.timerPost m tag time word1 x.asid) s = .next t ∧ OnlyAnswered s t m tag 3 []))
    ∧ (m ≠ .sideBand → ∀ (words : List W64) data, (wordOf words 0).toNat % 2 ^ 24 ≠ 0 →
      ∃ t, s.mailCommand m words data = .next t
        ∧ OnlyAnswered s t m (BitVec.ofNat 16 ((wordOf words 0).toNat / 2 ^ 32)) 3 [])

/-- R112, R330, R331, R333, R336 to R339, R344, R418 to R423: what the management cluster and the network interface do by
themselves or when asked: boot, block grants, timer releases, attestation (a vendor-defined request is answered where its StandardID
is 3, its vendor the device's, and its payload well-formed), the watchdog, plug-ins, which run in U mode and whose requests are
checked against their slot's ASID (R331), sensors, the host link. A host's command after
the side-band port's of the same clock waits (R327), and so does one before BAR0 is programmed (R420). The model's readings: the
attestation errors (log 53), a timer token's source and the order of releases (log 54), the cores' modes and a plug-in's request page
(log 57). -/
def Obligations.ManagementEventsComplete : Prop :=
  ∀ (s : State),
    (s.mgmt.held = true → s.mgmt.recovery = false →
      ∃ t, exec .boot s = .next t
        ∧ (∀ s1, s.loadStages = some s1 → t.mgmt.held = false ∧ t.mgmt.since = s1.clock ∧ t.mgmt.stages = s1.mgmt.stages
            ∧ t.cells = s1.cells ∧ t.mem = s1.mem)
        ∧ (s.loadStages = none → t = { s with mgmt := { s.mgmt with recovery := true } }))
    ∧ (NoneDue s → s.fwUp = true → ∀ k n x, (s.sectorAt k).use = .running n → Tbl.find s.nets n = some x →
      let pool := Tbl.get [] s.mgmt.pools x.asid
      let room := 16 - (s.sectorAt k).blocks.length
      (∀ b : W32, b.setWidth 28 ∈ pool → (s.sectorAt k).blocks.length < 16 →
        ∃ t, exec (.blockAppend k b) s = .next t ∧ (t.sectorAt k).blocks = (s.sectorAt k).blocks ++ [b.setWidth 28]
          ∧ Tbl.get [] t.mgmt.pools x.asid = pool.erase (b.setWidth 28) ∧ t.mem = s.mem ∧ t.cells = s.cells)
      ∧ (s.mgmt.refills.head? = some k → (s.sectorAt k).blocks.length ≤ 16 →
        ∃ t, exec (.blockCacheRefill k) s = .next t
          ∧ (t.sectorAt k).blocks = (s.sectorAt k).blocks ++ pool.take room
          ∧ Tbl.get [] t.mgmt.pools x.asid = pool.drop room ∧ t.mgmt.refills = s.mgmt.refills.drop 1
          ∧ t.mem = s.mem ∧ t.cells = s.cells))
    ∧ (∀ k now x, Due s k now x →
      (x.word.getLsbD 48 = false → s.regionOf (cellSector (timerCell x.word)) = some x.net →
        ∃ t, exec (.timerTokenRelease k now) s = .next t
          ∧ t = { s with wheel := s.wheel.eraseIdx k, flights := s.flights ++ [⟨2 ^ 49, timerCell x.word, timerPlace x.word,
                    .tokens (x.word.toNat / 2 ^ 52), x.net, s.clock, false, false, none⟩] })
      ∧ (x.word.getLsbD 48 = false → s.regionOf (cellSector (timerCell x.word)) ≠ some x.net →
        ∃ t, exec (.timerTokenRelease k now) s = .next t ∧ t = { s with wheel := s.wheel.eraseIdx k })
      ∧ (let die := x.word.toNat / 2 ^ 46 % 2 ^ 2
         let e := x.word.toNat % 2 ^ 12
         x.word.getLsbD 48 = true → (s.taskAt die e).v = true → (s.taskAt die e).gen % 4096 = x.word.toNat / 2 ^ 12 % 2 ^ 12 →
          ∃ t, exec (.taskTimeRelease k now) s = .next t ∧ t.wheel = s.wheel.eraseIdx k ∧ (t.taskAt die e).reld = true))
    ∧ (s.mgmt.restarting = false →
      (∃ t, exec .spdmGetVersion s = .next t ∧ t = { s with outbox := s.outbox ++ [.spdm .version] })
      ∧ (∃ t, exec .spdmGetCapabilities s = .next t ∧ t = { s with outbox := s.outbox ++ [.spdm .capabilities] })
      ∧ (∃ t, exec .spdmNegotiateAlgorithms s = .next t ∧ t = { s with outbox := s.outbox ++ [.spdm .algorithms] })
      ∧ (∀ c, ∃ t, exec (.spdmOtherRequest c) s = .next t
          ∧ t = { s with outbox := s.outbox ++ [.spdm (.error .unsupportedRequest)] })
      ∧ ∀ (standard vendor : Nat) (payload : List Byte),
        (standard ≠ 3 ∨ vendor ≠ s.vendorId →
          ∃ t, exec (.vendorDefinedRequest ⟨standard, vendor, payload⟩) s = .next t
            ∧ t = { s with outbox := s.outbox ++ [.spdm (.error .unsupportedRequest)] })
        ∧ (standard = 3 → vendor = s.vendorId → (payload.length ≠ 41 ∨ payload.head? ≠ some 1) →
          ∃ t, exec (.vendorDefinedRequest ⟨standard, vendor, payload⟩) s = .next t
            ∧ t = { s with outbox := s.outbox ++ [.spdm (.error .invalidRequest)] })
        ∧ (standard = 3 → vendor = s.vendorId → payload.length = 41 → payload.head? = some 1 → s.mgmt.sigs < 2 ^ 20 →
          ∃ t e, exec (.vendorDefinedRequest ⟨standard, vendor, payload⟩) s = .next t ∧ t.outbox = s.outbox ++ [.spdm (.evidence e)]
            ∧ EvidenceOf s ((payload.drop 1).take 32) (ofBytes (payload.drop 33)) e ∧ t.mgmt.sigs = s.mgmt.sigs + 1
            ∧ (s.mgmt.sigs + 1025 ≠ 2 ^ 20 → t = { s with outbox := t.outbox, mgmt := { s.mgmt with sigs := s.mgmt.sigs + 1 } })
            ∧ (s.mgmt.sigs + 1025 = 2 ^ 20 → EventCame { s with outbox := t.outbox, mgmt := t.mgmt } t 8 0 1024))
        ∧ (standard = 3 → vendor = s.vendorId → payload.length = 41 → payload.head? = some 1 → 2 ^ 20 ≤ s.mgmt.sigs →
          ∃ t, exec (.vendorDefinedRequest ⟨standard, vendor, payload⟩) s = .next t
            ∧ t = { s with outbox := s.outbox ++ [.spdm (.error (.vendorDefined 0xFF [0x01]))] }))
    ∧ (s.mgmt.restarting = true → ∃ t, exec .spdmGetVersion s = .next t ∧ t = { s with outbox := s.outbox ++ [.spdm (.error .busy)] })
    ∧ (∀ v : W64, ∃ t, exec (.watchdogKick v) s = .next t
        ∧ t.mgmt.period = (if 1 ≤ v.toNat / 2 ^ 48 ∧ v.toNat / 2 ^ 48 ≤ 60000 then v.toNat / 2 ^ 48 else s.mgmt.period)
        ∧ t.mgmt.since = (if v.getLsbD 47 then s.clock else s.mgmt.since)
        ∧ t = { s with mgmt := { s.mgmt with period := t.mgmt.period, since := t.mgmt.since } })
    ∧ (s.fwUp = true → ¬DogDue s → exec .watchdogExpiry s = .next s)
    ∧ (s.fwUp = true → DogDue s → ∃ t, exec .watchdogExpiry s = .next t
        ∧ t = { s with mgmt := { s.mgmt with restarting := true, loading := none, restarts := min (s.mgmt.restarts + 1) 0xFFFF,
                                             cores := List.replicate 8 {} } })
    ∧ (∀ slot, s.fwUp = true → ¬StopDue s slot → exec (.pluginStop slot) s = .next s)
    ∧ (∀ slot, s.fwUp = true → StopDue s slot → ∃ t, exec (.pluginStop slot) s = .next t
        ∧ t.mgmt.stopped = s.mgmt.stopped ++ [slot] ∧ EventCame { s with mgmt := t.mgmt } t 4 0 (slot * 2 ^ 58) ∧ t.cells = s.cells
        ∧ t.dies = s.dies ∧ t.mgmt.policy = s.mgmt.policy
        ∧ (∀ (k : Nat) (c : CoreSt), s.mgmt.cores[k]? = some c → ∃ d : CoreSt, t.mgmt.cores[k]? = some d
            ∧ (c.plugin = some slot → d.mode = .s ∧ d.plugin = none ∧ d.trap = none ∧ d.asked = none)
            ∧ (c.plugin ≠ some slot → d = c)))
    ∧ (∀ vals : List W32, vals.length = 8 → ∃ t, exec (.sensorRefresh vals) s = .next t
        ∧ t = { s with mgmt := { s.mgmt with sensors := vals } })
    ∧ (s.link = true → ∃ t, exec .hostLinkDown s = .next t ∧ t.link = false ∧ t.cells = s.cells
        ∧ (let lost (l : Late) : Bool := l.virt && vaHome l.addr == 9
          t.stores = s.stores.filter (fun l => !lost l)
          ∧ t.due = s.due ++ (s.stores.filter lost).map fun l =>
              { hit := { cls := 0x0C, cause := 4, faddr := l.addr }, iss := l.iss })
        ∧ EventCame { s with link := false, stores := t.stores, due := t.due } t 1 0 0)
    ∧ (s.link = false → ∃ t, exec .hostLinkUp s = .next t ∧ t.link = true ∧ t.pcie = [] ∧ EventCame { s with link := true, pcie := [] } t 2 0 0 ∧ t.cells = s.cells
        ∧ ∀ q, (s.queueAt q).v = true → t.queueAt q = { s.queueAt q with rung := true })
    ∧ (∀ core slot c, s.mgmt.cores[core]? = some c →
      (slot < 64 → slot ∉ s.mgmt.stopped → s.fwUp = true → c.trap = none →
        ∃ d, (s.runPlugin core slot).mgmt.cores = s.mgmt.cores.set core d ∧ d.mode = .u ∧ d.plugin = some slot
          ∧ d.asked = some s.clock ∧ d.x = c.x ∧ d.f = c.f ∧ d.pc = c.pc)
      ∧ (slot ∈ s.mgmt.stopped → s.runPlugin core slot = s)
      ∧ (∀ page die asid target policy, c.plugin = some slot → Config.requestOf (page.take 4096) = (die, asid, target, policy) →
        ((s.tenantAt die slot).asid ≠ asid →
          (s.pluginCall core page).mgmt.policy = s.mgmt.policy ∧ (s.pluginCall core page).dies = s.dies)
        ∧ (c.mode ≠ .u → s.pluginCall core page = s)
        ∧ (s.fwUp = true → c.trap = none → c.mode = .u → c.may .requestPage = true → { c with mode := .s }.may .policies = true →
          die < 4 → (s.tenantAt die slot).v = true → (s.tenantAt die slot).asid = asid →
          (∀ n, target = some n → n < 256 → ((s.pluginCall core page).tenantAt die slot).target = n))))
    ∧ (s.mgmt.sideAt = s.clock + 1 ∨ s.link = false ∨ (Tbl.get {} s.pcie 0).bar0 = none → ∀ tag, exec (.version .host tag) s = .next s)

end

namespace Sys2Proof.Claim
open Sys2Proof.Machine

/-! ### Words for firmware's writes and services -/

/-- A transition's record with eight bytes replaced from an offset on. -/
def patched (c : Ctx) (j off : Nat) (v : W64) : List Byte :=
  (padRecord (c.tr j).record).take off ++ toBytes 8 v.toNat ++ (padRecord (c.tr j).record).drop (off + 8)

/-- Fields of a 64-bit value by their bits. -/
def bits (v : W64) (hi lo : Nat) : Nat := v.toNat / 2 ^ lo % 2 ^ (hi + 1 - lo)

/-- Nothing changed but a cell's running context. -/
def OnlyRun (s t : State) (cell : Nat) : Prop := t = s.setCell cell { s.cellAt cell with run := (t.cellAt cell).run }

/-- A write was refused: its class and address are recorded, and nothing else changed (R93, R129). -/
def RefusedAt (s t : State) (cls a : Nat) : Prop :=
  ∃ f : Flt, t = { s with due := s.due ++ [f] } ∧ f.hit.cls = cls ∧ f.hit.faddr = a

/-- A fault of a region was raised, and nothing else changed. -/
def RaisedOnly (s t : State) (net cls cause : Nat) : Prop :=
  ∃ f : Flt, t = { s with due := s.due ++ [f] } ∧ f.iss.net = net ∧ f.hit.cls = cls ∧ f.hit.cause = cause

/-- A place's entry in the running context of a cell. -/
def placeOf (s : State) (cell p : Nat) : Place := (s.cellAt cell).run.place p

/-- A cell's running context but for one place. -/
def OtherPlaces (s t : State) (cell p : Nat) : Prop :=
  (∀ q, q ≠ p → placeOf t cell q = placeOf s cell q) ∧ (t.cellAt cell).run.trans = (s.cellAt cell).run.trans
  ∧ (t.cellAt cell).run.regs = (s.cellAt cell).run.regs ∧ (t.cellAt cell).run.firings = (s.cellAt cell).run.firings

/-- A fault of a region is the clock's latest: a class and a cause. It freezes the region at the end of the clock (R375, R377; the
statement that faults are delivered). -/
def Raised (s t : State) (net cls cause : Nat) : Prop :=
  ∃ f : Flt, t.due = s.due ++ [f] ∧ f.iss.net = net ∧ f.hit.cls = cls ∧ f.hit.cause = cause

/-- An engine's command that its abort ends: a stream, a job or a search with its issuer's net instance. -/
def Commanded (s : State) (e : EngineId) (net : Nat) : Prop :=
  match e with
  | .stream o n => ∃ x, Tbl.find (s.ownerAt o).streams n = some x ∧ x.iss.net = net
  | .lane o n => ∃ x, Tbl.find (s.ownerAt o).lanes n = some x ∧ x.iss.net = net
  | .walker n => ∃ x, Tbl.find (s.ownerAt 8).walkers n = some x ∧ x.iss.net = net
  | _ => False

/-- The command is over; a stream for which an `str.unsub` waits stays listed as ended. -/
def CommandGone (t : State) (e : EngineId) : Prop :=
  match e with
  | .stream o n => ∀ x, Tbl.find (t.ownerAt o).streams n = some x → x.ended = true
  | .lane o n => Tbl.find (t.ownerAt o).lanes n = none
  | .walker n => Tbl.find (t.ownerAt 8).walkers n = none
  | _ => False

/-- A queue's engine has no spill write that waits. -/
def Unspilled (s : State) (e : EngineId) : Prop :=
  match e with
  | .queue k => (s.squeue k).spill = []
  | _ => True

/-- A region that the detector judges stuck (R381, R382); one that has halted has a firing that waits. -/
def Stuck (s : State) (net : Nat) (n : Net) : Prop :=
  Tbl.find s.nets net = some n ∧ n.done = false ∧ n.frozen = none ∧ (n.halted = none ∨ s.netBusy net = true) ∧ 65536 ≤ n.idle
  ∧ s.inRunning net n = true ∧ s.outstanding net = false ∧ s.launchable net = false

/-- An extent of units from `u` on that no other place's extension of the die meets, and that lies inside the pool (R383, R384). -/
def FreeExtent (s : State) (die cell p u n size : Nat) : Prop :=
  (∀ e ∈ (s.modSlot cell 0 fun c => c.setPlace p { c.place p with ext := false }).poolExtents die, e.2 ≤ u ∨ u + n ≤ e.1)
  ∧ u + n ≤ size

/-- A peer that counts as present: it is not lost, or a valid communicator names it again (R424, log 52). -/
def Present (s : State) (peer : Nat) : Prop := (s.peer peer).lost = false ∨ peer ∈ s.allPeers

/-- The state in which a replay that GO asks for is tried (R405). -/
def replayAsked (s : State) (die : Nat) (v : W64) : State :=
  s.modDie die fun d => { d with rpNet := v.toNat / 2 ^ 36 % 2 ^ 12, rpTid := v.toNat % 2 ^ 24, rpGo := true }

end Sys2Proof.Claim

section
open Sys2Proof Sys2Proof.Machine Sys2Proof.Claim

/-! ### Firmware's writes (R34, R53, R91 to R95, R102, R104, R114, R115, R129, R277, R334, R335, R399) -/

/-- R34, R53, R91 to R95, R102, R104, R114, R115, R129, R166, R189, R254, R265, R277, R301, R314, R316, R332, R334, R335, R384, R397,
R399, R404, R421: firmware's writes to the windows of a cell and a sector, to the range table, to a TLB, to the quarantine, to
the handle table's base, to a record ring's index and to the registers of the configuration window: each takes the fields that
it may write, and nothing else changes; one that the map or a window refuses has no effect but its record. The model's readings: what
becomes of a place whose KIND changes (log 58), a refused write's record (log 26), when FULL is cleared (log 47), fields that stand
and the falling limit of live ASIDs (log 48). -/
def Obligations.FirmwareWritesComplete : Prop :=
  ∀ (s : State),
    (∀ cell p (v : W64), cellOk cell = true → p < 256 → bits v 63 62 ≠ 3 → bits v 61 48 = 0 → bits v 35 13 = 0 →
      ∃ t, exec (.placeEntryWrite cell p v) s = .next t ∧ OnlyRun s t cell ∧ OtherPlaces s t cell p
        ∧ (placeOf t cell p).kind = bits v 63 62
        ∧ ((placeOf s cell p).kind ≠ 2 → bits v 63 62 ≠ 2 → (placeOf t cell p).count = bits v 11 0)
        ∧ ((placeOf s cell p).kind ≠ 2 → bits v 63 62 = 2 → (placeOf t cell p).all = [])
        ∧ ((placeOf s cell p).kind = 2 → bits v 63 62 = 2 → (placeOf t cell p).all = (placeOf s cell p).all))
    ∧ (∀ cell p (v : W64), cellOk cell = true → p < 256 → (bits v 63 62 = 3 ∨ bits v 61 48 ≠ 0 ∨ bits v 35 13 ≠ 0) →
      ∃ t, exec (.placeEntryWrite cell p v) s = .next t ∧ RefusedAt s t 3 (cellAddr cell + 2 * 2 ^ 16 + 8 * p))
    ∧ (∀ cell p k (v : W64), cellOk cell = true → p < 256 → k < 4 → (placeOf s cell p).kind = 2 →
      ∃ t, exec (.wordStoreWrite cell p k v) s = .next t ∧ OnlyRun s t cell ∧ OtherPlaces s t cell p
        ∧ (k < (placeOf s cell p).words.length → (placeOf t cell p).words = (placeOf s cell p).words.set k v)
        ∧ (k = (placeOf s cell p).words.length → (placeOf s cell p).ext = false → (placeOf s cell p).more = [] →
            (placeOf t cell p).words = (placeOf s cell p).words ++ [v])
        ∧ ((placeOf s cell p).words.length < k → (placeOf t cell p).words = (placeOf s cell p).words))
    ∧ (∀ cell j off (v : W64), cellOk cell = true → j < 64 → off < 512 → off % 8 = 0 →
      let c := (s.cellAt cell).run
      ((c.tr j).armed = false → c.infl j = 0 →
        (c.trans.filter fun e => e.2.loaded && e.1 ≠ j && recPrio e.2.record == recPrio (patched c j off v)).length < 48 →
        ∃ t, exec (.loadedRecordWrite cell j off v) s = .next t ∧ OnlyRun s t cell
          ∧ (((t.cellAt cell).run).tr j).loaded = true ∧ (((t.cellAt cell).run).tr j).armed = false
          ∧ (∀ b, b < 8 → (((t.cellAt cell).run).tr j).record.getD (off + b) 0 = BitVec.ofNat 8 (v.toNat / 2 ^ (8 * b)))
          ∧ (∀ b, b < 512 → (b < off ∨ off + 8 ≤ b) →
              (((t.cellAt cell).run).tr j).record.getD b 0 = (c.tr j).record.getD b 0)
          ∧ ∀ i, i ≠ j → ((t.cellAt cell).run).tr i = c.tr i)
      ∧ ((c.tr j).armed = true ∨ c.infl j ≠ 0 →
        ∃ t, exec (.loadedRecordWrite cell j off v) s = .next t
          ∧ RefusedAt s t 0x0F (cellAddr cell + 3 * 2 ^ 16 + 0x8000 + 512 * j + off)))
    ∧ (∀ cell j (v : W64), cellOk cell = true → j < 64 →
      let c := (s.cellAt cell).run
      (v.getLsbD 63 = false →
        ∃ t, exec (.transitionStateWrite cell j v) s = .next t ∧ OnlyRun s t cell
          ∧ ((t.cellAt cell).run).tr j = { c.tr j with armed := false, since := none }
          ∧ ∀ i, i ≠ j → ((t.cellAt cell).run).tr i = c.tr i)
      ∧ (v.getLsbD 63 = true → (c.tr j).loaded = true → (c.tr j).armed = false →
        loadedBad (s.netView cell 0 (c.tr j).record) true (c.tr j).record = none →
        ∃ t, exec (.transitionStateWrite cell j v) s = .next t ∧ OnlyRun s t cell
          ∧ ((t.cellAt cell).run).tr j = { c.tr j with armed := true }
          ∧ ∀ i, i ≠ j → ((t.cellAt cell).run).tr i = c.tr i)
      ∧ (∀ b, v.getLsbD 63 = true → (c.tr j).loaded = true → (c.tr j).armed = false →
        loadedBad (s.netView cell 0 (c.tr j).record) true (c.tr j).record = some b →
        ∃ t, exec (.transitionStateWrite cell j v) s = .next t ∧ RaisedOnly s t c.net 1 b.2))
    ∧ (∀ cell off (v : W64), cellOk cell = true → off % 8 = 0 → 8 ≤ off → off < 0x380 →
      ∃ t, exec (.registerWindowWrite cell off (lowBytes 8 v)) s = .next t ∧ OnlyRun s t cell
        ∧ ((t.cellAt cell).run).regWord off = (if 0x300 ≤ off then v &&& 0x8000FFFFFFFFFFFF else v)
        ∧ (∀ o, o % 8 = 0 → o < 0x380 → o ≠ off → ((t.cellAt cell).run).regWord o = ((s.cellAt cell).run).regWord o)
        ∧ ((t.cellAt cell).run).places = ((s.cellAt cell).run).places
        ∧ ((t.cellAt cell).run).trans = ((s.cellAt cell).run).trans)
    ∧ (∀ k (v : W64), sectorOk k = true →
      let q := s.squeue k
      let put (q : Queue) : State := s.setSector k { s.sectorAt k with queue := q }
      (∃ t, exec (.queueCounterWrite k 0x800 v) s = .next t
        ∧ t = put { q with pushes := bits v 63 32, pops := bits v 31 0, rels := [] })
      ∧ (∃ t, exec (.queueCounterWrite k 0x808 v) s = .next t
        ∧ t = put (if q.infl = 0 then { q with swr := bits v 63 32, srd := bits v 31 0 } else q))
      ∧ (∃ t, exec (.queueCounterWrite k 0x810 v) s = .next t ∧ t = put { q with sbase := bits v 63 6 * 64 })
      ∧ ∃ t, exec (.queueCounterWrite k 0x818 v) s = .next t
        ∧ t = put (if q.infl = 0 then { q with slog := bits v 63 59, qcnt := bits v 58 53, head := bits v 52 48 } else q))
    ∧ (∀ n (v : BitVec 128), n < 48 → ∃ t, exec (.rangeTableWrite n v) s = .next t
        ∧ t = { s with range := Tbl.put s.range n (v &&& 0xFFF80000FFFFFFFFFFFFFFFFFFFFFFFF) })
    ∧ (∀ o asid (va : W64), ∃ t, exec (.tlbInvalidate o asid va) s = .next t
        ∧ t = { s with cells := t.cells, saves := t.saves, owners := t.owners }
        ∧ (∀ e, e ∈ (t.ownerAt o).tlb ↔ e ∈ (s.ownerAt o).tlb ∧ ¬ (e.asid = asid ∧ e.page = va.toNat / 2 ^ e.size))
        ∧ t.ownerAt o = { s.ownerAt o with tlb := (t.ownerAt o).tlb }
        ∧ (∀ j, j ≠ o → t.ownerAt j = s.ownerAt j)
        ∧ ∀ c, (t.cellAt c).run = { (s.cellAt c).run with floor := (t.cellAt c).run.floor })
    ∧ (∀ o (v : W64), o < 10 →
      ((s.ownerAt o).qenq.length < 1024 → ∃ t, exec (.quarantineEnqueue o v) s = .next t
        ∧ t = { s.setOwner o { s.ownerAt o with qenq := (s.ownerAt o).qenq ++ [⟨v &&& 0x007FFFFFFFFF0000, s.qcur⟩], full := false } with
                qcur := (s.qcur + 1) % 2 ^ 64 })
      ∧ (1024 ≤ (s.ownerAt o).qenq.length → ∃ t, exec (.quarantineEnqueue o v) s = .next t
        ∧ t = s.setOwner o { s.ownerAt o with full := true }))
    ∧ (∀ o q rest, (s.ownerAt o).qenq = q :: rest →
      (q.tag ≤ s.qdone → ∃ t, exec (.quarantineRelease o) s = .next t
        ∧ t = s.setOwner o { s.ownerAt o with qenq := rest, rel := (s.ownerAt o).rel ++ [q.page], full := false })
      ∧ (s.qdone < q.tag → ∃ t, exec (.quarantineRelease o) s = .next t ∧ t = s))
    ∧ (∀ v : W64,
      (∃ t, exec (.handleTableBaseWrite false v) s = .next t
        ∧ t = { s with htbase := v &&& 0x01FFFFFFFFFFFFE0, owners := t.owners }
        ∧ ∀ o, t.ownerAt o = { s.ownerAt o with hcache := [] })
      ∧ ∃ t, exec (.handleTableBaseWrite true v) s = .next t
        ∧ t = { s with htlen := v &&& 0x1FFFFF, owners := t.owners }
        ∧ ∀ o, t.ownerAt o = { s.ownerAt o with hcache := [] })
    ∧ (∀ v : W64,
      (∃ t, exec (.recordRingIndexWrite 0 v) s = .next t ∧ t = { s with
          fidx := ⟨s.fidx.widx, bits v 39 16, if bits v 15 0 = 0 then 0 else s.fidx.lost⟩ })
      ∧ ∀ d, d < 4 → ∃ t, exec (.recordRingIndexWrite (d + 1) v) s = .next t ∧ t = s.setDie d { s.dieAt d with
          ridx := ⟨(s.dieAt d).ridx.widx, bits v 39 16, if bits v 15 0 = 0 then 0 else (s.dieAt d).ridx.lost⟩ })
    ∧ (∀ (v : BitVec 256) (w : W64), w = v.setWidth 64 →
      (∃ t, exec (.registerWrite .ltab v) s = .next t ∧ t = { s with ltab := w &&& 0x01FFFFFFFFFF8000 })
      ∧ (∃ t, exec (.registerWrite .commtab v) s = .next t ∧ t = { s with commtab := w &&& 0x01FFFFFFFFE00000 })
      ∧ (∃ t, exec (.registerWrite .netcfg v) s = .next t ∧ t = { s with netcfg := w &&& 0xFFFF000000000000 })
      ∧ (∃ t, exec (.registerWrite .fring v) s = .next t ∧ t = { s with fring := w &&& 0xFFFFFFFFFFFFF01F })
      ∧ (∀ n, n < 64 →
        (∃ t, exec (.registerWrite (.dbtab n 0) v) s = .next t
          ∧ t = { s with dbtab := Tbl.put s.dbtab (2 * n) (w &&& 0x01FFFFFFFFFF007F) })
        ∧ ∃ t, exec (.registerWrite (.dbtab n 1) v) s = .next t
          ∧ t = { s with dbtab := Tbl.put s.dbtab (2 * n + 1) (w &&& 0x01FFFFFFFFFF1FFF) })
      ∧ (∀ o, o < 10 → ∃ t, exec (.registerWrite (.asidbase o) v) s = .next t
          ∧ t = s.setOwner o { s.ownerAt o with asidbase := w &&& 0x01FFFFFFFFFF8000 })
      ∧ (∀ o n, o < 9 → n < 256 → ∃ t, exec (.registerWrite (.poison o n) v) s = .next t
          ∧ t = s.setOwner o { s.ownerAt o with poison := Tbl.put (s.ownerAt o).poison n (w &&& 0x8000001FFFFFFFFF) })
      ∧ (∀ d, d < 4 →
        (∃ t, exec (.registerWrite (.rpool d) v) s = .next t ∧ t = s.setDie d { s.dieAt d with rpool := w &&& 0xFFFFFFFFFFFFF000 })
        ∧ (∃ t, exec (.registerWrite (.rring d) v) s = .next t ∧ t = s.setDie d { s.dieAt d with rring := w &&& 0xFFFFFFFFFFFFF01F })
        ∧ (∃ t, exec (.registerWrite (.zspill d) v) s = .next t ∧ t = s.setDie d { s.dieAt d with zspill := w })
        ∧ (∃ t, exec (.registerWrite (.alog d) v) s = .next t ∧ t = s.setDie d { s.dieAt d with
            alog := (w &&& 0xFFFFFFFFFFFF8000) ||| (if w.getLsbD 14 && (s.dieAt d).alog.getLsbD 14 then 0x4000 else 0) })
        ∧ (∀ n, n < 64 → ∃ t, exec (.registerWrite (.tenantSlot d n) v) s = .next t ∧ t = s.setDie d { s.dieAt d with
            tenants := Tbl.put (s.dieAt d).tenants n ⟨v.getLsbD 127, fld v 126 115, fld v 114 107, fld v 47 0⟩ })
        ∧ ∃ t, exec (.registerWrite (.clearReceived d) v) s = .next t ∧ (t.dieAt d).total = 0
          ∧ t = s.setDie d { s.dieAt d with total := 0, tenants := (t.dieAt d).tenants }
          ∧ ∀ n, t.tenantAt d n = { s.tenantAt d n with recv := 0 })
      ∧ (∀ n, n < 4096 → ∃ t, exec (.registerWrite (.physQueue n) v) s = .next t
          ∧ t = { s with queues := Tbl.put s.queues n { s.queueAt n with
              v := v.getLsbD 255, vm := fld v 254 249, asid := fld v 248 237, prio := fld v 236 235, tslot := fld v 234 229
              log2n := fld v 228 225, hdr := BitVec.ofNat 64 (fld v 191 134 * 64), arr := BitVec.ofNat 64 (fld v 127 70 * 64) } })
      ∧ (∀ a, a < 4096 → ∃ t, exec (.registerWrite (.imagePolicy a) v) s = .next t
          ∧ t = { s with mgmt := { s.mgmt with policy := Tbl.put s.mgmt.policy a (w &&& 0x80FF000000000000) } })
      ∧ (∀ n, n < 256 → ∀ high, ∃ t, exec (.registerWrite (.keyDigest n high) v) s = .next t
          ∧ t = { s with mgmt := { s.mgmt with keys := Tbl.put s.mgmt.keys n (Tbl.get 0 t.mgmt.keys n) } }
          ∧ ∀ b, b < 512 → (Tbl.get 0 t.mgmt.keys n).getLsbD b =
              if (256 ≤ b) = (high = true) then v.getLsbD (b % 256) else (Tbl.get 0 s.mgmt.keys n).getLsbD b)
      ∧ (∃ t, exec (.registerWrite .mwdogPeriod v) s = .next t ∧ t = { s with mgmt := { s.mgmt with
          period := if 1 ≤ bits w 63 48 ∧ bits w 63 48 ≤ 60000 then bits w 63 48 else s.mgmt.period } })
      ∧ (w.toNat ≤ s.asids → ∃ t, exec (.registerWrite .liveAsid v) s = .next t ∧ t = { s with asids := w.toNat })
      ∧ (s.asids < w.toNat → ∃ t, exec (.registerWrite .liveAsid v) s = .next t ∧ t = s)
      ∧ (∀ cell, cellOk cell = true →
        (∃ t, exec (.registerWrite (.cellCr cell 0) v) s = .next t
          ∧ t = s.setCell cell { s.cellAt cell with run := { (s.cellAt cell).run with fstat := w.setWidth 5 } })
        ∧ (∃ t, exec (.registerWrite (.cellCr cell 1) v) s = .next t ∧ OnlyRun s t cell
          ∧ (t.cellAt cell).run.sgen = (if w.setWidth 32 = (0 : W32) then 1 else w.setWidth 32)
          ∧ (t.cellAt cell).run.firings = (s.cellAt cell).run.firings ∧ (t.cellAt cell).run.regs = (s.cellAt cell).run.regs
          ∧ (t.cellAt cell).run.places = (s.cellAt cell).run.places ∧ (t.cellAt cell).run.trans = (s.cellAt cell).run.trans)
        ∧ (∃ t, exec (.registerWrite (.cellCr cell 0x101) v) s = .next t
          ∧ t = s.setCell cell { s.cellAt cell with ctxmem := w &&& 0xFFFFFFFFFFFFC000 })
        ∧ (∀ k, k = 2 ∨ k = 3 ∨ k = 4 → ∃ t, exec (.registerWrite (.cellCr cell k) v) s = .next t
          ∧ RefusedAt s t 0x0F (cellAddr cell + 4 * 2 ^ 16 + 8 * k))
        ∧ (∀ k, 5 ≤ k → k < 512 → k ≠ 0x100 → k ≠ 0x101 → ∃ t, exec (.registerWrite (.cellCr cell k) v) s = .next t
          ∧ RefusedAt s t 3 (cellAddr cell + 4 * 2 ^ 16 + 8 * k))
        ∧ (∀ off, 8 ≤ off → off < 0x380 → off % 8 = 0 →
          (∃ t, exec (.registerWrite (.shadow cell 0 off) v) s = .next t ∧ (t.cellAt cell).sh0.regWord off
              = (if 0x300 ≤ off then w &&& 0x8000FFFFFFFFFFFF else w)
            ∧ t = s.setCell cell { s.cellAt cell with sh0 := (t.cellAt cell).sh0 }
            ∧ ∀ o, o % 8 = 0 → o < 0x380 → o ≠ off → (t.cellAt cell).sh0.regWord o = (s.cellAt cell).sh0.regWord o)
          ∧ ∃ t, exec (.registerWrite (.shadow cell 1 off) v) s = .next t ∧ (t.cellAt cell).sh1.regWord off
              = (if 0x300 ≤ off then w &&& 0x8000FFFFFFFFFFFF else w)
            ∧ t = s.setCell cell { s.cellAt cell with sh1 := (t.cellAt cell).sh1 }
            ∧ ∀ o, o % 8 = 0 → o < 0x380 → o ≠ off → (t.cellAt cell).sh1.regWord o = (s.cellAt cell).sh1.regWord o)
        ∧ ∃ t, exec (.registerWrite (.shadow cell 0 0xE00) v) s = .next t ∧ t = s.setCell cell { s.cellAt cell with
            sh0 := { (s.cellAt cell).sh0 with valid := w.getLsbD 63, asid := bits w 62 51, net := bits w 50 39 } })
      ∧ (∀ k, sectorOk k = true →
        let x := s.sectorAt k
        (∀ n, n < 8 →
          let l : Ladder := Tbl.get {} x.ladders n
          let put (l : Ladder) : State := s.setSector k { x with ladders := Tbl.put x.ladders n l }
          (∃ t, exec (.registerWrite (.ladder k (256 * n)) v) s = .next t ∧ t = put { l with
              v := w.getLsbD 63, mode := bits w 62 61, nr := bits w 60 56, ne := bits w 55 45, step := bits w 31 0 })
          ∧ (∃ t, exec (.registerWrite (.ladder k (256 * n + 8)) v) s = .next t
              ∧ t = put { l with occ := BitVec.ofNat 24 (bits w 63 40) })
          ∧ (∃ t, exec (.registerWrite (.ladder k (256 * n + 0x10)) v) s = .next t ∧ t = put { l with
              done := bits w 63 32, nanc := bits w 31 16, ovfc := bits w 15 0 })
          ∧ (∀ i, i < 12 → ∃ t, exec (.registerWrite (.ladder k (256 * n + 0x20 + 8 * i)) v) s = .next t
            ∧ t = put { l with rung := Tbl.put (Tbl.put l.rung (2 * i) (w.setWidth 32 &&& 0xFC0003FF)) (2 * i + 1)
                                        ((w >>> 32).setWidth 32 &&& 0xFC0003FF) })
          ∧ (∀ i, i < 12 → ∃ t, exec (.registerWrite (.ladder k (256 * n + 0x80 + 8 * i)) v) s = .next t
            ∧ t = put { l with wts := Tbl.put (Tbl.put l.wts (2 * i) (w.setWidth 32)) (2 * i + 1) ((w >>> 32).setWidth 32) }))
        ∧ (∀ n, n < 256 →
          let f : Future := Tbl.get {} x.futures n
          let put (f : Future) : State := s.setSector k { x with futures := Tbl.put x.futures n f }
          (∃ t, exec (.registerWrite (.future k (16 * n)) v) s = .next t ∧ t = put { f with
              v := w.getLsbD 63, st := bits w 62 61, filled := w.getLsbD 60, nofill := w.getLsbD 59, ref := bits w 58 43
              gen := bits w 42 31, pheld := w.getLsbD 30, hasp := w.getLsbD 29, ptask := bits w 28 17, task := bits w 16 5 })
          ∧ ∃ t, exec (.registerWrite (.future k (16 * n + 8)) v) s = .next t ∧ t = put { f with value := w })
        ∧ (∀ off, off < 0x800 → off % 8 = 0 → ∃ t, exec (.registerWrite (.queueEntry k off) v) s = .next t
          ∧ t = s.setSector k { x with queue := { x.queue with ent := Tbl.put x.queue.ent (off / 8) w } })
        ∧ (let put (p : Port) : State := s.setSector k { x with port := p }
          let p := x.port
          (∃ t, exec (.registerWrite (.port k 0) v) s = .next t ∧ t = put { p with
              f := { p.f with frozen := p.f.frozen && w.getLsbD 63, cls := bits w 55 48, age := 0 } })
          ∧ (∃ t, exec (.registerWrite (.port k 8) v) s = .next t ∧ t = put { p with qaddr := w })
          ∧ (∃ t, exec (.registerWrite (.port k 0x10) v) s = .next t ∧ t = put { p with pidx := w })
          ∧ (∃ t, exec (.registerWrite (.port k 0x18) v) s = .next t ∧ t = put { p with rowd := bits w 63 32, byted := bits w 31 0 })
          ∧ ∃ t, exec (.registerWrite (.port k 0x20) v) s = .next t ∧ t = put { p with f := { p.f with faddr := w } })))
    ∧ (∀ n, (n < 4 → ∃ t, exec (.eccstatClear true n) s = .next t
          ∧ t = s.setDie n { s.dieAt n with cecnt := 0, uecnt := 0 })
        ∧ (n < 8 → ∃ t, exec (.eccstatClear false n) s = .next t
          ∧ t = s.setOwner n { s.ownerAt n with cecnt := 0, uecnt := 0 }))

/-! ### Services and scale-out (R381 to R384, R394, R402, R405, R424, R425) -/

/-- R381 to R384, R394, R402, R405: firmware resumes or aborts a frozen engine, and one frozen for 2^28 clocks is aborted: an
abort ends the command with class 0x0C of its region; a request without a reply for 2^22 clocks ends its firing; a region stuck
with a full data place gets twice the capacity in a part of the spill pool that no other place holds, and class 0x0D where it has
none, has the most, or the pool has no room; a replay of a live task goes to an idle instance
with new fresh tiles, and one that is refused sets ERR. The model's readings: a capacity of 4,095 before the budget, the units of an
extension and that firmware must run (log 49), where in the pool an extension lies (log 60). -/
def Obligations.ServicesComplete : Prop :=
  ∀ (s : State),
    (∀ e, (s.engState e).frozen = true → s.fwUp = true → Unspilled s e →
      ∃ t, exec (.engineResume e) s = .next t ∧ t.engState e = { s.engState e with frozen := false, age := 0 } ∧ t.cells = s.cells)
    ∧ (∀ e net, (s.engState e).frozen = true → Commanded s e net →
      (s.fwUp = true → ∃ t, exec (.engineAbort e) s = .next t ∧ (t.engState e).frozen = false ∧ CommandGone t e ∧ Raised s t net 0x0C 3)
      ∧ (2 ^ 28 ≤ (s.engState e).age →
        ∃ t, exec (.frozenEngineTimeout e) s = .next t ∧ (t.engState e).frozen = false ∧ CommandGone t e ∧ Raised s t net 0x0C 2))
    ∧ (∀ cell fid i, (s.cellAt cell).run.valid = true → (s.focus cell fid).live = true → Ordered (s.cellAt cell).run.firings →
      (s.focus cell fid).me.wait = some i → i.accesses = true → (s.focus cell fid).me.queued = false →
      2 ^ 22 ≤ (s.focus cell fid).me.age →
      ∃ t, exec (.requestTimeout cell fid) s = .next t ∧ (t.focus cell fid).live = false
        ∧ Raised s t (s.cellAt cell).run.net 0x0C 1)
    ∧ (∀ net n, Stuck s net n →
      (State.smallest (s.fullPlaces net) = none →
        ∃ t, exec (.zugzwangDeclare net) s = .next t ∧ Raised s t net 0x0D 1 ∧ t.cells = s.cells)
      ∧ (∀ cell p cap, State.smallest (s.fullPlaces net) = some (cell, p, cap) → 4095 ≤ cap →
        ∃ t, exec (.zugzwangDeclare net) s = .next t ∧ Raised s t net 0x0D 3 ∧ t.cells = s.cells)
      ∧ (∀ cell p cap, State.smallest (s.fullPlaces net) = some (cell, p, cap) → cap < 4095 →
        let new := min (2 * cap) 4095
        let units := (new - 4 + 7) / 8 - (cap - 4 + 7) / 8
        let z := (s.dieAt n.die).zspill
        let used := (s.nets.map fun e => if e.2.die = n.die then e.2.spill else 0).sum
        let size := 2 ^ bits z 19 15 * 2 ^ 14
        let need := (new - 4 + 7) / 8
        (bits z 14 0 < n.spill + units ∨ bits z 19 15 = 0 ∨ size < used + units ∨ (∀ u, ¬FreeExtent s n.die cell p u need size) →
          ∃ t, exec (.zugzwangDeclare net) s = .next t ∧ Raised s t net 0x0D 2 ∧ t.cells = s.cells)
        ∧ (n.spill + units ≤ bits z 14 0 → bits z 19 15 ≠ 0 → used + units ≤ size →
          (∃ u, FreeExtent s n.die cell p u need size) →
          ∃ t u, exec (.zugzwangDeclare net) s = .next t
            ∧ placeOf t cell p = { placeOf s cell p with cap := new, ext := true, pool := u }
            ∧ FreeExtent s n.die cell p u need size
            ∧ Tbl.find t.nets net = some { n with spill := n.spill + units, idle := 0 } ∧ t.mem = s.mem)))
    ∧ (∀ die (v : W64) i tiles, die < 4 → v.getLsbD 63 = true →
      let s1 := replayAsked s die v
      let k := v.toNat % 2 ^ 12
      let s2 := s1.modTask die k fun t => { t with fresh := [] }
      let net := v.toNat / 2 ^ 36 % 2 ^ 12
      s1.replayBad die k (v.toNat / 2 ^ 12 % 2 ^ 12) net = false →
      s1.idleInst net (s1.taskAt die k).tmpl = some i → s2.poolFree die (s1.taskAt die k).writes.length = some tiles →
      ∃ t, exec (.taskReplay die v) s = .next t ∧ (t.taskAt die k).replay = true ∧ (t.taskAt die k).st = 2
        ∧ (t.taskAt die k).inst = i.inst ∧ (t.dieAt die).rpGo = false ∧ (t.dieAt die).rpErr = false)
    ∧ (∀ die (v : W64), die < 4 → v.getLsbD 63 = true →
      (replayAsked s die v).replayBad die (v.toNat % 2 ^ 12) (v.toNat / 2 ^ 12 % 2 ^ 12) (v.toNat / 2 ^ 36 % 2 ^ 12) = true →
      ∃ t, exec (.taskReplay die v) s = .next t ∧ (t.dieAt die).rpGo = false ∧ (t.dieAt die).rpErr = true ∧ t.cells = s.cells)

/-- R340, R418, R424, R425: an unacknowledged packet is sent again after 20 µs, up to 32 times, on a port that is up and with
`netcfg.UDPPORT`, and an acknowledged one no
longer; a port that goes down or comes up is known; heartbeats go to every peer and a received one renews its peer; a lost
peer's packets and communicators end: a loss is its fatal notice, or 1 ms without anything from it; a fatal notice leaves on every
port that is up and the module resets. The model's readings: what that reset keeps (log 25), the peers of heartbeats and when a lost
one counts as present again (log 52). -/
def Obligations.ScaleOutEventsComplete : Prop :=
  ∀ (s : State),
    (∀ k x, s.sending[k]? = some x → x.sent + 40000 ≤ s.clock → x.tries < 32 → s.ports ≠ 0 →
      ∃ t port, exec (.retransmitTimeout k) s = .next t ∧ s.ports.getLsbD port = true ∧ t = { s with
          free := s.free + 1
          sending := s.sending.set k { x with port := port, tries := x.tries + 1, sent := s.clock }
          outbox := s.outbox ++ [.packet x.peer port (bits s.netcfg 63 48) x.vc x.num x.body] })
    ∧ (∀ peer vc num, ∃ t, exec (.packetAcknowledge peer vc num) s = .next t
        ∧ (∀ x, x ∈ t.sending ↔ x ∈ s.sending ∧ ¬ (x.peer = peer ∧ x.vc = vc ∧ x.num = num))
        ∧ (Present s peer → (t.peer peer).heard = s.clock) ∧ (¬Present s peer → t.peers = s.peers)
        ∧ t = { s with sending := t.sending, peers := t.peers })
    ∧ (∀ p, p < 16 →
      (s.ports.getLsbD p = true → ∃ t, exec (.scaleoutPortDown p) s = .next t ∧ EventCame { s with ports := t.ports } t 6 p 0
        ∧ ∀ q, q < 16 → t.ports.getLsbD q = (s.ports.getLsbD q && q != p))
      ∧ (s.ports.getLsbD p = false → ∃ t, exec (.scaleoutPortUp p) s = .next t ∧ EventCame { s with ports := t.ports } t 7 p 0
        ∧ ∀ q, q < 16 → t.ports.getLsbD q = (s.ports.getLsbD q || q == p)))
    ∧ (s.ports ≠ 0 → ∃ t, exec .heartbeatSend s = .next t
        ∧ t = { s with outbox := s.outbox ++ s.allPeers.map fun p => .heartbeat p })
    ∧ (∀ peer,
      (Present s peer → ∃ t, exec (.heartbeatReceive peer) s = .next t
        ∧ t = { s with peers := Tbl.put s.peers peer { s.peer peer with heard := s.clock, lost := false } })
      ∧ (¬Present s peer → exec (.heartbeatReceive peer) s = .next s))
    ∧ (∀ peer, s.clock < (s.peer peer).heard + 2000000 → exec (.peerLost ⟨peer, false⟩) s = .next s)
    ∧ (∀ peer notice c, notice = true ∨ (s.peer peer).heard + 2000000 ≤ s.clock → s.comms.filter (fun c => (s.commNames c).contains peer) = [c] → s.colls = [] → s.fring = 0 →
      ∃ t, exec (.peerLost ⟨peer, notice⟩) s = .next t ∧ (t.peer peer).lost = true ∧ commV (t.commEntry c) = false
        ∧ (∀ x ∈ t.sending, x.peer ≠ peer ∧ x ∈ s.sending) ∧ t.cells = s.cells)
    ∧ (∃ t, exec .fatalNotice s = .next t ∧ Restarted s t
        ∧ t.outbox = s.outbox ++ ((List.range 16).filter fun p => s.ports.getLsbD p).map fun p => .fatal p)

end

namespace Sys2Proof.Claim
open Sys2Proof.Machine

/-! ### Words for encodings, fields written in the order of the spec's tables -/

/-- Word 0: LEN, OP, FN, D, A, B, S (R117). -/
def word0 (len : BitVec 2) (op : BitVec 8) (fn : BitVec 6) (d a b : BitVec 5) (sb : BitVec 1) : W32 :=
  len ++ op ++ fn ++ d ++ a ++ b ++ sb
/-- A wave word: OWN, PRED, SUCC, SCOPE, ACQ, REL, PATH (R119). -/
def waveWord (own pred succ : BitVec 8) (scope : BitVec 3) (acq rel : BitVec 1) (path : BitVec 3) : W32 :=
  own ++ pred ++ succ ++ scope ++ acq ++ rel ++ path
/-- Word 1 of the T format: PLACE, COUNT, CELL (R119). -/
def tokenWord (place : BitVec 8) (count cell : BitVec 12) : W32 := place ++ count ++ cell
/-- Word 1 of the V format: shD, shA, shB, TYPE, RND, SAT, CHAIN, IMM (R119). -/
def vectorWord (shD shA shB ty : BitVec 4) (rnd : BitVec 3) (sat : BitVec 1) (chain : BitVec 4) (imm : BitVec 8) : W32 :=
  shD ++ shA ++ shB ++ ty ++ rnd ++ sat ++ chain ++ imm

/-- The bytes of words as they stand in a body: little-endian, word 0 first (R3, R117). -/
def bodyOf (ws : List W32) : List Byte := ws.flatMap fun w => toBytes 4 w.toNat

/-- Instructions that a body holds; the other rows of the opcode table are events. -/
def inBody (i : Instr) : Prop := (encodeParts i).isSome = true

/-- The current firing issues `i` now: it may issue in this clock (R41), the words at its place in the loaded record
decode to `i`, and nothing makes `i` wait first (R35, R45, R47, R169, R213, R321). -/
def Issues (s : State) (i : Instr) (n : Nat) : Prop :=
  s.mayIssue = true ∧ decodeBytes s.bodyBytes = .ok (i, n) ∧ s.stalls i = false ∧ s.mustQueue i = false ∧ s.mustHold i = false

/-- The current firing's next instruction is `i`, and it may issue in this clock. -/
def Next (s : State) (i : Instr) (n : Nat) : Prop := s.mayIssue = true ∧ decodeBytes s.bodyBytes = .ok (i, n)

end Sys2Proof.Claim

section
open Sys2Proof Sys2Proof.Machine Sys2Proof.Claim

/-! ### The step, decoding, the invariant, reset -/

/-- R41: a step runs the decoded instruction. Where the schedule names a firing, or names nothing and that firing is the
first that may issue (log 1, the model's choice), and the words at the firing's place in the body decode to `i`, the step
is `exec i` with that firing in focus, after what R172 and R289 ask of memory before it (`State.order`). One that may not
issue, or whose instruction must wait, changes nothing else; an access that must follow others takes its place on the chain and
waits there, and a vector instruction that must wait keeps its records. An event of the schedule is `exec` of its row; a body
instruction is no event; a tick lets clocks pass; the other moves are what the outside world does (log 1). Each step first keeps
the version of memory that stands (log 5). -/
def Obligations.StepRunsTheDecodedInstruction : Prop :=
  ∀ (s : State) (rest : List Move),
    let r : State := { s.remember with agenda := rest }
    let e : State := { s.remember with agenda := [] }
    s.remember = (if s.past.head? = some (s.banks, s.mem) then s else { s with past := (s.banks, s.mem) :: s.past })
    ∧ (∀ cell fid i n, Issues (r.focus cell fid) i n →
      step { s with agenda := .issue cell fid :: rest } = exec i ((r.focus cell fid).order i))
    ∧ (∀ cell fid i n, e.readyFiring = some (cell, fid) → Issues (e.focus cell fid) i n →
      step { s with agenda := [] } = exec i ((e.focus cell fid).order i))
    ∧ (∀ cell fid, (r.focus cell fid).mayIssue = false →
      step { s with agenda := .issue cell fid :: rest } = .next (r.focus cell fid))
    ∧ (∀ cell fid i n, Next (r.focus cell fid) i n →
      let go := step { s with agenda := .issue cell fid :: rest }
      let t := r.focus cell fid
      (t.stalls i = true → go = .next t)
      ∧ (t.stalls i = false → t.mustQueue i = true → go = .next (t.joinChain i))
      ∧ (t.stalls i = false → t.mustQueue i = false → t.mustHold i = true → go = .next (t.holdVec i)))
    ∧ (∀ i, ¬ inBody i → step { s with agenda := .event i :: rest } = exec i r)
    ∧ (∀ i, inBody i → step { s with agenda := .event i :: rest } = .fault .notAnEvent)
    ∧ (∀ n, step { s with agenda := .tick n :: rest } = .next (r.tick n))
    ∧ (∀ n, step { s with agenda := .relax n :: rest } = .next { r with late := n })
    ∧ (∀ k, step { s with agenda := .perform k :: rest } = .next (r.performLate k))
    ∧ (∀ who code c a, step { s with agenda := .soft who code c a :: rest } = .next (r.softError who code c a))
    ∧ (∀ m ws data, step { s with agenda := .mail m ws data :: rest } = r.mailCommand m ws data)
    ∧ (∀ peer asid a bs, step { s with agenda := .hostWrite peer asid a bs :: rest } = .next (r.hostWrite peer asid a bs))
    ∧ (∀ peer asid a n, step { s with agenda := .hostAdd peer asid a n :: rest } = .next (r.hostAdd peer asid a n))
    ∧ (∀ peer asid h, step { s with agenda := .hostClaim peer asid h :: rest } = .next (r.hostClaim peer asid h))
    ∧ (∀ fn two base, step { s with agenda := .bar fn two base :: rest } = .next (r.programBar fn two base))
    ∧ (∀ n a, step { s with agenda := .core n a :: rest } = .next (r.coreAct n a))
    ∧ (∀ dpa bs, step { s with agenda := .fwStore dpa bs :: rest } = .next (r.fwStore dpa bs))
    ∧ (∀ dst src n, step { s with agenda := .fwCopy dst src n :: rest } = .next (r.fwCopy dst src n))
    ∧ (∀ core slot, step { s with agenda := .plugin core slot :: rest } = .next (r.runPlugin core slot))
    ∧ ∀ core page, step { s with agenda := .request core page :: rest } = .next (r.pluginCall core page)

/-- R117, R119, R138 and the encoding tables: words written out field by field decode to the instructions they stand for,
one of each format, and the same words with a reserved field set are refused. -/
def Obligations.WordsDecode : Prop :=
  decode [word0 0b00 0x00 0x01 3 1 2 1] = .ok (.sub 3 1 2 true, 1)
  ∧ decode [word0 0b01 0x01 0x02 3 1 0 0, 0xFFFFFFFF] = .ok (.addi 3 1 0xFFFFFFFF false, 2)
  ∧ decode [word0 0b01 0x20 0x00 0b10110 7 0 0, tokenWord 9 0 0xFFF] = .ok (.emit true 0b011 7 9 0 0xFFF, 2)
  ∧ decode [word0 0b10 0x40 0x03 4 5 0 1, 0x10, waveWord 1 0 2 0b010 1 0 0b010]
      = .ok (.ld 3 4 5 true 0x10 ⟨1, 0, 2, 0b010, true, false, 0b010⟩, 3)
  ∧ decode [word0 0b01 0x80 0x03 0 0 0 1, vectorWord 1 2 3 0xA 0b001 1 0 0]
      = .ok (.vfma ⟨1, 2, 3, 0xA, 0b001, true, 0, 0⟩ true, 2)
  ∧ decode [word0 0b11 0xE0 0x02 1 2 3 0, 0x40, waveWord 4 3 5 0 0 0 0, 0b101#3 ++ (0 : BitVec 29)]
      = .ok (.ladPush 1 5 2 3 0x40 ⟨4, 3, 5, 0, false, false, 0⟩, 4)
  ∧ decode [word0 0b01 0xE1 0x05 1 2 3 0, 0] = .ok (.futFill 1 2 3, 2)
  ∧ (∃ e, decode [word0 0b01 0xE1 0x05 1 2 3 0, 1] = .error e)
  ∧ (∃ e, decode [word0 0b00 0x00 0x15 3 1 2 1] = .error e)
  ∧ ∃ e, decode [word0 0b11 0x00 0x01 3 1 2 1, 0, 0, 0] = .error e

/-- R117 to R121, R138 to R140: decoding undoes encoding. The words, and the bytes, of every well-formed body instruction,
with every operand at every value that the encoding admits and whatever follows them in the body, decode to that
instruction and to its number of words. -/
def Obligations.DecodeUndoesEncode : Prop :=
  ∀ i, i.wf = true → inBody i →
    (∀ rest, decode (encode i ++ rest) = .ok (i, i.words))
    ∧ (encode i).length = i.words
    ∧ ∀ rest, decodeBytes (bodyOf (encode i) ++ rest) = .ok (i, i.words)

/-- R7, R117 to R121, R138 to R141: encoding undoes decoding. What decodes is a well-formed body instruction, and its words
are the words that were read: every reserved bit, unused field and unassigned value is refused, and no two encodings
mean the same. -/
def Obligations.EncodeUndoesDecode : Prop :=
  ∀ ws i n, decode ws = .ok (i, n) → inBody i ∧ i.wf = true ∧ i.words = n ∧ n ≤ ws.length ∧ encode i = ws.take n

/-- Every step keeps the invariant: both memories stay in their canonical form (an address once, in rising order, no entry
equal to what an unlisted address reads as: log 3), and in every context the firings stand in the order of their
selection under identities given out once (R41, R45). -/
def Obligations.StepKeepsInv : Prop := ∀ s t : State, s.Inv → step s = .next t → t.Inv

/-- What reset leaves, where the spec gives it: R24 the pool, R114 the quarantine epochs, R336 compute dies held, R166 the
cycle counter, R72 and R74 flags and generator, R34 and R53 places and transitions, R77 wide elements, R102, R189, R254,
R265, R277, R335; R328 the capability list, which leads from record to record; R331 the cores' protection entries; and the
invariant holds. -/
def Obligations.ResetLeavesTheStatedValues : Prop :=
  let s := State.reset
  s.Inv ∧ s.pool = 600 ∧ s.qcur = 1 ∧ s.mgmt.held = true ∧ s.clock = 0
  ∧ (∀ cell, let c := (s.cellAt cell).run
      c.fstat = 0 ∧ c.sgen = 1 ∧ c.valid = false
      ∧ (∀ p, (c.place p).kind = 0 ∧ (c.place p).count = 0 ∧ (c.place p).ext = false ∧ c.held p = 0)
      ∧ ∀ j, (c.tr j).armed = false ∧ (c.tr j).since = none ∧ c.infl j = 0)
  ∧ (∀ k, let x := s.sectorAt k
      (∀ q e, let w : Wide := Tbl.get {} (x.node.accOf q) e
        w.w = 0 ∧ w.e = 0 ∧ w.sticky = false ∧ w.cls = 0)
      ∧ (∀ off, (Tbl.get ({} : Ladder) x.ladders off).v = false)
      ∧ (∀ f, let y : Future := Tbl.get {} x.futures f
          y.v = false ∧ y.st = 0 ∧ y.ref = 0 ∧ y.gen = 0 ∧ y.value = 0)
      ∧ x.queue.pushes = 0 ∧ x.queue.pops = 0 ∧ x.queue.swr = 0 ∧ x.queue.srd = 0 ∧ x.queue.qcnt = 0 ∧ x.queue.head = 0
      ∧ x.port.f.frozen = false ∧ x.port.qaddr = 0 ∧ x.port.pidx = 0 ∧ x.port.rowd = 0 ∧ x.port.byted = 0)
  ∧ (∀ n, Tbl.get 0 s.range n = 0)
  ∧ (∀ o, (s.ownerAt o).asidbase = 0 ∧ (s.ownerAt o).qenq = [] ∧ (s.ownerAt o).full = false)
  ∧ (∀ d, (s.dieAt d).rpool = 0 ∧ (s.dieAt d).rring = 0 ∧ (s.dieAt d).zspill = 0)
  ∧ (let m := s.mgmt
     let offs := m.caps.map (·.off)
     s.capWord 0 = some (BitVec.ofNat 64 (offs.headD 0))
     ∧ (∀ i, i < m.caps.length → (m.caps.map (·.next)).getD i 0 = offs.getD (i + 1) 0)
     ∧ [1, 2, 3, 4, 5, 6, 7].map (fun k => (m.caps.filter fun r => r.id == k).length) = [1, 4, 9, 1, 1, 1, 1]
     ∧ m.cores.length = 8
     ∧ ∀ c ∈ m.cores, c.pmp.length = 16
         ∧ c.pmp.take 4 = List.replicate 4 ⟨.monitor, [.code, .data, .mailboxes, .registers], true⟩
         ∧ (c.pmp.drop 4).take 4 = List.replicate 4 ⟨.scheduler, [.code, .data, .allocator, .policies], false⟩)
  ∧ s.htbase = 0 ∧ s.htlen = 0 ∧ s.ltab = 0 ∧ s.commtab = 0 ∧ s.netcfg = 0 ∧ s.fring = 0

end
end

