-- ==== Sys2Proof/Laws/Encoding.lean ====
section
/-! SUPPORT. The fields of every word format come back from the word that holds them, and what decoding the words of an
instruction comes down to. -/
set_option Elab.async false
namespace Sys2Proof

/-- A bit of a word as a bit of its number. -/
theorem getLsbD_fld (x : W32) (k : Nat) : x.getLsbD k = decide (x.toNat / 2 ^ k % 2 = 1) := by
  rw [BitVec.getLsbD, Nat.testBit_eq_decide_div_mod_eq]

theorem ofNat_toNat_mod {n : Nat} (x : BitVec n) (k : Nat) (h : k = x.toNat) : BitVec.ofNat n k = x := by
  subst h; simp

theorem bool_of_mod (b : Bool) (k : Nat) (h : k = b.toNat) : decide (k = 1) = b := by
  subst h; cases b <;> simp

/-! ### The shared words -/

theorem unpackW0_packW0 (w : W0) (h1 : w.len < 4) (h2 : w.op < 256) (h3 : w.fn < 64) :
    unpackW0 (packW0 w) = w := by
  obtain ⟨l, o, f, d, a, b, s⟩ := w
  have hd := d.isLt; have ha := a.isLt; have hb := b.isLt; have hs := s.toNat_lt
  simp only [unpackW0, packW0, fld, getLsbD_fld, BitVec.toNat_ofNat, W0.mk.injEq]
  refine ⟨?_, ?_, ?_, ?_, ?_, ?_, ?_⟩ <;>
    first | (apply ofNat_toNat_mod; omega) | (apply bool_of_mod; omega) | (simp only at h1 h2 h3; omega)

theorem unpackWave_packWave (w : Wave) : unpackWave (packWave w) = w := by
  obtain ⟨o, p, s, c, a, r, t⟩ := w
  have := o.isLt; have := p.isLt; have := s.isLt; have := c.isLt; have := a.toNat_lt; have := r.toNat_lt; have := t.isLt
  simp only [unpackWave, packWave, fld, getLsbD_fld, BitVec.toNat_ofNat, Wave.mk.injEq]
  refine ⟨?_, ?_, ?_, ?_, ?_, ?_, ?_⟩ <;> first | (apply ofNat_toNat_mod; omega) | (apply bool_of_mod; omega)

theorem unpackV_packV (v : VOp) : unpackV (packV v) = v := by
  obtain ⟨d, a, b, t, r, s, c, i⟩ := v
  have := d.isLt; have := a.isLt; have := b.isLt; have := t.isLt; have := r.isLt; have := s.toNat_lt; have := c.isLt
  have := i.isLt
  simp only [unpackV, packV, fld, getLsbD_fld, BitVec.toNat_ofNat, VOp.mk.injEq]
  refine ⟨?_, ?_, ?_, ?_, ?_, ?_, ?_, ?_⟩ <;> first | (apply ofNat_toNat_mod; omega) | (apply bool_of_mod; omega)

theorem flagsOk_packWave (w : Wave) : flagsOk (packWave w) = w.flagsOk := by rw [flagsOk, unpackWave_packWave]
theorem fenceFlagsOk_packWave (w : Wave) : fenceFlagsOk (packWave w) = w.fenceOk := by
  rw [fenceFlagsOk, unpackWave_packWave]
theorem waveRange_packWave (w : Wave) : waveRange (packWave w) = w.rangeOk := by rw [waveRange, unpackWave_packWave]
theorem pathIn_packWave (w : Wave) (ps : List Nat) : pathIn (packWave w) ps = w.pathIn ps := by
  rw [pathIn, unpackWave_packWave]

theorem packRing_fields (u : BitVec 10) (n : BitVec 6) (b : BitVec 16) :
    BitVec.ofNat 10 (fld (packRing u n b) 31 22) = u ∧ BitVec.ofNat 6 (fld (packRing u n b) 21 16) = n ∧ BitVec.ofNat 16 (fld (packRing u n b) 15 0) = b ∧ fld (packRing u n b) 31 22 = u.toNat ∧ fld (packRing u n b) 5 0 = b.toNat % 64 ∧ (packRing u n b).setWidth 16 = b := by
  have := u.isLt; have := n.isLt; have := b.isLt
  simp only [packRing, fld, getLsbD_fld, BitVec.toNat_ofNat]
  refine ⟨?_, ?_, ?_, ?_, ?_, ?_⟩ <;>
    first | (apply BitVec.eq_of_toNat_eq; simp only [BitVec.toNat_setWidth, BitVec.toNat_ofNat]; omega) | (apply ofNat_toNat_mod; omega) | (apply bool_of_mod; omega) | omega

theorem packLds_fields (k : BitVec 7) (n : BitVec 7) (c : Bool) :
    BitVec.ofNat 7 (fld (packLds k n c) 31 25) = k ∧ BitVec.ofNat 7 (fld (packLds k n c) 24 18) = n ∧ (packLds k n c).getLsbD 17 = c ∧ fld (packLds k n c) 16 0 = 0 ∧ fld (packLds k n c) 31 25 = k.toNat := by
  have := k.isLt; have := n.isLt; have := c.toNat_lt
  simp only [packLds, fld, getLsbD_fld, BitVec.toNat_ofNat]
  refine ⟨?_, ?_, ?_, ?_, ?_⟩ <;>
    first | (apply ofNat_toNat_mod; omega) | (apply bool_of_mod; omega) | omega

theorem packMul_fields (m : BitVec 7) (k : BitVec 7) (n : BitVec 7) (a : Bool) (q : Bool) (c : Bool) :
    BitVec.ofNat 7 (fld (packMul m k n a q c) 31 25) = m ∧ BitVec.ofNat 7 (fld (packMul m k n a q c) 24 18) = k ∧ BitVec.ofNat 7 (fld (packMul m k n a q c) 17 11) = n ∧ (packMul m k n a q c).getLsbD 10 = a ∧ (packMul m k n a q c).getLsbD 9 = q ∧ (packMul m k n a q c).getLsbD 8 = c ∧ fld (packMul m k n a q c) 7 0 = 0 ∧ fld (packMul m k n a q c) 24 18 = k.toNat ∧ fld (packMul m k n a q c) 8 0 = c.toNat * 256 := by
  have := m.isLt; have := k.isLt; have := n.isLt; have := a.toNat_lt; have := q.toNat_lt; have := c.toNat_lt
  simp only [packMul, fld, getLsbD_fld, BitVec.toNat_ofNat]
  refine ⟨?_, ?_, ?_, ?_, ?_, ?_, ?_, ?_, ?_⟩ <;>
    first | (apply ofNat_toNat_mod; omega) | (apply bool_of_mod; omega) | omega

theorem packDrain_fields (m : BitVec 7) (n : BitVec 7) (a : Bool) (q : Bool) (b : Bool) (w : Bool) :
    BitVec.ofNat 7 (fld (packDrain m n a q b w) 31 25) = m ∧ BitVec.ofNat 7 (fld (packDrain m n a q b w) 24 18) = n ∧ (packDrain m n a q b w).getLsbD 17 = a ∧ (packDrain m n a q b w).getLsbD 16 = q ∧ (packDrain m n a q b w).getLsbD 15 = b ∧ (packDrain m n a q b w).getLsbD 14 = w ∧ fld (packDrain m n a q b w) 13 0 = 0 := by
  have := m.isLt; have := n.isLt; have := a.toNat_lt; have := q.toNat_lt; have := b.toNat_lt; have := w.toNat_lt
  simp only [packDrain, fld, getLsbD_fld, BitVec.toNat_ofNat]
  refine ⟨?_, ?_, ?_, ?_, ?_, ?_, ?_⟩ <;>
    first | (apply ofNat_toNat_mod; omega) | (apply bool_of_mod; omega) | omega

theorem packCfg_fields (a : BitVec 4) (b : BitVec 4) (o : Bool) (s : Bool) (g : BitVec 4) (n : BitVec 8) :
    BitVec.ofNat 4 (fld (packCfg a b o s g n) 31 28) = a ∧ BitVec.ofNat 4 (fld (packCfg a b o s g n) 27 24) = b ∧ (packCfg a b o s g n).getLsbD 23 = o ∧ (packCfg a b o s g n).getLsbD 22 = s ∧ BitVec.ofNat 4 (fld (packCfg a b o s g n) 21 18) = g ∧ BitVec.ofNat 8 (fld (packCfg a b o s g n) 17 10) = n ∧ fld (packCfg a b o s g n) 9 0 = 0 ∧ fld (packCfg a b o s g n) 31 28 = a.toNat ∧ fld (packCfg a b o s g n) 27 24 = b.toNat := by
  have := a.isLt; have := b.isLt; have := o.toNat_lt; have := s.toNat_lt; have := g.isLt; have := n.isLt
  simp only [packCfg, fld, getLsbD_fld, BitVec.toNat_ofNat]
  refine ⟨?_, ?_, ?_, ?_, ?_, ?_, ?_, ?_, ?_⟩ <;>
    first | (apply ofNat_toNat_mod; omega) | (apply bool_of_mod; omega) | omega

theorem packNz_fields (m : BitVec 3) :
    BitVec.ofNat 3 (fld (packNz m) 31 29) = m ∧ fld (packNz m) 28 0 = 0 ∧ fld (packNz m) 31 29 = m.toNat := by
  have := m.isLt
  simp only [packNz, fld, getLsbD_fld, BitVec.toNat_ofNat]
  refine ⟨?_, ?_, ?_⟩ <;>
    first | (apply ofNat_toNat_mod; omega) | (apply bool_of_mod; omega) | omega

theorem packLad_fields (l : BitVec 3) (m : BitVec 2) (r : BitVec 5) (e : BitVec 10) :
    BitVec.ofNat 3 (fld (packLad l m r e) 31 29) = l ∧ BitVec.ofNat 2 (fld (packLad l m r e) 28 27) = m ∧ BitVec.ofNat 5 (fld (packLad l m r e) 26 22) = r ∧ BitVec.ofNat 10 (fld (packLad l m r e) 21 12) = e ∧ fld (packLad l m r e) 11 0 = 0 ∧ fld (packLad l m r e) 28 27 = m.toNat ∧ fld (packLad l m r e) 26 22 = r.toNat ∧ fld (packLad l m r e) 28 0 = m.toNat * 2 ^ 27 + r.toNat * 2 ^ 22 + e.toNat * 2 ^ 12 := by
  have := l.isLt; have := m.isLt; have := r.isLt; have := e.isLt
  simp only [packLad, fld, getLsbD_fld, BitVec.toNat_ofNat]
  refine ⟨?_, ?_, ?_, ?_, ?_, ?_, ?_, ?_⟩ <;>
    first | (apply ofNat_toNat_mod; omega) | (apply bool_of_mod; omega) | omega

theorem packRung_fields (l : BitVec 3) (k : BitVec 5) :
    BitVec.ofNat 3 (fld (packRung l k) 31 29) = l ∧ BitVec.ofNat 5 (fld (packRung l k) 28 24) = k ∧ fld (packRung l k) 23 0 = 0 ∧ fld (packRung l k) 28 24 = k.toNat := by
  have := l.isLt; have := k.isLt
  simp only [packRung, fld, getLsbD_fld, BitVec.toNat_ofNat]
  refine ⟨?_, ?_, ?_, ?_⟩ <;>
    first | (apply ofNat_toNat_mod; omega) | (apply bool_of_mod; omega) | omega

theorem packT_fields (p : Byte) (c e : BitVec 12) : tPlace (packT p c e) = p ∧ tCount (packT p c e) = c ∧ tCell (packT p c e) = e := by
  have := p.isLt; have := c.isLt; have := e.isLt
  simp only [tPlace, tCount, tCell, packT, fld, BitVec.toNat_ofNat]
  refine ⟨?_, ?_, ?_⟩ <;> (apply ofNat_toNat_mod; omega)

theorem packMerge_fields (m : BitVec 8) (f : Bool) :
    (packMerge m f).setWidth 8 = m ∧ (packMerge m f).getLsbD 8 = f ∧ fld (packMerge m f) 31 9 = 0 := by
  have := m.isLt; have := f.toNat_lt
  simp only [packMerge, fld, getLsbD_fld, BitVec.toNat_ofNat]
  refine ⟨?_, ?_, ?_⟩ <;>
    first | (apply BitVec.eq_of_toNat_eq; simp only [BitVec.toNat_setWidth, BitVec.toNat_ofNat]; omega) | (apply ofNat_toNat_mod; omega) | (apply bool_of_mod; omega) | omega

theorem packBar_fields (i : BitVec 4) (n : BitVec 12) :
    (packBar i n).setWidth 4 = i ∧ BitVec.ofNat 12 (fld (packBar i n) 23 12) = n ∧ fld (packBar i n) 31 24 = 0 ∧ fld (packBar i n) 11 4 = 0 ∧ fld (packBar i n) 23 12 = n.toNat := by
  have := i.isLt; have := n.isLt
  simp only [packBar, fld, getLsbD_fld, BitVec.toNat_ofNat]
  refine ⟨?_, ?_, ?_, ?_, ?_⟩ <;>
    first | (apply BitVec.eq_of_toNat_eq; simp only [BitVec.toNat_setWidth, BitVec.toNat_ofNat]; omega) | (apply ofNat_toNat_mod; omega) | (apply bool_of_mod; omega) | omega

/-! ### Words and register fields with one value -/

theorem setWidth_setWidth_of_le {n m : Nat} (x : BitVec n) (h : n ≤ m) : (x.setWidth m).setWidth n = x := by
  apply BitVec.eq_of_toNat_eq
  simp only [BitVec.toNat_setWidth]
  have := x.isLt
  have : 2 ^ n ≤ 2 ^ m := Nat.pow_le_pow_right (by omega) h
  rw [Nat.mod_eq_of_lt (by omega : x.toNat < 2 ^ m), Nat.mod_eq_of_lt x.isLt]

theorem fld_setWidth {n m : Nat} (x : BitVec n) (k : Nat) (h : n ≤ m) : fld (x.setWidth m) k n = 0 := by
  have := x.isLt
  have : 2 ^ n ≤ 2 ^ m := Nat.pow_le_pow_right (by omega) h
  rw [fld, BitVec.toNat_setWidth, Nat.mod_eq_of_lt (by omega : x.toNat < 2 ^ m), Nat.div_eq_of_lt x.isLt, Nat.zero_mod]

theorem fld_csr (r : BitVec 9) : fld (r.setWidth 32) 8 0 = r.toNat := by
  have := r.isLt
  simp only [fld, BitVec.toNat_setWidth]
  omega

theorem relD_fields (r : Bool) (s : BitVec 3) :
    (relD r s).getLsbD 0 = false ∧ (relD r s).getLsbD 4 = r ∧ fld (relD r s) 3 1 = s.toNat
      ∧ BitVec.ofNat 3 (fld (relD r s) 3 1) = s ∧ (relD r s)[0] = false ∧ (relD r s)[4] = r := by
  revert r s; decide

theorem path_packWave (w : Wave) : fld (packWave w) 2 0 = w.path.toNat := by
  obtain ⟨o, p, s, c, a, r, t⟩ := w
  have := o.isLt; have := p.isLt; have := s.isLt; have := c.isLt; have := a.toNat_lt; have := r.toNat_lt; have := t.isLt
  simp only [packWave, fld, BitVec.toNat_ofNat]
  omega

theorem scope_packWave (w : Wave) : fld (packWave w) 7 5 = w.scope.toNat := by
  obtain ⟨o, p, s, c, a, r, t⟩ := w
  have := o.isLt; have := p.isLt; have := s.isLt; have := c.isLt; have := a.toNat_lt; have := r.toNat_lt; have := t.isLt
  simp only [packWave, fld, BitVec.toNat_ofNat]
  omega

theorem path_one (x : BitVec 3) : x.toNat = 1 ↔ x = 1#3 := by revert x; decide

theorem ofBool_fields (q : Bool) : ((BitVec.ofBool q).setWidth 5).getLsbD 0 = q ∧ fld ((BitVec.ofBool q).setWidth 5) 4 1 = 0 := by
  revert q; decide

theorem finBit_fields (q : Bool) :
    ((BitVec.ofBool q).setWidth 32).getLsbD 0 = q ∧ fld ((BitVec.ofBool q).setWidth 32) 31 1 = 0 := by
  revert q; decide

theorem trap_fields (k : BitVec 10) : (k.extractLsb' 5 5 ++ k.setWidth 5 : BitVec 10) = k := by
  apply BitVec.eq_of_getLsbD_eq
  intro i hi
  rw [BitVec.getLsbD_append]
  by_cases h : i < 5
  · simp [h]
  · simp only [h, cond_false, BitVec.getLsbD_extractLsb', decide_false]
    rw [show 5 + (i - 5) = i by omega]
    simp; omega

/-! ### Decoding what the encoder wrote -/

theorem decode_of {x0 : W32} {w : W0} {rest : List W32} {i : Instr} (hw : unpackW0 x0 = w)
    (hd : decodeWords w (rest.getD 0 0) (rest.getD 1 0) (rest.getD 2 0) = .ok i) (hl : w.len ≤ rest.length) :
    decode (x0 :: rest) = .ok (i, w.len + 1) := by
  unfold decode
  simp only [hw, hd]
  exact if_neg (Nat.not_lt.mpr hl)

theorem encode_of {i : Instr} {w : W0} {ws : List W32} (hp : encodeParts i = some (w, ws)) :
    encode i = packW0 w :: ws := by
  unfold encode; rw [hp]
theorem words_of {i : Instr} {w : W0} {ws : List W32} (hp : encodeParts i = some (w, ws)) : i.words = w.len + 1 := by
  unfold Instr.words; rw [hp]

/-- Decoding the words of an instruction, with any words behind them, is decoding their fields. -/
theorem decode_encode {i : Instr} {w : W0} {ws rest : List W32} (hp : encodeParts i = some (w, ws)) (h1 : w.len < 4)
    (h2 : w.op < 256) (h3 : w.fn < 64) (hl : ws.length = w.len)
    (hd : decodeWords w ((ws ++ rest).getD 0 0) ((ws ++ rest).getD 1 0) ((ws ++ rest).getD 2 0) = .ok i) :
    decode (encode i ++ rest) = .ok (i, i.words) := by
  rw [encode_of hp, words_of hp, List.cons_append]
  exact decode_of (unpackW0_packW0 w h1 h2 h3) hd (by rw [List.length_append, hl]; exact Nat.le_add_right _ _)

/-- An instruction whose checks all pass. -/
theorem finish_ok {w : W0} {n : Nat} {cs : List (Nat × Nat × Bool)} {i j : Instr} (hl : w.len = n) (hi : i = j)
    (hc : firstBad cs = none) : finish w n cs i = .ok j := by
  rw [finish, if_neg (by simp [hl]), hc, hi]

theorem decodeWords_00 {w : W0} (x y z : W32) (h : w.op = 0x00) : decodeWords w x y z = decodeOp00 w x y z := by
  unfold decodeWords; simp only [h]
theorem decodeWords_01 {w : W0} (x y z : W32) (h : w.op = 0x01) : decodeWords w x y z = decodeOp01 w x y z := by
  unfold decodeWords; simp only [h]
theorem decodeWords_20 {w : W0} (x y z : W32) (h : w.op = 0x20) : decodeWords w x y z = decodeOp20 w x y z := by
  unfold decodeWords; simp only [h]
theorem decodeWords_21 {w : W0} (x y z : W32) (h : w.op = 0x21) : decodeWords w x y z = decodeOp21 w x y z := by
  unfold decodeWords; simp only [h]
theorem decodeWords_22 {w : W0} (x y z : W32) (h : w.op = 0x22) : decodeWords w x y z = decodeOp22 w x y z := by
  unfold decodeWords; simp only [h]
theorem decodeWords_40 {w : W0} (x y z : W32) (h : w.op = 0x40) : decodeWords w x y z = decodeOp40 w x y z := by
  unfold decodeWords; simp only [h]
theorem decodeWords_41 {w : W0} (x y z : W32) (h : w.op = 0x41) : decodeWords w x y z = decodeOp41 w x y z := by
  unfold decodeWords; simp only [h]
theorem decodeWords_42 {w : W0} (x y z : W32) (h : w.op = 0x42) : decodeWords w x y z = decodeOp42 w x y z := by
  unfold decodeWords; simp only [h]
theorem decodeWords_43 {w : W0} (x y z : W32) (h : w.op = 0x43) : decodeWords w x y z = decodeOp43 w x y z := by
  unfold decodeWords; simp only [h]
theorem decodeWords_44 {w : W0} (x y z : W32) (h : w.op = 0x44) : decodeWords w x y z = decodeOp44 w x y z := by
  unfold decodeWords; simp only [h]
theorem decodeWords_45 {w : W0} (x y z : W32) (h : w.op = 0x45) : decodeWords w x y z = decodeOp45 w x y z := by
  unfold decodeWords; simp only [h]
theorem decodeWords_60 {w : W0} (x y z : W32) (h : w.op = 0x60) : decodeWords w x y z = decodeOp60 w x y z := by
  unfold decodeWords; simp only [h]
theorem decodeWords_61 {w : W0} (x y z : W32) (h : w.op = 0x61) : decodeWords w x y z = decodeOp61 w x y z := by
  unfold decodeWords; simp only [h]
theorem decodeWords_62 {w : W0} (x y z : W32) (h : w.op = 0x62) : decodeWords w x y z = decodeOp62 w x y z := by
  unfold decodeWords; simp only [h]
theorem decodeWords_80 {w : W0} (x y z : W32) (h : w.op = 0x80) : decodeWords w x y z = decodeOp80 w x y z := by
  unfold decodeWords; simp only [h]
theorem decodeWords_81 {w : W0} (x y z : W32) (h : w.op = 0x81) : decodeWords w x y z = decodeOp81 w x y z := by
  unfold decodeWords; simp only [h]
theorem decodeWords_82 {w : W0} (x y z : W32) (h : w.op = 0x82) : decodeWords w x y z = decodeOp82 w x y z := by
  unfold decodeWords; simp only [h]
theorem decodeWords_83 {w : W0} (x y z : W32) (h : w.op = 0x83) : decodeWords w x y z = decodeOp83 w x y z := by
  unfold decodeWords; simp only [h]
theorem decodeWords_84 {w : W0} (x y z : W32) (h : w.op = 0x84) : decodeWords w x y z = decodeOp84 w x y z := by
  unfold decodeWords; simp only [h]
theorem decodeWords_85 {w : W0} (x y z : W32) (h : w.op = 0x85) : decodeWords w x y z = decodeOp85 w x y z := by
  unfold decodeWords; simp only [h]
theorem decodeWords_A0 {w : W0} (x y z : W32) (h : w.op = 0xA0) : decodeWords w x y z = decodeOpA0 w x y z := by
  unfold decodeWords; simp only [h]
theorem decodeWords_A1 {w : W0} (x y z : W32) (h : w.op = 0xA1) : decodeWords w x y z = decodeOpA1 w x y z := by
  unfold decodeWords; simp only [h]
theorem decodeWords_C0 {w : W0} (x y z : W32) (h : w.op = 0xC0) : decodeWords w x y z = decodeOpC0 w x y z := by
  unfold decodeWords; simp only [h]
theorem decodeWords_C1 {w : W0} (x y z : W32) (h : w.op = 0xC1) : decodeWords w x y z = decodeOpC1 w x y z := by
  unfold decodeWords; simp only [h]
theorem decodeWords_C2 {w : W0} (x y z : W32) (h : w.op = 0xC2) : decodeWords w x y z = decodeOpC2 w x y z := by
  unfold decodeWords; simp only [h]
theorem decodeWords_C3 {w : W0} (x y z : W32) (h : w.op = 0xC3) : decodeWords w x y z = decodeOpC3 w x y z := by
  unfold decodeWords; simp only [h]
theorem decodeWords_E0 {w : W0} (x y z : W32) (h : w.op = 0xE0) : decodeWords w x y z = decodeOpE0 w x y z := by
  unfold decodeWords; simp only [h]
theorem decodeWords_E1 {w : W0} (x y z : W32) (h : w.op = 0xE1) : decodeWords w x y z = decodeOpE1 w x y z := by
  unfold decodeWords; simp only [h]
theorem decodeWords_E2 {w : W0} (x y z : W32) (h : w.op = 0xE2) : decodeWords w x y z = decodeOpE2 w x y z := by
  unfold decodeWords; simp only [h]
theorem decodeWords_E3 {w : W0} (x y z : W32) (h : w.op = 0xE3) : decodeWords w x y z = decodeOpE3 w x y z := by
  unfold decodeWords; simp only [h]
theorem decodeWords_E4 {w : W0} (x y z : W32) (h : w.op = 0xE4) : decodeWords w x y z = decodeOpE4 w x y z := by
  unfold decodeWords; simp only [h]

end Sys2Proof
end

