-- ==== Sys2Proof/Laws/State.lean ====
section
/-! SUPPORT. What each update of the state leaves alone: one lemma for each field and update. -/
set_option Elab.async false
namespace Sys2Proof.Machine

namespace State

@[simp] theorem setCell_clock (s : State) (c : Nat) (x : CellSt) : (s.setCell c x).clock = s.clock := rfl
@[simp] theorem setCell_agenda (s : State) (c : Nat) (x : CellSt) : (s.setCell c x).agenda = s.agenda := rfl
@[simp] theorem setCell_cell (s : State) (c : Nat) (x : CellSt) : (s.setCell c x).cell = s.cell := rfl
@[simp] theorem setCell_fid (s : State) (c : Nat) (x : CellSt) : (s.setCell c x).fid = s.fid := rfl
@[simp] theorem setCell_free (s : State) (c : Nat) (x : CellSt) : (s.setCell c x).free = s.free := rfl
@[simp] theorem setCell_sectors (s : State) (c : Nat) (x : CellSt) : (s.setCell c x).sectors = s.sectors := rfl
@[simp] theorem setCell_owners (s : State) (c : Nat) (x : CellSt) : (s.setCell c x).owners = s.owners := rfl
@[simp] theorem setCell_dies (s : State) (c : Nat) (x : CellSt) : (s.setCell c x).dies = s.dies := rfl
@[simp] theorem setCell_banks (s : State) (c : Nat) (x : CellSt) : (s.setCell c x).banks = s.banks := rfl
@[simp] theorem setCell_mem (s : State) (c : Nat) (x : CellSt) : (s.setCell c x).mem = s.mem := rfl
@[simp] theorem setCell_range (s : State) (c : Nat) (x : CellSt) : (s.setCell c x).range = s.range := rfl
@[simp] theorem setCell_asids (s : State) (c : Nat) (x : CellSt) : (s.setCell c x).asids = s.asids := rfl
@[simp] theorem setCell_qcur (s : State) (c : Nat) (x : CellSt) : (s.setCell c x).qcur = s.qcur := rfl
@[simp] theorem setCell_htbase (s : State) (c : Nat) (x : CellSt) : (s.setCell c x).htbase = s.htbase := rfl
@[simp] theorem setCell_htlen (s : State) (c : Nat) (x : CellSt) : (s.setCell c x).htlen = s.htlen := rfl
@[simp] theorem setCell_dbtab (s : State) (c : Nat) (x : CellSt) : (s.setCell c x).dbtab = s.dbtab := rfl
@[simp] theorem setCell_ltab (s : State) (c : Nat) (x : CellSt) : (s.setCell c x).ltab = s.ltab := rfl
@[simp] theorem setCell_commtab (s : State) (c : Nat) (x : CellSt) : (s.setCell c x).commtab = s.commtab := rfl
@[simp] theorem setCell_netcfg (s : State) (c : Nat) (x : CellSt) : (s.setCell c x).netcfg = s.netcfg := rfl
@[simp] theorem setCell_pool (s : State) (c : Nat) (x : CellSt) : (s.setCell c x).pool = s.pool := rfl
@[simp] theorem setCell_fring (s : State) (c : Nat) (x : CellSt) : (s.setCell c x).fring = s.fring := rfl
@[simp] theorem setCell_fidx (s : State) (c : Nat) (x : CellSt) : (s.setCell c x).fidx = s.fidx := rfl
@[simp] theorem setCell_queues (s : State) (c : Nat) (x : CellSt) : (s.setCell c x).queues = s.queues := rfl
@[simp] theorem setCell_parks (s : State) (c : Nat) (x : CellSt) : (s.setCell c x).parks = s.parks := rfl
@[simp] theorem setCell_bundles (s : State) (c : Nat) (x : CellSt) : (s.setCell c x).bundles = s.bundles := rfl
@[simp] theorem setCell_bundleN (s : State) (c : Nat) (x : CellSt) : (s.setCell c x).bundleN = s.bundleN := rfl
@[simp] theorem setCell_nets (s : State) (c : Nat) (x : CellSt) : (s.setCell c x).nets = s.nets := rfl
@[simp] theorem setCell_bars (s : State) (c : Nat) (x : CellSt) : (s.setCell c x).bars = s.bars := rfl
@[simp] theorem setCell_flights (s : State) (c : Nat) (x : CellSt) : (s.setCell c x).flights = s.flights := rfl
@[simp] theorem setCell_credits (s : State) (c : Nat) (x : CellSt) : (s.setCell c x).credits = s.credits := rfl
@[simp] theorem setCell_posts (s : State) (c : Nat) (x : CellSt) : (s.setCell c x).posts = s.posts := rfl
@[simp] theorem setCell_postN (s : State) (c : Nat) (x : CellSt) : (s.setCell c x).postN = s.postN := rfl
@[simp] theorem setCell_colls (s : State) (c : Nat) (x : CellSt) : (s.setCell c x).colls = s.colls := rfl
@[simp] theorem setCell_wheel (s : State) (c : Nat) (x : CellSt) : (s.setCell c x).wheel = s.wheel := rfl
@[simp] theorem setCell_saves (s : State) (c : Nat) (x : CellSt) : (s.setCell c x).saves = s.saves := rfl
@[simp] theorem setCell_link (s : State) (c : Nat) (x : CellSt) : (s.setCell c x).link = s.link := rfl
@[simp] theorem setCell_pcie (s : State) (c : Nat) (x : CellSt) : (s.setCell c x).pcie = s.pcie := rfl
@[simp] theorem setCell_ports (s : State) (c : Nat) (x : CellSt) : (s.setCell c x).ports = s.ports := rfl
@[simp] theorem setCell_peers (s : State) (c : Nat) (x : CellSt) : (s.setCell c x).peers = s.peers := rfl
@[simp] theorem setCell_sending (s : State) (c : Nat) (x : CellSt) : (s.setCell c x).sending = s.sending := rfl
@[simp] theorem setCell_mgmt (s : State) (c : Nat) (x : CellSt) : (s.setCell c x).mgmt = s.mgmt := rfl
@[simp] theorem setCell_outbox (s : State) (c : Nat) (x : CellSt) : (s.setCell c x).outbox = s.outbox := rfl
@[simp] theorem setCell_late (s : State) (c : Nat) (x : CellSt) : (s.setCell c x).late = s.late := rfl
@[simp] theorem setCell_stores (s : State) (c : Nat) (x : CellSt) : (s.setCell c x).stores = s.stores := rfl
@[simp] theorem setCell_past (s : State) (c : Nat) (x : CellSt) : (s.setCell c x).past = s.past := rfl
@[simp] theorem setCell_served (s : State) (c : Nat) (x : CellSt) : (s.setCell c x).served = s.served := rfl
@[simp] theorem setCell_due (s : State) (c : Nat) (x : CellSt) : (s.setCell c x).due = s.due := rfl
@[simp] theorem setCell_wlog (s : State) (c : Nat) (x : CellSt) : (s.setCell c x).wlog = s.wlog := rfl
@[simp] theorem setCell_credited (s : State) (c : Nat) (x : CellSt) : (s.setCell c x).credited = s.credited := rfl
@[simp] theorem setCell_ringRel (s : State) (c : Nat) (x : CellSt) : (s.setCell c x).ringRel = s.ringRel := rfl
@[simp] theorem setCell_incoming (s : State) (c : Nat) (x : CellSt) : (s.setCell c x).incoming = s.incoming := rfl
@[simp] theorem setCell_account (s : State) (c : Nat) (x : CellSt) : (s.setCell c x).account = s.account := rfl

@[simp] theorem modCell_clock (s : State) (c : Nat) (f : CellSt → CellSt) : (s.modCell c f).clock = s.clock := rfl
@[simp] theorem modCell_agenda (s : State) (c : Nat) (f : CellSt → CellSt) : (s.modCell c f).agenda = s.agenda := rfl
@[simp] theorem modCell_cell (s : State) (c : Nat) (f : CellSt → CellSt) : (s.modCell c f).cell = s.cell := rfl
@[simp] theorem modCell_fid (s : State) (c : Nat) (f : CellSt → CellSt) : (s.modCell c f).fid = s.fid := rfl
@[simp] theorem modCell_free (s : State) (c : Nat) (f : CellSt → CellSt) : (s.modCell c f).free = s.free := rfl
@[simp] theorem modCell_sectors (s : State) (c : Nat) (f : CellSt → CellSt) : (s.modCell c f).sectors = s.sectors := rfl
@[simp] theorem modCell_owners (s : State) (c : Nat) (f : CellSt → CellSt) : (s.modCell c f).owners = s.owners := rfl
@[simp] theorem modCell_dies (s : State) (c : Nat) (f : CellSt → CellSt) : (s.modCell c f).dies = s.dies := rfl
@[simp] theorem modCell_banks (s : State) (c : Nat) (f : CellSt → CellSt) : (s.modCell c f).banks = s.banks := rfl
@[simp] theorem modCell_mem (s : State) (c : Nat) (f : CellSt → CellSt) : (s.modCell c f).mem = s.mem := rfl
@[simp] theorem modCell_range (s : State) (c : Nat) (f : CellSt → CellSt) : (s.modCell c f).range = s.range := rfl
@[simp] theorem modCell_asids (s : State) (c : Nat) (f : CellSt → CellSt) : (s.modCell c f).asids = s.asids := rfl
@[simp] theorem modCell_qcur (s : State) (c : Nat) (f : CellSt → CellSt) : (s.modCell c f).qcur = s.qcur := rfl
@[simp] theorem modCell_htbase (s : State) (c : Nat) (f : CellSt → CellSt) : (s.modCell c f).htbase = s.htbase := rfl
@[simp] theorem modCell_htlen (s : State) (c : Nat) (f : CellSt → CellSt) : (s.modCell c f).htlen = s.htlen := rfl
@[simp] theorem modCell_dbtab (s : State) (c : Nat) (f : CellSt → CellSt) : (s.modCell c f).dbtab = s.dbtab := rfl
@[simp] theorem modCell_ltab (s : State) (c : Nat) (f : CellSt → CellSt) : (s.modCell c f).ltab = s.ltab := rfl
@[simp] theorem modCell_commtab (s : State) (c : Nat) (f : CellSt → CellSt) : (s.modCell c f).commtab = s.commtab := rfl
@[simp] theorem modCell_netcfg (s : State) (c : Nat) (f : CellSt → CellSt) : (s.modCell c f).netcfg = s.netcfg := rfl
@[simp] theorem modCell_pool (s : State) (c : Nat) (f : CellSt → CellSt) : (s.modCell c f).pool = s.pool := rfl
@[simp] theorem modCell_fring (s : State) (c : Nat) (f : CellSt → CellSt) : (s.modCell c f).fring = s.fring := rfl
@[simp] theorem modCell_fidx (s : State) (c : Nat) (f : CellSt → CellSt) : (s.modCell c f).fidx = s.fidx := rfl
@[simp] theorem modCell_queues (s : State) (c : Nat) (f : CellSt → CellSt) : (s.modCell c f).queues = s.queues := rfl
@[simp] theorem modCell_parks (s : State) (c : Nat) (f : CellSt → CellSt) : (s.modCell c f).parks = s.parks := rfl
@[simp] theorem modCell_bundles (s : State) (c : Nat) (f : CellSt → CellSt) : (s.modCell c f).bundles = s.bundles := rfl
@[simp] theorem modCell_bundleN (s : State) (c : Nat) (f : CellSt → CellSt) : (s.modCell c f).bundleN = s.bundleN := rfl
@[simp] theorem modCell_nets (s : State) (c : Nat) (f : CellSt → CellSt) : (s.modCell c f).nets = s.nets := rfl
@[simp] theorem modCell_bars (s : State) (c : Nat) (f : CellSt → CellSt) : (s.modCell c f).bars = s.bars := rfl
@[simp] theorem modCell_flights (s : State) (c : Nat) (f : CellSt → CellSt) : (s.modCell c f).flights = s.flights := rfl
@[simp] theorem modCell_credits (s : State) (c : Nat) (f : CellSt → CellSt) : (s.modCell c f).credits = s.credits := rfl
@[simp] theorem modCell_posts (s : State) (c : Nat) (f : CellSt → CellSt) : (s.modCell c f).posts = s.posts := rfl
@[simp] theorem modCell_postN (s : State) (c : Nat) (f : CellSt → CellSt) : (s.modCell c f).postN = s.postN := rfl
@[simp] theorem modCell_colls (s : State) (c : Nat) (f : CellSt → CellSt) : (s.modCell c f).colls = s.colls := rfl
@[simp] theorem modCell_wheel (s : State) (c : Nat) (f : CellSt → CellSt) : (s.modCell c f).wheel = s.wheel := rfl
@[simp] theorem modCell_saves (s : State) (c : Nat) (f : CellSt → CellSt) : (s.modCell c f).saves = s.saves := rfl
@[simp] theorem modCell_link (s : State) (c : Nat) (f : CellSt → CellSt) : (s.modCell c f).link = s.link := rfl
@[simp] theorem modCell_pcie (s : State) (c : Nat) (f : CellSt → CellSt) : (s.modCell c f).pcie = s.pcie := rfl
@[simp] theorem modCell_ports (s : State) (c : Nat) (f : CellSt → CellSt) : (s.modCell c f).ports = s.ports := rfl
@[simp] theorem modCell_peers (s : State) (c : Nat) (f : CellSt → CellSt) : (s.modCell c f).peers = s.peers := rfl
@[simp] theorem modCell_sending (s : State) (c : Nat) (f : CellSt → CellSt) : (s.modCell c f).sending = s.sending := rfl
@[simp] theorem modCell_mgmt (s : State) (c : Nat) (f : CellSt → CellSt) : (s.modCell c f).mgmt = s.mgmt := rfl
@[simp] theorem modCell_outbox (s : State) (c : Nat) (f : CellSt → CellSt) : (s.modCell c f).outbox = s.outbox := rfl
@[simp] theorem modCell_late (s : State) (c : Nat) (f : CellSt → CellSt) : (s.modCell c f).late = s.late := rfl
@[simp] theorem modCell_stores (s : State) (c : Nat) (f : CellSt → CellSt) : (s.modCell c f).stores = s.stores := rfl
@[simp] theorem modCell_past (s : State) (c : Nat) (f : CellSt → CellSt) : (s.modCell c f).past = s.past := rfl
@[simp] theorem modCell_served (s : State) (c : Nat) (f : CellSt → CellSt) : (s.modCell c f).served = s.served := rfl
@[simp] theorem modCell_due (s : State) (c : Nat) (f : CellSt → CellSt) : (s.modCell c f).due = s.due := rfl
@[simp] theorem modCell_wlog (s : State) (c : Nat) (f : CellSt → CellSt) : (s.modCell c f).wlog = s.wlog := rfl
@[simp] theorem modCell_credited (s : State) (c : Nat) (f : CellSt → CellSt) : (s.modCell c f).credited = s.credited := rfl
@[simp] theorem modCell_ringRel (s : State) (c : Nat) (f : CellSt → CellSt) : (s.modCell c f).ringRel = s.ringRel := rfl
@[simp] theorem modCell_incoming (s : State) (c : Nat) (f : CellSt → CellSt) : (s.modCell c f).incoming = s.incoming := rfl
@[simp] theorem modCell_account (s : State) (c : Nat) (f : CellSt → CellSt) : (s.modCell c f).account = s.account := rfl

@[simp] theorem mapCells_clock (s : State) (f : Nat → CellSt → CellSt) : (s.mapCells f).clock = s.clock := rfl
@[simp] theorem mapCells_agenda (s : State) (f : Nat → CellSt → CellSt) : (s.mapCells f).agenda = s.agenda := rfl
@[simp] theorem mapCells_cell (s : State) (f : Nat → CellSt → CellSt) : (s.mapCells f).cell = s.cell := rfl
@[simp] theorem mapCells_fid (s : State) (f : Nat → CellSt → CellSt) : (s.mapCells f).fid = s.fid := rfl
@[simp] theorem mapCells_free (s : State) (f : Nat → CellSt → CellSt) : (s.mapCells f).free = s.free := rfl
@[simp] theorem mapCells_sectors (s : State) (f : Nat → CellSt → CellSt) : (s.mapCells f).sectors = s.sectors := rfl
@[simp] theorem mapCells_owners (s : State) (f : Nat → CellSt → CellSt) : (s.mapCells f).owners = s.owners := rfl
@[simp] theorem mapCells_dies (s : State) (f : Nat → CellSt → CellSt) : (s.mapCells f).dies = s.dies := rfl
@[simp] theorem mapCells_banks (s : State) (f : Nat → CellSt → CellSt) : (s.mapCells f).banks = s.banks := rfl
@[simp] theorem mapCells_mem (s : State) (f : Nat → CellSt → CellSt) : (s.mapCells f).mem = s.mem := rfl
@[simp] theorem mapCells_range (s : State) (f : Nat → CellSt → CellSt) : (s.mapCells f).range = s.range := rfl
@[simp] theorem mapCells_asids (s : State) (f : Nat → CellSt → CellSt) : (s.mapCells f).asids = s.asids := rfl
@[simp] theorem mapCells_qcur (s : State) (f : Nat → CellSt → CellSt) : (s.mapCells f).qcur = s.qcur := rfl
@[simp] theorem mapCells_htbase (s : State) (f : Nat → CellSt → CellSt) : (s.mapCells f).htbase = s.htbase := rfl
@[simp] theorem mapCells_htlen (s : State) (f : Nat → CellSt → CellSt) : (s.mapCells f).htlen = s.htlen := rfl
@[simp] theorem mapCells_dbtab (s : State) (f : Nat → CellSt → CellSt) : (s.mapCells f).dbtab = s.dbtab := rfl
@[simp] theorem mapCells_ltab (s : State) (f : Nat → CellSt → CellSt) : (s.mapCells f).ltab = s.ltab := rfl
@[simp] theorem mapCells_commtab (s : State) (f : Nat → CellSt → CellSt) : (s.mapCells f).commtab = s.commtab := rfl
@[simp] theorem mapCells_netcfg (s : State) (f : Nat → CellSt → CellSt) : (s.mapCells f).netcfg = s.netcfg := rfl
@[simp] theorem mapCells_pool (s : State) (f : Nat → CellSt → CellSt) : (s.mapCells f).pool = s.pool := rfl
@[simp] theorem mapCells_fring (s : State) (f : Nat → CellSt → CellSt) : (s.mapCells f).fring = s.fring := rfl
@[simp] theorem mapCells_fidx (s : State) (f : Nat → CellSt → CellSt) : (s.mapCells f).fidx = s.fidx := rfl
@[simp] theorem mapCells_queues (s : State) (f : Nat → CellSt → CellSt) : (s.mapCells f).queues = s.queues := rfl
@[simp] theorem mapCells_parks (s : State) (f : Nat → CellSt → CellSt) : (s.mapCells f).parks = s.parks := rfl
@[simp] theorem mapCells_bundles (s : State) (f : Nat → CellSt → CellSt) : (s.mapCells f).bundles = s.bundles := rfl
@[simp] theorem mapCells_bundleN (s : State) (f : Nat → CellSt → CellSt) : (s.mapCells f).bundleN = s.bundleN := rfl
@[simp] theorem mapCells_nets (s : State) (f : Nat → CellSt → CellSt) : (s.mapCells f).nets = s.nets := rfl
@[simp] theorem mapCells_bars (s : State) (f : Nat → CellSt → CellSt) : (s.mapCells f).bars = s.bars := rfl
@[simp] theorem mapCells_flights (s : State) (f : Nat → CellSt → CellSt) : (s.mapCells f).flights = s.flights := rfl
@[simp] theorem mapCells_credits (s : State) (f : Nat → CellSt → CellSt) : (s.mapCells f).credits = s.credits := rfl
@[simp] theorem mapCells_posts (s : State) (f : Nat → CellSt → CellSt) : (s.mapCells f).posts = s.posts := rfl
@[simp] theorem mapCells_postN (s : State) (f : Nat → CellSt → CellSt) : (s.mapCells f).postN = s.postN := rfl
@[simp] theorem mapCells_colls (s : State) (f : Nat → CellSt → CellSt) : (s.mapCells f).colls = s.colls := rfl
@[simp] theorem mapCells_wheel (s : State) (f : Nat → CellSt → CellSt) : (s.mapCells f).wheel = s.wheel := rfl
@[simp] theorem mapCells_saves (s : State) (f : Nat → CellSt → CellSt) : (s.mapCells f).saves = s.saves := rfl
@[simp] theorem mapCells_link (s : State) (f : Nat → CellSt → CellSt) : (s.mapCells f).link = s.link := rfl
@[simp] theorem mapCells_pcie (s : State) (f : Nat → CellSt → CellSt) : (s.mapCells f).pcie = s.pcie := rfl
@[simp] theorem mapCells_ports (s : State) (f : Nat → CellSt → CellSt) : (s.mapCells f).ports = s.ports := rfl
@[simp] theorem mapCells_peers (s : State) (f : Nat → CellSt → CellSt) : (s.mapCells f).peers = s.peers := rfl
@[simp] theorem mapCells_sending (s : State) (f : Nat → CellSt → CellSt) : (s.mapCells f).sending = s.sending := rfl
@[simp] theorem mapCells_mgmt (s : State) (f : Nat → CellSt → CellSt) : (s.mapCells f).mgmt = s.mgmt := rfl
@[simp] theorem mapCells_outbox (s : State) (f : Nat → CellSt → CellSt) : (s.mapCells f).outbox = s.outbox := rfl
@[simp] theorem mapCells_late (s : State) (f : Nat → CellSt → CellSt) : (s.mapCells f).late = s.late := rfl
@[simp] theorem mapCells_stores (s : State) (f : Nat → CellSt → CellSt) : (s.mapCells f).stores = s.stores := rfl
@[simp] theorem mapCells_past (s : State) (f : Nat → CellSt → CellSt) : (s.mapCells f).past = s.past := rfl
@[simp] theorem mapCells_served (s : State) (f : Nat → CellSt → CellSt) : (s.mapCells f).served = s.served := rfl
@[simp] theorem mapCells_due (s : State) (f : Nat → CellSt → CellSt) : (s.mapCells f).due = s.due := rfl
@[simp] theorem mapCells_wlog (s : State) (f : Nat → CellSt → CellSt) : (s.mapCells f).wlog = s.wlog := rfl
@[simp] theorem mapCells_credited (s : State) (f : Nat → CellSt → CellSt) : (s.mapCells f).credited = s.credited := rfl
@[simp] theorem mapCells_ringRel (s : State) (f : Nat → CellSt → CellSt) : (s.mapCells f).ringRel = s.ringRel := rfl
@[simp] theorem mapCells_incoming (s : State) (f : Nat → CellSt → CellSt) : (s.mapCells f).incoming = s.incoming := rfl
@[simp] theorem mapCells_account (s : State) (f : Nat → CellSt → CellSt) : (s.mapCells f).account = s.account := rfl

@[simp] theorem modSlot_clock (s : State) (c k : Nat) (f : Ctx → Ctx) : (s.modSlot c k f).clock = s.clock := rfl
@[simp] theorem modSlot_agenda (s : State) (c k : Nat) (f : Ctx → Ctx) : (s.modSlot c k f).agenda = s.agenda := rfl
@[simp] theorem modSlot_cell (s : State) (c k : Nat) (f : Ctx → Ctx) : (s.modSlot c k f).cell = s.cell := rfl
@[simp] theorem modSlot_fid (s : State) (c k : Nat) (f : Ctx → Ctx) : (s.modSlot c k f).fid = s.fid := rfl
@[simp] theorem modSlot_free (s : State) (c k : Nat) (f : Ctx → Ctx) : (s.modSlot c k f).free = s.free := rfl
@[simp] theorem modSlot_sectors (s : State) (c k : Nat) (f : Ctx → Ctx) : (s.modSlot c k f).sectors = s.sectors := rfl
@[simp] theorem modSlot_owners (s : State) (c k : Nat) (f : Ctx → Ctx) : (s.modSlot c k f).owners = s.owners := rfl
@[simp] theorem modSlot_dies (s : State) (c k : Nat) (f : Ctx → Ctx) : (s.modSlot c k f).dies = s.dies := rfl
@[simp] theorem modSlot_banks (s : State) (c k : Nat) (f : Ctx → Ctx) : (s.modSlot c k f).banks = s.banks := rfl
@[simp] theorem modSlot_mem (s : State) (c k : Nat) (f : Ctx → Ctx) : (s.modSlot c k f).mem = s.mem := rfl
@[simp] theorem modSlot_range (s : State) (c k : Nat) (f : Ctx → Ctx) : (s.modSlot c k f).range = s.range := rfl
@[simp] theorem modSlot_asids (s : State) (c k : Nat) (f : Ctx → Ctx) : (s.modSlot c k f).asids = s.asids := rfl
@[simp] theorem modSlot_qcur (s : State) (c k : Nat) (f : Ctx → Ctx) : (s.modSlot c k f).qcur = s.qcur := rfl
@[simp] theorem modSlot_htbase (s : State) (c k : Nat) (f : Ctx → Ctx) : (s.modSlot c k f).htbase = s.htbase := rfl
@[simp] theorem modSlot_htlen (s : State) (c k : Nat) (f : Ctx → Ctx) : (s.modSlot c k f).htlen = s.htlen := rfl
@[simp] theorem modSlot_dbtab (s : State) (c k : Nat) (f : Ctx → Ctx) : (s.modSlot c k f).dbtab = s.dbtab := rfl
@[simp] theorem modSlot_ltab (s : State) (c k : Nat) (f : Ctx → Ctx) : (s.modSlot c k f).ltab = s.ltab := rfl
@[simp] theorem modSlot_commtab (s : State) (c k : Nat) (f : Ctx → Ctx) : (s.modSlot c k f).commtab = s.commtab := rfl
@[simp] theorem modSlot_netcfg (s : State) (c k : Nat) (f : Ctx → Ctx) : (s.modSlot c k f).netcfg = s.netcfg := rfl
@[simp] theorem modSlot_pool (s : State) (c k : Nat) (f : Ctx → Ctx) : (s.modSlot c k f).pool = s.pool := rfl
@[simp] theorem modSlot_fring (s : State) (c k : Nat) (f : Ctx → Ctx) : (s.modSlot c k f).fring = s.fring := rfl
@[simp] theorem modSlot_fidx (s : State) (c k : Nat) (f : Ctx → Ctx) : (s.modSlot c k f).fidx = s.fidx := rfl
@[simp] theorem modSlot_queues (s : State) (c k : Nat) (f : Ctx → Ctx) : (s.modSlot c k f).queues = s.queues := rfl
@[simp] theorem modSlot_parks (s : State) (c k : Nat) (f : Ctx → Ctx) : (s.modSlot c k f).parks = s.parks := rfl
@[simp] theorem modSlot_bundles (s : State) (c k : Nat) (f : Ctx → Ctx) : (s.modSlot c k f).bundles = s.bundles := rfl
@[simp] theorem modSlot_bundleN (s : State) (c k : Nat) (f : Ctx → Ctx) : (s.modSlot c k f).bundleN = s.bundleN := rfl
@[simp] theorem modSlot_nets (s : State) (c k : Nat) (f : Ctx → Ctx) : (s.modSlot c k f).nets = s.nets := rfl
@[simp] theorem modSlot_bars (s : State) (c k : Nat) (f : Ctx → Ctx) : (s.modSlot c k f).bars = s.bars := rfl
@[simp] theorem modSlot_flights (s : State) (c k : Nat) (f : Ctx → Ctx) : (s.modSlot c k f).flights = s.flights := rfl
@[simp] theorem modSlot_credits (s : State) (c k : Nat) (f : Ctx → Ctx) : (s.modSlot c k f).credits = s.credits := rfl
@[simp] theorem modSlot_posts (s : State) (c k : Nat) (f : Ctx → Ctx) : (s.modSlot c k f).posts = s.posts := rfl
@[simp] theorem modSlot_postN (s : State) (c k : Nat) (f : Ctx → Ctx) : (s.modSlot c k f).postN = s.postN := rfl
@[simp] theorem modSlot_colls (s : State) (c k : Nat) (f : Ctx → Ctx) : (s.modSlot c k f).colls = s.colls := rfl
@[simp] theorem modSlot_wheel (s : State) (c k : Nat) (f : Ctx → Ctx) : (s.modSlot c k f).wheel = s.wheel := rfl
@[simp] theorem modSlot_saves (s : State) (c k : Nat) (f : Ctx → Ctx) : (s.modSlot c k f).saves = s.saves := rfl
@[simp] theorem modSlot_link (s : State) (c k : Nat) (f : Ctx → Ctx) : (s.modSlot c k f).link = s.link := rfl
@[simp] theorem modSlot_pcie (s : State) (c k : Nat) (f : Ctx → Ctx) : (s.modSlot c k f).pcie = s.pcie := rfl
@[simp] theorem modSlot_ports (s : State) (c k : Nat) (f : Ctx → Ctx) : (s.modSlot c k f).ports = s.ports := rfl
@[simp] theorem modSlot_peers (s : State) (c k : Nat) (f : Ctx → Ctx) : (s.modSlot c k f).peers = s.peers := rfl
@[simp] theorem modSlot_sending (s : State) (c k : Nat) (f : Ctx → Ctx) : (s.modSlot c k f).sending = s.sending := rfl
@[simp] theorem modSlot_mgmt (s : State) (c k : Nat) (f : Ctx → Ctx) : (s.modSlot c k f).mgmt = s.mgmt := rfl
@[simp] theorem modSlot_outbox (s : State) (c k : Nat) (f : Ctx → Ctx) : (s.modSlot c k f).outbox = s.outbox := rfl
@[simp] theorem modSlot_late (s : State) (c k : Nat) (f : Ctx → Ctx) : (s.modSlot c k f).late = s.late := rfl
@[simp] theorem modSlot_stores (s : State) (c k : Nat) (f : Ctx → Ctx) : (s.modSlot c k f).stores = s.stores := rfl
@[simp] theorem modSlot_past (s : State) (c k : Nat) (f : Ctx → Ctx) : (s.modSlot c k f).past = s.past := rfl
@[simp] theorem modSlot_served (s : State) (c k : Nat) (f : Ctx → Ctx) : (s.modSlot c k f).served = s.served := rfl
@[simp] theorem modSlot_due (s : State) (c k : Nat) (f : Ctx → Ctx) : (s.modSlot c k f).due = s.due := rfl
@[simp] theorem modSlot_wlog (s : State) (c k : Nat) (f : Ctx → Ctx) : (s.modSlot c k f).wlog = s.wlog := rfl
@[simp] theorem modSlot_credited (s : State) (c k : Nat) (f : Ctx → Ctx) : (s.modSlot c k f).credited = s.credited := rfl
@[simp] theorem modSlot_ringRel (s : State) (c k : Nat) (f : Ctx → Ctx) : (s.modSlot c k f).ringRel = s.ringRel := rfl
@[simp] theorem modSlot_incoming (s : State) (c k : Nat) (f : Ctx → Ctx) : (s.modSlot c k f).incoming = s.incoming := rfl
@[simp] theorem modSlot_account (s : State) (c k : Nat) (f : Ctx → Ctx) : (s.modSlot c k f).account = s.account := rfl

@[simp] theorem modCtx_clock (s : State) (f : Ctx → Ctx) : (s.modCtx f).clock = s.clock := rfl
@[simp] theorem modCtx_agenda (s : State) (f : Ctx → Ctx) : (s.modCtx f).agenda = s.agenda := rfl
@[simp] theorem modCtx_cell (s : State) (f : Ctx → Ctx) : (s.modCtx f).cell = s.cell := rfl
@[simp] theorem modCtx_fid (s : State) (f : Ctx → Ctx) : (s.modCtx f).fid = s.fid := rfl
@[simp] theorem modCtx_free (s : State) (f : Ctx → Ctx) : (s.modCtx f).free = s.free := rfl
@[simp] theorem modCtx_sectors (s : State) (f : Ctx → Ctx) : (s.modCtx f).sectors = s.sectors := rfl
@[simp] theorem modCtx_owners (s : State) (f : Ctx → Ctx) : (s.modCtx f).owners = s.owners := rfl
@[simp] theorem modCtx_dies (s : State) (f : Ctx → Ctx) : (s.modCtx f).dies = s.dies := rfl
@[simp] theorem modCtx_banks (s : State) (f : Ctx → Ctx) : (s.modCtx f).banks = s.banks := rfl
@[simp] theorem modCtx_mem (s : State) (f : Ctx → Ctx) : (s.modCtx f).mem = s.mem := rfl
@[simp] theorem modCtx_range (s : State) (f : Ctx → Ctx) : (s.modCtx f).range = s.range := rfl
@[simp] theorem modCtx_asids (s : State) (f : Ctx → Ctx) : (s.modCtx f).asids = s.asids := rfl
@[simp] theorem modCtx_qcur (s : State) (f : Ctx → Ctx) : (s.modCtx f).qcur = s.qcur := rfl
@[simp] theorem modCtx_htbase (s : State) (f : Ctx → Ctx) : (s.modCtx f).htbase = s.htbase := rfl
@[simp] theorem modCtx_htlen (s : State) (f : Ctx → Ctx) : (s.modCtx f).htlen = s.htlen := rfl
@[simp] theorem modCtx_dbtab (s : State) (f : Ctx → Ctx) : (s.modCtx f).dbtab = s.dbtab := rfl
@[simp] theorem modCtx_ltab (s : State) (f : Ctx → Ctx) : (s.modCtx f).ltab = s.ltab := rfl
@[simp] theorem modCtx_commtab (s : State) (f : Ctx → Ctx) : (s.modCtx f).commtab = s.commtab := rfl
@[simp] theorem modCtx_netcfg (s : State) (f : Ctx → Ctx) : (s.modCtx f).netcfg = s.netcfg := rfl
@[simp] theorem modCtx_pool (s : State) (f : Ctx → Ctx) : (s.modCtx f).pool = s.pool := rfl
@[simp] theorem modCtx_fring (s : State) (f : Ctx → Ctx) : (s.modCtx f).fring = s.fring := rfl
@[simp] theorem modCtx_fidx (s : State) (f : Ctx → Ctx) : (s.modCtx f).fidx = s.fidx := rfl
@[simp] theorem modCtx_queues (s : State) (f : Ctx → Ctx) : (s.modCtx f).queues = s.queues := rfl
@[simp] theorem modCtx_parks (s : State) (f : Ctx → Ctx) : (s.modCtx f).parks = s.parks := rfl
@[simp] theorem modCtx_bundles (s : State) (f : Ctx → Ctx) : (s.modCtx f).bundles = s.bundles := rfl
@[simp] theorem modCtx_bundleN (s : State) (f : Ctx → Ctx) : (s.modCtx f).bundleN = s.bundleN := rfl
@[simp] theorem modCtx_nets (s : State) (f : Ctx → Ctx) : (s.modCtx f).nets = s.nets := rfl
@[simp] theorem modCtx_bars (s : State) (f : Ctx → Ctx) : (s.modCtx f).bars = s.bars := rfl
@[simp] theorem modCtx_flights (s : State) (f : Ctx → Ctx) : (s.modCtx f).flights = s.flights := rfl
@[simp] theorem modCtx_credits (s : State) (f : Ctx → Ctx) : (s.modCtx f).credits = s.credits := rfl
@[simp] theorem modCtx_posts (s : State) (f : Ctx → Ctx) : (s.modCtx f).posts = s.posts := rfl
@[simp] theorem modCtx_postN (s : State) (f : Ctx → Ctx) : (s.modCtx f).postN = s.postN := rfl
@[simp] theorem modCtx_colls (s : State) (f : Ctx → Ctx) : (s.modCtx f).colls = s.colls := rfl
@[simp] theorem modCtx_wheel (s : State) (f : Ctx → Ctx) : (s.modCtx f).wheel = s.wheel := rfl
@[simp] theorem modCtx_saves (s : State) (f : Ctx → Ctx) : (s.modCtx f).saves = s.saves := rfl
@[simp] theorem modCtx_link (s : State) (f : Ctx → Ctx) : (s.modCtx f).link = s.link := rfl
@[simp] theorem modCtx_pcie (s : State) (f : Ctx → Ctx) : (s.modCtx f).pcie = s.pcie := rfl
@[simp] theorem modCtx_ports (s : State) (f : Ctx → Ctx) : (s.modCtx f).ports = s.ports := rfl
@[simp] theorem modCtx_peers (s : State) (f : Ctx → Ctx) : (s.modCtx f).peers = s.peers := rfl
@[simp] theorem modCtx_sending (s : State) (f : Ctx → Ctx) : (s.modCtx f).sending = s.sending := rfl
@[simp] theorem modCtx_mgmt (s : State) (f : Ctx → Ctx) : (s.modCtx f).mgmt = s.mgmt := rfl
@[simp] theorem modCtx_outbox (s : State) (f : Ctx → Ctx) : (s.modCtx f).outbox = s.outbox := rfl
@[simp] theorem modCtx_late (s : State) (f : Ctx → Ctx) : (s.modCtx f).late = s.late := rfl
@[simp] theorem modCtx_stores (s : State) (f : Ctx → Ctx) : (s.modCtx f).stores = s.stores := rfl
@[simp] theorem modCtx_past (s : State) (f : Ctx → Ctx) : (s.modCtx f).past = s.past := rfl
@[simp] theorem modCtx_served (s : State) (f : Ctx → Ctx) : (s.modCtx f).served = s.served := rfl
@[simp] theorem modCtx_due (s : State) (f : Ctx → Ctx) : (s.modCtx f).due = s.due := rfl
@[simp] theorem modCtx_wlog (s : State) (f : Ctx → Ctx) : (s.modCtx f).wlog = s.wlog := rfl
@[simp] theorem modCtx_credited (s : State) (f : Ctx → Ctx) : (s.modCtx f).credited = s.credited := rfl
@[simp] theorem modCtx_ringRel (s : State) (f : Ctx → Ctx) : (s.modCtx f).ringRel = s.ringRel := rfl
@[simp] theorem modCtx_incoming (s : State) (f : Ctx → Ctx) : (s.modCtx f).incoming = s.incoming := rfl
@[simp] theorem modCtx_account (s : State) (f : Ctx → Ctx) : (s.modCtx f).account = s.account := rfl

@[simp] theorem modMe_clock (s : State) (f : Firing → Firing) : (s.modMe f).clock = s.clock := rfl
@[simp] theorem modMe_agenda (s : State) (f : Firing → Firing) : (s.modMe f).agenda = s.agenda := rfl
@[simp] theorem modMe_cell (s : State) (f : Firing → Firing) : (s.modMe f).cell = s.cell := rfl
@[simp] theorem modMe_fid (s : State) (f : Firing → Firing) : (s.modMe f).fid = s.fid := rfl
@[simp] theorem modMe_free (s : State) (f : Firing → Firing) : (s.modMe f).free = s.free := rfl
@[simp] theorem modMe_sectors (s : State) (f : Firing → Firing) : (s.modMe f).sectors = s.sectors := rfl
@[simp] theorem modMe_owners (s : State) (f : Firing → Firing) : (s.modMe f).owners = s.owners := rfl
@[simp] theorem modMe_dies (s : State) (f : Firing → Firing) : (s.modMe f).dies = s.dies := rfl
@[simp] theorem modMe_banks (s : State) (f : Firing → Firing) : (s.modMe f).banks = s.banks := rfl
@[simp] theorem modMe_mem (s : State) (f : Firing → Firing) : (s.modMe f).mem = s.mem := rfl
@[simp] theorem modMe_range (s : State) (f : Firing → Firing) : (s.modMe f).range = s.range := rfl
@[simp] theorem modMe_asids (s : State) (f : Firing → Firing) : (s.modMe f).asids = s.asids := rfl
@[simp] theorem modMe_qcur (s : State) (f : Firing → Firing) : (s.modMe f).qcur = s.qcur := rfl
@[simp] theorem modMe_htbase (s : State) (f : Firing → Firing) : (s.modMe f).htbase = s.htbase := rfl
@[simp] theorem modMe_htlen (s : State) (f : Firing → Firing) : (s.modMe f).htlen = s.htlen := rfl
@[simp] theorem modMe_dbtab (s : State) (f : Firing → Firing) : (s.modMe f).dbtab = s.dbtab := rfl
@[simp] theorem modMe_ltab (s : State) (f : Firing → Firing) : (s.modMe f).ltab = s.ltab := rfl
@[simp] theorem modMe_commtab (s : State) (f : Firing → Firing) : (s.modMe f).commtab = s.commtab := rfl
@[simp] theorem modMe_netcfg (s : State) (f : Firing → Firing) : (s.modMe f).netcfg = s.netcfg := rfl
@[simp] theorem modMe_pool (s : State) (f : Firing → Firing) : (s.modMe f).pool = s.pool := rfl
@[simp] theorem modMe_fring (s : State) (f : Firing → Firing) : (s.modMe f).fring = s.fring := rfl
@[simp] theorem modMe_fidx (s : State) (f : Firing → Firing) : (s.modMe f).fidx = s.fidx := rfl
@[simp] theorem modMe_queues (s : State) (f : Firing → Firing) : (s.modMe f).queues = s.queues := rfl
@[simp] theorem modMe_parks (s : State) (f : Firing → Firing) : (s.modMe f).parks = s.parks := rfl
@[simp] theorem modMe_bundles (s : State) (f : Firing → Firing) : (s.modMe f).bundles = s.bundles := rfl
@[simp] theorem modMe_bundleN (s : State) (f : Firing → Firing) : (s.modMe f).bundleN = s.bundleN := rfl
@[simp] theorem modMe_nets (s : State) (f : Firing → Firing) : (s.modMe f).nets = s.nets := rfl
@[simp] theorem modMe_bars (s : State) (f : Firing → Firing) : (s.modMe f).bars = s.bars := rfl
@[simp] theorem modMe_flights (s : State) (f : Firing → Firing) : (s.modMe f).flights = s.flights := rfl
@[simp] theorem modMe_credits (s : State) (f : Firing → Firing) : (s.modMe f).credits = s.credits := rfl
@[simp] theorem modMe_posts (s : State) (f : Firing → Firing) : (s.modMe f).posts = s.posts := rfl
@[simp] theorem modMe_postN (s : State) (f : Firing → Firing) : (s.modMe f).postN = s.postN := rfl
@[simp] theorem modMe_colls (s : State) (f : Firing → Firing) : (s.modMe f).colls = s.colls := rfl
@[simp] theorem modMe_wheel (s : State) (f : Firing → Firing) : (s.modMe f).wheel = s.wheel := rfl
@[simp] theorem modMe_saves (s : State) (f : Firing → Firing) : (s.modMe f).saves = s.saves := rfl
@[simp] theorem modMe_link (s : State) (f : Firing → Firing) : (s.modMe f).link = s.link := rfl
@[simp] theorem modMe_pcie (s : State) (f : Firing → Firing) : (s.modMe f).pcie = s.pcie := rfl
@[simp] theorem modMe_ports (s : State) (f : Firing → Firing) : (s.modMe f).ports = s.ports := rfl
@[simp] theorem modMe_peers (s : State) (f : Firing → Firing) : (s.modMe f).peers = s.peers := rfl
@[simp] theorem modMe_sending (s : State) (f : Firing → Firing) : (s.modMe f).sending = s.sending := rfl
@[simp] theorem modMe_mgmt (s : State) (f : Firing → Firing) : (s.modMe f).mgmt = s.mgmt := rfl
@[simp] theorem modMe_outbox (s : State) (f : Firing → Firing) : (s.modMe f).outbox = s.outbox := rfl
@[simp] theorem modMe_late (s : State) (f : Firing → Firing) : (s.modMe f).late = s.late := rfl
@[simp] theorem modMe_stores (s : State) (f : Firing → Firing) : (s.modMe f).stores = s.stores := rfl
@[simp] theorem modMe_past (s : State) (f : Firing → Firing) : (s.modMe f).past = s.past := rfl
@[simp] theorem modMe_served (s : State) (f : Firing → Firing) : (s.modMe f).served = s.served := rfl
@[simp] theorem modMe_due (s : State) (f : Firing → Firing) : (s.modMe f).due = s.due := rfl
@[simp] theorem modMe_wlog (s : State) (f : Firing → Firing) : (s.modMe f).wlog = s.wlog := rfl
@[simp] theorem modMe_credited (s : State) (f : Firing → Firing) : (s.modMe f).credited = s.credited := rfl
@[simp] theorem modMe_ringRel (s : State) (f : Firing → Firing) : (s.modMe f).ringRel = s.ringRel := rfl
@[simp] theorem modMe_incoming (s : State) (f : Firing → Firing) : (s.modMe f).incoming = s.incoming := rfl
@[simp] theorem modMe_account (s : State) (f : Firing → Firing) : (s.modMe f).account = s.account := rfl

@[simp] theorem setSector_clock (s : State) (k : Nat) (x : Sector) : (s.setSector k x).clock = s.clock := rfl
@[simp] theorem setSector_agenda (s : State) (k : Nat) (x : Sector) : (s.setSector k x).agenda = s.agenda := rfl
@[simp] theorem setSector_cell (s : State) (k : Nat) (x : Sector) : (s.setSector k x).cell = s.cell := rfl
@[simp] theorem setSector_fid (s : State) (k : Nat) (x : Sector) : (s.setSector k x).fid = s.fid := rfl
@[simp] theorem setSector_free (s : State) (k : Nat) (x : Sector) : (s.setSector k x).free = s.free := rfl
@[simp] theorem setSector_cells (s : State) (k : Nat) (x : Sector) : (s.setSector k x).cells = s.cells := rfl
@[simp] theorem setSector_owners (s : State) (k : Nat) (x : Sector) : (s.setSector k x).owners = s.owners := rfl
@[simp] theorem setSector_dies (s : State) (k : Nat) (x : Sector) : (s.setSector k x).dies = s.dies := rfl
@[simp] theorem setSector_banks (s : State) (k : Nat) (x : Sector) : (s.setSector k x).banks = s.banks := rfl
@[simp] theorem setSector_mem (s : State) (k : Nat) (x : Sector) : (s.setSector k x).mem = s.mem := rfl
@[simp] theorem setSector_range (s : State) (k : Nat) (x : Sector) : (s.setSector k x).range = s.range := rfl
@[simp] theorem setSector_asids (s : State) (k : Nat) (x : Sector) : (s.setSector k x).asids = s.asids := rfl
@[simp] theorem setSector_qcur (s : State) (k : Nat) (x : Sector) : (s.setSector k x).qcur = s.qcur := rfl
@[simp] theorem setSector_htbase (s : State) (k : Nat) (x : Sector) : (s.setSector k x).htbase = s.htbase := rfl
@[simp] theorem setSector_htlen (s : State) (k : Nat) (x : Sector) : (s.setSector k x).htlen = s.htlen := rfl
@[simp] theorem setSector_dbtab (s : State) (k : Nat) (x : Sector) : (s.setSector k x).dbtab = s.dbtab := rfl
@[simp] theorem setSector_ltab (s : State) (k : Nat) (x : Sector) : (s.setSector k x).ltab = s.ltab := rfl
@[simp] theorem setSector_commtab (s : State) (k : Nat) (x : Sector) : (s.setSector k x).commtab = s.commtab := rfl
@[simp] theorem setSector_netcfg (s : State) (k : Nat) (x : Sector) : (s.setSector k x).netcfg = s.netcfg := rfl
@[simp] theorem setSector_pool (s : State) (k : Nat) (x : Sector) : (s.setSector k x).pool = s.pool := rfl
@[simp] theorem setSector_fring (s : State) (k : Nat) (x : Sector) : (s.setSector k x).fring = s.fring := rfl
@[simp] theorem setSector_fidx (s : State) (k : Nat) (x : Sector) : (s.setSector k x).fidx = s.fidx := rfl
@[simp] theorem setSector_queues (s : State) (k : Nat) (x : Sector) : (s.setSector k x).queues = s.queues := rfl
@[simp] theorem setSector_parks (s : State) (k : Nat) (x : Sector) : (s.setSector k x).parks = s.parks := rfl
@[simp] theorem setSector_bundles (s : State) (k : Nat) (x : Sector) : (s.setSector k x).bundles = s.bundles := rfl
@[simp] theorem setSector_bundleN (s : State) (k : Nat) (x : Sector) : (s.setSector k x).bundleN = s.bundleN := rfl
@[simp] theorem setSector_nets (s : State) (k : Nat) (x : Sector) : (s.setSector k x).nets = s.nets := rfl
@[simp] theorem setSector_bars (s : State) (k : Nat) (x : Sector) : (s.setSector k x).bars = s.bars := rfl
@[simp] theorem setSector_flights (s : State) (k : Nat) (x : Sector) : (s.setSector k x).flights = s.flights := rfl
@[simp] theorem setSector_credits (s : State) (k : Nat) (x : Sector) : (s.setSector k x).credits = s.credits := rfl
@[simp] theorem setSector_posts (s : State) (k : Nat) (x : Sector) : (s.setSector k x).posts = s.posts := rfl
@[simp] theorem setSector_postN (s : State) (k : Nat) (x : Sector) : (s.setSector k x).postN = s.postN := rfl
@[simp] theorem setSector_colls (s : State) (k : Nat) (x : Sector) : (s.setSector k x).colls = s.colls := rfl
@[simp] theorem setSector_wheel (s : State) (k : Nat) (x : Sector) : (s.setSector k x).wheel = s.wheel := rfl
@[simp] theorem setSector_saves (s : State) (k : Nat) (x : Sector) : (s.setSector k x).saves = s.saves := rfl
@[simp] theorem setSector_link (s : State) (k : Nat) (x : Sector) : (s.setSector k x).link = s.link := rfl
@[simp] theorem setSector_pcie (s : State) (k : Nat) (x : Sector) : (s.setSector k x).pcie = s.pcie := rfl
@[simp] theorem setSector_ports (s : State) (k : Nat) (x : Sector) : (s.setSector k x).ports = s.ports := rfl
@[simp] theorem setSector_peers (s : State) (k : Nat) (x : Sector) : (s.setSector k x).peers = s.peers := rfl
@[simp] theorem setSector_sending (s : State) (k : Nat) (x : Sector) : (s.setSector k x).sending = s.sending := rfl
@[simp] theorem setSector_mgmt (s : State) (k : Nat) (x : Sector) : (s.setSector k x).mgmt = s.mgmt := rfl
@[simp] theorem setSector_outbox (s : State) (k : Nat) (x : Sector) : (s.setSector k x).outbox = s.outbox := rfl
@[simp] theorem setSector_late (s : State) (k : Nat) (x : Sector) : (s.setSector k x).late = s.late := rfl
@[simp] theorem setSector_stores (s : State) (k : Nat) (x : Sector) : (s.setSector k x).stores = s.stores := rfl
@[simp] theorem setSector_past (s : State) (k : Nat) (x : Sector) : (s.setSector k x).past = s.past := rfl
@[simp] theorem setSector_served (s : State) (k : Nat) (x : Sector) : (s.setSector k x).served = s.served := rfl
@[simp] theorem setSector_due (s : State) (k : Nat) (x : Sector) : (s.setSector k x).due = s.due := rfl
@[simp] theorem setSector_wlog (s : State) (k : Nat) (x : Sector) : (s.setSector k x).wlog = s.wlog := rfl
@[simp] theorem setSector_credited (s : State) (k : Nat) (x : Sector) : (s.setSector k x).credited = s.credited := rfl
@[simp] theorem setSector_ringRel (s : State) (k : Nat) (x : Sector) : (s.setSector k x).ringRel = s.ringRel := rfl
@[simp] theorem setSector_incoming (s : State) (k : Nat) (x : Sector) : (s.setSector k x).incoming = s.incoming := rfl
@[simp] theorem setSector_account (s : State) (k : Nat) (x : Sector) : (s.setSector k x).account = s.account := rfl

@[simp] theorem modSector_clock (s : State) (k : Nat) (f : Sector → Sector) : (s.modSector k f).clock = s.clock := rfl
@[simp] theorem modSector_agenda (s : State) (k : Nat) (f : Sector → Sector) : (s.modSector k f).agenda = s.agenda := rfl
@[simp] theorem modSector_cell (s : State) (k : Nat) (f : Sector → Sector) : (s.modSector k f).cell = s.cell := rfl
@[simp] theorem modSector_fid (s : State) (k : Nat) (f : Sector → Sector) : (s.modSector k f).fid = s.fid := rfl
@[simp] theorem modSector_free (s : State) (k : Nat) (f : Sector → Sector) : (s.modSector k f).free = s.free := rfl
@[simp] theorem modSector_cells (s : State) (k : Nat) (f : Sector → Sector) : (s.modSector k f).cells = s.cells := rfl
@[simp] theorem modSector_owners (s : State) (k : Nat) (f : Sector → Sector) : (s.modSector k f).owners = s.owners := rfl
@[simp] theorem modSector_dies (s : State) (k : Nat) (f : Sector → Sector) : (s.modSector k f).dies = s.dies := rfl
@[simp] theorem modSector_banks (s : State) (k : Nat) (f : Sector → Sector) : (s.modSector k f).banks = s.banks := rfl
@[simp] theorem modSector_mem (s : State) (k : Nat) (f : Sector → Sector) : (s.modSector k f).mem = s.mem := rfl
@[simp] theorem modSector_range (s : State) (k : Nat) (f : Sector → Sector) : (s.modSector k f).range = s.range := rfl
@[simp] theorem modSector_asids (s : State) (k : Nat) (f : Sector → Sector) : (s.modSector k f).asids = s.asids := rfl
@[simp] theorem modSector_qcur (s : State) (k : Nat) (f : Sector → Sector) : (s.modSector k f).qcur = s.qcur := rfl
@[simp] theorem modSector_htbase (s : State) (k : Nat) (f : Sector → Sector) : (s.modSector k f).htbase = s.htbase := rfl
@[simp] theorem modSector_htlen (s : State) (k : Nat) (f : Sector → Sector) : (s.modSector k f).htlen = s.htlen := rfl
@[simp] theorem modSector_dbtab (s : State) (k : Nat) (f : Sector → Sector) : (s.modSector k f).dbtab = s.dbtab := rfl
@[simp] theorem modSector_ltab (s : State) (k : Nat) (f : Sector → Sector) : (s.modSector k f).ltab = s.ltab := rfl
@[simp] theorem modSector_commtab (s : State) (k : Nat) (f : Sector → Sector) : (s.modSector k f).commtab = s.commtab := rfl
@[simp] theorem modSector_netcfg (s : State) (k : Nat) (f : Sector → Sector) : (s.modSector k f).netcfg = s.netcfg := rfl
@[simp] theorem modSector_pool (s : State) (k : Nat) (f : Sector → Sector) : (s.modSector k f).pool = s.pool := rfl
@[simp] theorem modSector_fring (s : State) (k : Nat) (f : Sector → Sector) : (s.modSector k f).fring = s.fring := rfl
@[simp] theorem modSector_fidx (s : State) (k : Nat) (f : Sector → Sector) : (s.modSector k f).fidx = s.fidx := rfl
@[simp] theorem modSector_queues (s : State) (k : Nat) (f : Sector → Sector) : (s.modSector k f).queues = s.queues := rfl
@[simp] theorem modSector_parks (s : State) (k : Nat) (f : Sector → Sector) : (s.modSector k f).parks = s.parks := rfl
@[simp] theorem modSector_bundles (s : State) (k : Nat) (f : Sector → Sector) : (s.modSector k f).bundles = s.bundles := rfl
@[simp] theorem modSector_bundleN (s : State) (k : Nat) (f : Sector → Sector) : (s.modSector k f).bundleN = s.bundleN := rfl
@[simp] theorem modSector_nets (s : State) (k : Nat) (f : Sector → Sector) : (s.modSector k f).nets = s.nets := rfl
@[simp] theorem modSector_bars (s : State) (k : Nat) (f : Sector → Sector) : (s.modSector k f).bars = s.bars := rfl
@[simp] theorem modSector_flights (s : State) (k : Nat) (f : Sector → Sector) : (s.modSector k f).flights = s.flights := rfl
@[simp] theorem modSector_credits (s : State) (k : Nat) (f : Sector → Sector) : (s.modSector k f).credits = s.credits := rfl
@[simp] theorem modSector_posts (s : State) (k : Nat) (f : Sector → Sector) : (s.modSector k f).posts = s.posts := rfl
@[simp] theorem modSector_postN (s : State) (k : Nat) (f : Sector → Sector) : (s.modSector k f).postN = s.postN := rfl
@[simp] theorem modSector_colls (s : State) (k : Nat) (f : Sector → Sector) : (s.modSector k f).colls = s.colls := rfl
@[simp] theorem modSector_wheel (s : State) (k : Nat) (f : Sector → Sector) : (s.modSector k f).wheel = s.wheel := rfl
@[simp] theorem modSector_saves (s : State) (k : Nat) (f : Sector → Sector) : (s.modSector k f).saves = s.saves := rfl
@[simp] theorem modSector_link (s : State) (k : Nat) (f : Sector → Sector) : (s.modSector k f).link = s.link := rfl
@[simp] theorem modSector_pcie (s : State) (k : Nat) (f : Sector → Sector) : (s.modSector k f).pcie = s.pcie := rfl
@[simp] theorem modSector_ports (s : State) (k : Nat) (f : Sector → Sector) : (s.modSector k f).ports = s.ports := rfl
@[simp] theorem modSector_peers (s : State) (k : Nat) (f : Sector → Sector) : (s.modSector k f).peers = s.peers := rfl
@[simp] theorem modSector_sending (s : State) (k : Nat) (f : Sector → Sector) : (s.modSector k f).sending = s.sending := rfl
@[simp] theorem modSector_mgmt (s : State) (k : Nat) (f : Sector → Sector) : (s.modSector k f).mgmt = s.mgmt := rfl
@[simp] theorem modSector_outbox (s : State) (k : Nat) (f : Sector → Sector) : (s.modSector k f).outbox = s.outbox := rfl
@[simp] theorem modSector_late (s : State) (k : Nat) (f : Sector → Sector) : (s.modSector k f).late = s.late := rfl
@[simp] theorem modSector_stores (s : State) (k : Nat) (f : Sector → Sector) : (s.modSector k f).stores = s.stores := rfl
@[simp] theorem modSector_past (s : State) (k : Nat) (f : Sector → Sector) : (s.modSector k f).past = s.past := rfl
@[simp] theorem modSector_served (s : State) (k : Nat) (f : Sector → Sector) : (s.modSector k f).served = s.served := rfl
@[simp] theorem modSector_due (s : State) (k : Nat) (f : Sector → Sector) : (s.modSector k f).due = s.due := rfl
@[simp] theorem modSector_wlog (s : State) (k : Nat) (f : Sector → Sector) : (s.modSector k f).wlog = s.wlog := rfl
@[simp] theorem modSector_credited (s : State) (k : Nat) (f : Sector → Sector) : (s.modSector k f).credited = s.credited := rfl
@[simp] theorem modSector_ringRel (s : State) (k : Nat) (f : Sector → Sector) : (s.modSector k f).ringRel = s.ringRel := rfl
@[simp] theorem modSector_incoming (s : State) (k : Nat) (f : Sector → Sector) : (s.modSector k f).incoming = s.incoming := rfl
@[simp] theorem modSector_account (s : State) (k : Nat) (f : Sector → Sector) : (s.modSector k f).account = s.account := rfl

@[simp] theorem setOwner_clock (s : State) (o : Nat) (x : Owner) : (s.setOwner o x).clock = s.clock := rfl
@[simp] theorem setOwner_agenda (s : State) (o : Nat) (x : Owner) : (s.setOwner o x).agenda = s.agenda := rfl
@[simp] theorem setOwner_cell (s : State) (o : Nat) (x : Owner) : (s.setOwner o x).cell = s.cell := rfl
@[simp] theorem setOwner_fid (s : State) (o : Nat) (x : Owner) : (s.setOwner o x).fid = s.fid := rfl
@[simp] theorem setOwner_free (s : State) (o : Nat) (x : Owner) : (s.setOwner o x).free = s.free := rfl
@[simp] theorem setOwner_cells (s : State) (o : Nat) (x : Owner) : (s.setOwner o x).cells = s.cells := rfl
@[simp] theorem setOwner_sectors (s : State) (o : Nat) (x : Owner) : (s.setOwner o x).sectors = s.sectors := rfl
@[simp] theorem setOwner_dies (s : State) (o : Nat) (x : Owner) : (s.setOwner o x).dies = s.dies := rfl
@[simp] theorem setOwner_banks (s : State) (o : Nat) (x : Owner) : (s.setOwner o x).banks = s.banks := rfl
@[simp] theorem setOwner_mem (s : State) (o : Nat) (x : Owner) : (s.setOwner o x).mem = s.mem := rfl
@[simp] theorem setOwner_range (s : State) (o : Nat) (x : Owner) : (s.setOwner o x).range = s.range := rfl
@[simp] theorem setOwner_asids (s : State) (o : Nat) (x : Owner) : (s.setOwner o x).asids = s.asids := rfl
@[simp] theorem setOwner_qcur (s : State) (o : Nat) (x : Owner) : (s.setOwner o x).qcur = s.qcur := rfl
@[simp] theorem setOwner_htbase (s : State) (o : Nat) (x : Owner) : (s.setOwner o x).htbase = s.htbase := rfl
@[simp] theorem setOwner_htlen (s : State) (o : Nat) (x : Owner) : (s.setOwner o x).htlen = s.htlen := rfl
@[simp] theorem setOwner_dbtab (s : State) (o : Nat) (x : Owner) : (s.setOwner o x).dbtab = s.dbtab := rfl
@[simp] theorem setOwner_ltab (s : State) (o : Nat) (x : Owner) : (s.setOwner o x).ltab = s.ltab := rfl
@[simp] theorem setOwner_commtab (s : State) (o : Nat) (x : Owner) : (s.setOwner o x).commtab = s.commtab := rfl
@[simp] theorem setOwner_netcfg (s : State) (o : Nat) (x : Owner) : (s.setOwner o x).netcfg = s.netcfg := rfl
@[simp] theorem setOwner_pool (s : State) (o : Nat) (x : Owner) : (s.setOwner o x).pool = s.pool := rfl
@[simp] theorem setOwner_fring (s : State) (o : Nat) (x : Owner) : (s.setOwner o x).fring = s.fring := rfl
@[simp] theorem setOwner_fidx (s : State) (o : Nat) (x : Owner) : (s.setOwner o x).fidx = s.fidx := rfl
@[simp] theorem setOwner_queues (s : State) (o : Nat) (x : Owner) : (s.setOwner o x).queues = s.queues := rfl
@[simp] theorem setOwner_parks (s : State) (o : Nat) (x : Owner) : (s.setOwner o x).parks = s.parks := rfl
@[simp] theorem setOwner_bundles (s : State) (o : Nat) (x : Owner) : (s.setOwner o x).bundles = s.bundles := rfl
@[simp] theorem setOwner_bundleN (s : State) (o : Nat) (x : Owner) : (s.setOwner o x).bundleN = s.bundleN := rfl
@[simp] theorem setOwner_nets (s : State) (o : Nat) (x : Owner) : (s.setOwner o x).nets = s.nets := rfl
@[simp] theorem setOwner_bars (s : State) (o : Nat) (x : Owner) : (s.setOwner o x).bars = s.bars := rfl
@[simp] theorem setOwner_flights (s : State) (o : Nat) (x : Owner) : (s.setOwner o x).flights = s.flights := rfl
@[simp] theorem setOwner_credits (s : State) (o : Nat) (x : Owner) : (s.setOwner o x).credits = s.credits := rfl
@[simp] theorem setOwner_posts (s : State) (o : Nat) (x : Owner) : (s.setOwner o x).posts = s.posts := rfl
@[simp] theorem setOwner_postN (s : State) (o : Nat) (x : Owner) : (s.setOwner o x).postN = s.postN := rfl
@[simp] theorem setOwner_colls (s : State) (o : Nat) (x : Owner) : (s.setOwner o x).colls = s.colls := rfl
@[simp] theorem setOwner_wheel (s : State) (o : Nat) (x : Owner) : (s.setOwner o x).wheel = s.wheel := rfl
@[simp] theorem setOwner_saves (s : State) (o : Nat) (x : Owner) : (s.setOwner o x).saves = s.saves := rfl
@[simp] theorem setOwner_link (s : State) (o : Nat) (x : Owner) : (s.setOwner o x).link = s.link := rfl
@[simp] theorem setOwner_pcie (s : State) (o : Nat) (x : Owner) : (s.setOwner o x).pcie = s.pcie := rfl
@[simp] theorem setOwner_ports (s : State) (o : Nat) (x : Owner) : (s.setOwner o x).ports = s.ports := rfl
@[simp] theorem setOwner_peers (s : State) (o : Nat) (x : Owner) : (s.setOwner o x).peers = s.peers := rfl
@[simp] theorem setOwner_sending (s : State) (o : Nat) (x : Owner) : (s.setOwner o x).sending = s.sending := rfl
@[simp] theorem setOwner_mgmt (s : State) (o : Nat) (x : Owner) : (s.setOwner o x).mgmt = s.mgmt := rfl
@[simp] theorem setOwner_outbox (s : State) (o : Nat) (x : Owner) : (s.setOwner o x).outbox = s.outbox := rfl
@[simp] theorem setOwner_late (s : State) (o : Nat) (x : Owner) : (s.setOwner o x).late = s.late := rfl
@[simp] theorem setOwner_stores (s : State) (o : Nat) (x : Owner) : (s.setOwner o x).stores = s.stores := rfl
@[simp] theorem setOwner_past (s : State) (o : Nat) (x : Owner) : (s.setOwner o x).past = s.past := rfl
@[simp] theorem setOwner_served (s : State) (o : Nat) (x : Owner) : (s.setOwner o x).served = s.served := rfl
@[simp] theorem setOwner_due (s : State) (o : Nat) (x : Owner) : (s.setOwner o x).due = s.due := rfl
@[simp] theorem setOwner_wlog (s : State) (o : Nat) (x : Owner) : (s.setOwner o x).wlog = s.wlog := rfl
@[simp] theorem setOwner_credited (s : State) (o : Nat) (x : Owner) : (s.setOwner o x).credited = s.credited := rfl
@[simp] theorem setOwner_ringRel (s : State) (o : Nat) (x : Owner) : (s.setOwner o x).ringRel = s.ringRel := rfl
@[simp] theorem setOwner_incoming (s : State) (o : Nat) (x : Owner) : (s.setOwner o x).incoming = s.incoming := rfl
@[simp] theorem setOwner_account (s : State) (o : Nat) (x : Owner) : (s.setOwner o x).account = s.account := rfl

@[simp] theorem modOwner_clock (s : State) (o : Nat) (f : Owner → Owner) : (s.modOwner o f).clock = s.clock := rfl
@[simp] theorem modOwner_agenda (s : State) (o : Nat) (f : Owner → Owner) : (s.modOwner o f).agenda = s.agenda := rfl
@[simp] theorem modOwner_cell (s : State) (o : Nat) (f : Owner → Owner) : (s.modOwner o f).cell = s.cell := rfl
@[simp] theorem modOwner_fid (s : State) (o : Nat) (f : Owner → Owner) : (s.modOwner o f).fid = s.fid := rfl
@[simp] theorem modOwner_free (s : State) (o : Nat) (f : Owner → Owner) : (s.modOwner o f).free = s.free := rfl
@[simp] theorem modOwner_cells (s : State) (o : Nat) (f : Owner → Owner) : (s.modOwner o f).cells = s.cells := rfl
@[simp] theorem modOwner_sectors (s : State) (o : Nat) (f : Owner → Owner) : (s.modOwner o f).sectors = s.sectors := rfl
@[simp] theorem modOwner_dies (s : State) (o : Nat) (f : Owner → Owner) : (s.modOwner o f).dies = s.dies := rfl
@[simp] theorem modOwner_banks (s : State) (o : Nat) (f : Owner → Owner) : (s.modOwner o f).banks = s.banks := rfl
@[simp] theorem modOwner_mem (s : State) (o : Nat) (f : Owner → Owner) : (s.modOwner o f).mem = s.mem := rfl
@[simp] theorem modOwner_range (s : State) (o : Nat) (f : Owner → Owner) : (s.modOwner o f).range = s.range := rfl
@[simp] theorem modOwner_asids (s : State) (o : Nat) (f : Owner → Owner) : (s.modOwner o f).asids = s.asids := rfl
@[simp] theorem modOwner_qcur (s : State) (o : Nat) (f : Owner → Owner) : (s.modOwner o f).qcur = s.qcur := rfl
@[simp] theorem modOwner_htbase (s : State) (o : Nat) (f : Owner → Owner) : (s.modOwner o f).htbase = s.htbase := rfl
@[simp] theorem modOwner_htlen (s : State) (o : Nat) (f : Owner → Owner) : (s.modOwner o f).htlen = s.htlen := rfl
@[simp] theorem modOwner_dbtab (s : State) (o : Nat) (f : Owner → Owner) : (s.modOwner o f).dbtab = s.dbtab := rfl
@[simp] theorem modOwner_ltab (s : State) (o : Nat) (f : Owner → Owner) : (s.modOwner o f).ltab = s.ltab := rfl
@[simp] theorem modOwner_commtab (s : State) (o : Nat) (f : Owner → Owner) : (s.modOwner o f).commtab = s.commtab := rfl
@[simp] theorem modOwner_netcfg (s : State) (o : Nat) (f : Owner → Owner) : (s.modOwner o f).netcfg = s.netcfg := rfl
@[simp] theorem modOwner_pool (s : State) (o : Nat) (f : Owner → Owner) : (s.modOwner o f).pool = s.pool := rfl
@[simp] theorem modOwner_fring (s : State) (o : Nat) (f : Owner → Owner) : (s.modOwner o f).fring = s.fring := rfl
@[simp] theorem modOwner_fidx (s : State) (o : Nat) (f : Owner → Owner) : (s.modOwner o f).fidx = s.fidx := rfl
@[simp] theorem modOwner_queues (s : State) (o : Nat) (f : Owner → Owner) : (s.modOwner o f).queues = s.queues := rfl
@[simp] theorem modOwner_parks (s : State) (o : Nat) (f : Owner → Owner) : (s.modOwner o f).parks = s.parks := rfl
@[simp] theorem modOwner_bundles (s : State) (o : Nat) (f : Owner → Owner) : (s.modOwner o f).bundles = s.bundles := rfl
@[simp] theorem modOwner_bundleN (s : State) (o : Nat) (f : Owner → Owner) : (s.modOwner o f).bundleN = s.bundleN := rfl
@[simp] theorem modOwner_nets (s : State) (o : Nat) (f : Owner → Owner) : (s.modOwner o f).nets = s.nets := rfl
@[simp] theorem modOwner_bars (s : State) (o : Nat) (f : Owner → Owner) : (s.modOwner o f).bars = s.bars := rfl
@[simp] theorem modOwner_flights (s : State) (o : Nat) (f : Owner → Owner) : (s.modOwner o f).flights = s.flights := rfl
@[simp] theorem modOwner_credits (s : State) (o : Nat) (f : Owner → Owner) : (s.modOwner o f).credits = s.credits := rfl
@[simp] theorem modOwner_posts (s : State) (o : Nat) (f : Owner → Owner) : (s.modOwner o f).posts = s.posts := rfl
@[simp] theorem modOwner_postN (s : State) (o : Nat) (f : Owner → Owner) : (s.modOwner o f).postN = s.postN := rfl
@[simp] theorem modOwner_colls (s : State) (o : Nat) (f : Owner → Owner) : (s.modOwner o f).colls = s.colls := rfl
@[simp] theorem modOwner_wheel (s : State) (o : Nat) (f : Owner → Owner) : (s.modOwner o f).wheel = s.wheel := rfl
@[simp] theorem modOwner_saves (s : State) (o : Nat) (f : Owner → Owner) : (s.modOwner o f).saves = s.saves := rfl
@[simp] theorem modOwner_link (s : State) (o : Nat) (f : Owner → Owner) : (s.modOwner o f).link = s.link := rfl
@[simp] theorem modOwner_pcie (s : State) (o : Nat) (f : Owner → Owner) : (s.modOwner o f).pcie = s.pcie := rfl
@[simp] theorem modOwner_ports (s : State) (o : Nat) (f : Owner → Owner) : (s.modOwner o f).ports = s.ports := rfl
@[simp] theorem modOwner_peers (s : State) (o : Nat) (f : Owner → Owner) : (s.modOwner o f).peers = s.peers := rfl
@[simp] theorem modOwner_sending (s : State) (o : Nat) (f : Owner → Owner) : (s.modOwner o f).sending = s.sending := rfl
@[simp] theorem modOwner_mgmt (s : State) (o : Nat) (f : Owner → Owner) : (s.modOwner o f).mgmt = s.mgmt := rfl
@[simp] theorem modOwner_outbox (s : State) (o : Nat) (f : Owner → Owner) : (s.modOwner o f).outbox = s.outbox := rfl
@[simp] theorem modOwner_late (s : State) (o : Nat) (f : Owner → Owner) : (s.modOwner o f).late = s.late := rfl
@[simp] theorem modOwner_stores (s : State) (o : Nat) (f : Owner → Owner) : (s.modOwner o f).stores = s.stores := rfl
@[simp] theorem modOwner_past (s : State) (o : Nat) (f : Owner → Owner) : (s.modOwner o f).past = s.past := rfl
@[simp] theorem modOwner_served (s : State) (o : Nat) (f : Owner → Owner) : (s.modOwner o f).served = s.served := rfl
@[simp] theorem modOwner_due (s : State) (o : Nat) (f : Owner → Owner) : (s.modOwner o f).due = s.due := rfl
@[simp] theorem modOwner_wlog (s : State) (o : Nat) (f : Owner → Owner) : (s.modOwner o f).wlog = s.wlog := rfl
@[simp] theorem modOwner_credited (s : State) (o : Nat) (f : Owner → Owner) : (s.modOwner o f).credited = s.credited := rfl
@[simp] theorem modOwner_ringRel (s : State) (o : Nat) (f : Owner → Owner) : (s.modOwner o f).ringRel = s.ringRel := rfl
@[simp] theorem modOwner_incoming (s : State) (o : Nat) (f : Owner → Owner) : (s.modOwner o f).incoming = s.incoming := rfl
@[simp] theorem modOwner_account (s : State) (o : Nat) (f : Owner → Owner) : (s.modOwner o f).account = s.account := rfl

@[simp] theorem setDie_clock (s : State) (d : Nat) (x : Die) : (s.setDie d x).clock = s.clock := rfl
@[simp] theorem setDie_agenda (s : State) (d : Nat) (x : Die) : (s.setDie d x).agenda = s.agenda := rfl
@[simp] theorem setDie_cell (s : State) (d : Nat) (x : Die) : (s.setDie d x).cell = s.cell := rfl
@[simp] theorem setDie_fid (s : State) (d : Nat) (x : Die) : (s.setDie d x).fid = s.fid := rfl
@[simp] theorem setDie_free (s : State) (d : Nat) (x : Die) : (s.setDie d x).free = s.free := rfl
@[simp] theorem setDie_cells (s : State) (d : Nat) (x : Die) : (s.setDie d x).cells = s.cells := rfl
@[simp] theorem setDie_sectors (s : State) (d : Nat) (x : Die) : (s.setDie d x).sectors = s.sectors := rfl
@[simp] theorem setDie_owners (s : State) (d : Nat) (x : Die) : (s.setDie d x).owners = s.owners := rfl
@[simp] theorem setDie_banks (s : State) (d : Nat) (x : Die) : (s.setDie d x).banks = s.banks := rfl
@[simp] theorem setDie_mem (s : State) (d : Nat) (x : Die) : (s.setDie d x).mem = s.mem := rfl
@[simp] theorem setDie_range (s : State) (d : Nat) (x : Die) : (s.setDie d x).range = s.range := rfl
@[simp] theorem setDie_asids (s : State) (d : Nat) (x : Die) : (s.setDie d x).asids = s.asids := rfl
@[simp] theorem setDie_qcur (s : State) (d : Nat) (x : Die) : (s.setDie d x).qcur = s.qcur := rfl
@[simp] theorem setDie_htbase (s : State) (d : Nat) (x : Die) : (s.setDie d x).htbase = s.htbase := rfl
@[simp] theorem setDie_htlen (s : State) (d : Nat) (x : Die) : (s.setDie d x).htlen = s.htlen := rfl
@[simp] theorem setDie_dbtab (s : State) (d : Nat) (x : Die) : (s.setDie d x).dbtab = s.dbtab := rfl
@[simp] theorem setDie_ltab (s : State) (d : Nat) (x : Die) : (s.setDie d x).ltab = s.ltab := rfl
@[simp] theorem setDie_commtab (s : State) (d : Nat) (x : Die) : (s.setDie d x).commtab = s.commtab := rfl
@[simp] theorem setDie_netcfg (s : State) (d : Nat) (x : Die) : (s.setDie d x).netcfg = s.netcfg := rfl
@[simp] theorem setDie_pool (s : State) (d : Nat) (x : Die) : (s.setDie d x).pool = s.pool := rfl
@[simp] theorem setDie_fring (s : State) (d : Nat) (x : Die) : (s.setDie d x).fring = s.fring := rfl
@[simp] theorem setDie_fidx (s : State) (d : Nat) (x : Die) : (s.setDie d x).fidx = s.fidx := rfl
@[simp] theorem setDie_queues (s : State) (d : Nat) (x : Die) : (s.setDie d x).queues = s.queues := rfl
@[simp] theorem setDie_parks (s : State) (d : Nat) (x : Die) : (s.setDie d x).parks = s.parks := rfl
@[simp] theorem setDie_bundles (s : State) (d : Nat) (x : Die) : (s.setDie d x).bundles = s.bundles := rfl
@[simp] theorem setDie_bundleN (s : State) (d : Nat) (x : Die) : (s.setDie d x).bundleN = s.bundleN := rfl
@[simp] theorem setDie_nets (s : State) (d : Nat) (x : Die) : (s.setDie d x).nets = s.nets := rfl
@[simp] theorem setDie_bars (s : State) (d : Nat) (x : Die) : (s.setDie d x).bars = s.bars := rfl
@[simp] theorem setDie_flights (s : State) (d : Nat) (x : Die) : (s.setDie d x).flights = s.flights := rfl
@[simp] theorem setDie_credits (s : State) (d : Nat) (x : Die) : (s.setDie d x).credits = s.credits := rfl
@[simp] theorem setDie_posts (s : State) (d : Nat) (x : Die) : (s.setDie d x).posts = s.posts := rfl
@[simp] theorem setDie_postN (s : State) (d : Nat) (x : Die) : (s.setDie d x).postN = s.postN := rfl
@[simp] theorem setDie_colls (s : State) (d : Nat) (x : Die) : (s.setDie d x).colls = s.colls := rfl
@[simp] theorem setDie_wheel (s : State) (d : Nat) (x : Die) : (s.setDie d x).wheel = s.wheel := rfl
@[simp] theorem setDie_saves (s : State) (d : Nat) (x : Die) : (s.setDie d x).saves = s.saves := rfl
@[simp] theorem setDie_link (s : State) (d : Nat) (x : Die) : (s.setDie d x).link = s.link := rfl
@[simp] theorem setDie_pcie (s : State) (d : Nat) (x : Die) : (s.setDie d x).pcie = s.pcie := rfl
@[simp] theorem setDie_ports (s : State) (d : Nat) (x : Die) : (s.setDie d x).ports = s.ports := rfl
@[simp] theorem setDie_peers (s : State) (d : Nat) (x : Die) : (s.setDie d x).peers = s.peers := rfl
@[simp] theorem setDie_sending (s : State) (d : Nat) (x : Die) : (s.setDie d x).sending = s.sending := rfl
@[simp] theorem setDie_mgmt (s : State) (d : Nat) (x : Die) : (s.setDie d x).mgmt = s.mgmt := rfl
@[simp] theorem setDie_outbox (s : State) (d : Nat) (x : Die) : (s.setDie d x).outbox = s.outbox := rfl
@[simp] theorem setDie_late (s : State) (d : Nat) (x : Die) : (s.setDie d x).late = s.late := rfl
@[simp] theorem setDie_stores (s : State) (d : Nat) (x : Die) : (s.setDie d x).stores = s.stores := rfl
@[simp] theorem setDie_past (s : State) (d : Nat) (x : Die) : (s.setDie d x).past = s.past := rfl
@[simp] theorem setDie_served (s : State) (d : Nat) (x : Die) : (s.setDie d x).served = s.served := rfl
@[simp] theorem setDie_due (s : State) (d : Nat) (x : Die) : (s.setDie d x).due = s.due := rfl
@[simp] theorem setDie_wlog (s : State) (d : Nat) (x : Die) : (s.setDie d x).wlog = s.wlog := rfl
@[simp] theorem setDie_credited (s : State) (d : Nat) (x : Die) : (s.setDie d x).credited = s.credited := rfl
@[simp] theorem setDie_ringRel (s : State) (d : Nat) (x : Die) : (s.setDie d x).ringRel = s.ringRel := rfl
@[simp] theorem setDie_incoming (s : State) (d : Nat) (x : Die) : (s.setDie d x).incoming = s.incoming := rfl
@[simp] theorem setDie_account (s : State) (d : Nat) (x : Die) : (s.setDie d x).account = s.account := rfl

@[simp] theorem modDie_clock (s : State) (d : Nat) (f : Die → Die) : (s.modDie d f).clock = s.clock := rfl
@[simp] theorem modDie_agenda (s : State) (d : Nat) (f : Die → Die) : (s.modDie d f).agenda = s.agenda := rfl
@[simp] theorem modDie_cell (s : State) (d : Nat) (f : Die → Die) : (s.modDie d f).cell = s.cell := rfl
@[simp] theorem modDie_fid (s : State) (d : Nat) (f : Die → Die) : (s.modDie d f).fid = s.fid := rfl
@[simp] theorem modDie_free (s : State) (d : Nat) (f : Die → Die) : (s.modDie d f).free = s.free := rfl
@[simp] theorem modDie_cells (s : State) (d : Nat) (f : Die → Die) : (s.modDie d f).cells = s.cells := rfl
@[simp] theorem modDie_sectors (s : State) (d : Nat) (f : Die → Die) : (s.modDie d f).sectors = s.sectors := rfl
@[simp] theorem modDie_owners (s : State) (d : Nat) (f : Die → Die) : (s.modDie d f).owners = s.owners := rfl
@[simp] theorem modDie_banks (s : State) (d : Nat) (f : Die → Die) : (s.modDie d f).banks = s.banks := rfl
@[simp] theorem modDie_mem (s : State) (d : Nat) (f : Die → Die) : (s.modDie d f).mem = s.mem := rfl
@[simp] theorem modDie_range (s : State) (d : Nat) (f : Die → Die) : (s.modDie d f).range = s.range := rfl
@[simp] theorem modDie_asids (s : State) (d : Nat) (f : Die → Die) : (s.modDie d f).asids = s.asids := rfl
@[simp] theorem modDie_qcur (s : State) (d : Nat) (f : Die → Die) : (s.modDie d f).qcur = s.qcur := rfl
@[simp] theorem modDie_htbase (s : State) (d : Nat) (f : Die → Die) : (s.modDie d f).htbase = s.htbase := rfl
@[simp] theorem modDie_htlen (s : State) (d : Nat) (f : Die → Die) : (s.modDie d f).htlen = s.htlen := rfl
@[simp] theorem modDie_dbtab (s : State) (d : Nat) (f : Die → Die) : (s.modDie d f).dbtab = s.dbtab := rfl
@[simp] theorem modDie_ltab (s : State) (d : Nat) (f : Die → Die) : (s.modDie d f).ltab = s.ltab := rfl
@[simp] theorem modDie_commtab (s : State) (d : Nat) (f : Die → Die) : (s.modDie d f).commtab = s.commtab := rfl
@[simp] theorem modDie_netcfg (s : State) (d : Nat) (f : Die → Die) : (s.modDie d f).netcfg = s.netcfg := rfl
@[simp] theorem modDie_pool (s : State) (d : Nat) (f : Die → Die) : (s.modDie d f).pool = s.pool := rfl
@[simp] theorem modDie_fring (s : State) (d : Nat) (f : Die → Die) : (s.modDie d f).fring = s.fring := rfl
@[simp] theorem modDie_fidx (s : State) (d : Nat) (f : Die → Die) : (s.modDie d f).fidx = s.fidx := rfl
@[simp] theorem modDie_queues (s : State) (d : Nat) (f : Die → Die) : (s.modDie d f).queues = s.queues := rfl
@[simp] theorem modDie_parks (s : State) (d : Nat) (f : Die → Die) : (s.modDie d f).parks = s.parks := rfl
@[simp] theorem modDie_bundles (s : State) (d : Nat) (f : Die → Die) : (s.modDie d f).bundles = s.bundles := rfl
@[simp] theorem modDie_bundleN (s : State) (d : Nat) (f : Die → Die) : (s.modDie d f).bundleN = s.bundleN := rfl
@[simp] theorem modDie_nets (s : State) (d : Nat) (f : Die → Die) : (s.modDie d f).nets = s.nets := rfl
@[simp] theorem modDie_bars (s : State) (d : Nat) (f : Die → Die) : (s.modDie d f).bars = s.bars := rfl
@[simp] theorem modDie_flights (s : State) (d : Nat) (f : Die → Die) : (s.modDie d f).flights = s.flights := rfl
@[simp] theorem modDie_credits (s : State) (d : Nat) (f : Die → Die) : (s.modDie d f).credits = s.credits := rfl
@[simp] theorem modDie_posts (s : State) (d : Nat) (f : Die → Die) : (s.modDie d f).posts = s.posts := rfl
@[simp] theorem modDie_postN (s : State) (d : Nat) (f : Die → Die) : (s.modDie d f).postN = s.postN := rfl
@[simp] theorem modDie_colls (s : State) (d : Nat) (f : Die → Die) : (s.modDie d f).colls = s.colls := rfl
@[simp] theorem modDie_wheel (s : State) (d : Nat) (f : Die → Die) : (s.modDie d f).wheel = s.wheel := rfl
@[simp] theorem modDie_saves (s : State) (d : Nat) (f : Die → Die) : (s.modDie d f).saves = s.saves := rfl
@[simp] theorem modDie_link (s : State) (d : Nat) (f : Die → Die) : (s.modDie d f).link = s.link := rfl
@[simp] theorem modDie_pcie (s : State) (d : Nat) (f : Die → Die) : (s.modDie d f).pcie = s.pcie := rfl
@[simp] theorem modDie_ports (s : State) (d : Nat) (f : Die → Die) : (s.modDie d f).ports = s.ports := rfl
@[simp] theorem modDie_peers (s : State) (d : Nat) (f : Die → Die) : (s.modDie d f).peers = s.peers := rfl
@[simp] theorem modDie_sending (s : State) (d : Nat) (f : Die → Die) : (s.modDie d f).sending = s.sending := rfl
@[simp] theorem modDie_mgmt (s : State) (d : Nat) (f : Die → Die) : (s.modDie d f).mgmt = s.mgmt := rfl
@[simp] theorem modDie_outbox (s : State) (d : Nat) (f : Die → Die) : (s.modDie d f).outbox = s.outbox := rfl
@[simp] theorem modDie_late (s : State) (d : Nat) (f : Die → Die) : (s.modDie d f).late = s.late := rfl
@[simp] theorem modDie_stores (s : State) (d : Nat) (f : Die → Die) : (s.modDie d f).stores = s.stores := rfl
@[simp] theorem modDie_past (s : State) (d : Nat) (f : Die → Die) : (s.modDie d f).past = s.past := rfl
@[simp] theorem modDie_served (s : State) (d : Nat) (f : Die → Die) : (s.modDie d f).served = s.served := rfl
@[simp] theorem modDie_due (s : State) (d : Nat) (f : Die → Die) : (s.modDie d f).due = s.due := rfl
@[simp] theorem modDie_wlog (s : State) (d : Nat) (f : Die → Die) : (s.modDie d f).wlog = s.wlog := rfl
@[simp] theorem modDie_credited (s : State) (d : Nat) (f : Die → Die) : (s.modDie d f).credited = s.credited := rfl
@[simp] theorem modDie_ringRel (s : State) (d : Nat) (f : Die → Die) : (s.modDie d f).ringRel = s.ringRel := rfl
@[simp] theorem modDie_incoming (s : State) (d : Nat) (f : Die → Die) : (s.modDie d f).incoming = s.incoming := rfl
@[simp] theorem modDie_account (s : State) (d : Nat) (f : Die → Die) : (s.modDie d f).account = s.account := rfl

@[simp] theorem setNet_clock (s : State) (n : Nat) (x : Net) : (s.setNet n x).clock = s.clock := rfl
@[simp] theorem setNet_agenda (s : State) (n : Nat) (x : Net) : (s.setNet n x).agenda = s.agenda := rfl
@[simp] theorem setNet_cell (s : State) (n : Nat) (x : Net) : (s.setNet n x).cell = s.cell := rfl
@[simp] theorem setNet_fid (s : State) (n : Nat) (x : Net) : (s.setNet n x).fid = s.fid := rfl
@[simp] theorem setNet_free (s : State) (n : Nat) (x : Net) : (s.setNet n x).free = s.free := rfl
@[simp] theorem setNet_cells (s : State) (n : Nat) (x : Net) : (s.setNet n x).cells = s.cells := rfl
@[simp] theorem setNet_sectors (s : State) (n : Nat) (x : Net) : (s.setNet n x).sectors = s.sectors := rfl
@[simp] theorem setNet_owners (s : State) (n : Nat) (x : Net) : (s.setNet n x).owners = s.owners := rfl
@[simp] theorem setNet_dies (s : State) (n : Nat) (x : Net) : (s.setNet n x).dies = s.dies := rfl
@[simp] theorem setNet_banks (s : State) (n : Nat) (x : Net) : (s.setNet n x).banks = s.banks := rfl
@[simp] theorem setNet_mem (s : State) (n : Nat) (x : Net) : (s.setNet n x).mem = s.mem := rfl
@[simp] theorem setNet_range (s : State) (n : Nat) (x : Net) : (s.setNet n x).range = s.range := rfl
@[simp] theorem setNet_asids (s : State) (n : Nat) (x : Net) : (s.setNet n x).asids = s.asids := rfl
@[simp] theorem setNet_qcur (s : State) (n : Nat) (x : Net) : (s.setNet n x).qcur = s.qcur := rfl
@[simp] theorem setNet_htbase (s : State) (n : Nat) (x : Net) : (s.setNet n x).htbase = s.htbase := rfl
@[simp] theorem setNet_htlen (s : State) (n : Nat) (x : Net) : (s.setNet n x).htlen = s.htlen := rfl
@[simp] theorem setNet_dbtab (s : State) (n : Nat) (x : Net) : (s.setNet n x).dbtab = s.dbtab := rfl
@[simp] theorem setNet_ltab (s : State) (n : Nat) (x : Net) : (s.setNet n x).ltab = s.ltab := rfl
@[simp] theorem setNet_commtab (s : State) (n : Nat) (x : Net) : (s.setNet n x).commtab = s.commtab := rfl
@[simp] theorem setNet_netcfg (s : State) (n : Nat) (x : Net) : (s.setNet n x).netcfg = s.netcfg := rfl
@[simp] theorem setNet_pool (s : State) (n : Nat) (x : Net) : (s.setNet n x).pool = s.pool := rfl
@[simp] theorem setNet_fring (s : State) (n : Nat) (x : Net) : (s.setNet n x).fring = s.fring := rfl
@[simp] theorem setNet_fidx (s : State) (n : Nat) (x : Net) : (s.setNet n x).fidx = s.fidx := rfl
@[simp] theorem setNet_queues (s : State) (n : Nat) (x : Net) : (s.setNet n x).queues = s.queues := rfl
@[simp] theorem setNet_parks (s : State) (n : Nat) (x : Net) : (s.setNet n x).parks = s.parks := rfl
@[simp] theorem setNet_bundles (s : State) (n : Nat) (x : Net) : (s.setNet n x).bundles = s.bundles := rfl
@[simp] theorem setNet_bundleN (s : State) (n : Nat) (x : Net) : (s.setNet n x).bundleN = s.bundleN := rfl
@[simp] theorem setNet_bars (s : State) (n : Nat) (x : Net) : (s.setNet n x).bars = s.bars := rfl
@[simp] theorem setNet_flights (s : State) (n : Nat) (x : Net) : (s.setNet n x).flights = s.flights := rfl
@[simp] theorem setNet_credits (s : State) (n : Nat) (x : Net) : (s.setNet n x).credits = s.credits := rfl
@[simp] theorem setNet_posts (s : State) (n : Nat) (x : Net) : (s.setNet n x).posts = s.posts := rfl
@[simp] theorem setNet_postN (s : State) (n : Nat) (x : Net) : (s.setNet n x).postN = s.postN := rfl
@[simp] theorem setNet_colls (s : State) (n : Nat) (x : Net) : (s.setNet n x).colls = s.colls := rfl
@[simp] theorem setNet_wheel (s : State) (n : Nat) (x : Net) : (s.setNet n x).wheel = s.wheel := rfl
@[simp] theorem setNet_saves (s : State) (n : Nat) (x : Net) : (s.setNet n x).saves = s.saves := rfl
@[simp] theorem setNet_link (s : State) (n : Nat) (x : Net) : (s.setNet n x).link = s.link := rfl
@[simp] theorem setNet_pcie (s : State) (n : Nat) (x : Net) : (s.setNet n x).pcie = s.pcie := rfl
@[simp] theorem setNet_ports (s : State) (n : Nat) (x : Net) : (s.setNet n x).ports = s.ports := rfl
@[simp] theorem setNet_peers (s : State) (n : Nat) (x : Net) : (s.setNet n x).peers = s.peers := rfl
@[simp] theorem setNet_sending (s : State) (n : Nat) (x : Net) : (s.setNet n x).sending = s.sending := rfl
@[simp] theorem setNet_mgmt (s : State) (n : Nat) (x : Net) : (s.setNet n x).mgmt = s.mgmt := rfl
@[simp] theorem setNet_outbox (s : State) (n : Nat) (x : Net) : (s.setNet n x).outbox = s.outbox := rfl
@[simp] theorem setNet_late (s : State) (n : Nat) (x : Net) : (s.setNet n x).late = s.late := rfl
@[simp] theorem setNet_stores (s : State) (n : Nat) (x : Net) : (s.setNet n x).stores = s.stores := rfl
@[simp] theorem setNet_past (s : State) (n : Nat) (x : Net) : (s.setNet n x).past = s.past := rfl
@[simp] theorem setNet_served (s : State) (n : Nat) (x : Net) : (s.setNet n x).served = s.served := rfl
@[simp] theorem setNet_due (s : State) (n : Nat) (x : Net) : (s.setNet n x).due = s.due := rfl
@[simp] theorem setNet_wlog (s : State) (n : Nat) (x : Net) : (s.setNet n x).wlog = s.wlog := rfl
@[simp] theorem setNet_credited (s : State) (n : Nat) (x : Net) : (s.setNet n x).credited = s.credited := rfl
@[simp] theorem setNet_ringRel (s : State) (n : Nat) (x : Net) : (s.setNet n x).ringRel = s.ringRel := rfl
@[simp] theorem setNet_incoming (s : State) (n : Nat) (x : Net) : (s.setNet n x).incoming = s.incoming := rfl
@[simp] theorem setNet_account (s : State) (n : Nat) (x : Net) : (s.setNet n x).account = s.account := rfl

@[simp] theorem focus_clock (s : State) (c i : Nat) : (s.focus c i).clock = s.clock := rfl
@[simp] theorem focus_agenda (s : State) (c i : Nat) : (s.focus c i).agenda = s.agenda := rfl
@[simp] theorem focus_free (s : State) (c i : Nat) : (s.focus c i).free = s.free := rfl
@[simp] theorem focus_cells (s : State) (c i : Nat) : (s.focus c i).cells = s.cells := rfl
@[simp] theorem focus_sectors (s : State) (c i : Nat) : (s.focus c i).sectors = s.sectors := rfl
@[simp] theorem focus_owners (s : State) (c i : Nat) : (s.focus c i).owners = s.owners := rfl
@[simp] theorem focus_dies (s : State) (c i : Nat) : (s.focus c i).dies = s.dies := rfl
@[simp] theorem focus_banks (s : State) (c i : Nat) : (s.focus c i).banks = s.banks := rfl
@[simp] theorem focus_mem (s : State) (c i : Nat) : (s.focus c i).mem = s.mem := rfl
@[simp] theorem focus_range (s : State) (c i : Nat) : (s.focus c i).range = s.range := rfl
@[simp] theorem focus_asids (s : State) (c i : Nat) : (s.focus c i).asids = s.asids := rfl
@[simp] theorem focus_qcur (s : State) (c i : Nat) : (s.focus c i).qcur = s.qcur := rfl
@[simp] theorem focus_htbase (s : State) (c i : Nat) : (s.focus c i).htbase = s.htbase := rfl
@[simp] theorem focus_htlen (s : State) (c i : Nat) : (s.focus c i).htlen = s.htlen := rfl
@[simp] theorem focus_dbtab (s : State) (c i : Nat) : (s.focus c i).dbtab = s.dbtab := rfl
@[simp] theorem focus_ltab (s : State) (c i : Nat) : (s.focus c i).ltab = s.ltab := rfl
@[simp] theorem focus_commtab (s : State) (c i : Nat) : (s.focus c i).commtab = s.commtab := rfl
@[simp] theorem focus_netcfg (s : State) (c i : Nat) : (s.focus c i).netcfg = s.netcfg := rfl
@[simp] theorem focus_pool (s : State) (c i : Nat) : (s.focus c i).pool = s.pool := rfl
@[simp] theorem focus_fring (s : State) (c i : Nat) : (s.focus c i).fring = s.fring := rfl
@[simp] theorem focus_fidx (s : State) (c i : Nat) : (s.focus c i).fidx = s.fidx := rfl
@[simp] theorem focus_queues (s : State) (c i : Nat) : (s.focus c i).queues = s.queues := rfl
@[simp] theorem focus_parks (s : State) (c i : Nat) : (s.focus c i).parks = s.parks := rfl
@[simp] theorem focus_bundles (s : State) (c i : Nat) : (s.focus c i).bundles = s.bundles := rfl
@[simp] theorem focus_bundleN (s : State) (c i : Nat) : (s.focus c i).bundleN = s.bundleN := rfl
@[simp] theorem focus_nets (s : State) (c i : Nat) : (s.focus c i).nets = s.nets := rfl
@[simp] theorem focus_bars (s : State) (c i : Nat) : (s.focus c i).bars = s.bars := rfl
@[simp] theorem focus_flights (s : State) (c i : Nat) : (s.focus c i).flights = s.flights := rfl
@[simp] theorem focus_credits (s : State) (c i : Nat) : (s.focus c i).credits = s.credits := rfl
@[simp] theorem focus_posts (s : State) (c i : Nat) : (s.focus c i).posts = s.posts := rfl
@[simp] theorem focus_postN (s : State) (c i : Nat) : (s.focus c i).postN = s.postN := rfl
@[simp] theorem focus_colls (s : State) (c i : Nat) : (s.focus c i).colls = s.colls := rfl
@[simp] theorem focus_wheel (s : State) (c i : Nat) : (s.focus c i).wheel = s.wheel := rfl
@[simp] theorem focus_saves (s : State) (c i : Nat) : (s.focus c i).saves = s.saves := rfl
@[simp] theorem focus_link (s : State) (c i : Nat) : (s.focus c i).link = s.link := rfl
@[simp] theorem focus_pcie (s : State) (c i : Nat) : (s.focus c i).pcie = s.pcie := rfl
@[simp] theorem focus_ports (s : State) (c i : Nat) : (s.focus c i).ports = s.ports := rfl
@[simp] theorem focus_peers (s : State) (c i : Nat) : (s.focus c i).peers = s.peers := rfl
@[simp] theorem focus_sending (s : State) (c i : Nat) : (s.focus c i).sending = s.sending := rfl
@[simp] theorem focus_mgmt (s : State) (c i : Nat) : (s.focus c i).mgmt = s.mgmt := rfl
@[simp] theorem focus_outbox (s : State) (c i : Nat) : (s.focus c i).outbox = s.outbox := rfl
@[simp] theorem focus_late (s : State) (c i : Nat) : (s.focus c i).late = s.late := rfl
@[simp] theorem focus_stores (s : State) (c i : Nat) : (s.focus c i).stores = s.stores := rfl
@[simp] theorem focus_past (s : State) (c i : Nat) : (s.focus c i).past = s.past := rfl
@[simp] theorem focus_served (s : State) (c i : Nat) : (s.focus c i).served = s.served := rfl
@[simp] theorem focus_due (s : State) (c i : Nat) : (s.focus c i).due = s.due := rfl
@[simp] theorem focus_wlog (s : State) (c i : Nat) : (s.focus c i).wlog = s.wlog := rfl
@[simp] theorem focus_credited (s : State) (c i : Nat) : (s.focus c i).credited = s.credited := rfl
@[simp] theorem focus_ringRel (s : State) (c i : Nat) : (s.focus c i).ringRel = s.ringRel := rfl
@[simp] theorem focus_incoming (s : State) (c i : Nat) : (s.focus c i).incoming = s.incoming := rfl
@[simp] theorem focus_account (s : State) (c i : Nat) : (s.focus c i).account = s.account := rfl

@[simp] theorem writeV_clock (s : State) (n : Nat) (x : Lane) : (s.writeV n x).clock = s.clock := rfl
@[simp] theorem writeV_agenda (s : State) (n : Nat) (x : Lane) : (s.writeV n x).agenda = s.agenda := rfl
@[simp] theorem writeV_cell (s : State) (n : Nat) (x : Lane) : (s.writeV n x).cell = s.cell := rfl
@[simp] theorem writeV_fid (s : State) (n : Nat) (x : Lane) : (s.writeV n x).fid = s.fid := rfl
@[simp] theorem writeV_free (s : State) (n : Nat) (x : Lane) : (s.writeV n x).free = s.free := rfl
@[simp] theorem writeV_sectors (s : State) (n : Nat) (x : Lane) : (s.writeV n x).sectors = s.sectors := rfl
@[simp] theorem writeV_owners (s : State) (n : Nat) (x : Lane) : (s.writeV n x).owners = s.owners := rfl
@[simp] theorem writeV_dies (s : State) (n : Nat) (x : Lane) : (s.writeV n x).dies = s.dies := rfl
@[simp] theorem writeV_banks (s : State) (n : Nat) (x : Lane) : (s.writeV n x).banks = s.banks := rfl
@[simp] theorem writeV_mem (s : State) (n : Nat) (x : Lane) : (s.writeV n x).mem = s.mem := rfl
@[simp] theorem writeV_range (s : State) (n : Nat) (x : Lane) : (s.writeV n x).range = s.range := rfl
@[simp] theorem writeV_asids (s : State) (n : Nat) (x : Lane) : (s.writeV n x).asids = s.asids := rfl
@[simp] theorem writeV_qcur (s : State) (n : Nat) (x : Lane) : (s.writeV n x).qcur = s.qcur := rfl
@[simp] theorem writeV_htbase (s : State) (n : Nat) (x : Lane) : (s.writeV n x).htbase = s.htbase := rfl
@[simp] theorem writeV_htlen (s : State) (n : Nat) (x : Lane) : (s.writeV n x).htlen = s.htlen := rfl
@[simp] theorem writeV_dbtab (s : State) (n : Nat) (x : Lane) : (s.writeV n x).dbtab = s.dbtab := rfl
@[simp] theorem writeV_ltab (s : State) (n : Nat) (x : Lane) : (s.writeV n x).ltab = s.ltab := rfl
@[simp] theorem writeV_commtab (s : State) (n : Nat) (x : Lane) : (s.writeV n x).commtab = s.commtab := rfl
@[simp] theorem writeV_netcfg (s : State) (n : Nat) (x : Lane) : (s.writeV n x).netcfg = s.netcfg := rfl
@[simp] theorem writeV_pool (s : State) (n : Nat) (x : Lane) : (s.writeV n x).pool = s.pool := rfl
@[simp] theorem writeV_fring (s : State) (n : Nat) (x : Lane) : (s.writeV n x).fring = s.fring := rfl
@[simp] theorem writeV_fidx (s : State) (n : Nat) (x : Lane) : (s.writeV n x).fidx = s.fidx := rfl
@[simp] theorem writeV_queues (s : State) (n : Nat) (x : Lane) : (s.writeV n x).queues = s.queues := rfl
@[simp] theorem writeV_parks (s : State) (n : Nat) (x : Lane) : (s.writeV n x).parks = s.parks := rfl
@[simp] theorem writeV_bundles (s : State) (n : Nat) (x : Lane) : (s.writeV n x).bundles = s.bundles := rfl
@[simp] theorem writeV_bundleN (s : State) (n : Nat) (x : Lane) : (s.writeV n x).bundleN = s.bundleN := rfl
@[simp] theorem writeV_nets (s : State) (n : Nat) (x : Lane) : (s.writeV n x).nets = s.nets := rfl
@[simp] theorem writeV_bars (s : State) (n : Nat) (x : Lane) : (s.writeV n x).bars = s.bars := rfl
@[simp] theorem writeV_flights (s : State) (n : Nat) (x : Lane) : (s.writeV n x).flights = s.flights := rfl
@[simp] theorem writeV_credits (s : State) (n : Nat) (x : Lane) : (s.writeV n x).credits = s.credits := rfl
@[simp] theorem writeV_posts (s : State) (n : Nat) (x : Lane) : (s.writeV n x).posts = s.posts := rfl
@[simp] theorem writeV_postN (s : State) (n : Nat) (x : Lane) : (s.writeV n x).postN = s.postN := rfl
@[simp] theorem writeV_colls (s : State) (n : Nat) (x : Lane) : (s.writeV n x).colls = s.colls := rfl
@[simp] theorem writeV_wheel (s : State) (n : Nat) (x : Lane) : (s.writeV n x).wheel = s.wheel := rfl
@[simp] theorem writeV_saves (s : State) (n : Nat) (x : Lane) : (s.writeV n x).saves = s.saves := rfl
@[simp] theorem writeV_link (s : State) (n : Nat) (x : Lane) : (s.writeV n x).link = s.link := rfl
@[simp] theorem writeV_pcie (s : State) (n : Nat) (x : Lane) : (s.writeV n x).pcie = s.pcie := rfl
@[simp] theorem writeV_ports (s : State) (n : Nat) (x : Lane) : (s.writeV n x).ports = s.ports := rfl
@[simp] theorem writeV_peers (s : State) (n : Nat) (x : Lane) : (s.writeV n x).peers = s.peers := rfl
@[simp] theorem writeV_sending (s : State) (n : Nat) (x : Lane) : (s.writeV n x).sending = s.sending := rfl
@[simp] theorem writeV_mgmt (s : State) (n : Nat) (x : Lane) : (s.writeV n x).mgmt = s.mgmt := rfl
@[simp] theorem writeV_outbox (s : State) (n : Nat) (x : Lane) : (s.writeV n x).outbox = s.outbox := rfl
@[simp] theorem writeV_late (s : State) (n : Nat) (x : Lane) : (s.writeV n x).late = s.late := rfl
@[simp] theorem writeV_stores (s : State) (n : Nat) (x : Lane) : (s.writeV n x).stores = s.stores := rfl
@[simp] theorem writeV_past (s : State) (n : Nat) (x : Lane) : (s.writeV n x).past = s.past := rfl
@[simp] theorem writeV_served (s : State) (n : Nat) (x : Lane) : (s.writeV n x).served = s.served := rfl
@[simp] theorem writeV_due (s : State) (n : Nat) (x : Lane) : (s.writeV n x).due = s.due := rfl
@[simp] theorem writeV_wlog (s : State) (n : Nat) (x : Lane) : (s.writeV n x).wlog = s.wlog := rfl
@[simp] theorem writeV_credited (s : State) (n : Nat) (x : Lane) : (s.writeV n x).credited = s.credited := rfl
@[simp] theorem writeV_ringRel (s : State) (n : Nat) (x : Lane) : (s.writeV n x).ringRel = s.ringRel := rfl
@[simp] theorem writeV_incoming (s : State) (n : Nat) (x : Lane) : (s.writeV n x).incoming = s.incoming := rfl
@[simp] theorem writeV_account (s : State) (n : Nat) (x : Lane) : (s.writeV n x).account = s.account := rfl

@[simp] theorem advance_clock (s : State) (n : Nat) : (s.advance n).clock = s.clock := rfl
@[simp] theorem advance_agenda (s : State) (n : Nat) : (s.advance n).agenda = s.agenda := rfl
@[simp] theorem advance_cell (s : State) (n : Nat) : (s.advance n).cell = s.cell := rfl
@[simp] theorem advance_fid (s : State) (n : Nat) : (s.advance n).fid = s.fid := rfl
@[simp] theorem advance_free (s : State) (n : Nat) : (s.advance n).free = s.free := rfl
@[simp] theorem advance_sectors (s : State) (n : Nat) : (s.advance n).sectors = s.sectors := rfl
@[simp] theorem advance_owners (s : State) (n : Nat) : (s.advance n).owners = s.owners := rfl
@[simp] theorem advance_dies (s : State) (n : Nat) : (s.advance n).dies = s.dies := rfl
@[simp] theorem advance_banks (s : State) (n : Nat) : (s.advance n).banks = s.banks := rfl
@[simp] theorem advance_mem (s : State) (n : Nat) : (s.advance n).mem = s.mem := rfl
@[simp] theorem advance_range (s : State) (n : Nat) : (s.advance n).range = s.range := rfl
@[simp] theorem advance_asids (s : State) (n : Nat) : (s.advance n).asids = s.asids := rfl
@[simp] theorem advance_qcur (s : State) (n : Nat) : (s.advance n).qcur = s.qcur := rfl
@[simp] theorem advance_htbase (s : State) (n : Nat) : (s.advance n).htbase = s.htbase := rfl
@[simp] theorem advance_htlen (s : State) (n : Nat) : (s.advance n).htlen = s.htlen := rfl
@[simp] theorem advance_dbtab (s : State) (n : Nat) : (s.advance n).dbtab = s.dbtab := rfl
@[simp] theorem advance_ltab (s : State) (n : Nat) : (s.advance n).ltab = s.ltab := rfl
@[simp] theorem advance_commtab (s : State) (n : Nat) : (s.advance n).commtab = s.commtab := rfl
@[simp] theorem advance_netcfg (s : State) (n : Nat) : (s.advance n).netcfg = s.netcfg := rfl
@[simp] theorem advance_pool (s : State) (n : Nat) : (s.advance n).pool = s.pool := rfl
@[simp] theorem advance_fring (s : State) (n : Nat) : (s.advance n).fring = s.fring := rfl
@[simp] theorem advance_fidx (s : State) (n : Nat) : (s.advance n).fidx = s.fidx := rfl
@[simp] theorem advance_queues (s : State) (n : Nat) : (s.advance n).queues = s.queues := rfl
@[simp] theorem advance_parks (s : State) (n : Nat) : (s.advance n).parks = s.parks := rfl
@[simp] theorem advance_bundles (s : State) (n : Nat) : (s.advance n).bundles = s.bundles := rfl
@[simp] theorem advance_bundleN (s : State) (n : Nat) : (s.advance n).bundleN = s.bundleN := rfl
@[simp] theorem advance_nets (s : State) (n : Nat) : (s.advance n).nets = s.nets := rfl
@[simp] theorem advance_bars (s : State) (n : Nat) : (s.advance n).bars = s.bars := rfl
@[simp] theorem advance_flights (s : State) (n : Nat) : (s.advance n).flights = s.flights := rfl
@[simp] theorem advance_credits (s : State) (n : Nat) : (s.advance n).credits = s.credits := rfl
@[simp] theorem advance_posts (s : State) (n : Nat) : (s.advance n).posts = s.posts := rfl
@[simp] theorem advance_postN (s : State) (n : Nat) : (s.advance n).postN = s.postN := rfl
@[simp] theorem advance_colls (s : State) (n : Nat) : (s.advance n).colls = s.colls := rfl
@[simp] theorem advance_wheel (s : State) (n : Nat) : (s.advance n).wheel = s.wheel := rfl
@[simp] theorem advance_saves (s : State) (n : Nat) : (s.advance n).saves = s.saves := rfl
@[simp] theorem advance_link (s : State) (n : Nat) : (s.advance n).link = s.link := rfl
@[simp] theorem advance_pcie (s : State) (n : Nat) : (s.advance n).pcie = s.pcie := rfl
@[simp] theorem advance_ports (s : State) (n : Nat) : (s.advance n).ports = s.ports := rfl
@[simp] theorem advance_peers (s : State) (n : Nat) : (s.advance n).peers = s.peers := rfl
@[simp] theorem advance_sending (s : State) (n : Nat) : (s.advance n).sending = s.sending := rfl
@[simp] theorem advance_mgmt (s : State) (n : Nat) : (s.advance n).mgmt = s.mgmt := rfl
@[simp] theorem advance_outbox (s : State) (n : Nat) : (s.advance n).outbox = s.outbox := rfl
@[simp] theorem advance_late (s : State) (n : Nat) : (s.advance n).late = s.late := rfl
@[simp] theorem advance_stores (s : State) (n : Nat) : (s.advance n).stores = s.stores := rfl
@[simp] theorem advance_past (s : State) (n : Nat) : (s.advance n).past = s.past := rfl
@[simp] theorem advance_served (s : State) (n : Nat) : (s.advance n).served = s.served := rfl
@[simp] theorem advance_due (s : State) (n : Nat) : (s.advance n).due = s.due := rfl
@[simp] theorem advance_wlog (s : State) (n : Nat) : (s.advance n).wlog = s.wlog := rfl
@[simp] theorem advance_credited (s : State) (n : Nat) : (s.advance n).credited = s.credited := rfl
@[simp] theorem advance_ringRel (s : State) (n : Nat) : (s.advance n).ringRel = s.ringRel := rfl
@[simp] theorem advance_incoming (s : State) (n : Nat) : (s.advance n).incoming = s.incoming := rfl
@[simp] theorem advance_account (s : State) (n : Nat) : (s.advance n).account = s.account := rfl

@[simp] theorem commit_clock (s : State) : (s.commit).clock = s.clock := rfl
@[simp] theorem commit_agenda (s : State) : (s.commit).agenda = s.agenda := rfl
@[simp] theorem commit_cell (s : State) : (s.commit).cell = s.cell := rfl
@[simp] theorem commit_fid (s : State) : (s.commit).fid = s.fid := rfl
@[simp] theorem commit_free (s : State) : (s.commit).free = s.free := rfl
@[simp] theorem commit_sectors (s : State) : (s.commit).sectors = s.sectors := rfl
@[simp] theorem commit_owners (s : State) : (s.commit).owners = s.owners := rfl
@[simp] theorem commit_dies (s : State) : (s.commit).dies = s.dies := rfl
@[simp] theorem commit_banks (s : State) : (s.commit).banks = s.banks := rfl
@[simp] theorem commit_mem (s : State) : (s.commit).mem = s.mem := rfl
@[simp] theorem commit_range (s : State) : (s.commit).range = s.range := rfl
@[simp] theorem commit_asids (s : State) : (s.commit).asids = s.asids := rfl
@[simp] theorem commit_qcur (s : State) : (s.commit).qcur = s.qcur := rfl
@[simp] theorem commit_htbase (s : State) : (s.commit).htbase = s.htbase := rfl
@[simp] theorem commit_htlen (s : State) : (s.commit).htlen = s.htlen := rfl
@[simp] theorem commit_dbtab (s : State) : (s.commit).dbtab = s.dbtab := rfl
@[simp] theorem commit_ltab (s : State) : (s.commit).ltab = s.ltab := rfl
@[simp] theorem commit_commtab (s : State) : (s.commit).commtab = s.commtab := rfl
@[simp] theorem commit_netcfg (s : State) : (s.commit).netcfg = s.netcfg := rfl
@[simp] theorem commit_pool (s : State) : (s.commit).pool = s.pool := rfl
@[simp] theorem commit_fring (s : State) : (s.commit).fring = s.fring := rfl
@[simp] theorem commit_fidx (s : State) : (s.commit).fidx = s.fidx := rfl
@[simp] theorem commit_queues (s : State) : (s.commit).queues = s.queues := rfl
@[simp] theorem commit_parks (s : State) : (s.commit).parks = s.parks := rfl
@[simp] theorem commit_bundles (s : State) : (s.commit).bundles = s.bundles := rfl
@[simp] theorem commit_bundleN (s : State) : (s.commit).bundleN = s.bundleN := rfl
@[simp] theorem commit_nets (s : State) : (s.commit).nets = s.nets := rfl
@[simp] theorem commit_bars (s : State) : (s.commit).bars = s.bars := rfl
@[simp] theorem commit_flights (s : State) : (s.commit).flights = s.flights := rfl
@[simp] theorem commit_credits (s : State) : (s.commit).credits = s.credits := rfl
@[simp] theorem commit_posts (s : State) : (s.commit).posts = s.posts := rfl
@[simp] theorem commit_postN (s : State) : (s.commit).postN = s.postN := rfl
@[simp] theorem commit_colls (s : State) : (s.commit).colls = s.colls := rfl
@[simp] theorem commit_wheel (s : State) : (s.commit).wheel = s.wheel := rfl
@[simp] theorem commit_saves (s : State) : (s.commit).saves = s.saves := rfl
@[simp] theorem commit_link (s : State) : (s.commit).link = s.link := rfl
@[simp] theorem commit_pcie (s : State) : (s.commit).pcie = s.pcie := rfl
@[simp] theorem commit_ports (s : State) : (s.commit).ports = s.ports := rfl
@[simp] theorem commit_peers (s : State) : (s.commit).peers = s.peers := rfl
@[simp] theorem commit_sending (s : State) : (s.commit).sending = s.sending := rfl
@[simp] theorem commit_mgmt (s : State) : (s.commit).mgmt = s.mgmt := rfl
@[simp] theorem commit_outbox (s : State) : (s.commit).outbox = s.outbox := rfl
@[simp] theorem commit_late (s : State) : (s.commit).late = s.late := rfl
@[simp] theorem commit_stores (s : State) : (s.commit).stores = s.stores := rfl
@[simp] theorem commit_past (s : State) : (s.commit).past = s.past := rfl
@[simp] theorem commit_served (s : State) : (s.commit).served = s.served := rfl
@[simp] theorem commit_due (s : State) : (s.commit).due = s.due := rfl
@[simp] theorem commit_wlog (s : State) : (s.commit).wlog = s.wlog := rfl
@[simp] theorem commit_credited (s : State) : (s.commit).credited = s.credited := rfl
@[simp] theorem commit_ringRel (s : State) : (s.commit).ringRel = s.ringRel := rfl
@[simp] theorem commit_incoming (s : State) : (s.commit).incoming = s.incoming := rfl
@[simp] theorem commit_account (s : State) : (s.commit).account = s.account := rfl

@[simp] theorem waitIn_clock (s : State) (i : Instr) (a : Option Nat) (d : Nat) : (s.waitIn i a d).clock = s.clock := rfl
@[simp] theorem waitIn_agenda (s : State) (i : Instr) (a : Option Nat) (d : Nat) : (s.waitIn i a d).agenda = s.agenda := rfl
@[simp] theorem waitIn_cell (s : State) (i : Instr) (a : Option Nat) (d : Nat) : (s.waitIn i a d).cell = s.cell := rfl
@[simp] theorem waitIn_fid (s : State) (i : Instr) (a : Option Nat) (d : Nat) : (s.waitIn i a d).fid = s.fid := rfl
@[simp] theorem waitIn_free (s : State) (i : Instr) (a : Option Nat) (d : Nat) : (s.waitIn i a d).free = s.free := rfl
@[simp] theorem waitIn_sectors (s : State) (i : Instr) (a : Option Nat) (d : Nat) : (s.waitIn i a d).sectors = s.sectors := rfl
@[simp] theorem waitIn_owners (s : State) (i : Instr) (a : Option Nat) (d : Nat) : (s.waitIn i a d).owners = s.owners := rfl
@[simp] theorem waitIn_dies (s : State) (i : Instr) (a : Option Nat) (d : Nat) : (s.waitIn i a d).dies = s.dies := rfl
@[simp] theorem waitIn_banks (s : State) (i : Instr) (a : Option Nat) (d : Nat) : (s.waitIn i a d).banks = s.banks := rfl
@[simp] theorem waitIn_mem (s : State) (i : Instr) (a : Option Nat) (d : Nat) : (s.waitIn i a d).mem = s.mem := rfl
@[simp] theorem waitIn_range (s : State) (i : Instr) (a : Option Nat) (d : Nat) : (s.waitIn i a d).range = s.range := rfl
@[simp] theorem waitIn_asids (s : State) (i : Instr) (a : Option Nat) (d : Nat) : (s.waitIn i a d).asids = s.asids := rfl
@[simp] theorem waitIn_qcur (s : State) (i : Instr) (a : Option Nat) (d : Nat) : (s.waitIn i a d).qcur = s.qcur := rfl
@[simp] theorem waitIn_htbase (s : State) (i : Instr) (a : Option Nat) (d : Nat) : (s.waitIn i a d).htbase = s.htbase := rfl
@[simp] theorem waitIn_htlen (s : State) (i : Instr) (a : Option Nat) (d : Nat) : (s.waitIn i a d).htlen = s.htlen := rfl
@[simp] theorem waitIn_dbtab (s : State) (i : Instr) (a : Option Nat) (d : Nat) : (s.waitIn i a d).dbtab = s.dbtab := rfl
@[simp] theorem waitIn_ltab (s : State) (i : Instr) (a : Option Nat) (d : Nat) : (s.waitIn i a d).ltab = s.ltab := rfl
@[simp] theorem waitIn_commtab (s : State) (i : Instr) (a : Option Nat) (d : Nat) : (s.waitIn i a d).commtab = s.commtab := rfl
@[simp] theorem waitIn_netcfg (s : State) (i : Instr) (a : Option Nat) (d : Nat) : (s.waitIn i a d).netcfg = s.netcfg := rfl
@[simp] theorem waitIn_pool (s : State) (i : Instr) (a : Option Nat) (d : Nat) : (s.waitIn i a d).pool = s.pool := rfl
@[simp] theorem waitIn_fring (s : State) (i : Instr) (a : Option Nat) (d : Nat) : (s.waitIn i a d).fring = s.fring := rfl
@[simp] theorem waitIn_fidx (s : State) (i : Instr) (a : Option Nat) (d : Nat) : (s.waitIn i a d).fidx = s.fidx := rfl
@[simp] theorem waitIn_queues (s : State) (i : Instr) (a : Option Nat) (d : Nat) : (s.waitIn i a d).queues = s.queues := rfl
@[simp] theorem waitIn_parks (s : State) (i : Instr) (a : Option Nat) (d : Nat) : (s.waitIn i a d).parks = s.parks := rfl
@[simp] theorem waitIn_bundles (s : State) (i : Instr) (a : Option Nat) (d : Nat) : (s.waitIn i a d).bundles = s.bundles := rfl
@[simp] theorem waitIn_bundleN (s : State) (i : Instr) (a : Option Nat) (d : Nat) : (s.waitIn i a d).bundleN = s.bundleN := rfl
@[simp] theorem waitIn_nets (s : State) (i : Instr) (a : Option Nat) (d : Nat) : (s.waitIn i a d).nets = s.nets := rfl
@[simp] theorem waitIn_bars (s : State) (i : Instr) (a : Option Nat) (d : Nat) : (s.waitIn i a d).bars = s.bars := rfl
@[simp] theorem waitIn_flights (s : State) (i : Instr) (a : Option Nat) (d : Nat) : (s.waitIn i a d).flights = s.flights := rfl
@[simp] theorem waitIn_credits (s : State) (i : Instr) (a : Option Nat) (d : Nat) : (s.waitIn i a d).credits = s.credits := rfl
@[simp] theorem waitIn_posts (s : State) (i : Instr) (a : Option Nat) (d : Nat) : (s.waitIn i a d).posts = s.posts := rfl
@[simp] theorem waitIn_postN (s : State) (i : Instr) (a : Option Nat) (d : Nat) : (s.waitIn i a d).postN = s.postN := rfl
@[simp] theorem waitIn_colls (s : State) (i : Instr) (a : Option Nat) (d : Nat) : (s.waitIn i a d).colls = s.colls := rfl
@[simp] theorem waitIn_wheel (s : State) (i : Instr) (a : Option Nat) (d : Nat) : (s.waitIn i a d).wheel = s.wheel := rfl
@[simp] theorem waitIn_saves (s : State) (i : Instr) (a : Option Nat) (d : Nat) : (s.waitIn i a d).saves = s.saves := rfl
@[simp] theorem waitIn_link (s : State) (i : Instr) (a : Option Nat) (d : Nat) : (s.waitIn i a d).link = s.link := rfl
@[simp] theorem waitIn_pcie (s : State) (i : Instr) (a : Option Nat) (d : Nat) : (s.waitIn i a d).pcie = s.pcie := rfl
@[simp] theorem waitIn_ports (s : State) (i : Instr) (a : Option Nat) (d : Nat) : (s.waitIn i a d).ports = s.ports := rfl
@[simp] theorem waitIn_peers (s : State) (i : Instr) (a : Option Nat) (d : Nat) : (s.waitIn i a d).peers = s.peers := rfl
@[simp] theorem waitIn_sending (s : State) (i : Instr) (a : Option Nat) (d : Nat) : (s.waitIn i a d).sending = s.sending := rfl
@[simp] theorem waitIn_mgmt (s : State) (i : Instr) (a : Option Nat) (d : Nat) : (s.waitIn i a d).mgmt = s.mgmt := rfl
@[simp] theorem waitIn_outbox (s : State) (i : Instr) (a : Option Nat) (d : Nat) : (s.waitIn i a d).outbox = s.outbox := rfl
@[simp] theorem waitIn_late (s : State) (i : Instr) (a : Option Nat) (d : Nat) : (s.waitIn i a d).late = s.late := rfl
@[simp] theorem waitIn_stores (s : State) (i : Instr) (a : Option Nat) (d : Nat) : (s.waitIn i a d).stores = s.stores := rfl
@[simp] theorem waitIn_past (s : State) (i : Instr) (a : Option Nat) (d : Nat) : (s.waitIn i a d).past = s.past := rfl
@[simp] theorem waitIn_served (s : State) (i : Instr) (a : Option Nat) (d : Nat) : (s.waitIn i a d).served = s.served := rfl
@[simp] theorem waitIn_due (s : State) (i : Instr) (a : Option Nat) (d : Nat) : (s.waitIn i a d).due = s.due := rfl
@[simp] theorem waitIn_wlog (s : State) (i : Instr) (a : Option Nat) (d : Nat) : (s.waitIn i a d).wlog = s.wlog := rfl
@[simp] theorem waitIn_credited (s : State) (i : Instr) (a : Option Nat) (d : Nat) : (s.waitIn i a d).credited = s.credited := rfl
@[simp] theorem waitIn_ringRel (s : State) (i : Instr) (a : Option Nat) (d : Nat) : (s.waitIn i a d).ringRel = s.ringRel := rfl
@[simp] theorem waitIn_incoming (s : State) (i : Instr) (a : Option Nat) (d : Nat) : (s.waitIn i a d).incoming = s.incoming := rfl
@[simp] theorem waitIn_account (s : State) (i : Instr) (a : Option Nat) (d : Nat) : (s.waitIn i a d).account = s.account := rfl

@[simp] theorem hold_clock (s : State) (h : Held) : (s.hold h).clock = s.clock := rfl
@[simp] theorem hold_agenda (s : State) (h : Held) : (s.hold h).agenda = s.agenda := rfl
@[simp] theorem hold_cell (s : State) (h : Held) : (s.hold h).cell = s.cell := rfl
@[simp] theorem hold_fid (s : State) (h : Held) : (s.hold h).fid = s.fid := rfl
@[simp] theorem hold_free (s : State) (h : Held) : (s.hold h).free = s.free := rfl
@[simp] theorem hold_sectors (s : State) (h : Held) : (s.hold h).sectors = s.sectors := rfl
@[simp] theorem hold_owners (s : State) (h : Held) : (s.hold h).owners = s.owners := rfl
@[simp] theorem hold_dies (s : State) (h : Held) : (s.hold h).dies = s.dies := rfl
@[simp] theorem hold_banks (s : State) (h : Held) : (s.hold h).banks = s.banks := rfl
@[simp] theorem hold_mem (s : State) (h : Held) : (s.hold h).mem = s.mem := rfl
@[simp] theorem hold_range (s : State) (h : Held) : (s.hold h).range = s.range := rfl
@[simp] theorem hold_asids (s : State) (h : Held) : (s.hold h).asids = s.asids := rfl
@[simp] theorem hold_qcur (s : State) (h : Held) : (s.hold h).qcur = s.qcur := rfl
@[simp] theorem hold_htbase (s : State) (h : Held) : (s.hold h).htbase = s.htbase := rfl
@[simp] theorem hold_htlen (s : State) (h : Held) : (s.hold h).htlen = s.htlen := rfl
@[simp] theorem hold_dbtab (s : State) (h : Held) : (s.hold h).dbtab = s.dbtab := rfl
@[simp] theorem hold_ltab (s : State) (h : Held) : (s.hold h).ltab = s.ltab := rfl
@[simp] theorem hold_commtab (s : State) (h : Held) : (s.hold h).commtab = s.commtab := rfl
@[simp] theorem hold_netcfg (s : State) (h : Held) : (s.hold h).netcfg = s.netcfg := rfl
@[simp] theorem hold_pool (s : State) (h : Held) : (s.hold h).pool = s.pool := rfl
@[simp] theorem hold_fring (s : State) (h : Held) : (s.hold h).fring = s.fring := rfl
@[simp] theorem hold_fidx (s : State) (h : Held) : (s.hold h).fidx = s.fidx := rfl
@[simp] theorem hold_queues (s : State) (h : Held) : (s.hold h).queues = s.queues := rfl
@[simp] theorem hold_parks (s : State) (h : Held) : (s.hold h).parks = s.parks := rfl
@[simp] theorem hold_bundles (s : State) (h : Held) : (s.hold h).bundles = s.bundles := rfl
@[simp] theorem hold_bundleN (s : State) (h : Held) : (s.hold h).bundleN = s.bundleN := rfl
@[simp] theorem hold_nets (s : State) (h : Held) : (s.hold h).nets = s.nets := rfl
@[simp] theorem hold_bars (s : State) (h : Held) : (s.hold h).bars = s.bars := rfl
@[simp] theorem hold_flights (s : State) (h : Held) : (s.hold h).flights = s.flights := rfl
@[simp] theorem hold_credits (s : State) (h : Held) : (s.hold h).credits = s.credits := rfl
@[simp] theorem hold_posts (s : State) (h : Held) : (s.hold h).posts = s.posts := rfl
@[simp] theorem hold_postN (s : State) (h : Held) : (s.hold h).postN = s.postN := rfl
@[simp] theorem hold_colls (s : State) (h : Held) : (s.hold h).colls = s.colls := rfl
@[simp] theorem hold_wheel (s : State) (h : Held) : (s.hold h).wheel = s.wheel := rfl
@[simp] theorem hold_saves (s : State) (h : Held) : (s.hold h).saves = s.saves := rfl
@[simp] theorem hold_link (s : State) (h : Held) : (s.hold h).link = s.link := rfl
@[simp] theorem hold_pcie (s : State) (h : Held) : (s.hold h).pcie = s.pcie := rfl
@[simp] theorem hold_ports (s : State) (h : Held) : (s.hold h).ports = s.ports := rfl
@[simp] theorem hold_peers (s : State) (h : Held) : (s.hold h).peers = s.peers := rfl
@[simp] theorem hold_sending (s : State) (h : Held) : (s.hold h).sending = s.sending := rfl
@[simp] theorem hold_mgmt (s : State) (h : Held) : (s.hold h).mgmt = s.mgmt := rfl
@[simp] theorem hold_outbox (s : State) (h : Held) : (s.hold h).outbox = s.outbox := rfl
@[simp] theorem hold_late (s : State) (h : Held) : (s.hold h).late = s.late := rfl
@[simp] theorem hold_stores (s : State) (h : Held) : (s.hold h).stores = s.stores := rfl
@[simp] theorem hold_past (s : State) (h : Held) : (s.hold h).past = s.past := rfl
@[simp] theorem hold_served (s : State) (h : Held) : (s.hold h).served = s.served := rfl
@[simp] theorem hold_due (s : State) (h : Held) : (s.hold h).due = s.due := rfl
@[simp] theorem hold_wlog (s : State) (h : Held) : (s.hold h).wlog = s.wlog := rfl
@[simp] theorem hold_credited (s : State) (h : Held) : (s.hold h).credited = s.credited := rfl
@[simp] theorem hold_ringRel (s : State) (h : Held) : (s.hold h).ringRel = s.ringRel := rfl
@[simp] theorem hold_incoming (s : State) (h : Held) : (s.hold h).incoming = s.incoming := rfl
@[simp] theorem hold_account (s : State) (h : Held) : (s.hold h).account = s.account := rfl

@[simp] theorem flag_clock (s : State) (b : BitVec 5) : (s.flag b).clock = s.clock := rfl
@[simp] theorem flag_agenda (s : State) (b : BitVec 5) : (s.flag b).agenda = s.agenda := rfl
@[simp] theorem flag_cell (s : State) (b : BitVec 5) : (s.flag b).cell = s.cell := rfl
@[simp] theorem flag_fid (s : State) (b : BitVec 5) : (s.flag b).fid = s.fid := rfl
@[simp] theorem flag_free (s : State) (b : BitVec 5) : (s.flag b).free = s.free := rfl
@[simp] theorem flag_sectors (s : State) (b : BitVec 5) : (s.flag b).sectors = s.sectors := rfl
@[simp] theorem flag_owners (s : State) (b : BitVec 5) : (s.flag b).owners = s.owners := rfl
@[simp] theorem flag_dies (s : State) (b : BitVec 5) : (s.flag b).dies = s.dies := rfl
@[simp] theorem flag_banks (s : State) (b : BitVec 5) : (s.flag b).banks = s.banks := rfl
@[simp] theorem flag_mem (s : State) (b : BitVec 5) : (s.flag b).mem = s.mem := rfl
@[simp] theorem flag_range (s : State) (b : BitVec 5) : (s.flag b).range = s.range := rfl
@[simp] theorem flag_asids (s : State) (b : BitVec 5) : (s.flag b).asids = s.asids := rfl
@[simp] theorem flag_qcur (s : State) (b : BitVec 5) : (s.flag b).qcur = s.qcur := rfl
@[simp] theorem flag_htbase (s : State) (b : BitVec 5) : (s.flag b).htbase = s.htbase := rfl
@[simp] theorem flag_htlen (s : State) (b : BitVec 5) : (s.flag b).htlen = s.htlen := rfl
@[simp] theorem flag_dbtab (s : State) (b : BitVec 5) : (s.flag b).dbtab = s.dbtab := rfl
@[simp] theorem flag_ltab (s : State) (b : BitVec 5) : (s.flag b).ltab = s.ltab := rfl
@[simp] theorem flag_commtab (s : State) (b : BitVec 5) : (s.flag b).commtab = s.commtab := rfl
@[simp] theorem flag_netcfg (s : State) (b : BitVec 5) : (s.flag b).netcfg = s.netcfg := rfl
@[simp] theorem flag_pool (s : State) (b : BitVec 5) : (s.flag b).pool = s.pool := rfl
@[simp] theorem flag_fring (s : State) (b : BitVec 5) : (s.flag b).fring = s.fring := rfl
@[simp] theorem flag_fidx (s : State) (b : BitVec 5) : (s.flag b).fidx = s.fidx := rfl
@[simp] theorem flag_queues (s : State) (b : BitVec 5) : (s.flag b).queues = s.queues := rfl
@[simp] theorem flag_parks (s : State) (b : BitVec 5) : (s.flag b).parks = s.parks := rfl
@[simp] theorem flag_bundles (s : State) (b : BitVec 5) : (s.flag b).bundles = s.bundles := rfl
@[simp] theorem flag_bundleN (s : State) (b : BitVec 5) : (s.flag b).bundleN = s.bundleN := rfl
@[simp] theorem flag_nets (s : State) (b : BitVec 5) : (s.flag b).nets = s.nets := rfl
@[simp] theorem flag_bars (s : State) (b : BitVec 5) : (s.flag b).bars = s.bars := rfl
@[simp] theorem flag_flights (s : State) (b : BitVec 5) : (s.flag b).flights = s.flights := rfl
@[simp] theorem flag_credits (s : State) (b : BitVec 5) : (s.flag b).credits = s.credits := rfl
@[simp] theorem flag_posts (s : State) (b : BitVec 5) : (s.flag b).posts = s.posts := rfl
@[simp] theorem flag_postN (s : State) (b : BitVec 5) : (s.flag b).postN = s.postN := rfl
@[simp] theorem flag_colls (s : State) (b : BitVec 5) : (s.flag b).colls = s.colls := rfl
@[simp] theorem flag_wheel (s : State) (b : BitVec 5) : (s.flag b).wheel = s.wheel := rfl
@[simp] theorem flag_saves (s : State) (b : BitVec 5) : (s.flag b).saves = s.saves := rfl
@[simp] theorem flag_link (s : State) (b : BitVec 5) : (s.flag b).link = s.link := rfl
@[simp] theorem flag_pcie (s : State) (b : BitVec 5) : (s.flag b).pcie = s.pcie := rfl
@[simp] theorem flag_ports (s : State) (b : BitVec 5) : (s.flag b).ports = s.ports := rfl
@[simp] theorem flag_peers (s : State) (b : BitVec 5) : (s.flag b).peers = s.peers := rfl
@[simp] theorem flag_sending (s : State) (b : BitVec 5) : (s.flag b).sending = s.sending := rfl
@[simp] theorem flag_mgmt (s : State) (b : BitVec 5) : (s.flag b).mgmt = s.mgmt := rfl
@[simp] theorem flag_outbox (s : State) (b : BitVec 5) : (s.flag b).outbox = s.outbox := rfl
@[simp] theorem flag_late (s : State) (b : BitVec 5) : (s.flag b).late = s.late := rfl
@[simp] theorem flag_stores (s : State) (b : BitVec 5) : (s.flag b).stores = s.stores := rfl
@[simp] theorem flag_past (s : State) (b : BitVec 5) : (s.flag b).past = s.past := rfl
@[simp] theorem flag_served (s : State) (b : BitVec 5) : (s.flag b).served = s.served := rfl
@[simp] theorem flag_due (s : State) (b : BitVec 5) : (s.flag b).due = s.due := rfl
@[simp] theorem flag_wlog (s : State) (b : BitVec 5) : (s.flag b).wlog = s.wlog := rfl
@[simp] theorem flag_credited (s : State) (b : BitVec 5) : (s.flag b).credited = s.credited := rfl
@[simp] theorem flag_ringRel (s : State) (b : BitVec 5) : (s.flag b).ringRel = s.ringRel := rfl
@[simp] theorem flag_incoming (s : State) (b : BitVec 5) : (s.flag b).incoming = s.incoming := rfl
@[simp] theorem flag_account (s : State) (b : BitVec 5) : (s.flag b).account = s.account := rfl

@[simp] theorem bankWrite_clock (s : State) (o : Nat) (b : List Byte) : (s.bankWrite o b).clock = s.clock := rfl
@[simp] theorem bankWrite_agenda (s : State) (o : Nat) (b : List Byte) : (s.bankWrite o b).agenda = s.agenda := rfl
@[simp] theorem bankWrite_cell (s : State) (o : Nat) (b : List Byte) : (s.bankWrite o b).cell = s.cell := rfl
@[simp] theorem bankWrite_fid (s : State) (o : Nat) (b : List Byte) : (s.bankWrite o b).fid = s.fid := rfl
@[simp] theorem bankWrite_free (s : State) (o : Nat) (b : List Byte) : (s.bankWrite o b).free = s.free := rfl
@[simp] theorem bankWrite_cells (s : State) (o : Nat) (b : List Byte) : (s.bankWrite o b).cells = s.cells := rfl
@[simp] theorem bankWrite_sectors (s : State) (o : Nat) (b : List Byte) : (s.bankWrite o b).sectors = s.sectors := rfl
@[simp] theorem bankWrite_owners (s : State) (o : Nat) (b : List Byte) : (s.bankWrite o b).owners = s.owners := rfl
@[simp] theorem bankWrite_dies (s : State) (o : Nat) (b : List Byte) : (s.bankWrite o b).dies = s.dies := rfl
@[simp] theorem bankWrite_mem (s : State) (o : Nat) (b : List Byte) : (s.bankWrite o b).mem = s.mem := rfl
@[simp] theorem bankWrite_range (s : State) (o : Nat) (b : List Byte) : (s.bankWrite o b).range = s.range := rfl
@[simp] theorem bankWrite_asids (s : State) (o : Nat) (b : List Byte) : (s.bankWrite o b).asids = s.asids := rfl
@[simp] theorem bankWrite_qcur (s : State) (o : Nat) (b : List Byte) : (s.bankWrite o b).qcur = s.qcur := rfl
@[simp] theorem bankWrite_htbase (s : State) (o : Nat) (b : List Byte) : (s.bankWrite o b).htbase = s.htbase := rfl
@[simp] theorem bankWrite_htlen (s : State) (o : Nat) (b : List Byte) : (s.bankWrite o b).htlen = s.htlen := rfl
@[simp] theorem bankWrite_dbtab (s : State) (o : Nat) (b : List Byte) : (s.bankWrite o b).dbtab = s.dbtab := rfl
@[simp] theorem bankWrite_ltab (s : State) (o : Nat) (b : List Byte) : (s.bankWrite o b).ltab = s.ltab := rfl
@[simp] theorem bankWrite_commtab (s : State) (o : Nat) (b : List Byte) : (s.bankWrite o b).commtab = s.commtab := rfl
@[simp] theorem bankWrite_netcfg (s : State) (o : Nat) (b : List Byte) : (s.bankWrite o b).netcfg = s.netcfg := rfl
@[simp] theorem bankWrite_pool (s : State) (o : Nat) (b : List Byte) : (s.bankWrite o b).pool = s.pool := rfl
@[simp] theorem bankWrite_fring (s : State) (o : Nat) (b : List Byte) : (s.bankWrite o b).fring = s.fring := rfl
@[simp] theorem bankWrite_fidx (s : State) (o : Nat) (b : List Byte) : (s.bankWrite o b).fidx = s.fidx := rfl
@[simp] theorem bankWrite_queues (s : State) (o : Nat) (b : List Byte) : (s.bankWrite o b).queues = s.queues := rfl
@[simp] theorem bankWrite_parks (s : State) (o : Nat) (b : List Byte) : (s.bankWrite o b).parks = s.parks := rfl
@[simp] theorem bankWrite_bundles (s : State) (o : Nat) (b : List Byte) : (s.bankWrite o b).bundles = s.bundles := rfl
@[simp] theorem bankWrite_bundleN (s : State) (o : Nat) (b : List Byte) : (s.bankWrite o b).bundleN = s.bundleN := rfl
@[simp] theorem bankWrite_nets (s : State) (o : Nat) (b : List Byte) : (s.bankWrite o b).nets = s.nets := rfl
@[simp] theorem bankWrite_bars (s : State) (o : Nat) (b : List Byte) : (s.bankWrite o b).bars = s.bars := rfl
@[simp] theorem bankWrite_flights (s : State) (o : Nat) (b : List Byte) : (s.bankWrite o b).flights = s.flights := rfl
@[simp] theorem bankWrite_credits (s : State) (o : Nat) (b : List Byte) : (s.bankWrite o b).credits = s.credits := rfl
@[simp] theorem bankWrite_posts (s : State) (o : Nat) (b : List Byte) : (s.bankWrite o b).posts = s.posts := rfl
@[simp] theorem bankWrite_postN (s : State) (o : Nat) (b : List Byte) : (s.bankWrite o b).postN = s.postN := rfl
@[simp] theorem bankWrite_colls (s : State) (o : Nat) (b : List Byte) : (s.bankWrite o b).colls = s.colls := rfl
@[simp] theorem bankWrite_wheel (s : State) (o : Nat) (b : List Byte) : (s.bankWrite o b).wheel = s.wheel := rfl
@[simp] theorem bankWrite_saves (s : State) (o : Nat) (b : List Byte) : (s.bankWrite o b).saves = s.saves := rfl
@[simp] theorem bankWrite_link (s : State) (o : Nat) (b : List Byte) : (s.bankWrite o b).link = s.link := rfl
@[simp] theorem bankWrite_pcie (s : State) (o : Nat) (b : List Byte) : (s.bankWrite o b).pcie = s.pcie := rfl
@[simp] theorem bankWrite_ports (s : State) (o : Nat) (b : List Byte) : (s.bankWrite o b).ports = s.ports := rfl
@[simp] theorem bankWrite_peers (s : State) (o : Nat) (b : List Byte) : (s.bankWrite o b).peers = s.peers := rfl
@[simp] theorem bankWrite_sending (s : State) (o : Nat) (b : List Byte) : (s.bankWrite o b).sending = s.sending := rfl
@[simp] theorem bankWrite_mgmt (s : State) (o : Nat) (b : List Byte) : (s.bankWrite o b).mgmt = s.mgmt := rfl
@[simp] theorem bankWrite_outbox (s : State) (o : Nat) (b : List Byte) : (s.bankWrite o b).outbox = s.outbox := rfl
@[simp] theorem bankWrite_late (s : State) (o : Nat) (b : List Byte) : (s.bankWrite o b).late = s.late := rfl
@[simp] theorem bankWrite_stores (s : State) (o : Nat) (b : List Byte) : (s.bankWrite o b).stores = s.stores := rfl
@[simp] theorem bankWrite_past (s : State) (o : Nat) (b : List Byte) : (s.bankWrite o b).past = s.past := rfl
@[simp] theorem bankWrite_served (s : State) (o : Nat) (b : List Byte) : (s.bankWrite o b).served = s.served := rfl
@[simp] theorem bankWrite_due (s : State) (o : Nat) (b : List Byte) : (s.bankWrite o b).due = s.due := rfl
@[simp] theorem bankWrite_wlog (s : State) (o : Nat) (b : List Byte) : (s.bankWrite o b).wlog = s.wlog := rfl
@[simp] theorem bankWrite_credited (s : State) (o : Nat) (b : List Byte) : (s.bankWrite o b).credited = s.credited := rfl
@[simp] theorem bankWrite_ringRel (s : State) (o : Nat) (b : List Byte) : (s.bankWrite o b).ringRel = s.ringRel := rfl
@[simp] theorem bankWrite_incoming (s : State) (o : Nat) (b : List Byte) : (s.bankWrite o b).incoming = s.incoming := rfl
@[simp] theorem bankWrite_account (s : State) (o : Nat) (b : List Byte) : (s.bankWrite o b).account = s.account := rfl

@[simp] theorem send_clock (s : State) (a b c n : Nat) (x : Cargo) : (s.send a b c n x).clock = s.clock := rfl
@[simp] theorem send_agenda (s : State) (a b c n : Nat) (x : Cargo) : (s.send a b c n x).agenda = s.agenda := rfl
@[simp] theorem send_cell (s : State) (a b c n : Nat) (x : Cargo) : (s.send a b c n x).cell = s.cell := rfl
@[simp] theorem send_fid (s : State) (a b c n : Nat) (x : Cargo) : (s.send a b c n x).fid = s.fid := rfl
@[simp] theorem send_free (s : State) (a b c n : Nat) (x : Cargo) : (s.send a b c n x).free = s.free := rfl
@[simp] theorem send_cells (s : State) (a b c n : Nat) (x : Cargo) : (s.send a b c n x).cells = s.cells := rfl
@[simp] theorem send_sectors (s : State) (a b c n : Nat) (x : Cargo) : (s.send a b c n x).sectors = s.sectors := rfl
@[simp] theorem send_owners (s : State) (a b c n : Nat) (x : Cargo) : (s.send a b c n x).owners = s.owners := rfl
@[simp] theorem send_dies (s : State) (a b c n : Nat) (x : Cargo) : (s.send a b c n x).dies = s.dies := rfl
@[simp] theorem send_banks (s : State) (a b c n : Nat) (x : Cargo) : (s.send a b c n x).banks = s.banks := rfl
@[simp] theorem send_mem (s : State) (a b c n : Nat) (x : Cargo) : (s.send a b c n x).mem = s.mem := rfl
@[simp] theorem send_range (s : State) (a b c n : Nat) (x : Cargo) : (s.send a b c n x).range = s.range := rfl
@[simp] theorem send_asids (s : State) (a b c n : Nat) (x : Cargo) : (s.send a b c n x).asids = s.asids := rfl
@[simp] theorem send_qcur (s : State) (a b c n : Nat) (x : Cargo) : (s.send a b c n x).qcur = s.qcur := rfl
@[simp] theorem send_htbase (s : State) (a b c n : Nat) (x : Cargo) : (s.send a b c n x).htbase = s.htbase := rfl
@[simp] theorem send_htlen (s : State) (a b c n : Nat) (x : Cargo) : (s.send a b c n x).htlen = s.htlen := rfl
@[simp] theorem send_dbtab (s : State) (a b c n : Nat) (x : Cargo) : (s.send a b c n x).dbtab = s.dbtab := rfl
@[simp] theorem send_ltab (s : State) (a b c n : Nat) (x : Cargo) : (s.send a b c n x).ltab = s.ltab := rfl
@[simp] theorem send_commtab (s : State) (a b c n : Nat) (x : Cargo) : (s.send a b c n x).commtab = s.commtab := rfl
@[simp] theorem send_netcfg (s : State) (a b c n : Nat) (x : Cargo) : (s.send a b c n x).netcfg = s.netcfg := rfl
@[simp] theorem send_pool (s : State) (a b c n : Nat) (x : Cargo) : (s.send a b c n x).pool = s.pool := rfl
@[simp] theorem send_fring (s : State) (a b c n : Nat) (x : Cargo) : (s.send a b c n x).fring = s.fring := rfl
@[simp] theorem send_fidx (s : State) (a b c n : Nat) (x : Cargo) : (s.send a b c n x).fidx = s.fidx := rfl
@[simp] theorem send_queues (s : State) (a b c n : Nat) (x : Cargo) : (s.send a b c n x).queues = s.queues := rfl
@[simp] theorem send_parks (s : State) (a b c n : Nat) (x : Cargo) : (s.send a b c n x).parks = s.parks := rfl
@[simp] theorem send_bundles (s : State) (a b c n : Nat) (x : Cargo) : (s.send a b c n x).bundles = s.bundles := rfl
@[simp] theorem send_bundleN (s : State) (a b c n : Nat) (x : Cargo) : (s.send a b c n x).bundleN = s.bundleN := rfl
@[simp] theorem send_nets (s : State) (a b c n : Nat) (x : Cargo) : (s.send a b c n x).nets = s.nets := rfl
@[simp] theorem send_bars (s : State) (a b c n : Nat) (x : Cargo) : (s.send a b c n x).bars = s.bars := rfl
@[simp] theorem send_credits (s : State) (a b c n : Nat) (x : Cargo) : (s.send a b c n x).credits = s.credits := rfl
@[simp] theorem send_posts (s : State) (a b c n : Nat) (x : Cargo) : (s.send a b c n x).posts = s.posts := rfl
@[simp] theorem send_postN (s : State) (a b c n : Nat) (x : Cargo) : (s.send a b c n x).postN = s.postN := rfl
@[simp] theorem send_colls (s : State) (a b c n : Nat) (x : Cargo) : (s.send a b c n x).colls = s.colls := rfl
@[simp] theorem send_wheel (s : State) (a b c n : Nat) (x : Cargo) : (s.send a b c n x).wheel = s.wheel := rfl
@[simp] theorem send_saves (s : State) (a b c n : Nat) (x : Cargo) : (s.send a b c n x).saves = s.saves := rfl
@[simp] theorem send_link (s : State) (a b c n : Nat) (x : Cargo) : (s.send a b c n x).link = s.link := rfl
@[simp] theorem send_pcie (s : State) (a b c n : Nat) (x : Cargo) : (s.send a b c n x).pcie = s.pcie := rfl
@[simp] theorem send_ports (s : State) (a b c n : Nat) (x : Cargo) : (s.send a b c n x).ports = s.ports := rfl
@[simp] theorem send_peers (s : State) (a b c n : Nat) (x : Cargo) : (s.send a b c n x).peers = s.peers := rfl
@[simp] theorem send_sending (s : State) (a b c n : Nat) (x : Cargo) : (s.send a b c n x).sending = s.sending := rfl
@[simp] theorem send_mgmt (s : State) (a b c n : Nat) (x : Cargo) : (s.send a b c n x).mgmt = s.mgmt := rfl
@[simp] theorem send_outbox (s : State) (a b c n : Nat) (x : Cargo) : (s.send a b c n x).outbox = s.outbox := rfl
@[simp] theorem send_late (s : State) (a b c n : Nat) (x : Cargo) : (s.send a b c n x).late = s.late := rfl
@[simp] theorem send_stores (s : State) (a b c n : Nat) (x : Cargo) : (s.send a b c n x).stores = s.stores := rfl
@[simp] theorem send_past (s : State) (a b c n : Nat) (x : Cargo) : (s.send a b c n x).past = s.past := rfl
@[simp] theorem send_served (s : State) (a b c n : Nat) (x : Cargo) : (s.send a b c n x).served = s.served := rfl
@[simp] theorem send_due (s : State) (a b c n : Nat) (x : Cargo) : (s.send a b c n x).due = s.due := rfl
@[simp] theorem send_wlog (s : State) (a b c n : Nat) (x : Cargo) : (s.send a b c n x).wlog = s.wlog := rfl
@[simp] theorem send_credited (s : State) (a b c n : Nat) (x : Cargo) : (s.send a b c n x).credited = s.credited := rfl
@[simp] theorem send_ringRel (s : State) (a b c n : Nat) (x : Cargo) : (s.send a b c n x).ringRel = s.ringRel := rfl
@[simp] theorem send_incoming (s : State) (a b c n : Nat) (x : Cargo) : (s.send a b c n x).incoming = s.incoming := rfl
@[simp] theorem send_account (s : State) (a b c n : Nat) (x : Cargo) : (s.send a b c n x).account = s.account := rfl

@[simp] theorem modNet_clock (s : State) (n : Nat) (f : Net → Net) : (s.modNet n f).clock = s.clock := by
  unfold modNet; split <;> rfl
@[simp] theorem modNet_agenda (s : State) (n : Nat) (f : Net → Net) : (s.modNet n f).agenda = s.agenda := by
  unfold modNet; split <;> rfl
@[simp] theorem modNet_cell (s : State) (n : Nat) (f : Net → Net) : (s.modNet n f).cell = s.cell := by
  unfold modNet; split <;> rfl
@[simp] theorem modNet_fid (s : State) (n : Nat) (f : Net → Net) : (s.modNet n f).fid = s.fid := by
  unfold modNet; split <;> rfl
@[simp] theorem modNet_free (s : State) (n : Nat) (f : Net → Net) : (s.modNet n f).free = s.free := by
  unfold modNet; split <;> rfl
@[simp] theorem modNet_cells (s : State) (n : Nat) (f : Net → Net) : (s.modNet n f).cells = s.cells := by
  unfold modNet; split <;> rfl
@[simp] theorem modNet_sectors (s : State) (n : Nat) (f : Net → Net) : (s.modNet n f).sectors = s.sectors := by
  unfold modNet; split <;> rfl
@[simp] theorem modNet_owners (s : State) (n : Nat) (f : Net → Net) : (s.modNet n f).owners = s.owners := by
  unfold modNet; split <;> rfl
@[simp] theorem modNet_dies (s : State) (n : Nat) (f : Net → Net) : (s.modNet n f).dies = s.dies := by
  unfold modNet; split <;> rfl
@[simp] theorem modNet_banks (s : State) (n : Nat) (f : Net → Net) : (s.modNet n f).banks = s.banks := by
  unfold modNet; split <;> rfl
@[simp] theorem modNet_mem (s : State) (n : Nat) (f : Net → Net) : (s.modNet n f).mem = s.mem := by
  unfold modNet; split <;> rfl
@[simp] theorem modNet_range (s : State) (n : Nat) (f : Net → Net) : (s.modNet n f).range = s.range := by
  unfold modNet; split <;> rfl
@[simp] theorem modNet_asids (s : State) (n : Nat) (f : Net → Net) : (s.modNet n f).asids = s.asids := by
  unfold modNet; split <;> rfl
@[simp] theorem modNet_qcur (s : State) (n : Nat) (f : Net → Net) : (s.modNet n f).qcur = s.qcur := by
  unfold modNet; split <;> rfl
@[simp] theorem modNet_htbase (s : State) (n : Nat) (f : Net → Net) : (s.modNet n f).htbase = s.htbase := by
  unfold modNet; split <;> rfl
@[simp] theorem modNet_htlen (s : State) (n : Nat) (f : Net → Net) : (s.modNet n f).htlen = s.htlen := by
  unfold modNet; split <;> rfl
@[simp] theorem modNet_dbtab (s : State) (n : Nat) (f : Net → Net) : (s.modNet n f).dbtab = s.dbtab := by
  unfold modNet; split <;> rfl
@[simp] theorem modNet_ltab (s : State) (n : Nat) (f : Net → Net) : (s.modNet n f).ltab = s.ltab := by
  unfold modNet; split <;> rfl
@[simp] theorem modNet_commtab (s : State) (n : Nat) (f : Net → Net) : (s.modNet n f).commtab = s.commtab := by
  unfold modNet; split <;> rfl
@[simp] theorem modNet_netcfg (s : State) (n : Nat) (f : Net → Net) : (s.modNet n f).netcfg = s.netcfg := by
  unfold modNet; split <;> rfl
@[simp] theorem modNet_pool (s : State) (n : Nat) (f : Net → Net) : (s.modNet n f).pool = s.pool := by
  unfold modNet; split <;> rfl
@[simp] theorem modNet_fring (s : State) (n : Nat) (f : Net → Net) : (s.modNet n f).fring = s.fring := by
  unfold modNet; split <;> rfl
@[simp] theorem modNet_fidx (s : State) (n : Nat) (f : Net → Net) : (s.modNet n f).fidx = s.fidx := by
  unfold modNet; split <;> rfl
@[simp] theorem modNet_queues (s : State) (n : Nat) (f : Net → Net) : (s.modNet n f).queues = s.queues := by
  unfold modNet; split <;> rfl
@[simp] theorem modNet_parks (s : State) (n : Nat) (f : Net → Net) : (s.modNet n f).parks = s.parks := by
  unfold modNet; split <;> rfl
@[simp] theorem modNet_bundles (s : State) (n : Nat) (f : Net → Net) : (s.modNet n f).bundles = s.bundles := by
  unfold modNet; split <;> rfl
@[simp] theorem modNet_bundleN (s : State) (n : Nat) (f : Net → Net) : (s.modNet n f).bundleN = s.bundleN := by
  unfold modNet; split <;> rfl
@[simp] theorem modNet_bars (s : State) (n : Nat) (f : Net → Net) : (s.modNet n f).bars = s.bars := by
  unfold modNet; split <;> rfl
@[simp] theorem modNet_flights (s : State) (n : Nat) (f : Net → Net) : (s.modNet n f).flights = s.flights := by
  unfold modNet; split <;> rfl
@[simp] theorem modNet_credits (s : State) (n : Nat) (f : Net → Net) : (s.modNet n f).credits = s.credits := by
  unfold modNet; split <;> rfl
@[simp] theorem modNet_posts (s : State) (n : Nat) (f : Net → Net) : (s.modNet n f).posts = s.posts := by
  unfold modNet; split <;> rfl
@[simp] theorem modNet_postN (s : State) (n : Nat) (f : Net → Net) : (s.modNet n f).postN = s.postN := by
  unfold modNet; split <;> rfl
@[simp] theorem modNet_colls (s : State) (n : Nat) (f : Net → Net) : (s.modNet n f).colls = s.colls := by
  unfold modNet; split <;> rfl
@[simp] theorem modNet_wheel (s : State) (n : Nat) (f : Net → Net) : (s.modNet n f).wheel = s.wheel := by
  unfold modNet; split <;> rfl
@[simp] theorem modNet_saves (s : State) (n : Nat) (f : Net → Net) : (s.modNet n f).saves = s.saves := by
  unfold modNet; split <;> rfl
@[simp] theorem modNet_link (s : State) (n : Nat) (f : Net → Net) : (s.modNet n f).link = s.link := by
  unfold modNet; split <;> rfl
@[simp] theorem modNet_pcie (s : State) (n : Nat) (f : Net → Net) : (s.modNet n f).pcie = s.pcie := by
  unfold modNet; split <;> rfl
@[simp] theorem modNet_ports (s : State) (n : Nat) (f : Net → Net) : (s.modNet n f).ports = s.ports := by
  unfold modNet; split <;> rfl
@[simp] theorem modNet_peers (s : State) (n : Nat) (f : Net → Net) : (s.modNet n f).peers = s.peers := by
  unfold modNet; split <;> rfl
@[simp] theorem modNet_sending (s : State) (n : Nat) (f : Net → Net) : (s.modNet n f).sending = s.sending := by
  unfold modNet; split <;> rfl
@[simp] theorem modNet_mgmt (s : State) (n : Nat) (f : Net → Net) : (s.modNet n f).mgmt = s.mgmt := by
  unfold modNet; split <;> rfl
@[simp] theorem modNet_outbox (s : State) (n : Nat) (f : Net → Net) : (s.modNet n f).outbox = s.outbox := by
  unfold modNet; split <;> rfl
@[simp] theorem modNet_late (s : State) (n : Nat) (f : Net → Net) : (s.modNet n f).late = s.late := by
  unfold modNet; split <;> rfl
@[simp] theorem modNet_stores (s : State) (n : Nat) (f : Net → Net) : (s.modNet n f).stores = s.stores := by
  unfold modNet; split <;> rfl
@[simp] theorem modNet_past (s : State) (n : Nat) (f : Net → Net) : (s.modNet n f).past = s.past := by
  unfold modNet; split <;> rfl
@[simp] theorem modNet_served (s : State) (n : Nat) (f : Net → Net) : (s.modNet n f).served = s.served := by
  unfold modNet; split <;> rfl
@[simp] theorem modNet_due (s : State) (n : Nat) (f : Net → Net) : (s.modNet n f).due = s.due := by
  unfold modNet; split <;> rfl
@[simp] theorem modNet_wlog (s : State) (n : Nat) (f : Net → Net) : (s.modNet n f).wlog = s.wlog := by
  unfold modNet; split <;> rfl
@[simp] theorem modNet_credited (s : State) (n : Nat) (f : Net → Net) : (s.modNet n f).credited = s.credited := by
  unfold modNet; split <;> rfl
@[simp] theorem modNet_ringRel (s : State) (n : Nat) (f : Net → Net) : (s.modNet n f).ringRel = s.ringRel := by
  unfold modNet; split <;> rfl
@[simp] theorem modNet_incoming (s : State) (n : Nat) (f : Net → Net) : (s.modNet n f).incoming = s.incoming := by
  unfold modNet; split <;> rfl
@[simp] theorem modNet_account (s : State) (n : Nat) (f : Net → Net) : (s.modNet n f).account = s.account := by
  unfold modNet; split <;> rfl

@[simp] theorem writeG_clock (s : State) (r : Rg) (x : W64) : (s.writeG r x).clock = s.clock := by
  unfold writeG; split <;> rfl
@[simp] theorem writeG_agenda (s : State) (r : Rg) (x : W64) : (s.writeG r x).agenda = s.agenda := by
  unfold writeG; split <;> rfl
@[simp] theorem writeG_cell (s : State) (r : Rg) (x : W64) : (s.writeG r x).cell = s.cell := by
  unfold writeG; split <;> rfl
@[simp] theorem writeG_fid (s : State) (r : Rg) (x : W64) : (s.writeG r x).fid = s.fid := by
  unfold writeG; split <;> rfl
@[simp] theorem writeG_free (s : State) (r : Rg) (x : W64) : (s.writeG r x).free = s.free := by
  unfold writeG; split <;> rfl
@[simp] theorem writeG_sectors (s : State) (r : Rg) (x : W64) : (s.writeG r x).sectors = s.sectors := by
  unfold writeG; split <;> rfl
@[simp] theorem writeG_owners (s : State) (r : Rg) (x : W64) : (s.writeG r x).owners = s.owners := by
  unfold writeG; split <;> rfl
@[simp] theorem writeG_dies (s : State) (r : Rg) (x : W64) : (s.writeG r x).dies = s.dies := by
  unfold writeG; split <;> rfl
@[simp] theorem writeG_banks (s : State) (r : Rg) (x : W64) : (s.writeG r x).banks = s.banks := by
  unfold writeG; split <;> rfl
@[simp] theorem writeG_mem (s : State) (r : Rg) (x : W64) : (s.writeG r x).mem = s.mem := by
  unfold writeG; split <;> rfl
@[simp] theorem writeG_range (s : State) (r : Rg) (x : W64) : (s.writeG r x).range = s.range := by
  unfold writeG; split <;> rfl
@[simp] theorem writeG_asids (s : State) (r : Rg) (x : W64) : (s.writeG r x).asids = s.asids := by
  unfold writeG; split <;> rfl
@[simp] theorem writeG_qcur (s : State) (r : Rg) (x : W64) : (s.writeG r x).qcur = s.qcur := by
  unfold writeG; split <;> rfl
@[simp] theorem writeG_htbase (s : State) (r : Rg) (x : W64) : (s.writeG r x).htbase = s.htbase := by
  unfold writeG; split <;> rfl
@[simp] theorem writeG_htlen (s : State) (r : Rg) (x : W64) : (s.writeG r x).htlen = s.htlen := by
  unfold writeG; split <;> rfl
@[simp] theorem writeG_dbtab (s : State) (r : Rg) (x : W64) : (s.writeG r x).dbtab = s.dbtab := by
  unfold writeG; split <;> rfl
@[simp] theorem writeG_ltab (s : State) (r : Rg) (x : W64) : (s.writeG r x).ltab = s.ltab := by
  unfold writeG; split <;> rfl
@[simp] theorem writeG_commtab (s : State) (r : Rg) (x : W64) : (s.writeG r x).commtab = s.commtab := by
  unfold writeG; split <;> rfl
@[simp] theorem writeG_netcfg (s : State) (r : Rg) (x : W64) : (s.writeG r x).netcfg = s.netcfg := by
  unfold writeG; split <;> rfl
@[simp] theorem writeG_pool (s : State) (r : Rg) (x : W64) : (s.writeG r x).pool = s.pool := by
  unfold writeG; split <;> rfl
@[simp] theorem writeG_fring (s : State) (r : Rg) (x : W64) : (s.writeG r x).fring = s.fring := by
  unfold writeG; split <;> rfl
@[simp] theorem writeG_fidx (s : State) (r : Rg) (x : W64) : (s.writeG r x).fidx = s.fidx := by
  unfold writeG; split <;> rfl
@[simp] theorem writeG_queues (s : State) (r : Rg) (x : W64) : (s.writeG r x).queues = s.queues := by
  unfold writeG; split <;> rfl
@[simp] theorem writeG_parks (s : State) (r : Rg) (x : W64) : (s.writeG r x).parks = s.parks := by
  unfold writeG; split <;> rfl
@[simp] theorem writeG_bundles (s : State) (r : Rg) (x : W64) : (s.writeG r x).bundles = s.bundles := by
  unfold writeG; split <;> rfl
@[simp] theorem writeG_bundleN (s : State) (r : Rg) (x : W64) : (s.writeG r x).bundleN = s.bundleN := by
  unfold writeG; split <;> rfl
@[simp] theorem writeG_nets (s : State) (r : Rg) (x : W64) : (s.writeG r x).nets = s.nets := by
  unfold writeG; split <;> rfl
@[simp] theorem writeG_bars (s : State) (r : Rg) (x : W64) : (s.writeG r x).bars = s.bars := by
  unfold writeG; split <;> rfl
@[simp] theorem writeG_flights (s : State) (r : Rg) (x : W64) : (s.writeG r x).flights = s.flights := by
  unfold writeG; split <;> rfl
@[simp] theorem writeG_credits (s : State) (r : Rg) (x : W64) : (s.writeG r x).credits = s.credits := by
  unfold writeG; split <;> rfl
@[simp] theorem writeG_posts (s : State) (r : Rg) (x : W64) : (s.writeG r x).posts = s.posts := by
  unfold writeG; split <;> rfl
@[simp] theorem writeG_postN (s : State) (r : Rg) (x : W64) : (s.writeG r x).postN = s.postN := by
  unfold writeG; split <;> rfl
@[simp] theorem writeG_colls (s : State) (r : Rg) (x : W64) : (s.writeG r x).colls = s.colls := by
  unfold writeG; split <;> rfl
@[simp] theorem writeG_wheel (s : State) (r : Rg) (x : W64) : (s.writeG r x).wheel = s.wheel := by
  unfold writeG; split <;> rfl
@[simp] theorem writeG_saves (s : State) (r : Rg) (x : W64) : (s.writeG r x).saves = s.saves := by
  unfold writeG; split <;> rfl
@[simp] theorem writeG_link (s : State) (r : Rg) (x : W64) : (s.writeG r x).link = s.link := by
  unfold writeG; split <;> rfl
@[simp] theorem writeG_pcie (s : State) (r : Rg) (x : W64) : (s.writeG r x).pcie = s.pcie := by
  unfold writeG; split <;> rfl
@[simp] theorem writeG_ports (s : State) (r : Rg) (x : W64) : (s.writeG r x).ports = s.ports := by
  unfold writeG; split <;> rfl
@[simp] theorem writeG_peers (s : State) (r : Rg) (x : W64) : (s.writeG r x).peers = s.peers := by
  unfold writeG; split <;> rfl
@[simp] theorem writeG_sending (s : State) (r : Rg) (x : W64) : (s.writeG r x).sending = s.sending := by
  unfold writeG; split <;> rfl
@[simp] theorem writeG_mgmt (s : State) (r : Rg) (x : W64) : (s.writeG r x).mgmt = s.mgmt := by
  unfold writeG; split <;> rfl
@[simp] theorem writeG_outbox (s : State) (r : Rg) (x : W64) : (s.writeG r x).outbox = s.outbox := by
  unfold writeG; split <;> rfl
@[simp] theorem writeG_late (s : State) (r : Rg) (x : W64) : (s.writeG r x).late = s.late := by
  unfold writeG; split <;> rfl
@[simp] theorem writeG_stores (s : State) (r : Rg) (x : W64) : (s.writeG r x).stores = s.stores := by
  unfold writeG; split <;> rfl
@[simp] theorem writeG_past (s : State) (r : Rg) (x : W64) : (s.writeG r x).past = s.past := by
  unfold writeG; split <;> rfl
@[simp] theorem writeG_served (s : State) (r : Rg) (x : W64) : (s.writeG r x).served = s.served := by
  unfold writeG; split <;> rfl
@[simp] theorem writeG_due (s : State) (r : Rg) (x : W64) : (s.writeG r x).due = s.due := by
  unfold writeG; split <;> rfl
@[simp] theorem writeG_wlog (s : State) (r : Rg) (x : W64) : (s.writeG r x).wlog = s.wlog := by
  unfold writeG; split <;> rfl
@[simp] theorem writeG_credited (s : State) (r : Rg) (x : W64) : (s.writeG r x).credited = s.credited := by
  unfold writeG; split <;> rfl
@[simp] theorem writeG_ringRel (s : State) (r : Rg) (x : W64) : (s.writeG r x).ringRel = s.ringRel := by
  unfold writeG; split <;> rfl
@[simp] theorem writeG_incoming (s : State) (r : Rg) (x : W64) : (s.writeG r x).incoming = s.incoming := by
  unfold writeG; split <;> rfl
@[simp] theorem writeG_account (s : State) (r : Rg) (x : W64) : (s.writeG r x).account = s.account := by
  unfold writeG; split <;> rfl

@[simp] theorem choose_clock (s : State) (b : Bool) (c : BitVec 2) : (s.choose b c).clock = s.clock := by
  unfold choose; split <;> rfl
@[simp] theorem choose_agenda (s : State) (b : Bool) (c : BitVec 2) : (s.choose b c).agenda = s.agenda := by
  unfold choose; split <;> rfl
@[simp] theorem choose_cell (s : State) (b : Bool) (c : BitVec 2) : (s.choose b c).cell = s.cell := by
  unfold choose; split <;> rfl
@[simp] theorem choose_fid (s : State) (b : Bool) (c : BitVec 2) : (s.choose b c).fid = s.fid := by
  unfold choose; split <;> rfl
@[simp] theorem choose_free (s : State) (b : Bool) (c : BitVec 2) : (s.choose b c).free = s.free := by
  unfold choose; split <;> rfl
@[simp] theorem choose_sectors (s : State) (b : Bool) (c : BitVec 2) : (s.choose b c).sectors = s.sectors := by
  unfold choose; split <;> rfl
@[simp] theorem choose_owners (s : State) (b : Bool) (c : BitVec 2) : (s.choose b c).owners = s.owners := by
  unfold choose; split <;> rfl
@[simp] theorem choose_dies (s : State) (b : Bool) (c : BitVec 2) : (s.choose b c).dies = s.dies := by
  unfold choose; split <;> rfl
@[simp] theorem choose_banks (s : State) (b : Bool) (c : BitVec 2) : (s.choose b c).banks = s.banks := by
  unfold choose; split <;> rfl
@[simp] theorem choose_mem (s : State) (b : Bool) (c : BitVec 2) : (s.choose b c).mem = s.mem := by
  unfold choose; split <;> rfl
@[simp] theorem choose_range (s : State) (b : Bool) (c : BitVec 2) : (s.choose b c).range = s.range := by
  unfold choose; split <;> rfl
@[simp] theorem choose_asids (s : State) (b : Bool) (c : BitVec 2) : (s.choose b c).asids = s.asids := by
  unfold choose; split <;> rfl
@[simp] theorem choose_qcur (s : State) (b : Bool) (c : BitVec 2) : (s.choose b c).qcur = s.qcur := by
  unfold choose; split <;> rfl
@[simp] theorem choose_htbase (s : State) (b : Bool) (c : BitVec 2) : (s.choose b c).htbase = s.htbase := by
  unfold choose; split <;> rfl
@[simp] theorem choose_htlen (s : State) (b : Bool) (c : BitVec 2) : (s.choose b c).htlen = s.htlen := by
  unfold choose; split <;> rfl
@[simp] theorem choose_dbtab (s : State) (b : Bool) (c : BitVec 2) : (s.choose b c).dbtab = s.dbtab := by
  unfold choose; split <;> rfl
@[simp] theorem choose_ltab (s : State) (b : Bool) (c : BitVec 2) : (s.choose b c).ltab = s.ltab := by
  unfold choose; split <;> rfl
@[simp] theorem choose_commtab (s : State) (b : Bool) (c : BitVec 2) : (s.choose b c).commtab = s.commtab := by
  unfold choose; split <;> rfl
@[simp] theorem choose_netcfg (s : State) (b : Bool) (c : BitVec 2) : (s.choose b c).netcfg = s.netcfg := by
  unfold choose; split <;> rfl
@[simp] theorem choose_pool (s : State) (b : Bool) (c : BitVec 2) : (s.choose b c).pool = s.pool := by
  unfold choose; split <;> rfl
@[simp] theorem choose_fring (s : State) (b : Bool) (c : BitVec 2) : (s.choose b c).fring = s.fring := by
  unfold choose; split <;> rfl
@[simp] theorem choose_fidx (s : State) (b : Bool) (c : BitVec 2) : (s.choose b c).fidx = s.fidx := by
  unfold choose; split <;> rfl
@[simp] theorem choose_queues (s : State) (b : Bool) (c : BitVec 2) : (s.choose b c).queues = s.queues := by
  unfold choose; split <;> rfl
@[simp] theorem choose_parks (s : State) (b : Bool) (c : BitVec 2) : (s.choose b c).parks = s.parks := by
  unfold choose; split <;> rfl
@[simp] theorem choose_bundles (s : State) (b : Bool) (c : BitVec 2) : (s.choose b c).bundles = s.bundles := by
  unfold choose; split <;> rfl
@[simp] theorem choose_bundleN (s : State) (b : Bool) (c : BitVec 2) : (s.choose b c).bundleN = s.bundleN := by
  unfold choose; split <;> rfl
@[simp] theorem choose_nets (s : State) (b : Bool) (c : BitVec 2) : (s.choose b c).nets = s.nets := by
  unfold choose; split <;> rfl
@[simp] theorem choose_bars (s : State) (b : Bool) (c : BitVec 2) : (s.choose b c).bars = s.bars := by
  unfold choose; split <;> rfl
@[simp] theorem choose_flights (s : State) (b : Bool) (c : BitVec 2) : (s.choose b c).flights = s.flights := by
  unfold choose; split <;> rfl
@[simp] theorem choose_credits (s : State) (b : Bool) (c : BitVec 2) : (s.choose b c).credits = s.credits := by
  unfold choose; split <;> rfl
@[simp] theorem choose_posts (s : State) (b : Bool) (c : BitVec 2) : (s.choose b c).posts = s.posts := by
  unfold choose; split <;> rfl
@[simp] theorem choose_postN (s : State) (b : Bool) (c : BitVec 2) : (s.choose b c).postN = s.postN := by
  unfold choose; split <;> rfl
@[simp] theorem choose_colls (s : State) (b : Bool) (c : BitVec 2) : (s.choose b c).colls = s.colls := by
  unfold choose; split <;> rfl
@[simp] theorem choose_wheel (s : State) (b : Bool) (c : BitVec 2) : (s.choose b c).wheel = s.wheel := by
  unfold choose; split <;> rfl
@[simp] theorem choose_saves (s : State) (b : Bool) (c : BitVec 2) : (s.choose b c).saves = s.saves := by
  unfold choose; split <;> rfl
@[simp] theorem choose_link (s : State) (b : Bool) (c : BitVec 2) : (s.choose b c).link = s.link := by
  unfold choose; split <;> rfl
@[simp] theorem choose_pcie (s : State) (b : Bool) (c : BitVec 2) : (s.choose b c).pcie = s.pcie := by
  unfold choose; split <;> rfl
@[simp] theorem choose_ports (s : State) (b : Bool) (c : BitVec 2) : (s.choose b c).ports = s.ports := by
  unfold choose; split <;> rfl
@[simp] theorem choose_peers (s : State) (b : Bool) (c : BitVec 2) : (s.choose b c).peers = s.peers := by
  unfold choose; split <;> rfl
@[simp] theorem choose_sending (s : State) (b : Bool) (c : BitVec 2) : (s.choose b c).sending = s.sending := by
  unfold choose; split <;> rfl
@[simp] theorem choose_mgmt (s : State) (b : Bool) (c : BitVec 2) : (s.choose b c).mgmt = s.mgmt := by
  unfold choose; split <;> rfl
@[simp] theorem choose_outbox (s : State) (b : Bool) (c : BitVec 2) : (s.choose b c).outbox = s.outbox := by
  unfold choose; split <;> rfl
@[simp] theorem choose_late (s : State) (b : Bool) (c : BitVec 2) : (s.choose b c).late = s.late := by
  unfold choose; split <;> rfl
@[simp] theorem choose_stores (s : State) (b : Bool) (c : BitVec 2) : (s.choose b c).stores = s.stores := by
  unfold choose; split <;> rfl
@[simp] theorem choose_past (s : State) (b : Bool) (c : BitVec 2) : (s.choose b c).past = s.past := by
  unfold choose; split <;> rfl
@[simp] theorem choose_served (s : State) (b : Bool) (c : BitVec 2) : (s.choose b c).served = s.served := by
  unfold choose; split <;> rfl
@[simp] theorem choose_due (s : State) (b : Bool) (c : BitVec 2) : (s.choose b c).due = s.due := by
  unfold choose; split <;> rfl
@[simp] theorem choose_wlog (s : State) (b : Bool) (c : BitVec 2) : (s.choose b c).wlog = s.wlog := by
  unfold choose; split <;> rfl
@[simp] theorem choose_credited (s : State) (b : Bool) (c : BitVec 2) : (s.choose b c).credited = s.credited := by
  unfold choose; split <;> rfl
@[simp] theorem choose_ringRel (s : State) (b : Bool) (c : BitVec 2) : (s.choose b c).ringRel = s.ringRel := by
  unfold choose; split <;> rfl
@[simp] theorem choose_incoming (s : State) (b : Bool) (c : BitVec 2) : (s.choose b c).incoming = s.incoming := by
  unfold choose; split <;> rfl
@[simp] theorem choose_account (s : State) (b : Bool) (c : BitVec 2) : (s.choose b c).account = s.account := by
  unfold choose; split <;> rfl

@[simp] theorem takeFree_clock (s : State) : s.takeFree.2.clock = s.clock := rfl
@[simp] theorem takeFree_agenda (s : State) : s.takeFree.2.agenda = s.agenda := rfl
@[simp] theorem takeFree_cell (s : State) : s.takeFree.2.cell = s.cell := rfl
@[simp] theorem takeFree_fid (s : State) : s.takeFree.2.fid = s.fid := rfl
@[simp] theorem takeFree_cells (s : State) : s.takeFree.2.cells = s.cells := rfl
@[simp] theorem takeFree_sectors (s : State) : s.takeFree.2.sectors = s.sectors := rfl
@[simp] theorem takeFree_owners (s : State) : s.takeFree.2.owners = s.owners := rfl
@[simp] theorem takeFree_dies (s : State) : s.takeFree.2.dies = s.dies := rfl
@[simp] theorem takeFree_banks (s : State) : s.takeFree.2.banks = s.banks := rfl
@[simp] theorem takeFree_mem (s : State) : s.takeFree.2.mem = s.mem := rfl
@[simp] theorem takeFree_range (s : State) : s.takeFree.2.range = s.range := rfl
@[simp] theorem takeFree_asids (s : State) : s.takeFree.2.asids = s.asids := rfl
@[simp] theorem takeFree_qcur (s : State) : s.takeFree.2.qcur = s.qcur := rfl
@[simp] theorem takeFree_htbase (s : State) : s.takeFree.2.htbase = s.htbase := rfl
@[simp] theorem takeFree_htlen (s : State) : s.takeFree.2.htlen = s.htlen := rfl
@[simp] theorem takeFree_dbtab (s : State) : s.takeFree.2.dbtab = s.dbtab := rfl
@[simp] theorem takeFree_ltab (s : State) : s.takeFree.2.ltab = s.ltab := rfl
@[simp] theorem takeFree_commtab (s : State) : s.takeFree.2.commtab = s.commtab := rfl
@[simp] theorem takeFree_netcfg (s : State) : s.takeFree.2.netcfg = s.netcfg := rfl
@[simp] theorem takeFree_pool (s : State) : s.takeFree.2.pool = s.pool := rfl
@[simp] theorem takeFree_fring (s : State) : s.takeFree.2.fring = s.fring := rfl
@[simp] theorem takeFree_fidx (s : State) : s.takeFree.2.fidx = s.fidx := rfl
@[simp] theorem takeFree_queues (s : State) : s.takeFree.2.queues = s.queues := rfl
@[simp] theorem takeFree_parks (s : State) : s.takeFree.2.parks = s.parks := rfl
@[simp] theorem takeFree_bundles (s : State) : s.takeFree.2.bundles = s.bundles := rfl
@[simp] theorem takeFree_bundleN (s : State) : s.takeFree.2.bundleN = s.bundleN := rfl
@[simp] theorem takeFree_nets (s : State) : s.takeFree.2.nets = s.nets := rfl
@[simp] theorem takeFree_bars (s : State) : s.takeFree.2.bars = s.bars := rfl
@[simp] theorem takeFree_flights (s : State) : s.takeFree.2.flights = s.flights := rfl
@[simp] theorem takeFree_credits (s : State) : s.takeFree.2.credits = s.credits := rfl
@[simp] theorem takeFree_posts (s : State) : s.takeFree.2.posts = s.posts := rfl
@[simp] theorem takeFree_postN (s : State) : s.takeFree.2.postN = s.postN := rfl
@[simp] theorem takeFree_colls (s : State) : s.takeFree.2.colls = s.colls := rfl
@[simp] theorem takeFree_wheel (s : State) : s.takeFree.2.wheel = s.wheel := rfl
@[simp] theorem takeFree_saves (s : State) : s.takeFree.2.saves = s.saves := rfl
@[simp] theorem takeFree_link (s : State) : s.takeFree.2.link = s.link := rfl
@[simp] theorem takeFree_pcie (s : State) : s.takeFree.2.pcie = s.pcie := rfl
@[simp] theorem takeFree_ports (s : State) : s.takeFree.2.ports = s.ports := rfl
@[simp] theorem takeFree_peers (s : State) : s.takeFree.2.peers = s.peers := rfl
@[simp] theorem takeFree_sending (s : State) : s.takeFree.2.sending = s.sending := rfl
@[simp] theorem takeFree_mgmt (s : State) : s.takeFree.2.mgmt = s.mgmt := rfl
@[simp] theorem takeFree_outbox (s : State) : s.takeFree.2.outbox = s.outbox := rfl
@[simp] theorem takeFree_late (s : State) : s.takeFree.2.late = s.late := rfl
@[simp] theorem takeFree_stores (s : State) : s.takeFree.2.stores = s.stores := rfl
@[simp] theorem takeFree_past (s : State) : s.takeFree.2.past = s.past := rfl
@[simp] theorem takeFree_served (s : State) : s.takeFree.2.served = s.served := rfl
@[simp] theorem takeFree_due (s : State) : s.takeFree.2.due = s.due := rfl
@[simp] theorem takeFree_wlog (s : State) : s.takeFree.2.wlog = s.wlog := rfl
@[simp] theorem takeFree_credited (s : State) : s.takeFree.2.credited = s.credited := rfl
@[simp] theorem takeFree_ringRel (s : State) : s.takeFree.2.ringRel = s.ringRel := rfl
@[simp] theorem takeFree_incoming (s : State) : s.takeFree.2.incoming = s.incoming := rfl
@[simp] theorem takeFree_account (s : State) : s.takeFree.2.account = s.account := rfl

end State

end Sys2Proof.Machine
end

