-- ==== Sys2Proof/Laws/Tables.lean ====
section
/-! SUPPORT. Laws of tables and of byte memories: what a read finds after a write, and that every write keeps the
canonical form. -/
set_option Elab.async false
namespace Sys2Proof

namespace Tbl

variable {α : Type}

theorem find_put_self (t : Tbl α) (n : Nat) (x : α) : find (put t n x) n = some x := by
  induction t with
  | nil => simp [put, find]
  | cons e t ih =>
    obtain ⟨k, v⟩ := e
    simp only [put]
    split
    · simp [find]
    · split <;> simp_all [find]

theorem find_put_other (t : Tbl α) (n m : Nat) (x : α) (h : m ≠ n) : find (put t n x) m = find t m := by
  induction t with
  | nil => simp [put, find, Ne.symm h]
  | cons e t ih =>
    obtain ⟨k, v⟩ := e
    simp only [put]
    split
    · rename_i hk; subst hk; simp [find, Ne.symm h]
    · split <;> simp_all [find, Ne.symm h]

theorem find_put (t : Tbl α) (n m : Nat) (x : α) :
    find (put t n x) m = if m = n then some x else find t m := by
  split
  · rename_i h; subst h; exact find_put_self t m x
  · exact find_put_other t n m x ‹_›

theorem get_put_self (d : α) (t : Tbl α) (n : Nat) (x : α) : get d (put t n x) n = x := by
  simp [get, find_put_self]

theorem get_put_other (d : α) (t : Tbl α) (n m : Nat) (x : α) (h : m ≠ n) : get d (put t n x) m = get d t m := by
  simp [get, find_put_other t n m x h]

theorem get_put (d : α) (t : Tbl α) (n m : Nat) (x : α) :
    get d (put t n x) m = if m = n then x else get d t m := by
  simp only [get, find_put]; split <;> rfl

theorem find_del_self (t : Tbl α) (n : Nat) : find (del t n) n = none := by
  induction t with
  | nil => rfl
  | cons e t ih =>
    obtain ⟨k, v⟩ := e
    by_cases h : k = n
    · simp_all [del]
    · simp_all [del, find]

theorem find_del_other (t : Tbl α) (n m : Nat) (h : m ≠ n) : find (del t n) m = find t m := by
  induction t with
  | nil => rfl
  | cons e t ih =>
    obtain ⟨k, v⟩ := e
    by_cases hk : k = n
    · subst hk; simp_all [del, find, Ne.symm h]
    · simp_all [del, find]

theorem get_del (d : α) (t : Tbl α) (n m : Nat) : get d (del t n) m = if m = n then d else get d t m := by
  simp only [get]
  split
  · rename_i h; subst h; simp [find_del_self]
  · simp [find_del_other t n m ‹_›]

theorem find_mapV (f : Nat → α → α) (t : Tbl α) (n : Nat) : find (mapV f t) n = (find t n).map (f n) := by
  induction t with
  | nil => rfl
  | cons e t ih =>
    obtain ⟨k, v⟩ := e
    by_cases h : k = n
    · subst h; simp [mapV, find]
    · simp_all [mapV, find]

theorem get_mapV (d : α) (f : Nat → α → α) (t : Tbl α) (n : Nat) (h : f n d = d) :
    get d (mapV f t) n = f n (get d t n) := by
  simp only [get, find_mapV]; cases find t n <;> simp [h]

/-! ### Keys strictly rise -/

theorem sorted_cons (e : Nat × α) (t : Tbl α) :
    sorted (e :: t) = true ↔ sorted t = true ∧ ∀ x ∈ t, e.1 < x.1 := by
  induction t generalizing e with
  | nil => simp [sorted]
  | cons y t ih =>
    simp only [sorted, Bool.and_eq_true, decide_eq_true_eq, ih y, List.mem_cons, forall_eq_or_imp]
    constructor
    · rintro ⟨h1, h2, h3⟩; exact ⟨⟨h2, h3⟩, h1, fun x hx => Nat.lt_trans h1 (h3 x hx)⟩
    · rintro ⟨⟨h1, h2⟩, h3, -⟩; exact ⟨h3, h1, h2⟩

theorem mem_put (t : Tbl α) (n : Nat) (x : α) (e : Nat × α) (h : e ∈ put t n x) : e = (n, x) ∨ e ∈ t := by
  induction t with
  | nil => exact .inl (by simpa [put] using h)
  | cons y t ih =>
    obtain ⟨k, v⟩ := y
    simp only [put] at h
    split at h
    · rcases List.mem_cons.1 h with h | h
      · exact .inl h
      · exact .inr (List.mem_cons_of_mem _ h)
    · split at h
      · rcases List.mem_cons.1 h with h | h
        · exact .inl h
        · exact .inr h
      · rcases List.mem_cons.1 h with h | h
        · exact .inr (h ▸ List.mem_cons_self)
        · exact (ih h).imp id (List.mem_cons_of_mem _)

theorem sorted_put (t : Tbl α) (n : Nat) (x : α) (h : sorted t = true) : sorted (put t n x) = true := by
  induction t with
  | nil => rfl
  | cons y t ih =>
    obtain ⟨k, v⟩ := y
    rw [sorted_cons] at h
    simp only [put]
    split
    · rename_i hk; subst hk; exact (sorted_cons _ _).2 h
    · split
      · rename_i hk
        refine (sorted_cons _ _).2 ⟨(sorted_cons _ _).2 h, fun e he => ?_⟩
        rcases List.mem_cons.1 he with he | he
        · exact he ▸ hk
        · exact Nat.lt_trans hk (h.2 e he)
      · refine (sorted_cons _ _).2 ⟨ih h.1, fun e he => ?_⟩
        rcases mem_put t n x e he with he | he
        · subst he; simp only; omega
        · exact h.2 e he

theorem sorted_filter (p : Nat × α → Bool) (t : Tbl α) (h : sorted t = true) : sorted (t.filter p) = true := by
  induction t with
  | nil => rfl
  | cons y t ih =>
    rw [sorted_cons] at h
    simp only [List.filter]
    split
    · exact (sorted_cons _ _).2 ⟨ih h.1, fun e he => h.2 e (List.mem_filter.1 he).1⟩
    · exact ih h.1

theorem sorted_del (t : Tbl α) (n : Nat) (h : sorted t = true) : sorted (del t n) = true := sorted_filter _ t h

theorem sorted_mapV (f : Nat → α → α) (t : Tbl α) (h : sorted t = true) : sorted (mapV f t) = true := by
  induction t with
  | nil => rfl
  | cons y t ih =>
    rw [sorted_cons] at h
    refine (sorted_cons _ _).2 ⟨ih h.1, fun e he => ?_⟩
    obtain ⟨z, hz, rfl⟩ := List.mem_map.1 he
    exact h.2 z hz

/-- A property of every listed value. -/
def all (p : α → Prop) (t : Tbl α) : Prop := ∀ e ∈ t, p e.2

theorem all_nil (p : α → Prop) : all p [] := fun _ h => nomatch h

theorem all_put (p : α → Prop) (t : Tbl α) (n : Nat) (x : α) (h : all p t) (hx : p x) : all p (put t n x) :=
  fun e he => by
    rcases mem_put t n x e he with rfl | he
    · exact hx
    · exact h e he

theorem all_filter (p : α → Prop) (q : Nat × α → Bool) (t : Tbl α) (h : all p t) : all p (t.filter q) :=
  fun e he => h e (List.mem_filter.1 he).1

theorem all_del (p : α → Prop) (t : Tbl α) (n : Nat) (h : all p t) : all p (del t n) := all_filter p _ t h

theorem all_mapV (p : α → Prop) (f : Nat → α → α) (t : Tbl α) (h : all p t) (hf : ∀ n x, p x → p (f n x)) :
    all p (mapV f t) := fun e he => by
  obtain ⟨z, hz, rfl⟩ := List.mem_map.1 he
  exact hf _ _ (h z hz)

theorem all_find (p : α → Prop) (t : Tbl α) (n : Nat) (x : α) (h : all p t) (hx : find t n = some x) : p x := by
  induction t with
  | nil => cases hx
  | cons y t ih =>
    obtain ⟨k, v⟩ := y
    simp only [find] at hx
    split at hx
    · cases hx; exact h _ List.mem_cons_self
    · exact ih (fun e he => h e (List.mem_cons_of_mem _ he)) hx

theorem all_get (p : α → Prop) (d : α) (t : Tbl α) (n : Nat) (h : all p t) (hd : p d) : p (get d t n) := by
  simp only [get]
  cases hx : find t n with
  | none => exact hd
  | some x => exact all_find p t n x h hx

end Tbl

namespace Mem

theorem read_write_self (m : Mem) (a : Nat) (b : Byte) : read (write m a b) a = b := by
  unfold read write
  split
  · rename_i h; subst h; simp [Tbl.get, Tbl.find_del_self]
  · exact Tbl.get_put_self ..

theorem read_write_other (m : Mem) (a c : Nat) (b : Byte) (h : c ≠ a) : read (write m a b) c = read m c := by
  unfold read write
  split
  · simp [Tbl.get_del, h]
  · exact Tbl.get_put_other _ _ _ _ _ h

theorem wf_iff (m : Mem) : wf m = true ↔ Tbl.sorted m = true ∧ ∀ e ∈ m, e.2 ≠ blank := by
  simp [wf]

theorem wf_nil : wf [] = true := rfl

theorem wf_filter (p : Nat × Byte → Bool) (m : Mem) (h : wf m = true) : wf (m.filter p) = true := by
  rw [wf_iff] at *
  exact ⟨Tbl.sorted_filter p m h.1, fun e he => h.2 e (List.mem_filter.1 he).1⟩

theorem wf_write (m : Mem) (a : Nat) (b : Byte) (h : wf m = true) : wf (write m a b) = true := by
  unfold write
  split
  · exact wf_filter _ m h
  · rename_i hb
    rw [wf_iff] at *
    refine ⟨Tbl.sorted_put m a b h.1, fun e he => ?_⟩
    rcases Tbl.mem_put m a b e he with rfl | he
    · exact hb
    · exact h.2 e he

theorem wf_store (m : Mem) (a : Nat) (bs : List Byte) (h : wf m = true) : wf (store m a bs) = true := by
  induction bs generalizing m a with
  | nil => exact h
  | cons b bs ih => exact ih _ _ (wf_write m a b h)

/-- A byte outside the stored bytes reads as before. -/
theorem read_store_other (m : Mem) (a c : Nat) (bs : List Byte) (h : c < a ∨ a + bs.length ≤ c) :
    read (store m a bs) c = read m c := by
  induction bs generalizing m a with
  | nil => rfl
  | cons b bs ih =>
    simp only [List.length_cons] at h
    rw [store, ih _ _ (by omega), read_write_other _ _ _ _ (by omega)]

/-- A stored byte reads as stored. -/
theorem read_store_self (m : Mem) (a k : Nat) (bs : List Byte) (h : k < bs.length) :
    read (store m a bs) (a + k) = bs[k] := by
  induction bs generalizing m a k with
  | nil => cases h
  | cons b bs ih =>
    cases k with
    | zero =>
      show read (store (write m a b) (a + 1) bs) a = b
      rw [read_store_other _ _ _ _ (by omega), read_write_self]
    | succ k =>
      have := ih (write m a b) (a + 1) k (by simpa using h)
      rw [store, show a + (k + 1) = a + 1 + k by omega, this]; rfl

theorem load_length (m : Mem) (a n : Nat) : (load m a n).length = n := by
  induction n generalizing a with
  | zero => rfl
  | succ n ih => simp [load, ih]

theorem load_congr (m k : Mem) (a n : Nat) (h : ∀ c, a ≤ c → c < a + n → read m c = read k c) :
    load m a n = load k a n := by
  induction n generalizing a with
  | zero => rfl
  | succ n ih =>
    rw [load, load, h a (Nat.le_refl _) (by omega), ih (a + 1) fun c h1 h2 => h c (by omega) (by omega)]

theorem load_store_self (m : Mem) (a : Nat) (bs : List Byte) : load (store m a bs) a bs.length = bs := by
  induction bs generalizing m a with
  | nil => rfl
  | cons b bs ih =>
    rw [store, List.length_cons, load, ih, read_store_other _ _ _ _ (by omega), read_write_self]

theorem load_store_other (m : Mem) (a c n : Nat) (bs : List Byte) (h : c + n ≤ a ∨ a + bs.length ≤ c) :
    load (store m a bs) c n = load m c n :=
  load_congr _ _ _ _ fun d h1 h2 => read_store_other _ _ _ _ (by omega)

end Mem

end Sys2Proof
end

