-- ==== Sys2Proof/Laws/Firings.lean ====
section
/-! SUPPORT. Laws of the current cell and firing: what a firing reads after it wrote, and what changing it leaves
alone (R41, R45). -/
set_option Elab.async false
namespace Sys2Proof.Machine

theorem firingOf_some {fs : List Firing} {id : Nat} {f : Firing} (h : firingOf fs id = some f) :
    f ∈ fs ∧ f.id = id := by
  unfold firingOf at h
  exact ⟨List.mem_of_find?_eq_some h, by simpa using List.find?_some h⟩

/-- One firing of a list replaced. -/
def replace (u : Firing → Firing) (id : Nat) (fs : List Firing) : List Firing :=
  fs.map fun x => if x.id = id then u x else x

theorem firingOf_replace (u : Firing → Firing) (hu : ∀ x, (u x).id = x.id) (id : Nat) (fs : List Firing) :
    firingOf (replace u id fs) id = (firingOf fs id).map u := by
  unfold firingOf replace
  induction fs with
  | nil => rfl
  | cons x fs ih =>
    by_cases h : x.id = id
    · simp [h, hu]
    · simp [h, ih]

theorem firingOf_replace_other (u : Firing → Firing) (hu : ∀ x, (u x).id = x.id) (id k : Nat) (fs : List Firing)
    (hk : k ≠ id) : firingOf (replace u id fs) k = firingOf fs k := by
  unfold firingOf replace
  induction fs with
  | nil => rfl
  | cons x fs ih =>
    by_cases h : x.id = id
    · have h1 : x.id ≠ k := fun e => hk (e.symm.trans h)
      have h2 : id ≠ k := Ne.symm hk
      simp [h, hu, h1, h2, ih]
    · by_cases h1 : x.id = k <;> simp [h, h1, ih, hk]

theorem replace_ids (u : Firing → Firing) (hu : ∀ x, (u x).id = x.id) (id : Nat) (fs : List Firing) :
    (replace u id fs).map (·.id) = fs.map (·.id) := by
  unfold replace
  rw [List.map_map]
  refine List.map_congr_left fun x _ => ?_
  by_cases h : x.id = id <;> simp [h, hu]

theorem ordered_iff (fs : List Firing) : Ordered fs ↔ (fs.map (·.id)).Pairwise (· < ·) := by
  rw [List.pairwise_map]; rfl

theorem ordered_replace (u : Firing → Firing) (hu : ∀ x, (u x).id = x.id) (id : Nat) (fs : List Firing)
    (h : Ordered fs) : Ordered (replace u id fs) := by
  rw [ordered_iff, replace_ids u hu]; exact (ordered_iff _).1 h

/-- The firing itself stands first among those no later than it. -/
theorem notLater_cons (fs : List Firing) (id : Nat) (f : Firing) (h : Ordered fs) (hf : firingOf fs id = some f) :
    notLater fs id = f :: (fs.filter fun x => decide (x.id < id)).reverse := by
  obtain ⟨hm, hid⟩ := firingOf_some hf
  obtain ⟨as, bs, rfl⟩ := List.append_of_mem hm
  rw [Ordered, List.pairwise_append] at h
  obtain ⟨-, hb, hab⟩ := h
  rw [List.pairwise_cons] at hb
  have ha : ∀ x ∈ as, x.id < id := fun x hx => hid ▸ hab x hx f List.mem_cons_self
  have hb' : ∀ x ∈ bs, id < x.id := fun x hx => hid ▸ hb.1 x hx
  unfold notLater
  rw [List.filter_append, List.filter_append, List.filter_cons, List.filter_cons]
  have e1 : as.filter (fun f => decide (f.id ≤ id)) = as :=
    List.filter_eq_self.2 fun x hx => by simpa using Nat.le_of_lt (ha x hx)
  have e2 : as.filter (fun f => decide (f.id < id)) = as :=
    List.filter_eq_self.2 fun x hx => by simpa using ha x hx
  have e3 : bs.filter (fun f => decide (f.id ≤ id)) = [] :=
    List.filter_eq_nil_iff.2 fun x hx => by simpa using hb' x hx
  have e4 : bs.filter (fun f => decide (f.id < id)) = [] :=
    List.filter_eq_nil_iff.2 fun x hx => by simpa using Nat.le_of_lt (hb' x hx)
  simp [e1, e2, e3, e4, hid]

theorem filter_replace (u : Firing → Firing) (hu : ∀ x, (u x).id = x.id) (id : Nat) (fs : List Firing) :
    (replace u id fs).filter (fun x => decide (x.id < id)) = fs.filter fun x => decide (x.id < id) := by
  unfold replace
  induction fs with
  | nil => rfl
  | cons x fs ih =>
    by_cases h : x.id = id
    · simp [h, hu, ih]
    · simp [h, ih, List.filter_cons]

namespace State

theorem live_firing {s : State} (h : s.live = true) : firingOf s.ctx.firings s.fid = some s.me ∧ s.me.ended = false := by
  unfold live at h
  unfold me
  cases hf : firingOf s.ctx.firings s.fid with
  | none => simp [hf] at h
  | some f => simp [hf] at h; simp [h]

theorem cellAt_setCell (s : State) (c d : Nat) (x : CellSt) :
    (s.setCell c x).cellAt d = if d = c then x else s.cellAt d := by
  simp only [cellAt, setCell, Tbl.get_put]

theorem cellAt_modCell (s : State) (c d : Nat) (f : CellSt → CellSt) :
    (s.modCell c f).cellAt d = if d = c then f (s.cellAt c) else s.cellAt d := cellAt_setCell ..

theorem sectorAt_modSector (s : State) (k j : Nat) (f : Sector → Sector) :
    (s.modSector k f).sectorAt j = if j = k then f (s.sectorAt k) else s.sectorAt j := by
  simp only [sectorAt, modSector, setSector, Tbl.get_put]

theorem ownerAt_modOwner (s : State) (k j : Nat) (f : Owner → Owner) :
    (s.modOwner k f).ownerAt j = if j = k then f (s.ownerAt k) else s.ownerAt j := by
  simp only [ownerAt, modOwner, setOwner, Tbl.get_put]

theorem dieAt_modDie (s : State) (k j : Nat) (f : Die → Die) :
    (s.modDie k f).dieAt j = if j = k then f (s.dieAt k) else s.dieAt j := by
  simp only [dieAt, modDie, setDie, Tbl.get_put]

theorem net_modNet (s : State) (n m : Nat) (f : Net → Net) :
    Tbl.find (s.modNet n f).nets m = if m = n then (Tbl.find s.nets n).map f else Tbl.find s.nets m := by
  unfold modNet
  split
  · rename_i x hx
    simp only [setNet, Tbl.find_put, hx, Option.map]
  · rename_i hx
    split
    · rename_i h; subst h; simp [hx]
    · rfl

@[simp] theorem ctx_modCtx (s : State) (f : Ctx → Ctx) : (s.modCtx f).ctx = f s.ctx := by
  simp [ctx, modCtx, modCell, setCell, cellAt, Tbl.get_put_self]

theorem ctx_modMe (s : State) (u : Firing → Firing) :
    (s.modMe u).ctx = { s.ctx with firings := replace u s.fid s.ctx.firings } := by
  rw [modMe, ctx_modCtx]; rfl

@[simp] theorem firings_modMe (s : State) (u : Firing → Firing) :
    (s.modMe u).ctx.firings = replace u s.fid s.ctx.firings := by rw [ctx_modMe]

/-- The current firing after it changed. -/
theorem me_modMe (s : State) (u : Firing → Firing) (hu : ∀ x, (u x).id = x.id) (h : s.live = true) :
    (s.modMe u).me = u s.me := by
  have := (live_firing h).1
  unfold me
  rw [firings_modMe, modMe_fid, firingOf_replace u hu, this]; rfl

theorem live_modMe (s : State) (u : Firing → Firing) (hu : ∀ x, (u x).id = x.id) (he : ∀ x, (u x).ended = x.ended) :
    (s.modMe u).live = s.live := by
  unfold live
  rw [firings_modMe, modMe_fid, firingOf_replace u hu]
  cases firingOf s.ctx.firings s.fid with
  | none => rfl
  | some f => exact congrArg (!·) (he f)

theorem runs_modMe (s : State) (u : Firing → Firing) (hu : ∀ x, (u x).id = x.id) (he : ∀ x, (u x).ended = x.ended)
    (h : s.Runs) : (s.modMe u).Runs :=
  ⟨(live_modMe s u hu he).trans h.1, by rw [firings_modMe]; exact ordered_replace u hu _ _ h.2⟩

/-- What the firing's list of values is made of: its own first. -/
theorem notLater_me {s : State} (h : s.Runs) :
    notLater s.ctx.firings s.fid = s.me :: (s.ctx.firings.filter fun x => decide (x.id < s.fid)).reverse :=
  notLater_cons _ _ _ h.2 (live_firing h.1).1

theorem notLater_modMe (s : State) (u : Firing → Firing) (hu : ∀ x, (u x).id = x.id) (he : ∀ x, (u x).ended = x.ended)
    (h : s.Runs) : notLater (s.modMe u).ctx.firings (s.modMe u).fid
      = u s.me :: (s.ctx.firings.filter fun x => decide (x.id < s.fid)).reverse := by
  rw [notLater_me (runs_modMe s u hu he h), me_modMe s u hu h.1, firings_modMe, modMe_fid, filter_replace u hu]

/-- Where no window write has replaced a value for the firing, it reads the registers as they stand (R45, R95). -/
theorem readG_eq (s : State) (h : s.me.keep = {}) (r : Rg) : s.readG r = s.heldG r := by
  simp [readG, heldG, readReg, h, Tbl.find]
theorem readV_eq (s : State) (h : s.me.keep = {}) (n : Nat) : s.readV n = s.heldV n := by
  simp [readV, heldV, readReg, h, Tbl.find]
theorem readSh_eq (s : State) (h : s.me.keep = {}) (n : Nat) : s.readSh n = s.heldSh n := by
  simp [readSh, heldSh, readReg, h, Tbl.find]

/-- A change of the firing that leaves its register writes alone leaves every register as it stands. -/
theorem heldReg_modMe {α : Type} (s : State) (u : Firing → Firing) (sel : Regs → Tbl α) (d : α) (hu : ∀ x, (u x).id = x.id)
    (he : ∀ x, (u x).ended = x.ended) (hr : ∀ x, sel (u x).regs = sel x.regs) (h : s.Runs) (n : Nat) :
    (s.modMe u).heldReg sel d n = s.heldReg sel d n := by
  unfold heldReg
  rw [notLater_modMe s u hu he h, notLater_me h, ctx_modMe]
  simp only [latest, hr]

theorem heldG_modMe (s : State) (u : Firing → Firing) (hu : ∀ x, (u x).id = x.id) (he : ∀ x, (u x).ended = x.ended)
    (hr : ∀ x, (u x).regs.g = x.regs.g) (h : s.Runs) (r : Rg) : (s.modMe u).heldG r = s.heldG r := by
  unfold heldG; rw [heldReg_modMe s u _ _ hu he hr h]
theorem heldV_modMe (s : State) (u : Firing → Firing) (hu : ∀ x, (u x).id = x.id) (he : ∀ x, (u x).ended = x.ended)
    (hr : ∀ x, (u x).regs.v = x.regs.v) (h : s.Runs) (n : Nat) : (s.modMe u).heldV n = s.heldV n :=
  heldReg_modMe s u _ _ hu he hr h n
theorem heldSh_modMe (s : State) (u : Firing → Firing) (hu : ∀ x, (u x).id = x.id) (he : ∀ x, (u x).ended = x.ended)
    (hr : ∀ x, (u x).regs.sh = x.regs.sh) (h : s.Runs) (n : Nat) : (s.modMe u).heldSh n = s.heldSh n :=
  heldReg_modMe s u _ _ hu he hr h n

/-! ### Writing registers (R45, R142) -/

/-- A firing with a value for a general register. -/
def setG (n : Nat) (x : W64) (f : Firing) : Firing := { f with regs := { f.regs with g := Tbl.put f.regs.g n x } }
/-- A firing with a value for a lane register. -/
def setV (n : Nat) (x : Lane) (f : Firing) : Firing := { f with regs := { f.regs with v := Tbl.put f.regs.v n x } }

theorem writeG_zero (s : State) (x : W64) : s.writeG 0 x = s := if_pos rfl

theorem writeG_eq (s : State) (r : Rg) (x : W64) (hr : r ≠ 0) : s.writeG r x = s.modMe (setG r.toNat x) := if_neg hr

theorem writeV_eq (s : State) (n : Nat) (x : Lane) : s.writeV n x = s.modMe (setV n x) := rfl

theorem setG_id (n : Nat) (x : W64) (f : Firing) : (setG n x f).id = f.id := rfl
theorem setG_ended (n : Nat) (x : W64) (f : Firing) : (setG n x f).ended = f.ended := rfl
theorem setV_id (n : Nat) (x : Lane) (f : Firing) : (setV n x f).id = f.id := rfl
theorem setV_ended (n : Nat) (x : Lane) (f : Firing) : (setV n x f).ended = f.ended := rfl

theorem runs_writeG (s : State) (r : Rg) (x : W64) (h : s.Runs) : (s.writeG r x).Runs := by
  by_cases hr : r = 0
  · rw [hr, writeG_zero]; exact h
  · rw [writeG_eq _ _ _ hr]; exact runs_modMe _ _ (setG_id _ _) (setG_ended _ _) h

/-- A general register after the firing wrote one: g0 stays 0 (R142), the written one holds the value, the others hold what they
held. -/
theorem heldG_writeG (s : State) (d r : Rg) (x : W64) (h : s.Runs) :
    (s.writeG d x).heldG r = if r = d ∧ d ≠ 0 then x else s.heldG r := by
  by_cases hd : d = 0
  · rw [hd, writeG_zero]; simp
  · rw [writeG_eq _ _ _ hd]
    unfold heldG
    by_cases hr : r = 0
    · subst hr; rw [if_pos rfl, if_pos rfl, if_neg fun e => hd e.1.symm]
    · rw [if_neg hr, if_neg hr]
      unfold heldReg
      rw [notLater_modMe s _ (setG_id _ _) (setG_ended _ _) h, notLater_me h, ctx_modMe]
      by_cases hrd : r = d
      · subst hrd; rw [if_pos ⟨rfl, hd⟩]; simp [latest, setG, Tbl.find_put_self]
      · have : r.toNat ≠ d.toNat := fun e => hrd (BitVec.eq_of_toNat_eq e)
        simp [latest, setG, Tbl.find_put_other _ _ _ _ this, hrd]

theorem heldV_writeG (s : State) (d : Rg) (x : W64) (h : s.Runs) (n : Nat) : (s.writeG d x).heldV n = s.heldV n := by
  by_cases hd : d = 0
  · rw [hd, writeG_zero]
  · rw [writeG_eq _ _ _ hd]; exact heldV_modMe _ _ (setG_id _ _) (setG_ended _ _) (fun _ => rfl) h n

theorem heldSh_writeG (s : State) (d : Rg) (x : W64) (h : s.Runs) (n : Nat) : (s.writeG d x).heldSh n = s.heldSh n := by
  by_cases hd : d = 0
  · rw [hd, writeG_zero]
  · rw [writeG_eq _ _ _ hd]; exact heldSh_modMe _ _ (setG_id _ _) (setG_ended _ _) (fun _ => rfl) h n

theorem me_writeG (s : State) (d : Rg) (x : W64) (h : s.live = true) :
    (s.writeG d x).me = if d = 0 then s.me else setG d.toNat x s.me := by
  by_cases hd : d = 0
  · rw [hd, writeG_zero]; rfl
  · rw [writeG_eq _ _ _ hd, me_modMe _ _ (setG_id _ _) h, if_neg hd]

theorem runs_writeV (s : State) (n : Nat) (x : Lane) (h : s.Runs) : (s.writeV n x).Runs :=
  runs_modMe _ _ (setV_id _ _) (setV_ended _ _) h

theorem heldV_writeV (s : State) (d n : Nat) (x : Lane) (h : s.Runs) :
    (s.writeV d x).heldV n = if n = d then x else s.heldV n := by
  rw [writeV_eq]; unfold heldV heldReg
  rw [notLater_modMe s _ (setV_id _ _) (setV_ended _ _) h, notLater_me h, ctx_modMe]
  by_cases hn : n = d
  · subst hn; simp [latest, setV, Tbl.find_put_self]
  · simp [latest, setV, Tbl.find_put_other _ _ _ _ hn, hn]

theorem heldG_writeV (s : State) (d : Nat) (x : Lane) (h : s.Runs) (r : Rg) : (s.writeV d x).heldG r = s.heldG r :=
  heldG_modMe _ _ (setV_id _ _) (setV_ended _ _) (fun _ => rfl) h r

theorem heldSh_writeV (s : State) (d n : Nat) (x : Lane) (h : s.Runs) : (s.writeV d x).heldSh n = s.heldSh n :=
  heldSh_modMe _ _ (setV_id _ _) (setV_ended _ _) (fun _ => rfl) h n

/-! ### Only the current firing changes -/

theorem eq_firing {fs : List Firing} (h : Ordered fs) {x f : Firing} (hx : x ∈ fs) (hf : f ∈ fs)
    (he : x.id = f.id) : x = f := by
  induction fs with
  | nil => cases hx
  | cons y fs ih =>
    obtain ⟨h1, h2⟩ := List.pairwise_cons.1 h
    rcases List.mem_cons.1 hx with rfl | hx <;> rcases List.mem_cons.1 hf with rfl | hf
    · rfl
    · exact absurd he (Nat.ne_of_lt (h1 _ ‹_›))
    · exact absurd he (Nat.ne_of_gt (h1 _ ‹_›))
    · exact ih h2 ‹_› ‹_›

/-- Changing the firing is putting one record in its place. -/
theorem modMe_const (s : State) (u : Firing → Firing) (h : s.Runs) : s.modMe u = s.modMe fun _ => u s.me := by
  obtain ⟨hm, hid⟩ := firingOf_some (live_firing h.1).1
  suffices h : s.ctx.firings.map (fun x => if x.id = s.fid then u x else x)
      = s.ctx.firings.map fun x => if x.id = s.fid then u s.me else x from
    congrArg (fun fs => s.setCell s.cell { s.cellAt s.cell with run := { s.ctx with firings := fs } }) h
  refine List.map_congr_left fun x hx => ?_
  by_cases he : x.id = s.fid
  · rw [if_pos he, if_pos he, eq_firing h.2 hx hm (he.trans hid.symm)]
  · rw [if_neg he, if_neg he]

theorem setCell_setCell (s : State) (c : Nat) (x y : CellSt) : (s.setCell c x).setCell c y = s.setCell c y := by
  unfold setCell
  congr 1
  induction s.cells with
  | nil => simp [Tbl.put]
  | cons e t ih =>
    obtain ⟨k, v⟩ := e
    simp only [Tbl.put]
    by_cases h1 : k = c
    · simp [h1, Tbl.put]
    · by_cases h2 : c < k
      · simp [h1, h2, Tbl.put]
      · simp [h1, h2, Tbl.put, ih]

/-- Two changes of the firing are one. -/
theorem modMe_modMe (s : State) (u v : Firing → Firing) (hu : ∀ x, (u x).id = x.id) :
    (s.modMe u).modMe v = s.modMe fun x => v (u x) := by
  have e : ∀ t : State, ∀ f g : Ctx → Ctx, (t.modCtx f).modCtx g = t.modCtx fun c => g (f c) := fun t f g => by
    unfold modCtx modCell
    rw [show (t.setCell t.cell _).cell = t.cell from rfl, setCell_setCell, cellAt_setCell, if_pos rfl]
  unfold modMe
  rw [e]
  congr 1
  funext c
  simp only [modCtx_fid, List.map_map]
  congr 1
  refine List.map_congr_left fun x _ => ?_
  by_cases h : x.id = s.fid <;> simp [h, hu]

theorem onlyMe_modMe (s : State) (u : Firing → Firing) (hu : ∀ x, (u x).id = x.id) (h : s.Runs) :
    s.OnlyMe (s.modMe u) := by
  unfold OnlyMe
  rw [me_modMe s u hu h.1]; exact modMe_const s u h

end State

end Sys2Proof.Machine
end

