-- ==== Sys2Proof/Laws/Order.lean ====
section
/-! SUPPORT. Laws of memory order (log 5): what performing accepted stores and acquiring change, and what they leave alone. -/
set_option Elab.async false
namespace Sys2Proof.Machine

/-! ### What a cell knows -/

theorem get_addKnow (t : Tbl Nat) (u v k : Nat) :
    Tbl.get 0 (addKnow t u v) k = if k = u then max (Tbl.get 0 t u) v else Tbl.get 0 t k := by
  rw [addKnow, Tbl.get_put]

/-- A left fold of maxima is above its start and every value. -/
theorem le_foldl_max {α : Type} (g : α → Nat) (l : List α) (m : Nat) :
    m ≤ l.foldl (fun m x => max m (g x)) m ∧ ∀ x ∈ l, g x ≤ l.foldl (fun m x => max m (g x)) m := by
  induction l generalizing m with
  | nil => simp
  | cons y l ih =>
    obtain ⟨h1, h2⟩ := ih (max m (g y))
    refine ⟨by simp only [List.foldl_cons]; omega, fun x hx => ?_⟩
    rcases List.mem_cons.mp hx with rfl | hx
    · simp only [List.foldl_cons]; omega
    · exact h2 x hx

/-- The oldest version that a load may read is above the floor, and above what the cell has read and knows of each unit. -/
theorem seenOf_floor (c : Ctx) (us : List Nat) : c.floor ≤ c.seenOf us := (le_foldl_max _ us c.floor).1
theorem seenOf_unit (c : Ctx) (us : List Nat) (u : Nat) (h : u ∈ us) :
    Tbl.get 0 c.seen u ≤ c.seenOf us ∧ Tbl.get 0 c.know u ≤ c.seenOf us := by
  have := (le_foldl_max (fun u => max (Tbl.get 0 c.seen u) (Tbl.get 0 c.know u)) us c.floor).2 u h
  exact ⟨Nat.le_trans (Nat.le_max_left _ _) this, Nat.le_trans (Nat.le_max_right _ _) this⟩

/-- A version of some units put into a table. -/
theorem get_addAll (t : Tbl Nat) (us : List Nat) (v u : Nat) :
    Tbl.get 0 (us.foldl (fun t u => addKnow t u v) t) u = if u ∈ us then max (Tbl.get 0 t u) v else Tbl.get 0 t u := by
  induction us generalizing t with
  | nil => simp
  | cons w us ih =>
    rw [List.foldl_cons, ih, get_addKnow]
    by_cases h : u = w <;> by_cases h2 : u ∈ us <;> simp [h, h2] <;> subst h <;> simp_all

/-- What a cell has read of a unit after it has read a version of some units, and after it has written them. -/
theorem get_saw (c : Ctx) (us : List Nat) (v u : Nat) :
    Tbl.get 0 (c.saw us v).seen u = if u ∈ us then max (Tbl.get 0 c.seen u) v else Tbl.get 0 c.seen u := get_addAll _ _ _ _
theorem get_wrote (c : Ctx) (us : List Nat) (v u : Nat) :
    Tbl.get 0 (c.wrote us v).know u = if u ∈ us then max (Tbl.get 0 c.know u) v else Tbl.get 0 c.know u := get_addAll _ _ _ _
theorem seen_wrote (c : Ctx) (us : List Nat) (v : Nat) : (c.wrote us v).seen = (c.saw us v).seen := rfl

/-- No floor and no version that a table knows falls. -/
theorem get_mergeKnow (t u : Tbl Nat) (k : Nat) : Tbl.get 0 t k ≤ Tbl.get 0 (mergeKnow t u) k := by
  unfold mergeKnow
  induction u generalizing t with
  | nil => exact Nat.le_refl _
  | cons e u ih =>
    refine Nat.le_trans ?_ (ih _)
    rw [get_addKnow]
    split
    · rename_i h; rw [h]; exact Nat.le_max_left _ _
    · exact Nat.le_refl _

/-- What an acquire learns changes what a context knows, and nothing else of it; its floor never falls. -/
theorem learn_eq (ls : List Link) (c : Ctx) :
    ∃ k f, ls.foldl Ctx.learn c = { c with know := k, floor := f } ∧ c.floor ≤ f ∧ ∀ u, Tbl.get 0 c.know u ≤ Tbl.get 0 k u := by
  induction ls generalizing c with
  | nil => exact ⟨c.know, c.floor, rfl, Nat.le_refl _, fun _ => Nat.le_refl _⟩
  | cons l ls ih =>
    obtain ⟨k, f, h1, h2, h3⟩ := ih (c.learn l)
    exact ⟨k, f, h1, Nat.le_trans (Nat.le_max_left _ _) h2, fun u => Nat.le_trans (get_mergeKnow _ _ u) (h3 u)⟩

namespace State

/-! ### Performing accepted stores -/

@[simp] theorem modView_banks (s : State) (c n : Nat) (f : Ctx → Ctx) : (s.modView c n f).banks = s.banks := by
  unfold modView; dsimp only; split; · rfl
  split; · rfl
  split; · rfl
  split <;> rfl
@[simp] theorem modView_mem (s : State) (c n : Nat) (f : Ctx → Ctx) : (s.modView c n f).mem = s.mem := by
  unfold modView; dsimp only; split; · rfl
  split; · rfl
  split; · rfl
  split <;> rfl

/-- What a context outside the current one observes touches that context only. -/
theorem modView_eq (s : State) (c n : Nat) (f : Ctx → Ctx) :
    s.modView c n f = { s with cells := (s.modView c n f).cells, saves := (s.modView c n f).saves } := by
  unfold modView; dsimp only; split; · rfl
  split; · rfl
  split; · rfl
  split <;> rfl

/-- A store performed at its home changes bytes, what its cell has read and written, the log of writes; one lost to poison only
leaves its record, noted at its sector's port. -/
theorem performOne_eq (s : State) (l : Late) :
    s.performOne l = { s with
      banks := (s.performOne l).banks, mem := (s.performOne l).mem, cells := (s.performOne l).cells
      saves := (s.performOne l).saves, wlog := (s.performOne l).wlog, due := (s.performOne l).due
      sectors := (s.performOne l).sectors } := by
  unfold performOne
  split
  · rfl
  · dsimp only
    unfold logWrites
    rw [modView_eq]
    split <;> rfl
theorem performOne_banks (s : State) (l : Late) :
    (s.performOne l).banks = if l.virt then s.banks else Mem.store s.banks l.addr l.bytes := by
  unfold performOne
  split
  · rename_i h
    split
    · rfl
    · rename_i hv; simp [hv] at h
  · dsimp only
    unfold logWrites
    rw [modView_banks]
    split <;> rfl
theorem performOne_mem (s : State) (l : Late) (h : l.virt = true → s.storePoison l.parts = none) :
    (s.performOne l).mem = if l.virt then storePieces s.mem l.bytes l.parts else s.mem := by
  unfold performOne
  have : (if l.virt then s.storePoison l.parts else none) = none := by split <;> simp_all
  rw [this]
  dsimp only
  unfold logWrites
  rw [modView_mem]
  split <;> rfl

/-- Several stores performed one after the other. -/
theorem foldl_performOne (ls : List Late) (s : State) :
    ls.foldl performOne s = { s with
      banks := ls.foldl (fun m l => if l.virt then m else Mem.store m l.addr l.bytes) s.banks
      mem := (ls.foldl performOne s).mem, cells := (ls.foldl performOne s).cells, saves := (ls.foldl performOne s).saves
      wlog := (ls.foldl performOne s).wlog, due := (ls.foldl performOne s).due
      sectors := (ls.foldl performOne s).sectors } := by
  induction ls generalizing s with
  | nil => rfl
  | cons l ls ih =>
    rw [List.foldl_cons, List.foldl_cons, ih, performOne_banks]
    rw [performOne_eq s l]

/-- A flush performs every accepted store of the current cell. -/
theorem flush_stores (s : State) : s.flush.stores = s.stores.filter fun l => !s.mine l := by
  unfold flush performAll; rw [foldl_performOne]
theorem flush_banks (s : State) : s.flush.banks
    = (s.stores.filter s.mine).foldl (fun m l => if l.virt then m else Mem.store m l.addr l.bytes) s.banks := by
  unfold flush performAll; rw [foldl_performOne]
@[simp] theorem flush_cell (s : State) : s.flush.cell = s.cell := by unfold flush performAll; rw [foldl_performOne]
@[simp] theorem flush_fid (s : State) : s.flush.fid = s.fid := by unfold flush performAll; rw [foldl_performOne]
@[simp] theorem flush_past (s : State) : s.flush.past = s.past := by unfold flush performAll; rw [foldl_performOne]
@[simp] theorem flush_late (s : State) : s.flush.late = s.late := by unfold flush performAll; rw [foldl_performOne]

/-- With no accepted store of the current cell, a flush changes nothing. -/
theorem flush_of_none (s : State) (h : ∀ l ∈ s.stores, s.mine l = false) : s.flush = s := by
  unfold flush performAll
  have h1 : s.stores.filter s.mine = [] := List.filter_eq_nil_iff.mpr fun l hl => by simp [h l hl]
  have h2 : (s.stores.filter fun l => !s.mine l) = s.stores := List.filter_eq_self.mpr fun l hl => by simp [h l hl]
  rw [h1, h2]; rfl

/-! ### Acquiring -/

@[simp] theorem acquire_banks (s : State) (v : Nat) : (s.acquire v).banks = s.banks := rfl
@[simp] theorem acquire_mem (s : State) (v : Nat) : (s.acquire v).mem = s.mem := rfl
@[simp] theorem acquire_stores (s : State) (v : Nat) : (s.acquire v).stores = s.stores := rfl
@[simp] theorem acquire_past (s : State) (v : Nat) : (s.acquire v).past = s.past := rfl
theorem ctx_acquire (s : State) (v : Nat) : (s.acquire v).ctx = { s.ctx with floor := max s.ctx.floor v } := ctx_modCtx s _

/-- Observing releases, and seeing what was shown, change what the current context knows, and nothing else. -/
theorem observe_ctx (s : State) (scope : Nat) (ls : List Link) :
    ∃ k f, (s.observe scope ls).ctx = { s.ctx with know := k, floor := f } ∧ s.ctx.floor ≤ f := by
  unfold observe
  rw [ctx_modCtx]
  obtain ⟨k, f, h1, h2, -⟩ := learn_eq (ls.filter fun l => l.reaches s.cell scope) s.ctx
  exact ⟨k, f, h1, h2⟩
theorem meetShown_ctx (s : State) (scope : Nat) : ∃ k, (s.meetShown scope).ctx = { s.ctx with know := k } :=
  ⟨_, ctx_modCtx s _⟩

/-- An instruction that has no wave word, releases nothing and acquires nothing finds the state as it stands. -/
theorem order_plain (s : State) (i : Instr) (h1 : i.wave = none) (h2 : i.releases = false) (h3 : i.acqScope = none) : s.order i = s := by
  unfold order
  have : s.relScopeOf i = none := by unfold relScopeOf; rw [h1]
  simp [h1, h2, h3, this]

/-! ### What reads and vector writes leave behind -/

/-- Reading the records of a vector instruction, and marking what it wrote, change what the cell has read and the log of writes,
and nothing else. -/
theorem sawBank_eq (s : State) (a n : Nat) : s.sawBank a n = { s with cells := (s.sawBank a n).cells, wlog := (s.sawBank a n).wlog } := by
  unfold sawBank; split <;> rfl
theorem sawRecord_eq (s : State) (k : Nat) : s.sawRecord k = { s with cells := (s.sawRecord k).cells, wlog := (s.sawRecord k).wlog } := by
  unfold sawRecord
  split
  · exact sawBank_eq _ _ _
  · rfl
theorem sawRecords_eq (s : State) (sels : List Nat) :
    s.sawRecords sels = { s with cells := (s.sawRecords sels).cells, wlog := (s.sawRecords sels).wlog } := by
  unfold sawRecords
  split
  · rfl
  · rename_i h
    clear h
    induction sels generalizing s with
    | nil => rfl
    | cons k ks ih =>
      rw [List.foldl_cons, ih]
      rw [sawRecord_eq]
theorem vecMark_eq (s : State) (h : Shape) : s.vecMark h = { s with cells := (s.vecMark h).cells, wlog := (s.vecMark h).wlog } := by
  unfold vecMark; dsimp only; split <;> rfl

end State

end Sys2Proof.Machine
end

