-- ==== Sys2Proof/Laws/Outside.lean ====
section
/-! SUPPORT. What the moves of the management cores, of the host and of peer modules can do. -/
namespace Sys2Proof.Machine

/-! ### Management cores (R26, R331) -/

/-- An instruction of a core leaves `x0` at 0. -/
theorem CoreSt.act_retire_x0 (c : CoreSt) (x f : List W64) (pc : W64) (csr : Tbl W64) :
    (c.act (.retire x f pc csr)).x.head? = some 0 := rfl

/-- A reach that the protection entries grant changes nothing of the core. -/
theorem CoreSt.act_access_granted (c : CoreSt) (g : Grant) (h : c.may g = true) : c.act (.access g) = c := by
  simp [CoreSt.act, h]

/-- A reach without a grant is an exception: the core goes to M mode, and the mode that it left stands. -/
theorem CoreSt.act_access_refused (c : CoreSt) (g : Grant) (h : c.may g = false) :
    c.act (.access g) = { c with trap := some c.mode, mode := .m } := by
  simp [CoreSt.act, h, CoreSt.except]

/-- No act of a core changes its protection entries. -/
@[simp] theorem CoreSt.act_pmp (c : CoreSt) (a : CoreAct) : (c.act a).pmp = c.pmp := by
  cases a <;> simp only [CoreSt.act, CoreSt.except] <;> split <;> rfl

/-- No act of a core changes its request page. -/
@[simp] theorem CoreSt.act_page (c : CoreSt) (a : CoreAct) : (c.act a).page = c.page := by
  cases a <;> simp only [CoreSt.act, CoreSt.except] <;> split <;> rfl

namespace State

/-- What a core does changes the management cluster only. -/
theorem coreAct_frame (s : State) (n : Nat) (a : CoreAct) : s.coreAct n a = { s with mgmt := (s.coreAct n a).mgmt } := by
  unfold coreAct; split <;> rfl

/-! ### The host link (R323) and packets of peers (R424) -/

/-- What the host programs changes the functions' base addresses only. -/
theorem programBar_frame (s : State) (fn : Nat) (two : Bool) (base : W64) :
    s.programBar fn two base = { s with pcie := (s.programBar fn two base).pcie } := by
  unfold programBar; split <;> rfl

/-- A packet of a peer that is lost does nothing. -/
theorem receive_absent (s : State) (x : PeerPacket) (take : State → Option Res) (h : s.present x.peer = false) :
    s.receive x take = .next s := by
  simp [receive, hear, h]

/-- A duplicate from a peer that is present is acknowledged again, and nothing else of it is used. -/
theorem receive_duplicate (s : State) (x : PeerPacket) (take : State → Option Res)
    (hp : (s.hear x.peer).present x.peer = true) (hd : (s.hear x.peer).duplicate x = true) :
    s.receive x take =
      .next { s.hear x.peer with outbox := (s.hear x.peer).outbox ++ [.ack x.peer x.vc x.num] } := by
  simp [receive, hp, hd]

end State

end Sys2Proof.Machine
end

