-- ==== Sys2Proof/Laws/PerInstr.lean ====
section
/-! SUPPORT. Decoding the words of a well-formed instruction gives the instruction back, one lemma per constructor. -/
set_option Elab.async false
namespace Sys2Proof.Laws.RoundTrip

/-- The words of a well-formed instruction, whatever words follow them in the body, decode to it (R117 to R121, R138 to
R140). An event has no words. -/
def Statement (i : Instr) : Prop :=
  i.wf = true → (encodeParts i).isSome = true → ∀ rest, decode (encode i ++ rest) = .ok (i, i.words)

end Sys2Proof.Laws.RoundTrip

theorem Sys2Proof.Laws.RoundTrip.firingSelect (cell : Nat) :
    Sys2Proof.Laws.RoundTrip.Statement (.firingSelect cell) := by
  intro _ h; cases h
theorem Sys2Proof.Laws.RoundTrip.firingDeposit (cell : Nat) (fid : Nat) :
    Sys2Proof.Laws.RoundTrip.Statement (.firingDeposit cell fid) := by
  intro _ h; cases h
theorem Sys2Proof.Laws.RoundTrip.tokenArrival (k : Nat) :
    Sys2Proof.Laws.RoundTrip.Statement (.tokenArrival k) := by
  intro _ h; cases h
theorem Sys2Proof.Laws.RoundTrip.wordArrival (k : Nat) :
    Sys2Proof.Laws.RoundTrip.Statement (.wordArrival k) := by
  intro _ h; cases h
theorem Sys2Proof.Laws.RoundTrip.heldWordDelivery (k : Nat) :
    Sys2Proof.Laws.RoundTrip.Statement (.heldWordDelivery k) := by
  intro _ h; cases h
theorem Sys2Proof.Laws.RoundTrip.entryWordJoin (cell : Nat) (place : Nat) :
    Sys2Proof.Laws.RoundTrip.Statement (.entryWordJoin cell place) := by
  intro _ h; cases h
theorem Sys2Proof.Laws.RoundTrip.netInstanceComplete (net : Nat) :
    Sys2Proof.Laws.RoundTrip.Statement (.netInstanceComplete net) := by
  intro _ h; cases h
theorem Sys2Proof.Laws.RoundTrip.scrubComplete (net : Nat) :
    Sys2Proof.Laws.RoundTrip.Statement (.scrubComplete net) := by
  intro _ h; cases h
theorem Sys2Proof.Laws.RoundTrip.accessReply (cell : Nat) (fid : Nat) :
    Sys2Proof.Laws.RoundTrip.Statement (.accessReply cell fid) := by
  intro _ h; cases h
theorem Sys2Proof.Laws.RoundTrip.conditionWaitEnd (cell : Nat) (fid : Nat) :
    Sys2Proof.Laws.RoundTrip.Statement (.conditionWaitEnd cell fid) := by
  intro _ h; cases h
theorem Sys2Proof.Laws.RoundTrip.emit (rel : Bool) (scope : BitVec 3) (a : Rg) (place : Byte) (count : BitVec 12) (cell : BitVec 12) :
    Sys2Proof.Laws.RoundTrip.Statement (.emit rel scope a place count cell) := by
  intro h _ r
  change ((rel || scope == 0) && (scope.toNat < 6) && (a == 0 || count == 0)) = true at h
  simp at h
  refine decode_encode rfl (by simp) (by simp) (by simp) rfl ?_
  rw [decodeWords_20 _ _ _ rfl]
  generalize hw : W0.mk _ _ _ _ _ _ _ = w0
  have hf : w0.fn = 0 := by subst hw; rfl
  simp only [decodeOp20, hf, List.cons_append, List.nil_append, List.getD_cons_zero, List.getD_cons_succ, packT_fields, relD_fields]
  subst hw
  refine finish_ok rfl (by simp [packT_fields, relD_fields]) ?_
  simp [firstBad, packT_fields, relD_fields, h]
  intro hr
  simp only [hr, Bool.false_eq_true, false_or] at h
  simp [h]
theorem Sys2Proof.Laws.RoundTrip.emitW (rel : Bool) (scope : BitVec 3) (a : Rg) (place : Byte) (cell : BitVec 12) :
    Sys2Proof.Laws.RoundTrip.Statement (.emitW rel scope a place cell) := by
  intro h _ r
  change ((rel || scope == 0) && (scope.toNat < 6)) = true at h
  simp at h
  refine decode_encode rfl (by simp) (by simp) (by simp) rfl ?_
  rw [decodeWords_20 _ _ _ rfl]
  generalize hw : W0.mk _ _ _ _ _ _ _ = w0
  have hf : w0.fn = 1 := by subst hw; rfl
  simp only [decodeOp20, hf, List.cons_append, List.nil_append, List.getD_cons_zero, List.getD_cons_succ, packT_fields, relD_fields]
  subst hw
  refine finish_ok rfl (by simp [packT_fields, relD_fields]) ?_
  simp [firstBad, packT_fields, relD_fields, h]
  intro hr
  simp only [hr, Bool.false_eq_true, false_or] at h
  simp [h]
theorem Sys2Proof.Laws.RoundTrip.take (d : Rg) (place : Byte) (s : Bool) :
    Sys2Proof.Laws.RoundTrip.Statement (.take d place s) := by
  intro _ _ r
  refine decode_encode rfl (by simp) (by simp) (by simp) rfl ?_
  rw [decodeWords_20 _ _ _ rfl]
  generalize hw : W0.mk _ _ _ _ _ _ _ = w0
  have hf : w0.fn = 2 := by subst hw; rfl
  simp only [decodeOp20, hf, List.cons_append, List.nil_append, List.getD_cons_zero, List.getD_cons_succ, packT_fields]
  subst hw
  refine finish_ok rfl rfl ?_
  simp [firstBad, packT_fields]
theorem Sys2Proof.Laws.RoundTrip.mcount (d : Rg) (place : Byte) (s : Bool) :
    Sys2Proof.Laws.RoundTrip.Statement (.mcount d place s) := by
  intro _ _ r
  refine decode_encode rfl (by simp) (by simp) (by simp) rfl ?_
  rw [decodeWords_20 _ _ _ rfl]
  generalize hw : W0.mk _ _ _ _ _ _ _ = w0
  have hf : w0.fn = 3 := by subst hw; rfl
  simp only [decodeOp20, hf, List.cons_append, List.nil_append, List.getD_cons_zero, List.getD_cons_succ, packT_fields]
  subst hw
  refine finish_ok rfl rfl ?_
  simp [firstBad, packT_fields]
theorem Sys2Proof.Laws.RoundTrip.mset (a : Rg) (place : Byte) (count : BitVec 12) :
    Sys2Proof.Laws.RoundTrip.Statement (.mset a place count) := by
  intro h _ r
  change ((a == 0 || count == 0)) = true at h
  simp at h
  refine decode_encode rfl (by simp) (by simp) (by simp) rfl ?_
  rw [decodeWords_20 _ _ _ rfl]
  generalize hw : W0.mk _ _ _ _ _ _ _ = w0
  have hf : w0.fn = 4 := by subst hw; rfl
  simp only [decodeOp20, hf, List.cons_append, List.nil_append, List.getD_cons_zero, List.getD_cons_succ, packT_fields]
  subst hw
  refine finish_ok rfl rfl ?_
  simp [firstBad, packT_fields, h]
theorem Sys2Proof.Laws.RoundTrip.arm (t : BitVec 6) (cell : BitVec 12) :
    Sys2Proof.Laws.RoundTrip.Statement (.arm t cell) := by
  intro _ _ r
  refine decode_encode rfl (by simp) (by simp) (by simp) rfl ?_
  rw [decodeWords_20 _ _ _ rfl]
  generalize hw : W0.mk _ _ _ _ _ _ _ = w0
  have hf : w0.fn = 5 := by subst hw; rfl
  simp only [decodeOp20, hf, List.cons_append, List.nil_append, List.getD_cons_zero, List.getD_cons_succ, packT_fields]
  subst hw
  refine finish_ok rfl (by simp [packT_fields, setWidth_setWidth_of_le, fld_setWidth]) ?_
  simp [firstBad, packT_fields, setWidth_setWidth_of_le, fld_setWidth]
  have := t.isLt
  omega
theorem Sys2Proof.Laws.RoundTrip.disarm (t : BitVec 6) (cell : BitVec 12) :
    Sys2Proof.Laws.RoundTrip.Statement (.disarm t cell) := by
  intro _ _ r
  refine decode_encode rfl (by simp) (by simp) (by simp) rfl ?_
  rw [decodeWords_20 _ _ _ rfl]
  generalize hw : W0.mk _ _ _ _ _ _ _ = w0
  have hf : w0.fn = 6 := by subst hw; rfl
  simp only [decodeOp20, hf, List.cons_append, List.nil_append, List.getD_cons_zero, List.getD_cons_succ, packT_fields]
  subst hw
  refine finish_ok rfl (by simp [packT_fields, setWidth_setWidth_of_le, fld_setWidth]) ?_
  simp [firstBad, packT_fields, setWidth_setWidth_of_le, fld_setWidth]
  have := t.isLt
  omega
theorem Sys2Proof.Laws.RoundTrip.sel (k : BitVec 2) :
    Sys2Proof.Laws.RoundTrip.Statement (.sel k) := by
  intro _ _ r
  refine decode_encode rfl (by simp) (by simp) (by simp) rfl ?_
  rw [decodeWords_21 _ _ _ rfl]
  generalize hw : W0.mk _ _ _ _ _ _ _ = w0
  have hf : w0.fn = 0 := by subst hw; rfl
  simp only [decodeOp21, hf, List.cons_append, List.nil_append, List.getD_cons_zero, List.getD_cons_succ]
  subst hw
  refine finish_ok rfl (by simp [setWidth_setWidth_of_le, fld_setWidth]) ?_
  simp [firstBad, setWidth_setWidth_of_le, fld_setWidth]
theorem Sys2Proof.Laws.RoundTrip.selx (a : Rg) :
    Sys2Proof.Laws.RoundTrip.Statement (.selx a) := by
  intro _ _ r
  refine decode_encode rfl (by simp) (by simp) (by simp) rfl ?_
  rw [decodeWords_21 _ _ _ rfl]
  generalize hw : W0.mk _ _ _ _ _ _ _ = w0
  have hf : w0.fn = 1 := by subst hw; rfl
  simp only [decodeOp21, hf, List.cons_append, List.nil_append, List.getD_cons_zero, List.getD_cons_succ]
  subst hw
  refine finish_ok rfl rfl ?_
  simp [firstBad]
theorem Sys2Proof.Laws.RoundTrip.safept :
    Sys2Proof.Laws.RoundTrip.Statement (.safept) := by
  intro _ _ r
  refine decode_encode rfl (by simp) (by simp) (by simp) rfl ?_
  rw [decodeWords_21 _ _ _ rfl]
  generalize hw : W0.mk _ _ _ _ _ _ _ = w0
  have hf : w0.fn = 2 := by subst hw; rfl
  simp only [decodeOp21, hf, List.cons_append, List.nil_append, List.getD_cons_zero, List.getD_cons_succ]
  subst hw
  refine finish_ok rfl rfl ?_
  simp [firstBad]
theorem Sys2Proof.Laws.RoundTrip.halt :
    Sys2Proof.Laws.RoundTrip.Statement (.halt) := by
  intro _ _ r
  refine decode_encode rfl (by simp) (by simp) (by simp) rfl ?_
  rw [decodeWords_21 _ _ _ rfl]
  generalize hw : W0.mk _ _ _ _ _ _ _ = w0
  have hf : w0.fn = 3 := by subst hw; rfl
  simp only [decodeOp21, hf, List.cons_append, List.nil_append, List.getD_cons_zero, List.getD_cons_succ]
  subst hw
  refine finish_ok rfl rfl ?_
  simp [firstBad]
theorem Sys2Proof.Laws.RoundTrip.trap (k : BitVec 10) :
    Sys2Proof.Laws.RoundTrip.Statement (.trap k) := by
  intro _ _ r
  refine decode_encode rfl (by simp) (by simp) (by simp) rfl ?_
  rw [decodeWords_21 _ _ _ rfl]
  generalize hw : W0.mk _ _ _ _ _ _ _ = w0
  have hf : w0.fn = 4 := by subst hw; rfl
  simp only [decodeOp21, hf, List.cons_append, List.nil_append, List.getD_cons_zero, List.getD_cons_succ, trap_fields]
  subst hw
  refine finish_ok rfl (by simp [trap_fields]) ?_
  simp [firstBad, trap_fields]
theorem Sys2Proof.Laws.RoundTrip.nop :
    Sys2Proof.Laws.RoundTrip.Statement (.nop) := by
  intro _ _ r
  refine decode_encode rfl (by simp) (by simp) (by simp) rfl ?_
  rw [decodeWords_21 _ _ _ rfl]
  generalize hw : W0.mk _ _ _ _ _ _ _ = w0
  have hf : w0.fn = 5 := by subst hw; rfl
  simp only [decodeOp21, hf, List.cons_append, List.nil_append, List.getD_cons_zero, List.getD_cons_succ]
  subst hw
  refine finish_ok rfl rfl ?_
  simp [firstBad]
theorem Sys2Proof.Laws.RoundTrip.cfgLoad (a : Rg) (off : W32) :
    Sys2Proof.Laws.RoundTrip.Statement (.cfgLoad a off) := by
  intro _ _ r
  refine decode_encode rfl (by simp) (by simp) (by simp) rfl ?_
  rw [decodeWords_22 _ _ _ rfl]
  generalize hw : W0.mk _ _ _ _ _ _ _ = w0
  have hf : w0.fn = 0 := by subst hw; rfl
  simp only [decodeOp22, hf, List.cons_append, List.nil_append, List.getD_cons_zero, List.getD_cons_succ]
  subst hw
  refine finish_ok rfl rfl ?_
  simp [firstBad]
theorem Sys2Proof.Laws.RoundTrip.csrr (d : Rg) (reg : BitVec 9) (s : Bool) :
    Sys2Proof.Laws.RoundTrip.Statement (.csrr d reg s) := by
  intro h _ r
  change ((csrAssigned reg.toNat)) = true at h
  skip
  refine decode_encode rfl (by simp) (by simp) (by simp) rfl ?_
  rw [decodeWords_22 _ _ _ rfl]
  generalize hw : W0.mk _ _ _ _ _ _ _ = w0
  have hf : w0.fn = 1 := by subst hw; rfl
  simp only [decodeOp22, hf, List.cons_append, List.nil_append, List.getD_cons_zero, List.getD_cons_succ]
  subst hw
  refine finish_ok rfl (by simp [setWidth_setWidth_of_le, fld_setWidth, fld_csr]) ?_
  simp [firstBad, setWidth_setWidth_of_le, fld_setWidth, fld_csr, h]
theorem Sys2Proof.Laws.RoundTrip.csrw (d : Rg) (a : Rg) (reg : BitVec 9) :
    Sys2Proof.Laws.RoundTrip.Statement (.csrw d a reg) := by
  intro h _ r
  change ((csrAssigned reg.toNat)) = true at h
  skip
  refine decode_encode rfl (by simp) (by simp) (by simp) rfl ?_
  rw [decodeWords_22 _ _ _ rfl]
  generalize hw : W0.mk _ _ _ _ _ _ _ = w0
  have hf : w0.fn = 2 := by subst hw; rfl
  simp only [decodeOp22, hf, List.cons_append, List.nil_append, List.getD_cons_zero, List.getD_cons_succ]
  subst hw
  refine finish_ok rfl (by simp [setWidth_setWidth_of_le, fld_setWidth, fld_csr]) ?_
  simp [firstBad, setWidth_setWidth_of_le, fld_setWidth, fld_csr, h]
theorem Sys2Proof.Laws.RoundTrip.csrs (d : Rg) (a : Rg) (reg : BitVec 9) :
    Sys2Proof.Laws.RoundTrip.Statement (.csrs d a reg) := by
  intro h _ r
  change ((csrAssigned reg.toNat)) = true at h
  skip
  refine decode_encode rfl (by simp) (by simp) (by simp) rfl ?_
  rw [decodeWords_22 _ _ _ rfl]
  generalize hw : W0.mk _ _ _ _ _ _ _ = w0
  have hf : w0.fn = 3 := by subst hw; rfl
  simp only [decodeOp22, hf, List.cons_append, List.nil_append, List.getD_cons_zero, List.getD_cons_succ]
  subst hw
  refine finish_ok rfl (by simp [setWidth_setWidth_of_le, fld_setWidth, fld_csr]) ?_
  simp [firstBad, setWidth_setWidth_of_le, fld_setWidth, fld_csr, h]
theorem Sys2Proof.Laws.RoundTrip.csrc (d : Rg) (a : Rg) (reg : BitVec 9) :
    Sys2Proof.Laws.RoundTrip.Statement (.csrc d a reg) := by
  intro h _ r
  change ((csrAssigned reg.toNat)) = true at h
  skip
  refine decode_encode rfl (by simp) (by simp) (by simp) rfl ?_
  rw [decodeWords_22 _ _ _ rfl]
  generalize hw : W0.mk _ _ _ _ _ _ _ = w0
  have hf : w0.fn = 4 := by subst hw; rfl
  simp only [decodeOp22, hf, List.cons_append, List.nil_append, List.getD_cons_zero, List.getD_cons_succ]
  subst hw
  refine finish_ok rfl (by simp [setWidth_setWidth_of_le, fld_setWidth, fld_csr]) ?_
  simp [firstBad, setWidth_setWidth_of_le, fld_setWidth, fld_csr, h]
theorem Sys2Proof.Laws.RoundTrip.add (d : Rg) (a : Rg) (b : Rg) (s : Bool) :
    Sys2Proof.Laws.RoundTrip.Statement (.add d a b s) := by
  intro _ _ r
  refine decode_encode rfl (by simp) (by simp) (by simp) rfl ?_
  rw [decodeWords_00 _ _ _ rfl]
  generalize hw : W0.mk _ _ _ _ _ _ _ = w0
  have hf : w0.fn = 0 := by subst hw; rfl
  simp only [decodeOp00, hf, List.cons_append, List.nil_append, List.getD_cons_zero, List.getD_cons_succ]
  subst hw
  refine finish_ok rfl rfl ?_
  simp [firstBad]
theorem Sys2Proof.Laws.RoundTrip.sub (d : Rg) (a : Rg) (b : Rg) (s : Bool) :
    Sys2Proof.Laws.RoundTrip.Statement (.sub d a b s) := by
  intro _ _ r
  refine decode_encode rfl (by simp) (by simp) (by simp) rfl ?_
  rw [decodeWords_00 _ _ _ rfl]
  generalize hw : W0.mk _ _ _ _ _ _ _ = w0
  have hf : w0.fn = 1 := by subst hw; rfl
  simp only [decodeOp00, hf, List.cons_append, List.nil_append, List.getD_cons_zero, List.getD_cons_succ]
  subst hw
  refine finish_ok rfl rfl ?_
  simp [firstBad]
theorem Sys2Proof.Laws.RoundTrip.mul (d : Rg) (a : Rg) (b : Rg) (s : Bool) :
    Sys2Proof.Laws.RoundTrip.Statement (.mul d a b s) := by
  intro _ _ r
  refine decode_encode rfl (by simp) (by simp) (by simp) rfl ?_
  rw [decodeWords_00 _ _ _ rfl]
  generalize hw : W0.mk _ _ _ _ _ _ _ = w0
  have hf : w0.fn = 2 := by subst hw; rfl
  simp only [decodeOp00, hf, List.cons_append, List.nil_append, List.getD_cons_zero, List.getD_cons_succ]
  subst hw
  refine finish_ok rfl rfl ?_
  simp [firstBad]
theorem Sys2Proof.Laws.RoundTrip.mulh (d : Rg) (a : Rg) (b : Rg) (s : Bool) :
    Sys2Proof.Laws.RoundTrip.Statement (.mulh d a b s) := by
  intro _ _ r
  refine decode_encode rfl (by simp) (by simp) (by simp) rfl ?_
  rw [decodeWords_00 _ _ _ rfl]
  generalize hw : W0.mk _ _ _ _ _ _ _ = w0
  have hf : w0.fn = 3 := by subst hw; rfl
  simp only [decodeOp00, hf, List.cons_append, List.nil_append, List.getD_cons_zero, List.getD_cons_succ]
  subst hw
  refine finish_ok rfl rfl ?_
  simp [firstBad]
theorem Sys2Proof.Laws.RoundTrip.mulhz (d : Rg) (a : Rg) (b : Rg) (s : Bool) :
    Sys2Proof.Laws.RoundTrip.Statement (.mulhz d a b s) := by
  intro _ _ r
  refine decode_encode rfl (by simp) (by simp) (by simp) rfl ?_
  rw [decodeWords_00 _ _ _ rfl]
  generalize hw : W0.mk _ _ _ _ _ _ _ = w0
  have hf : w0.fn = 4 := by subst hw; rfl
  simp only [decodeOp00, hf, List.cons_append, List.nil_append, List.getD_cons_zero, List.getD_cons_succ]
  subst hw
  refine finish_ok rfl rfl ?_
  simp [firstBad]
theorem Sys2Proof.Laws.RoundTrip.div (d : Rg) (a : Rg) (b : Rg) (s : Bool) :
    Sys2Proof.Laws.RoundTrip.Statement (.div d a b s) := by
  intro _ _ r
  refine decode_encode rfl (by simp) (by simp) (by simp) rfl ?_
  rw [decodeWords_00 _ _ _ rfl]
  generalize hw : W0.mk _ _ _ _ _ _ _ = w0
  have hf : w0.fn = 5 := by subst hw; rfl
  simp only [decodeOp00, hf, List.cons_append, List.nil_append, List.getD_cons_zero, List.getD_cons_succ]
  subst hw
  refine finish_ok rfl rfl ?_
  simp [firstBad]
theorem Sys2Proof.Laws.RoundTrip.divz (d : Rg) (a : Rg) (b : Rg) (s : Bool) :
    Sys2Proof.Laws.RoundTrip.Statement (.divz d a b s) := by
  intro _ _ r
  refine decode_encode rfl (by simp) (by simp) (by simp) rfl ?_
  rw [decodeWords_00 _ _ _ rfl]
  generalize hw : W0.mk _ _ _ _ _ _ _ = w0
  have hf : w0.fn = 6 := by subst hw; rfl
  simp only [decodeOp00, hf, List.cons_append, List.nil_append, List.getD_cons_zero, List.getD_cons_succ]
  subst hw
  refine finish_ok rfl rfl ?_
  simp [firstBad]
theorem Sys2Proof.Laws.RoundTrip.rem (d : Rg) (a : Rg) (b : Rg) (s : Bool) :
    Sys2Proof.Laws.RoundTrip.Statement (.rem d a b s) := by
  intro _ _ r
  refine decode_encode rfl (by simp) (by simp) (by simp) rfl ?_
  rw [decodeWords_00 _ _ _ rfl]
  generalize hw : W0.mk _ _ _ _ _ _ _ = w0
  have hf : w0.fn = 7 := by subst hw; rfl
  simp only [decodeOp00, hf, List.cons_append, List.nil_append, List.getD_cons_zero, List.getD_cons_succ]
  subst hw
  refine finish_ok rfl rfl ?_
  simp [firstBad]
theorem Sys2Proof.Laws.RoundTrip.remz (d : Rg) (a : Rg) (b : Rg) (s : Bool) :
    Sys2Proof.Laws.RoundTrip.Statement (.remz d a b s) := by
  intro _ _ r
  refine decode_encode rfl (by simp) (by simp) (by simp) rfl ?_
  rw [decodeWords_00 _ _ _ rfl]
  generalize hw : W0.mk _ _ _ _ _ _ _ = w0
  have hf : w0.fn = 8 := by subst hw; rfl
  simp only [decodeOp00, hf, List.cons_append, List.nil_append, List.getD_cons_zero, List.getD_cons_succ]
  subst hw
  refine finish_ok rfl rfl ?_
  simp [firstBad]
theorem Sys2Proof.Laws.RoundTrip.and (d : Rg) (a : Rg) (b : Rg) (s : Bool) :
    Sys2Proof.Laws.RoundTrip.Statement (.and d a b s) := by
  intro _ _ r
  refine decode_encode rfl (by simp) (by simp) (by simp) rfl ?_
  rw [decodeWords_00 _ _ _ rfl]
  generalize hw : W0.mk _ _ _ _ _ _ _ = w0
  have hf : w0.fn = 9 := by subst hw; rfl
  simp only [decodeOp00, hf, List.cons_append, List.nil_append, List.getD_cons_zero, List.getD_cons_succ]
  subst hw
  refine finish_ok rfl rfl ?_
  simp [firstBad]
theorem Sys2Proof.Laws.RoundTrip.or (d : Rg) (a : Rg) (b : Rg) (s : Bool) :
    Sys2Proof.Laws.RoundTrip.Statement (.or d a b s) := by
  intro _ _ r
  refine decode_encode rfl (by simp) (by simp) (by simp) rfl ?_
  rw [decodeWords_00 _ _ _ rfl]
  generalize hw : W0.mk _ _ _ _ _ _ _ = w0
  have hf : w0.fn = 10 := by subst hw; rfl
  simp only [decodeOp00, hf, List.cons_append, List.nil_append, List.getD_cons_zero, List.getD_cons_succ]
  subst hw
  refine finish_ok rfl rfl ?_
  simp [firstBad]
theorem Sys2Proof.Laws.RoundTrip.xor (d : Rg) (a : Rg) (b : Rg) (s : Bool) :
    Sys2Proof.Laws.RoundTrip.Statement (.xor d a b s) := by
  intro _ _ r
  refine decode_encode rfl (by simp) (by simp) (by simp) rfl ?_
  rw [decodeWords_00 _ _ _ rfl]
  generalize hw : W0.mk _ _ _ _ _ _ _ = w0
  have hf : w0.fn = 11 := by subst hw; rfl
  simp only [decodeOp00, hf, List.cons_append, List.nil_append, List.getD_cons_zero, List.getD_cons_succ]
  subst hw
  refine finish_ok rfl rfl ?_
  simp [firstBad]
theorem Sys2Proof.Laws.RoundTrip.andn (d : Rg) (a : Rg) (b : Rg) (s : Bool) :
    Sys2Proof.Laws.RoundTrip.Statement (.andn d a b s) := by
  intro _ _ r
  refine decode_encode rfl (by simp) (by simp) (by simp) rfl ?_
  rw [decodeWords_00 _ _ _ rfl]
  generalize hw : W0.mk _ _ _ _ _ _ _ = w0
  have hf : w0.fn = 12 := by subst hw; rfl
  simp only [decodeOp00, hf, List.cons_append, List.nil_append, List.getD_cons_zero, List.getD_cons_succ]
  subst hw
  refine finish_ok rfl rfl ?_
  simp [firstBad]
theorem Sys2Proof.Laws.RoundTrip.shl (d : Rg) (a : Rg) (b : Rg) (s : Bool) :
    Sys2Proof.Laws.RoundTrip.Statement (.shl d a b s) := by
  intro _ _ r
  refine decode_encode rfl (by simp) (by simp) (by simp) rfl ?_
  rw [decodeWords_00 _ _ _ rfl]
  generalize hw : W0.mk _ _ _ _ _ _ _ = w0
  have hf : w0.fn = 13 := by subst hw; rfl
  simp only [decodeOp00, hf, List.cons_append, List.nil_append, List.getD_cons_zero, List.getD_cons_succ]
  subst hw
  refine finish_ok rfl rfl ?_
  simp [firstBad]
theorem Sys2Proof.Laws.RoundTrip.shr (d : Rg) (a : Rg) (b : Rg) (s : Bool) :
    Sys2Proof.Laws.RoundTrip.Statement (.shr d a b s) := by
  intro _ _ r
  refine decode_encode rfl (by simp) (by simp) (by simp) rfl ?_
  rw [decodeWords_00 _ _ _ rfl]
  generalize hw : W0.mk _ _ _ _ _ _ _ = w0
  have hf : w0.fn = 14 := by subst hw; rfl
  simp only [decodeOp00, hf, List.cons_append, List.nil_append, List.getD_cons_zero, List.getD_cons_succ]
  subst hw
  refine finish_ok rfl rfl ?_
  simp [firstBad]
theorem Sys2Proof.Laws.RoundTrip.sra (d : Rg) (a : Rg) (b : Rg) (s : Bool) :
    Sys2Proof.Laws.RoundTrip.Statement (.sra d a b s) := by
  intro _ _ r
  refine decode_encode rfl (by simp) (by simp) (by simp) rfl ?_
  rw [decodeWords_00 _ _ _ rfl]
  generalize hw : W0.mk _ _ _ _ _ _ _ = w0
  have hf : w0.fn = 15 := by subst hw; rfl
  simp only [decodeOp00, hf, List.cons_append, List.nil_append, List.getD_cons_zero, List.getD_cons_succ]
  subst hw
  refine finish_ok rfl rfl ?_
  simp [firstBad]
theorem Sys2Proof.Laws.RoundTrip.rol (d : Rg) (a : Rg) (b : Rg) (s : Bool) :
    Sys2Proof.Laws.RoundTrip.Statement (.rol d a b s) := by
  intro _ _ r
  refine decode_encode rfl (by simp) (by simp) (by simp) rfl ?_
  rw [decodeWords_00 _ _ _ rfl]
  generalize hw : W0.mk _ _ _ _ _ _ _ = w0
  have hf : w0.fn = 16 := by subst hw; rfl
  simp only [decodeOp00, hf, List.cons_append, List.nil_append, List.getD_cons_zero, List.getD_cons_succ]
  subst hw
  refine finish_ok rfl rfl ?_
  simp [firstBad]
theorem Sys2Proof.Laws.RoundTrip.min (d : Rg) (a : Rg) (b : Rg) (s : Bool) :
    Sys2Proof.Laws.RoundTrip.Statement (.min d a b s) := by
  intro _ _ r
  refine decode_encode rfl (by simp) (by simp) (by simp) rfl ?_
  rw [decodeWords_00 _ _ _ rfl]
  generalize hw : W0.mk _ _ _ _ _ _ _ = w0
  have hf : w0.fn = 17 := by subst hw; rfl
  simp only [decodeOp00, hf, List.cons_append, List.nil_append, List.getD_cons_zero, List.getD_cons_succ]
  subst hw
  refine finish_ok rfl rfl ?_
  simp [firstBad]
theorem Sys2Proof.Laws.RoundTrip.max (d : Rg) (a : Rg) (b : Rg) (s : Bool) :
    Sys2Proof.Laws.RoundTrip.Statement (.max d a b s) := by
  intro _ _ r
  refine decode_encode rfl (by simp) (by simp) (by simp) rfl ?_
  rw [decodeWords_00 _ _ _ rfl]
  generalize hw : W0.mk _ _ _ _ _ _ _ = w0
  have hf : w0.fn = 18 := by subst hw; rfl
  simp only [decodeOp00, hf, List.cons_append, List.nil_append, List.getD_cons_zero, List.getD_cons_succ]
  subst hw
  refine finish_ok rfl rfl ?_
  simp [firstBad]
theorem Sys2Proof.Laws.RoundTrip.minz (d : Rg) (a : Rg) (b : Rg) (s : Bool) :
    Sys2Proof.Laws.RoundTrip.Statement (.minz d a b s) := by
  intro _ _ r
  refine decode_encode rfl (by simp) (by simp) (by simp) rfl ?_
  rw [decodeWords_00 _ _ _ rfl]
  generalize hw : W0.mk _ _ _ _ _ _ _ = w0
  have hf : w0.fn = 19 := by subst hw; rfl
  simp only [decodeOp00, hf, List.cons_append, List.nil_append, List.getD_cons_zero, List.getD_cons_succ]
  subst hw
  refine finish_ok rfl rfl ?_
  simp [firstBad]
theorem Sys2Proof.Laws.RoundTrip.maxz (d : Rg) (a : Rg) (b : Rg) (s : Bool) :
    Sys2Proof.Laws.RoundTrip.Statement (.maxz d a b s) := by
  intro _ _ r
  refine decode_encode rfl (by simp) (by simp) (by simp) rfl ?_
  rw [decodeWords_00 _ _ _ rfl]
  generalize hw : W0.mk _ _ _ _ _ _ _ = w0
  have hf : w0.fn = 20 := by subst hw; rfl
  simp only [decodeOp00, hf, List.cons_append, List.nil_append, List.getD_cons_zero, List.getD_cons_succ]
  subst hw
  refine finish_ok rfl rfl ?_
  simp [firstBad]
theorem Sys2Proof.Laws.RoundTrip.clz (d : Rg) (a : Rg) (s : Bool) :
    Sys2Proof.Laws.RoundTrip.Statement (.clz d a s) := by
  intro _ _ r
  refine decode_encode rfl (by simp) (by simp) (by simp) rfl ?_
  rw [decodeWords_00 _ _ _ rfl]
  generalize hw : W0.mk _ _ _ _ _ _ _ = w0
  have hf : w0.fn = 21 := by subst hw; rfl
  simp only [decodeOp00, hf, List.cons_append, List.nil_append, List.getD_cons_zero, List.getD_cons_succ]
  subst hw
  refine finish_ok rfl rfl ?_
  simp [firstBad]
theorem Sys2Proof.Laws.RoundTrip.ctz (d : Rg) (a : Rg) (s : Bool) :
    Sys2Proof.Laws.RoundTrip.Statement (.ctz d a s) := by
  intro _ _ r
  refine decode_encode rfl (by simp) (by simp) (by simp) rfl ?_
  rw [decodeWords_00 _ _ _ rfl]
  generalize hw : W0.mk _ _ _ _ _ _ _ = w0
  have hf : w0.fn = 22 := by subst hw; rfl
  simp only [decodeOp00, hf, List.cons_append, List.nil_append, List.getD_cons_zero, List.getD_cons_succ]
  subst hw
  refine finish_ok rfl rfl ?_
  simp [firstBad]
theorem Sys2Proof.Laws.RoundTrip.pop (d : Rg) (a : Rg) (s : Bool) :
    Sys2Proof.Laws.RoundTrip.Statement (.pop d a s) := by
  intro _ _ r
  refine decode_encode rfl (by simp) (by simp) (by simp) rfl ?_
  rw [decodeWords_00 _ _ _ rfl]
  generalize hw : W0.mk _ _ _ _ _ _ _ = w0
  have hf : w0.fn = 23 := by subst hw; rfl
  simp only [decodeOp00, hf, List.cons_append, List.nil_append, List.getD_cons_zero, List.getD_cons_succ]
  subst hw
  refine finish_ok rfl rfl ?_
  simp [firstBad]
theorem Sys2Proof.Laws.RoundTrip.mov (d : Rg) (a : Rg) (s : Bool) :
    Sys2Proof.Laws.RoundTrip.Statement (.mov d a s) := by
  intro _ _ r
  refine decode_encode rfl (by simp) (by simp) (by simp) rfl ?_
  rw [decodeWords_00 _ _ _ rfl]
  generalize hw : W0.mk _ _ _ _ _ _ _ = w0
  have hf : w0.fn = 24 := by subst hw; rfl
  simp only [decodeOp00, hf, List.cons_append, List.nil_append, List.getD_cons_zero, List.getD_cons_succ]
  subst hw
  refine finish_ok rfl rfl ?_
  simp [firstBad]
theorem Sys2Proof.Laws.RoundTrip.sext (d : Rg) (a : Rg) (pos : Rg) (s : Bool) :
    Sys2Proof.Laws.RoundTrip.Statement (.sext d a pos s) := by
  intro _ _ r
  refine decode_encode rfl (by simp) (by simp) (by simp) rfl ?_
  rw [decodeWords_00 _ _ _ rfl]
  generalize hw : W0.mk _ _ _ _ _ _ _ = w0
  have hf : w0.fn = 25 := by subst hw; rfl
  simp only [decodeOp00, hf, List.cons_append, List.nil_append, List.getD_cons_zero, List.getD_cons_succ]
  subst hw
  refine finish_ok rfl rfl ?_
  simp [firstBad]
theorem Sys2Proof.Laws.RoundTrip.zext (d : Rg) (a : Rg) (pos : Rg) (s : Bool) :
    Sys2Proof.Laws.RoundTrip.Statement (.zext d a pos s) := by
  intro _ _ r
  refine decode_encode rfl (by simp) (by simp) (by simp) rfl ?_
  rw [decodeWords_00 _ _ _ rfl]
  generalize hw : W0.mk _ _ _ _ _ _ _ = w0
  have hf : w0.fn = 26 := by subst hw; rfl
  simp only [decodeOp00, hf, List.cons_append, List.nil_append, List.getD_cons_zero, List.getD_cons_succ]
  subst hw
  refine finish_ok rfl rfl ?_
  simp [firstBad]
theorem Sys2Proof.Laws.RoundTrip.bext (d : Rg) (a : Rg) (b : Rg) (s : Bool) :
    Sys2Proof.Laws.RoundTrip.Statement (.bext d a b s) := by
  intro _ _ r
  refine decode_encode rfl (by simp) (by simp) (by simp) rfl ?_
  rw [decodeWords_00 _ _ _ rfl]
  generalize hw : W0.mk _ _ _ _ _ _ _ = w0
  have hf : w0.fn = 27 := by subst hw; rfl
  simp only [decodeOp00, hf, List.cons_append, List.nil_append, List.getD_cons_zero, List.getD_cons_succ]
  subst hw
  refine finish_ok rfl rfl ?_
  simp [firstBad]
theorem Sys2Proof.Laws.RoundTrip.bins (d : Rg) (a : Rg) (b : Rg) (s : Bool) :
    Sys2Proof.Laws.RoundTrip.Statement (.bins d a b s) := by
  intro _ _ r
  refine decode_encode rfl (by simp) (by simp) (by simp) rfl ?_
  rw [decodeWords_00 _ _ _ rfl]
  generalize hw : W0.mk _ _ _ _ _ _ _ = w0
  have hf : w0.fn = 28 := by subst hw; rfl
  simp only [decodeOp00, hf, List.cons_append, List.nil_append, List.getD_cons_zero, List.getD_cons_succ]
  subst hw
  refine finish_ok rfl rfl ?_
  simp [firstBad]
theorem Sys2Proof.Laws.RoundTrip.addr (d : Rg) (a : Rg) (b : Rg) (s : Bool) :
    Sys2Proof.Laws.RoundTrip.Statement (.addr d a b s) := by
  intro _ _ r
  refine decode_encode rfl (by simp) (by simp) (by simp) rfl ?_
  rw [decodeWords_00 _ _ _ rfl]
  generalize hw : W0.mk _ _ _ _ _ _ _ = w0
  have hf : w0.fn = 29 := by subst hw; rfl
  simp only [decodeOp00, hf, List.cons_append, List.nil_append, List.getD_cons_zero, List.getD_cons_succ]
  subst hw
  refine finish_ok rfl rfl ?_
  simp [firstBad]
theorem Sys2Proof.Laws.RoundTrip.li (d : Rg) (imm : W32) (s : Bool) :
    Sys2Proof.Laws.RoundTrip.Statement (.li d imm s) := by
  intro _ _ r
  refine decode_encode rfl (by simp) (by simp) (by simp) rfl ?_
  rw [decodeWords_01 _ _ _ rfl]
  generalize hw : W0.mk _ _ _ _ _ _ _ = w0
  have hf : w0.fn = 0 := by subst hw; rfl
  simp only [decodeOp01, hf, List.cons_append, List.nil_append, List.getD_cons_zero, List.getD_cons_succ]
  subst hw
  refine finish_ok rfl rfl ?_
  simp [firstBad]
theorem Sys2Proof.Laws.RoundTrip.lih (d : Rg) (imm : W32) (s : Bool) :
    Sys2Proof.Laws.RoundTrip.Statement (.lih d imm s) := by
  intro _ _ r
  refine decode_encode rfl (by simp) (by simp) (by simp) rfl ?_
  rw [decodeWords_01 _ _ _ rfl]
  generalize hw : W0.mk _ _ _ _ _ _ _ = w0
  have hf : w0.fn = 1 := by subst hw; rfl
  simp only [decodeOp01, hf, List.cons_append, List.nil_append, List.getD_cons_zero, List.getD_cons_succ]
  subst hw
  refine finish_ok rfl rfl ?_
  simp [firstBad]
theorem Sys2Proof.Laws.RoundTrip.addi (d : Rg) (a : Rg) (imm : W32) (s : Bool) :
    Sys2Proof.Laws.RoundTrip.Statement (.addi d a imm s) := by
  intro _ _ r
  refine decode_encode rfl (by simp) (by simp) (by simp) rfl ?_
  rw [decodeWords_01 _ _ _ rfl]
  generalize hw : W0.mk _ _ _ _ _ _ _ = w0
  have hf : w0.fn = 2 := by subst hw; rfl
  simp only [decodeOp01, hf, List.cons_append, List.nil_append, List.getD_cons_zero, List.getD_cons_succ]
  subst hw
  refine finish_ok rfl rfl ?_
  simp [firstBad]
theorem Sys2Proof.Laws.RoundTrip.andi (d : Rg) (a : Rg) (imm : W32) (s : Bool) :
    Sys2Proof.Laws.RoundTrip.Statement (.andi d a imm s) := by
  intro _ _ r
  refine decode_encode rfl (by simp) (by simp) (by simp) rfl ?_
  rw [decodeWords_01 _ _ _ rfl]
  generalize hw : W0.mk _ _ _ _ _ _ _ = w0
  have hf : w0.fn = 3 := by subst hw; rfl
  simp only [decodeOp01, hf, List.cons_append, List.nil_append, List.getD_cons_zero, List.getD_cons_succ]
  subst hw
  refine finish_ok rfl rfl ?_
  simp [firstBad]
theorem Sys2Proof.Laws.RoundTrip.ori (d : Rg) (a : Rg) (imm : W32) (s : Bool) :
    Sys2Proof.Laws.RoundTrip.Statement (.ori d a imm s) := by
  intro _ _ r
  refine decode_encode rfl (by simp) (by simp) (by simp) rfl ?_
  rw [decodeWords_01 _ _ _ rfl]
  generalize hw : W0.mk _ _ _ _ _ _ _ = w0
  have hf : w0.fn = 4 := by subst hw; rfl
  simp only [decodeOp01, hf, List.cons_append, List.nil_append, List.getD_cons_zero, List.getD_cons_succ]
  subst hw
  refine finish_ok rfl rfl ?_
  simp [firstBad]
theorem Sys2Proof.Laws.RoundTrip.xori (d : Rg) (a : Rg) (imm : W32) (s : Bool) :
    Sys2Proof.Laws.RoundTrip.Statement (.xori d a imm s) := by
  intro _ _ r
  refine decode_encode rfl (by simp) (by simp) (by simp) rfl ?_
  rw [decodeWords_01 _ _ _ rfl]
  generalize hw : W0.mk _ _ _ _ _ _ _ = w0
  have hf : w0.fn = 5 := by subst hw; rfl
  simp only [decodeOp01, hf, List.cons_append, List.nil_append, List.getD_cons_zero, List.getD_cons_succ]
  subst hw
  refine finish_ok rfl rfl ?_
  simp [firstBad]
theorem Sys2Proof.Laws.RoundTrip.shli (d : Rg) (a : Rg) (n : BitVec 6) (s : Bool) :
    Sys2Proof.Laws.RoundTrip.Statement (.shli d a n s) := by
  intro _ _ r
  refine decode_encode rfl (by simp) (by simp) (by simp) rfl ?_
  rw [decodeWords_01 _ _ _ rfl]
  generalize hw : W0.mk _ _ _ _ _ _ _ = w0
  have hf : w0.fn = 6 := by subst hw; rfl
  simp only [decodeOp01, hf, List.cons_append, List.nil_append, List.getD_cons_zero, List.getD_cons_succ]
  subst hw
  refine finish_ok rfl (by simp [setWidth_setWidth_of_le, fld_setWidth]) ?_
  simp [firstBad, setWidth_setWidth_of_le, fld_setWidth]
theorem Sys2Proof.Laws.RoundTrip.shri (d : Rg) (a : Rg) (n : BitVec 6) (s : Bool) :
    Sys2Proof.Laws.RoundTrip.Statement (.shri d a n s) := by
  intro _ _ r
  refine decode_encode rfl (by simp) (by simp) (by simp) rfl ?_
  rw [decodeWords_01 _ _ _ rfl]
  generalize hw : W0.mk _ _ _ _ _ _ _ = w0
  have hf : w0.fn = 7 := by subst hw; rfl
  simp only [decodeOp01, hf, List.cons_append, List.nil_append, List.getD_cons_zero, List.getD_cons_succ]
  subst hw
  refine finish_ok rfl (by simp [setWidth_setWidth_of_le, fld_setWidth]) ?_
  simp [firstBad, setWidth_setWidth_of_le, fld_setWidth]
theorem Sys2Proof.Laws.RoundTrip.srai (d : Rg) (a : Rg) (n : BitVec 6) (s : Bool) :
    Sys2Proof.Laws.RoundTrip.Statement (.srai d a n s) := by
  intro _ _ r
  refine decode_encode rfl (by simp) (by simp) (by simp) rfl ?_
  rw [decodeWords_01 _ _ _ rfl]
  generalize hw : W0.mk _ _ _ _ _ _ _ = w0
  have hf : w0.fn = 8 := by subst hw; rfl
  simp only [decodeOp01, hf, List.cons_append, List.nil_append, List.getD_cons_zero, List.getD_cons_succ]
  subst hw
  refine finish_ok rfl (by simp [setWidth_setWidth_of_le, fld_setWidth]) ?_
  simp [firstBad, setWidth_setWidth_of_le, fld_setWidth]
theorem Sys2Proof.Laws.RoundTrip.ld (tc : BitVec 4) (d : Rg) (a : Rg) (s : Bool) (off : W32) (w : Wave) :
    Sys2Proof.Laws.RoundTrip.Statement (.ld tc d a s off w) := by
  intro h _ r
  change ((1 ≤ tc.toNat && tc.toNat ≤ 7) && w.flagsOk && w.rangeOk && (w.pathIn [0, 1, 2, 3])) = true at h
  simp at h
  refine decode_encode rfl (by simp) (by simp) (by have := tc.isLt; simp; omega) rfl ?_
  rw [decodeWords_40 _ _ _ rfl]
  generalize hw : W0.mk _ _ _ _ _ _ _ = w0
  simp only [decodeOp40, List.cons_append, List.nil_append, List.getD_cons_zero, List.getD_cons_succ, unpackWave_packWave]
  subst hw
  rw [if_pos (by simp; omega)]
  simp only [BitVec.ofNat_toNat, BitVec.setWidth_eq]
  refine finish_ok rfl rfl ?_
  simp [firstBad, flagsOk_packWave, fenceFlagsOk_packWave, waveRange_packWave, pathIn_packWave, unpackWave_packWave, h]
theorem Sys2Proof.Laws.RoundTrip.st (tc : BitVec 4) (d : Rg) (a : Rg) (off : W32) (w : Wave) :
    Sys2Proof.Laws.RoundTrip.Statement (.st tc d a off w) := by
  intro h _ r
  change ((1 ≤ tc.toNat && tc.toNat ≤ 4) && w.flagsOk && w.rangeOk && (w.pathIn [0, 1, 2, 3])) = true at h
  simp at h
  refine decode_encode rfl (by simp) (by simp) (by have := tc.isLt; simp; omega) rfl ?_
  rw [decodeWords_41 _ _ _ rfl]
  generalize hw : W0.mk _ _ _ _ _ _ _ = w0
  simp only [decodeOp41, List.cons_append, List.nil_append, List.getD_cons_zero, List.getD_cons_succ, unpackWave_packWave]
  subst hw
  rw [if_pos (by simp; omega)]
  simp only [BitVec.ofNat_toNat, BitVec.setWidth_eq]
  refine finish_ok rfl rfl ?_
  simp [firstBad, flagsOk_packWave, fenceFlagsOk_packWave, waveRange_packWave, pathIn_packWave, unpackWave_packWave, h]
theorem Sys2Proof.Laws.RoundTrip.vld (v : BitVec 3) (a : Rg) (off : W32) (w : Wave) :
    Sys2Proof.Laws.RoundTrip.Statement (.vld v a off w) := by
  intro h _ r
  change (w.flagsOk && w.rangeOk && (w.pathIn [0, 1, 2, 3])) = true at h
  simp at h
  refine decode_encode rfl (by simp) (by simp) (by simp) rfl ?_
  rw [decodeWords_42 _ _ _ rfl]
  generalize hw : W0.mk _ _ _ _ _ _ _ = w0
  have hf : w0.fn = 0 := by subst hw; rfl
  simp only [decodeOp42, hf, List.cons_append, List.nil_append, List.getD_cons_zero, List.getD_cons_succ, unpackWave_packWave]
  subst hw
  refine finish_ok rfl (by simp [flagsOk_packWave, fenceFlagsOk_packWave, waveRange_packWave, pathIn_packWave, unpackWave_packWave, setWidth_setWidth_of_le, fld_setWidth]) ?_
  simp [firstBad, flagsOk_packWave, fenceFlagsOk_packWave, waveRange_packWave, pathIn_packWave, unpackWave_packWave, setWidth_setWidth_of_le, fld_setWidth, h]
theorem Sys2Proof.Laws.RoundTrip.vst (v : BitVec 3) (a : Rg) (off : W32) (w : Wave) :
    Sys2Proof.Laws.RoundTrip.Statement (.vst v a off w) := by
  intro h _ r
  change (w.flagsOk && w.rangeOk && (w.pathIn [0, 1, 2, 3])) = true at h
  simp at h
  refine decode_encode rfl (by simp) (by simp) (by simp) rfl ?_
  rw [decodeWords_42 _ _ _ rfl]
  generalize hw : W0.mk _ _ _ _ _ _ _ = w0
  have hf : w0.fn = 1 := by subst hw; rfl
  simp only [decodeOp42, hf, List.cons_append, List.nil_append, List.getD_cons_zero, List.getD_cons_succ, unpackWave_packWave]
  subst hw
  refine finish_ok rfl (by simp [flagsOk_packWave, fenceFlagsOk_packWave, waveRange_packWave, pathIn_packWave, unpackWave_packWave, setWidth_setWidth_of_le, fld_setWidth]) ?_
  simp [firstBad, flagsOk_packWave, fenceFlagsOk_packWave, waveRange_packWave, pathIn_packWave, unpackWave_packWave, setWidth_setWidth_of_le, fld_setWidth, h]
theorem Sys2Proof.Laws.RoundTrip.ldx (tc : BitVec 4) (d : Rg) (a : Rg) (b : Rg) (s : Bool) (off : W32) (w : Wave) :
    Sys2Proof.Laws.RoundTrip.Statement (.ldx tc d a b s off w) := by
  intro h _ r
  change ((1 ≤ tc.toNat && tc.toNat ≤ 7) && w.flagsOk && w.rangeOk && (w.pathIn [0, 1, 2, 3])) = true at h
  simp at h
  refine decode_encode rfl (by simp) (by simp) (by have := tc.isLt; simp; omega) rfl ?_
  rw [decodeWords_43 _ _ _ rfl]
  generalize hw : W0.mk _ _ _ _ _ _ _ = w0
  simp only [decodeOp43, List.cons_append, List.nil_append, List.getD_cons_zero, List.getD_cons_succ, unpackWave_packWave]
  subst hw
  rw [if_pos (by simp; omega)]
  simp only [BitVec.ofNat_toNat, BitVec.setWidth_eq]
  refine finish_ok rfl rfl ?_
  simp [firstBad, flagsOk_packWave, fenceFlagsOk_packWave, waveRange_packWave, pathIn_packWave, unpackWave_packWave, h]
theorem Sys2Proof.Laws.RoundTrip.stx (tc : BitVec 4) (d : Rg) (a : Rg) (b : Rg) (off : W32) (w : Wave) :
    Sys2Proof.Laws.RoundTrip.Statement (.stx tc d a b off w) := by
  intro h _ r
  change ((1 ≤ tc.toNat && tc.toNat ≤ 4) && w.flagsOk && w.rangeOk && (w.pathIn [0, 1, 2, 3])) = true at h
  simp at h
  refine decode_encode rfl (by simp) (by simp) (by have := tc.isLt; simp; omega) rfl ?_
  rw [decodeWords_44 _ _ _ rfl]
  generalize hw : W0.mk _ _ _ _ _ _ _ = w0
  simp only [decodeOp44, List.cons_append, List.nil_append, List.getD_cons_zero, List.getD_cons_succ, unpackWave_packWave]
  subst hw
  rw [if_pos (by simp; omega)]
  simp only [BitVec.ofNat_toNat, BitVec.setWidth_eq]
  refine finish_ok rfl rfl ?_
  simp [firstBad, flagsOk_packWave, fenceFlagsOk_packWave, waveRange_packWave, pathIn_packWave, unpackWave_packWave, h]
theorem Sys2Proof.Laws.RoundTrip.ldh (d : Rg) (a : Rg) (b : Rg) (s : Bool) (off : W32) (w : Wave) :
    Sys2Proof.Laws.RoundTrip.Statement (.ldh d a b s off w) := by
  intro h _ r
  change (w.flagsOk && w.rangeOk && (w.pathIn [4])) = true at h
  simp at h
  refine decode_encode rfl (by simp) (by simp) (by simp) rfl ?_
  rw [decodeWords_45 _ _ _ rfl]
  generalize hw : W0.mk _ _ _ _ _ _ _ = w0
  have hf : w0.fn = 0 := by subst hw; rfl
  simp only [decodeOp45, hf, List.cons_append, List.nil_append, List.getD_cons_zero, List.getD_cons_succ, unpackWave_packWave]
  subst hw
  refine finish_ok rfl rfl ?_
  simp [firstBad, flagsOk_packWave, fenceFlagsOk_packWave, waveRange_packWave, pathIn_packWave, unpackWave_packWave, h]
theorem Sys2Proof.Laws.RoundTrip.aadd (w64 : Bool) (d : Rg) (a : Rg) (b : Rg) (s : Bool) (off : W32) (w : Wave) :
    Sys2Proof.Laws.RoundTrip.Statement (.aadd w64 d a b s off w) := by
  intro h _ r
  change (w.flagsOk && w.rangeOk && (w.pathIn [0, 1, 2, 3])) = true at h
  simp at h
  cases w64
  · refine decode_encode rfl (by simp) (by simp) (by simp) rfl ?_
    rw [decodeWords_60 _ _ _ rfl]
    generalize hw : W0.mk _ _ _ _ _ _ _ = w0
    have hf : w0.fn = 0 := by subst hw; rfl
    simp only [decodeOp60, hf, List.cons_append, List.nil_append, List.getD_cons_zero, List.getD_cons_succ, unpackWave_packWave]
    subst hw
    refine finish_ok rfl rfl ?_
    simp [firstBad, flagsOk_packWave, fenceFlagsOk_packWave, waveRange_packWave, pathIn_packWave, unpackWave_packWave, h]
  · refine decode_encode rfl (by simp) (by simp) (by simp) rfl ?_
    rw [decodeWords_60 _ _ _ rfl]
    generalize hw : W0.mk _ _ _ _ _ _ _ = w0
    have hf : w0.fn = 1 := by subst hw; rfl
    simp only [decodeOp60, hf, List.cons_append, List.nil_append, List.getD_cons_zero, List.getD_cons_succ, unpackWave_packWave]
    subst hw
    refine finish_ok rfl rfl ?_
    simp [firstBad, flagsOk_packWave, fenceFlagsOk_packWave, waveRange_packWave, pathIn_packWave, unpackWave_packWave, h]
theorem Sys2Proof.Laws.RoundTrip.aand (w64 : Bool) (d : Rg) (a : Rg) (b : Rg) (s : Bool) (off : W32) (w : Wave) :
    Sys2Proof.Laws.RoundTrip.Statement (.aand w64 d a b s off w) := by
  intro h _ r
  change (w.flagsOk && w.rangeOk && (w.pathIn [0, 1, 2, 3])) = true at h
  simp at h
  cases w64
  · refine decode_encode rfl (by simp) (by simp) (by simp) rfl ?_
    rw [decodeWords_60 _ _ _ rfl]
    generalize hw : W0.mk _ _ _ _ _ _ _ = w0
    have hf : w0.fn = 2 := by subst hw; rfl
    simp only [decodeOp60, hf, List.cons_append, List.nil_append, List.getD_cons_zero, List.getD_cons_succ, unpackWave_packWave]
    subst hw
    refine finish_ok rfl rfl ?_
    simp [firstBad, flagsOk_packWave, fenceFlagsOk_packWave, waveRange_packWave, pathIn_packWave, unpackWave_packWave, h]
  · refine decode_encode rfl (by simp) (by simp) (by simp) rfl ?_
    rw [decodeWords_60 _ _ _ rfl]
    generalize hw : W0.mk _ _ _ _ _ _ _ = w0
    have hf : w0.fn = 3 := by subst hw; rfl
    simp only [decodeOp60, hf, List.cons_append, List.nil_append, List.getD_cons_zero, List.getD_cons_succ, unpackWave_packWave]
    subst hw
    refine finish_ok rfl rfl ?_
    simp [firstBad, flagsOk_packWave, fenceFlagsOk_packWave, waveRange_packWave, pathIn_packWave, unpackWave_packWave, h]
theorem Sys2Proof.Laws.RoundTrip.aor (w64 : Bool) (d : Rg) (a : Rg) (b : Rg) (s : Bool) (off : W32) (w : Wave) :
    Sys2Proof.Laws.RoundTrip.Statement (.aor w64 d a b s off w) := by
  intro h _ r
  change (w.flagsOk && w.rangeOk && (w.pathIn [0, 1, 2, 3])) = true at h
  simp at h
  cases w64
  · refine decode_encode rfl (by simp) (by simp) (by simp) rfl ?_
    rw [decodeWords_60 _ _ _ rfl]
    generalize hw : W0.mk _ _ _ _ _ _ _ = w0
    have hf : w0.fn = 4 := by subst hw; rfl
    simp only [decodeOp60, hf, List.cons_append, List.nil_append, List.getD_cons_zero, List.getD_cons_succ, unpackWave_packWave]
    subst hw
    refine finish_ok rfl rfl ?_
    simp [firstBad, flagsOk_packWave, fenceFlagsOk_packWave, waveRange_packWave, pathIn_packWave, unpackWave_packWave, h]
  · refine decode_encode rfl (by simp) (by simp) (by simp) rfl ?_
    rw [decodeWords_60 _ _ _ rfl]
    generalize hw : W0.mk _ _ _ _ _ _ _ = w0
    have hf : w0.fn = 5 := by subst hw; rfl
    simp only [decodeOp60, hf, List.cons_append, List.nil_append, List.getD_cons_zero, List.getD_cons_succ, unpackWave_packWave]
    subst hw
    refine finish_ok rfl rfl ?_
    simp [firstBad, flagsOk_packWave, fenceFlagsOk_packWave, waveRange_packWave, pathIn_packWave, unpackWave_packWave, h]
theorem Sys2Proof.Laws.RoundTrip.axor (w64 : Bool) (d : Rg) (a : Rg) (b : Rg) (s : Bool) (off : W32) (w : Wave) :
    Sys2Proof.Laws.RoundTrip.Statement (.axor w64 d a b s off w) := by
  intro h _ r
  change (w.flagsOk && w.rangeOk && (w.pathIn [0, 1, 2, 3])) = true at h
  simp at h
  cases w64
  · refine decode_encode rfl (by simp) (by simp) (by simp) rfl ?_
    rw [decodeWords_60 _ _ _ rfl]
    generalize hw : W0.mk _ _ _ _ _ _ _ = w0
    have hf : w0.fn = 6 := by subst hw; rfl
    simp only [decodeOp60, hf, List.cons_append, List.nil_append, List.getD_cons_zero, List.getD_cons_succ, unpackWave_packWave]
    subst hw
    refine finish_ok rfl rfl ?_
    simp [firstBad, flagsOk_packWave, fenceFlagsOk_packWave, waveRange_packWave, pathIn_packWave, unpackWave_packWave, h]
  · refine decode_encode rfl (by simp) (by simp) (by simp) rfl ?_
    rw [decodeWords_60 _ _ _ rfl]
    generalize hw : W0.mk _ _ _ _ _ _ _ = w0
    have hf : w0.fn = 7 := by subst hw; rfl
    simp only [decodeOp60, hf, List.cons_append, List.nil_append, List.getD_cons_zero, List.getD_cons_succ, unpackWave_packWave]
    subst hw
    refine finish_ok rfl rfl ?_
    simp [firstBad, flagsOk_packWave, fenceFlagsOk_packWave, waveRange_packWave, pathIn_packWave, unpackWave_packWave, h]
theorem Sys2Proof.Laws.RoundTrip.amin (w64 : Bool) (d : Rg) (a : Rg) (b : Rg) (s : Bool) (off : W32) (w : Wave) :
    Sys2Proof.Laws.RoundTrip.Statement (.amin w64 d a b s off w) := by
  intro h _ r
  change (w.flagsOk && w.rangeOk && (w.pathIn [0, 1, 2, 3])) = true at h
  simp at h
  cases w64
  · refine decode_encode rfl (by simp) (by simp) (by simp) rfl ?_
    rw [decodeWords_60 _ _ _ rfl]
    generalize hw : W0.mk _ _ _ _ _ _ _ = w0
    have hf : w0.fn = 8 := by subst hw; rfl
    simp only [decodeOp60, hf, List.cons_append, List.nil_append, List.getD_cons_zero, List.getD_cons_succ, unpackWave_packWave]
    subst hw
    refine finish_ok rfl rfl ?_
    simp [firstBad, flagsOk_packWave, fenceFlagsOk_packWave, waveRange_packWave, pathIn_packWave, unpackWave_packWave, h]
  · refine decode_encode rfl (by simp) (by simp) (by simp) rfl ?_
    rw [decodeWords_60 _ _ _ rfl]
    generalize hw : W0.mk _ _ _ _ _ _ _ = w0
    have hf : w0.fn = 9 := by subst hw; rfl
    simp only [decodeOp60, hf, List.cons_append, List.nil_append, List.getD_cons_zero, List.getD_cons_succ, unpackWave_packWave]
    subst hw
    refine finish_ok rfl rfl ?_
    simp [firstBad, flagsOk_packWave, fenceFlagsOk_packWave, waveRange_packWave, pathIn_packWave, unpackWave_packWave, h]
theorem Sys2Proof.Laws.RoundTrip.amax (w64 : Bool) (d : Rg) (a : Rg) (b : Rg) (s : Bool) (off : W32) (w : Wave) :
    Sys2Proof.Laws.RoundTrip.Statement (.amax w64 d a b s off w) := by
  intro h _ r
  change (w.flagsOk && w.rangeOk && (w.pathIn [0, 1, 2, 3])) = true at h
  simp at h
  cases w64
  · refine decode_encode rfl (by simp) (by simp) (by simp) rfl ?_
    rw [decodeWords_60 _ _ _ rfl]
    generalize hw : W0.mk _ _ _ _ _ _ _ = w0
    have hf : w0.fn = 10 := by subst hw; rfl
    simp only [decodeOp60, hf, List.cons_append, List.nil_append, List.getD_cons_zero, List.getD_cons_succ, unpackWave_packWave]
    subst hw
    refine finish_ok rfl rfl ?_
    simp [firstBad, flagsOk_packWave, fenceFlagsOk_packWave, waveRange_packWave, pathIn_packWave, unpackWave_packWave, h]
  · refine decode_encode rfl (by simp) (by simp) (by simp) rfl ?_
    rw [decodeWords_60 _ _ _ rfl]
    generalize hw : W0.mk _ _ _ _ _ _ _ = w0
    have hf : w0.fn = 11 := by subst hw; rfl
    simp only [decodeOp60, hf, List.cons_append, List.nil_append, List.getD_cons_zero, List.getD_cons_succ, unpackWave_packWave]
    subst hw
    refine finish_ok rfl rfl ?_
    simp [firstBad, flagsOk_packWave, fenceFlagsOk_packWave, waveRange_packWave, pathIn_packWave, unpackWave_packWave, h]
theorem Sys2Proof.Laws.RoundTrip.aminz (w64 : Bool) (d : Rg) (a : Rg) (b : Rg) (s : Bool) (off : W32) (w : Wave) :
    Sys2Proof.Laws.RoundTrip.Statement (.aminz w64 d a b s off w) := by
  intro h _ r
  change (w.flagsOk && w.rangeOk && (w.pathIn [0, 1, 2, 3])) = true at h
  simp at h
  cases w64
  · refine decode_encode rfl (by simp) (by simp) (by simp) rfl ?_
    rw [decodeWords_60 _ _ _ rfl]
    generalize hw : W0.mk _ _ _ _ _ _ _ = w0
    have hf : w0.fn = 12 := by subst hw; rfl
    simp only [decodeOp60, hf, List.cons_append, List.nil_append, List.getD_cons_zero, List.getD_cons_succ, unpackWave_packWave]
    subst hw
    refine finish_ok rfl rfl ?_
    simp [firstBad, flagsOk_packWave, fenceFlagsOk_packWave, waveRange_packWave, pathIn_packWave, unpackWave_packWave, h]
  · refine decode_encode rfl (by simp) (by simp) (by simp) rfl ?_
    rw [decodeWords_60 _ _ _ rfl]
    generalize hw : W0.mk _ _ _ _ _ _ _ = w0
    have hf : w0.fn = 13 := by subst hw; rfl
    simp only [decodeOp60, hf, List.cons_append, List.nil_append, List.getD_cons_zero, List.getD_cons_succ, unpackWave_packWave]
    subst hw
    refine finish_ok rfl rfl ?_
    simp [firstBad, flagsOk_packWave, fenceFlagsOk_packWave, waveRange_packWave, pathIn_packWave, unpackWave_packWave, h]
theorem Sys2Proof.Laws.RoundTrip.amaxz (w64 : Bool) (d : Rg) (a : Rg) (b : Rg) (s : Bool) (off : W32) (w : Wave) :
    Sys2Proof.Laws.RoundTrip.Statement (.amaxz w64 d a b s off w) := by
  intro h _ r
  change (w.flagsOk && w.rangeOk && (w.pathIn [0, 1, 2, 3])) = true at h
  simp at h
  cases w64
  · refine decode_encode rfl (by simp) (by simp) (by simp) rfl ?_
    rw [decodeWords_60 _ _ _ rfl]
    generalize hw : W0.mk _ _ _ _ _ _ _ = w0
    have hf : w0.fn = 14 := by subst hw; rfl
    simp only [decodeOp60, hf, List.cons_append, List.nil_append, List.getD_cons_zero, List.getD_cons_succ, unpackWave_packWave]
    subst hw
    refine finish_ok rfl rfl ?_
    simp [firstBad, flagsOk_packWave, fenceFlagsOk_packWave, waveRange_packWave, pathIn_packWave, unpackWave_packWave, h]
  · refine decode_encode rfl (by simp) (by simp) (by simp) rfl ?_
    rw [decodeWords_60 _ _ _ rfl]
    generalize hw : W0.mk _ _ _ _ _ _ _ = w0
    have hf : w0.fn = 15 := by subst hw; rfl
    simp only [decodeOp60, hf, List.cons_append, List.nil_append, List.getD_cons_zero, List.getD_cons_succ, unpackWave_packWave]
    subst hw
    refine finish_ok rfl rfl ?_
    simp [firstBad, flagsOk_packWave, fenceFlagsOk_packWave, waveRange_packWave, pathIn_packWave, unpackWave_packWave, h]
theorem Sys2Proof.Laws.RoundTrip.axchg (w64 : Bool) (d : Rg) (a : Rg) (b : Rg) (s : Bool) (off : W32) (w : Wave) :
    Sys2Proof.Laws.RoundTrip.Statement (.axchg w64 d a b s off w) := by
  intro h _ r
  change (w.flagsOk && w.rangeOk && (w.pathIn [0, 1, 2, 3])) = true at h
  simp at h
  cases w64
  · refine decode_encode rfl (by simp) (by simp) (by simp) rfl ?_
    rw [decodeWords_60 _ _ _ rfl]
    generalize hw : W0.mk _ _ _ _ _ _ _ = w0
    have hf : w0.fn = 16 := by subst hw; rfl
    simp only [decodeOp60, hf, List.cons_append, List.nil_append, List.getD_cons_zero, List.getD_cons_succ, unpackWave_packWave]
    subst hw
    refine finish_ok rfl rfl ?_
    simp [firstBad, flagsOk_packWave, fenceFlagsOk_packWave, waveRange_packWave, pathIn_packWave, unpackWave_packWave, h]
  · refine decode_encode rfl (by simp) (by simp) (by simp) rfl ?_
    rw [decodeWords_60 _ _ _ rfl]
    generalize hw : W0.mk _ _ _ _ _ _ _ = w0
    have hf : w0.fn = 17 := by subst hw; rfl
    simp only [decodeOp60, hf, List.cons_append, List.nil_append, List.getD_cons_zero, List.getD_cons_succ, unpackWave_packWave]
    subst hw
    refine finish_ok rfl rfl ?_
    simp [firstBad, flagsOk_packWave, fenceFlagsOk_packWave, waveRange_packWave, pathIn_packWave, unpackWave_packWave, h]
theorem Sys2Proof.Laws.RoundTrip.acas (w64 : Bool) (d : Rg) (a : Rg) (b : Rg) (s : Bool) (off : W32) (w : Wave) :
    Sys2Proof.Laws.RoundTrip.Statement (.acas w64 d a b s off w) := by
  intro h _ r
  change (w.flagsOk && w.rangeOk && (w.pathIn [0, 1, 2, 3])) = true at h
  simp at h
  cases w64
  · refine decode_encode rfl (by simp) (by simp) (by simp) rfl ?_
    rw [decodeWords_60 _ _ _ rfl]
    generalize hw : W0.mk _ _ _ _ _ _ _ = w0
    have hf : w0.fn = 18 := by subst hw; rfl
    simp only [decodeOp60, hf, List.cons_append, List.nil_append, List.getD_cons_zero, List.getD_cons_succ, unpackWave_packWave]
    subst hw
    refine finish_ok rfl rfl ?_
    simp [firstBad, flagsOk_packWave, fenceFlagsOk_packWave, waveRange_packWave, pathIn_packWave, unpackWave_packWave, h]
  · refine decode_encode rfl (by simp) (by simp) (by simp) rfl ?_
    rw [decodeWords_60 _ _ _ rfl]
    generalize hw : W0.mk _ _ _ _ _ _ _ = w0
    have hf : w0.fn = 19 := by subst hw; rfl
    simp only [decodeOp60, hf, List.cons_append, List.nil_append, List.getD_cons_zero, List.getD_cons_succ, unpackWave_packWave]
    subst hw
    refine finish_ok rfl rfl ?_
    simp [firstBad, flagsOk_packWave, fenceFlagsOk_packWave, waveRange_packWave, pathIn_packWave, unpackWave_packWave, h]
theorem Sys2Proof.Laws.RoundTrip.afaddF32 (d : Rg) (a : Rg) (b : Rg) (s : Bool) (off : W32) (w : Wave) :
    Sys2Proof.Laws.RoundTrip.Statement (.afaddF32 d a b s off w) := by
  intro h _ r
  change (w.flagsOk && w.rangeOk && (w.pathIn [0, 1, 2, 3])) = true at h
  simp at h
  refine decode_encode rfl (by simp) (by simp) (by simp) rfl ?_
  rw [decodeWords_60 _ _ _ rfl]
  generalize hw : W0.mk _ _ _ _ _ _ _ = w0
  have hf : w0.fn = 20 := by subst hw; rfl
  simp only [decodeOp60, hf, List.cons_append, List.nil_append, List.getD_cons_zero, List.getD_cons_succ, unpackWave_packWave]
  subst hw
  refine finish_ok rfl rfl ?_
  simp [firstBad, flagsOk_packWave, fenceFlagsOk_packWave, waveRange_packWave, pathIn_packWave, unpackWave_packWave, h]
theorem Sys2Proof.Laws.RoundTrip.afmaxF32 (d : Rg) (a : Rg) (b : Rg) (s : Bool) (off : W32) (w : Wave) :
    Sys2Proof.Laws.RoundTrip.Statement (.afmaxF32 d a b s off w) := by
  intro h _ r
  change (w.flagsOk && w.rangeOk && (w.pathIn [0, 1, 2, 3])) = true at h
  simp at h
  refine decode_encode rfl (by simp) (by simp) (by simp) rfl ?_
  rw [decodeWords_60 _ _ _ rfl]
  generalize hw : W0.mk _ _ _ _ _ _ _ = w0
  have hf : w0.fn = 22 := by subst hw; rfl
  simp only [decodeOp60, hf, List.cons_append, List.nil_append, List.getD_cons_zero, List.getD_cons_succ, unpackWave_packWave]
  subst hw
  refine finish_ok rfl rfl ?_
  simp [firstBad, flagsOk_packWave, fenceFlagsOk_packWave, waveRange_packWave, pathIn_packWave, unpackWave_packWave, h]
theorem Sys2Proof.Laws.RoundTrip.fenceAcq (w : Wave) :
    Sys2Proof.Laws.RoundTrip.Statement (.fenceAcq w) := by
  intro h _ r
  change (w.fenceOk && w.rangeOk && (w.pathIn [0])) = true at h
  simp at h
  refine decode_encode rfl (by simp) (by simp) (by simp) rfl ?_
  rw [decodeWords_61 _ _ _ rfl]
  generalize hw : W0.mk _ _ _ _ _ _ _ = w0
  have hf : w0.fn = 0 := by subst hw; rfl
  simp only [decodeOp61, hf, List.cons_append, List.nil_append, List.getD_cons_zero, List.getD_cons_succ, unpackWave_packWave]
  subst hw
  refine finish_ok rfl rfl ?_
  simp [firstBad, flagsOk_packWave, fenceFlagsOk_packWave, waveRange_packWave, pathIn_packWave, unpackWave_packWave, h]
theorem Sys2Proof.Laws.RoundTrip.fenceRel (w : Wave) :
    Sys2Proof.Laws.RoundTrip.Statement (.fenceRel w) := by
  intro h _ r
  change (w.fenceOk && w.rangeOk && (w.pathIn [0])) = true at h
  simp at h
  refine decode_encode rfl (by simp) (by simp) (by simp) rfl ?_
  rw [decodeWords_61 _ _ _ rfl]
  generalize hw : W0.mk _ _ _ _ _ _ _ = w0
  have hf : w0.fn = 1 := by subst hw; rfl
  simp only [decodeOp61, hf, List.cons_append, List.nil_append, List.getD_cons_zero, List.getD_cons_succ, unpackWave_packWave]
  subst hw
  refine finish_ok rfl rfl ?_
  simp [firstBad, flagsOk_packWave, fenceFlagsOk_packWave, waveRange_packWave, pathIn_packWave, unpackWave_packWave, h]
theorem Sys2Proof.Laws.RoundTrip.fenceFull (w : Wave) :
    Sys2Proof.Laws.RoundTrip.Statement (.fenceFull w) := by
  intro h _ r
  change (w.fenceOk && w.rangeOk && (w.pathIn [0])) = true at h
  simp at h
  refine decode_encode rfl (by simp) (by simp) (by simp) rfl ?_
  rw [decodeWords_61 _ _ _ rfl]
  generalize hw : W0.mk _ _ _ _ _ _ _ = w0
  have hf : w0.fn = 2 := by subst hw; rfl
  simp only [decodeOp61, hf, List.cons_append, List.nil_append, List.getD_cons_zero, List.getD_cons_succ, unpackWave_packWave]
  subst hw
  refine finish_ok rfl rfl ?_
  simp [firstBad, flagsOk_packWave, fenceFlagsOk_packWave, waveRange_packWave, pathIn_packWave, unpackWave_packWave, h]
theorem Sys2Proof.Laws.RoundTrip.bar (id : BitVec 4) (n : BitVec 12) (w : Wave) :
    Sys2Proof.Laws.RoundTrip.Statement (.bar id n w) := by
  intro h _ r
  change ((1 ≤ n.toNat) && w.fenceOk && w.rangeOk && (w.pathIn [0]) && (w.scope.toNat ≤ 3) && (w.scope ≠ 0 || n == 1)) = true at h
  simp at h
  refine decode_encode rfl (by simp) (by simp) (by simp) rfl ?_
  rw [decodeWords_61 _ _ _ rfl]
  generalize hw : W0.mk _ _ _ _ _ _ _ = w0
  have hf : w0.fn = 3 := by subst hw; rfl
  simp only [decodeOp61, hf, List.cons_append, List.nil_append, List.getD_cons_zero, List.getD_cons_succ, unpackWave_packWave, packBar_fields]
  subst hw
  refine finish_ok rfl (by simp [flagsOk_packWave, fenceFlagsOk_packWave, waveRange_packWave, pathIn_packWave, unpackWave_packWave, packBar_fields, scope_packWave]) ?_
  simp [firstBad, flagsOk_packWave, fenceFlagsOk_packWave, waveRange_packWave, pathIn_packWave, unpackWave_packWave, packBar_fields, scope_packWave, h]
  have := h.2
  simp only [← BitVec.toNat_inj] at this
  simp at this
  omega
theorem Sys2Proof.Laws.RoundTrip.cpyPost (d : Rg) (a : Rg) (b : Rg) (off : W32) (w : Wave) :
    Sys2Proof.Laws.RoundTrip.Statement (.cpyPost d a b off w) := by
  intro h _ r
  change (w.flagsOk && w.rangeOk && (w.pathIn [0, 1, 2, 3])) = true at h
  simp at h
  refine decode_encode rfl (by simp) (by simp) (by simp) rfl ?_
  rw [decodeWords_62 _ _ _ rfl]
  generalize hw : W0.mk _ _ _ _ _ _ _ = w0
  have hf : w0.fn = 0 := by subst hw; rfl
  simp only [decodeOp62, hf, List.cons_append, List.nil_append, List.getD_cons_zero, List.getD_cons_succ, unpackWave_packWave]
  subst hw
  refine finish_ok rfl rfl ?_
  simp [firstBad, flagsOk_packWave, fenceFlagsOk_packWave, waveRange_packWave, pathIn_packWave, unpackWave_packWave, h]
theorem Sys2Proof.Laws.RoundTrip.drain (w : Wave) :
    Sys2Proof.Laws.RoundTrip.Statement (.drain w) := by
  intro h _ r
  change (w.flagsOk && w.rangeOk && (w.pathIn [2, 3])) = true at h
  simp at h
  refine decode_encode rfl (by simp) (by simp) (by simp) rfl ?_
  rw [decodeWords_62 _ _ _ rfl]
  generalize hw : W0.mk _ _ _ _ _ _ _ = w0
  have hf : w0.fn = 1 := by subst hw; rfl
  simp only [decodeOp62, hf, List.cons_append, List.nil_append, List.getD_cons_zero, List.getD_cons_succ, unpackWave_packWave]
  subst hw
  refine finish_ok rfl rfl ?_
  simp [firstBad, flagsOk_packWave, fenceFlagsOk_packWave, waveRange_packWave, pathIn_packWave, unpackWave_packWave, h]
theorem Sys2Proof.Laws.RoundTrip.ringInit (a : Rg) (b : Rg) (slotu : BitVec 10) (nslotm1 : BitVec 6) (base : BitVec 16) (off : W32) (w : Wave) :
    Sys2Proof.Laws.RoundTrip.Statement (.ringInit a b slotu nslotm1 base off w) := by
  intro h _ r
  change ((slotu ≠ 0) && (base.toNat % 64 == 0) && w.flagsOk && w.rangeOk && (w.pathIn [0])) = true at h
  simp at h
  refine decode_encode rfl (by simp) (by simp) (by simp) rfl ?_
  rw [decodeWords_62 _ _ _ rfl]
  generalize hw : W0.mk _ _ _ _ _ _ _ = w0
  have hf : w0.fn = 2 := by subst hw; rfl
  simp only [decodeOp62, hf, List.cons_append, List.nil_append, List.getD_cons_zero, List.getD_cons_succ, unpackWave_packWave, packRing_fields]
  subst hw
  refine finish_ok rfl (by simp) ?_
  simp [firstBad, flagsOk_packWave, fenceFlagsOk_packWave, waveRange_packWave, pathIn_packWave, unpackWave_packWave, packRing_fields, h]
  simpa [← BitVec.toNat_inj] using h.1.1.1.1
theorem Sys2Proof.Laws.RoundTrip.ringAwait (d : Rg) (a : Rg) (b : Rg) (off : W32) (w : Wave) :
    Sys2Proof.Laws.RoundTrip.Statement (.ringAwait d a b off w) := by
  intro h _ r
  change (w.flagsOk && w.rangeOk && (w.pathIn [0])) = true at h
  simp at h
  refine decode_encode rfl (by simp) (by simp) (by simp) rfl ?_
  rw [decodeWords_62 _ _ _ rfl]
  generalize hw : W0.mk _ _ _ _ _ _ _ = w0
  have hf : w0.fn = 3 := by subst hw; rfl
  simp only [decodeOp62, hf, List.cons_append, List.nil_append, List.getD_cons_zero, List.getD_cons_succ, unpackWave_packWave]
  subst hw
  rw [if_neg (by decide)]
  refine finish_ok rfl rfl ?_
  simp [firstBad, flagsOk_packWave, fenceFlagsOk_packWave, waveRange_packWave, pathIn_packWave, unpackWave_packWave, h]
  rfl
theorem Sys2Proof.Laws.RoundTrip.ringAwaitFree (d : Rg) (a : Rg) (b : Rg) (off : W32) (w : Wave) :
    Sys2Proof.Laws.RoundTrip.Statement (.ringAwaitFree d a b off w) := by
  intro h _ r
  change (w.flagsOk && w.rangeOk && (w.pathIn [0])) = true at h
  simp at h
  refine decode_encode rfl (by simp) (by simp) (by simp) rfl ?_
  rw [decodeWords_62 _ _ _ rfl]
  generalize hw : W0.mk _ _ _ _ _ _ _ = w0
  have hf : w0.fn = 3 := by subst hw; rfl
  simp only [decodeOp62, hf, List.cons_append, List.nil_append, List.getD_cons_zero, List.getD_cons_succ, unpackWave_packWave]
  subst hw
  rw [if_pos (by decide)]
  refine finish_ok rfl rfl ?_
  simp [firstBad, flagsOk_packWave, fenceFlagsOk_packWave, waveRange_packWave, pathIn_packWave, unpackWave_packWave, h]
  decide
theorem Sys2Proof.Laws.RoundTrip.ringRel (a : Rg) (off : W32) (w : Wave) :
    Sys2Proof.Laws.RoundTrip.Statement (.ringRel a off w) := by
  intro h _ r
  change (w.flagsOk && w.rangeOk && (w.pathIn [0])) = true at h
  simp at h
  refine decode_encode rfl (by simp) (by simp) (by simp) rfl ?_
  rw [decodeWords_62 _ _ _ rfl]
  generalize hw : W0.mk _ _ _ _ _ _ _ = w0
  have hf : w0.fn = 4 := by subst hw; rfl
  simp only [decodeOp62, hf, List.cons_append, List.nil_append, List.getD_cons_zero, List.getD_cons_succ, unpackWave_packWave]
  subst hw
  refine finish_ok rfl rfl ?_
  simp [firstBad, flagsOk_packWave, fenceFlagsOk_packWave, waveRange_packWave, pathIn_packWave, unpackWave_packWave, h]
theorem Sys2Proof.Laws.RoundTrip.strSub (d : Rg) (a : Rg) (off : W32) (w : Wave) :
    Sys2Proof.Laws.RoundTrip.Statement (.strSub d a off w) := by
  intro h _ r
  change (w.flagsOk && w.rangeOk && (w.pathIn [0])) = true at h
  simp at h
  refine decode_encode rfl (by simp) (by simp) (by simp) rfl ?_
  rw [decodeWords_62 _ _ _ rfl]
  generalize hw : W0.mk _ _ _ _ _ _ _ = w0
  have hf : w0.fn = 5 := by subst hw; rfl
  simp only [decodeOp62, hf, List.cons_append, List.nil_append, List.getD_cons_zero, List.getD_cons_succ, unpackWave_packWave]
  subst hw
  refine finish_ok rfl rfl ?_
  simp [firstBad, flagsOk_packWave, fenceFlagsOk_packWave, waveRange_packWave, pathIn_packWave, unpackWave_packWave, h]
theorem Sys2Proof.Laws.RoundTrip.strUnsub (d : Rg) (a : Rg) (w : Wave) :
    Sys2Proof.Laws.RoundTrip.Statement (.strUnsub d a w) := by
  intro h _ r
  change (w.flagsOk && w.rangeOk && (w.pathIn [0])) = true at h
  simp at h
  refine decode_encode rfl (by simp) (by simp) (by simp) rfl ?_
  rw [decodeWords_62 _ _ _ rfl]
  generalize hw : W0.mk _ _ _ _ _ _ _ = w0
  have hf : w0.fn = 6 := by subst hw; rfl
  simp only [decodeOp62, hf, List.cons_append, List.nil_append, List.getD_cons_zero, List.getD_cons_succ, unpackWave_packWave]
  subst hw
  refine finish_ok rfl rfl ?_
  simp [firstBad, flagsOk_packWave, fenceFlagsOk_packWave, waveRange_packWave, pathIn_packWave, unpackWave_packWave, h]
theorem Sys2Proof.Laws.RoundTrip.strRet (a : Rg) (b : Rg) (off : W32) (w : Wave) :
    Sys2Proof.Laws.RoundTrip.Statement (.strRet a b off w) := by
  intro h _ r
  change (w.flagsOk && w.rangeOk && (w.pathIn [0])) = true at h
  simp at h
  refine decode_encode rfl (by simp) (by simp) (by simp) rfl ?_
  rw [decodeWords_62 _ _ _ rfl]
  generalize hw : W0.mk _ _ _ _ _ _ _ = w0
  have hf : w0.fn = 7 := by subst hw; rfl
  simp only [decodeOp62, hf, List.cons_append, List.nil_append, List.getD_cons_zero, List.getD_cons_succ, unpackWave_packWave]
  subst hw
  refine finish_ok rfl rfl ?_
  simp [firstBad, flagsOk_packWave, fenceFlagsOk_packWave, waveRange_packWave, pathIn_packWave, unpackWave_packWave, h]
theorem Sys2Proof.Laws.RoundTrip.walkPost (a : Rg) (off : W32) (w : Wave) :
    Sys2Proof.Laws.RoundTrip.Statement (.walkPost a off w) := by
  intro h _ r
  change (w.flagsOk && w.rangeOk && (w.pathIn [0])) = true at h
  simp at h
  refine decode_encode rfl (by simp) (by simp) (by simp) rfl ?_
  rw [decodeWords_62 _ _ _ rfl]
  generalize hw : W0.mk _ _ _ _ _ _ _ = w0
  have hf : w0.fn = 8 := by subst hw; rfl
  simp only [decodeOp62, hf, List.cons_append, List.nil_append, List.getD_cons_zero, List.getD_cons_succ, unpackWave_packWave]
  subst hw
  refine finish_ok rfl rfl ?_
  simp [firstBad, flagsOk_packWave, fenceFlagsOk_packWave, waveRange_packWave, pathIn_packWave, unpackWave_packWave, h]
theorem Sys2Proof.Laws.RoundTrip.collPost (d : Rg) (a : Rg) (off : W32) (w : Wave) :
    Sys2Proof.Laws.RoundTrip.Statement (.collPost d a off w) := by
  intro h _ r
  change (w.flagsOk && w.rangeOk && (w.pathIn [0])) = true at h
  simp at h
  refine decode_encode rfl (by simp) (by simp) (by simp) rfl ?_
  rw [decodeWords_62 _ _ _ rfl]
  generalize hw : W0.mk _ _ _ _ _ _ _ = w0
  have hf : w0.fn = 9 := by subst hw; rfl
  simp only [decodeOp62, hf, List.cons_append, List.nil_append, List.getD_cons_zero, List.getD_cons_succ, unpackWave_packWave]
  subst hw
  refine finish_ok rfl rfl ?_
  simp [firstBad, flagsOk_packWave, fenceFlagsOk_packWave, waveRange_packWave, pathIn_packWave, unpackWave_packWave, h]
theorem Sys2Proof.Laws.RoundTrip.sigAdd (d : Rg) (a : Rg) (b : Rg) (off : W32) (w : Wave) :
    Sys2Proof.Laws.RoundTrip.Statement (.sigAdd d a b off w) := by
  intro h _ r
  change (w.flagsOk && w.rangeOk && (w.pathIn [3])) = true at h
  simp at h
  refine decode_encode rfl (by simp) (by simp) (by simp) rfl ?_
  rw [decodeWords_62 _ _ _ rfl]
  generalize hw : W0.mk _ _ _ _ _ _ _ = w0
  have hf : w0.fn = 10 := by subst hw; rfl
  simp only [decodeOp62, hf, List.cons_append, List.nil_append, List.getD_cons_zero, List.getD_cons_succ, unpackWave_packWave]
  subst hw
  refine finish_ok rfl rfl ?_
  simp [firstBad, flagsOk_packWave, fenceFlagsOk_packWave, waveRange_packWave, pathIn_packWave, unpackWave_packWave, h]
theorem Sys2Proof.Laws.RoundTrip.copyPacketStart (sector : Nat) (k : Nat) :
    Sys2Proof.Laws.RoundTrip.Statement (.copyPacketStart sector k) := by
  intro _ h; cases h
theorem Sys2Proof.Laws.RoundTrip.copyPacketComplete (sector : Nat) (k : Nat) :
    Sys2Proof.Laws.RoundTrip.Statement (.copyPacketComplete sector k) := by
  intro _ h; cases h
theorem Sys2Proof.Laws.RoundTrip.ringCredit (k : Nat) :
    Sys2Proof.Laws.RoundTrip.Statement (.ringCredit k) := by
  intro _ h; cases h
theorem Sys2Proof.Laws.RoundTrip.pushStreamTile (span : Nat) (n : Nat) :
    Sys2Proof.Laws.RoundTrip.Statement (.pushStreamTile span n) := by
  intro _ h; cases h
theorem Sys2Proof.Laws.RoundTrip.pullStreamTile (span : Nat) (n : Nat) :
    Sys2Proof.Laws.RoundTrip.Statement (.pullStreamTile span n) := by
  intro _ h; cases h
theorem Sys2Proof.Laws.RoundTrip.walkResultWrite (n : Nat) :
    Sys2Proof.Laws.RoundTrip.Statement (.walkResultWrite n) := by
  intro _ h; cases h
theorem Sys2Proof.Laws.RoundTrip.collectiveChunkSend (k : Nat) :
    Sys2Proof.Laws.RoundTrip.Statement (.collectiveChunkSend k) := by
  intro _ h; cases h
theorem Sys2Proof.Laws.RoundTrip.collectiveChunkLand (k : ChunkHead) (off : Nat) (data : List Byte) (final : Bool) :
    Sys2Proof.Laws.RoundTrip.Statement (.collectiveChunkLand k off data final) := by
  intro _ h; cases h
theorem Sys2Proof.Laws.RoundTrip.collectiveComplete (k : Nat) :
    Sys2Proof.Laws.RoundTrip.Statement (.collectiveComplete k) := by
  intro _ h; cases h
theorem Sys2Proof.Laws.RoundTrip.vadd (v : VOp) (s : Bool) :
    Sys2Proof.Laws.RoundTrip.Statement (.vadd v s) := by
  intro h _ r
  change ((VRule.arith3).unusedOk v && (VRule.arith3).rangeOk v) = true at h
  simp at h
  refine decode_encode rfl (by simp) (by simp) (by simp) rfl ?_
  rw [decodeWords_80 _ _ _ rfl]
  generalize hw : W0.mk _ _ _ _ _ _ _ = w0
  have hf : w0.fn = 0 := by subst hw; rfl
  simp only [decodeOp80, hf, List.cons_append, List.nil_append, List.getD_cons_zero, List.getD_cons_succ, unpackV_packV]
  subst hw
  refine finish_ok rfl rfl ?_
  simp [firstBad, unpackV_packV, h]
theorem Sys2Proof.Laws.RoundTrip.vsub (v : VOp) (s : Bool) :
    Sys2Proof.Laws.RoundTrip.Statement (.vsub v s) := by
  intro h _ r
  change ((VRule.arith3).unusedOk v && (VRule.arith3).rangeOk v) = true at h
  simp at h
  refine decode_encode rfl (by simp) (by simp) (by simp) rfl ?_
  rw [decodeWords_80 _ _ _ rfl]
  generalize hw : W0.mk _ _ _ _ _ _ _ = w0
  have hf : w0.fn = 1 := by subst hw; rfl
  simp only [decodeOp80, hf, List.cons_append, List.nil_append, List.getD_cons_zero, List.getD_cons_succ, unpackV_packV]
  subst hw
  refine finish_ok rfl rfl ?_
  simp [firstBad, unpackV_packV, h]
theorem Sys2Proof.Laws.RoundTrip.vmul (v : VOp) (s : Bool) :
    Sys2Proof.Laws.RoundTrip.Statement (.vmul v s) := by
  intro h _ r
  change ((VRule.arith3).unusedOk v && (VRule.arith3).rangeOk v) = true at h
  simp at h
  refine decode_encode rfl (by simp) (by simp) (by simp) rfl ?_
  rw [decodeWords_80 _ _ _ rfl]
  generalize hw : W0.mk _ _ _ _ _ _ _ = w0
  have hf : w0.fn = 2 := by subst hw; rfl
  simp only [decodeOp80, hf, List.cons_append, List.nil_append, List.getD_cons_zero, List.getD_cons_succ, unpackV_packV]
  subst hw
  refine finish_ok rfl rfl ?_
  simp [firstBad, unpackV_packV, h]
theorem Sys2Proof.Laws.RoundTrip.vfma (v : VOp) (s : Bool) :
    Sys2Proof.Laws.RoundTrip.Statement (.vfma v s) := by
  intro h _ r
  change ((VRule.arith3).unusedOk v && (VRule.arith3).rangeOk v) = true at h
  simp at h
  refine decode_encode rfl (by simp) (by simp) (by simp) rfl ?_
  rw [decodeWords_80 _ _ _ rfl]
  generalize hw : W0.mk _ _ _ _ _ _ _ = w0
  have hf : w0.fn = 3 := by subst hw; rfl
  simp only [decodeOp80, hf, List.cons_append, List.nil_append, List.getD_cons_zero, List.getD_cons_succ, unpackV_packV]
  subst hw
  refine finish_ok rfl rfl ?_
  simp [firstBad, unpackV_packV, h]
theorem Sys2Proof.Laws.RoundTrip.vfms (v : VOp) (s : Bool) :
    Sys2Proof.Laws.RoundTrip.Statement (.vfms v s) := by
  intro h _ r
  change ((VRule.arith3).unusedOk v && (VRule.arith3).rangeOk v) = true at h
  simp at h
  refine decode_encode rfl (by simp) (by simp) (by simp) rfl ?_
  rw [decodeWords_80 _ _ _ rfl]
  generalize hw : W0.mk _ _ _ _ _ _ _ = w0
  have hf : w0.fn = 4 := by subst hw; rfl
  simp only [decodeOp80, hf, List.cons_append, List.nil_append, List.getD_cons_zero, List.getD_cons_succ, unpackV_packV]
  subst hw
  refine finish_ok rfl rfl ?_
  simp [firstBad, unpackV_packV, h]
theorem Sys2Proof.Laws.RoundTrip.vnfma (v : VOp) (s : Bool) :
    Sys2Proof.Laws.RoundTrip.Statement (.vnfma v s) := by
  intro h _ r
  change ((VRule.arith3).unusedOk v && (VRule.arith3).rangeOk v) = true at h
  simp at h
  refine decode_encode rfl (by simp) (by simp) (by simp) rfl ?_
  rw [decodeWords_80 _ _ _ rfl]
  generalize hw : W0.mk _ _ _ _ _ _ _ = w0
  have hf : w0.fn = 5 := by subst hw; rfl
  simp only [decodeOp80, hf, List.cons_append, List.nil_append, List.getD_cons_zero, List.getD_cons_succ, unpackV_packV]
  subst hw
  refine finish_ok rfl rfl ?_
  simp [firstBad, unpackV_packV, h]
theorem Sys2Proof.Laws.RoundTrip.vmax (v : VOp) (s : Bool) :
    Sys2Proof.Laws.RoundTrip.Statement (.vmax v s) := by
  intro h _ r
  change ((VRule.pick).unusedOk v && (VRule.pick).rangeOk v) = true at h
  simp at h
  refine decode_encode rfl (by simp) (by simp) (by simp) rfl ?_
  rw [decodeWords_80 _ _ _ rfl]
  generalize hw : W0.mk _ _ _ _ _ _ _ = w0
  have hf : w0.fn = 6 := by subst hw; rfl
  simp only [decodeOp80, hf, List.cons_append, List.nil_append, List.getD_cons_zero, List.getD_cons_succ, unpackV_packV]
  subst hw
  refine finish_ok rfl rfl ?_
  simp [firstBad, unpackV_packV, h]
theorem Sys2Proof.Laws.RoundTrip.vmin (v : VOp) (s : Bool) :
    Sys2Proof.Laws.RoundTrip.Statement (.vmin v s) := by
  intro h _ r
  change ((VRule.pick).unusedOk v && (VRule.pick).rangeOk v) = true at h
  simp at h
  refine decode_encode rfl (by simp) (by simp) (by simp) rfl ?_
  rw [decodeWords_80 _ _ _ rfl]
  generalize hw : W0.mk _ _ _ _ _ _ _ = w0
  have hf : w0.fn = 7 := by subst hw; rfl
  simp only [decodeOp80, hf, List.cons_append, List.nil_append, List.getD_cons_zero, List.getD_cons_succ, unpackV_packV]
  subst hw
  refine finish_ok rfl rfl ?_
  simp [firstBad, unpackV_packV, h]
theorem Sys2Proof.Laws.RoundTrip.vabs (v : VOp) (s : Bool) :
    Sys2Proof.Laws.RoundTrip.Statement (.vabs v s) := by
  intro h _ r
  change ((VRule.sign).unusedOk v && (VRule.sign).rangeOk v) = true at h
  simp at h
  refine decode_encode rfl (by simp) (by simp) (by simp) rfl ?_
  rw [decodeWords_80 _ _ _ rfl]
  generalize hw : W0.mk _ _ _ _ _ _ _ = w0
  have hf : w0.fn = 8 := by subst hw; rfl
  simp only [decodeOp80, hf, List.cons_append, List.nil_append, List.getD_cons_zero, List.getD_cons_succ, unpackV_packV]
  subst hw
  refine finish_ok rfl rfl ?_
  simp [firstBad, unpackV_packV, h]
theorem Sys2Proof.Laws.RoundTrip.vneg (v : VOp) (s : Bool) :
    Sys2Proof.Laws.RoundTrip.Statement (.vneg v s) := by
  intro h _ r
  change ((VRule.sign).unusedOk v && (VRule.sign).rangeOk v) = true at h
  simp at h
  refine decode_encode rfl (by simp) (by simp) (by simp) rfl ?_
  rw [decodeWords_80 _ _ _ rfl]
  generalize hw : W0.mk _ _ _ _ _ _ _ = w0
  have hf : w0.fn = 9 := by subst hw; rfl
  simp only [decodeOp80, hf, List.cons_append, List.nil_append, List.getD_cons_zero, List.getD_cons_succ, unpackV_packV]
  subst hw
  refine finish_ok rfl rfl ?_
  simp [firstBad, unpackV_packV, h]
theorem Sys2Proof.Laws.RoundTrip.vcpy (v : VOp) (s : Bool) :
    Sys2Proof.Laws.RoundTrip.Statement (.vcpy v s) := by
  intro h _ r
  change ((VRule.copy).unusedOk v && (VRule.copy).rangeOk v) = true at h
  simp at h
  refine decode_encode rfl (by simp) (by simp) (by simp) rfl ?_
  rw [decodeWords_80 _ _ _ rfl]
  generalize hw : W0.mk _ _ _ _ _ _ _ = w0
  have hf : w0.fn = 10 := by subst hw; rfl
  simp only [decodeOp80, hf, List.cons_append, List.nil_append, List.getD_cons_zero, List.getD_cons_succ, unpackV_packV]
  subst hw
  refine finish_ok rfl rfl ?_
  simp [firstBad, unpackV_packV, h]
theorem Sys2Proof.Laws.RoundTrip.vsel (v : VOp) (s : Bool) :
    Sys2Proof.Laws.RoundTrip.Statement (.vsel v s) := by
  intro h _ r
  change ((VRule.select).unusedOk v && (VRule.select).rangeOk v) = true at h
  simp at h
  refine decode_encode rfl (by simp) (by simp) (by simp) rfl ?_
  rw [decodeWords_81 _ _ _ rfl]
  generalize hw : W0.mk _ _ _ _ _ _ _ = w0
  have hf : w0.fn = 0 := by subst hw; rfl
  simp only [decodeOp81, hf, List.cons_append, List.nil_append, List.getD_cons_zero, List.getD_cons_succ, unpackV_packV]
  subst hw
  refine finish_ok rfl rfl ?_
  simp [firstBad, unpackV_packV, h]
theorem Sys2Proof.Laws.RoundTrip.vand (v : VOp) (s : Bool) :
    Sys2Proof.Laws.RoundTrip.Statement (.vand v s) := by
  intro h _ r
  change ((VRule.logic).unusedOk v && (VRule.logic).rangeOk v) = true at h
  simp at h
  refine decode_encode rfl (by simp) (by simp) (by simp) rfl ?_
  rw [decodeWords_81 _ _ _ rfl]
  generalize hw : W0.mk _ _ _ _ _ _ _ = w0
  have hf : w0.fn = 1 := by subst hw; rfl
  simp only [decodeOp81, hf, List.cons_append, List.nil_append, List.getD_cons_zero, List.getD_cons_succ, unpackV_packV]
  subst hw
  refine finish_ok rfl rfl ?_
  simp [firstBad, unpackV_packV, h]
theorem Sys2Proof.Laws.RoundTrip.vor (v : VOp) (s : Bool) :
    Sys2Proof.Laws.RoundTrip.Statement (.vor v s) := by
  intro h _ r
  change ((VRule.logic).unusedOk v && (VRule.logic).rangeOk v) = true at h
  simp at h
  refine decode_encode rfl (by simp) (by simp) (by simp) rfl ?_
  rw [decodeWords_81 _ _ _ rfl]
  generalize hw : W0.mk _ _ _ _ _ _ _ = w0
  have hf : w0.fn = 2 := by subst hw; rfl
  simp only [decodeOp81, hf, List.cons_append, List.nil_append, List.getD_cons_zero, List.getD_cons_succ, unpackV_packV]
  subst hw
  refine finish_ok rfl rfl ?_
  simp [firstBad, unpackV_packV, h]
theorem Sys2Proof.Laws.RoundTrip.vxor (v : VOp) (s : Bool) :
    Sys2Proof.Laws.RoundTrip.Statement (.vxor v s) := by
  intro h _ r
  change ((VRule.logic).unusedOk v && (VRule.logic).rangeOk v) = true at h
  simp at h
  refine decode_encode rfl (by simp) (by simp) (by simp) rfl ?_
  rw [decodeWords_81 _ _ _ rfl]
  generalize hw : W0.mk _ _ _ _ _ _ _ = w0
  have hf : w0.fn = 3 := by subst hw; rfl
  simp only [decodeOp81, hf, List.cons_append, List.nil_append, List.getD_cons_zero, List.getD_cons_succ, unpackV_packV]
  subst hw
  refine finish_ok rfl rfl ?_
  simp [firstBad, unpackV_packV, h]
theorem Sys2Proof.Laws.RoundTrip.vshl (v : VOp) (s : Bool) :
    Sys2Proof.Laws.RoundTrip.Statement (.vshl v s) := by
  intro h _ r
  change ((VRule.logic).unusedOk v && (VRule.logic).rangeOk v) = true at h
  simp at h
  refine decode_encode rfl (by simp) (by simp) (by simp) rfl ?_
  rw [decodeWords_81 _ _ _ rfl]
  generalize hw : W0.mk _ _ _ _ _ _ _ = w0
  have hf : w0.fn = 4 := by subst hw; rfl
  simp only [decodeOp81, hf, List.cons_append, List.nil_append, List.getD_cons_zero, List.getD_cons_succ, unpackV_packV]
  subst hw
  refine finish_ok rfl rfl ?_
  simp [firstBad, unpackV_packV, h]
theorem Sys2Proof.Laws.RoundTrip.vshr (v : VOp) (s : Bool) :
    Sys2Proof.Laws.RoundTrip.Statement (.vshr v s) := by
  intro h _ r
  change ((VRule.logic).unusedOk v && (VRule.logic).rangeOk v) = true at h
  simp at h
  refine decode_encode rfl (by simp) (by simp) (by simp) rfl ?_
  rw [decodeWords_81 _ _ _ rfl]
  generalize hw : W0.mk _ _ _ _ _ _ _ = w0
  have hf : w0.fn = 5 := by subst hw; rfl
  simp only [decodeOp81, hf, List.cons_append, List.nil_append, List.getD_cons_zero, List.getD_cons_succ, unpackV_packV]
  subst hw
  refine finish_ok rfl rfl ?_
  simp [firstBad, unpackV_packV, h]
theorem Sys2Proof.Laws.RoundTrip.vsra (v : VOp) (s : Bool) :
    Sys2Proof.Laws.RoundTrip.Statement (.vsra v s) := by
  intro h _ r
  change ((VRule.logic).unusedOk v && (VRule.logic).rangeOk v) = true at h
  simp at h
  refine decode_encode rfl (by simp) (by simp) (by simp) rfl ?_
  rw [decodeWords_81 _ _ _ rfl]
  generalize hw : W0.mk _ _ _ _ _ _ _ = w0
  have hf : w0.fn = 6 := by subst hw; rfl
  simp only [decodeOp81, hf, List.cons_append, List.nil_append, List.getD_cons_zero, List.getD_cons_succ, unpackV_packV]
  subst hw
  refine finish_ok rfl rfl ?_
  simp [firstBad, unpackV_packV, h]
theorem Sys2Proof.Laws.RoundTrip.vcmpEq (v : VOp) (s : Bool) :
    Sys2Proof.Laws.RoundTrip.Statement (.vcmpEq v s) := by
  intro h _ r
  change ((VRule.compare).unusedOk v && (VRule.compare).rangeOk v) = true at h
  simp at h
  refine decode_encode rfl (by simp) (by simp) (by simp) rfl ?_
  rw [decodeWords_82 _ _ _ rfl]
  generalize hw : W0.mk _ _ _ _ _ _ _ = w0
  have hf : w0.fn = 0 := by subst hw; rfl
  simp only [decodeOp82, hf, List.cons_append, List.nil_append, List.getD_cons_zero, List.getD_cons_succ, unpackV_packV]
  subst hw
  refine finish_ok rfl rfl ?_
  simp [firstBad, unpackV_packV, h]
theorem Sys2Proof.Laws.RoundTrip.vcmpNe (v : VOp) (s : Bool) :
    Sys2Proof.Laws.RoundTrip.Statement (.vcmpNe v s) := by
  intro h _ r
  change ((VRule.compare).unusedOk v && (VRule.compare).rangeOk v) = true at h
  simp at h
  refine decode_encode rfl (by simp) (by simp) (by simp) rfl ?_
  rw [decodeWords_82 _ _ _ rfl]
  generalize hw : W0.mk _ _ _ _ _ _ _ = w0
  have hf : w0.fn = 1 := by subst hw; rfl
  simp only [decodeOp82, hf, List.cons_append, List.nil_append, List.getD_cons_zero, List.getD_cons_succ, unpackV_packV]
  subst hw
  refine finish_ok rfl rfl ?_
  simp [firstBad, unpackV_packV, h]
theorem Sys2Proof.Laws.RoundTrip.vcmpLt (v : VOp) (s : Bool) :
    Sys2Proof.Laws.RoundTrip.Statement (.vcmpLt v s) := by
  intro h _ r
  change ((VRule.compare).unusedOk v && (VRule.compare).rangeOk v) = true at h
  simp at h
  refine decode_encode rfl (by simp) (by simp) (by simp) rfl ?_
  rw [decodeWords_82 _ _ _ rfl]
  generalize hw : W0.mk _ _ _ _ _ _ _ = w0
  have hf : w0.fn = 2 := by subst hw; rfl
  simp only [decodeOp82, hf, List.cons_append, List.nil_append, List.getD_cons_zero, List.getD_cons_succ, unpackV_packV]
  subst hw
  refine finish_ok rfl rfl ?_
  simp [firstBad, unpackV_packV, h]
theorem Sys2Proof.Laws.RoundTrip.vcmpLe (v : VOp) (s : Bool) :
    Sys2Proof.Laws.RoundTrip.Statement (.vcmpLe v s) := by
  intro h _ r
  change ((VRule.compare).unusedOk v && (VRule.compare).rangeOk v) = true at h
  simp at h
  refine decode_encode rfl (by simp) (by simp) (by simp) rfl ?_
  rw [decodeWords_82 _ _ _ rfl]
  generalize hw : W0.mk _ _ _ _ _ _ _ = w0
  have hf : w0.fn = 3 := by subst hw; rfl
  simp only [decodeOp82, hf, List.cons_append, List.nil_append, List.getD_cons_zero, List.getD_cons_succ, unpackV_packV]
  subst hw
  refine finish_ok rfl rfl ?_
  simp [firstBad, unpackV_packV, h]
theorem Sys2Proof.Laws.RoundTrip.vcmpGt (v : VOp) (s : Bool) :
    Sys2Proof.Laws.RoundTrip.Statement (.vcmpGt v s) := by
  intro h _ r
  change ((VRule.compare).unusedOk v && (VRule.compare).rangeOk v) = true at h
  simp at h
  refine decode_encode rfl (by simp) (by simp) (by simp) rfl ?_
  rw [decodeWords_82 _ _ _ rfl]
  generalize hw : W0.mk _ _ _ _ _ _ _ = w0
  have hf : w0.fn = 4 := by subst hw; rfl
  simp only [decodeOp82, hf, List.cons_append, List.nil_append, List.getD_cons_zero, List.getD_cons_succ, unpackV_packV]
  subst hw
  refine finish_ok rfl rfl ?_
  simp [firstBad, unpackV_packV, h]
theorem Sys2Proof.Laws.RoundTrip.vcmpGe (v : VOp) (s : Bool) :
    Sys2Proof.Laws.RoundTrip.Statement (.vcmpGe v s) := by
  intro h _ r
  change ((VRule.compare).unusedOk v && (VRule.compare).rangeOk v) = true at h
  simp at h
  refine decode_encode rfl (by simp) (by simp) (by simp) rfl ?_
  rw [decodeWords_82 _ _ _ rfl]
  generalize hw : W0.mk _ _ _ _ _ _ _ = w0
  have hf : w0.fn = 5 := by subst hw; rfl
  simp only [decodeOp82, hf, List.cons_append, List.nil_append, List.getD_cons_zero, List.getD_cons_succ, unpackV_packV]
  subst hw
  refine finish_ok rfl rfl ?_
  simp [firstBad, unpackV_packV, h]
theorem Sys2Proof.Laws.RoundTrip.vredSum (v : VOp) (s : Bool) :
    Sys2Proof.Laws.RoundTrip.Statement (.vredSum v s) := by
  intro h _ r
  change ((VRule.arith2).unusedOk v && (VRule.arith2).rangeOk v) = true at h
  simp at h
  refine decode_encode rfl (by simp) (by simp) (by simp) rfl ?_
  rw [decodeWords_83 _ _ _ rfl]
  generalize hw : W0.mk _ _ _ _ _ _ _ = w0
  have hf : w0.fn = 0 := by subst hw; rfl
  simp only [decodeOp83, hf, List.cons_append, List.nil_append, List.getD_cons_zero, List.getD_cons_succ, unpackV_packV]
  subst hw
  refine finish_ok rfl rfl ?_
  simp [firstBad, unpackV_packV, h]
theorem Sys2Proof.Laws.RoundTrip.vredMax (v : VOp) (s : Bool) :
    Sys2Proof.Laws.RoundTrip.Statement (.vredMax v s) := by
  intro h _ r
  change ((VRule.redPick).unusedOk v && (VRule.redPick).rangeOk v) = true at h
  simp at h
  refine decode_encode rfl (by simp) (by simp) (by simp) rfl ?_
  rw [decodeWords_83 _ _ _ rfl]
  generalize hw : W0.mk _ _ _ _ _ _ _ = w0
  have hf : w0.fn = 1 := by subst hw; rfl
  simp only [decodeOp83, hf, List.cons_append, List.nil_append, List.getD_cons_zero, List.getD_cons_succ, unpackV_packV]
  subst hw
  refine finish_ok rfl rfl ?_
  simp [firstBad, unpackV_packV, h]
theorem Sys2Proof.Laws.RoundTrip.vredMin (v : VOp) (s : Bool) :
    Sys2Proof.Laws.RoundTrip.Statement (.vredMin v s) := by
  intro h _ r
  change ((VRule.redPick).unusedOk v && (VRule.redPick).rangeOk v) = true at h
  simp at h
  refine decode_encode rfl (by simp) (by simp) (by simp) rfl ?_
  rw [decodeWords_83 _ _ _ rfl]
  generalize hw : W0.mk _ _ _ _ _ _ _ = w0
  have hf : w0.fn = 2 := by subst hw; rfl
  simp only [decodeOp83, hf, List.cons_append, List.nil_append, List.getD_cons_zero, List.getD_cons_succ, unpackV_packV]
  subst hw
  refine finish_ok rfl rfl ?_
  simp [firstBad, unpackV_packV, h]
theorem Sys2Proof.Laws.RoundTrip.vscanSum (v : VOp) (s : Bool) :
    Sys2Proof.Laws.RoundTrip.Statement (.vscanSum v s) := by
  intro h _ r
  change ((VRule.arith2).unusedOk v && (VRule.arith2).rangeOk v) = true at h
  simp at h
  refine decode_encode rfl (by simp) (by simp) (by simp) rfl ?_
  rw [decodeWords_83 _ _ _ rfl]
  generalize hw : W0.mk _ _ _ _ _ _ _ = w0
  have hf : w0.fn = 3 := by subst hw; rfl
  simp only [decodeOp83, hf, List.cons_append, List.nil_append, List.getD_cons_zero, List.getD_cons_succ, unpackV_packV]
  subst hw
  refine finish_ok rfl rfl ?_
  simp [firstBad, unpackV_packV, h]
theorem Sys2Proof.Laws.RoundTrip.vscanMax (v : VOp) (s : Bool) :
    Sys2Proof.Laws.RoundTrip.Statement (.vscanMax v s) := by
  intro h _ r
  change ((VRule.redPick).unusedOk v && (VRule.redPick).rangeOk v) = true at h
  simp at h
  refine decode_encode rfl (by simp) (by simp) (by simp) rfl ?_
  rw [decodeWords_83 _ _ _ rfl]
  generalize hw : W0.mk _ _ _ _ _ _ _ = w0
  have hf : w0.fn = 4 := by subst hw; rfl
  simp only [decodeOp83, hf, List.cons_append, List.nil_append, List.getD_cons_zero, List.getD_cons_succ, unpackV_packV]
  subst hw
  refine finish_ok rfl rfl ?_
  simp [firstBad, unpackV_packV, h]
theorem Sys2Proof.Laws.RoundTrip.vperm (v : VOp) :
    Sys2Proof.Laws.RoundTrip.Statement (.vperm v) := by
  intro h _ r
  change ((VRule.perm).unusedOk v && (VRule.perm).rangeOk v) = true at h
  simp at h
  refine decode_encode rfl (by simp) (by simp) (by simp) rfl ?_
  rw [decodeWords_84 _ _ _ rfl]
  generalize hw : W0.mk _ _ _ _ _ _ _ = w0
  have hf : w0.fn = 0 := by subst hw; rfl
  simp only [decodeOp84, hf, List.cons_append, List.nil_append, List.getD_cons_zero, List.getD_cons_succ, unpackV_packV]
  subst hw
  refine finish_ok rfl rfl ?_
  simp [firstBad, unpackV_packV, h]
theorem Sys2Proof.Laws.RoundTrip.vshuf (v : VOp) :
    Sys2Proof.Laws.RoundTrip.Statement (.vshuf v) := by
  intro h _ r
  change ((VRule.shuf).unusedOk v && (VRule.shuf).rangeOk v) = true at h
  simp at h
  refine decode_encode rfl (by simp) (by simp) (by simp) rfl ?_
  rw [decodeWords_84 _ _ _ rfl]
  generalize hw : W0.mk _ _ _ _ _ _ _ = w0
  have hf : w0.fn = 1 := by subst hw; rfl
  simp only [decodeOp84, hf, List.cons_append, List.nil_append, List.getD_cons_zero, List.getD_cons_succ, unpackV_packV]
  subst hw
  refine finish_ok rfl rfl ?_
  simp [firstBad, unpackV_packV, h]
theorem Sys2Proof.Laws.RoundTrip.vbcast (a : Rg) (v : VOp) :
    Sys2Proof.Laws.RoundTrip.Statement (.vbcast a v) := by
  intro h _ r
  change ((VRule.bcast).unusedOk v && (VRule.bcast).rangeOk v) = true at h
  simp at h
  refine decode_encode rfl (by simp) (by simp) (by simp) rfl ?_
  rw [decodeWords_84 _ _ _ rfl]
  generalize hw : W0.mk _ _ _ _ _ _ _ = w0
  have hf : w0.fn = 2 := by subst hw; rfl
  simp only [decodeOp84, hf, List.cons_append, List.nil_append, List.getD_cons_zero, List.getD_cons_succ, unpackV_packV]
  subst hw
  refine finish_ok rfl rfl ?_
  simp [firstBad, unpackV_packV, h]
theorem Sys2Proof.Laws.RoundTrip.vaddc (d : Rg) (v : VOp) (s : Bool) :
    Sys2Proof.Laws.RoundTrip.Statement (.vaddc d v s) := by
  intro h _ r
  change ((VRule.chain).unusedOk v && (VRule.chain).rangeOk v) = true at h
  simp at h
  refine decode_encode rfl (by simp) (by simp) (by simp) rfl ?_
  rw [decodeWords_85 _ _ _ rfl]
  generalize hw : W0.mk _ _ _ _ _ _ _ = w0
  have hf : w0.fn = 0 := by subst hw; rfl
  simp only [decodeOp85, hf, List.cons_append, List.nil_append, List.getD_cons_zero, List.getD_cons_succ, unpackV_packV]
  subst hw
  refine finish_ok rfl rfl ?_
  simp [firstBad, unpackV_packV, h]
theorem Sys2Proof.Laws.RoundTrip.vsubc (d : Rg) (v : VOp) (s : Bool) :
    Sys2Proof.Laws.RoundTrip.Statement (.vsubc d v s) := by
  intro h _ r
  change ((VRule.chain).unusedOk v && (VRule.chain).rangeOk v) = true at h
  simp at h
  refine decode_encode rfl (by simp) (by simp) (by simp) rfl ?_
  rw [decodeWords_85 _ _ _ rfl]
  generalize hw : W0.mk _ _ _ _ _ _ _ = w0
  have hf : w0.fn = 1 := by subst hw; rfl
  simp only [decodeOp85, hf, List.cons_append, List.nil_append, List.getD_cons_zero, List.getD_cons_succ, unpackV_packV]
  subst hw
  refine finish_ok rfl rfl ?_
  simp [firstBad, unpackV_packV, h]
theorem Sys2Proof.Laws.RoundTrip.vmulc (v : VOp) (s : Bool) :
    Sys2Proof.Laws.RoundTrip.Statement (.vmulc v s) := by
  intro h _ r
  change ((VRule.mulc).unusedOk v && (VRule.mulc).rangeOk v) = true at h
  simp at h
  refine decode_encode rfl (by simp) (by simp) (by simp) rfl ?_
  rw [decodeWords_85 _ _ _ rfl]
  generalize hw : W0.mk _ _ _ _ _ _ _ = w0
  have hf : w0.fn = 2 := by subst hw; rfl
  simp only [decodeOp85, hf, List.cons_append, List.nil_append, List.getD_cons_zero, List.getD_cons_succ, unpackV_packV]
  subst hw
  refine finish_ok rfl rfl ?_
  simp [firstBad, unpackV_packV, h]
theorem Sys2Proof.Laws.RoundTrip.vdot (v : VOp) (s : Bool) :
    Sys2Proof.Laws.RoundTrip.Statement (.vdot v s) := by
  intro h _ r
  change ((VRule.dot).unusedOk v && (VRule.dot).rangeOk v) = true at h
  simp at h
  refine decode_encode rfl (by simp) (by simp) (by simp) rfl ?_
  rw [decodeWords_85 _ _ _ rfl]
  generalize hw : W0.mk _ _ _ _ _ _ _ = w0
  have hf : w0.fn = 3 := by subst hw; rfl
  simp only [decodeOp85, hf, List.cons_append, List.nil_append, List.getD_cons_zero, List.getD_cons_succ, unpackV_packV]
  subst hw
  refine finish_ok rfl rfl ?_
  simp [firstBad, unpackV_packV, h]
theorem Sys2Proof.Laws.RoundTrip.vcvt (v : VOp) (s : Bool) :
    Sys2Proof.Laws.RoundTrip.Statement (.vcvt v s) := by
  intro h _ r
  change ((VRule.convert).unusedOk v && (VRule.convert).rangeOk v) = true at h
  simp at h
  refine decode_encode rfl (by simp) (by simp) (by simp) rfl ?_
  rw [decodeWords_A0 _ _ _ rfl]
  generalize hw : W0.mk _ _ _ _ _ _ _ = w0
  have hf : w0.fn = 0 := by subst hw; rfl
  simp only [decodeOpA0, hf, List.cons_append, List.nil_append, List.getD_cons_zero, List.getD_cons_succ, unpackV_packV]
  subst hw
  refine finish_ok rfl rfl ?_
  simp [firstBad, unpackV_packV, h]
theorem Sys2Proof.Laws.RoundTrip.vpack (v : VOp) :
    Sys2Proof.Laws.RoundTrip.Statement (.vpack v) := by
  intro h _ r
  change ((VRule.pack).unusedOk v && (VRule.pack).rangeOk v) = true at h
  simp at h
  refine decode_encode rfl (by simp) (by simp) (by simp) rfl ?_
  rw [decodeWords_A0 _ _ _ rfl]
  generalize hw : W0.mk _ _ _ _ _ _ _ = w0
  have hf : w0.fn = 1 := by subst hw; rfl
  simp only [decodeOpA0, hf, List.cons_append, List.nil_append, List.getD_cons_zero, List.getD_cons_succ, unpackV_packV]
  subst hw
  refine finish_ok rfl rfl ?_
  simp [firstBad, unpackV_packV, h]
theorem Sys2Proof.Laws.RoundTrip.vunpack (v : VOp) :
    Sys2Proof.Laws.RoundTrip.Statement (.vunpack v) := by
  intro h _ r
  change ((VRule.pack).unusedOk v && (VRule.pack).rangeOk v) = true at h
  simp at h
  refine decode_encode rfl (by simp) (by simp) (by simp) rfl ?_
  rw [decodeWords_A0 _ _ _ rfl]
  generalize hw : W0.mk _ _ _ _ _ _ _ = w0
  have hf : w0.fn = 2 := by subst hw; rfl
  simp only [decodeOpA0, hf, List.cons_append, List.nil_append, List.getD_cons_zero, List.getD_cons_succ, unpackV_packV]
  subst hw
  refine finish_ok rfl rfl ?_
  simp [firstBad, unpackV_packV, h]
theorem Sys2Proof.Laws.RoundTrip.vscale (a : Rg) (v : VOp) (s : Bool) :
    Sys2Proof.Laws.RoundTrip.Statement (.vscale a v s) := by
  intro h _ r
  change ((VRule.scale).unusedOk v && (VRule.scale).rangeOk v) = true at h
  simp at h
  refine decode_encode rfl (by simp) (by simp) (by simp) rfl ?_
  rw [decodeWords_A0 _ _ _ rfl]
  generalize hw : W0.mk _ _ _ _ _ _ _ = w0
  have hf : w0.fn = 3 := by subst hw; rfl
  simp only [decodeOpA0, hf, List.cons_append, List.nil_append, List.getD_cons_zero, List.getD_cons_succ, unpackV_packV]
  subst hw
  refine finish_ok rfl rfl ?_
  simp [firstBad, unpackV_packV, h]
theorem Sys2Proof.Laws.RoundTrip.vqnt (v : VOp) :
    Sys2Proof.Laws.RoundTrip.Statement (.vqnt v) := by
  intro h _ r
  change ((VRule.quant).unusedOk v && (VRule.quant).rangeOk v) = true at h
  simp at h
  refine decode_encode rfl (by simp) (by simp) (by simp) rfl ?_
  rw [decodeWords_A0 _ _ _ rfl]
  generalize hw : W0.mk _ _ _ _ _ _ _ = w0
  have hf : w0.fn = 4 := by subst hw; rfl
  simp only [decodeOpA0, hf, List.cons_append, List.nil_append, List.getD_cons_zero, List.getD_cons_succ, unpackV_packV]
  subst hw
  refine finish_ok rfl rfl ?_
  simp [firstBad, unpackV_packV, h]
theorem Sys2Proof.Laws.RoundTrip.vdq (v : VOp) :
    Sys2Proof.Laws.RoundTrip.Statement (.vdq v) := by
  intro h _ r
  change ((VRule.dequant).unusedOk v && (VRule.dequant).rangeOk v) = true at h
  simp at h
  refine decode_encode rfl (by simp) (by simp) (by simp) rfl ?_
  rw [decodeWords_A0 _ _ _ rfl]
  generalize hw : W0.mk _ _ _ _ _ _ _ = w0
  have hf : w0.fn = 5 := by subst hw; rfl
  simp only [decodeOpA0, hf, List.cons_append, List.nil_append, List.getD_cons_zero, List.getD_cons_succ, unpackV_packV]
  subst hw
  refine finish_ok rfl rfl ?_
  simp [firstBad, unpackV_packV, h]
theorem Sys2Proof.Laws.RoundTrip.vexp2 (v : VOp) (s : Bool) :
    Sys2Proof.Laws.RoundTrip.Statement (.vexp2 v s) := by
  intro h _ r
  change ((VRule.special).unusedOk v && (VRule.special).rangeOk v) = true at h
  simp at h
  refine decode_encode rfl (by simp) (by simp) (by simp) rfl ?_
  rw [decodeWords_A1 _ _ _ rfl]
  generalize hw : W0.mk _ _ _ _ _ _ _ = w0
  have hf : w0.fn = 0 := by subst hw; rfl
  simp only [decodeOpA1, hf, List.cons_append, List.nil_append, List.getD_cons_zero, List.getD_cons_succ, unpackV_packV]
  subst hw
  refine finish_ok rfl rfl ?_
  simp [firstBad, unpackV_packV, h]
theorem Sys2Proof.Laws.RoundTrip.vlog2 (v : VOp) (s : Bool) :
    Sys2Proof.Laws.RoundTrip.Statement (.vlog2 v s) := by
  intro h _ r
  change ((VRule.special).unusedOk v && (VRule.special).rangeOk v) = true at h
  simp at h
  refine decode_encode rfl (by simp) (by simp) (by simp) rfl ?_
  rw [decodeWords_A1 _ _ _ rfl]
  generalize hw : W0.mk _ _ _ _ _ _ _ = w0
  have hf : w0.fn = 1 := by subst hw; rfl
  simp only [decodeOpA1, hf, List.cons_append, List.nil_append, List.getD_cons_zero, List.getD_cons_succ, unpackV_packV]
  subst hw
  refine finish_ok rfl rfl ?_
  simp [firstBad, unpackV_packV, h]
theorem Sys2Proof.Laws.RoundTrip.vrcp (v : VOp) (s : Bool) :
    Sys2Proof.Laws.RoundTrip.Statement (.vrcp v s) := by
  intro h _ r
  change ((VRule.special).unusedOk v && (VRule.special).rangeOk v) = true at h
  simp at h
  refine decode_encode rfl (by simp) (by simp) (by simp) rfl ?_
  rw [decodeWords_A1 _ _ _ rfl]
  generalize hw : W0.mk _ _ _ _ _ _ _ = w0
  have hf : w0.fn = 2 := by subst hw; rfl
  simp only [decodeOpA1, hf, List.cons_append, List.nil_append, List.getD_cons_zero, List.getD_cons_succ, unpackV_packV]
  subst hw
  refine finish_ok rfl rfl ?_
  simp [firstBad, unpackV_packV, h]
theorem Sys2Proof.Laws.RoundTrip.vrsqrt (v : VOp) (s : Bool) :
    Sys2Proof.Laws.RoundTrip.Statement (.vrsqrt v s) := by
  intro h _ r
  change ((VRule.special).unusedOk v && (VRule.special).rangeOk v) = true at h
  simp at h
  refine decode_encode rfl (by simp) (by simp) (by simp) rfl ?_
  rw [decodeWords_A1 _ _ _ rfl]
  generalize hw : W0.mk _ _ _ _ _ _ _ = w0
  have hf : w0.fn = 3 := by subst hw; rfl
  simp only [decodeOpA1, hf, List.cons_append, List.nil_append, List.getD_cons_zero, List.getD_cons_succ, unpackV_packV]
  subst hw
  refine finish_ok rfl rfl ?_
  simp [firstBad, unpackV_packV, h]
theorem Sys2Proof.Laws.RoundTrip.vsqrt (v : VOp) (s : Bool) :
    Sys2Proof.Laws.RoundTrip.Statement (.vsqrt v s) := by
  intro h _ r
  change ((VRule.sqrtFn).unusedOk v && (VRule.sqrtFn).rangeOk v) = true at h
  simp at h
  refine decode_encode rfl (by simp) (by simp) (by simp) rfl ?_
  rw [decodeWords_A1 _ _ _ rfl]
  generalize hw : W0.mk _ _ _ _ _ _ _ = w0
  have hf : w0.fn = 4 := by subst hw; rfl
  simp only [decodeOpA1, hf, List.cons_append, List.nil_append, List.getD_cons_zero, List.getD_cons_succ, unpackV_packV]
  subst hw
  refine finish_ok rfl rfl ?_
  simp [firstBad, unpackV_packV, h]
theorem Sys2Proof.Laws.RoundTrip.vtanh (v : VOp) (s : Bool) :
    Sys2Proof.Laws.RoundTrip.Statement (.vtanh v s) := by
  intro h _ r
  change ((VRule.special).unusedOk v && (VRule.special).rangeOk v) = true at h
  simp at h
  refine decode_encode rfl (by simp) (by simp) (by simp) rfl ?_
  rw [decodeWords_A1 _ _ _ rfl]
  generalize hw : W0.mk _ _ _ _ _ _ _ = w0
  have hf : w0.fn = 5 := by subst hw; rfl
  simp only [decodeOpA1, hf, List.cons_append, List.nil_append, List.getD_cons_zero, List.getD_cons_succ, unpackV_packV]
  subst hw
  refine finish_ok rfl rfl ?_
  simp [firstBad, unpackV_packV, h]
theorem Sys2Proof.Laws.RoundTrip.vsig (v : VOp) (s : Bool) :
    Sys2Proof.Laws.RoundTrip.Statement (.vsig v s) := by
  intro h _ r
  change ((VRule.special).unusedOk v && (VRule.special).rangeOk v) = true at h
  simp at h
  refine decode_encode rfl (by simp) (by simp) (by simp) rfl ?_
  rw [decodeWords_A1 _ _ _ rfl]
  generalize hw : W0.mk _ _ _ _ _ _ _ = w0
  have hf : w0.fn = 6 := by subst hw; rfl
  simp only [decodeOpA1, hf, List.cons_append, List.nil_append, List.getD_cons_zero, List.getD_cons_succ, unpackV_packV]
  subst hw
  refine finish_ok rfl rfl ?_
  simp [firstBad, unpackV_packV, h]
theorem Sys2Proof.Laws.RoundTrip.vsilu (v : VOp) (s : Bool) :
    Sys2Proof.Laws.RoundTrip.Statement (.vsilu v s) := by
  intro h _ r
  change ((VRule.special).unusedOk v && (VRule.special).rangeOk v) = true at h
  simp at h
  refine decode_encode rfl (by simp) (by simp) (by simp) rfl ?_
  rw [decodeWords_A1 _ _ _ rfl]
  generalize hw : W0.mk _ _ _ _ _ _ _ = w0
  have hf : w0.fn = 7 := by subst hw; rfl
  simp only [decodeOpA1, hf, List.cons_append, List.nil_append, List.getD_cons_zero, List.getD_cons_succ, unpackV_packV]
  subst hw
  refine finish_ok rfl rfl ?_
  simp [firstBad, unpackV_packV, h]
theorem Sys2Proof.Laws.RoundTrip.vgelu (v : VOp) (s : Bool) :
    Sys2Proof.Laws.RoundTrip.Statement (.vgelu v s) := by
  intro h _ r
  change ((VRule.special).unusedOk v && (VRule.special).rangeOk v) = true at h
  simp at h
  refine decode_encode rfl (by simp) (by simp) (by simp) rfl ?_
  rw [decodeWords_A1 _ _ _ rfl]
  generalize hw : W0.mk _ _ _ _ _ _ _ = w0
  have hf : w0.fn = 8 := by subst hw; rfl
  simp only [decodeOpA1, hf, List.cons_append, List.nil_append, List.getD_cons_zero, List.getD_cons_succ, unpackV_packV]
  subst hw
  refine finish_ok rfl rfl ?_
  simp [firstBad, unpackV_packV, h]
theorem Sys2Proof.Laws.RoundTrip.mxLds (d : Rg) (a : Rg) (b : Rg) (km1 : BitVec 7) (nm1 : BitVec 7) (sc : Bool) (off : W32) (w : Wave) :
    Sys2Proof.Laws.RoundTrip.Statement (.mxLds d a b km1 nm1 sc off w) := by
  intro h _ r
  change ((km1.toNat ≤ 95) && w.flagsOk && w.rangeOk && (w.pathIn [1])) = true at h
  simp at h
  refine decode_encode rfl (by simp) (by simp) (by simp) rfl ?_
  rw [decodeWords_C0 _ _ _ rfl]
  generalize hw : W0.mk _ _ _ _ _ _ _ = w0
  have hf : w0.fn = 0 := by subst hw; rfl
  simp only [decodeOpC0, hf, List.cons_append, List.nil_append, List.getD_cons_zero, List.getD_cons_succ, unpackWave_packWave, packLds_fields]
  subst hw
  refine finish_ok rfl (by simp) ?_
  simp [firstBad, flagsOk_packWave, fenceFlagsOk_packWave, waveRange_packWave, pathIn_packWave, unpackWave_packWave, packLds_fields, h]
theorem Sys2Proof.Laws.RoundTrip.mxMul (d : Rg) (a : Rg) (b : Rg) (mm1 : BitVec 7) (km1 : BitVec 7) (nm1 : BitVec 7) (acc : Bool) (q : Bool) (sc : Bool) (off : W32) (w : Wave) :
    Sys2Proof.Laws.RoundTrip.Statement (.mxMul d a b mm1 km1 nm1 acc q sc off w) := by
  intro h _ r
  change ((km1.toNat ≤ 95) && w.flagsOk && w.rangeOk && (w.pathIn [1])) = true at h
  simp at h
  refine decode_encode rfl (by simp) (by simp) (by simp) rfl ?_
  rw [decodeWords_C0 _ _ _ rfl]
  generalize hw : W0.mk _ _ _ _ _ _ _ = w0
  have hf : w0.fn = 1 := by subst hw; rfl
  simp only [decodeOpC0, hf, List.cons_append, List.nil_append, List.getD_cons_zero, List.getD_cons_succ, unpackWave_packWave, packMul_fields]
  subst hw
  refine finish_ok rfl (by simp) ?_
  simp [firstBad, flagsOk_packWave, fenceFlagsOk_packWave, waveRange_packWave, pathIn_packWave, unpackWave_packWave, packMul_fields, h]
theorem Sys2Proof.Laws.RoundTrip.mxMulb (d : Rg) (mm1 : BitVec 7) (km1 : BitVec 7) (nm1 : BitVec 7) (acc : Bool) (q : Bool) (w : Wave) :
    Sys2Proof.Laws.RoundTrip.Statement (.mxMulb d mm1 km1 nm1 acc q w) := by
  intro h _ r
  change ((km1.toNat ≤ 95) && w.flagsOk && w.rangeOk && (w.pathIn [0])) = true at h
  simp at h
  refine decode_encode rfl (by simp) (by simp) (by simp) rfl ?_
  rw [decodeWords_C0 _ _ _ rfl]
  generalize hw : W0.mk _ _ _ _ _ _ _ = w0
  have hf : w0.fn = 2 := by subst hw; rfl
  simp only [decodeOpC0, hf, List.cons_append, List.nil_append, List.getD_cons_zero, List.getD_cons_succ, unpackWave_packWave, packMul_fields]
  subst hw
  refine finish_ok rfl (by simp) ?_
  simp [firstBad, flagsOk_packWave, fenceFlagsOk_packWave, waveRange_packWave, pathIn_packWave, unpackWave_packWave, packMul_fields, h]
theorem Sys2Proof.Laws.RoundTrip.mxDrain (d : Rg) (a : Rg) (b : Rg) (mm1 : BitVec 7) (nm1 : BitVec 7) (acc : Bool) (q : Bool) (byp : Bool) (nowr : Bool) (off : W32) (w : Wave) :
    Sys2Proof.Laws.RoundTrip.Statement (.mxDrain d a b mm1 nm1 acc q byp nowr off w) := by
  intro h _ r
  change (w.flagsOk && w.rangeOk && (w.pathIn [1, 2])) = true at h
  simp at h
  refine decode_encode rfl (by simp) (by simp) (by simp) rfl ?_
  rw [decodeWords_C0 _ _ _ rfl]
  generalize hw : W0.mk _ _ _ _ _ _ _ = w0
  have hf : w0.fn = 3 := by subst hw; rfl
  simp only [decodeOpC0, hf, List.cons_append, List.nil_append, List.getD_cons_zero, List.getD_cons_succ, unpackWave_packWave, packDrain_fields]
  subst hw
  refine finish_ok rfl rfl ?_
  simp [firstBad, flagsOk_packWave, fenceFlagsOk_packWave, waveRange_packWave, pathIn_packWave, unpackWave_packWave, packDrain_fields, h]
theorem Sys2Proof.Laws.RoundTrip.mxScl (d : Rg) (a : Rg) (b : Rg) (w : Wave) :
    Sys2Proof.Laws.RoundTrip.Statement (.mxScl d a b w) := by
  intro h _ r
  change (w.flagsOk && w.rangeOk && (w.pathIn [0])) = true at h
  simp at h
  refine decode_encode rfl (by simp) (by simp) (by simp) rfl ?_
  rw [decodeWords_C0 _ _ _ rfl]
  generalize hw : W0.mk _ _ _ _ _ _ _ = w0
  have hf : w0.fn = 4 := by subst hw; rfl
  simp only [decodeOpC0, hf, List.cons_append, List.nil_append, List.getD_cons_zero, List.getD_cons_succ, unpackWave_packWave]
  subst hw
  refine finish_ok rfl rfl ?_
  simp [firstBad, flagsOk_packWave, fenceFlagsOk_packWave, waveRange_packWave, pathIn_packWave, unpackWave_packWave, h]
theorem Sys2Proof.Laws.RoundTrip.mxCfg (d : Rg) (aty : BitVec 4) (bty : BitVec 4) (out : Bool) (bsat : Bool) (rg : BitVec 4) (rnm1 : BitVec 8) (w : Wave) :
    Sys2Proof.Laws.RoundTrip.Statement (.mxCfg d aty bty out bsat rg rnm1 w) := by
  intro h _ r
  change ((aty ≠ 15 && bty ≠ 15) && w.flagsOk && w.rangeOk && (w.pathIn [0])) = true at h
  simp at h
  refine decode_encode rfl (by simp) (by simp) (by simp) rfl ?_
  rw [decodeWords_C0 _ _ _ rfl]
  generalize hw : W0.mk _ _ _ _ _ _ _ = w0
  have hf : w0.fn = 5 := by subst hw; rfl
  simp only [decodeOpC0, hf, List.cons_append, List.nil_append, List.getD_cons_zero, List.getD_cons_succ, unpackWave_packWave, packCfg_fields]
  subst hw
  refine finish_ok rfl (by simp) ?_
  simp [firstBad, flagsOk_packWave, fenceFlagsOk_packWave, waveRange_packWave, pathIn_packWave, unpackWave_packWave, packCfg_fields, h]
  simpa [← BitVec.toNat_inj] using h.1.1.1
theorem Sys2Proof.Laws.RoundTrip.mxSwap :
    Sys2Proof.Laws.RoundTrip.Statement (.mxSwap) := by
  intro _ _ r
  refine decode_encode rfl (by simp) (by simp) (by simp) rfl ?_
  rw [decodeWords_C1 _ _ _ rfl]
  generalize hw : W0.mk _ _ _ _ _ _ _ = w0
  have hf : w0.fn = 0 := by subst hw; rfl
  simp only [decodeOpC1, hf, List.cons_append, List.nil_append, List.getD_cons_zero, List.getD_cons_succ]
  subst hw
  refine finish_ok rfl rfl ?_
  simp [firstBad]
theorem Sys2Proof.Laws.RoundTrip.mxClr (q : Bool) :
    Sys2Proof.Laws.RoundTrip.Statement (.mxClr q) := by
  intro _ _ r
  refine decode_encode rfl (by simp) (by simp) (by simp) rfl ?_
  rw [decodeWords_C1 _ _ _ rfl]
  generalize hw : W0.mk _ _ _ _ _ _ _ = w0
  have hf : w0.fn = 1 := by subst hw; rfl
  simp only [decodeOpC1, hf, List.cons_append, List.nil_append, List.getD_cons_zero, List.getD_cons_succ, ofBool_fields]
  subst hw
  refine finish_ok rfl (by simp [ofBool_fields]) ?_
  simp [firstBad, ofBool_fields]
theorem Sys2Proof.Laws.RoundTrip.mxStat (d : Rg) (q : Bool) (s : Bool) :
    Sys2Proof.Laws.RoundTrip.Statement (.mxStat d q s) := by
  intro _ _ r
  refine decode_encode rfl (by simp) (by simp) (by simp) rfl ?_
  rw [decodeWords_C1 _ _ _ rfl]
  generalize hw : W0.mk _ _ _ _ _ _ _ = w0
  have hf : w0.fn = 2 := by subst hw; rfl
  simp only [decodeOpC1, hf, List.cons_append, List.nil_append, List.getD_cons_zero, List.getD_cons_succ, ofBool_fields]
  subst hw
  refine finish_ok rfl (by simp [ofBool_fields]) ?_
  simp [firstBad, ofBool_fields]
theorem Sys2Proof.Laws.RoundTrip.mxStatClr (d : Rg) (q : Bool) (s : Bool) :
    Sys2Proof.Laws.RoundTrip.Statement (.mxStatClr d q s) := by
  intro _ _ r
  refine decode_encode rfl (by simp) (by simp) (by simp) rfl ?_
  rw [decodeWords_C1 _ _ _ rfl]
  generalize hw : W0.mk _ _ _ _ _ _ _ = w0
  have hf : w0.fn = 3 := by subst hw; rfl
  simp only [decodeOpC1, hf, List.cons_append, List.nil_append, List.getD_cons_zero, List.getD_cons_succ, ofBool_fields]
  subst hw
  refine finish_ok rfl (by simp [ofBool_fields]) ?_
  simp [firstBad, ofBool_fields]
theorem Sys2Proof.Laws.RoundTrip.nzCfg (d : Rg) (seed : W32) (mode : BitVec 3) (w : Wave) :
    Sys2Proof.Laws.RoundTrip.Statement (.nzCfg d seed mode w) := by
  intro h _ r
  change ((mode.toNat ≤ 5) && w.flagsOk && w.rangeOk && (w.pathIn [0])) = true at h
  simp at h
  refine decode_encode rfl (by simp) (by simp) (by simp) rfl ?_
  rw [decodeWords_C2 _ _ _ rfl]
  generalize hw : W0.mk _ _ _ _ _ _ _ = w0
  have hf : w0.fn = 0 := by subst hw; rfl
  simp only [decodeOpC2, hf, List.cons_append, List.nil_append, List.getD_cons_zero, List.getD_cons_succ, unpackWave_packWave, packNz_fields]
  subst hw
  refine finish_ok rfl (by simp) ?_
  simp [firstBad, flagsOk_packWave, fenceFlagsOk_packWave, waveRange_packWave, pathIn_packWave, unpackWave_packWave, packNz_fields, h]
theorem Sys2Proof.Laws.RoundTrip.mxTokenAccept (sector : Nat) :
    Sys2Proof.Laws.RoundTrip.Statement (.mxTokenAccept sector) := by
  intro _ h; cases h
theorem Sys2Proof.Laws.RoundTrip.mxTokenComplete (token : QueuedToken) :
    Sys2Proof.Laws.RoundTrip.Statement (.mxTokenComplete token) := by
  intro _ h; cases h
theorem Sys2Proof.Laws.RoundTrip.regionDrainStart (net : Nat) (rg : Nat) :
    Sys2Proof.Laws.RoundTrip.Statement (.regionDrainStart net rg) := by
  intro _ h; cases h
theorem Sys2Proof.Laws.RoundTrip.dlPost (d : Rg) (a : Rg) (fin : Bool) (off : W32) (w : Wave) :
    Sys2Proof.Laws.RoundTrip.Statement (.dlPost d a fin off w) := by
  intro h _ r
  change (w.flagsOk && w.rangeOk && (w.pathIn [0])) = true at h
  simp at h
  refine decode_encode rfl (by simp) (by simp) (by simp) rfl ?_
  rw [decodeWords_C2 _ _ _ rfl]
  generalize hw : W0.mk _ _ _ _ _ _ _ = w0
  have hf : w0.fn = 1 := by subst hw; rfl
  simp only [decodeOpC2, hf, List.cons_append, List.nil_append, List.getD_cons_zero, List.getD_cons_succ, unpackWave_packWave, finBit_fields]
  subst hw
  refine finish_ok rfl (by simp [flagsOk_packWave, fenceFlagsOk_packWave, waveRange_packWave, pathIn_packWave, unpackWave_packWave, finBit_fields]) ?_
  simp [firstBad, flagsOk_packWave, fenceFlagsOk_packWave, waveRange_packWave, pathIn_packWave, unpackWave_packWave, finBit_fields, h]
theorem Sys2Proof.Laws.RoundTrip.dlJobComplete (span : Nat) (n : Nat) :
    Sys2Proof.Laws.RoundTrip.Statement (.dlJobComplete span n) := by
  intro _ h; cases h
theorem Sys2Proof.Laws.RoundTrip.dlMerge (d : Rg) (a : Rg) (b : Rg) (dm1 : BitVec 8) (fin : Bool) (off : W32) (w : Wave) :
    Sys2Proof.Laws.RoundTrip.Statement (.dlMerge d a b dm1 fin off w) := by
  intro h _ r
  change (w.flagsOk && w.rangeOk && (w.pathIn [2])) = true at h
  simp at h
  refine decode_encode rfl (by simp) (by simp) (by simp) rfl ?_
  rw [decodeWords_C2 _ _ _ rfl]
  generalize hw : W0.mk _ _ _ _ _ _ _ = w0
  have hf : w0.fn = 2 := by subst hw; rfl
  simp only [decodeOpC2, hf, List.cons_append, List.nil_append, List.getD_cons_zero, List.getD_cons_succ, unpackWave_packWave, packMerge_fields]
  subst hw
  refine finish_ok rfl rfl ?_
  simp [firstBad, flagsOk_packWave, fenceFlagsOk_packWave, waveRange_packWave, pathIn_packWave, unpackWave_packWave, packMerge_fields, h]
theorem Sys2Proof.Laws.RoundTrip.khNew (d : Rg) (a : Rg) (bnd : BitVec 20) (s : Bool) :
    Sys2Proof.Laws.RoundTrip.Statement (.khNew d a bnd s) := by
  intro _ _ r
  refine decode_encode rfl (by simp) (by simp) (by simp) rfl ?_
  rw [decodeWords_C3 _ _ _ rfl]
  generalize hw : W0.mk _ _ _ _ _ _ _ = w0
  have hf : w0.fn = 0 := by subst hw; rfl
  simp only [decodeOpC3, hf, List.cons_append, List.nil_append, List.getD_cons_zero, List.getD_cons_succ]
  subst hw
  refine finish_ok rfl (by simp [setWidth_setWidth_of_le, fld_setWidth]) ?_
  simp [firstBad, setWidth_setWidth_of_le, fld_setWidth]
theorem Sys2Proof.Laws.RoundTrip.khBound (d : Rg) (a : Rg) (bnd : BitVec 20) :
    Sys2Proof.Laws.RoundTrip.Statement (.khBound d a bnd) := by
  intro _ _ r
  refine decode_encode rfl (by simp) (by simp) (by simp) rfl ?_
  rw [decodeWords_C3 _ _ _ rfl]
  generalize hw : W0.mk _ _ _ _ _ _ _ = w0
  have hf : w0.fn = 1 := by subst hw; rfl
  simp only [decodeOpC3, hf, List.cons_append, List.nil_append, List.getD_cons_zero, List.getD_cons_succ]
  subst hw
  refine finish_ok rfl (by simp [setWidth_setWidth_of_le, fld_setWidth]) ?_
  simp [firstBad, setWidth_setWidth_of_le, fld_setWidth]
theorem Sys2Proof.Laws.RoundTrip.khGen (d : Rg) (a : Rg) :
    Sys2Proof.Laws.RoundTrip.Statement (.khGen d a) := by
  intro _ _ r
  refine decode_encode rfl (by simp) (by simp) (by simp) rfl ?_
  rw [decodeWords_C3 _ _ _ rfl]
  generalize hw : W0.mk _ _ _ _ _ _ _ = w0
  have hf : w0.fn = 2 := by subst hw; rfl
  simp only [decodeOpC3, hf, List.cons_append, List.nil_append, List.getD_cons_zero, List.getD_cons_succ]
  subst hw
  refine finish_ok rfl rfl ?_
  simp [firstBad]
theorem Sys2Proof.Laws.RoundTrip.ladInit (lad : BitVec 3) (a : Rg) (mode : BitVec 2) (nrm1 : BitVec 5) (nem1 : BitVec 10) (off : W32) (w : Wave) :
    Sys2Proof.Laws.RoundTrip.Statement (.ladInit lad a mode nrm1 nem1 off w) := by
  intro h _ r
  change ((mode ≠ 3) && (nrm1.toNat ≤ 23) && w.flagsOk && w.rangeOk && (w.pathIn [0])) = true at h
  simp at h
  refine decode_encode rfl (by simp) (by simp) (by simp) rfl ?_
  rw [decodeWords_E0 _ _ _ rfl]
  generalize hw : W0.mk _ _ _ _ _ _ _ = w0
  have hf : w0.fn = 0 := by subst hw; rfl
  simp only [decodeOpE0, hf, List.cons_append, List.nil_append, List.getD_cons_zero, List.getD_cons_succ, unpackWave_packWave, packLad_fields]
  subst hw
  refine finish_ok rfl (by simp) ?_
  simp [firstBad, flagsOk_packWave, fenceFlagsOk_packWave, waveRange_packWave, pathIn_packWave, unpackWave_packWave, packLad_fields, h]
  simpa [← BitVec.toNat_inj] using h.1.1.1.1
theorem Sys2Proof.Laws.RoundTrip.ladWts (lad : BitVec 3) (a : Rg) (off : W32) (w : Wave) :
    Sys2Proof.Laws.RoundTrip.Statement (.ladWts lad a off w) := by
  intro h _ r
  change (w.flagsOk && w.rangeOk && (w.pathIn [0])) = true at h
  simp at h
  refine decode_encode rfl (by simp) (by simp) (by simp) rfl ?_
  rw [decodeWords_E0 _ _ _ rfl]
  generalize hw : W0.mk _ _ _ _ _ _ _ = w0
  have hf : w0.fn = 1 := by subst hw; rfl
  simp only [decodeOpE0, hf, List.cons_append, List.nil_append, List.getD_cons_zero, List.getD_cons_succ, unpackWave_packWave, packLad_fields]
  subst hw
  refine finish_ok rfl (by simp) ?_
  simp [firstBad, flagsOk_packWave, fenceFlagsOk_packWave, waveRange_packWave, pathIn_packWave, unpackWave_packWave, packLad_fields, h]
theorem Sys2Proof.Laws.RoundTrip.ladPush (d : Rg) (lad : BitVec 3) (a : Rg) (b : Rg) (off : W32) (w : Wave) :
    Sys2Proof.Laws.RoundTrip.Statement (.ladPush d lad a b off w) := by
  intro h _ r
  change (w.flagsOk && w.rangeOk && (w.pathIn [0])) = true at h
  simp at h
  refine decode_encode rfl (by simp) (by simp) (by simp) rfl ?_
  rw [decodeWords_E0 _ _ _ rfl]
  generalize hw : W0.mk _ _ _ _ _ _ _ = w0
  have hf : w0.fn = 2 := by subst hw; rfl
  simp only [decodeOpE0, hf, List.cons_append, List.nil_append, List.getD_cons_zero, List.getD_cons_succ, unpackWave_packWave, packLad_fields]
  subst hw
  refine finish_ok rfl (by simp) ?_
  simp [firstBad, flagsOk_packWave, fenceFlagsOk_packWave, waveRange_packWave, pathIn_packWave, unpackWave_packWave, packLad_fields, h]
theorem Sys2Proof.Laws.RoundTrip.ladderChainStep (sector : Nat) (lad : Nat) :
    Sys2Proof.Laws.RoundTrip.Statement (.ladderChainStep sector lad) := by
  intro _ h; cases h
theorem Sys2Proof.Laws.RoundTrip.ladRead (d : Rg) (lad : BitVec 3) (a : Rg) (b : Rg) (off : W32) (w : Wave) :
    Sys2Proof.Laws.RoundTrip.Statement (.ladRead d lad a b off w) := by
  intro h _ r
  change (w.flagsOk && w.rangeOk && (w.pathIn [0])) = true at h
  simp at h
  refine decode_encode rfl (by simp) (by simp) (by simp) rfl ?_
  rw [decodeWords_E0 _ _ _ rfl]
  generalize hw : W0.mk _ _ _ _ _ _ _ = w0
  have hf : w0.fn = 3 := by subst hw; rfl
  simp only [decodeOpE0, hf, List.cons_append, List.nil_append, List.getD_cons_zero, List.getD_cons_succ, unpackWave_packWave, packLad_fields]
  subst hw
  refine finish_ok rfl (by simp) ?_
  simp [firstBad, flagsOk_packWave, fenceFlagsOk_packWave, waveRange_packWave, pathIn_packWave, unpackWave_packWave, packLad_fields, h]
theorem Sys2Proof.Laws.RoundTrip.ladRung (d : Rg) (lad : BitVec 3) (k : BitVec 5) (a : Rg) (off : W32) (w : Wave) :
    Sys2Proof.Laws.RoundTrip.Statement (.ladRung d lad k a off w) := by
  intro h _ r
  change ((k.toNat ≤ 23) && w.flagsOk && w.rangeOk && (w.pathIn [0])) = true at h
  simp at h
  refine decode_encode rfl (by simp) (by simp) (by simp) rfl ?_
  rw [decodeWords_E0 _ _ _ rfl]
  generalize hw : W0.mk _ _ _ _ _ _ _ = w0
  have hf : w0.fn = 4 := by subst hw; rfl
  simp only [decodeOpE0, hf, List.cons_append, List.nil_append, List.getD_cons_zero, List.getD_cons_succ, unpackWave_packWave, packRung_fields]
  subst hw
  refine finish_ok rfl (by simp) ?_
  simp [firstBad, flagsOk_packWave, fenceFlagsOk_packWave, waveRange_packWave, pathIn_packWave, unpackWave_packWave, packRung_fields, h]
theorem Sys2Proof.Laws.RoundTrip.ladStep (d : Rg) (lad : BitVec 3) (w : Wave) :
    Sys2Proof.Laws.RoundTrip.Statement (.ladStep d lad w) := by
  intro h _ r
  change (w.flagsOk && w.rangeOk && (w.pathIn [0])) = true at h
  simp at h
  refine decode_encode rfl (by simp) (by simp) (by simp) rfl ?_
  rw [decodeWords_E0 _ _ _ rfl]
  generalize hw : W0.mk _ _ _ _ _ _ _ = w0
  have hf : w0.fn = 5 := by subst hw; rfl
  simp only [decodeOpE0, hf, List.cons_append, List.nil_append, List.getD_cons_zero, List.getD_cons_succ, unpackWave_packWave, packLad_fields]
  subst hw
  refine finish_ok rfl (by simp) ?_
  simp [firstBad, flagsOk_packWave, fenceFlagsOk_packWave, waveRange_packWave, pathIn_packWave, unpackWave_packWave, packLad_fields, h]
theorem Sys2Proof.Laws.RoundTrip.ladWait (d : Rg) (lad : BitVec 3) (b : Rg) (w : Wave) :
    Sys2Proof.Laws.RoundTrip.Statement (.ladWait d lad b w) := by
  intro h _ r
  change (w.flagsOk && w.rangeOk && (w.pathIn [0])) = true at h
  simp at h
  refine decode_encode rfl (by simp) (by simp) (by simp) rfl ?_
  rw [decodeWords_E0 _ _ _ rfl]
  generalize hw : W0.mk _ _ _ _ _ _ _ = w0
  have hf : w0.fn = 6 := by subst hw; rfl
  simp only [decodeOpE0, hf, List.cons_append, List.nil_append, List.getD_cons_zero, List.getD_cons_succ, unpackWave_packWave, packLad_fields]
  subst hw
  refine finish_ok rfl (by simp) ?_
  simp [firstBad, flagsOk_packWave, fenceFlagsOk_packWave, waveRange_packWave, pathIn_packWave, unpackWave_packWave, packLad_fields, h]
theorem Sys2Proof.Laws.RoundTrip.ladFree (lad : BitVec 3) (w : Wave) :
    Sys2Proof.Laws.RoundTrip.Statement (.ladFree lad w) := by
  intro h _ r
  change (w.flagsOk && w.rangeOk && (w.pathIn [0])) = true at h
  simp at h
  refine decode_encode rfl (by simp) (by simp) (by simp) rfl ?_
  rw [decodeWords_E0 _ _ _ rfl]
  generalize hw : W0.mk _ _ _ _ _ _ _ = w0
  have hf : w0.fn = 7 := by subst hw; rfl
  simp only [decodeOpE0, hf, List.cons_append, List.nil_append, List.getD_cons_zero, List.getD_cons_succ, unpackWave_packWave, packLad_fields]
  subst hw
  refine finish_ok rfl (by simp) ?_
  simp [firstBad, flagsOk_packWave, fenceFlagsOk_packWave, waveRange_packWave, pathIn_packWave, unpackWave_packWave, packLad_fields, h]
theorem Sys2Proof.Laws.RoundTrip.futSpawn (d : Rg) (a : Rg) (off : W32) :
    Sys2Proof.Laws.RoundTrip.Statement (.futSpawn d a off) := by
  intro _ _ r
  refine decode_encode rfl (by simp) (by simp) (by simp) rfl ?_
  rw [decodeWords_E1 _ _ _ rfl]
  generalize hw : W0.mk _ _ _ _ _ _ _ = w0
  have hf : w0.fn = 0 := by subst hw; rfl
  simp only [decodeOpE1, hf, List.cons_append, List.nil_append, List.getD_cons_zero, List.getD_cons_succ]
  subst hw
  refine finish_ok rfl rfl ?_
  simp [firstBad]
theorem Sys2Proof.Laws.RoundTrip.futRef (d : Rg) (a : Rg) :
    Sys2Proof.Laws.RoundTrip.Statement (.futRef d a) := by
  intro _ _ r
  refine decode_encode rfl (by simp) (by simp) (by simp) rfl ?_
  rw [decodeWords_E1 _ _ _ rfl]
  generalize hw : W0.mk _ _ _ _ _ _ _ = w0
  have hf : w0.fn = 1 := by subst hw; rfl
  simp only [decodeOpE1, hf, List.cons_append, List.nil_append, List.getD_cons_zero, List.getD_cons_succ]
  subst hw
  refine finish_ok rfl rfl ?_
  simp [firstBad]
theorem Sys2Proof.Laws.RoundTrip.futDrop (d : Rg) (a : Rg) :
    Sys2Proof.Laws.RoundTrip.Statement (.futDrop d a) := by
  intro _ _ r
  refine decode_encode rfl (by simp) (by simp) (by simp) rfl ?_
  rw [decodeWords_E1 _ _ _ rfl]
  generalize hw : W0.mk _ _ _ _ _ _ _ = w0
  have hf : w0.fn = 2 := by subst hw; rfl
  simp only [decodeOpE1, hf, List.cons_append, List.nil_append, List.getD_cons_zero, List.getD_cons_succ]
  subst hw
  refine finish_ok rfl rfl ?_
  simp [firstBad]
theorem Sys2Proof.Laws.RoundTrip.futWaitReg (d : Rg) (a : Rg) (s : Bool) :
    Sys2Proof.Laws.RoundTrip.Statement (.futWaitReg d a s) := by
  intro _ _ r
  refine decode_encode rfl (by simp) (by simp) (by simp) rfl ?_
  rw [decodeWords_E1 _ _ _ rfl]
  generalize hw : W0.mk _ _ _ _ _ _ _ = w0
  have hf : w0.fn = 3 := by subst hw; rfl
  simp only [decodeOpE1, hf, List.cons_append, List.nil_append, List.getD_cons_zero, List.getD_cons_succ]
  subst hw
  refine finish_ok rfl rfl ?_
  simp [firstBad]
theorem Sys2Proof.Laws.RoundTrip.futWaitBank (a : Rg) (b : Rg) (off : W32) :
    Sys2Proof.Laws.RoundTrip.Statement (.futWaitBank a b off) := by
  intro _ _ r
  refine decode_encode rfl (by simp) (by simp) (by simp) rfl ?_
  rw [decodeWords_E1 _ _ _ rfl]
  generalize hw : W0.mk _ _ _ _ _ _ _ = w0
  have hf : w0.fn = 4 := by subst hw; rfl
  simp only [decodeOpE1, hf, List.cons_append, List.nil_append, List.getD_cons_zero, List.getD_cons_succ]
  subst hw
  refine finish_ok rfl rfl ?_
  simp [firstBad]
theorem Sys2Proof.Laws.RoundTrip.futFill (d : Rg) (a : Rg) (b : Rg) :
    Sys2Proof.Laws.RoundTrip.Statement (.futFill d a b) := by
  intro _ _ r
  refine decode_encode rfl (by simp) (by simp) (by simp) rfl ?_
  rw [decodeWords_E1 _ _ _ rfl]
  generalize hw : W0.mk _ _ _ _ _ _ _ = w0
  have hf : w0.fn = 5 := by subst hw; rfl
  simp only [decodeOpE1, hf, List.cons_append, List.nil_append, List.getD_cons_zero, List.getD_cons_succ]
  subst hw
  refine finish_ok rfl rfl ?_
  simp [firstBad]
theorem Sys2Proof.Laws.RoundTrip.futRcp :
    Sys2Proof.Laws.RoundTrip.Statement (.futRcp) := by
  intro _ _ r
  refine decode_encode rfl (by simp) (by simp) (by simp) rfl ?_
  rw [decodeWords_E1 _ _ _ rfl]
  generalize hw : W0.mk _ _ _ _ _ _ _ = w0
  have hf : w0.fn = 6 := by subst hw; rfl
  simp only [decodeOpE1, hf, List.cons_append, List.nil_append, List.getD_cons_zero, List.getD_cons_succ]
  subst hw
  refine finish_ok rfl rfl ?_
  simp [firstBad]
theorem Sys2Proof.Laws.RoundTrip.futStat (d : Rg) (a : Rg) (s : Bool) :
    Sys2Proof.Laws.RoundTrip.Statement (.futStat d a s) := by
  intro _ _ r
  refine decode_encode rfl (by simp) (by simp) (by simp) rfl ?_
  rw [decodeWords_E1 _ _ _ rfl]
  generalize hw : W0.mk _ _ _ _ _ _ _ = w0
  have hf : w0.fn = 7 := by subst hw; rfl
  simp only [decodeOpE1, hf, List.cons_append, List.nil_append, List.getD_cons_zero, List.getD_cons_succ]
  subst hw
  refine finish_ok rfl rfl ?_
  simp [firstBad]
theorem Sys2Proof.Laws.RoundTrip.captureComplete (die : Nat) (task : Nat) :
    Sys2Proof.Laws.RoundTrip.Statement (.captureComplete die task) := by
  intro _ h; cases h
theorem Sys2Proof.Laws.RoundTrip.tskSubInline (d : Rg) (a : Rg) (b : Rg) (imm : W32) (tmpl : BitVec 16) (w : Wave) :
    Sys2Proof.Laws.RoundTrip.Statement (.tskSubInline d a b imm tmpl w) := by
  intro h _ r
  change (w.flagsOk && w.rangeOk && (w.pathIn [0])) = true at h
  simp at h
  refine decode_encode rfl (by simp) (by simp) (by simp) rfl ?_
  rw [decodeWords_E2 _ _ _ rfl]
  generalize hw : W0.mk _ _ _ _ _ _ _ = w0
  have hf : w0.fn = 0 := by subst hw; rfl
  simp only [decodeOpE2, hf, List.cons_append, List.nil_append, List.getD_cons_zero, List.getD_cons_succ, unpackWave_packWave]
  subst hw
  refine finish_ok rfl (by simp [flagsOk_packWave, fenceFlagsOk_packWave, waveRange_packWave, pathIn_packWave, unpackWave_packWave, setWidth_setWidth_of_le, fld_setWidth]) ?_
  simp [firstBad, flagsOk_packWave, fenceFlagsOk_packWave, waveRange_packWave, pathIn_packWave, unpackWave_packWave, setWidth_setWidth_of_le, fld_setWidth, h]
theorem Sys2Proof.Laws.RoundTrip.tskSubDesc (d : Rg) (a : Rg) (off : W32) (w : Wave) :
    Sys2Proof.Laws.RoundTrip.Statement (.tskSubDesc d a off w) := by
  intro h _ r
  change (w.flagsOk && w.rangeOk && (w.pathIn [0])) = true at h
  simp at h
  refine decode_encode rfl (by simp) (by simp) (by simp) rfl ?_
  rw [decodeWords_E2 _ _ _ rfl]
  generalize hw : W0.mk _ _ _ _ _ _ _ = w0
  have hf : w0.fn = 1 := by subst hw; rfl
  simp only [decodeOpE2, hf, List.cons_append, List.nil_append, List.getD_cons_zero, List.getD_cons_succ, unpackWave_packWave]
  subst hw
  refine finish_ok rfl rfl ?_
  simp [firstBad, flagsOk_packWave, fenceFlagsOk_packWave, waveRange_packWave, pathIn_packWave, unpackWave_packWave, h]
theorem Sys2Proof.Laws.RoundTrip.tskDone (w : Wave) :
    Sys2Proof.Laws.RoundTrip.Statement (.tskDone w) := by
  intro h _ r
  change (w.flagsOk && w.rangeOk && (w.pathIn [0])) = true at h
  simp at h
  refine decode_encode rfl (by simp) (by simp) (by simp) rfl ?_
  rw [decodeWords_E2 _ _ _ rfl]
  generalize hw : W0.mk _ _ _ _ _ _ _ = w0
  have hf : w0.fn = 2 := by subst hw; rfl
  simp only [decodeOpE2, hf, List.cons_append, List.nil_append, List.getD_cons_zero, List.getD_cons_succ, unpackWave_packWave]
  subst hw
  refine finish_ok rfl rfl ?_
  simp [firstBad, flagsOk_packWave, fenceFlagsOk_packWave, waveRange_packWave, pathIn_packWave, unpackWave_packWave, h]
theorem Sys2Proof.Laws.RoundTrip.taskQwaitPop (die : Nat) (task : Nat) :
    Sys2Proof.Laws.RoundTrip.Statement (.taskQwaitPop die task) := by
  intro _ h; cases h
theorem Sys2Proof.Laws.RoundTrip.taskDispatch (die : Nat) (task : Nat) :
    Sys2Proof.Laws.RoundTrip.Statement (.taskDispatch die task) := by
  intro _ h; cases h
theorem Sys2Proof.Laws.RoundTrip.qPushReg (a : Rg) (b : Rg) (w : Wave) :
    Sys2Proof.Laws.RoundTrip.Statement (.qPushReg a b w) := by
  intro h _ r
  change ((a.toNat ≤ 24) && (w.path ≠ 1 || b == 0) && w.flagsOk && w.rangeOk && (w.pathIn [1, 2])) = true at h
  simp at h
  refine decode_encode rfl (by simp) (by simp) (by simp) rfl ?_
  rw [decodeWords_E3 _ _ _ rfl]
  generalize hw : W0.mk _ _ _ _ _ _ _ = w0
  have hf : w0.fn = 0 := by subst hw; rfl
  simp only [decodeOpE3, hf, List.cons_append, List.nil_append, List.getD_cons_zero, List.getD_cons_succ, unpackWave_packWave]
  subst hw
  refine finish_ok rfl rfl ?_
  simp [firstBad, flagsOk_packWave, fenceFlagsOk_packWave, waveRange_packWave, pathIn_packWave, unpackWave_packWave, path_packWave, path_one, h]
theorem Sys2Proof.Laws.RoundTrip.qPushBank (a : Rg) (b : Rg) (off : W32) (w : Wave) :
    Sys2Proof.Laws.RoundTrip.Statement (.qPushBank a b off w) := by
  intro h _ r
  change ((w.path ≠ 1 || b == 0) && w.flagsOk && w.rangeOk && (w.pathIn [1, 2])) = true at h
  simp at h
  refine decode_encode rfl (by simp) (by simp) (by simp) rfl ?_
  rw [decodeWords_E3 _ _ _ rfl]
  generalize hw : W0.mk _ _ _ _ _ _ _ = w0
  have hf : w0.fn = 1 := by subst hw; rfl
  simp only [decodeOpE3, hf, List.cons_append, List.nil_append, List.getD_cons_zero, List.getD_cons_succ, unpackWave_packWave]
  subst hw
  refine finish_ok rfl rfl ?_
  simp [firstBad, flagsOk_packWave, fenceFlagsOk_packWave, waveRange_packWave, pathIn_packWave, unpackWave_packWave, path_packWave, path_one, h]
theorem Sys2Proof.Laws.RoundTrip.qPopReg (d : Rg) (b : Rg) (s : Bool) (w : Wave) :
    Sys2Proof.Laws.RoundTrip.Statement (.qPopReg d b s w) := by
  intro h _ r
  change ((d.toNat ≤ 24) && (w.path ≠ 1 || b == 0) && w.flagsOk && w.rangeOk && (w.pathIn [1, 2])) = true at h
  simp at h
  refine decode_encode rfl (by simp) (by simp) (by simp) rfl ?_
  rw [decodeWords_E3 _ _ _ rfl]
  generalize hw : W0.mk _ _ _ _ _ _ _ = w0
  have hf : w0.fn = 2 := by subst hw; rfl
  simp only [decodeOpE3, hf, List.cons_append, List.nil_append, List.getD_cons_zero, List.getD_cons_succ, unpackWave_packWave]
  subst hw
  refine finish_ok rfl rfl ?_
  simp [firstBad, flagsOk_packWave, fenceFlagsOk_packWave, waveRange_packWave, pathIn_packWave, unpackWave_packWave, path_packWave, path_one, h]
theorem Sys2Proof.Laws.RoundTrip.qPopBank (a : Rg) (b : Rg) (off : W32) (w : Wave) :
    Sys2Proof.Laws.RoundTrip.Statement (.qPopBank a b off w) := by
  intro h _ r
  change ((w.path ≠ 1 || b == 0) && w.flagsOk && w.rangeOk && (w.pathIn [1, 2])) = true at h
  simp at h
  refine decode_encode rfl (by simp) (by simp) (by simp) rfl ?_
  rw [decodeWords_E3 _ _ _ rfl]
  generalize hw : W0.mk _ _ _ _ _ _ _ = w0
  have hf : w0.fn = 3 := by subst hw; rfl
  simp only [decodeOpE3, hf, List.cons_append, List.nil_append, List.getD_cons_zero, List.getD_cons_succ, unpackWave_packWave]
  subst hw
  refine finish_ok rfl rfl ?_
  simp [firstBad, flagsOk_packWave, fenceFlagsOk_packWave, waveRange_packWave, pathIn_packWave, unpackWave_packWave, path_packWave, path_one, h]
theorem Sys2Proof.Laws.RoundTrip.qCnt (d : Rg) (b : Rg) (s : Bool) (w : Wave) :
    Sys2Proof.Laws.RoundTrip.Statement (.qCnt d b s w) := by
  intro h _ r
  change ((w.path ≠ 1 || b == 0) && w.flagsOk && w.rangeOk && (w.pathIn [1, 2])) = true at h
  simp at h
  refine decode_encode rfl (by simp) (by simp) (by simp) rfl ?_
  rw [decodeWords_E3 _ _ _ rfl]
  generalize hw : W0.mk _ _ _ _ _ _ _ = w0
  have hf : w0.fn = 4 := by subst hw; rfl
  simp only [decodeOpE3, hf, List.cons_append, List.nil_append, List.getD_cons_zero, List.getD_cons_succ, unpackWave_packWave]
  subst hw
  refine finish_ok rfl rfl ?_
  simp [firstBad, flagsOk_packWave, fenceFlagsOk_packWave, waveRange_packWave, pathIn_packWave, unpackWave_packWave, path_packWave, path_one, h]
theorem Sys2Proof.Laws.RoundTrip.refillBatchStart (sector : Nat) :
    Sys2Proof.Laws.RoundTrip.Statement (.refillBatchStart sector) := by
  intro _ h; cases h
theorem Sys2Proof.Laws.RoundTrip.refillBatchLand (sector : Nat) :
    Sys2Proof.Laws.RoundTrip.Statement (.refillBatchLand sector) := by
  intro _ h; cases h
theorem Sys2Proof.Laws.RoundTrip.pwrAcq (d : Rg) (a : Rg) :
    Sys2Proof.Laws.RoundTrip.Statement (.pwrAcq d a) := by
  intro _ _ r
  refine decode_encode rfl (by simp) (by simp) (by simp) rfl ?_
  rw [decodeWords_E4 _ _ _ rfl]
  generalize hw : W0.mk _ _ _ _ _ _ _ = w0
  have hf : w0.fn = 0 := by subst hw; rfl
  simp only [decodeOpE4, hf, List.cons_append, List.nil_append, List.getD_cons_zero, List.getD_cons_succ]
  subst hw
  refine finish_ok rfl rfl ?_
  simp [firstBad]
theorem Sys2Proof.Laws.RoundTrip.pwrRel (d : Rg) (a : Rg) :
    Sys2Proof.Laws.RoundTrip.Statement (.pwrRel d a) := by
  intro _ _ r
  refine decode_encode rfl (by simp) (by simp) (by simp) rfl ?_
  rw [decodeWords_E4 _ _ _ rfl]
  generalize hw : W0.mk _ _ _ _ _ _ _ = w0
  have hf : w0.fn = 1 := by subst hw; rfl
  simp only [decodeOpE4, hf, List.cons_append, List.nil_append, List.getD_cons_zero, List.getD_cons_succ]
  subst hw
  refine finish_ok rfl rfl ?_
  simp [firstBad]
theorem Sys2Proof.Laws.RoundTrip.doorbell (vm : Nat) (die : Nat) (value : W32) :
    Sys2Proof.Laws.RoundTrip.Statement (.doorbell vm die value) := by
  intro _ h; cases h
theorem Sys2Proof.Laws.RoundTrip.packetStart (die : Nat) :
    Sys2Proof.Laws.RoundTrip.Statement (.packetStart die) := by
  intro _ h; cases h
theorem Sys2Proof.Laws.RoundTrip.bundleRun (k : Nat) :
    Sys2Proof.Laws.RoundTrip.Statement (.bundleRun k) := by
  intro _ h; cases h
theorem Sys2Proof.Laws.RoundTrip.bundleRetire (k : Nat) :
    Sys2Proof.Laws.RoundTrip.Statement (.bundleRetire k) := by
  intro _ h; cases h
theorem Sys2Proof.Laws.RoundTrip.waitPacket (pq : Nat) :
    Sys2Proof.Laws.RoundTrip.Statement (.waitPacket pq) := by
  intro _ h; cases h
theorem Sys2Proof.Laws.RoundTrip.signalPacket (pq : Nat) :
    Sys2Proof.Laws.RoundTrip.Statement (.signalPacket pq) := by
  intro _ h; cases h
theorem Sys2Proof.Laws.RoundTrip.netPlacement (k : Nat) (rec : Nat) :
    Sys2Proof.Laws.RoundTrip.Statement (.netPlacement k rec) := by
  intro _ h; cases h
theorem Sys2Proof.Laws.RoundTrip.sectorGrant (die : Nat) :
    Sys2Proof.Laws.RoundTrip.Statement (.sectorGrant die) := by
  intro _ h; cases h
theorem Sys2Proof.Laws.RoundTrip.netInject (k : Nat) (rec : Nat) :
    Sys2Proof.Laws.RoundTrip.Statement (.netInject k rec) := by
  intro _ h; cases h
theorem Sys2Proof.Laws.RoundTrip.launchPacket (words : LaunchBody) :
    Sys2Proof.Laws.RoundTrip.Statement (.launchPacket words) := by
  intro _ h; cases h
theorem Sys2Proof.Laws.RoundTrip.castleGo (cell : Nat) (value : W64) :
    Sys2Proof.Laws.RoundTrip.Statement (.castleGo cell value) := by
  intro _ h; cases h
theorem Sys2Proof.Laws.RoundTrip.contextExchange (cell : Nat) :
    Sys2Proof.Laws.RoundTrip.Statement (.contextExchange cell) := by
  intro _ h; cases h
theorem Sys2Proof.Laws.RoundTrip.contextStreamComplete (cell : Nat) :
    Sys2Proof.Laws.RoundTrip.Statement (.contextStreamComplete cell) := by
  intro _ h; cases h
theorem Sys2Proof.Laws.RoundTrip.parkedOutcome (cell : Nat) (slot : Nat) (k : Nat) :
    Sys2Proof.Laws.RoundTrip.Statement (.parkedOutcome cell slot k) := by
  intro _ h; cases h
theorem Sys2Proof.Laws.RoundTrip.poolWrite (pool : Nat) :
    Sys2Proof.Laws.RoundTrip.Statement (.poolWrite pool) := by
  intro _ h; cases h
theorem Sys2Proof.Laws.RoundTrip.version (m : Master) (tag : BitVec 16) :
    Sys2Proof.Laws.RoundTrip.Statement (.version m tag) := by
  intro _ h; cases h
theorem Sys2Proof.Laws.RoundTrip.reset (m : Master) (tag : BitVec 16) :
    Sys2Proof.Laws.RoundTrip.Statement (.reset m tag) := by
  intro _ h; cases h
theorem Sys2Proof.Laws.RoundTrip.loadImage (m : Master) (tag : BitVec 16) (src : W64) (len : W64) (data : List Byte) :
    Sys2Proof.Laws.RoundTrip.Statement (.loadImage m tag src len data) := by
  intro _ h; cases h
theorem Sys2Proof.Laws.RoundTrip.imageData (m : Master) (tag : BitVec 16) (off : W32) (cnt : W32) (data : List W64) :
    Sys2Proof.Laws.RoundTrip.Statement (.imageData m tag off cnt data) := by
  intro _ h; cases h
theorem Sys2Proof.Laws.RoundTrip.setPool (m : Master) (tag : BitVec 16) (pool : W64) :
    Sys2Proof.Laws.RoundTrip.Statement (.setPool m tag pool) := by
  intro _ h; cases h
theorem Sys2Proof.Laws.RoundTrip.castle (m : Master) (tag : BitVec 16) (die : Nat) (sector : Nat) (slot : Bool) (stream : Bool) (dir : Bool) :
    Sys2Proof.Laws.RoundTrip.Statement (.castle m tag die sector slot stream dir) := by
  intro _ h; cases h
theorem Sys2Proof.Laws.RoundTrip.endRegion (m : Master) (tag : BitVec 16) (die : Nat) (sector : Nat) :
    Sys2Proof.Laws.RoundTrip.Statement (.endRegion m tag die sector) := by
  intro _ h; cases h
theorem Sys2Proof.Laws.RoundTrip.blockAlloc (m : Master) (tag : BitVec 16) (arg : W64) (addr : W64) :
    Sys2Proof.Laws.RoundTrip.Statement (.blockAlloc m tag arg addr) := by
  intro _ h; cases h
theorem Sys2Proof.Laws.RoundTrip.blockFree (m : Master) (tag : BitVec 16) (asid : Nat) (blocks : List Nat) :
    Sys2Proof.Laws.RoundTrip.Statement (.blockFree m tag asid blocks) := by
  intro _ h; cases h
theorem Sys2Proof.Laws.RoundTrip.timerPost (m : Master) (tag : BitVec 16) (time : W64) (word1 : W64) (asid : Nat) :
    Sys2Proof.Laws.RoundTrip.Statement (.timerPost m tag time word1 asid) := by
  intro _ h; cases h
theorem Sys2Proof.Laws.RoundTrip.blockTake (cell : Nat) (fid : Nat) :
    Sys2Proof.Laws.RoundTrip.Statement (.blockTake cell fid) := by
  intro _ h; cases h
theorem Sys2Proof.Laws.RoundTrip.blockAppend (sector : Nat) (block : W32) :
    Sys2Proof.Laws.RoundTrip.Statement (.blockAppend sector block) := by
  intro _ h; cases h
theorem Sys2Proof.Laws.RoundTrip.blockCacheRefill (sector : Nat) :
    Sys2Proof.Laws.RoundTrip.Statement (.blockCacheRefill sector) := by
  intro _ h; cases h
theorem Sys2Proof.Laws.RoundTrip.placeEntryWrite (cell : Nat) (place : Nat) (value : W64) :
    Sys2Proof.Laws.RoundTrip.Statement (.placeEntryWrite cell place value) := by
  intro _ h; cases h
theorem Sys2Proof.Laws.RoundTrip.wordStoreWrite (cell : Nat) (place : Nat) (slot : Nat) (value : W64) :
    Sys2Proof.Laws.RoundTrip.Statement (.wordStoreWrite cell place slot value) := by
  intro _ h; cases h
theorem Sys2Proof.Laws.RoundTrip.loadedRecordWrite (cell : Nat) (t : Nat) (off : Nat) (value : W64) :
    Sys2Proof.Laws.RoundTrip.Statement (.loadedRecordWrite cell t off value) := by
  intro _ h; cases h
theorem Sys2Proof.Laws.RoundTrip.registerWindowWrite (cell : Nat) (off : Nat) (data : List Byte) :
    Sys2Proof.Laws.RoundTrip.Statement (.registerWindowWrite cell off data) := by
  intro _ h; cases h
theorem Sys2Proof.Laws.RoundTrip.queueCounterWrite (sector : Nat) (off : Nat) (value : W64) :
    Sys2Proof.Laws.RoundTrip.Statement (.queueCounterWrite sector off value) := by
  intro _ h; cases h
theorem Sys2Proof.Laws.RoundTrip.rangeTableWrite (n : Nat) (value : BitVec 128) :
    Sys2Proof.Laws.RoundTrip.Statement (.rangeTableWrite n value) := by
  intro _ h; cases h
theorem Sys2Proof.Laws.RoundTrip.tlbInvalidate (owner : Nat) (asid : Nat) (va : W64) :
    Sys2Proof.Laws.RoundTrip.Statement (.tlbInvalidate owner asid va) := by
  intro _ h; cases h
theorem Sys2Proof.Laws.RoundTrip.quarantineEnqueue (owner : Nat) (value : W64) :
    Sys2Proof.Laws.RoundTrip.Statement (.quarantineEnqueue owner value) := by
  intro _ h; cases h
theorem Sys2Proof.Laws.RoundTrip.quarantineRelease (owner : Nat) :
    Sys2Proof.Laws.RoundTrip.Statement (.quarantineRelease owner) := by
  intro _ h; cases h
theorem Sys2Proof.Laws.RoundTrip.handleTableBaseWrite (isLen : Bool) (value : W64) :
    Sys2Proof.Laws.RoundTrip.Statement (.handleTableBaseWrite isLen value) := by
  intro _ h; cases h
theorem Sys2Proof.Laws.RoundTrip.recordRingIndexWrite (ring : Nat) (value : W64) :
    Sys2Proof.Laws.RoundTrip.Statement (.recordRingIndexWrite ring value) := by
  intro _ h; cases h
theorem Sys2Proof.Laws.RoundTrip.registerWrite (r : RegName) (value : BitVec 256) :
    Sys2Proof.Laws.RoundTrip.Statement (.registerWrite r value) := by
  intro _ h; cases h
theorem Sys2Proof.Laws.RoundTrip.timerTokenRelease (k : Nat) (now : W64) :
    Sys2Proof.Laws.RoundTrip.Statement (.timerTokenRelease k now) := by
  intro _ h; cases h
theorem Sys2Proof.Laws.RoundTrip.taskTimeRelease (k : Nat) (now : W64) :
    Sys2Proof.Laws.RoundTrip.Statement (.taskTimeRelease k now) := by
  intro _ h; cases h
theorem Sys2Proof.Laws.RoundTrip.engineResume (e : EngineId) :
    Sys2Proof.Laws.RoundTrip.Statement (.engineResume e) := by
  intro _ h; cases h
theorem Sys2Proof.Laws.RoundTrip.engineAbort (e : EngineId) :
    Sys2Proof.Laws.RoundTrip.Statement (.engineAbort e) := by
  intro _ h; cases h
theorem Sys2Proof.Laws.RoundTrip.requestTimeout (cell : Nat) (fid : Nat) :
    Sys2Proof.Laws.RoundTrip.Statement (.requestTimeout cell fid) := by
  intro _ h; cases h
theorem Sys2Proof.Laws.RoundTrip.frozenEngineTimeout (e : EngineId) :
    Sys2Proof.Laws.RoundTrip.Statement (.frozenEngineTimeout e) := by
  intro _ h; cases h
theorem Sys2Proof.Laws.RoundTrip.zugzwangDeclare (net : Nat) :
    Sys2Proof.Laws.RoundTrip.Statement (.zugzwangDeclare net) := by
  intro _ h; cases h
theorem Sys2Proof.Laws.RoundTrip.eccstatClear (die : Bool) (n : Nat) :
    Sys2Proof.Laws.RoundTrip.Statement (.eccstatClear die n) := by
  intro _ h; cases h
theorem Sys2Proof.Laws.RoundTrip.taskReplay (die : Nat) (value : W64) :
    Sys2Proof.Laws.RoundTrip.Statement (.taskReplay die value) := by
  intro _ h; cases h
theorem Sys2Proof.Laws.RoundTrip.hostLinkDown :
    Sys2Proof.Laws.RoundTrip.Statement (.hostLinkDown) := by
  intro _ h; cases h
theorem Sys2Proof.Laws.RoundTrip.hostLinkUp :
    Sys2Proof.Laws.RoundTrip.Statement (.hostLinkUp) := by
  intro _ h; cases h
theorem Sys2Proof.Laws.RoundTrip.watchdogKick (value : W64) :
    Sys2Proof.Laws.RoundTrip.Statement (.watchdogKick value) := by
  intro _ h; cases h
theorem Sys2Proof.Laws.RoundTrip.watchdogExpiry :
    Sys2Proof.Laws.RoundTrip.Statement (.watchdogExpiry) := by
  intro _ h; cases h
theorem Sys2Proof.Laws.RoundTrip.pluginStop (slot : Nat) :
    Sys2Proof.Laws.RoundTrip.Statement (.pluginStop slot) := by
  intro _ h; cases h
theorem Sys2Proof.Laws.RoundTrip.boot :
    Sys2Proof.Laws.RoundTrip.Statement (.boot) := by
  intro _ h; cases h
theorem Sys2Proof.Laws.RoundTrip.spdmGetVersion :
    Sys2Proof.Laws.RoundTrip.Statement (.spdmGetVersion) := by
  intro _ h; cases h
theorem Sys2Proof.Laws.RoundTrip.spdmGetCapabilities :
    Sys2Proof.Laws.RoundTrip.Statement (.spdmGetCapabilities) := by
  intro _ h; cases h
theorem Sys2Proof.Laws.RoundTrip.spdmNegotiateAlgorithms :
    Sys2Proof.Laws.RoundTrip.Statement (.spdmNegotiateAlgorithms) := by
  intro _ h; cases h
theorem Sys2Proof.Laws.RoundTrip.vendorDefinedRequest (request : VendorRequest) :
    Sys2Proof.Laws.RoundTrip.Statement (.vendorDefinedRequest request) := by
  intro _ h; cases h
theorem Sys2Proof.Laws.RoundTrip.spdmOtherRequest (code : Byte) :
    Sys2Proof.Laws.RoundTrip.Statement (.spdmOtherRequest code) := by
  intro _ h; cases h
theorem Sys2Proof.Laws.RoundTrip.sensorRefresh (vals : List W32) :
    Sys2Proof.Laws.RoundTrip.Statement (.sensorRefresh vals) := by
  intro _ h; cases h
theorem Sys2Proof.Laws.RoundTrip.retransmitTimeout (k : Nat) :
    Sys2Proof.Laws.RoundTrip.Statement (.retransmitTimeout k) := by
  intro _ h; cases h
theorem Sys2Proof.Laws.RoundTrip.scaleoutPortDown (p : Nat) :
    Sys2Proof.Laws.RoundTrip.Statement (.scaleoutPortDown p) := by
  intro _ h; cases h
theorem Sys2Proof.Laws.RoundTrip.scaleoutPortUp (p : Nat) :
    Sys2Proof.Laws.RoundTrip.Statement (.scaleoutPortUp p) := by
  intro _ h; cases h
theorem Sys2Proof.Laws.RoundTrip.heartbeatSend :
    Sys2Proof.Laws.RoundTrip.Statement (.heartbeatSend) := by
  intro _ h; cases h
theorem Sys2Proof.Laws.RoundTrip.peerLost (peer : PeerLoss) :
    Sys2Proof.Laws.RoundTrip.Statement (.peerLost peer) := by
  intro _ h; cases h
theorem Sys2Proof.Laws.RoundTrip.transitionStateWrite (cell : Nat) (t : Nat) (value : W64) :
    Sys2Proof.Laws.RoundTrip.Statement (.transitionStateWrite cell t value) := by
  intro _ h; cases h
theorem Sys2Proof.Laws.RoundTrip.heartbeatReceive (peer : Nat) :
    Sys2Proof.Laws.RoundTrip.Statement (.heartbeatReceive peer) := by
  intro _ h; cases h
theorem Sys2Proof.Laws.RoundTrip.packetAcknowledge (peer : Nat) (vc : Nat) (num : Nat) :
    Sys2Proof.Laws.RoundTrip.Statement (.packetAcknowledge peer vc num) := by
  intro _ h; cases h
theorem Sys2Proof.Laws.RoundTrip.fatalNotice :
    Sys2Proof.Laws.RoundTrip.Statement (.fatalNotice) := by
  intro _ h; cases h
end

