-- ==== Sys2Proof/Laws/Scalar.lean ====
section
/-! SUPPORT. What the end of a register-only instruction does: the register, the choice code, the place in the body
(R39, R41, R142). -/
set_option Elab.async false
namespace Sys2Proof.Machine

/-- A firing at the end of an instruction of `n` words. -/
def gone (n clock : Nat) (f : Firing) : Firing :=
  { f with woff := f.woff + n, wait := none, arg := none, age := 0, last := clock + 1, recs := none, genEp := none, keep := {} }
/-- A firing with another choice code. -/
def chosen (c : BitVec 2) (f : Firing) : Firing := { f with choice := c }

namespace State

theorem advance_eq (s : State) (n : Nat) : s.advance n = s.modMe (gone n s.clock) := rfl
theorem choose_eq (s : State) (b : Bool) (c : BitVec 2) : s.choose b c = if b then s.modMe (chosen c) else s := rfl

theorem runs_choose (s : State) (b : Bool) (c : BitVec 2) (h : s.Runs) : (s.choose b c).Runs := by
  cases b
  · exact h
  · exact runs_modMe _ _ (fun _ => rfl) (fun _ => rfl) h

theorem runs_advance (s : State) (n : Nat) (h : s.Runs) : (s.advance n).Runs :=
  runs_modMe _ _ (fun _ => rfl) (fun _ => rfl) h

theorem heldG_choose (s : State) (b : Bool) (c : BitVec 2) (h : s.Runs) (r : Rg) : (s.choose b c).heldG r = s.heldG r := by
  cases b
  · rfl
  · exact heldG_modMe _ (chosen c) (fun _ => rfl) (fun _ => rfl) (fun _ => rfl) h r
theorem heldV_choose (s : State) (b : Bool) (c : BitVec 2) (h : s.Runs) (n : Nat) : (s.choose b c).heldV n = s.heldV n := by
  cases b
  · rfl
  · exact heldV_modMe _ (chosen c) (fun _ => rfl) (fun _ => rfl) (fun _ => rfl) h n
theorem heldSh_choose (s : State) (b : Bool) (c : BitVec 2) (h : s.Runs) (n : Nat) : (s.choose b c).heldSh n = s.heldSh n := by
  cases b
  · rfl
  · exact heldSh_modMe _ (chosen c) (fun _ => rfl) (fun _ => rfl) (fun _ => rfl) h n
/-- At the end of an instruction the firing reads the registers as they stand. -/
theorem readG_advance (s : State) (k : Nat) (h : s.Runs) (r : Rg) : (s.advance k).readG r = s.heldG r :=
  (readG_eq _ (by rw [advance_eq, me_modMe s (gone k s.clock) (fun _ => rfl) h.1]; rfl) r).trans
    (heldG_modMe _ (gone k s.clock) (fun _ => rfl) (fun _ => rfl) (fun _ => rfl) h r)
/-- At the end of an instruction the firing reads the registers as they stand. -/
theorem readV_advance (s : State) (k : Nat) (h : s.Runs) (n : Nat) : (s.advance k).readV n = s.heldV n :=
  (readV_eq _ (by rw [advance_eq, me_modMe s (gone k s.clock) (fun _ => rfl) h.1]; rfl) n).trans
    (heldV_modMe _ (gone k s.clock) (fun _ => rfl) (fun _ => rfl) (fun _ => rfl) h n)
/-- At the end of an instruction the firing reads the registers as they stand. -/
theorem readSh_advance (s : State) (k : Nat) (h : s.Runs) (n : Nat) : (s.advance k).readSh n = s.heldSh n :=
  (readSh_eq _ (by rw [advance_eq, me_modMe s (gone k s.clock) (fun _ => rfl) h.1]; rfl) n).trans
    (heldSh_modMe _ (gone k s.clock) (fun _ => rfl) (fun _ => rfl) (fun _ => rfl) h n)

/-- The end of an instruction as one change of its firing. -/
theorem finish_modMe (s : State) (u : Firing → Firing) (hu : ∀ x, (u x).id = x.id) (b : Bool) (c : BitVec 2) (n : Nat) :
    ((s.modMe u).choose b c).advance n
      = s.modMe fun f => gone n s.clock (if b then chosen c (u f) else u f) := by
  cases b
  · show ((s.modMe u)).modMe (gone n s.clock) = _
    rw [modMe_modMe _ _ _ hu]; rfl
  · show ((s.modMe u).modMe (chosen c)).modMe (gone n s.clock) = _
    rw [modMe_modMe _ _ _ hu, modMe_modMe _ _ _ (by exact hu)]; rfl

theorem modMe_id (s : State) (h : s.Runs) : s.modMe id = s.modMe fun _ => s.me := modMe_const s id h

theorem fstat_modMe (s : State) (u : Firing → Firing) (hu : ∀ x, (u x).id = x.id) (hf : (u s.me).flags = s.me.flags)
    (h : s.Runs) : (s.modMe u).fstat = s.fstat := by
  unfold fstat; rw [me_modMe s u hu h.1, ctx_modMe, hf]

end State

open State

/-- What `scalar` does. -/
theorem scalar_wrote (d : Rg) (r : W64) (c : BitVec 2) (sb : Bool) (n : Nat) (s : State) (h : s.Runs) :
    ∃ t, scalar d r c sb n s = .next t ∧ Wrote s t d r (if sb then some c else none) n := by
  refine ⟨_, rfl, ?_⟩
  have hw := runs_writeG s d r h
  have hc := runs_choose (s.writeG d r) sb c hw
  obtain ⟨u, hu, he, hs⟩ : ∃ u : Firing → Firing, (∀ x, (u x).id = x.id)
      ∧ ((s.writeG d r).choose sb c).advance n = s.modMe u
      ∧ u s.me = gone n s.clock (if sb then chosen c (s.writeG d r).me else (s.writeG d r).me) := by
    by_cases hd : d = 0
    · subst hd
      rw [writeG_zero]
      cases sb
      · exact ⟨gone n s.clock, fun _ => rfl, rfl, rfl⟩
      · refine ⟨fun f => gone n s.clock (chosen c f), fun _ => rfl, ?_, rfl⟩
        exact modMe_modMe _ (chosen c) _ (by exact fun _ => rfl)
    · refine ⟨fun f => gone n s.clock (if sb then chosen c (setG d.toNat r f) else setG d.toNat r f), ?_, ?_, ?_⟩
      · intro x; cases sb <;> rfl
      · rw [writeG_eq _ _ _ hd]; exact finish_modMe _ _ (setG_id _ _) _ _ _
      · rw [me_writeG _ _ _ h.1, if_neg hd]
  have hm : (((s.writeG d r).choose sb c).advance n).me
      = gone n s.clock (if sb then chosen c (s.writeG d r).me else (s.writeG d r).me) := by
    rw [he, me_modMe s u hu h.1, hs]
  have hg : (s.writeG d r).me.rest = s.me.rest ∧ (s.writeG d r).me.choice = s.me.choice
      ∧ (s.writeG d r).me.woff = s.me.woff ∧ (s.writeG d r).me.flags = s.me.flags := by
    rw [me_writeG _ _ _ h.1]; split <;> exact ⟨rfl, rfl, rfl, rfl⟩
  constructor
  · rw [readG_advance _ _ hc, heldG_choose _ _ _ hw, heldG_writeG _ _ _ _ h]
    by_cases hd : d = 0
    · subst hd; rw [if_neg fun e => e.2 rfl, if_pos rfl, heldG, if_pos rfl]
    · rw [if_pos ⟨rfl, hd⟩, if_neg hd]
  · intro q hq
    rw [readG_advance _ _ hc, heldG_choose _ _ _ hw, heldG_writeG _ _ _ _ h, if_neg fun e => hq e.1]
  · intro k; rw [readV_advance _ _ hc, heldV_choose _ _ _ hw, heldV_writeG _ _ _ h]
  · intro k; rw [readSh_advance _ _ hc, heldSh_choose _ _ _ hw, heldSh_writeG _ _ _ h]
  · rw [hm]; cases sb
    · exact hg.2.1
    · rfl
  · rw [hm]; cases sb <;> exact ⟨congrArg (· + n) hg.2.2.1, rfl⟩
  · refine ⟨?_, ?_⟩
    · rw [hm]; cases sb <;> exact hg.1
    · rw [he]
      refine fstat_modMe s u hu ?_ h
      rw [hs]; cases sb <;> exact hg.2.2.2
  · intro a; simp
  · rw [he]; exact onlyMe_modMe s u hu h

end Sys2Proof.Machine
end

