-- ==== Sys2Proof/Tests/Slice0.lean ====
section
/-! SUPPORT. Tests: ill-formed terms that WellFormed refuses, words of the spec's encoding tables that decode, single
instructions with results from the spec's rules, and for every statement of Certificates/Slice0 a witness of its
hypotheses. -/
set_option Elab.async false
namespace Sys2Proof.Tests
open Sys2Proof Sys2Proof.Machine Sys2Proof.Claim

/-! ### A small state -/

/-- The record of a transition of priority `prio`: input and output arcs as words, then a body. -/
def record (prio : Nat) (ins outs : List Nat) (body : List W32) : List Byte :=
  toBytes 8 (ins.length * 2 ^ 58 + outs.length * 2 ^ 52 + prio * 2 ^ 49 + body.length * 2 ^ 40)
    ++ (ins ++ outs ++ (if (ins ++ outs).length % 2 = 1 then [0] else [])).flatMap (toBytes 2) ++ bodyOf body

/-- A context of net instance 1, address space 5, with one firing of a transition whose body is one `nop`. -/
def ctx0 : Ctx :=
  { valid := true, asid := 5, net := 1
    trans := [(0, { loaded := true, armed := true, record := record 3 [] [] [word0 0 0x21 5 0 0 0 0] })]
    firings := [{}], nextId := 1 }

/-- Net instance 1 on sector 0: abstract cell 0 on cell 0, abstract cell 1 on cell 1. -/
def net0 : Net := { asid := 5, sectors := [0], map := [0, 1] }

/-- Cell 0 runs a context. -/
def withCtx (c : Ctx) : State :=
  { State.reset with
    mgmt := { held := false }
    cells := [(0, { run := c })]
    sectors := [(0, { use := .running 1 })]
    nets := [(1, net0)] }

def base : State := withCtx ctx0
/-- The firing of cell 0 changed. -/
def withMe (f : Firing) : State := withCtx { ctx0 with firings := [f] }
/-- Its general registers given. -/
def withG (g : Tbl W64) : State := withMe { regs := { g := g } }

theorem runs_base : base.Runs := ⟨rfl, List.pairwise_singleton _ _⟩
theorem runs_me (f : Firing) (hi : f.id = 0) (he : f.ended = false) : (withMe f).Runs := by
  refine ⟨?_, List.pairwise_singleton _ _⟩
  simp [State.live, withMe, withCtx, State.reset, State.ctx, State.cellAt, Tbl.get, Tbl.find, firingOf, hi, he]
theorem runs_g (g : Tbl W64) : (withG g).Runs := runs_me _ rfl rfl
theorem runs1 {s : State} {f : Firing} (h : s.live = true) (hf : s.ctx.firings = [f]) : s.Runs :=
  ⟨h, by rw [Ordered, hf]; exact List.pairwise_singleton _ _⟩
/-- What an instruction leaves behind. -/
def after (i : Instr) (s : State) : State :=
  match exec i s with
  | .next t => t
  | _ => s

/-! ### Ill-formed terms (R118 to R124, R141, R171, R174, R212, R409) -/

/-- The wave word of the first instruction of a chain: OWN 1, PRED 0xFF, SUCC 2, a path. -/
def wave (path : BitVec 3) : Wave := ⟨1, 0xFF, 2, 0, false, false, path⟩
/-- Its word. -/
def waveW (path : BitVec 3) : W32 := waveWord 1 0xFF 2 0 0 0 path
/-- A V word with selectors 1, 2, 3 and a type. -/
def vop (ty : BitVec 4) : VOp := ⟨1, 2, 3, ty, 0, false, 0, 0⟩

theorem test_wf_accepts : (Instr.emit true 5 7 9 0 0xFFF).wf && (Instr.ld 7 0 0 false 0 (wave 3)).wf
    && (Instr.vadd (vop 8) true).wf && (Instr.bar 0 1 (wave 0)).wf && (Instr.ladRung 1 0 23 0 0 (wave 0)).wf = true := by decide
/-- SCOPE without REL. -/
theorem test_wf_emit_scope : (Instr.emit false 1 7 9 0 0xFFF).wf = false := by decide
/-- SCOPE above 0b101. -/
theorem test_wf_emitW_scope : (Instr.emitW true 6 7 9 0xFFF).wf = false := by decide
/-- A literal count beside a count register. -/
theorem test_wf_emit_count : (Instr.emit false 0 7 9 1 0xFFF).wf = false := by decide
theorem test_wf_mset_count : (Instr.mset 7 9 1).wf = false := by decide
/-- An unassigned control register. -/
theorem test_wf_csr : (Instr.csrr 1 5 false).wf || (Instr.csrw 0 1 0x102).wf || (Instr.csrs 0 1 0xFF).wf || (Instr.csrc 0 1 6).wf = false := by
  decide
/-- A type code outside the row's range. -/
theorem test_wf_load_type : (Instr.ld 0 1 2 false 0 (wave 1)).wf || (Instr.ldx 8 1 2 3 false 0 (wave 1)).wf = false := by decide
theorem test_wf_store_type : (Instr.st 5 1 2 0 (wave 1)).wf || (Instr.stx 0 1 2 3 0 (wave 1)).wf = false := by decide
/-- SCOPE where ACQ and REL are 0. -/
theorem test_wf_wave_flags : (Instr.vld 1 2 0 { wave 1 with scope := 1 }).wf = false := by decide
/-- OWN 0xFE, and SCOPE 0b110. -/
theorem test_wf_wave_range : (Instr.vst 1 2 0 { wave 1 with own := 0xFE }).wf
    || (Instr.vst 1 2 0 { wave 1 with scope := 6, acq := true }).wf = false := by decide
/-- A path that the row does not allow. -/
theorem test_wf_path : (Instr.ld 1 1 2 false 0 (wave 4)).wf || (Instr.ldh 1 2 3 false 0 (wave 1)).wf || (Instr.drain (wave 0)).wf
    || (Instr.sigAdd 0 1 2 0 (wave 2)).wf || (Instr.mxLds 0 1 2 0 0 false 0 (wave 2)).wf || (Instr.dlMerge 0 1 2 0 false 0 (wave 1)).wf
    || (Instr.qCnt 1 2 false (wave 0)).wf = false := by decide
/-- ACQ in a fence. -/
theorem test_wf_fence : (Instr.fenceAcq { wave 0 with acq := true }).wf || (Instr.bar 0 1 { wave 0 with rel := true }).wf = false := by decide
/-- A barrier of no party, of a scope above 3, and of more than one party at SCOPE 0. -/
theorem test_wf_bar : (Instr.bar 0 0 (wave 0)).wf || (Instr.bar 0 1 { wave 0 with scope := 4 }).wf || (Instr.bar 0 2 (wave 0)).wf = false := by
  decide
/-- Slots of no unit, and a base off a 64-byte boundary. -/
theorem test_wf_ring : (Instr.ringInit 1 2 0 0 0 0 (wave 0)).wf || (Instr.ringInit 1 2 1 0 32 0 (wave 0)).wf = false := by decide
/-- K above 96, a reserved type, a mode above 5. -/
theorem test_wf_matrix : (Instr.mxMul 0 1 2 0 96 0 false false false 0 (wave 1)).wf
    || (Instr.mxCfg 0 15 1 true false 0 0 (wave 0)).wf || (Instr.nzCfg 0 0 6 (wave 0)).wf = false := by decide
/-- Mode 0b11, 25 rungs, rung 24. -/
theorem test_wf_ladder : (Instr.ladInit 0 1 3 0 0 0 (wave 0)).wf || (Instr.ladInit 0 1 0 24 0 0 (wave 0)).wf
    || (Instr.ladRung 1 0 24 2 0 (wave 0)).wf = false := by decide
/-- Register operands past g31, and a sector register beside the local path. -/
theorem test_wf_queue : (Instr.qPushReg 25 0 (wave 1)).wf || (Instr.qPopReg 25 0 false (wave 1)).wf
    || (Instr.qPushBank 1 2 0 (wave 1)).wf = false := by decide
/-- A selector, RND, SAT, CHAIN or IMM that the entry does not use. -/
theorem test_wf_vector_unused : (Instr.vabs (vop 8) false).wf || (Instr.vand { vop 1 with rnd := 1 } false).wf
    || (Instr.vcmpEq { vop 1 with sat := true } false).wf || (Instr.vadd { vop 8 with chain := 1 } false).wf
    || (Instr.vadd { vop 8 with imm := 1 } false).wf || (Instr.vsel { vop 1 with imm := 16 } false).wf
    || (Instr.vbcast 1 (vop 8)).wf || (Instr.vshuf { vop 1 with imm := 1 }).wf = false := by decide
/-- A type that the entry does not list, RND 0b110, and RND with an integer type. -/
theorem test_wf_vector_types : (Instr.vadd (vop 13) false).wf || (Instr.vand (vop 8) false).wf || (Instr.vaddc 1 (vop 3) false).wf
    || (Instr.vcvt { vop 15 with shB := 0 } false).wf || (Instr.vdot (vop 4) false).wf || (Instr.vqnt { vop 8 with shB := 0 }).wf
    || (Instr.vexp2 { vop 11 with shB := 0 } false).wf || (Instr.vadd { vop 8 with rnd := 6 } false).wf
    || (Instr.vadd { vop 2 with rnd := 1 } false).wf || (Instr.vmulc (vop 7) false).wf || (Instr.vshuf (vop 14)).wf
    || (Instr.vscale 1 { vop 7 with shB := 0 } false).wf || (Instr.vdq { vop 11 with shB := 0 }).wf = false := by decide

/-! ### Words from the encoding tables, one for each OP (R117, R119, R138 and the rule of each table) -/

theorem test_decode_00 : decode [word0 0b00 0x00 0x06 3 1 2 1] = .ok (.divz 3 1 2 true, 1) := rfl
theorem test_decode_01 : decode [word0 0b01 0x01 0x08 3 1 0 0, 63] = .ok (.srai 3 1 63 false, 2) := rfl
theorem test_decode_20 : decode [word0 0b01 0x20 0x02 3 0 0 1, tokenWord 200 0 0xFFF] = .ok (.take 3 200 true, 2) := rfl
theorem test_decode_21 : decode [word0 0b00 0x21 0x04 0 0b11111 0b00001 0] = .ok (.trap 0b1111100001, 1) := rfl
theorem test_decode_22 : decode [word0 0b01 0x22 0x02 3 4 0 0, 0x101] = .ok (.csrw 3 4 0x101, 2) := rfl
theorem test_decode_40 : decode [word0 0b10 0x40 0x07 3 4 0 0, 0xFFFFFFF8, waveW 1] = .ok (.ld 7 3 4 false 0xFFFFFFF8 (wave 1), 3) := rfl
theorem test_decode_41 : decode [word0 0b10 0x41 0x04 3 4 0 0, 8, waveW 2] = .ok (.st 4 3 4 8 (wave 2), 3) := rfl
theorem test_decode_42 : decode [word0 0b10 0x42 0x01 0b00111 4 0 0, 64, waveW 0] = .ok (.vst 7 4 64 (wave 0), 3) := rfl
theorem test_decode_43 : decode [word0 0b10 0x43 0x01 3 4 5 1, 8, waveW 3] = .ok (.ldx 1 3 4 5 true 8 (wave 3), 3) := rfl
theorem test_decode_44 : decode [word0 0b10 0x44 0x03 3 4 5 0, 8, waveW 1] = .ok (.stx 3 3 4 5 8 (wave 1), 3) := rfl
theorem test_decode_45 : decode [word0 0b10 0x45 0x00 3 4 5 1, 8, waveW 4] = .ok (.ldh 3 4 5 true 8 (wave 4), 3) := rfl
theorem test_decode_60 : decode [word0 0b10 0x60 0x13 3 4 5 1, 8, waveW 1] = .ok (.acas true 3 4 5 true 8 (wave 1), 3) := rfl
theorem test_decode_61 : decode [word0 0b10 0x61 0x03 0 0 0 0, (0 : BitVec 8) ++ (2 : BitVec 12) ++ (0 : BitVec 8) ++ 0xF#4, waveWord 1 0xFF 2 3 0 0 0]
    = .ok (.bar 15 2 { wave 0 with scope := 3 }, 3) := rfl
theorem test_decode_62 : decode [word0 0b11 0x62 0x03 3 4 5 0, 8, waveW 0, 1] = .ok (.ringAwaitFree 3 4 5 8 (wave 0), 4) := rfl
theorem test_decode_80 : decode [word0 0b01 0x80 0x00 0 0 0 1, vectorWord 1 2 3 8 0 0 0 0] = .ok (.vadd (vop 8) true, 2) := rfl
theorem test_decode_81 : decode [word0 0b01 0x81 0x00 0 0 0 0, vectorWord 1 2 3 8 0 0 0 15] = .ok (.vsel { vop 8 with imm := 15 } false, 2) := rfl
theorem test_decode_82 : decode [word0 0b01 0x82 0x05 0 0 0 0, vectorWord 1 2 3 12 0 0 0 0] = .ok (.vcmpGe (vop 12) false, 2) := rfl
theorem test_decode_83 : decode [word0 0b01 0x83 0x04 0 0 0 0, vectorWord 1 2 0 8 0 0 0 0] = .ok (.vscanMax { vop 8 with shB := 0 } false, 2) := rfl
theorem test_decode_84 : decode [word0 0b01 0x84 0x02 0 4 0 0, vectorWord 1 0 0 8 0 0 0 0] = .ok (.vbcast 4 { vop 8 with shA := 0, shB := 0 }, 2) := rfl
theorem test_decode_85 : decode [word0 0b01 0x85 0x02 0 0 0 0, vectorWord 1 2 3 7 0 0 8 0] = .ok (.vmulc { vop 7 with chain := 8 } false, 2) := rfl
theorem test_decode_A0 : decode [word0 0b01 0xA0 0x04 0 0 0 0, vectorWord 1 2 0 13 2 1 0 10] = .ok (.vqnt ⟨1, 2, 0, 13, 2, true, 0, 10⟩, 2) := rfl
theorem test_decode_A1 : decode [word0 0b01 0xA1 0x08 0 0 0 1, vectorWord 1 2 0 9 1 0 0 0] = .ok (.vgelu ⟨1, 2, 0, 9, 1, false, 0, 0⟩ true, 2) := rfl
theorem test_decode_C0 : decode [word0 0b11 0xC0 0x00 6 4 5 0, 8, waveW 1, 95#7 ++ 127#7 ++ 1#1 ++ (0 : BitVec 17)]
    = .ok (.mxLds 6 4 5 95 127 true 8 (wave 1), 4) := rfl
theorem test_decode_C1 : decode [word0 0b00 0xC1 0x00 0 0 0 0] = .ok (.mxSwap, 1) := rfl
theorem test_decode_C2 : decode [word0 0b11 0xC2 0x01 6 4 0 0, 8, waveW 0, 1] = .ok (.dlPost 6 4 true 8 (wave 0), 4) := rfl
theorem test_decode_C3 : decode [word0 0b01 0xC3 0x00 6 4 0 1, 0xFFFFF] = .ok (.khNew 6 4 0xFFFFF true, 2) := rfl
theorem test_decode_E0 : decode [word0 0b11 0xE0 0x04 6 4 0 0, 8, waveW 0, 7#3 ++ 23#5 ++ (0 : BitVec 24)] = .ok (.ladRung 6 7 23 4 8 (wave 0), 4) := rfl
theorem test_decode_E1 : decode [word0 0b01 0xE1 0x03 6 4 0 1, 0] = .ok (.futWaitReg 6 4 true, 2) := rfl
theorem test_decode_E2 : decode [word0 0b11 0xE2 0x01 6 4 0 0, 8, waveW 0, 0] = .ok (.tskSubDesc 6 4 8 (wave 0), 4) := rfl
theorem test_decode_E3 : decode [word0 0b10 0xE3 0x01 0 4 5 0, 8, waveW 2] = .ok (.qPushBank 4 5 8 (wave 2), 3) := rfl
theorem test_decode_E4 : decode [word0 0b00 0xE4 0x01 6 4 0 0] = .ok (.pwrRel 6 4, 1) := rfl
/-- Reserved bits, a wrong LEN, an S that the map does not allow, and an unassigned FN or OP are refused. -/
theorem test_decode_refuses :
    (decode [word0 0b11 0x62 0x03 3 4 5 0, 8, waveW 0, 2]).toOption = none
    ∧ (decode [word0 0b01 0x00 0x06 3 1 2 1, 0]).toOption = none
    ∧ (decode [word0 0b10 0x41 0x04 3 4 0 1, 8, waveW 2]).toOption = none
    ∧ (decode [word0 0b00 0x00 0x1E 3 1 2 0]).toOption = none
    ∧ (decode [word0 0b00 0x02 0x00 3 1 2 0]).toOption = none
    ∧ (decode [word0 0b10 0x40 0x07 3 4 0 0, 8]).toOption = none := ⟨rfl, rfl, rfl, rfl, rfl, rfl⟩
/-- A word of the opcode table is what `step` runs next. -/
theorem test_fetch : decodeTableWord 32 (word0 0b00 0x21 0x04 0 0 3 0).toNat = some (.trap 3)
    ∧ step (State.reset.withFetchWord 32 (word0 0b00 0x21 0x05 0 0 0 0).toNat)
      = exec .nop (({ (State.reset.withFetchWord 32 (word0 0b00 0x21 0x05 0 0 0 0).toNat).remember with agenda := [] }.focus 0 0).order .nop) := ⟨rfl, rfl⟩

/-! ### Witnesses: scalar instructions, net control, faults -/

theorem wit_RegisterInstructionsWriteTheirResult :
    (∃ f, formAlu (.add 0 31 31 true) = some f) ∧ (∃ f, formAlu (.mov 31 1 false) = some f)
    ∧ (∃ f, formBits (.rol 31 1 2 true) = some f) ∧ (∃ f, formBits (.sext 1 2 31 false) = some f) ∧ base.Runs :=
  ⟨⟨_, rfl⟩, ⟨_, rfl⟩, ⟨_, rfl⟩, ⟨_, rfl⟩, runs_base⟩
theorem wit_DivisionNeverFaults : (∃ f, formDiv (.div 1 2 0 true) = some f) ∧ (∃ f, formDiv (.remz 0 2 3 false) = some f) ∧ base.Runs :=
  ⟨⟨_, rfl⟩, ⟨_, rfl⟩, runs_base⟩
theorem wit_FieldsAreTakenAndReplaced : (∃ f, formField (.bext 1 2 3 true) = some f) ∧ (∃ f, formField (.bins 1 2 3 false) = some f) ∧ base.Runs :=
  ⟨⟨_, rfl⟩, ⟨_, rfl⟩, runs_base⟩
theorem wit_ImmediatesWriteTheirResult : (∃ f, formImm (.li 1 0x80000000 true) = some f) ∧ (∃ f, formImm (.srai 1 2 63 false) = some f) ∧ base.Runs :=
  ⟨⟨_, rfl⟩, ⟨_, rfl⟩, runs_base⟩
/-- The second copy of the template whose first copy is abstract cell 1: cell 2 runs it. -/
def copied : State :=
  { base with cell := 2, cells := [(2, { run := ctx0 })]
              nets := [(1, { net0 with insts := [⟨0, 0, [1], none, true⟩, ⟨0, 1, [2], none, true⟩] })] }
theorem wit_AddrPlacesAnAbstractCell :
    (base.Runs ∧ Tbl.find base.nets base.ctx.net = some net0 ∧ net0.map.length ≤ 2)
    ∧ ∃ n i j, copied.Runs ∧ Tbl.find copied.nets copied.ctx.net = some n ∧ n.instOf copied.cell = some i
      ∧ n.insts.find? (fun x => x.tmpl == i.tmpl && x.inst == 0) = some j ∧ j.cells.Nodup ∧ i.cells.length = j.cells.length
      ∧ 0 < j.cells.length ∧ n.map[1]? = j.cells[0]? :=
  ⟨⟨runs_base, rfl, by decide⟩, _, _, _, runs1 rfl rfl, rfl, rfl, rfl, by decide, rfl, by decide, rfl⟩
theorem wit_PlacesAndControlRegistersAreRead :
    (let s := withMe { inbuf := [(3, 8), (2, 7), (2, 6)] }
     s.Runs ∧ s.me.inbuf = [(3, 8)] ++ (((2 : Byte).toNat, 7) :: [(2, 6)]) ∧ ∀ e ∈ [((3 : Nat), (8 : W64))], e.1 ≠ (2 : Byte).toNat)
    ∧ base.Runs ∧ (4 : BitVec 9).toNat ≤ 4 := ⟨⟨runs_me _ rfl rfl, rfl, by decide⟩, runs_base, by decide⟩
theorem wit_ActionsAreHeldOrSent :
    base.Runs ∧ Local base 0xFFF ∧ Local base 0 ∧ countIn base 0 4095 ≤ 4095
    ∧ base.resolve base.cell base.ctx.net (1 : BitVec 12).toNat = some 1 ∧ 1 ≠ base.cell ∧ base.outside 1 = false :=
  ⟨runs_base, rfl, rfl, by decide, rfl, by decide, rfl⟩
theorem wit_ChoiceAndMarkersComplete : base.Runs ∧ (base.readG 0 + (0xFFF8 : W32).signExtend 64).toNat % 2 ^ 16 ≤ 0xFFF8 := ⟨runs_base, by decide⟩
theorem wit_ControlRegistersAreWritten : base.Runs ∧ (1 : BitVec 9).toNat ≤ 1 ∧ (0 : BitVec 9).toNat ≤ 1 := ⟨runs_base, by decide, by decide⟩
theorem wit_FaultRecordHoldsItsFields : (7 < 8) ∧ ({ cls := 255, cause := 255 } : Hit).cls < 256 ∧ ({ cls := 255, cause := 255 } : Hit).cause < 256 := by
  decide
/-- Net instance 1 declares place `p` of abstract cell 0 as its fault place; the clock has one fault of firing 0 of cell 0. -/
def faulty (ps : Tbl Place) (p : Option (Nat × Nat)) (f : Flt) : State :=
  { withCtx { ctx0 with places := ps } with nets := [(1, { net0 with fplace := p })], due := [f] }
def fault0 (cls : Nat) : Flt := { hit := { cls := cls }, iss := { net := 1 } }
theorem wit_TrapEndsItsFiring :
    base.Runs
    ∧ (let s := faulty [(9, { kind := 1, count := 4094 })] (some (0, 9)) (fault0 0x14)
       s.due = [fault0 0x14] ∧ (fault0 0x14).delivery = .token ∧ Takes s (faultPlace s 1))
    ∧ (let s := faulty [(9, { kind := 1, count := 4095 })] (some (0, 9)) (fault0 0x14)
       ¬ Takes s (faultPlace s 1) ∧ (Tbl.find s.nets 1).isSome = true)
    ∧ ¬ Takes (faulty [] none (fault0 0x14)) (faultPlace (faulty [] none (fault0 0x14)) 1)
    ∧ (fault0 0x13).delivery = .freeze ∧ (fault0 0x15).delivery = .neither := by
  refine ⟨runs_base, ⟨rfl, rfl, rfl, by decide⟩, ⟨?_, rfl⟩, ?_, rfl, rfl⟩
  · rintro ⟨-, h⟩
    exact absurd h (by decide)
  · exact id
theorem wit_InconsistentWaveRaises0A :
    base.Runs ∧ (Instr.fenceFull { wave 0 with pred := 0 }).wave = some { wave 0 with pred := 0 } ∧ ¬ Consistent { wave 0 with pred := 0 } base.ctx.wave := by
  refine ⟨runs_base, rfl, ?_⟩
  rintro (h | ⟨h, -⟩ | ⟨o, c, h, -⟩) <;> cases h
/-- A cell whose last wave word was OWN 1, SUCC 2. -/
def waved : State := withCtx { ctx0 with wave := some (1, 2) }
theorem runs_waved : waved.Runs := ⟨rfl, List.pairwise_singleton _ _⟩
theorem wit_FencesAndBarriersComplete :
    base.Runs ∧ Consistent (wave 0) base.ctx.wave ∧ Consistent { wave 0 with pred := 0xFE } base.ctx.wave
    ∧ waved.Runs ∧ Consistent ⟨2, 1, 3, 0, false, false, 0⟩ waved.ctx.wave :=
  ⟨runs_base, .inr (.inl ⟨rfl, .inl rfl⟩), .inl rfl, runs_waved, .inr (.inr ⟨1, 2, rfl, rfl, .inl rfl⟩)⟩
theorem wit_NetControlRaisesItsClasses :
    let s := withG [(1, 4096), (2, 0xFFF9)]
    s.Runs ∧ 4095 < countIn s 1 0 ∧ 0xFFF8 < (s.readG 2 + (0 : W32).signExtend 64).toNat % 2 ^ 16 ∧ s.prio ≠ 7
    ∧ 5 ≤ (5 : BitVec 9).toNat ∧ 2 ≤ (2 : BitVec 9).toNat := ⟨runs_g _, by decide, by decide, by decide, by decide, by decide⟩

/-! ### Witnesses: selection, deposit, arrivals, net instances -/

/-- A transition with one token from place 0, enabled since clock 0, of a cell with no firing. -/
def trans0 : Trans := { loaded := true, armed := true, since := some 0, record := record 3 [0x0010] [0x0110] [word0 0 0x21 5 0 0 0 0] }
def ready0 : State := withCtx { ctx0 with trans := [(0, trans0)], firings := [], places := [(0, { kind := 1, count := 1 }), (1, { kind := 1 })] }
theorem wit_SelectionReserves : ready0.canSelect 0 = true ∧ Wins (ready0.cellAt 0).run 0 trans0 := by
  refine ⟨by decide, ⟨?_, rfl, by decide⟩, rfl, .inl rfl, ?_⟩
  · exact List.mem_singleton.mpr rfl
  · rintro u y ⟨h, -⟩ hu
    obtain ⟨rfl, -⟩ := Prod.mk.inj (List.mem_singleton.mp h)
    exact absurd rfl hu
/-- A firing at the end of its body that holds a token and a word, and `halt`. -/
def done0 : State := withCtx
  { ctx0 with
    places := [(0, { kind := 1, count := 4094 }), (1, { kind := 2, words := [5] }), (2, { kind := 2, words := [1, 2, 3] })]
    firings := [{ woff := 1, halt := true, held := [.tokens 0 1, .word 1 7, .word 2 9] }] }
theorem wit_DepositFollowsTheOrder :
    Ordered (done0.cellAt 0).run.firings ∧ (done0.focus 0 0).bodyDone = true ∧ (done0.focus 0 0).clockDone = true
    ∧ (done0.cellAt 0).run.took ≠ done0.clock + 1 ∧ (done0.cellAt 0).run.gave ≠ done0.clock + 1 ∧ (done0.focus 0 0).me.cfg = none
    ∧ ((done0.cellAt 0).run.place 0).kind = 1
    ∧ ((done0.cellAt 0).run.place 2).kind = 2 ∧ ((done0.cellAt 0).run.place 2).entry = []
    ∧ ((done0.cellAt 0).run.place 2).all.length + (heldWords 2 (done0.focus 0 0).me.held).length ≤ ((done0.cellAt 0).run.place 2).cap
    ∧ (done0.focus 0 0).me.halt = true ∧ Tbl.find done0.nets (done0.cellAt 0).run.net = some net0 := by
  exact ⟨List.pairwise_singleton _ _, by decide, by decide, by decide, by decide, rfl, rfl, rfl, rfl, by decide, rfl, rfl⟩
/-- Flights to cell 0 that may arrive at clock 2. -/
def flying (fs : List Flight) (ps : Tbl Place) : State := { withCtx { ctx0 with places := ps } with flights := fs, clock := 2 }
def flightOf (index : Nat) (x : Cargo) : Flight := ⟨2 ^ 32, 0, index, x, 1, 0, false, false, none⟩
theorem wit_ArrivalsJoinTheirPlaces :
    let f := flightOf 3 (.tokens 1)
    let s := flying [f] [(3, { kind := 1, count := 4094 })]
    let g := flightOf 3 (.arm false)
    let h := flightOf 3 (.word 9)
    let q : Place := { kind := 2, words := [1, 2, 3] }
    let full : Place := { kind := 2, words := [1, 2, 3, 4] }
    (Arriving s 0 0 f ∧ InTurn s 0 f ∧ f.cargo = .tokens 1 ∧ (((s.cellAt f.dst).slotCtx 0).place f.index).kind = 1
      ∧ (((s.cellAt f.dst).slotCtx 0).place f.index).count + 1 ≤ 4095)
    ∧ Arriving (flying [g] []) 0 0 g
    ∧ (Arriving (flying [h] [(3, q)]) 0 0 h ∧ InTurn (flying [h] [(3, q)]) 0 h ∧ q.kind = 2 ∧ q.took ≠ (flying [h] [(3, q)]).clock + 1 ∧ q.all.length < q.cap ∧ q.entry = [])
    ∧ (Arriving (flying [h] [(3, full)]) 0 0 h ∧ full.kind = 2 ∧ ¬ (full.all.length < full.cap ∧ full.entry = []))
    ∧ ((flying [{ h with held := true }] [(3, q)]).flights[0]? = some { h with held := true }
      ∧ ((flying [{ h with held := true }] [(3, q)]).cellAt h.dst).slotFor h.net = some 0)
    ∧ ((((flying [] [(3, { q with entry := [8] })]).cellAt 0).run.place 3).entry = [8]
      ∧ (((flying [] [(3, { q with entry := [8] })]).cellAt 0).run.place 3).all.length < 4) := by
  refine ⟨⟨⟨rfl, by decide, rfl⟩, .inl (by decide), rfl, rfl, by decide⟩, ⟨rfl, by decide, rfl⟩,
    ⟨⟨rfl, by decide, rfl⟩, .inl (by decide), rfl, by decide, by decide, rfl⟩,
    ⟨⟨rfl, by decide, rfl⟩, rfl, by decide⟩, ⟨rfl, rfl⟩, rfl, by decide⟩
theorem wit_NetInstancesCompleteAndAreScrubbed :
    let n := { net0 with halted := some 0 }
    let s := { withCtx { ctx0 with firings := [] } with nets := [(1, n)], clock := 1 }
    let d := { net0 with done := true }
    (Tbl.find s.nets 1 = some n ∧ notPast s.clock n.halted = false ∧ n.done = false ∧ s.netBusy 1 = false
      ∧ s.commandsOpen (fun i => i.net == 1) = false)
    ∧ Tbl.find { s with nets := [(1, d)] }.nets 1 = some d ∧ d.done = true := by decide

/-! ### A state with a mapping: pages of 2 MiB at virtual address 0 (R99 to R103), one handle (R108) -/

theorem ok_of {α β ε : Type} (p : α × Except ε β) (h : p.2.toBool = true) : ∃ a b, p = (a, .ok b) := by
  obtain ⟨a, x⟩ := p
  cases x with
  | ok b => exact ⟨a, b, rfl⟩
  | error e => simp [Except.toBool] at h
theorem ok2_of {α β γ ε : Type} (p : α × Except ε (β × γ)) (h : p.2.toBool = true) : ∃ a b c, p = (a, .ok (b, c)) := by
  obtain ⟨a, ⟨b, c⟩, h⟩ := ok_of p h
  exact ⟨a, b, c, h⟩
theorem error_of {α β ε : Type} (p : α × Except ε β) (h : p.2.toBool = false) : ∃ a e, p = (a, .error e) := by
  obtain ⟨a, x⟩ := p
  cases x with
  | ok b => simp [Except.toBool] at h
  | error e => exact ⟨a, e, rfl⟩

/-- Levels 0 to 2 as tables at 0x1000, 0x2000, 0x3000, a leaf at 0x4000, the ASID array at 0x8000 with an entry for 5 and
VM 1, the handle table's entry 0 at 0x9000, a block table at 0x18000. -/
def tables : Mem :=
  [(0x1001, 0x20), (0x1007, 0x80), (0x2001, 0x30), (0x2007, 0x80), (0x3001, 0x40), (0x3007, 0x80), (0x4007, 0xF0),
   (0x8029, 0x10), (0x802F, 0x82), (0x9000, 8), (0x9004, 64), (0x9009, 0x80), (0x900A, 1), (0x9012, 2), (0x901C, 2), (0x901E, 5),
   (0x901F, 0x80), (0x18003, 0x90)]
/-- HOME 0, VM 1, the first 2 MiB, readable and writable. -/
def range0 : BitVec 128 := BitVec.ofNat 128 (2 ^ 127 + 2 ^ 126 + 2 ^ 125 + 2 ^ 115)
def mapped (s : State) : State :=
  { s with mem := tables, range := [(0, range0)], owners := [(0, { asidbase := 0x8000 })], htbase := 0x9000, htlen := 1 }
def virt (g : Tbl W64) : State := mapped (withG g)
theorem runs_virt (g : Tbl W64) : (virt g).Runs := runs_g g

/-! ### Witnesses: memory -/

theorem portFree_of {s : State} (h : (s.sectorAt (cellSector s.cell)).port.f.frozen = false)
    (hw : s.withheld (cellSector s.cell) = []) : portFree s :=
  ⟨h, by rw [hw]; exact fun _ h => nomatch h⟩

theorem cons_base : Consistent (wave 0) base.ctx.wave := .inr (.inl ⟨rfl, .inl rfl⟩)
theorem cons_first (w : Wave) (h : w.pred = 0xFF) (s : State) (hs : s.ctx.wave = none) : Consistent w s.ctx.wave := .inr (.inl ⟨h, .inl hs⟩)
theorem wit_OnChipAccessesComplete :
    let s := withG [(1, 0xFFF8), (2, 0xFFFF), (3, 1), (4, 0xFFC0), (5, cellAddr 1 |> BitVec.ofNat 64)]
    s.Runs ∧ Consistent (wave 0) s.ctx.wave ∧ onChip (wave 0) ∧ onChip (wave 1) ∧ onChip (wave 2)
    ∧ (lets s (wave 0) (at2 s 1 0) (accBytes 4) false ∧ s.isTake 0 (at2 s 1 0) (accBytes 4) = false)
    ∧ (lets s (wave 0) (at3 s (accBytes 1) 2 0 0) (accBytes 1) false ∧ lets s (wave 0) (at2 s 4 0) 64 false)
    ∧ (lets s (wave 2) (at2 s 5 0) 8 false ∧ s.isTake 2 (at2 s 5 0) 8 = false)
    ∧ (lets s (wave 0) (at2 s 1 0) (accBytes 4) true ∧ inBank s (wave 0) (at2 s 1 0))
    ∧ (lets s (wave 0) (at3 s (accBytes 1) 2 0 0) (accBytes 1) true ∧ inBank s (wave 0) (at3 s (accBytes 1) 2 0 0))
    ∧ lets s (wave 0) (at2 s 4 0) 64 true ∧ inBank s (wave 0) (at2 s 4 0) := by
  refine ⟨runs_g _, cons_first _ rfl _ rfl, ?_, ?_, ?_, ⟨rfl, rfl⟩, ⟨rfl, rfl⟩, ⟨rfl, rfl⟩, ⟨rfl, rfl⟩, ⟨rfl, rfl⟩, rfl, rfl⟩ <;> show _ ≤ 2 <;> decide
theorem wit_AddressSpaceAccessesComplete :
    let s := virt [(1, 0x1FFFF8), (2, 0x10000)]
    s.Runs ∧ Consistent (wave 3) s.ctx.wave ∧ portFree s
    ∧ (∃ s1 ps, (Claim.chained s (wave 3)).leavePort.pieces (Claim.chained s (wave 3)).issuer (at2 s 1 0) (accBytes 7) false (State.pieceFuel (accBytes 7)) = (s1, .ok ps))
    ∧ (∃ s1 ps, (Claim.chained s (wave 3)).leavePort.pieces (Claim.chained s (wave 3)).issuer (at3 s (accBytes 4) 2 0 0) (accBytes 4) false (State.pieceFuel (accBytes 4)) = (s1, .ok ps))
    ∧ (∃ s1 ps, (Claim.chained s (wave 3)).leavePort.pieces (Claim.chained s (wave 3)).issuer (at2 s 2 0) 64 false (State.pieceFuel 64) = (s1, .ok ps))
    ∧ (∃ s1 ps, (Claim.chained s (wave 3)).commit.leavePort.pieces (Claim.chained s (wave 3)).issuer (at2 s 1 0) (accBytes 4) true
        (State.pieceFuel (accBytes 4)) = (s1, .ok ps))
    ∧ (∃ s1 ps, (Claim.chained s (wave 3)).commit.leavePort.pieces (Claim.chained s (wave 3)).issuer (at3 s (accBytes 4) 2 0 0) (accBytes 4) true
        (State.pieceFuel (accBytes 4)) = (s1, .ok ps))
    ∧ (∃ s1 ps, (Claim.chained s (wave 3)).commit.leavePort.pieces (Claim.chained s (wave 3)).issuer (at2 s 2 0) 64 true (State.pieceFuel 64) = (s1, .ok ps)) :=
  ⟨runs_virt _, cons_first _ rfl _ rfl, portFree_of rfl rfl, ok_of _ (by decide), ok_of _ (by decide), ok_of _ (by decide), ok_of _ (by decide),
    ok_of _ (by decide), ok_of _ (by decide)⟩
/-- The bytes that a read gives; none where it fails. -/
def got {α : Type} (p : α × Except Hit (List Byte)) : List Byte :=
  match p.2 with
  | .ok b => b
  | .error _ => []
theorem got_of {α : Type} (p : α × Except Hit (List Byte)) (h : p.2.toBool = true) : p = (p.1, .ok (got p)) := by
  obtain ⟨a, x⟩ := p
  cases x with
  | ok b => rfl
  | error e => simp [Except.toBool] at h
theorem pair_of {α β : Type} (p : α × β) (b : β) (h : p.2 = b) : p = (p.1, b) := Prod.ext rfl h
/-- The pieces of memory that a translation gives; none where it fails. -/
def gotPieces {α : Type} (p : α × Except Hit (List (Nat × Nat × Bool))) : List (Nat × Nat × Bool) :=
  match p.2 with
  | .ok b => b
  | .error _ => []
theorem pieces_of {α : Type} (p : α × Except Hit (List (Nat × Nat × Bool))) (h : p.2.toBool = true) : p = (p.1, .ok (gotPieces p)) := by
  obtain ⟨a, x⟩ := p
  cases x with
  | ok b => rfl
  | error e => simp [Except.toBool] at h
/-- A handle of tenant 5 to entry 0 with bound 4; position 3 is in the first block. -/
def handle0 : W64 := BitVec.ofNat 64 (5 * 2 ^ 52 + 4)
theorem wit_HandleLoadsComplete :
    let s := virt [(1, handle0), (2, 3)]
    let w := wave 4
    ∃ s1 s2 s3 e bs ps, s.Runs ∧ Consistent w s.ctx.wave ∧ portFree s ∧ s.me.arg = none
      ∧ State.tenantHit s.ctx.asid (s.readG 1) (s.readG 2).toNat = none ∧ s.htPoison (s.readG 1) = none
      ∧ (Claim.chained s w).htRead (sectorSpan (cellSector s.cell)) (hIndex (s.readG 1)) = (s1, e)
      ∧ s1.handleHit (s.readG 1) (s.readG 2).toNat e = none
      ∧ s1.leavePort.loadVirt (btabAddr e (s.readG 2).toNat) 4 = (s2, .ok bs) ∧ btypeOk (BitVec.ofNat 32 (numberOf bs)) = true
      ∧ (0 : Int) ≤ (8 : W32).toInt ∧ (8 : W32).toInt + 8 ≤ (tokenBytes e : Int) ∧ tokenBytes e ≠ 0
      ∧ s2.pieces s2.issuer ((blockAddr e (BitVec.ofNat 32 (numberOf bs)) + (s.readG 2).toNat % 2 ^ entLbs e * tokenBytes e
          + (8 : W32).toNat) % 2 ^ 64) 8 false (State.pieceFuel 8) = (s3, .ok ps) := by
  refine ⟨_, _, _, _, _, _, runs_virt _, cons_first _ rfl _ rfl, portFree_of rfl rfl, rfl, ?_, ?_, (Prod.eta _).symm, ?_, got_of _ ?_, ?_, ?_, ?_, ?_,
    pieces_of _ ?_⟩ <;> decide +kernel
theorem noTask_base (f : Firing) : noTask (withMe f) := rfl
theorem wit_AtomicsComplete :
    let s := withG [(1, 0xFFF8), (2, 0x10000)]
    let v := mapped s
    (∃ n d a b sb off, atomOf (.aadd true 31 1 3 true 0 (wave 0)) = some (n, d, a, b, sb, off, wave 0) ∧ at2 s a off % n = 0)
    ∧ (∃ x, atomOf (.afaddF32 31 1 3 true 0 (wave 2)) = some x)
    ∧ s.Runs ∧ Consistent (wave 0) s.ctx.wave ∧ s.me.arg = none ∧ noTask s ∧ onChip (wave 0) ∧ inBank s (wave 0) (at2 s 1 0)
    ∧ lets s (wave 2) (at2 s 1 0) 8 true ∧ inBank s (wave 2) (at2 s 1 0)
    ∧ v.Runs ∧ noTask v ∧ portFree v ∧ at2 v 2 0 % 8 = 0 ∧ vaHome (at2 v 2 0) ≠ 9
    ∧ ∃ s1 dpa cc, (Claim.chained v (wave 3)).commit.leavePort.pieces (Claim.chained v (wave 3)).issuer (at2 v 2 0) 8 true (State.pieceFuel 8)
        = (s1, .ok [(dpa, 8, cc)]) := by
  exact ⟨⟨_, _, _, _, _, _, rfl, by decide⟩, ⟨_, rfl⟩, runs_g _, cons_first _ rfl _ rfl, rfl, rfl, by show _ ≤ 2; decide, rfl, rfl, rfl,
    runs_virt [(1, 0xFFF8), (2, 0x10000)], rfl, portFree_of rfl rfl, by decide, by decide, _, 0x10000, false, pair_of _ _ rfl⟩
theorem wit_AccessesRaiseTheirClasses :
    let s := withG [(1, 0xFFF9), (2, 4), (3, BitVec.ofNat 64 (63 * 2 ^ 32))]
    s.Runs ∧ Consistent (wave 0) s.ctx.wave ∧ onChip (wave 0) ∧ s.isTake 0 (at2 s 1 0) (accBytes 4) = false
    ∧ (∃ h, s.pathHit 0 (at2 s 1 0) (accBytes 4) false = some h) ∧ (∃ h, s.pathHit 0 (at2 s 1 0) (accBytes 4) true = some h)
    ∧ (∃ h, s.pathHit 2 (at2 s 3 0) (accBytes 4) false = some h ∧ h.cls = 3) ∧ s.isTake 2 (at2 s 3 0) (accBytes 4) = false
    ∧ (∃ a x y sb off, atomOf (.amin true 1 2 3 false 0 (wave 0)) = some (8, a, x, y, sb, off, wave 0) ∧ at2 s x off % 8 ≠ 0)
    ∧ s.me.arg = none ∧ noTask s :=
  ⟨runs_g _, cons_first _ rfl _ rfl, by show _ ≤ 2; decide, rfl, ⟨_, rfl⟩, ⟨_, rfl⟩, ⟨_, rfl, rfl⟩, rfl, ⟨_, _, _, _, _, rfl, by decide⟩, rfl, rfl⟩
/-- The class that an access meets; 0 where it meets none. -/
def missed {α β : Type} (p : α × Except Hit β) : Nat :=
  match p.2 with
  | .ok _ => 0
  | .error h => h.cls
theorem missed_of {α β : Type} (p : α × Except Hit β) (n : Nat) (h : missed p = n) (hn : n ≠ 0) : ∃ s h, p = (s, .error h) ∧ h.cls = n := by
  obtain ⟨a, x⟩ := p
  cases x with
  | ok b => exact absurd h.symm hn
  | error e => exact ⟨a, e, rfl, h⟩
def stuckPort (s : State) : State := { s with sectors := [(0, { use := .running 1, port := { f := { frozen := true, cls := 4 } } })] }
theorem wit_FailedTranslationsFreezeThePort :
    let s := virt [(1, 0x200000)]
    s.Runs ∧ Consistent (wave 3) s.ctx.wave ∧ portFree s
    ∧ (∃ s1 h, (Claim.chained s (wave 3)).leavePort.pieces (Claim.chained s (wave 3)).issuer (at2 s 1 0) (accBytes 4) false (State.pieceFuel (accBytes 4)) = (s1, .error h) ∧ h.cls = 4)
    ∧ (∃ s1 h, (Claim.chained s (wave 3)).commit.leavePort.pieces (Claim.chained s (wave 3)).issuer (at2 s 1 0) (accBytes 4) true (State.pieceFuel (accBytes 4)) = (s1, .error h) ∧ h.cls = 4)
    ∧ accessOf s (.ld 4 31 1 true 0 (wave 3)) = some (wave 3, at2 s 1 0, accBytes 4, false)
    ∧ accessOf s (.st 4 31 1 0 (wave 3)) = some (wave 3, at2 s 1 0, accBytes 4, true) ∧ s.me.arg = none ∧ noTask s
    ∧ (stuckPort s).Runs ∧ ¬ portFree (stuckPort s) :=
  ⟨runs_virt _, cons_first _ rfl _ rfl, portFree_of rfl rfl, missed_of _ 4 (by decide) (by decide), missed_of _ 4 (by decide) (by decide), rfl, rfl, rfl, rfl, runs_virt [(1, 0x200000)],
    fun h => Bool.noConfusion h.1⟩
/-- `wit_FencesAndBarriersComplete` for `bar`: the last arrival of a phase for which cell 1 waits, and an arrival before it. -/
theorem wit_BarriersComplete :
    let key := barKey 1 2 0 3
    let f : Firing := { wait := some (.bar 3 2 { wave 0 with scope := 2 }), arg := some 7 }
    let s : State := { base with cells := base.cells ++ [(1, { run := { ctx0 with firings := [f] } })], bars := [(key, { count := 1, n := 2, phase := 7 })] }
    s.Runs ∧ Consistent (wave 0) s.ctx.wave ∧ s.me.wait = none ∧ barKey s.ctx.net 2 s.cell 3 = key ∧ (s.barAt key).n ≤ (s.barAt key).count + 1
    ∧ (1 ≠ s.cell ∧ f ∈ (s.cellAt 1).run.firings ∧ barKey (s.cellAt 1).run.net 2 1 3 = key)
    ∧ (base.barAt key).count = 0 ∧ (base.barAt key).count + 1 < (2 : BitVec 12).toNat :=
  ⟨runs1 rfl rfl, cons_first _ rfl _ rfl, rfl, rfl, by decide, ⟨by decide, List.mem_singleton.mpr rfl, rfl⟩, rfl, by decide⟩
/-- A firing that waits in a take of the block cache of sector 0. -/
def taking (bs : List (BitVec 28)) : State :=
  { withMe { wait := some (.ld 4 31 1 true 0 (wave 2)), addr := 52 * 2 ^ 32 + 0x510048 } with
    sectors := [(0, { use := .running 1, blocks := bs })] }
theorem wit_BlockTakesAreServed :
    ((taking [7, 8, 9]).focus 0 0).Runs ∧ takes ((taking [7, 8, 9]).focus 0 0) 4 31 true
    ∧ ((taking [7, 8, 9]).sectorAt (faSector ((taking [7, 8, 9]).focus 0 0).me.addr)).added ≠ (taking [7, 8, 9]).clock + 1
    ∧ ((taking [7, 8, 9]).sectorAt (faSector ((taking [7, 8, 9]).focus 0 0).me.addr)).blocks = 7 :: [8, 9] ∧ [8, 9].length < 4
    ∧ ((taking []).focus 0 0).Runs ∧ takes ((taking []).focus 0 0) 4 31 true
    ∧ ((taking []).sectorAt (faSector ((taking []).focus 0 0).me.addr)).blocks = [] :=
  ⟨runs1 rfl rfl, ⟨wave 2, .inr rfl, .inl ⟨1, 0, rfl⟩, by decide⟩, by decide, rfl, by decide, runs1 rfl rfl, ⟨wave 2, .inr rfl, .inl ⟨1, 0, rfl⟩, by decide⟩, rfl⟩
theorem wit_WaitingFiringsGoOn :
    let i : Instr := .ld 4 31 0 true 0x10000 (wave 3)
    let s := mapped (withMe { wait := some i })
    let b : Instr := .bar 3 2 (wave 0)
    ((s.focus 0 0).Runs ∧ (s.focus 0 0).released = some i ∧ portFree (s.focus 0 0)
      ∧ ∃ s1 ps, ((s.focus 0 0).order i).leavePort.pieces ((s.focus 0 0).order i).issuer (at2 ((s.focus 0 0).order i) 0 0x10000) 8 false (State.pieceFuel 8) = (s1, .ok ps))
    ∧ (((withMe { wait := some (.fenceRel (wave 0)) }).focus 0 0).Runs
      ∧ ((withMe { wait := some (.fenceRel (wave 0)) }).focus 0 0).released = some (.fenceRel (wave 0)))
    ∧ ((withMe { wait := some b, arg := some 6 }).focus 0 0).Runs
    ∧ ((withMe { wait := some b, arg := some 6 }).focus 0 0).released = some b
    ∧ ((withMe { wait := some b, arg := some 6 }).barAt (barKey 1 0 0 3)).phase ≠ 6 :=
  ⟨⟨runs1 rfl rfl, rfl, portFree_of rfl rfl, ok_of _ (by decide)⟩, ⟨runs1 rfl rfl, rfl⟩, runs1 rfl rfl, rfl, by decide⟩

/-! ### Witnesses: engine commands -/

def bankOf (at' : Nat) (bs : List Byte) : Mem := Mem.store [] at' bs
def bytesOf (ws : List Nat) : List Byte := ws.flatMap (toBytes 8)
/-- Registers, and bytes in the banks. -/
def withBank (g : Tbl W64) (at' : Nat) (bs : List Byte) : State := { withG g with banks := bankOf at' bs }
theorem ready1 {s : State} {f : Firing} {w : Wave} (h : s.live = true) (hf : s.ctx.firings = [f]) (hw : s.ctx.wave = none)
    (hp : w.pred = 0xFF) (ha : s.me.arg = none) (hi : s.me.wait = none) (ht : noTask s) : Ready s w :=
  ⟨runs1 h hf, cons_first _ hp _ hw, ha, hi, ht⟩
/-- The last ring of a bank: base 0x1000, two slots of 128 bytes, EXPECT 128, one ticket complete. -/
def head0 (wcnt rcnt : Nat) : BitVec 256 := ringHeader 0x1000 2 1 128 false wcnt rcnt
def ringS (b : W64) (wcnt rcnt : Nat) : State := withBank [(1, 0xFEE0), (2, b)] 0xFEE0 (toBytes 32 (head0 wcnt rcnt).toNat)
theorem wit_RingCommandsComplete :
    (let s := ringS 0xFFFFFF 0 0
     Ready s (wave 0) ∧ ringFits s 1 0 ∧ (0xF000 : BitVec 16).toNat + ((0 : BitVec 6).toNat + 1) * (64 : BitVec 10).toNat * 64 ≤ 2 ^ 16
      ∧ 1 ≤ (s.readG 2).toNat ∧ (s.readG 2).toNat ≤ 0xFFFFFF)
    ∧ (let s := ringS 0 1 0
       let h := s.ringHead (ringAt s 1 0)
       Ready s (wave 0) ∧ ringFits s 1 0 ∧ rPoison h = false ∧ diff32 0 (rRcnt h) < 2 ^ 31 ∧ diff32 0 (rRcnt h) < diff32 (rWcnt h) (rRcnt h)
        ∧ diff32 0 (rRcnt h) < rN h ∧ rRcnt h ≠ rWcnt h)
    ∧ (let s := ringS 1 1 0
       let h := s.ringHead (ringAt s 1 0)
       Ready s (wave 0) ∧ rPoison h = false ∧ diff32 1 (rRcnt h) < 2 ^ 31 ∧ diff32 (rWcnt h) (rRcnt h) ≤ diff32 1 (rRcnt h)
        ∧ s.ticketDone (ringAt s 1 0) 1 = false ∧ diff32 1 (rRcnt h) < rN h)
    ∧ (let s := ringS 2 1 0
       let h := s.ringHead (ringAt s 1 0)
       Ready s (wave 0) ∧ rPoison h = false ∧ diff32 2 (rRcnt h) < 2 ^ 31 ∧ rN h ≤ diff32 2 (rRcnt h))
    ∧ (let l : Link := { agent := 4, scope := 5, know := [], floor := 2 }
       let s : State := { ringS 0 1 0 with ringRel := [(64 * 0xFEE0, false, [l])] }
       Ready s { wave 0 with acq := true } ∧ l ∈ s.slotLinks (ringAt s 1 0) 0) := by
  refine ⟨⟨ready1 rfl rfl rfl rfl rfl rfl rfl, ⟨?_, ?_⟩, ?_⟩, ⟨ready1 rfl rfl rfl rfl rfl rfl rfl, ⟨?_, ?_⟩, ?_⟩,
    ⟨ready1 rfl rfl rfl rfl rfl rfl rfl, ?_⟩, ⟨ready1 rfl rfl rfl rfl rfl rfl rfl, ?_⟩, ready1 rfl rfl rfl rfl rfl rfl rfl, ?_⟩ <;> decide
/-- A credit of `n` bytes on its way to slot 0, whose PEND is 64. -/
def creditS (n : Nat) : State :=
  { withBank [] 0xFEE0 (toBytes 32 (head0 0 0).toNat ++ toBytes 4 64) with
    credits := [{ iss := { net := 1 }, ring := 0xFEE0, off := 0x1000, n := n, src := 2 }] }
theorem wit_CreditsComplete :
    let p (n : Nat) : Prop := ∃ c, (creditS n).credits[0]? = some c ∧ c.ord = none ∧ c.drop = false ∧ c.ring % 32 = 0
      ∧ (creditS n).taskOf c.iss.cell c.iss.net = none
      ∧ slotPh ((creditS n).beforeCredits c.ring 0).1 = slotPh ((creditS n).ringSlot c.ring 0) ∧ rPoison ((creditS n).ringHead c.ring) = false
      ∧ 0 < rN ((creditS n).ringHead c.ring) ∧ c.n = n ∧ rBase ((creditS n).ringHead c.ring) ≤ c.off
      ∧ c.off + c.n ≤ rBase ((creditS n).ringHead c.ring) + rSlotBytes ((creditS n).ringHead c.ring)
      ∧ slotPend ((creditS n).ringSlot c.ring 0) = 64
    p 63 ∧ p 64 ∧ p 65 ∧ p 128
    ∧ (let s : State := { creditS 64 with credited := [(64 * 0xFEE0, 1, BitVec.ofNat 32 (2 ^ 31 + 64), 0)] }
       slotPh (s.beforeCredits 0xFEE0 0).1 ≠ slotPh (s.ringSlot 0xFEE0 0)) := by
  refine ⟨⟨_, rfl, rfl, rfl, ?_⟩, ⟨_, rfl, rfl, rfl, ?_⟩, ⟨_, rfl, rfl, rfl, ?_⟩, ⟨_, rfl, rfl, rfl, ?_⟩, ?_⟩ <;> decide
/-- The words of a point copy of eight bytes between banks, or of a fill. -/
def packet (kind : Nat) : List Nat := [0, kind * 2 ^ 56 + 2 * 2 ^ 48 + 2 * 2 ^ 45, 0x1000, 0x2000, 2 ^ 32 + 8, 0, 0, 0]
theorem wit_CopyPostsWriteTheirPacket :
    let s := withBank [(1, 0x200), (2, 0x400)] 0x400 (bytesOf (packet 1))
    let w := wave 0
    let q := s.pathAddr 0 (at2 s 1 0)
    let ws := imageWords s 0x400
    let h := wordsAt (Mem.load s.banks q 64) 8
    Ready s w ∧ onChip w ∧ w.path = 0 ∧ (∀ l ∈ s.stores, s.mine l = false) ∧ (s.readG 2).toNat % 2 ^ 16 = 0x400 ∧ at2 s 1 0 % 8 = 0 ∧ inBank s w (at2 s 1 0)
    ∧ lets s w (at2 s 1 0) 64 false ∧ lets s w (at2 s 1 0) 8 true ∧ (wordOf h 0).toNat = 0
    ∧ inBank s w (slotOff h 0) ∧ inBank s w (slotOff h 0 + 8) ∧ lets s w (slotOff h 0 + 8) 56 true ∧ lets s w (slotOff h 0) 8 true
    ∧ s.pathAddr 0 (slotOff h 0 + 8) = slotAt s w h 0 + 8 ∧ slotAt s w h 0 + 64 ≤ q ∧ q + 64 ≤ cellAddr s.cell + 0x400
    ∧ pktKind ws = 1 ∧ s.pointCount s.cell (pktTpath ws == 3) ≠ 0xFFFF ∧ (0 + 2 ^ 64 - qRidx h) % 2 ^ 64 < 2 ^ qLog2n h := by
  refine ⟨ready1 rfl rfl rfl rfl rfl rfl rfl, by show _ ≤ 2; decide, rfl, by decide, ?_, ?_, rfl, rfl, rfl, ?_, rfl, rfl, rfl, rfl, rfl, ?_, ?_, ?_, ?_, ?_⟩ <;> decide
/-- A port of sector 0 that serves a queue of cell 0, or has a packet in progress. -/
def portS (qs : List CopyQueue) (js : List CopyJob) : State :=
  { withBank [] 0 (bytesOf (packet 1)) with sectors := [(0, { use := .running 1, port := { queues := qs, jobs := js } })] }
def queue0 : CopyQueue := ⟨0x200, 2, { net := 1, asid := 5 }⟩
def job0 (kind : Nat) : CopyJob := { q := queue0, idx := 0, pkt := (packet kind).map (BitVec.ofNat 64), iss := { net := 1, asid := 5 } }
theorem wit_CopyPortsTakePackets :
    let s := portS [queue0] []
    let h := wordsAt (Mem.load s.banks queue0.hdr.toNat 64) 8
    let ws := wordsAt (Mem.load s.banks (slotOff h (qRidx h)) 64) 8
    (s.sectorAt 0).port.queues[0]? = some queue0 ∧ (s.sectorAt 0).port.f.frozen = false ∧ queue0.path = 2 ∧ queue0.hdr.toNat + 64 ≤ 2 ^ 48
    ∧ s.taskOf queue0.iss.cell queue0.iss.net = none ∧ bankSpan queue0.hdr.toNat 64 ∧ bankSpan (queue0.hdr.toNat + 8) 8
    ∧ slotOff h (qRidx h) + 64 ≤ 2 ^ 48 ∧ bankSpan (slotOff h (qRidx h)) 64 ∧ wordOf ws 0 = BitVec.ofNat 64 (qRidx h) ∧ pktOk ws = true := by
  refine ⟨rfl, rfl, rfl, ?_, rfl, ⟨rfl, rfl, rfl⟩, ⟨rfl, rfl, rfl⟩, ?_, ⟨rfl, rfl, rfl⟩, ?_, ?_⟩ <;> decide
theorem wit_CopyPortsServeTheirQueues :
    let s (kind : Nat) := portS [] [job0 kind]
    (∀ kind ∈ [1, 3], ((s kind).sectorAt 0).port.jobs[0]? = some (job0 kind) ∧ ((s kind).sectorAt 0).port.f.frozen = false
      ∧ (job0 kind).stopped = false ∧ (job0 kind).row = 0 ∧ (job0 kind).byte = 0 ∧ (job0 kind).buf = []
      ∧ (job0 kind).ord = none ∧ (s kind).taskOf (job0 kind).iss.cell (job0 kind).iss.net = none
      ∧ pktKind (job0 kind).pkt = kind ∧ pktRowb (job0 kind).pkt = 8 ∧ pktRows (job0 kind).pkt = 1 ∧ pktFpath (job0 kind).pkt = 2
      ∧ pktTpath (job0 kind).pkt = 2 ∧ wordOf (job0 kind).pkt 7 = 0)
    ∧ bankSpan 0x1000 8 ∧ bankSpan 0x2000 8 := by
  refine ⟨by decide, ⟨rfl, rfl, rfl⟩, ⟨rfl, rfl, rfl⟩⟩
theorem wit_DrainAndSignalComplete :
    let p : Post := { hdr := 0, path := 2, idx := 0, iss := { net := 1 }, point := some false }
    let s : State := { base with posts := [p], postN := 1 }
    let v := virt [(1, 0x10000), (2, 7)]
    (Ready base (wave 2) ∧ base.posts = [])
    ∧ (Ready s (wave 2) ∧ p ∈ s.posts ∧ p.iss.cell = s.cell ∧ p.point = some ((wave 2).path == 3) ∧ p.seq < s.postN)
    ∧ Ready v (wave 3) ∧ portFree v ∧ at2 v 1 0 % 8 = 0 ∧ v.pends true (at2 v 1 0) 8 = false
    ∧ ∃ s1 dpa cc, (Claim.chained v (wave 3)).commit.leavePort.piece (Claim.chained v (wave 3)).issuer (at2 v 1 0) true = (s1, .ok (dpa, cc)) :=
  ⟨⟨ready1 rfl rfl rfl rfl rfl rfl rfl, rfl⟩, ⟨ready1 rfl rfl rfl rfl rfl rfl rfl, List.mem_singleton.mpr rfl, rfl, rfl, by decide⟩,
    ready1 rfl rfl rfl rfl rfl rfl rfl, portFree_of rfl rfl, by decide, rfl, ok2_of _ (by decide)⟩
/-- A stream descriptor: ring of cell 0, base 0x10000, one row of 64 bytes, two tiles of 64 bytes. -/
def streamD (pull : Bool) : List W64 :=
  [pull.toNat * 2 ^ 63 + 0xFEE0, 0x10000, 2 ^ 48 + 64 * 2 ^ 32, 0, 64, 2 * 2 ^ 32, 0, 0].map (BitVec.ofNat 64)
/-- A walk descriptor: entry in the capacity tier, one FP32 element, one result, one hop, the same ring, ticket 0. -/
def walkD : List W64 := [8 * 2 ^ 53, 0, 2 ^ 48 + 8 * 2 ^ 44 + 2 ^ 16, 0xFEE0 * 2 ^ 16, 0, 0, 0, 0].map (BitVec.ofNat 64)
def wordsBytes (ws : List W64) : List Byte := ws.flatMap fun w => toBytes 8 w.toNat
/-- The ring, with counts, and a descriptor at 0x800. -/
def engineS (g : Tbl W64) (wcnt rcnt : Nat) (d : List W64) : State :=
  { withG g with banks := Mem.store (bankOf 0x800 (wordsBytes d)) 0xFEE0 (toBytes 32 (head0 wcnt rcnt).toNat) }
def stream0 (pull : Bool) : Stream := { iss := { net := 1, asid := 5 }, desc := streamD pull, t0 := 0 }
theorem wit_StreamAndWalkCommandsComplete :
    (let s := engineS [(1, 0x800)] 0 0 (streamD false)
     let ds := imageWords s 0x800
     Ready s (wave 0) ∧ at2 s 1 0 % 2 ^ 16 = 0x800 ∧ sdOk ds (s.ringHead (sdRing ds)) = true ∧ (vaOwner (sdBase ds)).getD 0 = 0
      ∧ Tbl.find (s.ownerAt 0).streams 127 = none)
    ∧ (let s : State := { engineS [(1, 1023)] 0 0 [] with owners := [(7, { streams := [(127, stream0 false)] })] }
       Ready s (wave 0) ∧ (s.readG 1).toNat = 7 * 128 + 127 ∧ Tbl.find (s.ownerAt 7).streams 127 = some (stream0 false)
        ∧ (stream0 false).iss.net = s.ctx.net ∧ (s.engFault 7 127).frozen = false)
    ∧ (let s := engineS [(1, 1024)] 0 0 []
       Ready s (wave 0) ∧ 1024 ≤ (s.readG 1).toNat)
    ∧ (let s := engineS [(1, 0x800)] 0 0 walkD
       Ready s (wave 0) ∧ wdOk (imageWords s 0x800) = true ∧ Tbl.find (s.ownerAt 8).walkers 31 = none) := by
  refine ⟨⟨ready1 rfl rfl rfl rfl rfl rfl rfl, ?_, ?_, ?_, rfl⟩, ⟨ready1 rfl rfl rfl rfl rfl rfl rfl, ?_, rfl, rfl, rfl⟩,
    ⟨ready1 rfl rfl rfl rfl rfl rfl rfl, ?_⟩, ready1 rfl rfl rfl rfl rfl rfl rfl, ?_, rfl⟩ <;> decide +kernel
def streamS (pull : Bool) (wcnt : Nat) : State :=
  { mapped (engineS [] wcnt 0 []) with owners := [(0, { asidbase := 0x8000, streams := [(5, stream0 pull)] })] }
def walk0 : Walk := { iss := { net := 1, asid := 5 }, desc := walkD, done := true }
def walkS : State := { engineS [] 0 0 [] with owners := [(8, { walkers := [(31, walk0)] })] }
theorem wit_StreamsAndWalkersMoveTheirBytes :
    (let s := streamS false 0
     let x := stream0 false
     let h := s.ringHead (sdRing x.desc)
     s.readyStream 0 5 false = some x ∧ sdRows x.desc = 1 ∧ 1 ≤ sdRowb x.desc ∧ diff32 (x.t0 + x.tile) (rRcnt h) < rN h ∧ x.row = 0
      ∧ slotAddr (sdRing x.desc) h (x.t0 + x.tile) % 2 ^ 16 + sdRowb x.desc ≤ 2 ^ 16 ∧ x.stop = false ∧ x.tile + 1 < sdTiles x.desc
      ∧ ∃ s1 bs, (s.servedStream 0 5).readVirt x.iss (sdRow x.desc x.tile 0) (sdRowb x.desc) = (s1, .ok bs))
    ∧ (let s := streamS true 1
       let x := stream0 true
       let h := s.ringHead (sdRing x.desc)
       s.readyStream 0 5 true = some x ∧ s.taskOf x.iss.cell x.iss.net = none ∧ sdRows x.desc = 1 ∧ 1 ≤ sdRowb x.desc
        ∧ diff32 (x.t0 + x.tile) (rRcnt h) < diff32 (rWcnt h) (rRcnt h) ∧ x.row = 0
        ∧ slotAddr (sdRing x.desc) h (x.t0 + x.tile) % 2 ^ 16 + sdRowb x.desc ≤ 2 ^ 16 ∧ sdRow x.desc x.tile 0 % 4096 + sdRowb x.desc ≤ 4096
        ∧ ∃ s1 dpa cc, (s.servedStream 0 5).piece x.iss (sdRow x.desc x.tile 0) true = (s1, .ok (dpa, cc)))
    ∧ (let h := walkS.ringHead (wdRing walk0.desc)
       Tbl.find (walkS.ownerAt 8).walkers 31 = some walk0 ∧ (walkS.engFault 8 31).frozen = false ∧ walk0.done = true
        ∧ diff32 (wdTicket walk0.desc) (rRcnt h) < rN h
        ∧ slotAddr (wdRing walk0.desc) h (wdTicket walk0.desc) % 2 ^ 16 + 8 * wdK walk0.desc ≤ 2 ^ 16) := by
  refine ⟨⟨rfl, ?_, ?_, ?_, rfl, ?_, rfl, ?_, ok_of _ ?_⟩, ⟨rfl, rfl, ?_, ?_, ?_, rfl, ?_, ?_, ok2_of _ ?_⟩, rfl, rfl, rfl, ?_, ?_⟩ <;> decide +kernel
/-- A collective descriptor of communicator 0: COP, two INT32 elements, SEND and RECV at 0x10000, SIG. -/
def collD (cop count sig : Nat) : List W64 := [cop * 2 ^ 44 + 3 * 2 ^ 36 + count, 0x10000, 0x10000, 0, sig, 0, 0, 0].map (BitVec.ofNat 64)
def coll0 (cop count sig got : Nat) : Coll :=
  { iss := { net := 1, asid := 5 }, comm := 0, seq := 0, desc := collD cop count sig, n := 1, rank := 0, vc := 0, peers := 0, got := got }
def collS (x : Coll) : State := { mapped base with colls := [x] }
theorem openPorts_all {s : State} (p vc n : Nat) (h : s.sending = []) (hn : n ≤ 2 ^ 17) : s.openPorts p vc n = s.upPorts := by
  refine List.filter_eq_self.mpr fun port _ => decide_eq_true ?_
  rw [State.creditsLeft, h]
  exact Nat.le_trans hn (by simp)
/-- A chunk of a broadcast that waits for rank 0. -/
def coll1 : Coll := { coll0 3 2 0 0 with out := [(0, 0, true, [1, 2])] }
theorem next_coll1 : (collS coll1).collNext 0 = some 0 := by
  have h : (collS coll1).collReady coll1 = true := by
    show (!List.isEmpty ((collS coll1).openPorts _ _ _)) = true
    rw [openPorts_all _ _ _ rfl (by decide)]
    decide
  have e : (collS coll1).readyColls 0 = [coll1] := by
    have t : (collS coll1).collTurn 0 = some coll1 := rfl
    have r : List.range (collS coll1).colls.length = [0] := rfl
    rw [State.readyColls, r, List.filterMap_cons, t, Option.bind_some, h]
    rfl
  rw [State.collNext, e]
  rfl
theorem wit_CollectivesComplete :
    (let s : State := { engineS [(1, 0x800)] 0 0 (collD 0 2 0) with mem := [(0x20001F, 0x80)], commtab := 0x200000 }
     Ready s (wave 0) ∧ at2 s 1 0 % 2 ^ 16 % 64 = 0 ∧ cdOk (imageWords s (at2 s 1 0)) = true ∧ s.commBase ≠ 0
      ∧ commV (s.commEntry (cdComm (imageWords s (at2 s 1 0)))) = true)
    ∧ (let s := collS coll1
       s.collTurn 0 = some coll1 ∧ s.collNext coll1.vc = some coll1.comm ∧ coll1.out = (0, 0, true, [1, 2]) :: []
        ∧ ∃ p, p ∈ s.openPorts (s.peerAt coll1.peers 0) coll1.vc 17)
    ∧ (let x := coll0 3 2 0 0
       let s := collS x
       s.collTurn 0 = some x ∧ s.collNext x.vc = some x.comm ∧ x.out = [] ∧ x.cop = 3 ∧ x.rank = cdRoot x.desc ∧ x.starts[x.sent]? = some (0, 0, 8, true)
        ∧ ∃ s1 s2 bs, State.readVirt { s with served := Tbl.put s.served x.vc (x.comm + 1) } x.iss (stepAddr (cdSend x.desc) 1 0) 8 = (s1, .ok bs)
          ∧ s1.writeVirt x.iss (stepAddr (cdRecv x.desc) 1 0) bs = (s2, .ok ()))
    ∧ (let x := coll0 0 2 0 0
       let s := collS x
       s.collTurn 0 = some x ∧ x.cop = 0 ∧ x.chunks.findIdx? (fun c => c.2.1 == 0 && c.2.2 == [1, 2, 3, 4, 5, 6, 7, 8].length) = some 0
        ∧ ∃ s2, s.writeVirt x.iss (stepAddr (cdRecv x.desc) 1 0) [1, 2, 3, 4, 5, 6, 7, 8] = (s2, .ok ()))
    ∧ (let x := coll0 4 0 0 0
       (collS x).collTurn 0 = some x ∧ x.starts.length ≤ x.sent ∧ x.want ≤ x.got ∧ cdSig x.desc = 0)
    ∧ (let x := coll0 4 0 0x10000 0
       (collS x).collTurn 0 = some x ∧ x.starts.length ≤ x.sent ∧ x.want ≤ x.got ∧ cdSig x.desc ≠ 0 ∧ x.ord = none
        ∧ (collS x).taskOf x.iss.cell x.iss.net = none ∧ ∃ s2 old, (collS x).unitSignal x.iss (cdSig x.desc) 1 wideAgent (some 5) = (s2, .ok old)) := by
  refine ⟨⟨ready1 rfl rfl rfl rfl rfl rfl rfl, ?_, ?_, ?_, ?_⟩, ⟨rfl, next_coll1, rfl, 0, by rw [openPorts_all _ _ _ rfl (by decide)]; decide⟩,
    ⟨rfl, rfl, rfl, ?_, ?_, ?_, _, _, _, got_of _ ?_, pair_of _ _ rfl⟩,
    ⟨rfl, ?_, ?_, _, pair_of _ _ rfl⟩, ⟨rfl, ?_, ?_, ?_⟩, rfl, ?_, ?_, ?_, rfl, rfl, ok_of _ ?_⟩ <;> decide +kernel

/-! ### Witnesses: vector instructions -/

/-- A shape record (R208): one dimension of `n` elements in order from `base`; `sc` is the offset of its scale bytes. -/
def shapeB (ty n base : Nat) (lane : Bool) (sc : Option Nat) : List Byte :=
  bytesOf [ty * 2 ^ 60 + lane.toNat * 2 ^ 54 + (match sc with
      | some k => 2 ^ 51 + k * 2 ^ 32
      | none => 0) + base * 2 ^ 16, n * 2 ^ 48 + 2 ^ 32 + 2 ^ 16 + 1, 2 ^ 32, 0, 0, 0, 0, 0]
/-- Selectors 1 to 4 at 0x100, 0x140, 0x180, 0x1C0. -/
def vecS (d a b m : List Byte) : State :=
  { withMe { regs := { sh := [(1, 0x100), (2, 0x140), (3, 0x180), (4, 0x1C0)] } } with banks := bankOf 0x100 (d ++ a ++ b ++ m) }
theorem runs_vec (d a b m : List Byte) : (vecS d a b m).Runs := runs1 rfl rfl
def plainS (ty n : Nat) : State :=
  vecS (shapeB ty n 0x1000 false none) (shapeB ty n 0x2000 false none) (shapeB ty n 0 true none) (shapeB 5 n 0x3000 false none)
/-- The records that pass the checks of R211; none where one fails. -/
def passed (s : State) (p : VPart) : List Shape :=
  match s.vecCheck p.v p.sels p.entry p.work with
  | .ok x => x.1
  | .error _ => []
/-- A one-dimensional result, in one group where `one` says so, with every check passed in mode 0. -/
def good (i : Instr) (s : State) (one : Bool := true) : Bool :=
  match vecPart i with
  | none => false
  | some p => match s.vecCheck p.v p.sels p.entry p.work with
    | .error _ => false
    | .ok (hs, mode) => mode == 0 && (hs.headD {}).exts.drop 1 == [1, 1, 1] && (hs.headD {}).strs == [1, 0, 0, 0] && (hs.headD {}).exts.length == 4
        && (!one || decide ((hs.headD {}).n ≤ groupLen hs))
theorem good_of (i : Instr) (s : State) (h : good i s = true) :
    ∃ p hs, vecPart i = some p ∧ Checked s p hs 0 ∧ Flat (hs.headD {}) ∧ (hs.headD {}).n ≤ groupLen hs := by
  unfold good at h
  split at h
  · cases h
  · rename_i p hp
    split at h
    · cases h
    · rename_i hs mode hc
      simp only [Bool.and_eq_true, beq_iff_eq, decide_eq_true_eq, Bool.not_true, Bool.false_or] at h
      obtain ⟨⟨⟨⟨hm, h1⟩, h2⟩, h3⟩, h4⟩ := h
      subst hm
      exact ⟨p, hs, hp, hc, ⟨h1, h2, h3⟩, h4⟩
theorem wit_VectorResultsAreComputed :
    (plainS 8 8).Runs ∧ good (.vfma { vop 8 with shD := 1 } true) (plainS 8 8) = true ∧ good (.vsel { vop 8 with imm := 4 } true) (plainS 8 8) = true
    ∧ good (.vsra (vop 3) false) (plainS 3 16) = true ∧ good (.vredSum { vop 3 with shB := 0 } true) (vecS (shapeB 3 1 0x1000 false none) (shapeB 3 64 0x2000 false none) [] []) = true
    ∧ good (.vperm (vop 7)) (plainS 7 16) = true ∧ good (.vmulc { vop 7 with chain := 8 } true)
        (vecS (shapeB 7 16 0x1000 false none) (shapeB 7 8 0x2000 false none) (shapeB 7 8 0 true none) []) = true
    ∧ good (.vdq { vop 8 with shB := 0 }) (vecS (shapeB 8 32 0x1000 false none) (shapeB 11 32 0x2000 false (some 0x3000)) [] []) false = true := by
  refine ⟨runs_vec _ _ _ _, ?_⟩
  decide +kernel
theorem wit_VectorInstructionsComplete :
    ∃ p hs, vecPart (.vexp2 { vop 8 with shB := 0 } true) = some p ∧ (plainS 8 8).Runs ∧ Checked (plainS 8 8) p hs 0 := by
  obtain ⟨p, hs, h1, h2, -⟩ := good_of (.vexp2 { vop 8 with shB := 0 } true) (plainS 8 8) (by decide +kernel)
  exact ⟨p, hs, h1, runs_vec _ _ _ _, h2⟩
def shapesFail (s : State) (l : List Nat) : Nat :=
  match s.shapes l with
  | .ok _ => 0
  | .error h => h.cls
/-- What fails of the checks that give class 0x0E: 1 a record, 2 the entry, 3 the rounding code, 4 the work; 0 nothing. -/
def broken (s : State) (p : VPart) : Nat :=
  match s.shapes p.sels with
  | .error _ => 0
  | .ok hs => if hs.any fun h => !h.wellFormed then 1 else if !p.entry hs then 2 else if p.v.rnd = 6 then 3 else if 60 < p.work hs then 4 else 0
theorem wit_VectorChecksRaise :
    let p (v : VOp) : VPart := ⟨v, false, selsDAB v, plainEntry v, workD⟩
    vecPart (.vadd (vop 8) false) = some (p (vop 8))
    ∧ shapesFail (withMe { regs := { sh := [(1, 0xFFFF)] } }) (p (vop 8)).sels = 3
    ∧ broken (plainS 15 8) (p (vop 8)) = 1 ∧ broken (plainS 9 8) (p (vop 8)) = 2 ∧ broken (plainS 8 8) (p { vop 8 with rnd := 6 }) = 3
    ∧ broken (plainS 8 1024) (p (vop 8)) = 4 := by
  refine ⟨rfl, ?_⟩
  decide +kernel
theorem wit_SumsDotsQuantAndSpecialsAreComputed :
    good (.vaddc 31 (vop 7) true) (plainS 7 16) = true ∧ good (.vsubc 0 { vop 7 with chain := 1 } true) (plainS 7 16) = true
    ∧ good (.vdot (vop 1) true) (vecS (shapeB 3 1 0x1000 false none) (shapeB 1 64 0x2000 false none) (shapeB 1 64 0x3000 false none) []) = true
    ∧ good (.vqnt { vop 11 with shB := 0 }) (vecS (shapeB 11 32 0x1000 false (some 0x1100)) (shapeB 8 32 0x2000 false none) [] []) false = true
    ∧ good (.vgelu { vop 8 with shB := 0 } true) (plainS 8 16) = true := by
  decide +kernel

/-! ### Witnesses: the matrix node -/

theorem starts_base : Starts base (wave 0) := ⟨runs_base, cons_first _ rfl _ rfl⟩
theorem wit_MatrixCommandsAreSent :
    (let s := withG [(1, 0x102), (2, 0x1000), (3, 0xFFFFFFFF)]
     Starts s (wave 0) ∧ Targets s 0 none ∧ Targets s 1 (some (1, 2)) ∧ OperandOk s 2 3 0 (wave 0) ∧ OperandOk s 2 3 0 (wave 2))
    ∧ (let s := withG [(1, 0x100000), (3, 0x100000000)]
       Starts s (wave 0) ∧ (1 : Rg) ≠ 0 ∧ 2 ^ 20 ≤ (s.readG 1).toNat ∧ Targets s 0 none ∧ 2 ^ 32 ≤ (s.readG 3).toNat) := by
  refine ⟨⟨⟨runs_g _, cons_first _ rfl _ rfl⟩, .inl ⟨rfl, rfl⟩, .inr ⟨by decide, by decide, 1, rfl, rfl⟩, ⟨by decide, by decide⟩, by decide, by decide⟩,
    ⟨runs_g _, cons_first _ rfl _ rfl⟩, by decide, by decide, .inl ⟨rfl, rfl⟩, by decide⟩
/-- A token of the firing of cell 0. -/
def tok (i : Instr) (a b : W64) : MxToken := { instr := i, iss := { net := 1, asid := 5 }, a := a, b := b }
def nodeS (n : Node) : State :=
  { withMe { wait := (n.ports.head?.map (·.instr)).orElse fun _ => n.queue.head?.map (·.instr) } with
    sectors := [(0, { use := .running 1, node := n })] }
def swap0 : MxToken := tok .mxSwap 0 0
def mul0 (kb : W64) : MxToken := tok (.mxMul 0 1 2 127 31 127 true false true 0 (wave 0)) 0x8000 kb
def cfg0 (aty : BitVec 4) : MxToken := tok (.mxCfg 0 aty 1 true false 15 3 (wave 0)) 0 0
theorem wit_NodesAcceptTokensInOrder :
    let s := nodeS { ports := [swap0, { swap0 with sent := 1 }], queue := List.replicate 7 swap0 }
    let ok := nodeS { aty := 10, caty := 1, ports := [mul0 0x00000020] }
    let bad := nodeS { ports := [mul0 0x00008000] }
    let cfg := nodeS { ports := [cfg0 1] }
    let wrong := nodeS { ports := [cfg0 0] }
    ((s.node 0).ports = [] ++ swap0 :: [{ swap0 with sent := 1 }] ∧ (s.node 0).queue.length < 8 ∧ (s.node 0).took ≠ s.clock + 1
      ∧ (∀ y ∈ [{ swap0 with sent := 1 }], swap0.sent < y.sent ∨ (swap0.sent = y.sent ∧ swap0.iss.cell ≤ y.iss.cell))
      ∧ tokenHit swap0 1 1 false = none ∧ CfgLegal s 0 swap0 ∧ mxWords swap0.instr = some 1 ∧ Awaits s swap0)
    ∧ ((ok.node 0).ports = [] ++ mul0 0x00000020 :: [] ∧ (tokenHit (mul0 0x00000020) 1 1 false).isNone = true)
    ∧ ((bad.node 0).ports = [] ++ mul0 0x00008000 :: [] ∧ (tokenHit (mul0 0x00008000) 1 1 false).isSome = true ∧ Awaits bad (mul0 0x00008000))
    ∧ ((cfg.node 0).ports = [] ++ cfg0 1 :: [] ∧ CfgLegal cfg 0 (cfg0 1)) ∧ ((wrong.node 0).ports = [] ++ cfg0 0 :: [] ∧ ¬ CfgLegal wrong 0 (cfg0 0)) := by
  refine ⟨⟨rfl, by decide, by decide, by decide, rfl, (by intro _ _ _ _ _ _ _ _ h; cases h), rfl, rfl, rfl, rfl, List.pairwise_singleton _ _⟩,
    ⟨rfl, by decide⟩, ⟨rfl, by decide, rfl, rfl, rfl, List.pairwise_singleton _ _⟩, ⟨rfl, ?_⟩, rfl, ?_⟩
  · intro d aty bty out bsat rg rnm1 w h
    cases h
    exact ⟨by decide, by decide⟩
  · intro h
    exact absurd (h _ _ _ _ _ _ _ _ rfl).1 (by decide)
/-- The first token of a node performs. -/
def nodeQ (x : MxToken) (n : Node := {}) : State := nodeS { n with queue := [x] }
theorem first_may (x : MxToken) (n : Node) : (nodeQ x n).mayComplete 0 0 x = true := rfl
/-- A setting of T behind a load that runs: it may overlap it. -/
def scl0 : MxToken := tok (.mxScl 0 1 2 (wave 0)) 0x3F800000 0x40000000
def lds0 : MxToken := tok (.mxLds 0 1 2 127 0 false 0 (wave 0)) 0x1000 0x100
def drain0 : MxToken := tok (.mxDrain 0 1 2 1 127 false false false false 0 (wave 0)) 0xFC00 0x200
theorem wit_NodesPerformTokens :
    (let s := nodeS { queue := [lds0, scl0] }
     (s.node 0).queue[1]? = some scl0 ∧ s.mayComplete 0 1 scl0 = true ∧ scl0.rg = 0 ∧ scl0.lost = none ∧ scl0.pre = none
      ∧ ∀ y ∈ [lds0, scl0].take 1, drainOf y.instr = none)
    ∧ (let s := nodeS { queue := [drain0, scl0] }
       (s.node 0).queue[1]? = some scl0 ∧ s.mayComplete 0 1 scl0 = true ∧ isSetting scl0.instr = true
        ∧ ∃ y ∈ [drain0, scl0].take 1, (drainOf y.instr).isSome = true)
    ∧ (let s := nodeS { heavy := true, queue := [mul0 32, lds0] }
       (s.node 0).queue[1]? = some lds0 ∧ s.mayComplete 0 1 lds0 = true) ∧
    (let x := tok (.mxLds 0 1 2 31 127 true 0 (wave 0)) 0x1000 0x20000100
     let n : Node := { aty := 13, bty := 13, out := false }
     ((nodeQ x n).node 0).queue = x :: [] ∧ x.rg = 0 ∧ x.pre = none ∧ ((31 : BitVec 7).toNat + 1) % 32 = 0 ∧ n.out = false)
    ∧ (let x := tok (.mxLds 0 1 2 127 0 false 0 (wave 0)) 0x1000 0x100
       ((nodeQ x).node 0).queue = x :: [] ∧ ((nodeQ x).node 0).bty ≠ 13)
    ∧ (let x := tok (.mxStatClr 31 true false) 0 0
       ((nodeQ x).node 0).queue = x :: [] ∧ Awaits (nodeQ x) x ∧ (31 : Rg) ≠ 0)
    ∧ (let x := tok (.mxDrain 0 1 2 0 95 true true true true 0 (wave 0)) 0x1000 0x180
       ((nodeQ x).node 0).queue = x :: [] ∧ (95 : BitVec 7).toNat + 1 ≤ 96 ∧ ((nodeQ x).node 0).aty ≠ 13)
    ∧ (let x := drain0
       ((nodeQ x).node 0).queue = x :: [] ∧ RowsApart x 2 128 ∧ ((nodeQ x).node 0).mode ≠ 5)
    ∧ (let x := cfg0 1
       ((nodeQ x { rg := 14 }).node 0).queue = x :: [] ∧ ((nodeQ x { rg := 14 }).node 0).rg ≠ 0
        ∧ ((nodeQ x { rg := 14 }).node 0).rg ≠ (15 : BitVec 4).toNat)
    ∧ ((nodeQ swap0).node 0).queue = swap0 :: [] := by
  refine ⟨⟨rfl, by decide, rfl, rfl, rfl, by decide⟩, ⟨rfl, by decide, rfl, drain0, List.mem_singleton.mpr rfl, rfl⟩, ⟨rfl, by decide⟩, ⟨rfl, rfl, rfl, by decide, rfl⟩, ⟨rfl, by decide⟩, ⟨rfl, ⟨rfl, rfl, rfl, List.pairwise_singleton _ _⟩, by decide⟩, ⟨rfl, by decide, by decide⟩,
    ⟨rfl, ⟨by decide, .inr (by decide)⟩, by decide⟩, ⟨rfl, by decide, by decide⟩, rfl⟩
def plane0 : Plane := { k := 2, n := 3, sc := false, codes := [[1, 2, 3], [4, 5, 6]], scales := [] }
def mul23 : MxToken := tok (.mxMul 0 1 2 3 1 2 true true false 0 (wave 0)) 0x1000 2
def drn (k : Nat) : MxToken := { tok (.mxDrain 0 1 2 1 2 true false false false 0 (wave 0)) 0x1000 12 with rg := 15, num := k }
/-- A region of two nodes, a drain at the head of both queues. -/
def regionS : State :=
  { base with
    nets := [(1, { net0 with regions := [(15, (2, [0, 1]))] })]
    sectors := [(0, { use := .running 1, node := { queue := [drn 3] } }), (1, { node := { queue := [drn 3] } })] }
theorem wit_NodesStartProductsAndRegionDrains :
    (let n : Node := { active := some plane0, queue := [mul23, mul23] }
     let s : State := { nodeS n with nets := [(1, { net0 with quanta := 1 })] }
     let z : State := { nodeS n with nets := [(1, net0)] }
     let h : MxShape := ⟨4, 2, 3, true, false⟩
     (s.node 0).queue[0]? = some mul23 ∧ s.mayComplete 0 0 mul23 = true ∧ mul23.rg = 0 ∧ mul23.lost = none ∧ [mul23].head? = some mul23
      ∧ ([] : List MxToken)[0]? = none ∧ productOf mul23.instr = some (h, true, false) ∧ (s.node 0).heavy = false
      ∧ (State.productHit (s.node 0) h false).isNone = true
      ∧ (∀ r, Tbl.find s.nets 1 = some r → s.heavyNodes 1 + 1 ≤ r.quanta)
      ∧ (∃ r, Tbl.find z.nets 1 = some r ∧ r.quanta < z.heavyNodes 1 + 1)
      ∧ (((nodeS { n with heavy := true, queue := [mul23, swap0] }).node 0).queue.eraseIdx 0) = [swap0]
      ∧ swap0.instr = .mxSwap)
    ∧ regionS.region 1 15 = (2, [0, 1]) ∧ drainBad (regionS.node 0) ⟨2, 0, 3, false, false⟩ false false = false
    ∧ (nextDrain (regionS.node 0) 1 15 = some (0, drn 3) ∧ nextDrain (regionS.node 1) 1 15 = some (0, drn 3))
    ∧ ((drn 3).rg = 15 ∧ (drn 3).iss.net = 1 ∧ (drn 3).num = 3) ∧ drainOf (drn 3).instr = some (⟨2, 0, 3, false, false⟩, true, false, false) := by
  refine ⟨⟨rfl, by decide, rfl, rfl, rfl, rfl, rfl, rfl, by decide, ?_, ⟨_, rfl, by decide⟩, rfl, rfl⟩, by decide, by decide, ⟨rfl, rfl⟩, ⟨rfl, rfl, rfl⟩, rfl⟩
  intro r h
  obtain rfl := Option.some.inj h
  decide

/-! ### Witnesses: lanes, handles, ladders -/

theorem trip_of {α β γ : Type} (p : α × β × Option γ) (h : p.2.2.isNone = true) : ∃ a b, p = (a, b, none) := by
  obtain ⟨a, b, x⟩ := p
  cases x with
  | none => exact ⟨a, b, rfl⟩
  | some e => cases h
/-- A job descriptor at 0x800: handle, positions, DIM 1, query at 0x400, output at 0x600, all of cell 0. -/
def jobD (h : W64) (p0 p1 : Nat) : List W64 := [h] ++ [p0 * 2 ^ 44 + p1 * 2 ^ 24, 0x400, 0x3F800000 * 2 ^ 32, 0x600, 0, 0, 0].map (BitVec.ofNat 64)
def laneS (p0 p1 : Nat) (l : Tbl LaneJob) : State :=
  let s := mapped (engineS [(1, 0x800), (2, 0x900), (3, 0x100)] 0 0 (jobD handle0 p0 p1))
  { s with owners := [(0, { asidbase := 0x8000, lanes := l })] }
def lane0 (p0 p1 pos : Nat) : LaneJob :=
  { iss := { net := 1, asid := 5 }, desc := jobD handle0 p0 p1, entry := (mapped base).htMem 0, fin := true, target := none, pos := pos, o := [0], q := some [0x3F800000], epoch := 1 }
def merge0 : LaneJob := { lane0 0 0 0 with merge := some (0x600, 0x700, 256) }
def busyLanes : State := laneS 0 0 ((List.range 16).map fun n => (n, lane0 0 4 0))
theorem full_of {s : State} {o : Nat} (h : ∀ n ∈ List.range 16, (Tbl.find (s.ownerAt o).lanes n).isSome = true) (n : Nat) : ¬ laneFree s o n := by
  rintro ⟨hn, hf⟩
  have := h n (List.mem_range.mpr hn)
  rw [hf] at this
  cases this
theorem lawful_of {s : State} {ds : List W64}
    (h : jdOk ds = true ∧ winHit false false (jdQuery ds) (4 * jdDim ds) = none ∧ winHit false true (jdOut ds) (8 + 4 * jdDim ds) = none)
    (h2 : jdP0 ds = jdP1 ds ∨ State.tenantHit s.ctx.asid (jdHandle ds) (jdP1 ds - 1) = none ∧ s.htPoison (jdHandle ds) = none
      ∧ s.handleHit (jdHandle ds) (jdP1 ds - 1) (s.htMem (hIndex (jdHandle ds))) = none
      ∧ vaHome (entPool (s.htMem (hIndex (jdHandle ds)))) ≤ 3 ∧ Tbl.find (s.ownerAt (s.laneDie (jdHandle ds))).hcache (hIndex (jdHandle ds)) = none) :
    JobLawful s ds := by
  refine ⟨h.1, h.2.1, h.2.2, h2.imp id fun h => ⟨h.1, h.2.1, h.2.2.1, h.2.2.2.1, ?_⟩⟩
  intro e he
  rw [h.2.2.2.2] at he
  cases he
theorem wit_LanesAndHandlesComplete :
    (let s := laneS 0 4 []
     Starts s (wave 0) ∧ Targets s 0 none ∧ at2 s 1 0 % 2 ^ 16 % 64 = 0 ∧ JobLawful s (jobImage s 1 0)
      ∧ laneFree s (s.laneDie (jdHandle (jobImage s 1 0))) 15 ∧ laneFree s (cellSpan s.cell) 15)
    ∧ JobLawful (laneS 2 2 []) (jobImage (laneS 2 2 []) 1 0)
    ∧ (let s := busyLanes
       Starts s (wave 0) ∧ at2 s 1 0 % 2 ^ 16 % 64 = 0 ∧ (∀ n, ¬ laneFree s (s.laneDie (jdHandle (jobImage s 1 0))) n)
        ∧ ∀ n, ¬ laneFree s (cellSpan s.cell) n)
    ∧ (let j := lane0 0 4 4
       laneHas (laneS 0 4 [(15, j)]) 0 15 j ∧ ((laneS 0 4 [(15, j)]).engFault 0 143).frozen = false ∧ j.lost = none ∧ j.merge = none ∧ jdP1 j.desc ≤ j.pos)
    ∧ (let j := lane0 0 1 0
       let s : State := { laneS 0 1 [(0, j)] with mem := tables.map fun e => if e.1 = 0x4007 then (0x4007, 0xF8) else e }
       laneHas s 0 0 j ∧ (s.engFault 0 128).frozen = false ∧ j.lost = none ∧ j.merge = none ∧ j.q = some [0x3F800000] ∧ ∃ s1 j1, s.lanePositions j (jdP1 j.desc - j.pos) = (s1, j1, none))
    ∧ (laneHas (laneS 0 0 [(0, merge0)]) 0 0 merge0 ∧ merge0.lost = none ∧ merge0.merge = some (0x600, 0x700, 256) ∧ bankSpan 0x600 (8 + 4 * 256) ∧ bankSpan 0x700 (8 + 4 * 256))
    ∧ ((virt [(1, 0)]).Runs ∧ entryAt (virt [(1, 0)]) 1 0 ((virt [(1, 0)]).htMem 0) ∧ (virt [(1, 0)]).poisoned ((virt [(1, 0)]).htAddr 0) = false
      ∧ (withG [(1, 0)]).Runs ∧ ∀ ix e, ¬ entryAt (withG [(1, 0)]) 1 ix e)
    ∧ entryPoisoned { virt [(1, 0)] with owners := [(0, { poison := [(0, BitVec.ofNat 64 (2 ^ 63))] })] } 1 := by
  refine ⟨⟨⟨runs1 rfl rfl, cons_first _ rfl _ rfl⟩, .inl ⟨rfl, rfl⟩, by decide +kernel, lawful_of (by decide +kernel) (.inr (by decide +kernel)),
      ⟨by decide, by decide +kernel⟩, by decide, by decide +kernel⟩, lawful_of (by decide +kernel) (.inl (by decide +kernel)),
    ⟨⟨runs1 rfl rfl, cons_first _ rfl _ rfl⟩, by decide +kernel, full_of (by decide +kernel), full_of (by decide +kernel)⟩,
    ⟨rfl, rfl, rfl, rfl, by decide +kernel⟩, ⟨rfl, rfl, rfl, rfl, rfl, trip_of _ ?_⟩, ⟨rfl, rfl, rfl, ?_, ?_⟩, ⟨runs_virt _, ⟨by decide, by decide, rfl, by decide +kernel⟩, by decide, runs_g _, ?_⟩,
    by decide, by decide +kernel⟩
  · decide +kernel
  · unfold bankSpan; decide
  · unfold bankSpan; decide
  · rintro ix e ⟨-, h, -⟩
    exact absurd h (Nat.not_lt_zero _)
def ladderS (x : Ladder) (g : Tbl W64 := [(1, 0xF000), (2, 8)]) (at' : Nat := 0) (ws : List Nat := []) : State :=
  { withG g with sectors := [(0, { use := .running 1, ladders := [(7, x)] })], banks := bankOf at' (ws.flatMap (toBytes 4)) }
def push0 (k : Nat) : PendPush := { step := 8, carry := [0x3F800000, 0x40000000], k := k, iss := {} }
def ladder0 : Ladder := { v := true, nr := 24, ne := 1024, step := 2 ^ 23 - 1, done := 2 ^ 23 - 2 }
theorem takes_of {s : State} {w : Wave} {l : Nat} (hr : s.Runs) (hc : Consistent w s.ctx.wave) (ha : s.me.arg = none)
    (hw : s.waiters (cellSector s.cell) = []) : LadderTakes s w l :=
  ⟨⟨hr, hc⟩, ha, by rw [NoneBefore, hw]; intro w h; cases h⟩
/-- The ladder with a command of cell 1 that it has accepted and that waits. -/
def readerS : State :=
  let s := ladderS { ladder0 with done := 0 }
  { s with cells := s.cells ++ [(1, { run := { ctx0 with firings := [{ wait := some (.ladWait 4 7 5 (wave 0)), arg := some 1, regs := { g := [(5, 9)] } }] } })] }
theorem takes_ladder (x : Ladder) (g : Tbl W64) (a : Nat) (ws : List Nat) (l : Nat) : LadderTakes (ladderS x g a ws) (wave 0) l :=
  takes_of (runs1 rfl rfl) (cons_first _ rfl _ rfl) rfl rfl
theorem wit_LaddersComplete :
    (let s := ladderS {} [(1, 0xFFF8)] 0xFFF8 [0, 47 * 2 ^ 26 + 960]
     LadderTakes s (wave 0) 7 ∧ (s.ladder 0 7).v = false ∧ bankFits s 1 0 (4 * 2)
      ∧ rungsOk ((List.range 2).map fun j => BitVec.ofNat 32 (bankWord s 1 0 j)) ((1023 + 1 + 15) / 16) = true
      ∧ rungsOk ((List.range 2).map fun j => BitVec.ofNat 32 (bankWord (ladderS {}) 1 0 j)) 1 = false)
    ∧ (let s := ladderS ladder0 [(1, 0xF000), (2, 2 ^ 23)]
       let x := s.ladder 0 7
       LadderTakes s (wave 0) 7 ∧ x.v = true ∧ bankFits s 1 0 (4 * x.nr) ∧ bankFits s 1 0 (4 * x.ne) ∧ Targets s 0 none
        ∧ x.pend.length < 2 ∧ (s.readG 2).toNat % 2 ^ 32 = (x.step + 1) % 2 ^ 32 ∧ 23 < x.nr ∧ (x.step + 1) % 2 ^ 23 = 0
        ∧ (x.step + 1) % 2 ^ 24 ≠ 0 ∧ ¬ reached x.done (s.readG 2).toNat ∧ (23 : BitVec 5).toNat < x.nr
        ∧ x.nr ≤ (24 : BitVec 5).toNat ∧ x.busy.getLsbD 23 = false ∧ x.pend = [] ∧ s.ladWaits (cellSector s.cell) 7 = [])
    ∧ (let s := ladderS { ladder0 with busy := 0x800000, pend := [push0 23, push0 0] } [(2, 2 ^ 23 - 1)]
       let x := s.ladder 0 7
       LadderTakes s (wave 0) 7 ∧ 2 ≤ x.pend.length ∧ (s.readG 2).toNat % 2 ^ 32 ≠ (x.step + 1) % 2 ^ 32 ∧ x.busy.getLsbD 23 = true ∧ x.pend ≠ [])
    ∧ (let s := ladderS { ladder0 with pend := [push0 0] } [(2, 2 ^ 23 - 2)]
       let x := s.ladder 0 7
       LadderTakes s (wave 0) 7 ∧ reached x.done (s.readG 2).toNat ∧ x.busy = 0 ∧ ∀ p ps, x.pend = p :: ps → p.k = 0)
    ∧ (let x : Ladder := { ladder0 with pend := [push0 23] }
       (push0 23).lost = none ∧ x.busy = 0 ∧ (push0 23).k ≠ 0 ∧ (push0 23).k < x.nr ∧ x.occ.getLsbD 23 = false)
    ∧ (let x : Ladder := { ladder0 with pend := [push0 23], busy := 0x800000 }
       (ladderS x).ladder 0 7 = x ∧ x.busy ≠ 0 ∧ x.occ.getLsbD 23 = false ∧ (push0 23).k < 24
        ∧ { x with occ := 0xFFFFFF }.occ.getLsbD 23 = true)
    ∧ (Starts readerS (wave 0) ∧ readerS.me.arg = none ∧ (∀ w ∈ readerS.waiters (cellSector readerS.cell), taken w)
      ∧ readerS.ladWaits (cellSector readerS.cell) 7 ≠ [] ∧ ∀ r ∈ readerS.ladWaits (cellSector readerS.cell) 7, readerS.isMe r = false) := by
  refine ⟨⟨takes_ladder _ _ _ _ _, rfl, ?_, ?_, ?_⟩, ⟨takes_ladder _ _ _ _ _, rfl, ?_, ?_, .inl ⟨rfl, rfl⟩, ?_, ?_, ?_, ?_, ?_, ?_, ?_, ?_, ?_, rfl, ?_⟩,
    ⟨takes_ladder _ _ _ _ _, ?_, ?_, ?_, ?_⟩, ⟨takes_ladder _ _ _ _ _, ?_, rfl, ?_⟩, ⟨rfl, rfl, ?_, ?_, ?_⟩,
    ⟨rfl, ?_, ?_, ?_, ?_⟩, ⟨runs1 rfl rfl, cons_first _ rfl _ rfl⟩, rfl, ?_, ?_, ?_⟩
  case refine_29 => exact fun w hw => ⟨0, by rw [List.mem_singleton.mp hw]⟩
  case refine_21 => intro p ps h; cases h; rfl
  all_goals first | decide +kernel | (unfold bankFits; decide +kernel) | (unfold reached; decide +kernel)

/-! ### Witnesses: futures, tasks, queues, power -/

/-- A task descriptor (R273): template 0, one read of tile 16, one write of tile 17. -/
def taskD : List W64 := [2 ^ 44 + 2 ^ 40, 7, 8, 9, 0, 0, 0, 0, 16, 0, 0, 0, 0, 0, 0, 0, 17, 0, 0, 0, 0, 0, 0, 0].map (BitVec.ofNat 64)
/-- Template 0 with an instance on cell 0; its task is given. -/
def taskNet (task : Option Nat) (idle : Bool) : Net := { net0 with templs := 1, insts := [{ tmpl := 0, inst := 0, cells := [0], task := task, idle := idle }] }
def taskS (g : Tbl W64) (n : Net) (d : Die) (f : Tbl Future) (q : Queue := {}) : State :=
  { mapped (withBank g 0xFF40 (wordsBytes taskD)) with
    nets := [(1, n)], dies := [(0, { d with rpool := BitVec.ofNat 64 (2 ^ 41) })]
    sectors := [(0, { use := .running 1, futures := f, queue := q })] }
theorem runs_task (g : Tbl W64) (n : Net) (d : Die) (f : Tbl Future) : (taskS g n d f).Runs := runs1 rfl rfl
def name255 : W64 := BitVec.ofNat 64 (4095 * 2 ^ 20 + 255)
def futS (x : Future) : State := taskS [(1, name255), (2, name255), (3, 0xFFF8)] (taskNet none true) {} [(255, { x with v := true, gen := 4095 })]
theorem fst_of {α β : Type} (p : α × Option β) (h : p.2.isNone = true) : p = (p.1, none) := by
  obtain ⟨a, x⟩ := p
  cases x with
  | none => rfl
  | some e => cases h
/-- The list of free entries starts with entry 0. -/
theorem waits_none (s : State) (die : Nat) (x : Submit) (hx : x.time = none) (k : Nat) (hk : k < 4096)
    (h : (!(s.taskAt die k).v && !((s.nets.filter fun n => n.2.die == die).any fun n => n.2.insts.any fun i => i.task == some k && (!i.idle || s.instBusy n.1 i))) = true) :
    s.submitWaits die x = false ∧ k ∈ s.freeEntries die := by
  have hm : k ∈ s.freeEntries die := List.mem_filter.mpr ⟨List.mem_range.mpr hk, h⟩
  refine ⟨?_, hm⟩
  unfold State.submitWaits
  rw [hx, Bool.or_eq_false_iff]
  refine ⟨?_, rfl⟩
  rw [List.isEmpty_eq_false_iff]
  exact List.ne_nil_of_mem hm
theorem wit_FuturesComplete :
    (let s := taskS [(1, 0xFF40)] (taskNet none true) {} []
     s.Runs ∧ noTask s ∧ s.me.arg = none ∧ taskFits s 1 0
      ∧ (∃ s1, s.commit.submitHit s.ctx.net s.ctx.asid 0 s.templs (some (taskWords s 1 0)) (dcSubmit (taskWords s 1 0))
          (cellAddr s.cell + at2 s 1 0 % 2 ^ 16) = (s1, none) ∧ s1.submitWaits 0 (dcSubmit (taskWords s 1 0)) = false)
      ∧ (s.futureAt 0 255).v = false)
    ∧ (let s := futS { ref := 0xFFFE, st := 2, filled := true, value := 9 }
       let x := s.futureAt 0 255
       s.Runs ∧ noTask s ∧ Names s 1 0 255 ∧ x.ref < 0xFFFF ∧ x.st ≠ 3 ∧ 2 ≤ x.ref ∧ x.filled = true
        ∧ Names s 2 0 255 ∧ bankFits s 3 0 8 ∧ x.st = 2 ∧ Settled s)
    ∧ (let s := futS { ref := 0, st := 3 }
       let x := s.futureAt 0 255
       Names s 1 0 255 ∧ x.ref = 0 ∧ x.filled = false ∧ x.nofill = false ∧ x.st = 3)
    ∧ (let s := futS { ref := 1, st := 1 }
       let x := s.futureAt 0 255
       Names s 1 0 255 ∧ x.ref = 1 ∧ x.st = 1 ∧ x.filled = false ∧ x.nofill = false ∧ x.st ≠ 2)
    ∧ (futS { ref := 0xFFFF }).futureAt 0 255 = { v := true, gen := 4095, ref := 0xFFFF }
    ∧ NoName (withG [(1, name255)]) 1 := by
  refine ⟨⟨runs_task _ _ _ _, rfl, rfl, ⟨by decide, by decide⟩, ⟨_, fst_of _ ?_, (waits_none _ _ _ ?_ 0 (by decide) ?_).1⟩, rfl⟩,
    ⟨runs_task _ _ _ _, rfl, ?_, ?_, ?_, ?_, rfl, ?_, ?_, rfl, ?_⟩, ⟨?_, rfl, rfl, rfl, rfl⟩, ⟨?_, rfl, rfl, rfl, rfl, ?_⟩, rfl, ?_⟩
  case refine_10 =>
    intro die
    match die with
    | 0 => rfl
    | n + 1 => rfl
  all_goals first | decide +kernel | (unfold Names; decide +kernel) | (unfold NoName; decide +kernel) | (unfold bankFits; decide +kernel)
/-- Cell 0 runs entry 4095. -/
def inTask (x : Task) : State := taskS [] (taskNet (some 4095) false) { tasks := [(4095, { x with v := true })] } []
theorem wit_ReclamationPointsEndCapturedFirings :
    ((inTask { capt := some 1 }).Runs ∧ (inTask { capt := some 1 }).taskOf 0 1 = some 4095 ∧ ((inTask { capt := some 1 }).taskAt 0 4095).capt ≠ none)
    ∧ (inTask {}).taskOf 0 1 = some 4095 ∧ ((inTask {}).taskAt 0 4095).v = true ∧ ((inTask {}).taskAt 0 4095).capt = none :=
  ⟨⟨runs_task _ _ _ _, rfl, by decide⟩, rfl, rfl, rfl⟩
def waiting0 : Task := { v := true, held := some 0, qwait := true, qsect := 0 }
def readyT : Task := { v := true, st := 1, net := 1, ready := some 3, writes := [17], args := [1, 2, 3], record := some [4, 5] }
def captT : Task := { v := true, st := 2, capt := some 0, kids := some [(0, 255, 0)] }
theorem wit_TasksComplete :
    (let s := taskS [(1, 0xFF40)] (taskNet none true) {} []
     Starts s (wave 0) ∧ noTask s ∧ s.me.arg = none ∧ (0 : BitVec 16).toNat < s.templs ∧ s.templs ≤ (1 : BitVec 16).toNat
      ∧ (∃ e, e ∈ (Claim.chained s (wave 0)).commit.freeEntries 0) ∧ taskFits s 1 0
      ∧ ∃ s1, (Claim.chained s (wave 0)).commit.submitHit s.ctx.net s.ctx.asid 0 s.templs (some (taskWords s 1 0)) (dcSubmit (taskWords s 1 0))
          (cellAddr s.cell + at2 s 1 0 % 2 ^ 16) = (s1, none) ∧ s1.submitWaits 0 (dcSubmit (taskWords s 1 0)) = false)
    ∧ (let s := inTask { st := 2, inst := 0, tmpl := 0 }
       let x := s.taskAt 0 4095
       Starts s (wave 0) ∧ s.taskOf s.cell s.ctx.net = some 4095 ∧ s.me.arg = none ∧ x.v = true ∧ x.capt = none ∧ x.doneRq = false
        ∧ ∀ i, s.taskInst s.ctx.net 4095 = some i → s.instCommands s.ctx.net i = false
          ∧ s.anyFiring s.ctx.net (fun c => i.cells.contains c) (fun f => match f.wait with
            | some j => j.accesses
            | none => false) = false)
    ∧ ((inTask { doneRq := true }).taskOf 0 1 = some 4095 ∧ ((inTask { doneRq := true }).taskAt 0 4095).doneRq = true)
    ∧ (let s := taskS [] (taskNet none true) { tasks := [(4095, waiting0)] } [] { qcnt := 1, head := 31 }
       s.taskAt 0 4095 = waiting0 ∧ (s.dieAt 0).tasks = [(4095, waiting0)] ∧ s.allWaiters = [] ∧ (s.squeue 0).infl < (s.squeue 0).qcnt)
    ∧ (let s := { taskS [] (taskNet none true) { tasks := [(4095, readyT)] } [] with cells := [(0, { run := { ctx0 with firings := [] } })] }
       s.taskAt 0 4095 = readyT ∧ (s.dieAt 0).tasks = [(4095, readyT)] ∧ s.idleInst readyT.net readyT.tmpl = some { tmpl := 0, inst := 0, cells := [0] } ∧ s.poolFree 0 1 = some [0] ∧ (s.cellAt 0).slotFor 1 = some 0)
    ∧ (let s := taskS [] (taskNet (some 4095) false) { tasks := [(4095, captT)] } []
       s.taskAt 0 4095 = captT ∧ captT.kids = some [(0, 255, 0)] ∧ s.beingCaptured (0, 255, 0) = false) := by
  refine ⟨⟨⟨runs_task _ _ _ _, cons_first _ rfl _ rfl⟩, rfl, rfl, by decide, by decide, ⟨0, (waits_none _ _ ⟨0, [], [], [], none, none, none⟩ rfl 0 (by decide) ?_).2⟩,
      ⟨by decide, by decide⟩, ⟨_, fst_of _ ?_, (waits_none _ _ _ ?_ 0 (by decide) ?_).1⟩⟩,
    ⟨⟨runs_task _ _ _ _, cons_first _ rfl _ rfl⟩, rfl, rfl, rfl, rfl, rfl, ?_⟩, ⟨rfl, rfl⟩, ⟨rfl, rfl, rfl, by decide⟩, ⟨rfl, rfl, ?_, ?_, rfl⟩, rfl, rfl, ?_⟩
  case refine_5 =>
    intro i h
    obtain rfl := Option.some.inj (show some (⟨0, 0, [0], some 4095, false⟩ : Inst) = some i from h)
    exact ⟨rfl, rfl⟩
  all_goals decide +kernel
theorem none_pushes {s : State} {k : Nat} (h : s.allWaiters = []) : NonePushes s k := by rw [NonePushes, h]; intro w hw; cases hw
theorem none_pops {s : State} {k : Nat} (h : s.allWaiters = []) (hd : (List.all s.dies fun d => d.2.tasks.isEmpty) = true) : NonePops s k := by
  rw [NonePops, h]
  refine ⟨fun w hw => (by cases hw), fun d hm e he => ?_⟩
  rw [List.isEmpty_iff.mp (List.all_eq_true.mp hd d hm)] at he
  cases he
def queueS (q : Queue) (frozen : Bool) (quanta : Nat) : State :=
  { withG [(1, 0xFFC0), (2, 600), (3, 601)] with
    nets := [(1, { net0 with quanta := quanta })], sectors := [(0, { use := .running 1, queue := q, qfault := { frozen := frozen } })] }
theorem ready_q (q : Queue) (f : Bool) (n : Nat) : Ready (queueS q f n) (wave 1) := ready1 rfl rfl rfl rfl rfl rfl rfl
/-- One record in the spill ring at virtual address 0x10000, claimed for a refill. -/
def refillS : State := mapped (queueS { swr := 0, srd := 2 ^ 32 - 1, slog := 6, sbase := 0x10000, qcnt := 32, infl := 1 } false 0)
theorem wit_QueuesAndPowerComplete :
    (let s := queueS { qcnt := 31, head := 31 } false 0
     Ready s (wave 1) ∧ QueueIs s 0 (wave 1) 0 ∧ QueueIs s 0 (wave 2) 0 ∧ NonePushes s 0 ∧ (s.squeue 0).swr = (s.squeue 0).srd
      ∧ (s.squeue 0).qcnt < 32 ∧ bankFits s 1 0 64 ∧ NonePops s 0 ∧ (s.squeue 0).infl < (s.squeue 0).qcnt)
    ∧ (let s := queueS { qcnt := 32 } false 0
       Ready s (wave 1) ∧ QueueIs s 0 (wave 1) 0 ∧ NonePushes s 0 ∧ 32 ≤ (s.squeue 0).qcnt ∧ (s.squeue 0).slog = 0)
    ∧ (let s := queueS { qcnt := 32, slog := 6 } true 0
       Ready s (wave 1) ∧ NonePushes s 0 ∧ 32 ≤ (s.squeue 0).qcnt ∧ (s.squeue 0).slog ≠ 0 ∧ (s.sectorAt 0).qfault.frozen = true)
    ∧ (let s := queueS {} false 0
       Ready s (wave 1) ∧ NonePops s 0 ∧ (s.squeue 0).qcnt = 0)
    ∧ (let r : Queue := { swr := 2, srd := 2 ^ 32 - 6, qcnt := 24 }
       r.infl = 0 ∧ diff32 r.swr r.srd ≠ 0 ∧ min 8 (diff32 r.swr r.srd) ≤ 32 - r.qcnt)
    ∧ (let r := refillS.squeue 0
       r.infl ≠ 0 ∧ r.infl ≤ 32 ∧ r.spill = [] ∧ (refillS.sectorAt 0).qfault.frozen = false
        ∧ ∃ s1 rs, refillS.readBatch 0 r (refillS.sectorIssuer 0) r.srd r.infl = (s1, .ok rs))
    ∧ (let s := queueS {} false 0
       Ready s (wave 1) ∧ Tbl.find s.nets s.ctx.net = some net0 ∧ 600 = (s.readG 2).toNat ∧ s.quantaAlloc ≤ s.pool ∧ 600 ≤ s.pool - s.quantaAlloc)
    ∧ (let s := queueS {} false 1
       600 = (s.readG 2).toNat ∧ s.pool - s.quantaAlloc < 600)
 ∧ 600 < ((withG [(2, 601)]).readG 2).toNat
    ∧ { queueS {} false 1 with pool := 0 }.pool < { queueS {} false 1 with pool := 0 }.quantaAlloc := by
  refine ⟨⟨ready_q _ _ _, .inl ⟨rfl, rfl⟩, .inr ⟨by decide, rfl, rfl, net0, rfl, by decide⟩, none_pushes rfl, rfl, ?_, ?_, none_pops rfl rfl, ?_⟩,
    ⟨ready_q _ _ _, .inl ⟨rfl, rfl⟩, none_pushes rfl, ?_, rfl⟩, ⟨ready_q _ _ _, none_pushes rfl, ?_, ?_, rfl⟩, ⟨ready_q _ _ _, none_pops rfl rfl, rfl⟩,
    ⟨rfl, ?_, ?_⟩, ⟨?_, ?_, rfl, rfl, ok_of _ ?_⟩, ⟨ready_q _ _ _, rfl, rfl, ?_, ?_⟩, ⟨rfl, ?_⟩, ?_, ?_⟩
  all_goals first | decide +kernel | (unfold bankFits; decide +kernel)

/-! ### Witnesses: packets, bundles, castling -/

/-- Does an outcome give a value? -/
def gives {β : Type} [DecidableEq β] (p : Except Hit β) (b : β) : Bool :=
  match p with
  | .ok x => decide (x = b)
  | .error _ => false
theorem gives_of {α β : Type} [DecidableEq β] (p : α × Except Hit β) (b : β) (h : gives p.2 b = true) : p = (p.1, .ok b) := by
  obtain ⟨a, x⟩ := p
  cases x with
  | ok y => rw [show y = b from of_decide_eq_true h]
  | error e => cases h
/-- Queue 0xFFF of VM 63 under ASID 5: header at 0x10000, array at 0x11000, one packet at index 0. -/
def pktS (ws : List Nat) (q : PhysQ) : State :=
  { mapped base with
    mem := Mem.store (Mem.store (Mem.store tables 0x11000 (bytesOf ws)) 0x13FFC [0, 0, 0, 0x80]) 0x20000 [0xFF, 0xF, 0, 0x80]
    dbtab := [(126, 0x10001), (127, 0x20001)], ltab := 0x50000, pcie := [(63, { bar2 := some 0 })]
    queues := [(0xFFF, { q with v := true, vm := 63, asid := 5, log2n := 3, hdr := 0x10000, arr := 0x11000, rung := true, bell := 3 })] }
def pkBundle : List Nat := [0, 2 ^ 56 + 7 * 2 ^ 52, 0x12000, 0x13000, 1, 0, 0, 0]
def pkWait : List Nat := [0, 2 * 2 ^ 56 + 3 * 2 ^ 48, 0x13000, 5, 0, 0, 0, 0]
/-- Launch words of tenant 0. -/
def launchW (kind : Nat) : List W64 := [kind * 2 ^ 48, 0, 1, 2, 3, 0, 0, 0].map (BitVec.ofNat 64)
def launch0 (kind : Nat) : LaunchBody := ⟨⟨1, 0, 4⟩, launchW kind⟩
def launchS (e : Nat) : State :=
  let s := pktS [] {}
  { s with mem := Mem.store s.mem 0x50000 (toBytes 8 e), nets := [(1, taskNet none true)] }
/-- The queue has no room: eight packets from index 0 on. -/
def fullS : State := let s := launchS (2 ^ 63 + 0xFFF * 2 ^ 50); { s with mem := Mem.store s.mem 0x10000 [8] }
/-- No packet stands at the head of a queue. -/
def nothing (p : Except Hit (Option (Nat × List W64))) : Bool :=
  match p with
  | .ok none => true
  | _ => false
/-- A front end that finds a packet in each queue that it reads ends no reading. -/
theorem readings_stand {s : State} {die : Nat}
    (h : ∀ e ∈ s.queues, State.reading die e.2 = true → ∃ x, s.headPacket e.2 = .ok (some x)) : s.endReadings die = s := by
  unfold State.endReadings
  generalize s.queues = l at h
  suffices ∀ t : State, t = s → List.foldl _ t l = s from this s rfl
  induction l with
  | nil => exact fun t ht => ht
  | cons e l ih =>
    intro t ht
    refine ih (fun x hx => h x (List.mem_cons_of_mem _ hx)) _ ?_
    dsimp only
    split
    · next hr =>
      obtain ⟨x, hx⟩ := h e (List.mem_cons_self ..) hr
      rw [hx]; exact ht
    · exact ht
/-- Is there a packet at the head of a queue? -/
def something (p : Except Hit (Option (Nat × List W64))) : Bool :=
  match p with
  | .ok (some _) => true
  | _ => false
theorem something_of {p : Except Hit (Option (Nat × List W64))} (h : something p = true) : ∃ x, p = .ok (some x) := by
  unfold something at h
  split at h
  · exact ⟨_, rfl⟩
  · cases h
theorem pkt_stands {ws : List Nat} (h : something ((pktS ws {}).headPacket ((pktS ws {}).queueAt 0xFFF)) = true) :
    (pktS ws {}).endReadings 3 = pktS ws {} := by
  refine readings_stand fun e he _ => ?_
  obtain rfl := List.mem_singleton.mp he
  exact something_of h
theorem wit_PacketsAreServed :
    ((pktS [] {}).link = true ∧ (Tbl.get {} (pktS [] {}).pcie 63).bar2 ≠ none ∧ (Tbl.get {} (pktS [] {}).pcie 62).bar2 = none
      ∧ (pktS [] {}).bellPoison 63 0xFFF = none ∧ (pktS [] {}).bellPoison 63 0x10FFF = none)
    ∧ (pktS [] {}).doorbellQueue 63 0xFFF = some 0xFFF ∧ (pktS [] {}).doorbellQueue 63 0x10FFF = none
    ∧ (let s := pktS pkBundle {}
       s.mgmt.held = false ∧ (s.dieAt 3).fed ≠ s.clock + 1 ∧ s.endReadings 3 = s
        ∧ s.pickQueue 3 = some 0xFFF ∧ (∃ ws, s.readyPacket 3 (s.queueAt 0xFFF) = some (0, ws) ∧ pkOk ws = true ∧ pkType ws = 1)
        ∧ ∃ s1, s.writeVirt (State.Issuer.plain (s.queueAt 0xFFF).asid) (stepAddr (s.queueAt 0xFFF).hdr.toNat 8 1) (toBytes 8 1) = (s1, .ok ()))
    ∧ (let s := pktS pkWait {}
       s.endReadings 3 = s ∧ s.pickQueue 3 = some 0xFFF ∧ ∃ ws, s.readyPacket 3 (s.queueAt 0xFFF) = some (0, ws) ∧ pkOk ws = true ∧ pkType ws ≠ 1)
    ∧ (let s := pktS [] { wait := some (0, true, 3, 0x13000, 0) }
       (s.queueAt 0xFFF).wait = some (0, true, 3, 0x13000, 0) ∧ (s.queueAt 0xFFF).parked = false
        ∧ (∃ s1, s.signalHome (State.Issuer.plain (s.queueAt 0xFFF).asid) 0x13000 false = (s1, .ok 0x13000))
        ∧ condHolds 3 ((s.signalHome (State.Issuer.plain (s.queueAt 0xFFF).asid) 0x13000 false).1.load64 0x13000) 0 = true
        ∧ condHolds 3 ((s.signalHome (State.Issuer.plain (s.queueAt 0xFFF).asid) 0x13000 false).1.load64 0x13000) 1 = false)
    ∧ (let s := pktS [] { wait := some (0, false, 0, 0x13000, 1) }
       ∃ s1 old, (s.modQueue 0xFFF fun q => { q with wait := none }).unitSignal (State.Issuer.plain (s.queueAt 0xFFF).asid) 0x13000 1 wideAgent (some 5)
          = (s1, .ok old))
    ∧ (let s := pktS [1] {}
       s.pickQueue 3 = none ∧ State.reading 3 (s.queueAt 0xFFF) = true ∧ nothing (s.headPacket (s.queueAt 0xFFF)) = true)
    ∧ (let s := launchS (2 ^ 63 + 0xFFF * 2 ^ 50)
       (s.present 1 = true ∧ s.duplicate (launch0 1).pkt = false ∧ s.launchPoison 0 = none
        ∧ { s with peers := [(1, { got := [(0, [4])] })] }.present 1 = true ∧ { s with peers := [(1, { got := [(0, [4])] })] }.duplicate (launch0 1).pkt = true)
        ∧ (launchW 1).length = 8 ∧ (s.launchEntry 0).getLsbD 63 = true ∧ (s.launchEntry 0).toNat / 2 ^ 50 % 2 ^ 12 = 0xFFF
        ∧ (s.queueAt 0xFFF).v = true ∧ s.incoming = [] ∧ ∃ s1 s2, ((s.hear 1).acceptPacket (launch0 1).pkt).claimSlot 0xFFF = (s1, .ok 0) ∧ s1.writeClaimed 0xFFF 0 (launchW 1) = (s2, .ok true))
    ∧ (∃ s1 s2, ((fullS.hear 1).acceptPacket (launch0 1).pkt).claimSlot 0xFFF = (s1, .ok 8) ∧ s1.writeClaimed 0xFFF 8 (launchW 1) = (s2, .ok false))
    ∧ (let s := launchS (2 ^ 63 + 2 ^ 62 + 1 * 2 ^ 38)
       (s.launchEntry 0).getLsbD 63 = true ∧ (s.launchEntry 0).getLsbD 62 = true ∧ (s.launchEntry 0).toNat / 2 ^ 38 % 2 ^ 12 = 1
        ∧ Tbl.find s.nets 1 = some (taskNet none true) ∧ (taskNet none true).done = false ∧ (taskNet none true).halted = none
        ∧ ((launchW 2).getD 1 0).toNat % 2 ^ 16 < (taskNet none true).templs ∧ s.freeEntries 0 ≠ [])
    ∧ ((launchS 0).launchEntry 0).getLsbD 63 = false := by
  refine ⟨⟨rfl, ?_, rfl, ?_, ?_⟩, ?_, ?_, ⟨rfl, ?_, pkt_stands ?_, ?_, ⟨wordsAt (bytesOf pkBundle) 8, ?_, ?_, ?_⟩, _, gives_of _ _ ?_⟩, ⟨pkt_stands ?_, ?_, wordsAt (bytesOf pkWait) 8, ?_, ?_, ?_⟩,
    ⟨rfl, rfl, ⟨_, gives_of _ _ ?_⟩, ?_, ?_⟩, ok_of _ ?_, ⟨?_, ?_, ?_⟩, ⟨⟨?_, ?_, ?_, ?_, ?_⟩, rfl, ?_, ?_, rfl, rfl, _, _, gives_of _ _ ?_, gives_of _ _ ?_⟩,
    ⟨_, _, gives_of _ _ ?_, gives_of _ _ ?_⟩,
    ⟨?_, ?_, ?_, rfl, rfl, rfl, ?_, List.ne_nil_of_mem (a := 0) (waits_none _ _ ⟨0, [], [], [], none, none, none⟩ rfl 0 (by decide) ?_).2⟩, ?_⟩
  all_goals decide +kernel
/-- An image of one cell: a control place with one token, a transition that takes it and runs one `nop`. -/
def imageHead : List Byte :=
  bytesOf [0x31465053 * 2 ^ 32 + 2 ^ 16, 4 * 2 ^ 48 + 0x40, 0, 0, 0, 0, 0, 0]
    ++ bytesOf [0x80 * 2 ^ 32 + 16, 1 * 2 ^ 56, 0x90 * 2 ^ 32 + 8, 2 * 2 ^ 56, 0x98 * 2 ^ 32 + 24, 3 * 2 ^ 56, 0xB0 * 2 ^ 32 + 72, 15 * 2 ^ 56]
    ++ bytesOf [2 ^ 52 + 0xFFF * 2 ^ 20, 0] ++ bytesOf [2 ^ 42 + 2 ^ 30, 0] ++ record 3 [0x0010] [] [word0 0 0x21 5 0 0 0 0]
/-- Its digest, SHAKE256 of the bytes before its signature block, comes from another implementation of FIPS 202. -/
def image0 : List Byte := imageHead ++ bytesOf [0] ++ bytesOf [0xC41142232E842AFF, 0xBF0386A70ABDE870, 0x5807B4C83A3080EC, 0x680AB92F22CE4A3D, 0x6C0D0571790746B5, 0x9E22D2137A3F6614, 0x3BA5245675BCBB6B, 0x739B84FA3E675AF3]
theorem test_image_passes : Img.check image0 none = none := by decide +kernel
def bundle0 : Bundle := { pq := 0xFFF, idx := 0, die := 0, asid := 5, body := 0x20000, nsub := 2, sig := 0, addend := 0 }
/-- A net record, then a copy record. -/
def recN : List Nat := [2 ^ 56, 0x20000, 0, 0, 0, 6 * 2 ^ 59, 0, 0]
def recC : List Nat := [3 * 2 ^ 56, 0x20000, 0x20000, 0, 0, 0, 0, 0]
def recs0 : List (List W64) := [recN, recC].map fun r => r.map (BitVec.ofNat 64)
/-- Bytes behind everything that a memory lists. -/
def placed (m : Mem) (a : Nat) (bs : List Byte) : Mem :=
  m ++ ((List.range bs.length).zip bs).filterMap fun e => if e.2 = 0 then none else some (a + e.1, e.2)
def bundleS (b : Bundle) (bs : List Byte := []) : State := { pktS [] {} with mem := placed tables 0x20000 bs, bundles := [(7, b)] }
def bundleR (x : Stage) (y : Stage) : Bundle := { bundle0 with read := true, recs := recs0, stages := [x, y] }
/-- A die with some free sectors and tenant slot 0. -/
def grantS (busy : Nat) : State :=
  { bundleS (bundleR (.wanting { image := image0 }) .asked) with
    dies := [(0, { tenants := [(0, ⟨true, 5, 255, 0⟩)] })]
    sectors := (List.range busy).map fun k => (k, { use := .running 1 }) }
theorem wit_BundlesBecomeNets :
    (let s := bundleS bundle0 (bytesOf (recN ++ recC))
     s.bundleAt 7 = some bundle0 ∧ s.mgmt.held = false ∧ bundle0.read = false ∧ (∃ s1, s.readRecords (State.Issuer.plain 5) 0x20000 2 = (s1, .ok recs0)) ∧ RecordsOk recs0)
    ∧ (let s := bundleS (bundleR .asked .asked) image0
       let i := State.Issuer.plain 5
       let m := readImg image0
       blKind (recs0.getD 0 []) = 1 ∧ (bundleR .asked .asked).stages[0]? = some .asked
        ∧ (∃ s1, s.readImage i 0x20000 = (s1, .ok image0) ∧ s1.signPolicy 5 = none ∧ ∃ s2, s1.readVirt i 0 (8 * m.templates) = (s2, .ok [])
          ∧ ∃ s3, s2.readVirt i 0 m.argbytes = (s3, .ok []))
        ∧ m.templates = 0 ∧ State.strayPreload (bundleR .asked .asked) 0 m.cells = false ∧ tplOk m.cells [] = true ∧ m.argbytes % 16 = 0 ∧ m.argsOk [] (readArgs []) = true ∧ cellsOf m.cells [] ≤ 8064
        ∧ m.quanta ≤ s.pool ∧ State.crowded m = false)
    ∧ (let s := { bundleS (bundleR .asked .asked) with mem := tables }
       ∃ s1 bytes, s.readImage (State.Issuer.plain 5) 0x20000 = (s1, .ok bytes) ∧ (Img.check bytes none).isSome = true)
    ∧ ((∃ l, NextGrant (grantS 168) 0 7 0 l ∧ ((grantS 168).freeSectors 0).length < sectorsFor l)
      ∧ ∃ l, NextGrant (grantS 167) 0 7 0 l ∧ sectorsFor l ≤ ((grantS 167).freeSectors 0).length)
    ∧ (let b := bundleR (.granted { image := image0 }) .asked
       let x : Net := { asid := 5, sectors := [2], image := image0 }
       let s := { bundleS b with nets := [(0, net0), (tempNet 7 0, x)], sectors := [(2, { use := .granted 7 0 })] }
       Tbl.find s.nets (tempNet 7 0) = some x ∧ (readImg x.image).quanta ≤ s.quantaFree ∧ (readImg x.image).quanta = 0 ∧ b.sig = 0)
    ∧ (let b := bundleR .placed .posted
       let x : Net := { asid := 5, sectors := [2], map := [128], image := image0 }
       let s := { bundleS b with nets := [(0, net0), (tempNet 7 0, x)], sectors := [(2, { use := .granted 7 0 })] }
       Tbl.find s.nets (tempNet 7 0) = some x ∧ s.bundleAccepted b 7 = true ∧ s.placementWaits x.die (8 * 7 + 0) = false ∧ (readImg x.image).quanta ≤ s.quantaFree
        ∧ (readImg x.image).quanta = 0 ∧ 1 < 4096 ∧ Tbl.find s.nets 1 = none ∧ ∀ j, j < 1 → Tbl.find s.nets j ≠ none)
    ∧ (let b := bundleR .complete .posted
       b.read = true ∧ (∀ e ∈ b.recs.zip b.stages, if blKind e.1 = 1 then e.2 = .complete else e.2 = .posted)
        ∧ (∀ e ∈ (bundleS b).sectors, ∀ x ∈ e.2.node.ports ++ e.2.node.queue, x.pre = none) ∧ (∀ p ∈ (bundleS b).posts, p.iss.net ≠ 2 ^ 33)) := by
  refine ⟨⟨rfl, rfl, rfl, ⟨_, gives_of _ _ ?_⟩, ?_⟩, ⟨?_, rfl, ⟨_, gives_of _ _ ?_, ?_, _, gives_of _ _ ?_, _, gives_of _ _ ?_⟩, ?_, ?_, ?_, ?_, ?_, ?_, ?_, ?_⟩,
    ⟨_, _, got_of _ ?_, ?_⟩, ⟨⟨{ image := image0 }, ⟨0, ?_, ?_⟩, ?_⟩, ⟨{ image := image0 }, ⟨0, ?_, ?_⟩, ?_⟩⟩,
    ⟨rfl, ?_, ?_, rfl⟩, ⟨rfl, ?_, ?_, ?_, ?_, ?_, ?_, ?_⟩, rfl, ?_, ?_, ?_⟩
  all_goals first | decide +kernel | (unfold RecordsOk; decide +kernel)
/-- Contexts for a castle: the running one stopped at its safe point or with nothing in progress, a shadow one. -/
def castleS (c : CellSt) : State := { mapped base with cells := [(0, c)], clock := 65 }
def parked0 : Firing := { parked := true, wait := some (.ld 4 31 0 true 0x10000 (wave 3)) }
def shadow1 : Ctx := { ctx0 with firings := [parked0], parks := [(3, { valid := true })] }
theorem wit_CellsCastle :
    (cellOk 0 = true ∧ (castleS {}).cellAt 0 = {} ∧ (BitVec.ofNat 64 (2 ^ 63)).getLsbD 63 = true)
    ∧ (let c : CellSt := { run := { ctx0 with firings := [] }, go := true, slot := true }
       (castleS c).cellAt 0 = c ∧ c.go = true ∧ c.goClock + 65 ≤ (castleS c).clock
        ∧ (∀ f ∈ c.run.firings, f.ended = false → (castleS c).parkable 0 f = true) ∧ Quiet c.sh1)
    ∧ (let c : CellSt := { sh1 := ctx0, moving := [⟨2, false, 0x10000⟩] }
       (c.slotCtx 2).valid = true ∧ (castleS c).cellAt 0 = c
        ∧ ∃ s1, (castleS c).writeVirt { State.Issuer.plain 5 with cell := 0, net := 2 ^ 32 } 0x10000 (List.replicate 16384 0) = (s1, .ok ()))
    ∧ (let c : CellSt := { run := ctx0, moving := [⟨1, true, 0x10000⟩, ⟨2, true, 0x20000⟩] }
       c.moving = ⟨1, true, 0x10000⟩ :: [⟨2, true, 0x20000⟩] ∧ ∃ s1 bs, (castleS c).readVirt { State.Issuer.plain 5 with cell := 0, net := 2 ^ 32 } 0x10000 16384 = (s1, .ok bs))
    ∧ (let c : CellSt := { run := { ctx0 with firings := [] }, sh1 := shadow1 }
       let s := castleS c
       Tbl.find (c.slotCtx 2).parks 3 = some { valid := true } ∧ (c.slotCtx 2).firings = [parked0] ∧ parked0.parked = true ∧ parked0.id = 0
        ∧ parked0.rdy = false ∧ parked0.wait = some (.ld 4 31 0 true 0x10000 (wave 3))
        ∧ ∃ t1, resume (.ld 4 31 0 true 0x10000 (wave 3)) ((s.modCell 0 fun y => { y with run := { c.slotCtx 2 with regs := parked0.regs, firings := [{ parked0 with regs := {} }] } }).focus 0 0)
            = .next t1 ∧ t1.cell = 0 ∧ t1.fid = 0 ∧ t1.live = true ∧ t1.me.wait = none ∧ t1.ctx.firings.length = 1) := by
  refine ⟨⟨?_, rfl, ?_⟩, ⟨rfl, rfl, ?_, ?_, ?_⟩, ⟨rfl, rfl, _, gives_of _ _ ?_⟩, ⟨rfl, _, _, got_of _ ?_⟩, rfl, rfl, rfl, rfl, rfl, rfl, _, rfl, ?_, ?_, ?_, ?_, ?_⟩
  all_goals first | decide +kernel | (unfold Quiet; decide +kernel)

/-! ### Witnesses: the management cluster -/

/-- Firmware serves; 16 blocks of ASID 5 are in its pool. -/
def mailS : State :=
  { base with mgmt := { held := false, pools := [(5, List.replicate 16 (7 : BitVec 28))] }, pcie := [(0, { bar0 := some 0 })] }
theorem wit_MailboxCommandsComplete :
    MailOpen mailS .host ∧ MailOpen mailS .sideBand ∧ (Master.host ≠ .sideBand ∧ (wordOf [BitVec.ofNat 64 (2 ^ 23)] 0).toNat % 2 ^ 24 ≠ 0)
    ∧ (1 ≤ (BitVec.ofNat 64 (2 ^ 24)).toNat ∧ (BitVec.ofNat 64 (2 ^ 24)).toNat ≤ 2 ^ 24 ∧ 2 ^ 24 < (BitVec.ofNat 64 (2 ^ 24 + 1)).toNat)
    ∧ (1 ≤ (48 : W32).toNat ∧ (48 : W32).toNat ≤ 48 ∧ (0xFFFFD0 : W32).toNat + (48 : W32).toNat ≤ 2 ^ 24
      ∧ 2 ^ 24 < (0xFFFFD1 : W32).toNat + (48 : W32).toNat ∧ 48 < (49 : W32).toNat)
    ∧ ((600 : W64).toNat ≤ 600 ∧ 600 < (601 : W64).toNat)
    ∧ Region mailS 0 0 1 net0 ∧ 168 ≤ 168
    ∧ (Master.host ≠ .sideBand ∧ NoneDue mailS ∧ (BitVec.ofNat 64 (5 * 2 ^ 16 + 16)).toNat = 5 * 2 ^ 16 + 16
      ∧ 16 ≤ (Tbl.get [] mailS.mgmt.pools 5).length ∧ (Tbl.get [] mailS.mgmt.pools 6).length < 1)
    ∧ ((List.replicate 13 (2 ^ 28 - 1)).length ≤ 13 ∧ ∀ b ∈ List.replicate 13 (2 ^ 28 - 1), b < 2 ^ 28)
    ∧ ((BitVec.ofNat 64 (4095 * 2 ^ 52 + 0x20000 + 8 * 255)).toNat % 2 ^ 48 = cellAddr 0 + 0x20000 + 8 * 255
      ∧ (BitVec.ofNat 64 (4095 * 2 ^ 52 + 0x20000 + 8 * 255)).toNat / 2 ^ 52 ≠ 0
      ∧ (BitVec.ofNat 64 (4095 * 2 ^ 52 + 0x20000 + 8 * 255)).toNat / 2 ^ 48 % 16 = 0
      ∧ (mailS.sectorAt 0).use = .running 1 ∧ Tbl.find mailS.nets 1 = some net0 ∧ mailS.wheel.length < 4096)
    ∧ 4096 ≤ (List.replicate 4096 (⟨0, 0, 0⟩ : Timer)).length := by
  refine ⟨⟨rfl, rfl, fun _ => ⟨rfl, by decide⟩⟩, ⟨rfl, rfl, fun h => nomatch h⟩, ⟨by decide, by decide⟩, ?_, ?_, ?_, ⟨by decide, by decide, rfl, rfl⟩, by decide,
    ⟨by decide, by rintro e ⟨⟩, by decide, by decide, by decide⟩, by decide, ⟨by decide, by decide, by decide, rfl, rfl, by decide⟩, ?_⟩
  · decide
  · decide
  · decide
  · exact Nat.le_of_eq List.length_replicate.symm
def tokenT : Timer := ⟨5, BitVec.ofNat 64 (2 ^ 52 + 0x20000), 1⟩
def taskT : Timer := ⟨5, BitVec.ofNat 64 (2 ^ 48 + 3 * 2 ^ 46 + 4095 * 2 ^ 12 + 4095), 1⟩
def wheelS (x : Timer) : State := { base with wheel := [⟨4, 0, 0⟩, x], dies := [(3, { tasks := [(4095, { v := true, gen := 4095 })] })] }
/-- Core 7 runs the plug-in of slot 63, and some mode's exception may stand on it. -/
def pluginS (clock : Nat) (trap : Option CoreMode) : State :=
  { mailS with
    clock := clock, dies := [(0, { tenants := [(63, ⟨true, 5, 255, 0⟩)] })]
    mgmt := { mailS.mgmt with cores := List.replicate 7 {} ++ [{ mode := .u, pmp := pmpOf (some 63), trap := trap, asked := some 0 }] } }
theorem wit_WatchdogAndPluginStops :
    ¬ DogDue mailS ∧ DogDue { mailS with clock := 2000000000 } ∧ DogDue (pluginS 1 (some .s)) ∧ ¬ StopDue mailS 63
    ∧ StopDue (pluginS 20000000 none) 63 ∧ StopDue (pluginS 1 (some .u)) 63 := by
  have hm : (⟨.u, pmpOf (some 63), [], List.replicate 32 0, List.replicate 32 0, 0, [], some .u, some 0⟩ : CoreSt)
      ∈ (pluginS 1 (some .u)).mgmt.cores := List.mem_append_right _ (List.mem_singleton.mpr rfl)
  refine ⟨?_, .inl (by decide), .inr ⟨_, List.mem_append_right _ (List.mem_singleton.mpr rfl), .inl rfl⟩, ?_,
    ⟨by decide, by decide, _, List.mem_append_right _ (List.mem_singleton.mpr rfl), rfl, .inr ⟨0, rfl, by decide⟩⟩,
    ⟨by decide, by decide, _, hm, rfl, .inl rfl⟩⟩
  · rintro (h | ⟨c, hc, h⟩)
    · exact absurd h (by decide)
    · obtain rfl := List.eq_of_mem_replicate hc
      rcases h with h | h <;> cases h
  · rintro ⟨-, -, c, hc, h, -⟩
    obtain rfl := List.eq_of_mem_replicate hc
    cases h
theorem wit_ManagementEventsComplete :
    (State.reset.mgmt.held = true ∧ State.reset.mgmt.recovery = false ∧ State.reset.loadStages.isNone = true)
    ∧ (NoneDue mailS ∧ mailS.fwUp = true ∧ (mailS.sectorAt 0).use = .running 1 ∧ Tbl.find mailS.nets 1 = some net0
      ∧ ((7 : W32).setWidth 28) ∈ Tbl.get [] mailS.mgmt.pools 5 ∧ (mailS.sectorAt 0).blocks.length < 16)
    ∧ ({ mailS.mgmt with refills := [0] }.refills.head? = some 0)
    ∧ (Due (wheelS tokenT) 1 5 tokenT ∧ tokenT.word.getLsbD 48 = false
      ∧ (wheelS tokenT).regionOf (cellSector (timerCell tokenT.word)) = some tokenT.net
      ∧ { wheelS tokenT with sectors := [] }.regionOf (cellSector (timerCell tokenT.word)) ≠ some tokenT.net)
    ∧ (Due (wheelS taskT) 1 6 taskT ∧ taskT.word.getLsbD 48 = true ∧ taskT.word.toNat / 2 ^ 46 % 2 ^ 2 = 3 ∧ taskT.word.toNat % 2 ^ 12 = 4095
      ∧ ((wheelS taskT).taskAt 3 4095).v = true ∧ ((wheelS taskT).taskAt 3 4095).gen % 4096 = taskT.word.toNat / 2 ^ 12 % 2 ^ 12)
    ∧ (base.mgmt.restarting = false ∧ (1 :: List.replicate 40 (0 : Byte)).length = 41 ∧ (1 :: List.replicate 40 (0 : Byte)).head? = some 1
      ∧ { base.mgmt with sigs := 2 ^ 20 - 1025 }.sigs + 1025 = 2 ^ 20 ∧ { base.mgmt with sigs := 2 ^ 20 - 1 }.sigs < 2 ^ 20 ∧ 2 ^ 20 ≤ { base.mgmt with sigs := 2 ^ 20 }.sigs
      ∧ ([1] : List Byte).length ≠ 41 ∧ base.vendorId ≠ base.vendorId + 1)
    ∧ (mailS.mgmt.cores[7]? = some { mode := .m } ∧ ({ mode := .m } : CoreSt).trap = none ∧ (Tbl.get {} base.pcie 0).bar0 = none ∧ 63 ∉ mailS.mgmt.stopped ∧ 63 ∈ { mailS.mgmt with stopped := [63] }.stopped
      ∧ { mailS.mgmt with sideAt := 1 }.sideAt = mailS.clock + 1)
    ∧ (let s := pluginS 1 none
       (∃ c, s.mgmt.cores[7]? = some c ∧ c.plugin = some 63 ∧ c.trap = none ∧ c.mode = .u ∧ c.may .requestPage = true
          ∧ { c with mode := .s }.may .policies = true ∧ { c with mode := .s }.mode ≠ .u)
        ∧ s.fwUp = true ∧ (s.tenantAt 0 63).v = true ∧ (s.tenantAt 0 63).asid = 5 ∧ (s.tenantAt 0 62).asid ≠ 5)
    ∧ ({ base.mgmt with restarting := true }.restarting = true ∧ base.fwUp = true
      ∧ (List.replicate 8 (0 : W32)).length = 8 ∧ base.link = true ∧ { base with link := false }.link = false) := by
  refine ⟨?_, ⟨by rintro e ⟨⟩, rfl, rfl, rfl, ?_, ?_⟩, rfl, ⟨⟨rfl, ?_, ?_⟩, rfl, rfl, ?_⟩, ⟨⟨rfl, ?_, ?_⟩, rfl, ?_, ?_, rfl, rfl⟩, ?_, ⟨rfl, rfl, rfl, ?_, ?_, rfl⟩,
    ⟨⟨_, rfl, rfl, rfl, rfl, ?_, ?_, ?_⟩, rfl, ?_, ?_, ?_⟩, rfl, rfl, rfl, rfl, rfl⟩
  all_goals decide +kernel

/-! ### Witnesses: firmware's writes, services, scale-out -/

def storeS (ws : List W64) : State := withCtx { ctx0 with places := [(255, { kind := 2, words := ws })] }
def oneTrans (armed : Bool) : State :=
  withCtx { ctx0 with firings := [], trans := [(63, { loaded := true, armed := armed, record := record 3 [0x0010] [] [word0 0 0x21 5 0 0 0 0] })],
                      places := [(0, { kind := 1 })] }
theorem wit_FirmwareWritesComplete :
    (cellOk (3 * 2 ^ 14 + 167 * 64 + 47) = true ∧ (255 < 256) ∧ bits (BitVec.ofNat 64 (2 ^ 62 + 4095)) 63 62 ≠ 3
      ∧ bits (BitVec.ofNat 64 (2 ^ 62 + 4095)) 61 48 = 0 ∧ bits (BitVec.ofNat 64 (2 ^ 62 + 4095)) 35 13 = 0
      ∧ (placeOf base 0 255).kind ≠ 2 ∧ bits (BitVec.ofNat 64 (2 ^ 63)) 63 62 = 2 ∧ bits (BitVec.ofNat 64 (2 ^ 13)) 35 13 ≠ 0)
    ∧ (cellOk 0 = true ∧ (placeOf (storeS [1, 2, 3]) 0 255).kind = 2 ∧ 3 = (placeOf (storeS [1, 2, 3]) 0 255).words.length
      ∧ 3 < (placeOf (storeS [1, 2, 3, 4]) 0 255).words.length ∧ (placeOf (storeS [1, 2]) 0 255).words.length < 3)
    ∧ (let c := ((oneTrans false).cellAt 0).run
       (c.tr 63).armed = false ∧ c.infl 63 = 0 ∧ (504 < 512) ∧ (c.tr 63).loaded = true
        ∧ (c.trans.filter fun e => e.2.loaded && e.1 ≠ 63 && recPrio e.2.record == recPrio (patched c 63 504 0)).length < 48
        ∧ loadedBad ((oneTrans false).netView 0 0 (c.tr 63).record) true (c.tr 63).record = none
        ∧ (BitVec.ofNat 64 (2 ^ 63)).getLsbD 63 = true)
    ∧ (((oneTrans true).cellAt 0).run.tr 63).armed = true
    ∧ (sectorOk 935 = true ∧ (0x378 % 8 = 0 ∧ 8 ≤ 0x378 ∧ 0x378 < 0x380) ∧ (47 < 48))
    ∧ ((({} : Owner).qenq.length < 1024) ∧ 1024 ≤ (List.replicate 1024 (⟨0, 0⟩ : Quar)).length)
    ∧ (let s : State := { base with owners := [(9, { qenq := [⟨0, 0⟩] })] }
       (s.ownerAt 9).qenq = ⟨0, 0⟩ :: [] ∧ 0 ≤ s.qdone)
    ∧ (let s : State := { base with owners := [(9, { qenq := [⟨0, 2⟩], lanes := [(0, { lane0 0 1 0 with epoch := 1 })] })], qcur := 3 }
       (s.ownerAt 9).qenq = ⟨0, 2⟩ :: [] ∧ s.qdone < 2)
    ∧ ((4096 : W64).toNat ≤ base.asids ∧ base.asids < (4097 : W64).toNat)
    ∧ (sectorOk (3 * 256 + 167) = true ∧ (base.squeue 0).infl = 0 ∧ 1 ≤ bits (BitVec.ofNat 64 (60000 * 2 ^ 48)) 63 48
      ∧ bits (BitVec.ofNat 64 (60000 * 2 ^ 48)) 63 48 ≤ 60000 ∧ 60000 < bits (BitVec.ofNat 64 (60001 * 2 ^ 48)) 63 48)
    ∧ (bits (BitVec.ofNat 64 (2 ^ 62)) 15 0 = 0 ∧ bits (BitVec.ofNat 64 1) 15 0 ≠ 0)
    ∧ (let c := ((oneTrans false).cellAt 0).run
       (c.tr 63).loaded = true ∧ (c.tr 63).armed = false
        ∧ (loadedBad ((withCtx { ctx0 with trans := [(63, { loaded := true, record := record 3 [0x0010] [] [word0 0 0xFF 5 0 0 0 0] })] }).netView 0 0
            (record 3 [0x0010] [] [word0 0 0xFF 5 0 0 0 0])) true (record 3 [0x0010] [] [word0 0 0xFF 5 0 0 0 0])).isSome = true) := by
  refine ⟨?_, ?_, ?_, ?_, ?_, ⟨?_, ?_⟩, ⟨rfl, ?_⟩, ⟨rfl, ?_⟩, ?_, ⟨?_, rfl, ?_, ?_, ?_⟩, ?_, rfl, rfl, ?_⟩
  case refine_7 => exact Nat.le_of_eq List.length_replicate.symm
  all_goals decide +kernel
def froz : EngFault := { frozen := true, cls := 4, age := 2 ^ 28 }
/-- Every engine of a kind frozen, with its command. -/
def frozS : State :=
  { base with
    mgmt := { held := false }
    owners := [(8, { walkers := [(31, walk0)], streams := [(127, stream0 false)], lanes := [(15, lane0 0 4 0)], faults := [(31, froz), (127, froz), (143, froz)] })]
    sectors := [(0, { use := .running 1, qfault := froz, port := { f := froz } })] }
def stuckNet : Net := { net0 with map := [0], idle := 65536 }
def stuckS (f : Bool) : State :=
  { withCtx { ctx0 with firings := [], places := [(255, { kind := 2, words := [1, 2, 3, 4], entry := if f then [5] else [] })] } with
    nets := [(1, stuckNet)], dies := [(0, { zspill := BitVec.ofNat 64 (2 ^ 15 + 1) })] }
def replayV : W64 := BitVec.ofNat 64 (2 ^ 63 + 2 ^ 36 + 4095)
def replayS (x : Task) : State :=
  { taskS [] (taskNet none true) { tasks := [(4095, x)] } [] with cells := [(0, { run := { ctx0 with firings := [] } })] }
theorem wit_ServicesComplete :
    (∀ e ∈ [EngineId.port 0, .stream 8 127, .lane 8 15, .walker 31, .queue 0], (frozS.engState e).frozen = true ∧ Unspilled frozS e ∧ 2 ^ 28 ≤ (frozS.engState e).age)
    ∧ frozS.fwUp = true ∧ Commanded frozS (.stream 8 127) 1 ∧ Commanded frozS (.lane 8 15) 1 ∧ Commanded frozS (.walker 31) 1
    ∧ (let i : Instr := .ld 4 31 0 true 0x10000 (wave 3)
       let s := withMe { wait := some i, age := 2 ^ 22 }
       (s.cellAt 0).run.valid = true ∧ (s.focus 0 0).live = true ∧ Ordered (s.cellAt 0).run.firings ∧ (s.focus 0 0).me.wait = some i
        ∧ i.accesses = true ∧ (s.focus 0 0).me.queued = false ∧ 2 ^ 22 ≤ (s.focus 0 0).me.age)
    ∧ (∃ u, FreeExtent (stuckS true) 0 0 255 u 1 (2 ^ 14)) ∧ (∀ u, ¬ FreeExtent (stuckS true) 0 0 255 u 1 0)
    ∧ (Stuck (stuckS false) 1 stuckNet ∧ State.smallest ((stuckS false).fullPlaces 1) = none)
    ∧ (Stuck (stuckS true) 1 stuckNet ∧ State.smallest ((stuckS true).fullPlaces 1) = some (0, 255, 4)
      ∧ 0 + ((min (2 * 4) 4095 - 4 + 7) / 8 - (4 - 4 + 7) / 8) ≤ bits ((stuckS true).dieAt 0).zspill 14 0 ∧ bits ((stuckS true).dieAt 0).zspill 19 15 ≠ 0)
    ∧ (let x : Task := { v := true, writes := [17] }
       let s1 := replayAsked (replayS x) 0 replayV
       s1.replayBad 0 4095 0 1 = false ∧ s1.idleInst 1 (s1.taskAt 0 4095).tmpl = some { tmpl := 0, inst := 0, cells := [0] }
        ∧ (s1.modTask 0 4095 fun t => { t with fresh := [] }).poolFree 0 1 = some [0] ∧ replayV.getLsbD 63 = true
        ∧ replayV.toNat % 2 ^ 12 = 4095 ∧ replayV.toNat / 2 ^ 12 % 2 ^ 12 = 0 ∧ replayV.toNat / 2 ^ 36 % 2 ^ 12 = 1)
    ∧ (replayAsked (replayS {}) 0 replayV).replayBad 0 4095 0 1 = true
    ∧ (let s := { stuckS true with cells := [(0, { run := { ctx0 with firings := [], places := [(255, { kind := 2, cap := 4095, entry := [5], more := List.replicate 4091 0, words := [1, 2, 3, 4] })] } })] }
       State.smallest (s.fullPlaces 1) = some (0, 255, 4095))
    ∧ bits ({} : Die).zspill 19 15 = 0 := by
  refine ⟨?_, rfl, ⟨_, rfl, rfl⟩, ⟨_, rfl, rfl⟩, ⟨_, rfl, rfl⟩, ⟨rfl, rfl, List.pairwise_singleton _ _, rfl, rfl, rfl, ?_⟩,
    ⟨0, ?_, by decide⟩, fun u h => Nat.not_succ_le_zero _ h.2,
    ⟨⟨rfl, rfl, rfl, .inl rfl, ?_, rfl, ?_, ?_⟩, rfl⟩, ⟨⟨rfl, rfl, rfl, .inl rfl, ?_, rfl, ?_, ?_⟩, rfl, ?_, ?_⟩, ⟨?_, ?_, ?_, ?_, ?_, ?_, ?_⟩, ?_, ?_, ?_⟩
  case refine_1 =>
    intro e he
    simp only [List.mem_cons, List.not_mem_nil, or_false] at he
    rcases he with rfl | rfl | rfl | rfl | rfl <;> exact ⟨rfl, by first | trivial | rfl, Nat.le_refl _⟩
  all_goals decide +kernel
/-- One communicator, two ranks, this module's rank 0; no range is configured. -/
def peerS : State := { base with mem := [(0x20001E, 4), (0x20001F, 0x80)], commtab := 0x200000 }
def tx (tries : Nat) : TxPacket := { peer := 3, port := 15, vc := 7, num := 9, tries := tries, sent := 0, body := [1] }
theorem wit_ScaleOutEventsComplete :
    (let s : State := { peerS with sending := [tx 31], clock := 40000 }
     s.sending[0]? = some (tx 31) ∧ (tx 31).sent + 40000 ≤ s.clock ∧ (tx 31).tries < 32 ∧ s.ports ≠ 0)
    ∧ (base.ports.getLsbD 15 = true ∧ { base with ports := 0x7FFF }.ports.getLsbD 15 = false)
    ∧ ((base.peer 0).lost = false ∧ Present base 0 ∧ ¬ Present { base with peers := [(7, { lost := true })] } 7 ∧ peerS.peerAt 0 1 ∈ peerS.allPeers)
    ∧ (base.clock < (base.peer 7).heard + 2000000 ∧ ({ base with clock := 2000000 }.peer 7).heard + 2000000 ≤ { base with clock := 2000000 }.clock)
    ∧ peerS.comms.filter (fun c => (peerS.commNames c).contains (peerS.peerAt 0 1)) = [0] ∧ peerS.colls = [] ∧ peerS.fring = 0 := by
  have hn : peerS.commNames 0 = [peerS.peerAt 0 1] := rfl
  have hc : peerS.comms = [0] := by decide +kernel
  refine ⟨⟨rfl, ?_, ?_, ?_⟩, ⟨?_, ?_⟩, ⟨rfl, .inl rfl, ?_, ?_⟩, ?_, ?_, rfl, rfl⟩
  case refine_6 =>
    rintro (h | h)
    · cases h
    · exact absurd h (by decide +kernel)
  case refine_7 => rw [State.allPeers, hc]; simp [hn]
  case refine_9 => rw [hc]; simp [hn]
  all_goals decide +kernel

/-! ### Witnesses: the step, decoding, the invariant -/

/-- The first instruction of the firing may issue in clock 1. -/
def nextS (ws : List W32) (f : Firing) : State :=
  { withCtx { ctx0 with trans := [(0, { loaded := true, armed := true, record := record 3 [] [] ws })], firings := [f] } with clock := 1 }
/-- A transition for each body, and two firings in progress. -/
def twoS (bs : List (List W32)) (fs : List Firing) : State :=
  { withCtx { ctx0 with trans := bs.zipIdx.map fun e => (e.2, { loaded := true, armed := true, record := record 3 [] [] e.1 }), firings := fs } with
    clock := 1, banks := (plainS 8 8).banks }
theorem wit_StepRunsTheDecodedInstruction :
    (let s := nextS [word0 0 0x21 5 0 0 0 0] {}
     Issues (s.remember.focus 0 0) .nop 1 ∧ s.remember.readyFiring = some (0, 0))
    ∧ ((nextS [word0 0 0x21 5 0 0 0 0] { wait := some (.fenceRel (wave 0)) }).remember.focus 0 0).mayIssue = false
    ∧ (let f := nextS [word0 0 0 1 3 3 3 0] {}
       let s := { f with cells := [(0, { run := { (f.cellAt 0).run with firings := [{}, { id := 1 }] } })] }.remember.focus 0 1
       s.mayIssue = true ∧ decodeBytes s.bodyBytes = .ok (.sub 3 3 3 false, 1) ∧ s.stalls (.sub 3 3 3 false) = true)
    ∧ (let w := [word0 0b10 0x40 0x07 3 4 0 0, 0xFFFFFFF8, waveW 3]
       let s := (twoS [w, w] [{ wait := some (.ld 7 3 4 false 0 (wave 3)), queued := true }, { id := 1, trans := 1 }]).remember.focus 0 1
       Next s (.ld 7 3 4 false 0xFFFFFFF8 (wave 3)) 3 ∧ s.stalls (.ld 7 3 4 false 0xFFFFFFF8 (wave 3)) = false
        ∧ s.mustQueue (.ld 7 3 4 false 0xFFFFFFF8 (wave 3)) = true)
    ∧ (let s := (twoS [[word0 0b10 0x42 0 0 4 0 0, 64, waveW 0], [word0 0b01 0x80 0x00 0 0 0 1, vectorWord 1 2 3 8 0 0 0 0]]
          [{}, { id := 1, trans := 1, regs := { sh := [(1, 0x100), (2, 0x140), (3, 0x180)] } }]).remember.focus 0 1
       Next s (.vadd (vop 8) true) 2 ∧ s.stalls (.vadd (vop 8) true) = false ∧ s.mustQueue (.vadd (vop 8) true) = false
        ∧ s.mustHold (.vadd (vop 8) true) = true)
    ∧ ¬ inBody .boot ∧ inBody .nop := by
  refine ⟨⟨⟨?_, rfl, ?_, ?_, ?_⟩, ?_⟩, ?_, ⟨?_, rfl, ?_⟩, ⟨⟨?_, rfl⟩, ?_, ?_⟩, ⟨⟨?_, rfl⟩, ?_, ?_, ?_⟩, ?_, ?_⟩ <;> first | decide +kernel | (unfold inBody; decide +kernel)
theorem wit_DecodeUndoesEncode : (Instr.emit true 5 0 0xFF 4095 0xFFF).wf = true ∧ inBody (.emit true 5 0 0xFF 4095 0xFFF)
    ∧ (Instr.ladRung 31 7 23 31 0xFFFFFFFF ⟨0xFD, 0xFF, 0, 5, true, true, 0⟩).wf = true ∧ (Instr.vfma ⟨15, 15, 15, 12, 4, true, 0, 0⟩ true).wf = true := by
  refine ⟨?_, ?_, ?_, ?_⟩ <;> first | decide +kernel | (unfold inBody; decide +kernel)
theorem wit_EncodeUndoesDecode : decode [word0 0b01 0x01 0x02 31 31 0 1, 0x80000000, 7] = .ok (.addi 31 31 0x80000000 true, 2) := rfl
theorem good_ctx0 : ctx0.good := ⟨List.pairwise_singleton _ _, by decide⟩
theorem wit_StepKeepsInv : base.Inv ∧ ∃ t, step base = .next t := by
  refine ⟨⟨rfl, rfl, ?_, ?_⟩, ?_⟩
  · intro e he
    obtain rfl := List.mem_singleton.mp he
    exact ⟨good_ctx0, ⟨List.Pairwise.nil, by decide⟩, ⟨List.Pairwise.nil, by decide⟩⟩
  · intro e he
    cases he
  · exact ⟨_, rfl⟩

/-! ### The words that the spec prints, beside their assembly -/

theorem test_printed_scalar :
    decode [0x48000000, 0x01001FFF] = .ok (.emit false 0 0 1 1 0xFFF, 2) ∧ decode [0x48009000, 0x03001005] = .ok (.emit true 1 0 3 1 5, 2)
    ∧ decode [0x48023800, 0x02000FFF] = .ok (.take 7 2 false, 2) ∧ decode [0x08400003] = .ok (.sel 1, 1) ∧ decode [0x0844004A] = .ok (.trap 37, 1)
    ∧ decode [0x00001844] = .ok (.add 3 1 2 false, 1) ∧ decode [0x48812000, 0] = .ok (.csrr 4 0 false, 2) ∧ decode [0x08450000] = .ok (.nop, 1) :=
  ⟨rfl, rfl, rfl, rfl, rfl, rfl, rfl, rfl⟩
theorem test_printed_memory :
    decode [0x900328C0, 0x40, 0x03020400] = .ok (.ld 3 5 3 false 0x40 ⟨3, 2, 4, 0, false, false, 0⟩, 3)
    ∧ decode [0x90801100, 0x80, 0x01FFFF00] = .ok (.vld 2 4 0x80 ⟨1, 0xFF, 0xFF, 0, false, false, 0⟩, 3)
    ∧ decode [0x98012086, 0, 0x0504FF8B] = .ok (.aadd true 4 2 3 false 0 ⟨5, 4, 0xFF, 4, false, true, 3⟩, 3)
    ∧ decode [0x98410000, 0, 0x06050720] = .ok (.fenceRel ⟨6, 5, 7, 1, false, false, 0⟩, 3)
    ∧ decode [0xD88031D0, 0, 0x01FFFF6B, 0] = .ok (.cpyPost 6 7 8 0 ⟨1, 0xFF, 0xFF, 3, false, true, 3⟩, 4) := ⟨rfl, rfl, rfl, rfl, rfl⟩
theorem test_printed_vector :
    decode [0x60000000, 0x201A0000] = .ok (.vadd ⟨2, 0, 1, 10, 0, false, 0, 0⟩ false, 2)
    ∧ decode [0x60400000, 0x31230007] = .ok (.vsel ⟨3, 1, 2, 3, 0, false, 0, 7⟩ false, 2)
    ∧ decode [0x60C00001, 0x10080000] = .ok (.vredSum ⟨1, 0, 0, 8, 0, false, 0, 0⟩ true, 2)
    ∧ decode [0x61403800, 0x20170400] = .ok (.vaddc 7 ⟨2, 0, 1, 7, 0, false, 4, 0⟩ false, 2)
    ∧ decode [0x68000000, 0x310B1000] = .ok (.vcvt ⟨3, 1, 0, 11, 0, true, 0, 0⟩ false, 2)
    ∧ decode [0x68040000, 0x540D1002] = .ok (.vqnt ⟨5, 4, 0, 13, 0, true, 0, 2⟩, 2)
    ∧ decode [0x68400000, 0x66090000] = .ok (.vexp2 ⟨6, 6, 0, 9, 0, false, 0, 0⟩ false, 2) := ⟨rfl, rfl, rfl, rfl, rfl, rfl, rfl⟩
theorem test_printed_units :
    decode [0xF0000086, 0, 0x01FFFF01, 0x02040000] = .ok (.mxLds 0 2 3 1 1 false 0 ⟨1, 0xFF, 0xFF, 0, false, false, 1⟩, 4)
    ∧ decode [0xF0012086, 0x40, 0x02010329, 0x02040800] = .ok (.mxMul 4 2 3 1 1 1 false false false 0x40 ⟨2, 1, 3, 1, false, true, 1⟩, 4)
    ∧ decode [0xF0032086, 0x80, 0x0302FF29, 0x02040000] = .ok (.mxDrain 4 2 3 1 1 false false false false 0x80 ⟨3, 2, 0xFF, 1, false, true, 1⟩, 4)
    ∧ decode [0x30400000] = .ok (.mxSwap, 1) ∧ decode [0x30410002] = .ok (.mxClr true, 1) ∧ decode [0x30423803] = .ok (.mxStat 7 true true, 1)
    ∧ decode [0x70C22980, 0] = .ok (.khGen 5 6, 2)
    ∧ decode [0xF8000000, 0x100, 0x01FF0200, 0x00803000] = .ok (.ladInit 0 0 0 2 3 0x100 ⟨1, 0xFF, 2, 0, false, false, 0⟩, 4)
    ∧ decode [0xF8022080, 0, 0x0201FF00, 0] = .ok (.ladPush 4 0 2 0 0 ⟨2, 1, 0xFF, 0, false, false, 0⟩, 4)
    ∧ decode [0xF8043800, 0x200, 0x03FFFF00, 0x02000000] = .ok (.ladRung 7 0 2 0 0x200 ⟨3, 0xFF, 0xFF, 0, false, false, 0⟩, 4)
    ∧ decode [0x78404000, 0x300] = .ok (.futSpawn 8 0 0x300, 2) ∧ decode [0x78434A01, 0] = .ok (.futWaitReg 9 8 true, 2)
    ∧ decode [0xB8C00400, 0, 0x01FFFF29] = .ok (.qPushReg 16 0 ⟨1, 0xFF, 0xFF, 1, false, true, 1⟩, 3)
    ∧ decode [0xB8C25000, 0, 0x02010331] = .ok (.qPopReg 10 0 false ⟨2, 1, 3, 1, true, false, 1⟩, 3)
    ∧ decode [0x39002980] = .ok (.pwrAcq 5 6, 1) := ⟨rfl, rfl, rfl, rfl, rfl, rfl, rfl, rfl, rfl, rfl, rfl, rfl, rfl, rfl, rfl⟩

/-! ### The spec's worked examples -/

def g3After (i : Instr) (g : Tbl W64) : W64 := (after i (withG g)).readG 3
/-- R162: −7 by 2. -/
theorem test_div : g3After (.div 3 1 2 false) [(1, -7), (2, 2)] = -3 ∧ g3After (.rem 3 1 2 false) [(1, -7), (2, 2)] = -1 := by decide
/-- R162's table: by zero, and the one quotient that does not fit. -/
theorem test_div_edges : g3After (.div 3 1 2 false) [(1, 9)] = -1 ∧ g3After (.remz 3 1 2 false) [(1, 9)] = 9
    ∧ g3After (.div 3 1 2 false) [(1, 0x8000000000000000), (2, -1)] = 0x8000000000000000
    ∧ g3After (.rem 3 1 2 false) [(1, 0x8000000000000000), (2, -1)] = 0 := by decide
/-- R165: 0x0020_0000_4000_0240 by `li` and `lih`; `andi` with −1 keeps the low word. -/
theorem test_li_lih : (after (.lih 3 0x00200000 false) (after (.li 3 0x40000240 false) (withG []))).readG 3 = 0x0020000040000240
    ∧ g3After (.andi 3 2 (-1) false) [(2, 0x0020000040000240)] = 0x40000240 := by decide
/-- R67: scale byte 0x7D, bytes 0xF3, 0x58, 0x0C: 3/4, −1/4, 6, 0, 0. -/
theorem test_oci4 : (ociBlock (rowCodes 13 32 ([0xF3, 0x58, 0x0C] ++ List.replicate 13 0)) 0x7D).take 6
    = [.fin false 3 (-2), .fin true 1 (-2), .fin false 12 (-1), .fin false 0 (-2), .fin false 0 (-2), .fin false 0 (-2)] := by decide +kernel
/-- R81's worked alignment, resolved: FP32 0x5380_0000. -/
theorem test_alignment : (resolveElem { out := false } 0 (dotBlocks {} [[0x4980, 0x3E40, 0xBD20].map (tyValue 10)] [[0x4980, 0x3E00, 0x3D00].map (tyValue 10)]) 0).1
    = 0x53800000 := by decide +kernel
/-- R208: the record of a 4 × 8 BF16 tile; element (7, 3) lies at 0x206E. -/
theorem test_shape_record :
    let h := shapeOf (bytesOf [0xA080000020000000, 0x0008000400010001, 0x0000000100000010, 0, 0, 0, 0, 0])
    h.ty = 10 ∧ h.ndm1 = 1 ∧ h.base = 0x2000 ∧ h.exts = [8, 4, 1, 1] ∧ h.strs = [1, 16, 0, 0] ∧ h.n = 32 := by decide +kernel
/-- R224: with L = 4, 2^128 − 1 and 1 give 0 in all four limbs and one carry. -/
theorem test_vaddc :
    let s := plainS 7 4
    let b := Mem.store (Mem.store s.banks 0x180 (shapeB 7 4 0x3000 false none)) 0x2000 (List.replicate 16 0xFF)
    let t := after (.vaddc 7 { vop 7 with chain := 4 } false) { s with banks := Mem.store b 0x3000 [1] }
    t.readG 7 = 1 ∧ Mem.load t.banks 0x1000 16 = List.replicate 16 0 := by decide +kernel
/-- The entry of R111. -/
def entry111 : Nat := 2 ^ 255 + 0x2A * 2 ^ 240 + 5 * 2 ^ 228 + 2 * 2 ^ 224 + 0x0020000040000000 * 2 ^ 128 + 64 * 2 ^ 32 + 10
/-- R252's `kh.new g5, g6, 10`, and the checks of R110 and R111 on the handle that it returns. -/
theorem test_handle :
    let h : W64 := 0x02A005000130000A
    let e : BitVec 256 := BitVec.ofNat 256 entry111
    let s : State := { withG [(6, 0x13)] with mem := placed [] 0x9260 (toBytes 32 entry111), htbase := 0x9000, htlen := 0x100000 }
    (after (.khNew 5 6 10 false) s).readG 5 = h
    ∧ blockAddr e 0xB0000009 = 0x0020000040000240 ∧ slotIn e 9 = 1
    ∧ (s.handleHit h 9 e).isNone = true ∧ (s.handleHit h 10 e).map (·.cls) = some 5 ∧ (State.tenantHit 0x2B h 9).map (·.cls) = some 7 := by
  decide +kernel
/-- R151's t_reload: p_cnt holds 5; `mset 3`, `emit 2` and an output arc of weight 1 leave 6, and 4 tokens from the fabric make 10. -/
theorem test_deposit_order :
    let s : State := { withCtx { ctx0 with
        trans := [(0, { loaded := true, armed := true, record := record 3 [] [0x0110] [word0 0 0x21 5 0 0 0 0] })]
        places := [(1, { kind := 1, count := 5 })], firings := [{ woff := 1, held := [.set 1 3, .tokens 1 2] }] } with
      clock := 2, flights := [flightOf 1 (.tokens 4)] }
    let t := after (.firingDeposit 0 0) s
    ((t.cellAt 0).run.place 1).count = 6 ∧ ((after (.tokenArrival 0) t).cellAt 0).run.place 1 = { kind := 1, count := 10 } := by decide +kernel
/-- R250's example: ten E4M3 tokens, q = [1, 0, 0, 0], σ = 1; every exponential is exact, whatever the free choice of log 12. -/
theorem test_lane :
    let fx (n : Int) : Machine.Num := .ofInt n
    let step (x : LaneState) (p : Int × Int) : LaneState :=
      laneFold 0 0x3F800000 [0x3F800000, 0, 0, 0] x [fx p.2, fx 0, fx 0, fx 0] [fx p.1, fx 1, fx (-p.1), fx 2]
    let x := [(0, 2), (1, 1), (2, 1), (3, 0), (4, 0), (5, 1), (6, 0), (7, 0), (8, 0), (9, 0)].foldl step ⟨0xFF800000, 0, [0, 0, 0, 0]⟩
    x.m = 0x40000000 ∧ x.l = 0x40800000 ∧ x.finish.o = [0x40540000, 0x3F800000, 0xC0540000, 0x40000000] := by decide +kernel

/-! ### Memory order (R284 to R298, log 5) -/

/-- Cell 0 has an accepted store of one byte to cell 1's bank and one after it to the byte beside; another cell has one. -/
def late0 (cell a : Nat) : Late := { iss := { cell := cell, net := 1, asid := 5 }, virt := false, addr := cellAddr 1 + a, bytes := [7], parts := [], epoch := 1 }
def lateS : State := { withG [(1, BitVec.ofNat 64 (cellAddr 1))] with stores := [late0 0 8, late0 0 9, late0 2 8, late0 0 8] }
def link0 : Link := { agent := 1, scope := 5, know := [(2, 9)], floor := 3 }
theorem wit_MemoryOrderIsKept :
    ((withMe {}).offChain (.ld 4 1 2 false 0 { wave 1 with pred := 0 }) = true ∧ (withMe {}).offChain (.ld 4 1 2 false 0 (wave 1)) = false)
    ∧ (Instr.bar 0 1 (wave 0)).releases = true ∧ (Instr.nop).releases = false ∧ (base.relScopeOf .nop).isNone = true ∧ (Instr.nop).wave = none
    ∧ (let i : Instr := .ld 4 1 2 false 0 { wave 1 with acq := true, scope := 3 }
       let s := withMe { sync := [link0] }
       i.accesses = true ∧ i.wave.isSome = true ∧ i.acqScope = some 3 ∧ s.offChain i = false ∧ link0 ∈ s.me.sync ∧ link0.reaches s.cell 3 = true)
    ∧ (let l := late0 0 9
       lateS.stores[1]? = some l ∧ lateS.mine l = true ∧ l.virt = false
        ∧ (∀ m ∈ lateS.stores.take 1, m.iss.cell = l.iss.cell → m.iss.net = l.iss.net → l.last = false ∧ m.meets false l.addr 1 = false))
    ∧ (lateS.stores[3]? = some (late0 0 8) ∧ late0 0 8 ∈ lateS.stores.take 3 ∧ (late0 0 8).meets false (late0 0 8).addr 1 = true)
    ∧ ([1, 2] : List Byte).length = ([3, 4] : List Byte).length := by
  refine ⟨⟨?_, ?_⟩, rfl, rfl, ?_, rfl, ⟨?_, ?_, ?_, ?_, ?_, ?_⟩, ⟨rfl, ?_, rfl, ?_⟩, ⟨rfl, ?_, ?_⟩, rfl⟩ <;> decide
/-- R285, R287: a store that the schedule puts off leaves the other bank, and its cell's load of the address sees it. -/
theorem test_store_put_off :
    let s : State := { withG [(1, BitVec.ofNat 64 (cellAddr 1)), (2, 0x55)] with late := 1 }
    let t := after (.st 1 2 1 0 (wave 2)) s
    Mem.read t.banks (cellAddr 1) = 0 ∧ t.stores.length = 1 ∧ (after (.ld 5 3 1 false 0 ⟨2, 1, 3, 0, false, false, 2⟩) t).readG 3 = 0x55 := by decide +kernel
/-- R286, R292: a load of another cell's bank may read an older version; after a version that it happens after, it may not. -/
theorem test_older_version :
    let s : State := { withG [(1, BitVec.ofNat 64 (cellAddr 1))] with
      late := 1, past := [([(cellAddr 1, 9)], []), ([], [])], banks := [(cellAddr 1, 9)] }
    (after (.ld 5 3 1 false 0 (wave 2)) s).readG 3 = 0 ∧ (after (.ld 5 3 1 false 0 (wave 2)) (s.acquire 2)).readG 3 = 9 := by decide +kernel
/-- R287, R289: `fence.rel` performs the cell's accepted stores in their order, and no other cell's. -/
theorem test_release_performs :
    let t := after (.fenceRel (wave 0)) lateS
    t.stores = [late0 2 8] ∧ t.banks = [(cellAddr 1 + 8, 7), (cellAddr 1 + 9, 7)] := by decide +kernel
/-- R289 to R291: an `emit.rel` links what its cell knows of others' writes and its own, at its scope; another `emit` links
nothing. -/
theorem test_release_links :
    let s := withCtx { ctx0 with know := [(5, 7)], floor := 2 }
    ((after (.emit true 1 0 2 1 1) s).flights.map (·.rel)) = [some { agent := 0, scope := 1, know := [(5, 7)], floor := 2 }]
    ∧ ((after (.emit false 0 0 2 1 1) s).flights.map (·.rel)) = [none] := by decide +kernel

/-! ### Witnesses: waits, refusals, second cases -/

theorem wit_StreamCommandsWait :
    (let s : State := { engineS [(1, 0x800)] 0 0 (streamD false) with
       owners := [(0, { streams := (List.range 128).map fun n => (n, stream0 false) })] }
     sdOk (imageWords s 0x800) (s.ringHead (sdRing (imageWords s 0x800))) = true ∧ (vaOwner (sdBase (imageWords s 0x800))).getD 0 = 0
      ∧ ∀ n, n < 128 → Tbl.find (s.ownerAt 0).streams n ≠ none)
    ∧ (let s : State := { engineS [(1, 0x800)] 0 0 walkD with owners := [(8, { walkers := (List.range 32).map fun n => (n, walk0) })] }
       wdOk (imageWords s 0x800) = true ∧ ∀ n, n < 32 → Tbl.find (s.ownerAt 8).walkers n ≠ none)
    ∧ (let x := { stream0 false with row := 1 }
       let s : State := { engineS [(1, 1023)] 0 0 [] with owners := [(7, { streams := [(127, x)] })] }
       Ready s (wave 0) ∧ Tbl.find (s.ownerAt 7).streams 127 = some x ∧ x.iss.net = s.ctx.net ∧ x.ended = false ∧ x.row ≠ 0)
    ∧ (let i : Instr := .strUnsub 31 1 (wave 0)
       let x := { stream0 false with ended := true }
       let s : State := { withMe { wait := some i, arg := some (7 * 128 + 127) } with owners := [(7, { streams := [(127, x)] })] }
       (s.focus 0 0).released = some i ∧ (s.focus 0 0).me.arg = some (7 * 128 + 127) ∧ Tbl.find (s.ownerAt 7).streams 127 = some x
        ∧ x.iss.net = (s.focus 0 0).ctx.net ∧ x.ended = true)
    ∧ walk0.lost = none := by
  refine ⟨⟨?_, ?_, ?_⟩, ⟨?_, ?_⟩, ⟨ready1 rfl rfl rfl rfl rfl rfl rfl, rfl, rfl, rfl, ?_⟩, ⟨rfl, rfl, rfl, rfl, rfl⟩, rfl⟩ <;> decide +kernel
/-- The head of a chunk of communicator 0's operation with SEQ 0, from peer 1. -/
def head1 : ChunkHead := ⟨0, 0, ⟨1, 0, 4⟩⟩
theorem wit_CollectivePacketsArrive :
    (let s : State := { engineS [(1, 0x800)] 0 0 (collD 0 2 0) with mem := [(0x20001F, 0x80)], commtab := 0x200000 }
     s.commPoison (cdComm (imageWords s (at2 s 1 0))) = none ∧ bytesExist (s.commBase + 32 * cdComm (imageWords s (at2 s 1 0))) 32 = true)
    ∧ (collS coll1).present ((collS coll1).peerAt coll1.peers 0) = true
    ∧ (∀ p : Nat, ({ collS coll1 with peers := [(p, { lost := true })] } : State).present p = false)
    ∧ (let x := coll0 0 2 0 0
       let s := collS x
       s.present head1.pkt.peer = true ∧ s.duplicate head1.pkt = false
        ∧ (s.colls.findIdx? fun y => y.comm == head1.comm && y.seq == head1.seq) = some 0 ∧ s.taskOf x.iss.cell x.iss.net = none
        ∧ ∃ s2, ((s.hear head1.pkt.peer).acceptPacket head1.pkt).writeVirt x.iss (stepAddr (cdRecv x.desc) 1 0) [1, 2, 3, 4, 5, 6, 7, 8] = (s2, .ok ()))
    ∧ { base with peers := [(1, { got := [(0, [4])] })] }.duplicate head1.pkt = true ∧ base.present head1.pkt.peer = true ∧ base.colls = [] := by
  refine ⟨⟨?_, ?_⟩, rfl, ?_, ⟨rfl, ?_, rfl, rfl, _, gives_of _ _ ?_⟩, ?_, rfl, rfl⟩
  case refine_3 =>
    intro p
    have hp : ({ collS coll1 with peers := [(p, { lost := true })] } : State).peer p = { lost := true } := by
      simp [State.peer, Tbl.get, Tbl.find]
    have ha : ({ collS coll1 with peers := [(p, { lost := true })] } : State).allPeers = [] := by
      rw [State.allPeers, State.comms]
      exact congrArg (fun l => (List.flatMap _ l).eraseDups) (if_pos (show (collS coll1).commBase = 0 by decide))
    rw [State.present, hp, ha]
    rfl
  all_goals decide +kernel
/-- A record whose own rounding field is 6. -/
def shape6 (n base : Nat) : List Byte :=
  bytesOf [8 * 2 ^ 60 + 6 * 2 ^ 57 + base * 2 ^ 16, n * 2 ^ 48 + 2 ^ 32 + 2 ^ 16 + 1, 2 ^ 32, 0, 0, 0, 0, 0]
/-- The records pass the checks of form, entry, work and rounding code, and an element's slot (1) or a scale byte (2) is out of range. -/
def outside (s : State) (p : VPart) : Nat :=
  match s.shapes p.sels with
  | .error _ => 0
  | .ok hs =>
    if (hs.all fun h => h.wellFormed && h.packOk) && p.entry hs && decide (p.work hs ≤ 60) && p.v.rnd ≠ 6 && p.v.rnd ≠ 7 then
      if hs.any fun h => decide (0 < h.n) && decide ((h.limit : Int) ≤ slotLast h (h.n - 1)) then 1
      else if hs.any fun h => h.sv && decide (0xFFFF < h.scale + (h.n - 1) / 32) then 2 else 0
    else 0
theorem wit_VectorRangesAndRounding :
    (let p (v : VOp) : VPart := ⟨v, false, selsDAB v, plainEntry v, workD⟩
     (match (vecS (shape6 8 0x1000) (shapeB 8 8 0x2000 false none) (shapeB 8 8 0 true none) []).shapes (p { vop 8 with rnd := 7 }).sels with
       | .ok hs => decide ((hs.headD {}).rnd = 6)
       | .error _ => false) = true
      ∧ outside (vecS (shapeB 8 8 0xFFF0 false none) (shapeB 8 8 0x2000 false none) (shapeB 8 8 0 true none) []) (p (vop 8)) = 1
      ∧ outside (vecS (shapeB 8 8 0x1000 false none) (shapeB 8 8 0x2000 false none) (shapeB 8 8 508 true none) []) (p (vop 8)) = 1)
    ∧ (let v := { vop 11 with shB := 0 }
       outside (vecS (shapeB 11 64 0x1000 false (some 0xFFFF)) (shapeB 8 64 0x2000 false none) [] []) ⟨v, false, selsDA v, quantEntry v, workA⟩ = 2
        ∧ v.imm.toNat ≤ 10) := by
  decide +kernel
/-- A block of ordinary values under `vqnt`, with its scale byte apart from its codes. -/
theorem wit_QuantBlocks :
    let s := vecS (shapeB 11 32 0x1000 false (some 0x1100)) (shapeB 8 32 0x2000 false none) [] []
    let d := (passed s ⟨{ vop 11 with shB := 0 }, false, selsDA { vop 11 with shB := 0 }, quantEntry { vop 11 with shB := 0 }, workA⟩).headD {}
    d.lane = false ∧ d.scale = 0x1100 ∧ d.n = 32 ∧ d.sv = true ∧ ∀ k, k < 32 → slotLast d k < 0x1100 := by
  decide +kernel

end Sys2Proof.Tests
end

section
/-! SUPPORT. What decodes is well formed, and its words are the words that were read: a word is what its fields pack to where
its reserved bits are 0, and each OP's checks are the well-formedness of what it reads. -/
namespace Sys2Proof.Laws.ReadBack

/-! ### Neighbouring fields make up the word that they stand in -/

theorem toNat_getLsbD {n : Nat} (x : BitVec n) (k : Nat) : (x.getLsbD k).toNat = fld x k k := by
  rw [BitVec.getLsbD, Nat.toNat_testBit, fld, Nat.add_sub_cancel_left, pow_one]

theorem fld_lt {n : Nat} (x : BitVec n) (hi lo : Nat) : fld x hi lo < 2 ^ (hi + 1 - lo) :=
  Nat.mod_lt _ (Nat.two_pow_pos _)

@[simp] theorem toNat_ofNat_fld {n k hi lo : Nat} (x : BitVec n) (h : hi + 1 - lo ≤ k) :
    (BitVec.ofNat k (fld x hi lo)).toNat = fld x hi lo := by
  rw [BitVec.toNat_ofNat, Nat.mod_eq_of_lt]
  exact (fld_lt x hi lo).trans_le (Nat.pow_le_pow_right two_pos h)

@[simp] theorem ofNat_fld_eq_iff {n k hi lo : Nat} (x : BitVec n) (c : BitVec k) (h : hi + 1 - lo ≤ k) :
    BitVec.ofNat k (fld x hi lo) = c ↔ fld x hi lo = c.toNat := by
  rw [← BitVec.toNat_inj, toNat_ofNat_fld x h]

/-- A field is what its bits add to the number of the bits below it: with one such equation for each field, a word
is the sum of its fields by linear arithmetic. -/
theorem fld_add_below {n : Nat} (x : BitVec n) (hi lo : Nat) (h : lo ≤ hi + 1 := by decide) :
    fld x hi lo * 2 ^ lo + x.toNat % 2 ^ lo = x.toNat % 2 ^ (hi + 1) := by
  obtain ⟨k, hk⟩ := Nat.exists_eq_add_of_le h
  rw [fld, hk, Nat.add_sub_cancel_left, pow_add, Nat.mod_mul, Nat.mul_comm, Nat.add_comm]

theorem packW0_unpackW0 (x : W32) : packW0 (unpackW0 x) = x := by
  have := x.isLt
  have := fld_add_below x 31 30; have := fld_add_below x 29 22; have := fld_add_below x 21 16
  have := fld_add_below x 15 11; have := fld_add_below x 10 6; have := fld_add_below x 5 1; have := fld_add_below x 0 0
  have := fld_lt x 31 30; have := fld_lt x 29 22; have := fld_lt x 21 16
  apply BitVec.eq_of_toNat_eq
  rw [packW0, BitVec.toNat_ofNat]
  simp (disch := decide) only [unpackW0, toNat_getLsbD, toNat_ofNat_fld]
  omega

@[simp] theorem packWave_unpackWave (y : W32) : packWave (unpackWave y) = y := by
  have := y.isLt
  have := fld_add_below y 31 24; have := fld_add_below y 23 16; have := fld_add_below y 15 8; have := fld_add_below y 7 5
  have := fld_add_below y 4 4; have := fld_add_below y 3 3; have := fld_add_below y 2 0
  apply BitVec.eq_of_toNat_eq
  rw [packWave, BitVec.toNat_ofNat]
  simp (disch := decide) only [unpackWave, toNat_getLsbD, toNat_ofNat_fld]
  omega

@[simp] theorem packV_unpackV (x : W32) : packV (unpackV x) = x := by
  have := x.isLt
  have := fld_add_below x 31 28; have := fld_add_below x 27 24; have := fld_add_below x 23 20; have := fld_add_below x 19 16
  have := fld_add_below x 15 13; have := fld_add_below x 12 12; have := fld_add_below x 11 8; have := fld_add_below x 7 0
  apply BitVec.eq_of_toNat_eq
  rw [packV, BitVec.toNat_ofNat]
  simp (disch := decide) only [unpackV, toNat_getLsbD, toNat_ofNat_fld]
  omega

theorem packT_fields_self (x : W32) : packT (tPlace x) (tCount x) (tCell x) = x := by
  have := x.isLt
  have := fld_add_below x 31 24; have := fld_add_below x 23 12; have := fld_add_below x 11 0
  apply BitVec.eq_of_toNat_eq
  rw [packT, BitVec.toNat_ofNat]
  simp (disch := decide) only [tPlace, tCount, tCell, toNat_ofNat_fld]
  omega

theorem packT_eq_iff {p : Byte} {c e : BitVec 12} {x : W32} :
    packT p c e = x ↔ p = tPlace x ∧ c = tCount x ∧ e = tCell x := by
  constructor
  · rintro rfl
    obtain ⟨hp, hc, he⟩ := packT_fields p c e
    exact ⟨hp.symm, hc.symm, he.symm⟩
  · rintro ⟨rfl, rfl, rfl⟩
    exact packT_fields_self x

@[simp] theorem packRing_fields_self (z : W32) :
    packRing (BitVec.ofNat 10 (fld z 31 22)) (BitVec.ofNat 6 (fld z 21 16)) (z.setWidth 16) = z := by
  have := z.isLt
  have := fld_add_below z 31 22; have := fld_add_below z 21 16
  apply BitVec.eq_of_toNat_eq
  rw [packRing, BitVec.toNat_ofNat]
  simp (disch := decide) only [BitVec.toNat_setWidth, toNat_ofNat_fld]
  omega

@[simp] theorem packBar_fields_self {x : W32} (h : fld x 31 24 = 0) (h' : fld x 11 4 = 0) :
    packBar (x.setWidth 4) (BitVec.ofNat 12 (fld x 23 12)) = x := by
  have := x.isLt
  have := fld_add_below x 31 24; have := fld_add_below x 23 12; have := fld_add_below x 11 4
  apply BitVec.eq_of_toNat_eq
  rw [packBar, BitVec.toNat_ofNat]
  simp (disch := decide) only [BitVec.toNat_setWidth, toNat_ofNat_fld]
  omega

@[simp] theorem packLds_fields_self {z : W32} (h : fld z 16 0 = 0) :
    packLds (BitVec.ofNat 7 (fld z 31 25)) (BitVec.ofNat 7 (fld z 24 18)) z[17] = z := by
  have := z.isLt
  have := fld_add_below z 31 25; have := fld_add_below z 24 18; have := fld_add_below z 17 17; have := fld_add_below z 16 0
  apply BitVec.eq_of_toNat_eq
  rw [packLds, BitVec.toNat_ofNat]
  simp (disch := decide) only [← BitVec.getLsbD_eq_getElem, toNat_getLsbD, toNat_ofNat_fld]
  omega

@[simp] theorem packMul_fields_self {z : W32} (h : fld z 7 0 = 0) :
    packMul (BitVec.ofNat 7 (fld z 31 25)) (BitVec.ofNat 7 (fld z 24 18)) (BitVec.ofNat 7 (fld z 17 11)) z[10]
      z[9] z[8] = z := by
  have := z.isLt
  have := fld_add_below z 31 25; have := fld_add_below z 24 18; have := fld_add_below z 17 11; have := fld_add_below z 10 10
  have := fld_add_below z 9 9; have := fld_add_below z 8 8; have := fld_add_below z 7 0
  apply BitVec.eq_of_toNat_eq
  rw [packMul, BitVec.toNat_ofNat]
  simp (disch := decide) only [← BitVec.getLsbD_eq_getElem, toNat_getLsbD, toNat_ofNat_fld]
  omega

/-- `mx.mulb` has no scale bit: bit 8 is reserved with the bits below it (R241). -/
@[simp] theorem packMul_fields_self_of_noScale {z : W32} (h : fld z 8 0 = 0) :
    packMul (BitVec.ofNat 7 (fld z 31 25)) (BitVec.ofNat 7 (fld z 24 18)) (BitVec.ofNat 7 (fld z 17 11)) z[10]
      z[9] false = z := by
  have := fld_add_below z 8 8; have := fld_add_below z 7 0; have := fld_add_below z 8 0
  have hsc : z[8] = false := by rw [← Bool.toNat_eq_zero, ← BitVec.getLsbD_eq_getElem, toNat_getLsbD]; omega
  rw [← hsc, packMul_fields_self (by omega)]

@[simp] theorem packDrain_fields_self {z : W32} (h : fld z 13 0 = 0) :
    packDrain (BitVec.ofNat 7 (fld z 31 25)) (BitVec.ofNat 7 (fld z 24 18)) z[17] z[16] z[15]
      z[14] = z := by
  have := z.isLt
  have := fld_add_below z 31 25; have := fld_add_below z 24 18; have := fld_add_below z 17 17; have := fld_add_below z 16 16
  have := fld_add_below z 15 15; have := fld_add_below z 14 14; have := fld_add_below z 13 0
  apply BitVec.eq_of_toNat_eq
  rw [packDrain, BitVec.toNat_ofNat]
  simp (disch := decide) only [← BitVec.getLsbD_eq_getElem, toNat_getLsbD, toNat_ofNat_fld]
  omega

@[simp] theorem packCfg_fields_self {z : W32} (h : fld z 9 0 = 0) :
    packCfg (BitVec.ofNat 4 (fld z 31 28)) (BitVec.ofNat 4 (fld z 27 24)) z[23] z[22]
      (BitVec.ofNat 4 (fld z 21 18)) (BitVec.ofNat 8 (fld z 17 10)) = z := by
  have := z.isLt
  have := fld_add_below z 31 28; have := fld_add_below z 27 24; have := fld_add_below z 23 23; have := fld_add_below z 22 22
  have := fld_add_below z 21 18; have := fld_add_below z 17 10; have := fld_add_below z 9 0
  apply BitVec.eq_of_toNat_eq
  rw [packCfg, BitVec.toNat_ofNat]
  simp (disch := decide) only [← BitVec.getLsbD_eq_getElem, toNat_getLsbD, toNat_ofNat_fld]
  omega

@[simp] theorem packNz_fields_self {z : W32} (h : fld z 28 0 = 0) : packNz (BitVec.ofNat 3 (fld z 31 29)) = z := by
  have := z.isLt
  have := fld_add_below z 31 29; have := fld_add_below z 28 0
  apply BitVec.eq_of_toNat_eq
  rw [packNz, BitVec.toNat_ofNat]
  simp (disch := decide) only [toNat_ofNat_fld]
  omega

@[simp] theorem packMerge_fields_self {z : W32} (h : fld z 31 9 = 0) : packMerge (z.setWidth 8) z[8] = z := by
  have := z.isLt
  have := fld_add_below z 31 9; have := fld_add_below z 8 8
  apply BitVec.eq_of_toNat_eq
  rw [packMerge, BitVec.toNat_ofNat]
  simp only [← BitVec.getLsbD_eq_getElem, toNat_getLsbD, BitVec.toNat_setWidth]
  omega

@[simp] theorem packLad_fields_self {z : W32} (h : fld z 11 0 = 0) :
    packLad (BitVec.ofNat 3 (fld z 31 29)) (BitVec.ofNat 2 (fld z 28 27)) (BitVec.ofNat 5 (fld z 26 22))
      (BitVec.ofNat 10 (fld z 21 12)) = z := by
  have := z.isLt
  have := fld_add_below z 31 29; have := fld_add_below z 28 27; have := fld_add_below z 26 22; have := fld_add_below z 21 12
  have := fld_add_below z 11 0
  apply BitVec.eq_of_toNat_eq
  rw [packLad, BitVec.toNat_ofNat]
  simp (disch := decide) only [toNat_ofNat_fld]
  omega

/-- The ladder commands that give W3 the ladder's number alone (R255). -/
@[simp] theorem packLad_ladder_self {z : W32} (h : fld z 28 0 = 0) :
    packLad (BitVec.ofNat 3 (fld z 31 29)) 0#2 0#5 0#10 = z := by
  have := z.isLt
  have := fld_add_below z 31 29; have := fld_add_below z 28 0
  apply BitVec.eq_of_toNat_eq
  rw [packLad, BitVec.toNat_ofNat, toNat_ofNat_fld _ (by decide)]
  simp only [BitVec.toNat_ofNat, Nat.zero_mod, Nat.zero_mul, Nat.add_zero]
  omega

@[simp] theorem packRung_fields_self {z : W32} (h : fld z 23 0 = 0) :
    packRung (BitVec.ofNat 3 (fld z 31 29)) (BitVec.ofNat 5 (fld z 28 24)) = z := by
  have := z.isLt
  have := fld_add_below z 31 29; have := fld_add_below z 28 24; have := fld_add_below z 23 0
  apply BitVec.eq_of_toNat_eq
  rw [packRung, BitVec.toNat_ofNat]
  simp (disch := decide) only [toNat_ofNat_fld]
  omega

/-! ### Words and register fields with one value -/

@[simp] theorem setWidth_setWidth_of_lt {n m : Nat} {x : BitVec m} (h : x.toNat < 2 ^ n) :
    (x.setWidth n).setWidth m = x := by
  apply BitVec.eq_of_toNat_eq
  rw [BitVec.toNat_setWidth, BitVec.toNat_setWidth, Nat.mod_eq_of_lt h, Nat.mod_eq_of_lt x.isLt]

/-- Reserved bits that are 0 bound the word. -/
theorem toNat_lt_of_fld {m n : Nat} {x : BitVec (m + 1)} (hn : n ≤ m + 1) (h : fld x m n = 0) : x.toNat < 2 ^ n := by
  have hx := fld_add_below x m n hn
  rw [h, Nat.mod_eq_of_lt x.isLt, Nat.zero_mul, Nat.zero_add] at hx
  rw [← hx]
  exact Nat.mod_lt _ (Nat.two_pow_pos _)

@[simp] theorem setWidth_setWidth_of_fld {m n : Nat} {x : BitVec (m + 1)} (hn : n ≤ m + 1) (h : fld x m n = 0) :
    (x.setWidth n).setWidth (m + 1) = x :=
  setWidth_setWidth_of_lt (toNat_lt_of_fld hn h)

theorem ofBool_bit_setWidth {m : Nat} {x : BitVec (m + 1)} (h : fld x m 1 = 0) :
    (BitVec.ofBool x[0]).setWidth (m + 1) = x := by
  have hx := toNat_lt_of_fld (Nat.le_add_left 1 m) h
  apply BitVec.eq_of_toNat_eq
  rw [BitVec.toNat_setWidth, BitVec.toNat_ofBool, ← BitVec.getLsbD_eq_getElem, toNat_getLsbD, fld, pow_zero, Nat.div_one,
    Nat.mod_eq_of_lt hx, Nat.mod_eq_of_lt x.isLt]

theorem trap_fields_self (a b : Rg) : (a ++ b : BitVec 10).extractLsb' 5 5 = a ∧ (a ++ b : BitVec 10).setWidth 5 = b :=
  ⟨BitVec.extractLsb'_append_eq_left, BitVec.setWidth_append_eq_right⟩

/-- Bit 0 of the D field of an `emit` is reserved (R147). -/
theorem relD_fields_self {d : Rg} (h : d[0] = false) : relD d[4] (BitVec.ofNat 3 (fld d 3 1)) = d := by
  revert d; decide

theorem fld_low {n : Nat} (x : BitVec n) (k : Nat) : fld x k 0 = x.toNat % 2 ^ (k + 1) := by
  rw [fld, pow_zero, Nat.div_one, Nat.sub_zero]

theorem fld_path (y : W32) : fld y 2 0 = (unpackWave y).path.toNat := (toNat_ofNat_fld y (by decide)).symm
theorem fld_scope (y : W32) : fld y 7 5 = (unpackWave y).scope.toNat := (toNat_ofNat_fld y (by decide)).symm

theorem scope_eq_zero (x : BitVec 3) : x.toNat = 0 ↔ x = 0#3 := by revert x; decide

/-! ### What an accepted instruction has passed -/

/-- An instruction is accepted when LEN is its format's and each of its checks has passed (R118, R141). -/
theorem finish_eq_ok {w : W0} {n : Nat} {cs : List (Nat × Nat × Bool)} {i j : Instr} :
    finish w n cs i = .ok j ↔ w.len = n ∧ firstBad cs = none ∧ i = j := by
  unfold finish
  split
  case isTrue hlen => simp [hlen]
  case isFalse hlen =>
    rw [ne_eq, not_not] at hlen
    cases hbad : firstBad cs <;> simp [hlen]

@[simp] theorem firstBad_nil : firstBad [] = none := rfl

@[simp] theorem firstBad_cons_eq_none {k c : Nat} {ok : Bool} {cs : List (Nat × Nat × Bool)} :
    firstBad ((k, c, ok) :: cs) = none ↔ ok = true ∧ firstBad cs = none := by
  cases ok <;> simp [firstBad]

theorem unassigned_ne_ok {i : Instr} : unassigned ≠ .ok i := nofun

/-- The fields `w` of word 0 and as many of the words behind it as LEN says are those of the well-formed instruction `i`. -/
def Held (w : W0) (x y z : W32) (i : Instr) : Prop :=
  i.wf = true ∧ encodeParts i = some (w, [x, y, z].take w.len)

/-- What `finish` accepts is held by its words when its passed checks are its well-formedness and leave the fields and the
words no value but the encoder's. -/
theorem held_of_finish {w : W0} {n l o f : Nat} {d a b : Rg} {s : Bool} {x y z : W32} {ws : List W32}
    {cs : List (Nat × Nat × Bool)} {i j : Instr}
    (h : finish w n cs i = .ok j) (hp : encodeParts i = some (⟨l, o, f, d, a, b, s⟩, ws))
    (hgood : firstBad cs = none → i.wf = true ∧ l = n ∧ o = w.op ∧ f = w.fn ∧ d = w.d ∧ a = w.a ∧ b = w.b ∧ s = w.s
      ∧ ws = [x, y, z].take n) : Held w x y z j := by
  obtain ⟨rfl, hc, rfl⟩ := finish_eq_ok.mp h
  obtain ⟨hwf, rfl, rfl, rfl, rfl, rfl, rfl, rfl, rfl⟩ := hgood hc
  exact ⟨hwf, hp⟩

/-! ### One lemma for each OP (R138)

In each case the checks that the instruction has passed are its well-formedness, and with OP and FN they leave no bit of
word 0 and of the further words that the operands do not give. -/

section
variable {w : W0} {x y z : W32} {i : Instr}

theorem decodeOp00_held (hop : w.op = 0x00) (h : decodeOp00 w x y z = .ok i) : Held w x y z i := by
  unfold decodeOp00 at h
  split at h
  case h_31 => exact absurd h unassigned_ne_ok
  all_goals
    rename_i hfn
    refine held_of_finish h rfl fun hc => ?_
    simp at hc
    exact ⟨rfl, by simp [hop, hfn, hc]⟩

theorem decodeOp01_held (hop : w.op = 0x01) (h : decodeOp01 w x y z = .ok i) : Held w x y z i := by
  unfold decodeOp01 at h
  split at h
  case h_10 => exact absurd h unassigned_ne_ok
  all_goals
    rename_i hfn
    refine held_of_finish h rfl fun hc => ?_
    simp at hc
    exact ⟨rfl, by simp [hop, hfn, hc]⟩

theorem decodeOp20_held (hop : w.op = 0x20) (h : decodeOp20 w x y z = .ok i) : Held w x y z i := by
  unfold decodeOp20 at h
  split at h
  case h_8 => exact absurd h unassigned_ne_ok
  all_goals
    rename_i hfn
    refine held_of_finish h rfl fun hc => ?_
    simp at hc
    exact ⟨by unfold Instr.wf; simp [hc, -BitVec.toNat_ofNat], by simp [hop, hfn, hc, packT_eq_iff, relD_fields_self]⟩

theorem decodeOp21_held (hop : w.op = 0x21) (h : decodeOp21 w x y z = .ok i) : Held w x y z i := by
  unfold decodeOp21 at h
  split at h
  case h_7 => exact absurd h unassigned_ne_ok
  all_goals
    rename_i hfn
    refine held_of_finish h rfl fun hc => ?_
    simp at hc
    exact ⟨rfl, by simp [hop, hfn, hc, trap_fields_self]⟩

theorem decodeOp22_held (hop : w.op = 0x22) (h : decodeOp22 w x y z = .ok i) : Held w x y z i := by
  unfold decodeOp22 at h
  split at h
  case h_6 => exact absurd h unassigned_ne_ok
  all_goals
    rename_i hfn
    refine held_of_finish h rfl fun hc => ?_
    simp [fld_low] at hc
    exact ⟨by unfold Instr.wf; simp [hc], by simp [hop, hfn, hc]⟩

theorem decodeOp40_held (hop : w.op = 0x40) (h : decodeOp40 w x y z = .ok i) : Held w x y z i := by
  unfold decodeOp40 at h
  split at h
  case isFalse => exact absurd h unassigned_ne_ok
  case isTrue hfn =>
    refine held_of_finish h rfl fun hc => ?_
    simp [flagsOk, waveRange, pathIn] at hc
    simp at hfn
    have hcode : w.fn < 16 := by omega
    exact ⟨by unfold Instr.wf; simp [hc, hfn, Nat.mod_eq_of_lt hcode], by simp [hop, hc, hcode]⟩

theorem decodeOp41_held (hop : w.op = 0x41) (h : decodeOp41 w x y z = .ok i) : Held w x y z i := by
  unfold decodeOp41 at h
  split at h
  case isFalse => exact absurd h unassigned_ne_ok
  case isTrue hfn =>
    refine held_of_finish h rfl fun hc => ?_
    simp [flagsOk, waveRange, pathIn] at hc
    simp at hfn
    have hcode : w.fn < 16 := by omega
    exact ⟨by unfold Instr.wf; simp [hc, hfn, Nat.mod_eq_of_lt hcode], by simp [hop, hc, hcode]⟩

theorem decodeOp42_held (hop : w.op = 0x42) (h : decodeOp42 w x y z = .ok i) : Held w x y z i := by
  unfold decodeOp42 at h
  split at h
  case h_3 => exact absurd h unassigned_ne_ok
  all_goals
    rename_i hfn
    refine held_of_finish h rfl fun hc => ?_
    simp [flagsOk, waveRange, pathIn] at hc
    exact ⟨by unfold Instr.wf; simp [hc], by simp [hop, hfn, hc]⟩

theorem decodeOp43_held (hop : w.op = 0x43) (h : decodeOp43 w x y z = .ok i) : Held w x y z i := by
  unfold decodeOp43 at h
  split at h
  case isFalse => exact absurd h unassigned_ne_ok
  case isTrue hfn =>
    refine held_of_finish h rfl fun hc => ?_
    simp [flagsOk, waveRange, pathIn] at hc
    simp at hfn
    have hcode : w.fn < 16 := by omega
    exact ⟨by unfold Instr.wf; simp [hc, hfn, Nat.mod_eq_of_lt hcode], by simp [hop, hcode]⟩

theorem decodeOp44_held (hop : w.op = 0x44) (h : decodeOp44 w x y z = .ok i) : Held w x y z i := by
  unfold decodeOp44 at h
  split at h
  case isFalse => exact absurd h unassigned_ne_ok
  case isTrue hfn =>
    refine held_of_finish h rfl fun hc => ?_
    simp [flagsOk, waveRange, pathIn] at hc
    simp at hfn
    have hcode : w.fn < 16 := by omega
    exact ⟨by unfold Instr.wf; simp [hc, hfn, Nat.mod_eq_of_lt hcode], by simp [hop, hc, hcode]⟩

theorem decodeOp45_held (hop : w.op = 0x45) (h : decodeOp45 w x y z = .ok i) : Held w x y z i := by
  unfold decodeOp45 at h
  split at h
  case h_2 => exact absurd h unassigned_ne_ok
  all_goals
    rename_i hfn
    refine held_of_finish h rfl fun hc => ?_
    simp [flagsOk, waveRange, pathIn] at hc
    exact ⟨by unfold Instr.wf; simp [hc], by simp [hop, hfn]⟩

theorem decodeOp60_held (hop : w.op = 0x60) (h : decodeOp60 w x y z = .ok i) : Held w x y z i := by
  unfold decodeOp60 at h
  split at h
  case h_23 => exact absurd h unassigned_ne_ok
  all_goals
    rename_i hfn
    refine held_of_finish h rfl fun hc => ?_
    simp [flagsOk, waveRange, pathIn] at hc
    exact ⟨by unfold Instr.wf; simp [hc], by simp [hop, hfn]⟩

theorem decodeOp61_held (hop : w.op = 0x61) (h : decodeOp61 w x y z = .ok i) : Held w x y z i := by
  unfold decodeOp61 at h
  split at h
  case h_5 => exact absurd h unassigned_ne_ok
  all_goals
    rename_i hfn
    refine held_of_finish h rfl fun hc => ?_
    simp [fenceFlagsOk, waveRange, pathIn, fld_scope, scope_eq_zero] at hc
    exact ⟨by unfold Instr.wf; simp [hc, -BitVec.toNat_ofNat], by simp [hop, hfn, hc]⟩

theorem decodeOp62_held (hop : w.op = 0x62) (h : decodeOp62 w x y z = .ok i) : Held w x y z i := by
  unfold decodeOp62 at h
  split at h
  case h_12 => exact absurd h unassigned_ne_ok
  case h_4 hfn =>
    -- FN 3 is one of the two waits, by the low bit of W3
    split at h
    all_goals
      rename_i hbit
      refine held_of_finish h rfl fun hc => ?_
      simp [flagsOk, waveRange, pathIn] at hc hbit
      obtain ⟨hs, hflags, hrange, hpath, hres⟩ := hc
      have hz := ofBool_bit_setWidth hres
      rw [hbit] at hz
      exact ⟨by unfold Instr.wf; simp [hflags, hrange, hpath], by simp [hop, hfn, hs, ← hz]⟩
  all_goals
    rename_i hfn
    refine held_of_finish h rfl fun hc => ?_
    simp [flagsOk, waveRange, pathIn, fld_low] at hc
    exact ⟨by unfold Instr.wf; simp [hc], by simp [hop, hfn, hc]⟩

theorem decodeOp80_held (hop : w.op = 0x80) (h : decodeOp80 w x y z = .ok i) : Held w x y z i := by
  unfold decodeOp80 at h
  split at h
  case h_12 => exact absurd h unassigned_ne_ok
  all_goals
    rename_i hfn
    refine held_of_finish h rfl fun hc => ?_
    simp at hc
    exact ⟨by unfold Instr.wf; simp [hc], by simp [hop, hfn, hc]⟩

theorem decodeOp81_held (hop : w.op = 0x81) (h : decodeOp81 w x y z = .ok i) : Held w x y z i := by
  unfold decodeOp81 at h
  split at h
  case h_8 => exact absurd h unassigned_ne_ok
  all_goals
    rename_i hfn
    refine held_of_finish h rfl fun hc => ?_
    simp at hc
    exact ⟨by unfold Instr.wf; simp [hc], by simp [hop, hfn, hc]⟩

theorem decodeOp82_held (hop : w.op = 0x82) (h : decodeOp82 w x y z = .ok i) : Held w x y z i := by
  unfold decodeOp82 at h
  split at h
  case h_7 => exact absurd h unassigned_ne_ok
  all_goals
    rename_i hfn
    refine held_of_finish h rfl fun hc => ?_
    simp at hc
    exact ⟨by unfold Instr.wf; simp [hc], by simp [hop, hfn, hc]⟩

theorem decodeOp83_held (hop : w.op = 0x83) (h : decodeOp83 w x y z = .ok i) : Held w x y z i := by
  unfold decodeOp83 at h
  split at h
  case h_6 => exact absurd h unassigned_ne_ok
  all_goals
    rename_i hfn
    refine held_of_finish h rfl fun hc => ?_
    simp at hc
    exact ⟨by unfold Instr.wf; simp [hc], by simp [hop, hfn, hc]⟩

theorem decodeOp84_held (hop : w.op = 0x84) (h : decodeOp84 w x y z = .ok i) : Held w x y z i := by
  unfold decodeOp84 at h
  split at h
  case h_4 => exact absurd h unassigned_ne_ok
  all_goals
    rename_i hfn
    refine held_of_finish h rfl fun hc => ?_
    simp at hc
    exact ⟨by unfold Instr.wf; simp [hc], by simp [hop, hfn, hc]⟩

theorem decodeOp85_held (hop : w.op = 0x85) (h : decodeOp85 w x y z = .ok i) : Held w x y z i := by
  unfold decodeOp85 at h
  split at h
  case h_5 => exact absurd h unassigned_ne_ok
  all_goals
    rename_i hfn
    refine held_of_finish h rfl fun hc => ?_
    simp at hc
    exact ⟨by unfold Instr.wf; simp [hc], by simp [hop, hfn, hc]⟩

theorem decodeOpA0_held (hop : w.op = 0xA0) (h : decodeOpA0 w x y z = .ok i) : Held w x y z i := by
  unfold decodeOpA0 at h
  split at h
  case h_7 => exact absurd h unassigned_ne_ok
  all_goals
    rename_i hfn
    refine held_of_finish h rfl fun hc => ?_
    simp at hc
    exact ⟨by unfold Instr.wf; simp [hc], by simp [hop, hfn, hc]⟩

theorem decodeOpA1_held (hop : w.op = 0xA1) (h : decodeOpA1 w x y z = .ok i) : Held w x y z i := by
  unfold decodeOpA1 at h
  split at h
  case h_10 => exact absurd h unassigned_ne_ok
  all_goals
    rename_i hfn
    refine held_of_finish h rfl fun hc => ?_
    simp at hc
    exact ⟨by unfold Instr.wf; simp [hc], by simp [hop, hfn, hc]⟩

theorem decodeOpC0_held (hop : w.op = 0xC0) (h : decodeOpC0 w x y z = .ok i) : Held w x y z i := by
  unfold decodeOpC0 at h
  split at h
  case h_7 => exact absurd h unassigned_ne_ok
  all_goals
    rename_i hfn
    refine held_of_finish h rfl fun hc => ?_
    simp [flagsOk, waveRange, pathIn] at hc
    exact ⟨by unfold Instr.wf; simp [hc, -BitVec.toNat_ofNat], by simp [hop, hfn, hc]⟩

theorem decodeOpC1_held (hop : w.op = 0xC1) (h : decodeOpC1 w x y z = .ok i) : Held w x y z i := by
  unfold decodeOpC1 at h
  split at h
  case h_5 => exact absurd h unassigned_ne_ok
  all_goals
    rename_i hfn
    refine held_of_finish h rfl fun hc => ?_
    simp at hc
    exact ⟨rfl, by simp [hop, hfn, hc, ofBool_bit_setWidth]⟩

theorem decodeOpC2_held (hop : w.op = 0xC2) (h : decodeOpC2 w x y z = .ok i) : Held w x y z i := by
  unfold decodeOpC2 at h
  split at h
  case h_4 => exact absurd h unassigned_ne_ok
  all_goals
    rename_i hfn
    refine held_of_finish h rfl fun hc => ?_
    simp [flagsOk, waveRange, pathIn] at hc
    exact ⟨by unfold Instr.wf; simp [hc, -BitVec.toNat_ofNat], by simp [hop, hfn, hc, ofBool_bit_setWidth]⟩

theorem decodeOpC3_held (hop : w.op = 0xC3) (h : decodeOpC3 w x y z = .ok i) : Held w x y z i := by
  unfold decodeOpC3 at h
  split at h
  case h_4 => exact absurd h unassigned_ne_ok
  all_goals
    rename_i hfn
    refine held_of_finish h rfl fun hc => ?_
    simp at hc
    exact ⟨rfl, by simp [hop, hfn, hc]⟩

theorem decodeOpE0_held (hop : w.op = 0xE0) (h : decodeOpE0 w x y z = .ok i) : Held w x y z i := by
  unfold decodeOpE0 at h
  split at h
  case h_9 => exact absurd h unassigned_ne_ok
  all_goals
    rename_i hfn
    refine held_of_finish h rfl fun hc => ?_
    simp [flagsOk, waveRange, pathIn] at hc
    exact ⟨by unfold Instr.wf; simp [hc, -BitVec.toNat_ofNat], by simp [hop, hfn, hc]⟩

theorem decodeOpE1_held (hop : w.op = 0xE1) (h : decodeOpE1 w x y z = .ok i) : Held w x y z i := by
  unfold decodeOpE1 at h
  split at h
  case h_9 => exact absurd h unassigned_ne_ok
  all_goals
    rename_i hfn
    refine held_of_finish h rfl fun hc => ?_
    simp at hc
    exact ⟨rfl, by simp [hop, hfn, hc]⟩

theorem decodeOpE2_held (hop : w.op = 0xE2) (h : decodeOpE2 w x y z = .ok i) : Held w x y z i := by
  unfold decodeOpE2 at h
  split at h
  case h_4 => exact absurd h unassigned_ne_ok
  all_goals
    rename_i hfn
    refine held_of_finish h rfl fun hc => ?_
    simp [flagsOk, waveRange, pathIn] at hc
    exact ⟨by unfold Instr.wf; simp [hc], by simp [hop, hfn, hc]⟩

theorem decodeOpE3_held (hop : w.op = 0xE3) (h : decodeOpE3 w x y z = .ok i) : Held w x y z i := by
  unfold decodeOpE3 at h
  split at h
  case h_6 => exact absurd h unassigned_ne_ok
  all_goals
    rename_i hfn
    refine held_of_finish h rfl fun hc => ?_
    simp [flagsOk, waveRange, pathIn, fld_path, path_one] at hc
    exact ⟨by unfold Instr.wf; simp [hc], by simp [hop, hfn, hc]⟩

theorem decodeOpE4_held (hop : w.op = 0xE4) (h : decodeOpE4 w x y z = .ok i) : Held w x y z i := by
  unfold decodeOpE4 at h
  split at h
  case h_3 => exact absurd h unassigned_ne_ok
  all_goals
    rename_i hfn
    refine held_of_finish h rfl fun hc => ?_
    simp at hc
    exact ⟨rfl, by simp [hop, hfn, hc]⟩

/-- The fields and words that decode to an instruction are the encoder's for it (R117 to R121, R138). -/
theorem decodeWords_held (h : decodeWords w x y z = .ok i) : Held w x y z i := by
  unfold decodeWords at h
  split at h
  case h_1 hop => exact decodeOp00_held hop h
  case h_2 hop => exact decodeOp01_held hop h
  case h_3 hop => exact decodeOp20_held hop h
  case h_4 hop => exact decodeOp21_held hop h
  case h_5 hop => exact decodeOp22_held hop h
  case h_6 hop => exact decodeOp40_held hop h
  case h_7 hop => exact decodeOp41_held hop h
  case h_8 hop => exact decodeOp42_held hop h
  case h_9 hop => exact decodeOp43_held hop h
  case h_10 hop => exact decodeOp44_held hop h
  case h_11 hop => exact decodeOp45_held hop h
  case h_12 hop => exact decodeOp60_held hop h
  case h_13 hop => exact decodeOp61_held hop h
  case h_14 hop => exact decodeOp62_held hop h
  case h_15 hop => exact decodeOp80_held hop h
  case h_16 hop => exact decodeOp81_held hop h
  case h_17 hop => exact decodeOp82_held hop h
  case h_18 hop => exact decodeOp83_held hop h
  case h_19 hop => exact decodeOp84_held hop h
  case h_20 hop => exact decodeOp85_held hop h
  case h_21 hop => exact decodeOpA0_held hop h
  case h_22 hop => exact decodeOpA1_held hop h
  case h_23 hop => exact decodeOpC0_held hop h
  case h_24 hop => exact decodeOpC1_held hop h
  case h_25 hop => exact decodeOpC2_held hop h
  case h_26 hop => exact decodeOpC3_held hop h
  case h_27 hop => exact decodeOpE0_held hop h
  case h_28 hop => exact decodeOpE1_held hop h
  case h_29 hop => exact decodeOpE2_held hop h
  case h_30 hop => exact decodeOpE3_held hop h
  case h_31 hop => exact decodeOpE4_held hop h
  case h_32 => exact absurd h unassigned_ne_ok

end

/-! ### From the words of a body to the instruction and back -/

/-- What decodes has all its words in the body (R127). -/
theorem decode_eq_ok {ws : List W32} {i : Instr} {n : Nat} (h : decode ws = .ok (i, n)) :
    ∃ x0 rest, ws = x0 :: rest ∧ decodeWords (unpackW0 x0) (rest.getD 0 0) (rest.getD 1 0) (rest.getD 2 0) = .ok i
      ∧ (unpackW0 x0).len ≤ rest.length ∧ n = (unpackW0 x0).len + 1 := by
  cases ws with
  | nil => cases h
  | cons x0 rest =>
    unfold decode at h
    dsimp only at h
    split at h
    case h_1 => split at h <;> cases h
    case h_2 => cases h
    case h_3 j hd =>
      split at h
      case isTrue => cases h
      case isFalse hlen =>
        cases h
        exact ⟨x0, rest, rfl, hd, Nat.not_lt.mp hlen, rfl⟩

theorem take_getD_of_le {n : Nat} {ws : List W32} (h3 : n ≤ 3) (hn : n ≤ ws.length) :
    [ws.getD 0 0, ws.getD 1 0, ws.getD 2 0].take n = ws.take n := by
  apply List.ext_getElem
  · simp [hn, h3]
  · intro k hk _
    have hk3 : k < 3 := by simp at hk; omega
    have hkl : k < ws.length := by simp at hk; omega
    interval_cases k <;> simp [hkl]

end Sys2Proof.Laws.ReadBack

namespace Sys2Proof
open Laws.ReadBack

/-- Settles O58: the words read are those of the decoded instruction, OP by OP. -/
theorem encodeUndoesDecode : Obligations.EncodeUndoesDecode := by
  unfold Obligations.EncodeUndoesDecode
  intro ws i n h
  obtain ⟨x0, rest, rfl, hd, hlen, rfl⟩ := decode_eq_ok h
  obtain ⟨hwf, hp⟩ := decodeWords_held hd
  refine ⟨by rw [Claim.inBody, hp]; rfl, hwf, words_of hp, Nat.succ_le_succ hlen, ?_⟩
  have h3 : (unpackW0 x0).len ≤ 3 := Nat.le_of_lt_succ (fld_lt x0 31 30)
  rw [encode_of hp, packW0_unpackW0, take_getD_of_le h3 hlen, List.take_succ_cons]

end Sys2Proof
end

section
/-! SUPPORT. The module at reset: its tables are empty, so that every unit reads as a blank one, and the capability list is the
chain of the module's parts. -/
namespace Sys2Proof.Laws.AtReset
open Machine

/-! ### A unit whose tables are empty reads as a blank one -/

@[simp] theorem get_nil {α : Type} (d : α) (n : Nat) : Tbl.get d [] n = d := rfl

theorem place_eq_blank {c : Ctx} (h : c.places = []) (p : Nat) : c.place p = {} := by simp [Ctx.place, h]

theorem tr_eq_blank {c : Ctx} (h : c.trans = []) (j : Nat) : c.tr j = {} := by simp [Ctx.tr, h]

theorem held_eq_zero {c : Ctx} (h : c.firings = []) (p : Nat) : c.held p = 0 := by simp [Ctx.held, Ctx.busy, h]

theorem infl_eq_zero {c : Ctx} (h : c.firings = []) (j : Nat) : c.infl j = 0 := by simp [Ctx.infl, Ctx.busy, h]

theorem accOf_eq_nil {x : Node} (h0 : x.acc0 = []) (h1 : x.acc1 = []) (q : Nat) : x.accOf q = [] := by
  simp [Node.accOf, h0, h1]

@[simp] theorem cellAt_reset (cell : Nat) : State.reset.cellAt cell = {} := rfl
@[simp] theorem sectorAt_reset (k : Nat) : State.reset.sectorAt k = {} := rfl
@[simp] theorem ownerAt_reset (o : Nat) : State.reset.ownerAt o = {} := rfl
@[simp] theorem dieAt_reset (d : Nat) : State.reset.dieAt d = {} := rfl

theorem reset_inv : State.reset.Inv := by
  unfold State.Inv
  exact ⟨Mem.wf_nil, Mem.wf_nil, List.forall_mem_nil _, List.forall_mem_nil _⟩

/-! ### The capability list (R328): record `i` is that of part `i` -/

theorem length_capList : capList.length = capBodies.length := by simp [capList]

theorem getElem?_map_off_capList (i : Nat) :
    (capList.map (·.off))[i]? = if i < capBodies.length then some (capOff i) else none := by
  by_cases h : i < capBodies.length <;> simp [capList, h]

theorem getElem?_map_next_capList {i : Nat} (h : i < capBodies.length) :
    (capList.map (·.next))[i]? = some (if i + 1 < capBodies.length then capOff (i + 1) else 0) := by
  simp [capList, h]

/-- A record leads to the next one, and the last one to offset 0. -/
theorem next_eq_off_succ (i : Nat) (h : i < capList.length) :
    (capList.map (·.next)).getD i 0 = (capList.map (·.off)).getD (i + 1) 0 := by
  rw [length_capList] at h
  rw [List.getD_eq_getElem?_getD, List.getD_eq_getElem?_getD, getElem?_map_next_capList h, getElem?_map_off_capList]
  split <;> rfl

theorem map_id_capList : capList.map (·.id) = [1, 2, 2, 2, 2, 3, 3, 3, 3, 3, 3, 3, 3, 3, 4, 5, 6, 7] := rfl

theorem length_filter_id (rs : List CapRec) (k : Nat) :
    (rs.filter fun r => r.id == k).length = (rs.map (·.id)).count k := by
  rw [List.count, List.countP_map, List.countP_eq_length_filter]; rfl

theorem idCounts_capList :
    [1, 2, 3, 4, 5, 6, 7].map (fun k => (capList.filter fun r => r.id == k).length) = [1, 4, 9, 1, 1, 1, 1] := by
  simp only [length_filter_id, map_id_capList]
  decide

end Sys2Proof.Laws.AtReset

namespace Sys2Proof
open Machine Laws.AtReset

/-- Settles O60: the units are blank because their tables are empty, and the capability list is a chain by its definition. -/
theorem resetLeavesTheStatedValues : Obligations.ResetLeavesTheStatedValues := by
  unfold Obligations.ResetLeavesTheStatedValues
  refine ⟨reset_inv, rfl, rfl, rfl, rfl, fun cell => ?cell, fun k => ?sector, fun n => ?range, fun o => ?owner,
    fun d => ?die, ?mgmt, rfl, rfl, rfl, rfl, rfl, rfl⟩
  case cell => simp [place_eq_blank, tr_eq_blank, held_eq_zero, infl_eq_zero]
  case sector => simp [accOf_eq_nil]
  case range => exact get_nil 0 n
  case owner => simp
  case die => simp
  case mgmt =>
    refine ⟨rfl, next_eq_off_succ, idCounts_capList, List.length_replicate, fun c hc => ?_⟩
    obtain rfl := List.eq_of_mem_replicate hc
    exact ⟨rfl, rfl, rfl⟩

end Sys2Proof
end

section
/-! SUPPORT. The matrix node at work: what changing a node leaves alone, what a started product merges into its accumulator and what
has started by then (R235, R240, R241, R283), and what a drain leaves in memory (R242). -/
namespace Sys2Proof.Laws.NodeWork
open Machine Claim

/-! ### Tables that are written twice, or at many keys -/

theorem put_put {α : Type} (t : Tbl α) (n : Nat) (x y : α) : Tbl.put (Tbl.put t n x) n y = Tbl.put t n y := by
  induction t with
  | nil => simp [Tbl.put]
  | cons e t ih =>
    obtain ⟨k, v⟩ := e
    by_cases hk : k = n
    · simp [Tbl.put, hk]
    · by_cases hn : n < k <;> simp [Tbl.put, hk, hn, ih]

section
variable {α ι : Type} (d : α) (key : ι → Nat) (val : ι → α)

/-- Values written one after the other, each at its key. -/
def putAll (t : Tbl α) (l : List ι) : Tbl α := l.foldl (fun t i => Tbl.put t (key i) (val i)) t

theorem get_putAll_other (t : Tbl α) (l : List ι) (e : Nat) (h : ∀ i ∈ l, key i ≠ e) :
    Tbl.get d (putAll key val t l) e = Tbl.get d t e := by
  induction l generalizing t with
  | nil => rfl
  | cons i l ih =>
    obtain ⟨hi, hl⟩ := List.forall_mem_cons.1 h
    exact (ih _ hl).trans (Tbl.get_put_other _ _ _ _ _ hi.symm)

/-- Where one item alone has a key, its value stands there. -/
theorem get_putAll_of_mem (t : Tbl α) {l : List ι} {i : ι} (hi : i ∈ l) (h : ∀ j ∈ l, key j = key i → j = i) :
    Tbl.get d (putAll key val t l) (key i) = val i := by
  induction l generalizing t with
  | nil => cases hi
  | cons j l ih =>
    obtain ⟨hj, hl⟩ := List.forall_mem_cons.1 h
    by_cases hm : i ∈ l
    · exact ih _ hm hl
    · obtain rfl : i = j := (List.mem_cons.1 hi).resolve_right hm
      have hother : ∀ m ∈ l, key m ≠ key i := fun m hm' e => hm (hl m hm' e ▸ hm')
      exact (get_putAll_other d key val _ l _ hother).trans (Tbl.get_put_self ..)
end

/-! ### The elements of a product or a drain, row by row -/

/-- The elements of rows 0 to M − 1 and columns 0 to N − 1. -/
def elems (m n : Nat) : List (Nat × Nat) := (List.range m).flatMap fun i => (List.range n).map fun c => (i, c)

theorem mem_elems {m n : Nat} {e : Nat × Nat} : e ∈ elems m n ↔ e.1 < m ∧ e.2 < n := by
  obtain ⟨i, c⟩ := e
  simp [elems]

theorem foldl_rows {β : Type} (f : β → Nat × Nat → β) (t : β) (m n : Nat) :
    (List.range m).foldl (fun t i => (List.range n).foldl (fun t c => f t (i, c)) t) t = (elems m n).foldl f t := by
  simp only [elems, List.foldl_flatMap, List.foldl_map]

/-- Where an element stands in an accumulator of 128 columns. -/
def place (e : Nat × Nat) : Nat := e.1 * 128 + e.2

theorem place_inj {e e' : Nat × Nat} (hc : e.2 < 128) (hc' : e'.2 < 128) (h : place e = place e') : e = e' := by
  unfold place at h
  exact Prod.ext (by omega) (by omega)

section
variable {α : Type} (d : α) (val : Nat × Nat → α) (t : Tbl α) {m n i c : Nat}

theorem get_putElems (hi : i < m) (hc : c < n) (hn : n ≤ 128) :
    Tbl.get d (putAll place val t (elems m n)) (i * 128 + c) = val (i, c) :=
  get_putAll_of_mem d place val t (i := (i, c)) (mem_elems.2 ⟨hi, hc⟩) fun _ he hk =>
    place_inj (Nat.lt_of_lt_of_le (mem_elems.1 he).2 hn) (Nat.lt_of_lt_of_le hc hn) hk

theorem get_putElems_other (hc : c < 128) (ho : m ≤ i ∨ n ≤ c) (hn : n ≤ 128) :
    Tbl.get d (putAll place val t (elems m n)) (i * 128 + c) = Tbl.get d t (i * 128 + c) := by
  refine get_putAll_other d place val t _ _ fun e he hk => ?_
  obtain ⟨he1, he2⟩ := mem_elems.1 he
  obtain rfl : e = (i, c) := place_inj (Nat.lt_of_lt_of_le he2 hn) hc hk
  exact ho.elim (Nat.not_le.2 he1) (Nat.not_le.2 he2)
end

/-! ### Changing one node -/

section
variable (s : State) (k j : Nat) (f g : Node → Node)

@[simp] theorem node_modNode : (s.modNode k f).node k = f (s.node k) := by
  simp [State.node, State.modNode, State.sectorAt_modSector]

theorem sectorAt_modNode_other (h : j ≠ k) : (s.modNode k f).sectorAt j = s.sectorAt j := by
  simp [State.modNode, State.sectorAt_modSector, h]

theorem node_modNode_other (h : j ≠ k) : (s.modNode k f).node j = s.node j :=
  congrArg Sector.node (sectorAt_modNode_other s k j f h)

theorem modNode_modNode : (s.modNode k f).modNode k g = s.modNode k fun n => g (f n) := by
  simp [State.modNode, State.modSector, State.setSector, State.sectorAt, Tbl.get_put_self, put_put]

theorem modNode_const : s.modNode k (fun _ => f (s.node k)) = s.modNode k f := rfl

theorem node_dropToken : (s.dropToken k j).node k = { s.node k with queue := (s.node k).queue.eraseIdx j } :=
  node_modNode ..
end

/-- A change of one node, of flights and of the banks changes nothing else. -/
theorem onlyNode_of {s t : State} {k : Nat} {f : Node → Node}
    (h : t = { s.modNode k f with flights := t.flights, banks := t.banks }) : OnlyNode s t k := by
  have hn : t.node k = f (s.node k) := by rw [h]; exact node_modNode s k f
  rw [OnlyNode, hn, modNode_const]
  exact h

theorem onlyNode_modNode {s t : State} {k : Nat} (f : Node → Node) (h : OnlyNode s t k) : OnlyNode s (t.modNode k f) k := by
  refine onlyNode_of (f := fun _ => f (t.node k)) ?_
  rw [← modNode_modNode s k (fun _ => t.node k) f]
  conv_lhs => rw [h]
  rfl

/-! ### The completion token of a command (R235, R236) -/

/-- What leaves when a token's work is complete. -/
def doneFlights (s : State) (k : Nat) (x : MxToken) : List Flight :=
  if x.told then [] else match x.target with
    | some (c, p) => [⟨State.nodeUnit k, c, p, .tokens 1, x.iss.net, s.clock, false, false, s.drainRel k x.instr⟩]
    | none => []

theorem tokenDone_eq (s : State) (k : Nat) (x : MxToken) :
    s.tokenDone k x = { s with flights := s.flights ++ doneFlights s k x } := by
  unfold State.tokenDone doneFlights State.complete
  by_cases ht : x.told = true
  · simp [ht]
  · cases hg : x.target <;> simp [ht, State.send]

/-- Only a drain releases. -/
theorem drainRel_of_product (s : State) (k : Nat) {i : Instr} {r : MxShape × Bool × Bool} (h : productOf i = some r) :
    s.drainRel k i = none := by
  cases i with
  | mxDrain => cases h
  | _ => rfl

theorem told_of_product {s t : State} {k : Nat} {x : MxToken} {r : MxShape × Bool × Bool} (h : productOf x.instr = some r)
    (hf : t.flights = s.flights ++ doneFlights s k x) : Told s t k x := by
  unfold Told
  rw [hf, doneFlights, drainRel_of_product s k h, drainRel_of_product t k h]
  rfl

/-! ### A started product (R241) -/

/-- A node with one accumulator replaced. -/
def setAcc (n : Node) (q : Bool) (a : Tbl Wide) : Node := if q then { n with acc1 := a } else { n with acc0 := a }

@[simp] theorem queue_setAcc (n : Node) (q : Bool) (a : Tbl Wide) : (setAcc n q a).queue = n.queue := by cases q <;> rfl
@[simp] theorem active_setAcc (n : Node) (q : Bool) (a : Tbl Wide) : (setAcc n q a).active = n.active := by cases q <;> rfl
@[simp] theorem shadow_setAcc (n : Node) (q : Bool) (a : Tbl Wide) : (setAcc n q a).shadow = n.shadow := by cases q <;> rfl
@[simp] theorem heavy_setAcc (n : Node) (q : Bool) (a : Tbl Wide) : (setAcc n q a).heavy = n.heavy := by cases q <;> rfl

/-- An element that a product merges. -/
def merged (s : State) (x : MxToken) (n : Node) (p : Plane) (h : MxShape) (acc byp : Bool) (e : Nat × Nat) : Wide :=
  dotBlocks (if acc then accAt n h.q e.1 e.2 else {}) (s.actBlocks x n h byp e.1) (columnBlocks p n.bty e.2)

/-- The accumulator once a product has merged. -/
def mergedAcc (s : State) (x : MxToken) (n : Node) (p : Plane) (h : MxShape) (acc byp : Bool) : Tbl Wide :=
  putAll place (merged s x n p h acc byp) (n.accOf (if h.q then 1 else 0)) (elems h.m h.n)

section
variable {s : State} {k : Nat} {x : MxToken} {p : Plane} {h : MxShape} {acc byp : Bool} {n : Node}

theorem product_eq (hp : (s.node k).active = some p) :
    s.product k x h acc byp = s.modNode k fun n => setAcc n h.q (mergedAcc s x (s.node k) p h acc byp) := by
  have hcol : ∀ c, c < h.n → ((List.range h.n).map (columnBlocks p (s.node k).bty)).getD c [] = columnBlocks p (s.node k).bty c :=
    fun c hc => by simp [hc]
  have hacc : (List.range h.m).foldl (fun t m => (List.range h.n).foldl (fun t c => Tbl.put t (m * 128 + c)
      (dotBlocks (if acc then accAt (s.node k) h.q m c else {}) (s.actBlocks x (s.node k) h byp m)
        (((List.range h.n).map (columnBlocks p (s.node k).bty)).getD c []))) t) ((s.node k).accOf (if h.q then 1 else 0))
      = mergedAcc s x (s.node k) p h acc byp := by
    rw [mergedAcc, putAll, ← foldl_rows]
    refine List.foldl_ext _ _ _ fun t m _ => List.foldl_ext _ _ _ fun t c hc => ?_
    rw [hcol c (List.mem_range.1 hc)]
    rfl
  rw [← hacc]
  simp only [State.product, hp]
  rfl

theorem acc_setAcc_same (n : Node) (q : Bool) (a : Tbl Wide) : (setAcc n q a).accOf (if q then 1 else 0) = a := by
  cases q <;> rfl

theorem acc_setAcc_other (n : Node) (q : Bool) (a : Tbl Wide) :
    (setAcc n q a).accOf (if !q then 1 else 0) = n.accOf (if !q then 1 else 0) := by
  cases q <;> rfl

theorem get_mergedAcc {m c : Nat} (hm : m < h.m) (hc : c < h.n) (hn : h.n ≤ 128) :
    Tbl.get {} (mergedAcc s x n p h acc byp) (m * 128 + c) = merged s x n p h acc byp (m, c) :=
  get_putElems ({} : Wide) _ _ hm hc hn

theorem get_mergedAcc_other {m c : Nat} (hc : c < 128) (ho : h.m ≤ m ∨ h.n ≤ c) (hn : h.n ≤ 128) :
    Tbl.get {} (mergedAcc s x n p h acc byp) (m * 128 + c) = accAt n h.q m c :=
  get_putElems_other ({} : Wide) _ _ hc ho hn
end

/-! ### What has started by the time that a product has merged (R235, R240) -/

/-- Memory, flights and a node's accumulators stand. -/
structure KeepsMerge (s t : State) (k : Nat) : Prop where
  banks   : t.banks = s.banks
  mem     : t.mem = s.mem
  flights : t.flights = s.flights
  acc     : ∀ q, (t.node k).accOf q = (s.node k).accOf q

namespace KeepsMerge
variable {s t u : State} {k : Nat}

theorem refl (s : State) (k : Nat) : KeepsMerge s s k := ⟨rfl, rfl, rfl, fun _ => rfl⟩

theorem trans (h : KeepsMerge s t k) (h' : KeepsMerge t u k) : KeepsMerge s u k :=
  ⟨h'.banks.trans h.banks, h'.mem.trans h.mem, h'.flights.trans h.flights, fun q => (h'.acc q).trans (h.acc q)⟩

theorem of_modNode (s : State) (k : Nat) {f : Node → Node} (h0 : ∀ n, (f n).acc0 = n.acc0) (h1 : ∀ n, (f n).acc1 = n.acc1) :
    KeepsMerge s (s.modNode k f) k :=
  ⟨rfl, rfl, rfl, fun q => by simp [Node.accOf, h0, h1]⟩

theorem of_dropToken (s : State) (k j : Nat) : KeepsMerge s (s.dropToken k j) k := of_modNode s k (fun _ => rfl) fun _ => rfl

theorem of_nodeFault (s : State) (k : Nat) (x : MxToken) (h : Hit) : KeepsMerge s (s.nodeFault x h) k :=
  ⟨rfl, rfl, rfl, fun _ => rfl⟩

theorem of_swap (s : State) (k : Nat) {y : MxToken} (hy : y.instr = .mxSwap) : KeepsMerge s (s.perform k y) k := by
  rw [State.perform, hy]
  exact of_modNode s k (fun _ => rfl) fun _ => rfl

theorem accAt (h : KeepsMerge s t k) (q : Bool) (m c : Nat) : accAt (t.node k) q m c = Claim.accAt (s.node k) q m c :=
  congrArg (fun a => Tbl.get ({} : Wide) a (m * 128 + c)) (h.acc _)
end KeepsMerge

theorem carryOn_keepsMerge (s : State) (k j fuel : Nat) : KeepsMerge s (s.carryOn k j fuel) k := by
  induction fuel generalizing s j with
  | zero => exact .refl s k
  | succ fuel ih =>
    have light : KeepsMerge s (s.modNode k fun n => { n with heavy := false }) k :=
      .of_modNode s k (fun _ => rfl) fun _ => rfl
    have drop := KeepsMerge.of_dropToken s k j
    rw [State.carryOn]
    split
    · exact light
    next y _ =>
      split
      next hy =>
        split
        · exact (drop.trans (.of_swap _ k hy)).trans (ih _ j)
        · exact light
      next =>
        split
        · exact light
        · split
          · exact (drop.trans (.of_nodeFault _ k _ _)).trans (ih _ j)
          · exact .refl s k
      next =>
        split
        · exact ih s (j + 1)
        · exact light

section
variable {s : State} {k j fuel : Nat}

theorem carryOn_of_end (h : (s.node k).queue[j]? = none) :
    s.carryOn k j (fuel + 1) = s.modNode k fun n => { n with heavy := false } := by
  rw [State.carryOn, h]

theorem carryOn_of_swap {y : MxToken} (h : (s.node k).queue = [y]) (hy : y.instr = .mxSwap) :
    s.carryOn k 0 (fuel + 2)
      = s.modNode k fun n => { n with queue := n.queue.eraseIdx 0, active := n.shadow, shadow := n.active, heavy := false } := by
  have hq : (s.node k).queue[0]? = some y := by rw [h]; rfl
  have hp : (s.dropToken k 0).perform k y = s.modNode k fun n =>
      { n with queue := n.queue.eraseIdx 0, active := n.shadow, shadow := n.active } := by
    rw [State.perform, hy]
    exact modNode_modNode s k _ _
  have hend : (((s.dropToken k 0).perform k y).node k).queue[0]? = none := by rw [hp, node_modNode, h]; rfl
  have hstep : s.carryOn k 0 (fuel + 2) = ((s.dropToken k 0).perform k y).carryOn k 0 (fuel + 1) := by
    rw [State.carryOn, hq]
    simp [hy]
  rw [hstep, carryOn_of_end hend, hp, modNode_modNode]

theorem mayComplete_head (s : State) (k : Nat) (y : MxToken) : s.mayComplete k 0 y = true := rfl

theorem carryOn_of_product {y : MxToken} {h : MxShape} {acc byp : Bool} (hq : (s.node k).queue.head? = some y)
    (hy : productOf y.instr = some (h, acc, byp)) (hit : State.productHit (s.node k) h byp = none) :
    s.carryOn k 0 (fuel + 1) = s := by
  rw [List.head?_eq_getElem?] at hq
  rw [State.carryOn, hq]
  split
  case h_1 e => cases e
  case h_2 e =>
    obtain rfl := Option.some.inj e
    split
    case h_1 hs => rw [hs] at hy; cases hy
    case h_2 e _ => cases hy.symm.trans e; simp [mayComplete_head, hit]
    case h_3 e _ => cases hy.symm.trans e
end

/-! ### A product starts, is discarded, or merges (R241, R283) -/

theorem exec_product {s : State} {k j : Nat} {x : MxToken} {h : MxShape} {acc byp : Bool}
    (hx : (s.node k).queue[j]? = some x) (hm : s.mayComplete k j x = true) (hrg : x.rg = 0) (hl : x.lost = none)
    (hp : productOf x.instr = some (h, acc, byp)) :
    exec (.mxTokenComplete ⟨k, j⟩) s
      = .next (if (s.node k).heavy then s.endProduct k j x h acc byp else s.startProduct k j x h byp) := by
  show execMxTokenComplete ⟨k, j⟩ s = _
  simp [execMxTokenComplete, hx, hm, hrg, hl, hp]

section
variable {s : State} {k : Nat} {x : MxToken}

theorem powerHit_of_room (h : ∀ r, Tbl.find s.nets x.iss.net = some r → s.heavyNodes x.iss.net + 1 ≤ r.quanta) :
    s.powerHit k x = none := by
  unfold State.powerHit State.quantaOf
  cases hr : Tbl.find s.nets x.iss.net with
  | none => simp
  | some r => simp [Nat.not_lt.2 (h r hr)]

theorem powerHit_of_full {r : Net} (hr : Tbl.find s.nets x.iss.net = some r) (hq : r.quanta < s.heavyNodes x.iss.net + 1)
    (hh : (s.node k).heavy = false) : ∃ a, s.powerHit k x = some { cls := 9, aux := a } := by
  unfold State.powerHit State.quantaOf
  simp [hr, hh, hq]

variable {j : Nat} {p : Plane} {h : MxShape} {acc byp : Bool}

theorem startProduct_of_room (hit : State.productHit (s.node k) h byp = none) (hpow : s.powerHit k x = none) :
    s.startProduct k j x h byp = s.modNode k fun n => { n with heavy := true } := by
  rw [State.startProduct, hit, hpow]
  rfl

theorem startProduct_of_full {hh : Hit} (hit : State.productHit (s.node k) h byp = none) (hpow : s.powerHit k x = some hh) :
    s.startProduct k j x h byp = (s.dropToken k j).nodeFault x hh := by
  rw [State.startProduct, hit, hpow]
  rfl

/-- The node once a product has merged and its token has left the queue. -/
def mergedNode (s : State) (x : MxToken) (p : Plane) (h : MxShape) (acc byp : Bool) (k j : Nat) (n : Node) : Node :=
  { setAcc n h.q (mergedAcc s x (s.node k) p h acc byp) with queue := n.queue.eraseIdx j }

/-- The state in which a started product has merged, before what follows it goes on. -/
def mergedState (s : State) (k j : Nat) (x : MxToken) (p : Plane) (h : MxShape) (acc byp : Bool) : State :=
  { s.modNode k (mergedNode s x p h acc byp k j) with flights := s.flights ++ doneFlights s k x }

theorem endProduct_eq (hp : (s.node k).active = some p) :
    s.endProduct k j x h acc byp = (mergedState s k j x p h acc byp).carryOn k j 9 := by
  rw [State.endProduct, product_eq hp, tokenDone_eq, State.dropToken, modNode_modNode]
  simp only [queue_setAcc]
  rfl

theorem node_mergedState : (mergedState s k j x p h acc byp).node k = mergedNode s x p h acc byp k j (s.node k) :=
  node_modNode s k _

theorem mergedState_only : OnlyNode s (mergedState s k j x p h acc byp) k :=
  onlyNode_of (f := mergedNode s x p h acc byp k j) rfl

/-- Whether a product may start does not depend on the accumulators or the queue. -/
theorem productHit_mergedNode (s : State) (n : Node) (h2 : MxShape) (byp2 : Bool) :
    State.productHit (mergedNode s x p h acc byp k j n) h2 byp2 = State.productHit n h2 byp2 := by
  unfold mergedNode setAcc
  cases h.q <;> rfl

theorem accAt_mergedNode_same {n : Node} (m c : Nat) :
    accAt (mergedNode s x p h acc byp k j n) h.q m c = Tbl.get {} (mergedAcc s x (s.node k) p h acc byp) (m * 128 + c) :=
  congrArg (fun a => Tbl.get ({} : Wide) a (m * 128 + c)) (acc_setAcc_same n h.q _)

theorem accAt_mergedNode_other {n : Node} (m c : Nat) :
    accAt (mergedNode s x p h acc byp k j n) (!h.q) m c = accAt n (!h.q) m c :=
  congrArg (fun a => Tbl.get ({} : Wide) a (m * 128 + c)) (acc_setAcc_other n h.q _)

theorem endProduct_keepsMerge (hp : (s.node k).active = some p) :
    KeepsMerge (mergedState s k j x p h acc byp) (s.endProduct k j x h acc byp) k :=
  endProduct_eq hp ▸ carryOn_keepsMerge _ k j 9

theorem queue_mergedState : ((mergedState s k j x p h acc byp).node k).queue = (s.node k).queue.eraseIdx j := by
  rw [node_mergedState]
  rfl

/-- Nothing stands behind the product: its node is light. -/
theorem endProduct_of_last (hp : (s.node k).active = some p) (hq : ((s.node k).queue.eraseIdx j)[j]? = none) :
    s.endProduct k j x h acc byp = (mergedState s k j x p h acc byp).modNode k fun n => { n with heavy := false } := by
  rw [endProduct_eq hp]
  exact carryOn_of_end (queue_mergedState ▸ hq)

/-- A swap alone stands behind a product at the head: it has been performed. -/
theorem endProduct_of_swap {y : MxToken} (hp : (s.node k).active = some p) (hq : (s.node k).queue.eraseIdx 0 = [y])
    (hy : y.instr = .mxSwap) :
    s.endProduct k 0 x h acc byp = (mergedState s k 0 x p h acc byp).modNode k fun n =>
      { n with queue := n.queue.eraseIdx 0, active := n.shadow, shadow := n.active, heavy := false } := by
  rw [endProduct_eq hp]
  exact carryOn_of_swap (queue_mergedState.trans hq) hy

/-- A product that may start stands behind one at the head: it has started. -/
theorem endProduct_of_product {y : MxToken} {h2 : MxShape} {acc2 byp2 : Bool} (hp : (s.node k).active = some p)
    (hq : ((s.node k).queue.eraseIdx 0).head? = some y) (hy : productOf y.instr = some (h2, acc2, byp2))
    (hit : State.productHit (s.node k) h2 byp2 = none) :
    s.endProduct k 0 x h acc byp = mergedState s k 0 x p h acc byp := by
  rw [endProduct_eq hp]
  refine carryOn_of_product (queue_mergedState ▸ hq) hy ?_
  rw [node_mergedState, productHit_mergedNode, hit]

end

/-! ### Bytes of a number -/

theorem length_toBytes (n v : Nat) : (toBytes n v).length = n := by
  induction n generalizing v with
  | zero => rfl
  | succ n ih => simp [toBytes, ih]

theorem ofBytes_toBytes (n v : Nat) : ofBytes (toBytes n v) = v % 256 ^ n := by
  induction n generalizing v with
  | zero => simp [toBytes, ofBytes, Nat.mod_one]
  | succ n ih =>
    rw [toBytes, ofBytes, ih, Nat.pow_succ', Nat.mod_mul]
    rfl

theorem sum_zipIdx_eq (bs : List Byte) (k : Nat) :
    ((bs.zipIdx k).map fun e => e.1.toNat * 2 ^ (8 * e.2)).sum = 2 ^ (8 * k) * ofBytes bs := by
  induction bs generalizing k with
  | nil => rfl
  | cons b bs ih =>
    rw [List.zipIdx_cons, List.map_cons, List.sum_cons, ih, ofBytes, show 8 * (k + 1) = 8 * k + 8 by omega, Nat.pow_add]
    ring

theorem numberOf_eq (bs : List Byte) : numberOf bs = ofBytes bs := by
  rw [numberOf, sum_zipIdx_eq, Nat.mul_zero, Nat.pow_zero, Nat.one_mul]

/-! ### The elements that a drain writes (R83 to R85, R242) -/

theorem rowAt_eq_elemAt (x : MxToken) (m c : Nat) : rowAt x.a x.b m + 4 * c = elemAt x m c := by
  simp only [rowAt, bankOf, pitchOf, fld, elemAt, Nat.pow_zero, Nat.div_one, Nat.div_add_mod']

/-- One element ends before another begins. -/
def Before (x : MxToken) (p q : Nat × Nat) : Prop := elemAt x p.1 p.2 + 4 ≤ elemAt x q.1 q.2

theorem elems_before {x : MxToken} {m n : Nat} (h : RowsApart x m n) : (elems m n).Pairwise (Before x) := by
  refine List.pairwise_flatMap.2 ⟨fun i _ => ?row, List.pairwise_lt_range.imp_of_mem fun {i i'} _ hi' hlt => ?rows⟩
  case row =>
    refine List.pairwise_map.2 (List.pairwise_lt_range.imp fun {c c'} hlt => ?_)
    simp only [Before, elemAt]
    omega
  case rows =>
    intro p hp q hq
    obtain ⟨c, hc, rfl⟩ := List.mem_map.1 hp
    obtain ⟨c', -, rfl⟩ := List.mem_map.1 hq
    have hm := List.mem_range.1 hi'
    have hn := List.mem_range.1 hc
    have hpitch : 4 * n ≤ x.b.toNat % 2 ^ 16 := h.2.resolve_left (by omega)
    have hstep : (i + 1) * (x.b.toNat % 2 ^ 16) ≤ i' * (x.b.toNat % 2 ^ 16) := Nat.mul_le_mul_right _ hlt
    rw [Nat.succ_mul] at hstep
    simp only [Before, elemAt]
    omega

section
variable (s : State) (n : Node) (x : MxToken) (val : Nat → Nat → Wide) (acc byp nowr : Bool) (e : DrainEnd)
  (p : Nat × Nat) (l : List (Nat × Nat))

/-- What an element adds to: the word at its place, or nothing. -/
def oldWord (p : Nat × Nat) : Nat := if acc then ofBytes (Mem.load s.banks (elemAt x p.1 p.2) 4) else 0

/-- What a drain writes for an element. -/
def drainBits : Nat :=
  (resolveElem n (if n.mode == 5 then genStep e.gen else 0) (val p.1 p.2) (oldWord s x acc p)).1

/-- An element of a drain, as `drainElems` performs it. -/
def elemStep : State × DrainEnd := s.drainElem n (elemAt x p.1 p.2) (val p.1 p.2) acc byp nowr e

theorem elemStep_state : (elemStep s n x val acc byp nowr e p).1
    = if nowr then s else
        { s with banks := Mem.store s.banks (elemAt x p.1 p.2) (toBytes 4 (drainBits s n x val acc e p)) } := rfl

theorem drainElems_cons : s.drainElems n x val acc byp nowr e (p :: l)
    = (elemStep s n x val acc byp nowr e p).1.drainElems n x val acc byp nowr (elemStep s n x val acc byp nowr e p).2 l := by
  rw [State.drainElems, rowAt_eq_elemAt]
  rfl

theorem elemStep_read {a : Nat} (h : a < elemAt x p.1 p.2 ∨ elemAt x p.1 p.2 + 4 ≤ a) :
    Mem.read (elemStep s n x val acc byp nowr e p).1.banks a = Mem.read s.banks a := by
  rw [elemStep_state]
  split
  · rfl
  · exact Mem.read_store_other _ _ _ _ (by rwa [length_toBytes])

theorem drainElems_state : (s.drainElems n x val acc byp nowr e l).1
    = { s with banks := (s.drainElems n x val acc byp nowr e l).1.banks } := by
  induction l generalizing s e with
  | nil => rfl
  | cons p l ih =>
    rw [drainElems_cons, ih, elemStep_state]
    split <;> rfl

theorem drainElems_of_nowr (h : nowr = true) : (s.drainElems n x val acc byp nowr e l).1 = s := by
  induction l generalizing s e with
  | nil => rfl
  | cons p l ih => rw [drainElems_cons, ih, elemStep_state, if_pos h]

variable {l}

theorem drainElems_read {a : Nat} (h : ∀ p ∈ l, a < elemAt x p.1 p.2 ∨ elemAt x p.1 p.2 + 4 ≤ a) :
    Mem.read (s.drainElems n x val acc byp nowr e l).1.banks a = Mem.read s.banks a := by
  induction l generalizing s e with
  | nil => rfl
  | cons p l ih =>
    obtain ⟨hp, hl⟩ := List.forall_mem_cons.1 h
    rw [drainElems_cons, ih _ _ hl, elemStep_read _ _ _ _ _ _ _ _ _ hp]

variable {n nowr}

/-- Where elements do not overlap, each holds the result over what stood there before the drain. -/
theorem drainElems_load (hw : nowr = false) (hs : n.mode ≠ 5) (hl : l.Pairwise (Before x)) {p : Nat × Nat} (hp : p ∈ l) :
    ofBytes (Mem.load (s.drainElems n x val acc byp nowr e l).1.banks (elemAt x p.1 p.2) 4)
      = (resolveElem n 0 (val p.1 p.2) (oldWord s x acc p)).1 % 2 ^ 32 := by
  induction l generalizing s e with
  | nil => cases hp
  | cons q l ih =>
    obtain ⟨hq, hl⟩ := List.pairwise_cons.1 hl
    rw [drainElems_cons]
    rcases List.mem_cons.1 hp with rfl | hp
    · have hkeep : Mem.load ((elemStep s n x val acc byp nowr e p).1.drainElems n x val acc byp nowr
          (elemStep s n x val acc byp nowr e p).2 l).1.banks (elemAt x p.1 p.2) 4
          = Mem.load (elemStep s n x val acc byp nowr e p).1.banks (elemAt x p.1 p.2) 4 :=
        Mem.load_congr _ _ _ _ fun a _ ha => drainElems_read _ _ _ _ _ _ _ _ fun r hr =>
          .inl (Nat.lt_of_lt_of_le ha (hq r hr))
      have hstored := Mem.load_store_self s.banks (elemAt x p.1 p.2) (toBytes 4 (drainBits s n x val acc e p))
      rw [length_toBytes] at hstored
      rw [hkeep, elemStep_state, hw, if_neg Bool.false_ne_true, hstored, ofBytes_toBytes, drainBits, beq_false_of_ne hs]
      rfl
    · have hkeep : oldWord (elemStep s n x val acc byp nowr e q).1 x acc p = oldWord s x acc p := by
        unfold oldWord
        rw [Mem.load_congr _ s.banks _ _ fun a ha _ => elemStep_read s n x val acc byp nowr e q (.inr (Nat.le_trans (hq p hp) ha))]
      rw [ih _ _ hl hp, hkeep]
end

/-! ### A drain of a node or of a region (R242, R243) -/

theorem drained_congr {s s' t t' : State} {n : Node} {x : MxToken} {h : MxShape} {acc nowr : Bool} {val : Nat → Nat → Wide}
    (hs : s'.banks = s.banks) (ht : t'.banks = t.banks) (hd : Drained s t n x h acc nowr val) :
    Drained s' t' n x h acc nowr val := by
  unfold Drained at hd ⊢
  rwa [hs, ht]

section
variable (s : State) (k : Nat) (x : MxToken) (h : MxShape) (acc byp nowr : Bool) (val : Nat → Nat → Wide)

/-- What a drain leaves in its node: generator, bypass tile and counts. -/
def drainLeft (e : DrainEnd) (n : Node) : Node :=
  let n := { n with
    gen := e.gen
    byp := if byp then some { m := h.m, n := h.n, codes := State.rowsOf h.n e.byp.reverse h.m } else n.byp }
  if h.q then { n with ovf1 := e.ovf, nan1 := e.nan } else { n with ovf0 := e.ovf, nan0 := e.nan }

/-- A drain's elements, from the generator and the counts of its node. -/
def drainRun : State × DrainEnd :=
  let n := s.node k
  s.drainElems n x val acc byp nowr
    { gen := n.gen, ovf := if h.q then n.ovf1 else n.ovf0, nan := if h.q then n.nan1 else n.nan0 } (elems h.m h.n)

theorem drain_eq : s.drain k x h acc byp nowr val
    = { s.modNode k (drainLeft h byp (drainRun s k x h acc byp nowr val).2) with
        banks := (drainRun s k x h acc byp nowr val).1.banks } :=
  congrArg (·.modNode k (drainLeft h byp (drainRun s k x h acc byp nowr val).2)) (drainElems_state ..)

theorem drain_banks : (s.drain k x h acc byp nowr val).banks = (drainRun s k x h acc byp nowr val).1.banks := by
  rw [drain_eq]

theorem queue_drainLeft (e : DrainEnd) (n : Node) : (drainLeft h byp e n).queue = n.queue := by
  unfold drainLeft
  cases h.q <;> rfl

theorem accOf_drainLeft (e : DrainEnd) (n : Node) :
    (drainLeft h byp e n).acc0 = n.acc0 ∧ (drainLeft h byp e n).acc1 = n.acc1 := by
  unfold drainLeft
  cases h.q <;> exact ⟨rfl, rfl⟩

theorem drain_frame : (s.drain k x h acc byp nowr val).cells = s.cells ∧ (s.drain k x h acc byp nowr val).mem = s.mem
    ∧ (s.drain k x h acc byp nowr val).nets = s.nets := by
  rw [drain_eq]
  exact ⟨rfl, rfl, rfl⟩

/-- A drain leaves every node's queue and accumulators (R242). -/
theorem drain_node (j : Nat) : ((s.drain k x h acc byp nowr val).node j).queue = (s.node j).queue
    ∧ ((s.drain k x h acc byp nowr val).node j).acc0 = (s.node j).acc0
    ∧ ((s.drain k x h acc byp nowr val).node j).acc1 = (s.node j).acc1 := by
  rw [drain_eq]
  by_cases hj : j = k
  · subst hj
    exact (node_modNode s j _).symm ▸ ⟨queue_drainLeft h byp _ _, accOf_drainLeft h byp _ _⟩
  · exact (node_modNode_other s k j _ hj).symm ▸ ⟨rfl, rfl, rfl⟩

theorem drain_sectorAt_other {j : Nat} (hj : j ≠ k) : (s.drain k x h acc byp nowr val).sectorAt j = s.sectorAt j := by
  rw [drain_eq]
  exact sectorAt_modNode_other s k j _ hj

theorem drain_drained : Drained s (s.drain k x h acc byp nowr val) (s.node k) x h acc nowr val := by
  refine ⟨fun hw hr hs m c hm hc => ?results, fun hw => ?unwritten, fun a ha => ?rest⟩
  case results =>
    rw [drain_banks, numberOf_eq, numberOf_eq]
    exact drainElems_load s x val acc byp _ hw hs (elems_before hr) (p := (m, c)) (mem_elems.2 ⟨hm, hc⟩)
  case unwritten =>
    rw [drain_banks, drainRun, drainElems_of_nowr _ _ _ _ _ _ _ _ _ hw]
  case rest =>
    rw [drain_banks]
    exact drainElems_read _ _ _ _ _ _ _ _ fun p hp => ha _ _ (mem_elems.1 hp).1 (mem_elems.1 hp).2
end

/-! ### The members of a region (R243) -/

/-- The tokens of a region's drain: member, place in its queue, token. -/
abbrev Members := List (Nat × Nat × MxToken)

/-- Every member's token leaves its queue. -/
def dropAll (s : State) (l : Members) : State := l.foldl (fun s e => s.dropToken e.1 e.2.1) s

/-- Every member's token is complete. -/
def doneAll (s : State) (l : Members) : State := l.foldl (fun s e => s.tokenDone e.1 e.2.2) s

theorem dropAll_frame (s : State) (l : Members) : (dropAll s l).banks = s.banks ∧ (dropAll s l).cells = s.cells
    ∧ (dropAll s l).mem = s.mem ∧ (dropAll s l).nets = s.nets := by
  induction l generalizing s with
  | nil => exact ⟨rfl, rfl, rfl, rfl⟩
  | cons e l ih => exact ih (s.dropToken e.1 e.2.1)

theorem dropAll_sectorAt_other (s : State) (l : Members) {k : Nat} (h : k ∉ l.map (·.1)) :
    (dropAll s l).sectorAt k = s.sectorAt k := by
  induction l generalizing s with
  | nil => rfl
  | cons e l ih =>
    obtain ⟨he, hl⟩ := not_or.1 (mt List.mem_cons.2 h)
    exact (ih _ hl).trans (sectorAt_modNode_other s e.1 k _ he)

theorem dropAll_node (s : State) (l : Members) (hl : (l.map (·.1)).Nodup) {e : Nat × Nat × MxToken} (he : e ∈ l) :
    (dropAll s l).node e.1 = { s.node e.1 with queue := (s.node e.1).queue.eraseIdx e.2.1 } := by
  induction l generalizing s with
  | nil => cases he
  | cons d l ih =>
    obtain ⟨hd, hl⟩ := List.nodup_cons.1 hl
    rcases List.mem_cons.1 he with rfl | he
    · exact (congrArg Sector.node (dropAll_sectorAt_other _ l hd)).trans (node_dropToken s _ _)
    · have hne : e.1 ≠ d.1 := fun h => hd (List.mem_map.2 ⟨e, he, h⟩)
      have hnode : (s.dropToken d.1 d.2.1).node e.1 = s.node e.1 := node_modNode_other s _ _ _ hne
      rw [← hnode]
      exact ih _ hl he

theorem doneAll_eq (s : State) (l : Members) : ∃ fl, doneAll s l = { s with flights := fl } := by
  induction l generalizing s with
  | nil => exact ⟨_, rfl⟩
  | cons e l ih =>
    obtain ⟨fl, h⟩ := ih (s.tokenDone e.1 e.2.2)
    exact ⟨fl, h.trans (by rw [tokenDone_eq])⟩

/-- The accumulator that a member's drain names. -/
def memberPlane (e : Nat × Nat × MxToken) : Bool :=
  match drainOf e.2.2.instr with
  | some (h, _, _, _) => h.q
  | none => false

/-- The root of the tree over the members' elements (R81). -/
def rootOf (s : State) (l : Members) (m c : Nat) : Wide :=
  treeRoot (l.map fun e => accAt (s.node e.1) (memberPlane e) m c) l.length

theorem memberDrains_eq {s : State} {net rg : Nat} {l : Members} (h : ∀ e ∈ l, nextDrain (s.node e.1) net rg = some e.2) :
    s.memberDrains net rg (l.map (·.1)) = some l := by
  induction l with
  | nil => rfl
  | cons e l ih =>
    obtain ⟨he, hl⟩ := List.forall_mem_cons.1 h
    rw [List.map_cons, State.memberDrains, he]
    simp [ih hl]

/-- Every member has a drain of one number that may start. -/
theorem regionDrains_eq {s : State} {net rg : Nat} {e0 : Nat × Nat × MxToken} {l : Members}
    (hr : s.region net rg = ((e0 :: l).length, (e0 :: l).map (·.1)))
    (h : ∀ e ∈ e0 :: l, nextDrain (s.node e.1) net rg = some e.2) (hn : ∀ e ∈ e0 :: l, e.2.2.num = e0.2.2.num) :
    s.regionDrains net rg = some (e0 :: l) := by
  rw [State.regionDrains, hr]
  simpa [-List.map_cons, memberDrains_eq h] using fun k j x he => hn (k, j, x) (List.mem_cons_of_mem _ he)

/-- A region's drain, but for the completion tokens: the members' tokens leave, and the drain runs at member 0. -/
def regionDrained (s : State) (l : Members) (k0 : Nat) (x0 : MxToken) (h : MxShape) (acc byp nowr : Bool) : State :=
  (dropAll s l).drain k0 x0 h acc byp nowr (rootOf s l)

section
variable (s : State) (l : Members) (k0 : Nat) (x0 : MxToken) (h : MxShape) (acc byp nowr : Bool)

theorem regionDrained_frame : (regionDrained s l k0 x0 h acc byp nowr).cells = s.cells
    ∧ (regionDrained s l k0 x0 h acc byp nowr).mem = s.mem ∧ (regionDrained s l k0 x0 h acc byp nowr).nets = s.nets := by
  obtain ⟨-, hc, hm, hn⟩ := dropAll_frame s l
  obtain ⟨hc', hm', hn'⟩ := drain_frame (dropAll s l) k0 x0 h acc byp nowr (rootOf s l)
  exact ⟨hc'.trans hc, hm'.trans hm, hn'.trans hn⟩

theorem regionDrained_sectorAt_other {k : Nat} (hk : k ∉ l.map (·.1)) (h0 : k0 ∈ l.map (·.1)) :
    (regionDrained s l k0 x0 h acc byp nowr).sectorAt k = s.sectorAt k :=
  (drain_sectorAt_other _ _ _ _ _ _ _ _ (ne_of_mem_of_not_mem h0 hk).symm).trans (dropAll_sectorAt_other s l hk)

variable {l}

theorem regionDrained_node (hl : (l.map (·.1)).Nodup) {e : Nat × Nat × MxToken} (he : e ∈ l) :
    ((regionDrained s l k0 x0 h acc byp nowr).node e.1).queue = (s.node e.1).queue.eraseIdx e.2.1
    ∧ ((regionDrained s l k0 x0 h acc byp nowr).node e.1).acc0 = (s.node e.1).acc0
    ∧ ((regionDrained s l k0 x0 h acc byp nowr).node e.1).acc1 = (s.node e.1).acc1 := by
  have hd := drain_node (dropAll s l) k0 x0 h acc byp nowr (rootOf s l) e.1
  rwa [dropAll_node s l hl he] at hd

theorem regionDrained_drained (hl : (l.map (·.1)).Nodup) {e : Nat × Nat × MxToken} (he : e ∈ l) :
    Drained s (regionDrained s l e.1 x0 h acc byp nowr) (s.node e.1) x0 h acc nowr (rootOf s l) := by
  have hd := drain_drained (dropAll s l) e.1 x0 h acc byp nowr (rootOf s l)
  rw [dropAll_node s l hl he] at hd
  obtain ⟨hbanks, -⟩ := dropAll_frame s l
  exact drained_congr hbanks.symm rfl hd
end

/-- The members' drains agree in shape, each with its own plane (R243). -/
def SameShape (l : Members) (m n : Nat) : Prop :=
  ∀ e ∈ l, ∃ q a b c, drainOf e.2.2.instr = some (⟨m, 0, n, q, false⟩, a, b, c)

theorem exec_regionDrain {s : State} {net rg k0 j0 m n : Nat} {x0 : MxToken} {l : Members} {q acc byp nowr : Bool}
    (hd : s.regionDrains net rg = some ((k0, j0, x0) :: l)) (hs : SameShape ((k0, j0, x0) :: l) m n)
    (h0 : drainOf x0.instr = some (⟨m, 0, n, q, false⟩, acc, byp, nowr))
    (hb : drainBad (s.node k0) ⟨m, 0, n, q, false⟩ byp nowr = false) :
    exec (.regionDrainStart net rg) s
      = .next (doneAll (regionDrained s ((k0, j0, x0) :: l) k0 x0 ⟨m, 0, n, q, false⟩ acc byp nowr) ((k0, j0, x0) :: l)) := by
  show execRegionDrainStart net rg s = _
  rw [execRegionDrainStart, hd]
  simp only [h0, hb]
  rw [if_neg]
  · rfl
  · rw [Bool.or_false, Bool.not_eq_true', Bool.not_eq_false, List.all_eq_true]
    intro e he
    obtain ⟨q', a, b, c, hq⟩ := hs e he
    simp [hq]

end Sys2Proof.Laws.NodeWork

namespace Sys2Proof
open Machine Claim Laws.NodeWork

/-- R235, R241, R283: a product that may start makes its node heavy or is discarded; one that has started merges, and what it held
back goes on. -/
theorem productsStartAndMerge : Claim.ProductsStartAndMerge := by
  unfold Claim.ProductsStartAndMerge
  intro s k j x h acc byp hx hm hrg hl hp
  rw [exec_product hx hm hrg hl hp]
  refine ⟨fun hh hit hroom => ?starts, fun hh hit ⟨r, hr, hq⟩ => ?discarded, fun p hh ha => ?merges⟩
  case starts =>
    rw [if_neg (Bool.eq_false_iff.1 hh)]
    exact ⟨_, rfl, startProduct_of_room hit (powerHit_of_room hroom)⟩
  case discarded =>
    obtain ⟨a, hpow⟩ := powerHit_of_full (k := k) hr hq hh
    rw [if_neg (Bool.eq_false_iff.1 hh), startProduct_of_full hit hpow]
    exact ⟨_, rfl, node_dropToken s k j, _, rfl, rfl, rfl, rfl⟩
  case merges =>
    have hk : KeepsMerge (mergedState s k j x p h acc byp) (s.endProduct k j x h acc byp) k := endProduct_keepsMerge ha
    rw [if_pos hh]
    refine ⟨_, rfl, hk.banks, hk.mem, told_of_product hp hk.flights, fun m c hm' hc hn => ?inside, fun m c hc ho hn => ?outside,
      fun m c => ?plane, fun hq => ?last, fun y hj hq hy => ?swap, fun y h2 acc2 byp2 hj hq hy hit => ?next⟩
    case inside => exact (hk.accAt _ m c).trans (by rw [node_mergedState, accAt_mergedNode_same, get_mergedAcc hm' hc hn]; rfl)
    case outside => exact (hk.accAt _ m c).trans (by rw [node_mergedState, accAt_mergedNode_same, get_mergedAcc_other hc ho hn])
    case plane => exact (hk.accAt _ m c).trans (by rw [node_mergedState, accAt_mergedNode_other])
    case last =>
      rw [endProduct_of_last ha hq, node_modNode, node_mergedState]
      exact ⟨onlyNode_modNode _ mergedState_only, rfl, rfl, by simp [mergedNode], by simp [mergedNode]⟩
    case swap =>
      subst hj
      rw [endProduct_of_swap ha hq hy, node_modNode, node_mergedState]
      exact ⟨onlyNode_modNode _ mergedState_only, congrArg (·.eraseIdx 0) hq, rfl, by simp [mergedNode], by simp [mergedNode]⟩
    case next =>
      subst hj
      rw [endProduct_of_product ha hq hy hit, node_mergedState]
      exact ⟨mergedState_only, rfl, by simp [mergedNode, hh]⟩

/-- R81, R242, R243: the members' tokens leave, and member 0 resolves the roots of the tree. -/
theorem regionDrainsStartTogether : Claim.RegionDrainsStartTogether := by
  unfold Claim.RegionDrainsStartTogether
  intro s net rg num l k0 j0 x0 m n acc byp nowr hr hl hnd _ he hb
  obtain ⟨l', rfl⟩ : ∃ l', l = (k0, j0, x0) :: l' := by
    cases l with
    | nil => cases hl
    | cons e l => exact ⟨l, by rw [Option.some.inj hl]⟩
  obtain ⟨-, hnum0, q, -, h0⟩ := he _ List.mem_cons_self
  have hshape : SameShape ((k0, j0, x0) :: l') m n := fun e hm => by
    obtain ⟨-, -, q, ⟨a, b, c, h⟩, -⟩ := he e hm
    exact ⟨q, a, b, c, h⟩
  have hnum : ∀ e ∈ (k0, j0, x0) :: l', e.2.2.num = x0.num := fun e hm => by
    obtain ⟨-, h, -⟩ := he e hm
    exact h.trans hnum0.symm
  have hd := regionDrains_eq hr (fun e hm => (he e hm).1) hnum
  rw [exec_regionDrain hd hshape (h0 rfl) hb]
  obtain ⟨fl, hdone⟩ := doneAll_eq (regionDrained s ((k0, j0, x0) :: l') k0 x0 ⟨m, 0, n, q, false⟩ acc byp nowr)
    ((k0, j0, x0) :: l')
  rw [hdone]
  exact ⟨_, rfl, fun e hm => regionDrained_node s k0 x0 _ acc byp nowr hnd hm,
    fun k hk => regionDrained_sectorAt_other s _ k0 x0 _ acc byp nowr hk List.mem_cons_self,
    regionDrained_drained s x0 ⟨m, 0, n, q, false⟩ acc byp nowr hnd List.mem_cons_self, regionDrained_frame s _ k0 x0 _ acc byp nowr⟩

/-- Settles O41: a product by what `endProduct` leaves behind, a region's drain by what `drain` writes at member 0. -/
theorem nodesStartProductsAndRegionDrains : Obligations.NodesStartProductsAndRegionDrains := by
  unfold Obligations.NodesStartProductsAndRegionDrains
  exact ⟨productsStartAndMerge, regionDrainsStartTogether⟩

end Sys2Proof
end

section
/-! SUPPORT. What an access changes beside memory: frames of states that performing accepted stores, translating, reading and
beginning an instruction of the wave chain leave behind, with what a load then finds. -/
namespace Sys2Proof.Laws.MemoryAccess
open Machine Claim

/-! ### States that differ from another in what an access may change -/

/-- Nothing but the running context of the current cell and what memory accesses change has changed. -/
structure Near (s t : State) : Prop where
  frame : t = { s with cells := t.cells, owners := t.owners, free := t.free, wlog := t.wlog, sectors := t.sectors
                       mem := t.mem, banks := t.banks, stores := t.stores, due := t.due, dies := t.dies }
  cells : t.cells = s.cells ∨ t.cells = (s.modCtx fun _ => t.ctx).cells

/-- A context with what another has read and learnt (R286, R290). -/
def sees (c d : Ctx) : Ctx := { c with seen := d.seen, know := d.know, floor := d.floor, found := d.found }

/-- The same, where the running context has changed in nothing but what the cell has read and learnt (R286, R290). -/
structure Quiet (s t : State) : Prop where
  near : Near s t
  ctx  : t.ctx = sees s.ctx t.ctx

theorem modCtx_modCtx (s : State) (f g : Ctx → Ctx) : (s.modCtx f).modCtx g = s.modCtx fun c => g (f c) := by
  unfold State.modCtx State.modCell
  rw [show (s.setCell s.cell _).cell = s.cell from rfl, State.setCell_setCell, State.cellAt_setCell, if_pos rfl]

theorem modMe_eq_modCtx (s : State) (u : Firing → Firing) :
    s.modMe u = s.modCtx fun c => { c with firings := replace u s.fid c.firings } := rfl

/-- The running context that a table of cells gives a cell. -/
theorem ctx_of_cells {s t : State} (h : t.cells = s.cells) (hc : t.cell = s.cell) : t.ctx = s.ctx := by
  simp only [State.ctx, State.cellAt, h, hc]

namespace Near
variable {s t r : State}

theorem clock (h : Near s t) : t.clock = s.clock := (congrArg State.clock h.frame :)
theorem cell (h : Near s t) : t.cell = s.cell := (congrArg State.cell h.frame :)
theorem fid (h : Near s t) : t.fid = s.fid := (congrArg State.fid h.frame :)
theorem nets (h : Near s t) : t.nets = s.nets := (congrArg State.nets h.frame :)
theorem late (h : Near s t) : t.late = s.late := (congrArg State.late h.frame :)
theorem past (h : Near s t) : t.past = s.past := (congrArg State.past h.frame :)
theorem range (h : Near s t) : t.range = s.range := (congrArg State.range h.frame :)
theorem qcur (h : Near s t) : t.qcur = s.qcur := (congrArg State.qcur h.frame :)
theorem htbase (h : Near s t) : t.htbase = s.htbase := (congrArg State.htbase h.frame :)
theorem htlen (h : Near s t) : t.htlen = s.htlen := (congrArg State.htlen h.frame :)
theorem bars (h : Near s t) : t.bars = s.bars := (congrArg State.bars h.frame :)
theorem fidx (h : Near s t) : t.fidx = s.fidx := (congrArg State.fidx h.frame :)
theorem queues (h : Near s t) : t.queues = s.queues := (congrArg State.queues h.frame :)
theorem mgmt (h : Near s t) : t.mgmt = s.mgmt := (congrArg State.mgmt h.frame :)

theorem refl (s : State) : Near s s := ⟨rfl, .inl rfl⟩

/-- A state that differs in other parts than cells. -/
theorem of_parts (h : t = { s with owners := t.owners, free := t.free, wlog := t.wlog, sectors := t.sectors, mem := t.mem
                                   banks := t.banks, stores := t.stores, due := t.due, dies := t.dies }) : Near s t := by
  have hc : t.cells = s.cells := (congrArg State.cells h :)
  exact ⟨h.trans (by rw [hc]), .inl hc⟩

theorem modCtx (s : State) (f : Ctx → Ctx) : Near s (s.modCtx f) :=
  ⟨rfl, .inr (by rw [State.ctx_modCtx]; rfl)⟩

theorem modMe (s : State) (u : Firing → Firing) : Near s (s.modMe u) := modMe_eq_modCtx s u ▸ modCtx s _

theorem cells_modCtx (h : Near s t) (f : Ctx → Ctx) : (t.modCtx f).cells = (s.modCtx fun _ => f t.ctx).cells := by
  show Tbl.put t.cells t.cell { t.cellAt t.cell with run := f t.ctx }
    = Tbl.put s.cells s.cell { s.cellAt s.cell with run := f t.ctx }
  rcases h.cells with hc | hc
  · simp only [State.cellAt, hc, h.cell]
  · have hp : t.cells = Tbl.put s.cells s.cell { s.cellAt s.cell with run := t.ctx } := hc
    simp only [State.cellAt, h.cell]
    rw [hp, NodeWork.put_put, Tbl.get_put_self]
    rfl

theorem trans (h : Near s t) (h' : Near t r) : Near s r := by
  refine ⟨?_, ?_⟩
  · have hf := h'.frame
    rw [h.frame] at hf
    exact hf
  · rcases h'.cells with hc | hc
    · rw [hc, ctx_of_cells hc h'.cell]
      exact h.cells
    · exact .inr (hc.trans (h.cells_modCtx fun _ => r.ctx))

/-- The cells after a change of the current firing, or of its context. -/
theorem cellAt_other (h : Near s t) {c : Nat} (hc : c ≠ s.cell) : t.cellAt c = s.cellAt c := by
  rcases h.cells with h' | h'
  · simp only [State.cellAt, h']
  · have : (s.modCtx fun _ => t.ctx).cellAt c = s.cellAt c := by
      rw [State.modCtx, State.cellAt_modCell, if_neg hc]
    rw [← this]
    simp only [State.cellAt, h']

end Near

/-- Two states with one current firing, whose cell's firings, registers and transitions are the same. -/
structure SameFirings (s t : State) : Prop where
  cell    : t.cell = s.cell
  fid     : t.fid = s.fid
  firings : t.ctx.firings = s.ctx.firings
  regs    : t.ctx.regs = s.ctx.regs
  flags   : t.ctx.fstat = s.ctx.fstat
  net     : t.ctx.net = s.ctx.net
  asid    : t.ctx.asid = s.ctx.asid
  trans   : t.ctx.trans = s.ctx.trans

namespace SameFirings
variable {s t : State}

theorem me (h : SameFirings s t) : t.me = s.me := by simp only [State.me, h.firings, h.fid]
theorem runs (h : SameFirings s t) (hr : s.Runs) : t.Runs := by
  simpa only [State.Runs, State.live, h.firings, h.fid] using hr
theorem heldReg (h : SameFirings s t) {α : Type} (sel : Regs → Tbl α) (d : α) (n : Nat) : t.heldReg sel d n = s.heldReg sel d n := by
  simp only [State.heldReg, h.firings, h.fid, h.regs]
theorem heldG (h : SameFirings s t) (r : Rg) : t.heldG r = s.heldG r := by simp only [State.heldG, h.heldReg]
theorem heldV (h : SameFirings s t) (n : Nat) : t.heldV n = s.heldV n := h.heldReg ..
theorem heldSh (h : SameFirings s t) (n : Nat) : t.heldSh n = s.heldSh n := h.heldReg ..
theorem readReg (h : SameFirings s t) {α : Type} (sel : Regs → Tbl α) (d : α) (n : Nat) : t.readReg sel d n = s.readReg sel d n := by
  simp only [State.readReg, h.me, h.heldReg]
theorem readG (h : SameFirings s t) (r : Rg) : t.readG r = s.readG r := by simp only [State.readG, h.readReg]
theorem readV (h : SameFirings s t) (n : Nat) : t.readV n = s.readV n := h.readReg ..
theorem fstat (h : SameFirings s t) : t.fstat = s.fstat := by simp only [State.fstat, h.me, h.flags]
theorem issuer (h : SameFirings s t) : t.issuer = s.issuer := by
  simp only [State.issuer, State.myTrans, Ctx.tr, h.me, h.cell, h.fid, h.net, h.asid, h.trans]
theorem prio (h : SameFirings s t) : t.prio = s.prio := by simp only [State.prio, State.myTrans, Ctx.tr, h.me, h.trans]
theorem mine (h : SameFirings s t) : t.mine = s.mine := by
  funext l
  simp only [State.mine, h.cell, h.net]
theorem meAtPort (h : SameFirings s t) : t.meAtPort = s.meAtPort := by simp only [State.meAtPort, h.cell, h.net, h.fid]
end SameFirings

namespace Quiet
variable {s t r : State}

theorem refl (s : State) : Quiet s s := ⟨.refl s, rfl⟩

theorem trans (h : Quiet s t) (h' : Quiet t r) : Quiet s r := by
  refine ⟨h.near.trans h'.near, ?_⟩
  have hc := h'.ctx
  rw [h.ctx] at hc
  exact hc

theorem of_parts (h : t = { s with owners := t.owners, free := t.free, wlog := t.wlog, sectors := t.sectors, mem := t.mem
                                   banks := t.banks, stores := t.stores, due := t.due, dies := t.dies }) : Quiet s t := by
  have hc : t.ctx = s.ctx := ctx_of_cells (congrArg State.cells h :) (congrArg State.cell h :)
  exact ⟨.of_parts h, by rw [hc]; rfl⟩

theorem modCtx (s : State) {f : Ctx → Ctx}
    (hf : ∀ c, f c = sees c (f c)) :
    Quiet s (s.modCtx f) :=
  ⟨.modCtx s f, by rw [State.ctx_modCtx]; exact hf s.ctx⟩

/-- The current firing, the registers and the issuer are the same. -/
theorem same (h : Quiet s t) : SameFirings s t :=
  ⟨h.near.cell, h.near.fid, (congrArg Ctx.firings h.ctx :), (congrArg Ctx.regs h.ctx :), (congrArg Ctx.fstat h.ctx :),
    (congrArg Ctx.net h.ctx :), (congrArg Ctx.asid h.ctx :), (congrArg Ctx.trans h.ctx :)⟩
theorem wave (h : Quiet s t) : t.ctx.wave = s.ctx.wave := (congrArg Ctx.wave h.ctx :)
theorem asRel (h : Quiet s t) : t.ctx.asRel = s.ctx.asRel := (congrArg Ctx.asRel h.ctx :)

end Quiet

/-! ### What the cell has read and learnt never falls (R286, R290) -/

/-- A context knows and has read at least what another does. -/
structure Grows (c d : Ctx) : Prop where
  floor : c.floor ≤ d.floor
  seen  : ∀ u, Tbl.get 0 c.seen u ≤ Tbl.get 0 d.seen u
  know  : ∀ u, Tbl.get 0 c.know u ≤ Tbl.get 0 d.know u

namespace Grows
variable {c d e : Ctx}

theorem refl (c : Ctx) : Grows c c := ⟨Nat.le_refl _, fun _ => Nat.le_refl _, fun _ => Nat.le_refl _⟩
theorem trans (h : Grows c d) (h' : Grows d e) : Grows c e :=
  ⟨h.floor.trans h'.floor, fun u => (h.seen u).trans (h'.seen u), fun u => (h.know u).trans (h'.know u)⟩
theorem of_eq (h : d = c) : Grows c d := h ▸ refl c

theorem saw (c : Ctx) (us : List Nat) (v : Nat) : Grows c (c.saw us v) :=
  ⟨Nat.le_refl _, fun u => by rw [get_saw]; split <;> omega, fun _ => Nat.le_refl _⟩
theorem wrote (c : Ctx) (us : List Nat) (v : Nat) : Grows c (c.wrote us v) :=
  ⟨Nat.le_refl _, (saw c us v).seen, fun u => by rw [get_wrote]; split <;> omega⟩
theorem learn (c : Ctx) (ls : List Link) : Grows c (ls.foldl Ctx.learn c) := by
  obtain ⟨k, f, h, hf, hk⟩ := learn_eq ls c
  rw [h]
  exact ⟨hf, fun _ => Nat.le_refl _, hk⟩
theorem merge (c : Ctx) (t : Tbl Nat) : Grows c { c with know := mergeKnow c.know t } :=
  ⟨Nat.le_refl _, fun _ => Nat.le_refl _, get_mergeKnow c.know t⟩
theorem modCtx {s : State} {f : Ctx → Ctx} (h : Grows s.ctx (f s.ctx)) : Grows s.ctx (s.modCtx f).ctx := by
  rwa [State.ctx_modCtx]
end Grows

theorem sees_learn (ls : List Link) (c : Ctx) : ls.foldl Ctx.learn c = sees c (ls.foldl Ctx.learn c) := by
  obtain ⟨k, f, h, -, -⟩ := learn_eq ls c
  rw [h]
  rfl

/-! ### Reads and acquires -/

section
variable (s : State)

theorem quiet_observe (scope : Nat) (ls : List Link) : Quiet s (s.observe scope ls) := .modCtx s fun c => sees_learn _ c
theorem grows_observe (scope : Nat) (ls : List Link) : Grows s.ctx (s.observe scope ls).ctx := .modCtx (.learn s.ctx _)
theorem quiet_meetShown (scope : Nat) : Quiet s (s.meetShown scope) := .modCtx s fun _ => rfl
theorem grows_meetShown (scope : Nat) : Grows s.ctx (s.meetShown scope).ctx := .modCtx (.merge s.ctx _)
theorem quiet_meetFenced (scope : Nat) : Quiet s (s.meetFenced scope) := .modCtx s fun _ => rfl
theorem grows_meetFenced (scope : Nat) : Grows s.ctx (s.meetFenced scope).ctx := .modCtx (.merge s.ctx _)

/-- A read that has been shown to others, before what it acquires. -/
def shownRead (us : List Nat) (v : Nat) : State := (s.modCtx fun c => c.saw us v).showReads us v
/-- The same with the links that it has found. -/
def foundRead (us : List Nat) (v : Nat) : State :=
  (shownRead s us v).modCtx fun c => { c with
    found := c.found ++ ((us.flatMap fun u => (shownRead s us v).linksAt us v u).eraseDups).filter fun l => !c.found.contains l }

theorem readAs_eq (us : List Nat) (v : Nat) (acq : Option Nat) :
    s.readAs us v acq = match acq with
      | none => foundRead s us v
      | some k => ((foundRead s us v).observe k ((us.flatMap fun u => (shownRead s us v).linksAt us v u).eraseDups)).meetShown k := by
  cases acq <;> rfl

theorem ctx_shownRead (us : List Nat) (v : Nat) : (shownRead s us v).ctx = s.ctx.saw us v :=
  State.ctx_modCtx s fun c => c.saw us v

theorem quiet_foundRead (us : List Nat) (v : Nat) : Quiet s (foundRead s us v) := by
  have h1 : Quiet s (s.modCtx fun c => c.saw us v) := .modCtx s fun _ => rfl
  have h2 : Quiet (s.modCtx fun c => c.saw us v) (shownRead s us v) := .of_parts rfl
  exact (h1.trans h2).trans (.modCtx _ fun _ => rfl)

theorem grows_foundRead (us : List Nat) (v : Nat) : Grows s.ctx (foundRead s us v).ctx := by
  rw [foundRead, State.ctx_modCtx, ctx_shownRead]
  exact ⟨(Grows.saw s.ctx us v).floor, (Grows.saw s.ctx us v).seen, (Grows.saw s.ctx us v).know⟩

theorem quiet_readAs (us : List Nat) (v : Nat) (acq : Option Nat) : Quiet s (s.readAs us v acq) := by
  rw [readAs_eq]
  cases acq with
  | none => exact quiet_foundRead s us v
  | some k => exact ((quiet_foundRead s us v).trans (quiet_observe _ k _)).trans (quiet_meetShown _ k)

theorem grows_readAs (us : List Nat) (v : Nat) (acq : Option Nat) : Grows s.ctx (s.readAs us v acq).ctx := by
  rw [readAs_eq]
  cases acq with
  | none => exact grows_foundRead s us v
  | some k => exact ((grows_foundRead s us v).trans (grows_observe _ k _)).trans (grows_meetShown _ k)

/-- A read changes the running context and the log of writes. -/
theorem readAs_frame (us : List Nat) (v : Nat) (acq : Option Nat) :
    s.readAs us v acq = { s with cells := (s.readAs us v acq).cells, wlog := (s.readAs us v acq).wlog } := by
  rw [readAs_eq]
  cases acq <;> rfl

theorem quiet_wroteNow (us : List Nat) (atom : Bool) (rel : Option Link) : Quiet s (s.wroteNow us atom rel) := by
  have h1 : Quiet s (s.modCtx fun c => c.wrote us s.version) := .modCtx s fun _ => rfl
  exact h1.trans (.of_parts rfl)

/-! ### Accepted stores performed (R285 to R287) -/

theorem modView_current (f : Ctx → Ctx) : s.modView s.cell s.ctx.net f = s.modCtx f := by
  simp only [State.modView]
  rw [if_pos (show (s.cellAt s.cell).run.net = s.ctx.net from rfl)]
  rfl

theorem mine_iff (l : Late) : s.mine l = true ↔ l.iss.cell = s.cell ∧ l.iss.net = s.ctx.net := by
  simp [State.mine]

/-- The home of a store once it is performed there. -/
def storedAt (l : Late) : State :=
  if l.virt then { s with mem := State.storePieces s.mem l.bytes l.parts } else { s with banks := Mem.store s.banks l.addr l.bytes }

theorem quiet_storedAt (l : Late) : Quiet s (storedAt s l) := by
  unfold storedAt
  split <;> exact .of_parts rfl

theorem ctx_logWrites (us : List Nat) (w : Written) : (s.logWrites us w).ctx = s.ctx := rfl

theorem ctx_storedAt (l : Late) : (storedAt s l).ctx = s.ctx := by
  unfold storedAt
  split <;> rfl

/-- A store of the current cell that meets no poison. -/
theorem performOne_sound {l : Late} (hm : s.mine l = true) (hp : l.virt = true → s.storePoison l.parts = none) :
    s.performOne l = ((storedAt s l).modCtx fun c => c.wrote l.units (storedAt s l).version).logWrites l.units
      { ver := (storedAt s l).version, cell := l.iss.cell, rel := l.rel } := by
  obtain ⟨hc, hn⟩ := (mine_iff s l).1 hm
  have hq := quiet_storedAt s l
  have hx : (if l.virt = true then s.storePoison l.parts else none) = none := by split <;> simp_all
  unfold State.performOne
  rw [hx]
  show ((storedAt s l).modView l.iss.cell l.iss.net _).logWrites _ _ = _
  have hv (f : Ctx → Ctx) : (storedAt s l).modView s.cell s.ctx.net f = (storedAt s l).modCtx f := by
    rw [← hq.near.cell, ← hq.same.net, modView_current]
  rw [hc, hn, hv]
  rfl

/-- A store that meets poison changes no byte, and leaves its record at its sector's port. -/
theorem performOne_poisoned {l : Late} {dpa : Nat} (hv : l.virt = true) (hp : s.storePoison l.parts = some dpa) :
    ∃ h fl, s.performOne l = { s.portNote (cellSector l.iss.cell) l.iss.asid h with due := s.due ++ [fl] } := by
  unfold State.performOne
  rw [if_pos hv, hp]
  exact ⟨_, _, rfl⟩

/-- A copy port has neither frozen nor resumed, and withholds what it did. -/
def PortsKeep (s t : State) : Prop :=
  ∀ k, (t.sectorAt k).port.f.frozen = (s.sectorAt k).port.f.frozen ∧ (t.sectorAt k).port.waits = (s.sectorAt k).port.waits

theorem PortsKeep.of_sectors {s t : State} (h : t.sectors = s.sectors) : PortsKeep s t := fun k => by
  simp only [State.sectorAt, h, and_self]
theorem PortsKeep.trans {s t r : State} (h : PortsKeep s t) (h' : PortsKeep t r) : PortsKeep s r := fun k =>
  ⟨(h' k).1.trans (h k).1, (h' k).2.trans (h k).2⟩

theorem portsKeep_portNote (k asid : Nat) (h : Hit) : PortsKeep s (s.portNote k asid h) := fun j => by
  rw [State.portNote, State.sectorAt_modSector]
  split
  · rename_i hj
    subst hj
    exact ⟨rfl, rfl⟩
  · exact ⟨rfl, rfl⟩

/-- What performing a store of the current cell does. -/
structure Performs (s t : State) : Prop where
  quiet : Quiet s t
  grows : Grows s.ctx t.ctx
  ports : PortsKeep s t
  owners : t.owners = s.owners
  free  : t.free = s.free
  dies  : t.dies = s.dies

theorem Performs.refl : Performs s s := ⟨.refl s, .refl _, .of_sectors rfl, rfl, rfl, rfl⟩
theorem Performs.trans {s t r : State} (h : Performs s t) (h' : Performs t r) : Performs s r :=
  ⟨h.quiet.trans h'.quiet, h.grows.trans h'.grows, h.ports.trans h'.ports, h'.owners.trans h.owners, h'.free.trans h.free,
    h'.dies.trans h.dies⟩

theorem performs_performOne {l : Late} (hm : s.mine l = true) : Performs s (s.performOne l) := by
  by_cases hp : l.virt = true → s.storePoison l.parts = none
  case pos =>
    rw [performOne_sound s hm hp]
    have hq := quiet_storedAt s l
    refine ⟨(hq.trans (.modCtx _ fun _ => rfl)).trans (.of_parts rfl), ?_, ?_, ?_, ?_, ?_⟩
    · rw [ctx_logWrites, State.ctx_modCtx, ctx_storedAt]
      exact .wrote _ _ _
    · exact .of_sectors (by unfold storedAt State.logWrites; split <;> rfl)
    all_goals unfold storedAt State.logWrites; split <;> rfl
  case neg =>
    obtain ⟨hv, hp⟩ := Classical.not_imp.1 hp
    obtain ⟨dpa, hd⟩ := Option.ne_none_iff_exists'.1 hp
    obtain ⟨h, fl, he⟩ := performOne_poisoned s hv hd
    rw [he]
    exact ⟨.of_parts rfl, .refl _, portsKeep_portNote s _ _ h, rfl, rfl, rfl⟩

theorem performs_foldl (ls : List Late) (hm : ∀ l ∈ ls, s.mine l = true) : Performs s (ls.foldl State.performOne s) := by
  induction ls generalizing s with
  | nil => exact .refl s
  | cons l ls ih =>
    have h := performs_performOne s (hm l List.mem_cons_self)
    exact h.trans (ih _ fun x hx => by rw [h.quiet.same.mine]; exact hm x (List.mem_cons_of_mem _ hx))

theorem performs_performAll (p : Late → Bool) (hm : ∀ l ∈ s.stores, p l = true → s.mine l = true) :
    Performs s (s.performAll p) := by
  have h0 : Performs s { s with stores := s.stores.filter fun l => !p l } :=
    ⟨.of_parts rfl, .refl _, .of_sectors rfl, rfl, rfl, rfl⟩
  exact h0.trans (performs_foldl _ _ fun l hl => hm l (List.mem_filter.1 hl).1 (List.mem_filter.1 hl).2)

theorem performs_flush : Performs s s.flush := performs_performAll s _ fun _ _ h => h

theorem mem_of_owed {acc : List (Bool × Nat × Nat)} {ls : List Late} {l : Late} (h : l ∈ owed acc ls) : l ∈ ls := by
  induction ls generalizing acc with
  | nil => exact h
  | cons x ls ih =>
    rw [owed] at h
    split at h
    · split at h
      · exact h
      · rcases List.mem_cons.1 h with rfl | h
        · exact List.mem_cons_self
        · exact List.mem_cons_of_mem _ (ih h)
    · exact List.mem_cons_of_mem _ (ih h)

/-- The stores that are performed before an access that meets them are the current cell's. -/
theorem performs_settleAt (virt : Bool) (a n : Nat) : Performs s (s.settleAt virt a n) :=
  performs_performAll s _ fun l _ h => by
    have := mem_of_owed (List.contains_iff_mem.1 h)
    exact (List.mem_filter.1 (List.mem_reverse.1 this)).2

theorem performs_atCell : Performs s s.atCell := by
  have h : Performs s (s.performAll fun l => s.mine l && !l.virt && l.addr / 2 ^ 16 == s.cell * 2 ^ 16) :=
    performs_performAll s _ fun l _ h => by
      simp only [Bool.and_eq_true] at h
      exact h.1.1
  exact h.trans ⟨.of_parts rfl, .refl _, .of_sectors rfl, rfl, rfl, rfl⟩

theorem performs_observe (scope : Nat) (ls : List Link) : Performs s (s.observe scope ls) :=
  ⟨quiet_observe s scope ls, grows_observe s scope ls, .of_sectors rfl, rfl, rfl, rfl⟩
theorem performs_meetShown (scope : Nat) : Performs s (s.meetShown scope) :=
  ⟨quiet_meetShown s scope, grows_meetShown s scope, .of_sectors rfl, rfl, rfl, rfl⟩

/-- The accepted stores that an instruction has performed before it takes effect (R172, R287). -/
def performedFor (i : Instr) : State :=
  let s := if i.wave.isSome && i.accesses then s.atCell else s
  if i.releases || (s.relScopeOf i).isSome then s.flush else s

theorem order_of_onChain {i : Instr} (h : s.offChain i = false) : s.order i = match i.acqScope with
    | some k => ((performedFor s i).observe k (performedFor s i).me.sync).meetShown k
    | none => performedFor s i := by
  unfold State.order
  rw [h]
  rfl

theorem performs_performedFor (i : Instr) : Performs s (performedFor s i) := by
  have h1 (t : State) : Performs t (if i.wave.isSome && i.accesses then t.atCell else t) := by
    split
    · exact performs_atCell t
    · exact .refl t
  have h2 (t : State) (b : Bool) : Performs t (if b then t.flush else t) := by
    split
    · exact performs_flush t
    · exact .refl t
  exact (h1 s).trans (h2 _ _)

theorem performs_order (i : Instr) : Performs s (s.order i) := by
  cases h : s.offChain i with
  | true =>
    rw [State.order, h]
    exact .refl s
  | false =>
    rw [order_of_onChain s h]
    cases i.acqScope with
    | none => exact performs_performedFor s i
    | some k => exact ((performs_performedFor s i).trans (performs_observe _ k _)).trans (performs_meetShown _ k)

end

/-! ### Translation changes TLBs, cached entries and free values only (R104, R108) -/

/-- Owners have filled or dropped cached entries, and free values are taken. -/
structure Translates (s t : State) : Prop where
  frame  : t = { s with owners := t.owners, free := t.free }
  poison : ∀ o, (t.ownerAt o).poison = (s.ownerAt o).poison

namespace Translates
variable {s t r : State}

theorem refl (s : State) : Translates s s := ⟨rfl, fun _ => rfl⟩
theorem trans (h : Translates s t) (h' : Translates t r) : Translates s r := by
  refine ⟨?_, fun o => (h'.poison o).trans (h.poison o)⟩
  have hf := h'.frame
  rw [h.frame] at hf
  exact hf
theorem modOwner (s : State) (o : Nat) {f : Owner → Owner} (hf : ∀ x, (f x).poison = x.poison) : Translates s (s.modOwner o f) := by
  refine ⟨rfl, fun j => ?_⟩
  rw [State.ownerAt_modOwner]
  split
  · rename_i hj
    rw [hf, hj]
  · rfl
theorem takeFree (s : State) : Translates s s.takeFree.2 := ⟨rfl, fun _ => rfl⟩

theorem quiet (h : Translates s t) : Quiet s t := by
  refine .of_parts ?_
  have hf := h.frame
  rw [hf]
theorem mem (h : Translates s t) : t.mem = s.mem := (congrArg State.mem h.frame :)
theorem banks (h : Translates s t) : t.banks = s.banks := (congrArg State.banks h.frame :)
theorem stores (h : Translates s t) : t.stores = s.stores := (congrArg State.stores h.frame :)
theorem sectors (h : Translates s t) : t.sectors = s.sectors := (congrArg State.sectors h.frame :)
theorem due (h : Translates s t) : t.due = s.due := (congrArg State.due h.frame :)
theorem dies (h : Translates s t) : t.dies = s.dies := (congrArg State.dies h.frame :)
theorem wlog (h : Translates s t) : t.wlog = s.wlog := (congrArg State.wlog h.frame :)
theorem cells (h : Translates s t) : t.cells = s.cells := (congrArg State.cells h.frame :)
theorem ctx (h : Translates s t) : t.ctx = s.ctx := ctx_of_cells h.cells h.quiet.near.cell
theorem poisoned (h : Translates s t) (dpa : Nat) : t.poisoned dpa = s.poisoned dpa := by
  simp only [State.poisoned, h.poison]
end Translates

theorem translates_translate (s : State) (asid va : Nat) (write : Bool) : Translates s (s.translate asid va write).1 := by
  have fill (t : State) (o : Nat) (l : List TlbEntry) : Translates t (t.modOwner o fun x => { x with tlb := l }) :=
    .modOwner t o fun _ => rfl
  unfold State.translate
  split
  · exact .refl s
  · dsimp only
    split
    · exact fill s _ _
    · exact .refl s
    · split
      · exact .refl s
      · split
        · exact .takeFree s
        · exact (Translates.takeFree s).trans (fill _ _ _)
    · split
      · exact .refl s
      · split
        · exact .takeFree s
        · exact (Translates.takeFree s).trans (fill _ _ _)

theorem translates_locate (s : State) (iss : Issuer) (va : Nat) (write : Bool) : Translates s (s.locate iss va write).1 := by
  unfold State.locate
  dsimp only
  split
  · exact .refl s
  · split
    · exact .refl s
    · split
      · exact .refl s
      · have h := translates_translate s iss.asid va write
        split <;> (rename_i heq; rw [heq] at h; exact h)

theorem translates_piece (s : State) (iss : Issuer) (va : Nat) (write : Bool) : Translates s (s.piece iss va write).1 := by
  have h := translates_locate s iss va write
  unfold State.piece
  split <;> (rename_i heq; rw [heq] at h; exact h)

theorem translates_pieces (s : State) (iss : Issuer) (va n : Nat) (write : Bool) (fuel : Nat) :
    Translates s (s.pieces iss va n write fuel).1 := by
  induction fuel generalizing s va n with
  | zero => exact .refl s
  | succ fuel ih =>
    rw [State.pieces]
    split
    · exact .refl s
    · dsimp only
      have h := translates_piece s iss va write
      split
      · rename_i heq
        rw [heq] at h
        exact h
      · rename_i t dpa cc heq
        rw [heq] at h
        have h' := ih t ((va + min n (4096 - va % 4096)) % 2 ^ 64) (n - min n (4096 - va % 4096))
        split <;> (rename_i heq'; rw [heq'] at h'; exact h.trans h')

/-- A piece that stands has no poisoned frame (R397). -/
theorem piece_sound {s t : State} {iss : Issuer} {va dpa : Nat} {write cc : Bool} (h : s.piece iss va write = (t, .ok (dpa, cc))) :
    t.poisoned dpa = false := by
  unfold State.piece at h
  split at h
  · cases h
  · rename_i heq
    split at h
    · cases h
    · rename_i hp
      cases h
      simpa using hp

section
variable {s t : State} {iss : Issuer} {va n fuel : Nat} {write : Bool} {ps : List (Nat × Nat × Bool)}

theorem pieces_translates (h : s.pieces iss va n write fuel = (t, .ok ps)) : Translates s t := by
  have := translates_pieces s iss va n write fuel
  rwa [h] at this

/-- The pieces of a virtual access: the first one, and those of the rest. -/
theorem pieces_cons (h : s.pieces iss va n write (fuel + 1) = (t, .ok ps)) (hn : n ≠ 0) :
    ∃ u dpa cc qs, s.piece iss va write = (u, .ok (dpa, cc)) ∧ ps = (dpa, min n (4096 - va % 4096), cc) :: qs
      ∧ u.pieces iss ((va + min n (4096 - va % 4096)) % 2 ^ 64) (n - min n (4096 - va % 4096)) write fuel = (t, .ok qs) := by
  rw [State.pieces, if_neg hn] at h
  dsimp only at h
  split at h
  · cases h
  · rename_i heq
    split at h
    · cases h
    · rename_i heq'
      cases h
      exact ⟨_, _, _, _, heq, rfl, heq'⟩

theorem pieces_sound (h : s.pieces iss va n write fuel = (t, .ok ps)) : ∀ p ∈ ps, t.poisoned p.1 = false := by
  induction fuel generalizing s va n ps with
  | zero => cases h; simp
  | succ fuel ih =>
    by_cases hn : n = 0
    · rw [State.pieces, if_pos hn] at h
      cases h
      simp
    · obtain ⟨u, dpa, cc, qs, h1, rfl, h2⟩ := pieces_cons h hn
      intro p hp
      rcases List.mem_cons.1 hp with rfl | hp
      · rw [(pieces_translates h2).poisoned]
        exact piece_sound h1
      · exact ih h2 p hp

/-- A store whose pages all translate meets no poison. -/
theorem storePoison_of_pieces (h : s.pieces iss va n write fuel = (t, .ok ps)) : t.storePoison ps = none :=
  List.findSome?_eq_none_iff.2 fun p hp => by rw [pieces_sound h p hp]; rfl

/-- The pieces hold as many bytes as the access. -/
theorem pieces_length (h : s.pieces iss va n write fuel = (t, .ok ps)) (hf : n ≠ 0 → va % 4096 + n ≤ 4096 * fuel) :
    (ps.map fun p => p.2.1).sum = n := by
  induction fuel generalizing s va n ps with
  | zero =>
    cases h
    show 0 = n
    by_contra hn
    have := hf (Ne.symm hn)
    omega
  | succ fuel ih =>
    by_cases hn : n = 0
    · rw [State.pieces, if_pos hn] at h
      cases h
      exact hn.symm
    · obtain ⟨u, dpa, cc, qs, -, rfl, h2⟩ := pieces_cons h hn
      have hm := Nat.mod_mod_of_dvd (va + min n (4096 - va % 4096)) (show 4096 ∣ 2 ^ 64 by decide)
      have hf := hf hn
      rcases Nat.le_total n (4096 - va % 4096) with hl | hl
      · rw [Nat.min_eq_left hl] at h2 ⊢
        rw [List.map_cons, List.sum_cons, ih h2 (by omega)]
        exact Nat.add_sub_of_le (Nat.le_refl n)
      · rw [Nat.min_eq_right hl] at h2 hm ⊢
        rw [List.map_cons, List.sum_cons, ih h2 (by rw [hm]; omega)]
        exact Nat.add_sub_of_le hl

theorem pieces_length_fuel (h : s.pieces iss va n write (State.pieceFuel n) = (t, .ok ps)) : (ps.map fun p => p.2.1).sum = n :=
  pieces_length h fun _ => by unfold State.pieceFuel; omega
end

/-! ### Handles (R108, R110) -/

theorem translates_htRead (s : State) (die ix : Nat) : Translates s (s.htRead die ix).1 := by
  have cache (t : State) (e : BitVec 256) : Translates t (t.htCache die ix e) := by
    unfold State.htCache
    dsimp only
    split
    · exact .modOwner t die fun _ => rfl
    · exact (Translates.takeFree t).trans (.modOwner _ die fun _ => rfl)
  unfold State.htRead
  dsimp only
  split
  · exact cache s _
  · split
    · exact .refl s
    · split
      · exact .takeFree s
      · exact (Translates.takeFree s).trans (cache _ _)

/-! ### What is read (R175, R286, R287) -/

section
variable {s t : State}

theorem version_congr (hp : t.past = s.past) (hb : t.banks = s.banks) (hm : t.mem = s.mem) : t.version = s.version := by
  simp only [State.version, hp, hb, hm]
theorem asOf_congr (hp : t.past = s.past) (hb : t.banks = s.banks) (hm : t.mem = s.mem) (v : Nat) : t.asOf v = s.asOf v := by
  simp only [State.asOf, version_congr hp hb hm, hp, hb, hm]
theorem seeOwn_congr (hs : t.stores = s.stores) (hm : t.mine = s.mine) (virt : Bool) (a : Nat) (bs : List Byte) :
    t.seeOwn virt a bs = s.seeOwn virt a bs := by
  simp only [State.seeOwn, hs, hm]
theorem pends_congr (hs : t.stores = s.stores) (hm : t.mine = s.mine) (virt : Bool) (a n : Nat) : t.pends virt a n = s.pends virt a n := by
  simp only [State.pends, hs, hm]

/-- Two states in which a load finds the same. -/
structure ReadsAlike (s t : State) : Prop where
  past   : t.past = s.past
  banks  : t.banks = s.banks
  mem    : t.mem = s.mem
  stores : t.stores = s.stores
  mine   : t.mine = s.mine
  late   : t.late = s.late
  grows  : Grows s.ctx t.ctx

theorem ReadsAlike.trans {r : State} (h : ReadsAlike s t) (h' : ReadsAlike t r) : ReadsAlike s r :=
  ⟨h'.past.trans h.past, h'.banks.trans h.banks, h'.mem.trans h.mem, h'.stores.trans h.stores, h'.mine.trans h.mine,
    h'.late.trans h.late, h.grows.trans h'.grows⟩

theorem Translates.readsAlike (h : Translates s t) : ReadsAlike s t :=
  ⟨h.quiet.near.past, h.banks, h.mem, h.stores, h.quiet.same.mine, h.quiet.near.late, .of_eq h.ctx⟩

theorem readsAlike_readAs (s : State) (us : List Nat) (v : Nat) (acq : Option Nat) : ReadsAlike s (s.readAs us v acq) := by
  have h := readAs_frame s us v acq
  exact ⟨(congrArg State.past h :), (congrArg State.banks h :), (congrArg State.mem h :), (congrArg State.stores h :),
    (quiet_readAs s us v acq).same.mine, (congrArg State.late h :), grows_readAs s us v acq⟩

theorem ReadsAlike.virtBytes (h : ReadsAlike s t) (a v : Nat) (ps : List (Nat × Nat × Bool)) : virtBytes t a v ps = Claim.virtBytes s a v ps := by
  simp only [Claim.virtBytes, seeOwn_congr h.stores h.mine, asOf_congr h.past h.banks h.mem]

theorem ReadsAlike.mayRead (h : ReadsAlike s t) {us : List Nat} {v : Nat} (hr : MayRead t us v) : MayRead s us v :=
  ⟨h.grows.floor.trans hr.floor, fun u hu => ⟨(h.grows.seen u).trans (hr.seen u hu).1, (h.grows.know u).trans (hr.seen u hu).2⟩,
    fun hl => version_congr h.past h.banks h.mem ▸ hr.strong (h.late.trans hl)⟩

theorem mayRead_of_seenOf (s : State) (us : List Nat) {v : Nat} (h1 : s.ctx.seenOf us ≤ v) (h2 : s.late = 0 → s.version ≤ v) :
    MayRead s us v :=
  ⟨(seenOf_floor s.ctx us).trans h1, fun u hu => ⟨(seenOf_unit s.ctx us u hu).1.trans h1, (seenOf_unit s.ctx us u hu).2.trans h1⟩, h2⟩

/-- A virtual load whose pages all translate reads a version that it may read. -/
theorem loadVirt_ok {a n : Nat} {s1 : State} {ps : List (Nat × Nat × Bool)} (acq : Option Nat)
    (h : s.pieces s.issuer a n false (State.pieceFuel n) = (s1, .ok ps)) :
    ∃ v, s.loadVirt a n acq = (s1.readAs (memUnits ps) v acq, .ok (virtBytes s a v ps)) ∧ MayRead s (memUnits ps) v := by
  have ht := pieces_translates h
  unfold State.loadVirt
  rw [h]
  dsimp only
  refine ⟨_, Prod.ext rfl (congrArg Except.ok (ht.readsAlike.virtBytes ..)), ht.readsAlike.mayRead ?_⟩
  split
  · exact mayRead_of_seenOf _ _ (Nat.le_max_left _ _) fun _ => Nat.le_max_right _ _
  · exact mayRead_of_seenOf _ _ (Nat.le_max_left _ _) fun hl => by
      rw [State.readVersion, hl]
      exact Nat.le_max_right _ _

theorem loadVirt_error {a n : Nat} {s1 : State} {h : Hit} (acq : Option Nat)
    (he : s.pieces s.issuer a n false (State.pieceFuel n) = (s1, .error h)) : s.loadVirt a n acq = (s1, .error h) := by
  unfold State.loadVirt
  rw [he]

theorem length_seeOwn (s : State) (virt : Bool) (a : Nat) (bs : List Byte) : (s.seeOwn virt a bs).length = bs.length := by
  unfold State.seeOwn
  induction s.stores.filter (fun l => s.mine l && l.virt == virt) generalizing bs with
  | nil => rfl
  | cons l ls ih => rw [List.foldl_cons, ih]; simp [Late.onto]

theorem length_virtBytes (s : State) (a v : Nat) (ps : List (Nat × Nat × Bool)) :
    (virtBytes s a v ps).length = (ps.map fun p => p.2.1).sum := by
  rw [virtBytes, length_seeOwn, List.length_flatMap]
  simp only [Mem.load_length]

end

/-! ### The beginning of an instruction of the wave chain (R123) -/

/-- A firing whose instruction has its place on the chain, and that has passed its commit point where `b` says so. -/
def marked (l : Nat) (b : Bool) (f : Firing) : Firing := { f with link := l, commit := b || f.commit }

/-- An instruction with the wave word `w` has begun: it has its place on the chain, `b` says whether it has passed the commit
point, and otherwise only what accesses change has changed. -/
structure Begun (s t : State) (w : Wave) (b : Bool) : Prop where
  near : Near s t
  ctx  : ∃ l n, t.ctx = sees { s.ctx with firings := replace (marked l b) s.fid s.ctx.firings, wave := some (w.own, w.succ)
                                          chain := n } t.ctx

theorem consistent_iff (x : Wave) (w : Option (Byte × Byte)) : waveOk w x = true ↔ Consistent x w := by
  unfold waveOk Consistent
  rcases w with _ | ⟨own, succ⟩ <;> simp
  grind

section
variable {s : State} {w : Wave} (hc : Consistent w s.ctx.wave)
include hc

theorem takeWave_eq : s.takeWave w = some (chained s w) := by
  unfold chained State.takeWave
  rw [if_pos ((consistent_iff w _).2 hc)]
  rfl

theorem onWave_eq (body : State → Res) : s.onWave w body = body (chained s w) := by
  rw [State.onWave, takeWave_eq hc]

theorem chained_eq : chained s w = (s.modCtx fun c => { c with wave := some (w.own, w.succ), chain := c.chain + 1 }).modMe
    (marked (s.ctx.chain + 1) false) := by
  have h : s.takeWave w = some _ := if_pos ((consistent_iff w _).2 hc)
  rw [chained, h]
  rfl

theorem begun_chained : Begun s (chained s w) w false := by
  rw [chained_eq hc]
  refine ⟨(Near.modCtx s _).trans (.modMe _ _), s.ctx.chain + 1, s.ctx.chain + 1, ?_⟩
  rw [State.ctx_modMe, State.ctx_modCtx]
  rfl

/-- The beginning changes what loads find in nothing. -/
theorem readsAlike_chained : ReadsAlike s (chained s w) := by
  rw [chained_eq hc]
  refine ⟨rfl, rfl, rfl, rfl, ?_, rfl, ?_⟩
  · funext l
    simp only [State.mine, State.ctx_modMe, State.ctx_modCtx, State.modMe_cell, State.modCtx_cell]
  · rw [State.ctx_modMe, State.ctx_modCtx]
    exact ⟨Nat.le_refl _, fun _ => Nat.le_refl _, fun _ => Nat.le_refl _⟩

theorem chained_asRel : (chained s w).ctx.asRel = s.ctx.asRel ∧ (chained s w).ctx.know = s.ctx.know
    ∧ (chained s w).ctx.floor = s.ctx.floor := by
  rw [chained_eq hc, State.ctx_modMe, State.ctx_modCtx]
  exact ⟨rfl, rfl, rfl⟩

theorem chained_sectors : (chained s w).sectors = s.sectors := by
  rw [chained_eq hc]
  rfl

end

theorem replace_replace (u v : Firing → Firing) (hu : ∀ x, (u x).id = x.id) (id : Nat) (fs : List Firing) :
    replace v id (replace u id fs) = replace (fun x => v (u x)) id fs := by
  unfold replace
  rw [List.map_map]
  refine List.map_congr_left fun x _ => ?_
  by_cases h : x.id = id <;> simp [h, hu]

theorem readsAlike_commit (s : State) : ReadsAlike s s.commit := by
  refine ⟨rfl, rfl, rfl, rfl, ?_, rfl, ?_⟩
  · funext l
    simp only [State.mine, State.commit, State.ctx_modMe, State.modMe_cell]
  · rw [State.commit, State.ctx_modMe]
    exact ⟨Nat.le_refl _, fun _ => Nat.le_refl _, fun _ => Nat.le_refl _⟩

namespace Begun
variable {s q t : State} {w : Wave} {b : Bool}

theorem quiet (h : Begun s q w b) (h' : Quiet q t) : Begun s t w b := by
  obtain ⟨l, n, hx⟩ := h.ctx
  refine ⟨h.near.trans h'.near, l, n, ?_⟩
  have hc := h'.ctx
  rw [hx] at hc
  exact hc

theorem commit (h : Begun s q w b) : Begun s q.commit w true := by
  obtain ⟨l, n, hx⟩ := h.ctx
  refine ⟨h.near.trans (.modMe q _), l, n, ?_⟩
  have hf : q.ctx.firings = replace (marked l b) s.fid s.ctx.firings := (congrArg Ctx.firings hx :)
  rw [State.commit, State.ctx_modMe, h.near.fid, hf, replace_replace _ _ (by exact fun _ => rfl)]
  rw [hx]
  rfl

/-- The firing, but for its place on the chain, and the registers are as at the beginning. -/
theorem same (h : Begun s q w b) : ∃ l, SameFirings (s.modMe (marked l b)) q := by
  obtain ⟨l, n, hx⟩ := h.ctx
  refine ⟨l, h.near.cell, h.near.fid, ?_, ?_, ?_, ?_, ?_, ?_⟩ <;> rw [State.ctx_modMe]
  · exact (congrArg Ctx.firings hx :)
  · exact (congrArg Ctx.regs hx :)
  · exact (congrArg Ctx.fstat hx :)
  · exact (congrArg Ctx.net hx :)
  · exact (congrArg Ctx.asid hx :)
  · exact (congrArg Ctx.trans hx :)

theorem wave (h : Begun s q w b) : q.ctx.wave = some (w.own, w.succ) := by
  obtain ⟨l, n, hx⟩ := h.ctx
  exact (congrArg Ctx.wave hx :)
theorem net (h : Begun s q w b) : q.ctx.net = s.ctx.net := by
  obtain ⟨l, n, hx⟩ := h.ctx
  exact (congrArg Ctx.net hx :)
theorem asid (h : Begun s q w b) : q.ctx.asid = s.ctx.asid := by
  obtain ⟨l, n, hx⟩ := h.ctx
  exact (congrArg Ctx.asid hx :)
theorem transitions (h : Begun s q w b) : q.ctx.trans = s.ctx.trans := by
  obtain ⟨l, n, hx⟩ := h.ctx
  exact (congrArg Ctx.trans hx :)
theorem mine (h : Begun s q w b) : q.mine = s.mine := by
  funext l
  simp only [State.mine, h.near.cell, h.net]
theorem meAtPort (h : Begun s q w b) : q.meAtPort = s.meAtPort := by
  simp only [State.meAtPort, h.near.cell, h.net, h.near.fid]
theorem sector (h : Begun s q w b) : q.sector = cellSector s.cell := congrArg cellSector h.near.cell
theorem taskOf (h : Begun s q w b) : q.taskOf q.cell q.ctx.net = s.taskOf s.cell s.ctx.net := by
  simp only [State.taskOf, h.near.nets, h.near.cell, h.net]

section
variable (h : Begun s q w b) (hr : s.Runs)
include h hr

theorem runs : q.Runs := by
  obtain ⟨l, hs⟩ := h.same
  exact hs.runs (State.runs_modMe s (marked l b) (fun _ => rfl) (fun _ => rfl) hr)
theorem me : ∃ l, q.me = marked l b s.me := by
  obtain ⟨l, hs⟩ := h.same
  exact ⟨l, hs.me.trans (State.me_modMe s (marked l b) (fun _ => rfl) hr.1)⟩
theorem heldReg {α : Type} (sel : Regs → Tbl α) (d : α) (n : Nat) : q.heldReg sel d n = s.heldReg sel d n := by
  obtain ⟨l, hs⟩ := h.same
  exact (hs.heldReg sel d n).trans (State.heldReg_modMe s (marked l b) sel d (fun _ => rfl) (fun _ => rfl) (fun _ => rfl) hr n)
theorem heldG (r : Rg) : q.heldG r = s.heldG r := by simp only [State.heldG, h.heldReg hr]
theorem heldV (n : Nat) : q.heldV n = s.heldV n := h.heldReg hr ..
theorem heldSh (n : Nat) : q.heldSh n = s.heldSh n := h.heldReg hr ..
theorem readReg {α : Type} (sel : Regs → Tbl α) (d : α) (n : Nat) : q.readReg sel d n = s.readReg sel d n := by
  obtain ⟨l, hm⟩ := h.me hr
  simp only [State.readReg, h.heldReg hr, hm, marked]
theorem readG (r : Rg) : q.readG r = s.readG r := by simp only [State.readG, h.readReg hr]
theorem readV (n : Nat) : q.readV n = s.readV n := h.readReg hr ..
theorem fstat : q.fstat = s.fstat := by
  obtain ⟨l, n, hx⟩ := h.ctx
  obtain ⟨l', hm⟩ := h.me hr
  simp only [State.fstat, hm, show q.ctx.fstat = s.ctx.fstat from (congrArg Ctx.fstat hx :), marked]
theorem myTrans : q.myTrans = s.myTrans := by
  obtain ⟨l, hm⟩ := h.me hr
  simp only [State.myTrans, Ctx.tr, h.transitions, hm, marked]
theorem prio : q.prio = s.prio := by simp only [State.prio, h.myTrans hr]
theorem issuer : q.issuer = s.issuer := by
  obtain ⟨l, hm⟩ := h.me hr
  simp only [State.issuer, h.myTrans hr, h.near.cell, h.near.fid, h.net, h.asid, hm, marked]
theorem at2 (a : Rg) (off : W32) : q.ea a off = Claim.at2 s a off := by
  simp only [State.ea, Claim.at2, h.readG hr, sext32]
end

theorem pathAddr (h : Begun s q w b) (path a : Nat) : q.pathAddr path a = s.pathAddr path a := by
  simp only [State.pathAddr, h.near.cell]
theorem pathHit (h : Begun s q w b) (hr : s.Runs) (path a n : Nat) (write : Bool) : q.pathHit path a n write = s.pathHit path a n write := by
  simp only [State.pathHit, h.pathAddr, h.prio hr]
theorem isTake (h : Begun s q w b) (path a n : Nat) : q.isTake path a n = s.isTake path a n := by
  simp only [State.isTake, h.pathAddr]

/-- All that an instruction that has begun leaves alone, once only its firing has changed. -/
theorem frame (h : Begun s q w b) (ho : q.OnlyMe t) :
    t = { (s.modMe fun _ => t.me).modCtx (fun c => { c with wave := t.ctx.wave, chain := t.ctx.chain, seen := t.ctx.seen,
                                                            know := t.ctx.know, floor := t.ctx.floor, found := t.ctx.found }) with
          owners := t.owners, free := t.free, wlog := t.wlog, sectors := t.sectors, mem := t.mem, banks := t.banks
          stores := t.stores, due := t.due, dies := t.dies } := by
  obtain ⟨l, n, hx⟩ := h.ctx
  have hn : Near s t := h.near.trans (ho ▸ .modMe q _)
  have hq : t.ctx = { q.ctx with firings := replace (fun _ => t.me) q.fid q.ctx.firings } :=
    (congrArg State.ctx ho).trans (State.ctx_modMe q _)
  have hf : q.ctx.firings = replace (marked l b) s.fid s.ctx.firings := (congrArg Ctx.firings hx :)
  have hcells : t.cells = (s.modCtx fun _ => t.ctx).cells := by
    have := congrArg State.cells ho
    rw [this, hq, modMe_eq_modCtx]
    exact h.near.cells_modCtx _
  rw [h.near.fid, hf, replace_replace _ _ (by exact fun _ => rfl), hx] at hq
  have hctx : t.ctx = { s.ctx with firings := replace (fun _ => t.me) s.fid s.ctx.firings, wave := t.ctx.wave, chain := t.ctx.chain
                                   seen := t.ctx.seen, know := t.ctx.know, floor := t.ctx.floor, found := t.ctx.found } := by
    rw [hq]
    rfl
  refine hn.frame.trans ?_
  rw [hcells, modMe_eq_modCtx, modCtx_modCtx]
  rw [show (s.modCtx fun _ => t.ctx).cells = (s.modCtx fun c => { c with
    firings := replace (fun _ => t.me) s.fid c.firings, wave := t.ctx.wave, chain := t.ctx.chain
    seen := t.ctx.seen, know := t.ctx.know, floor := t.ctx.floor, found := t.ctx.found }).cells from
      congrArg (fun x => Tbl.put s.cells s.cell { s.cellAt s.cell with run := x }) hctx]
  rfl

end Begun

/-! ### The end of an instruction (R41) -/

theorem wrote_scalar (s : State) (hr : s.Runs) (d : Rg) (x : W64) (c : BitVec 2) (sb : Bool) (n : Nat) :
    Wrote s (((s.writeG d x).choose sb c).advance n) d x (if sb then some c else none) n := by
  obtain ⟨t, ht, h⟩ := scalar_wrote d x c sb n s hr
  cases ht
  exact h

theorem ctx_of_onlyMe {s t : State} (h : s.OnlyMe t) : t.ctx = { s.ctx with firings := replace (fun _ => t.me) s.fid s.ctx.firings } :=
  (congrArg State.ctx h).trans (State.ctx_modMe s _)

namespace Begun
variable {s q : State} {w : Wave} {b : Bool}

/-- A load into a general register ends. -/
theorem loadEnds (h : Begun s q w b) (hr : s.Runs) (d : Rg) (x : W64) (c : BitVec 2) (sb : Bool) :
    LoadEnds s (((q.writeG d x).choose sb c).advance 3) d x (if sb then some c else none) w := by
  have hw := wrote_scalar q (h.runs hr) d x c sb 3
  obtain ⟨l, hm⟩ := h.me hr
  have hk := hw.kept.1
  have hheld := congrArg Firing.held hk
  have hbuf := congrArg Firing.inbuf hk
  refine ⟨hw.dest, fun r hne => (hw.others r hne).trans (h.heldG hr r), fun k => (hw.lanes k).trans (h.heldV hr k),
    fun k => (hw.sels k).trans (h.heldSh hr k), hw.choice.trans (by rw [hm]; rfl), ⟨hw.place.1.trans (by rw [hm]; rfl), hw.place.2⟩,
    ?_, hw.kept.2.trans (h.fstat hr), ?_, ?_⟩
  · rw [ctx_of_onlyMe hw.only]
    exact h.wave
  · exact hheld.trans (by rw [hm]; rfl)
  · exact hbuf.trans (by rw [hm]; rfl)

theorem load_commit (h : Begun s q w true) (hr : s.Runs) (d : Rg) (x : W64) (c : BitVec 2) (sb : Bool) :
    (((q.writeG d x).choose sb c).advance 3).me.commit = true := by
  obtain ⟨l, hm⟩ := h.me hr
  have hk := congrArg Firing.commit (wrote_scalar q (h.runs hr) d x c sb 3).kept.1
  exact hk.trans (by rw [hm]; rfl)

/-- An instruction that writes no register ends. -/
theorem storeEnds (h : Begun s q w b) (hr : s.Runs) : StoreEnds s (q.advance 3) w := by
  obtain ⟨l, hm⟩ := h.me hr
  have hq := h.runs hr
  have hme : (q.advance 3).me = gone 3 q.clock q.me := State.me_modMe q (gone 3 q.clock) (fun _ => rfl) hq.1
  refine ⟨⟨fun r => (State.readG_advance q 3 hq r).trans (h.heldG hr r), fun k => (State.readV_advance q 3 hq k).trans (h.heldV hr k),
    fun k => (State.readSh_advance q 3 hq k).trans (h.heldSh hr k)⟩, ?_, ⟨?_, ?_⟩, ?_, ?_, ?_, ?_⟩
  case refine_5 => exact h.fstat hr ▸ State.fstat_modMe q (gone 3 q.clock) (fun _ => rfl) rfl hq
  case refine_4 =>
    rw [State.advance_eq, State.ctx_modMe]
    exact h.wave
  all_goals
    rw [hme, hm]
    rfl

theorem store_commit (h : Begun s q w true) (hr : s.Runs) : (q.advance 3).me.commit = true := by
  obtain ⟨l, hm⟩ := h.me hr
  have hme : (q.advance 3).me = gone 3 q.clock q.me := State.me_modMe q (gone 3 q.clock) (fun _ => rfl) (h.runs hr).1
  rw [hme, hm]
  rfl

end Begun

end Sys2Proof.Laws.MemoryAccess
end

section
/-! SUPPORT. Values of loads, copy ports, and virtual accesses from their beginning to their end. -/
namespace Sys2Proof.Laws.MemoryAccess
open Machine Claim

/-! ### Values (R39, R88, R174, R175) -/

theorem codeSigned_eq (x : W64) : codeSigned x = code false x := by
  unfold codeSigned code
  by_cases h : x = 0
  · rw [if_pos h, if_pos h]
  · rw [if_neg h, if_neg h]
    simp only [BitVec.msb_eq_toInt, decide_eq_true_eq, true_and]

theorem codeUnsigned_eq (x : W64) : codeUnsigned x = code true x := by
  unfold codeUnsigned code
  simp

/-- The model's tables of type codes are those of R174. -/
theorem type_table : ∀ tc : BitVec 4, 1 ≤ tc.toNat → tc.toNat ≤ 7 →
    tcBytes tc = accBytes tc ∧ tySigned tc.toNat = !unsignedType tc ∧ tyWidth tc.toNat = 8 * accBytes tc := by decide

theorem accBytes_mem : ∀ tc : BitVec 4, accBytes tc ∈ [1, 2, 4, 8] := by decide

theorem codeTyped_eq {tc : BitVec 4} (h1 : 1 ≤ tc.toNat) (h7 : tc.toNat ≤ 7) (sb : Bool) (x : W64) :
    (if sb then some (codeTyped tc x) else none) = codeIf sb (unsignedType tc) x := by
  obtain ⟨-, hs, -⟩ := type_table tc h1 h7
  unfold codeTyped codeIf
  rw [hs, codeSigned_eq, codeUnsigned_eq]
  cases unsignedType tc <;> rfl

theorem ofBytes_lt (bs : List Byte) : ofBytes bs < 2 ^ (8 * bs.length) := by
  induction bs with
  | nil => decide
  | cons b bs ih =>
    have hp : 2 ^ (8 * (bs.length + 1)) = 256 * 2 ^ (8 * bs.length) := by rw [Nat.mul_succ, Nat.pow_add, Nat.mul_comm]
    have hb := b.isLt
    rw [ofBytes, List.length_cons, hp]
    omega

/-- A number of 1, 2, 4 or 8 bytes, read as two's complement, is what a register holds of it. -/
theorem toInt_signed {n v : Nat} (hn : n ∈ [1, 2, 4, 8]) (hv : v < 2 ^ (8 * n)) :
    (BitVec.ofInt 64 (toSigned (8 * n) v)).toInt = signedN n v := by
  have hs : toSigned (8 * n) v = signedN n v := by
    unfold toSigned signedN
    rw [Nat.mod_eq_of_lt hv]
    have hp : 2 ^ (8 * n) = 2 * 2 ^ (8 * n - 1) := by
      rw [← Nat.pow_succ']
      congr 1
      simp only [List.mem_cons, List.not_mem_nil, or_false] at hn
      omega
    by_cases h : v < 2 ^ (8 * n - 1)
    · rw [if_pos h, if_pos (by omega)]
    · rw [if_neg h, if_neg (by omega)]
  rw [hs, BitVec.toInt_ofInt]
  unfold signedN
  simp only [List.mem_cons, List.not_mem_nil, or_false] at hn
  rcases hn with rfl | rfl | rfl | rfl <;> split <;> (apply Int.bmod_eq_of_le <;> omega)

theorem signed_types : ∀ tc : BitVec 4, 1 ≤ tc.toNat → tc.toNat ≤ 7 → unsignedType tc = false →
    (tc = 1 ∨ tc = 2 ∨ tc = 3) ∨ tc = 4 := by decide

/-- A signed number is congruent to the bytes that hold it, and lies in its type's range. -/
theorem signedN_wraps {n v : Nat} (hn : n ∈ [1, 2, 4]) (hv : v < 2 ^ (8 * n)) :
    ∃ k : Int, signedN n v = v + k * (2 ^ (8 * n) : Nat) ∧ -(2 ^ (8 * n - 1) : Nat) ≤ signedN n v
      ∧ signedN n v < (2 ^ (8 * n - 1) : Nat) := by
  unfold signedN
  by_cases h : v < 2 ^ (8 * n - 1)
  · rw [if_pos h]
    exact ⟨0, by omega, by omega, by omega⟩
  · rw [if_neg h]
    have hp : 2 ^ (8 * n) = 2 * 2 ^ (8 * n - 1) := by
      rw [← Nat.pow_succ']
      congr 1
      simp only [List.mem_cons, List.not_mem_nil, or_false] at hn
      omega
    exact ⟨-1, by omega, by omega, by omega⟩

theorem toNat_ofInt_signed {v : Nat} (hv : v < 2 ^ 64) : (BitVec.ofInt 64 (toSigned 64 v)).toNat = v := by
  unfold toSigned
  rw [Nat.mod_eq_of_lt hv, BitVec.toNat_ofInt]
  split <;> omega

theorem extended_extend {tc : BitVec 4} (h1 : 1 ≤ tc.toNat) (h7 : tc.toNat ≤ 7) {bs : List Byte} (hl : bs.length = accBytes tc) :
    Extended tc (numberOf bs) (extend tc (ofBytes bs)) := by
  obtain ⟨-, hs, hw⟩ := type_table tc h1 h7
  have hv := ofBytes_lt bs
  rw [hl] at hv
  rw [NodeWork.numberOf_eq]
  unfold Extended extend
  rw [hs, hw]
  have hmem := accBytes_mem tc
  have hint := toInt_signed hmem hv
  by_cases hu : unsignedType tc = true
  · rw [hu]
    have hne : ¬ (tc = 1 ∨ tc = 2 ∨ tc = 3) := by
      rintro (rfl | rfl | rfl) <;> exact absurd hu (by decide)
    rw [if_neg hne]
    have : ofBytes bs < 2 ^ 64 := Nat.lt_of_lt_of_le hv (Nat.pow_le_pow_right (by decide) (by
      simp only [List.mem_cons, List.not_mem_nil, or_false] at hmem; omega))
    simpa using this
  · rw [Bool.not_eq_true] at hu
    rw [hu]
    simp only [Bool.not_false, if_true]
    rcases signed_types tc h1 h7 hu with h3 | rfl
    · rw [if_pos h3, hint]
      have hn : accBytes tc ∈ [1, 2, 4] := by rcases h3 with rfl | rfl | rfl <;> decide
      exact signedN_wraps hn hv
    · rw [if_neg (by decide)]
      exact toNat_ofInt_signed hv

theorem at3_eq (s : State) {tc : BitVec 4} (h1 : 1 ≤ tc.toNat) (h7 : tc.toNat ≤ 7) (a b : Rg) (off : W32) :
    s.eax tc a b off = at3 s (accBytes tc) a b off := by
  unfold State.eax at3 sext32
  rw [(type_table tc h1 h7).1, BitVec.ofNat_mul, BitVec.ofNat_toNat, BitVec.setWidth_eq, BitVec.mul_comm]

theorem toBytes_eq (n v : Nat) : toBytes n v = (List.range n).map fun k => BitVec.ofNat 8 (v / 2 ^ (8 * k)) := by
  induction n generalizing v with
  | zero => rfl
  | succ n ih =>
    rw [toBytes, ih, List.range_succ_eq_map, List.map_cons, List.map_map]
    congr 1
    · simp
    · refine List.map_congr_left fun k _ => ?_
      rw [Function.comp_apply, Nat.div_div_eq_div_mul, Nat.mul_succ, Nat.add_comm (8 * k) 8, Nat.pow_add]

/-! ### Copy ports (R89, R392) -/

/-- Does a context hold a firing that still waits in the access that a port withholds? -/
def stillWaits (c : Ctx) (x : Nat × Nat × Nat) : Bool :=
  c.net == x.2.1 && c.busy.any fun f => f.id == x.2.2 && f.wait.isSome && !f.parked

theorem withheld_eq (s : State) (k : Nat) :
    s.withheld k = (s.sectorAt k).port.waits.filter fun x => stillWaits (s.cellAt x.1).run x := rfl

/-- A change that keeps what a port asks of a firing. -/
theorem stillWaits_replace (u : Firing → Firing)
    (hu : ∀ f, (u f).id = f.id ∧ (u f).wait = f.wait ∧ (u f).parked = f.parked ∧ (u f).ended = f.ended)
    {c d : Ctx} {id : Nat} (hn : d.net = c.net) (hf : d.firings = replace u id c.firings) (x : Nat × Nat × Nat) :
    stillWaits d x = stillWaits c x := by
  have hany (fs : List Firing) : ((replace u id fs).filter fun f => !f.ended).any (fun f => f.id == x.2.2 && f.wait.isSome && !f.parked)
      = (fs.filter fun f => !f.ended).any fun f => f.id == x.2.2 && f.wait.isSome && !f.parked := by
    rw [replace, List.any_filter, List.any_filter, List.any_map]
    congr 1
    funext f
    obtain ⟨h1, h2, h3, h4⟩ := hu f
    rw [Function.comp_apply]
    split
    · rw [h1, h2, h3, h4]
    · rfl
  unfold stillWaits Ctx.busy
  rw [hn, hf, hany]

section
variable {s t : State}

theorem withheld_congr (hp : ∀ k, (t.sectorAt k).port.waits = (s.sectorAt k).port.waits)
    (hw : ∀ c x, stillWaits (t.cellAt c).run x = stillWaits (s.cellAt c).run x) (k : Nat) : t.withheld k = s.withheld k := by
  rw [withheld_eq, withheld_eq, hp]
  simp only [hw]

theorem stillWaits_near (h : Near s t) (ho : ∀ x, stillWaits t.ctx x = stillWaits s.ctx x) (c : Nat) (x : Nat × Nat × Nat) :
    stillWaits (t.cellAt c).run x = stillWaits (s.cellAt c).run x := by
  by_cases hc : c = s.cell
  · subst hc
    have := ho x
    rwa [State.ctx, State.ctx, h.cell] at this
  · rw [h.cellAt_other hc]

theorem portHolds_eq_false : s.portHolds = false ↔ portFree s := by
  unfold State.portHolds portFree State.sector
  rw [Bool.or_eq_false_iff]
  cases (s.withheld (cellSector s.cell)).head? <;> simp

theorem portFree_congr (hc : t.cell = s.cell) (hm : t.meAtPort = s.meAtPort)
    (hf : ∀ k, (t.sectorAt k).port.f.frozen = (s.sectorAt k).port.f.frozen) (hw : ∀ k, t.withheld k = s.withheld k) :
    portFree t ↔ portFree s := by
  simp only [portFree, hc, hm, hf, hw]

theorem withheld_quiet (h : Quiet s t) (hp : PortsKeep s t) (k : Nat) : t.withheld k = s.withheld k :=
  withheld_congr (fun k => (hp k).2) (stillWaits_near h.near fun x => by
    unfold stillWaits Ctx.busy
    rw [h.same.net, h.same.firings]) k

theorem Performs.portFree (h : Performs s t) : portFree t ↔ portFree s :=
  portFree_congr h.quiet.near.cell h.quiet.same.meAtPort (fun k => (h.ports k).1) (withheld_quiet h.quiet h.ports)

namespace Begun
variable {w : Wave} {b : Bool}

theorem withheld (h : Begun s t w b) (hs : t.sectors = s.sectors) (k : Nat) : t.withheld k = s.withheld k := by
  obtain ⟨l, n, hx⟩ := h.ctx
  exact withheld_congr (fun k => by simp only [State.sectorAt, hs]) (stillWaits_near h.near
    (stillWaits_replace (marked l b) (fun _ => ⟨rfl, rfl, rfl, rfl⟩) h.net (congrArg Ctx.firings hx :))) k

theorem portHolds (h : Begun s t w b) (hs : t.sectors = s.sectors) : t.portHolds = false ↔ portFree s :=
  portHolds_eq_false.trans (portFree_congr h.near.cell h.meAtPort (fun k => by simp only [State.sectorAt, hs]) (h.withheld hs))

end Begun

/-! #### What a port withholds -/

/-- Another list of withheld accesses at a sector's port. -/
theorem butWaits_modSector (s : State) (j : Nat) (ws : List (Nat × Nat × Nat)) :
    ButWaits s (s.modSector j fun k => { k with port := { k.port with waits := ws } }) := fun k => by
  rw [State.sectorAt_modSector]
  split
  · rename_i h
    rw [h]
  · rfl

theorem butWaits_of_sectors (h : t.sectors = s.sectors) : ButWaits s t := fun k => by
  rw [show t.sectorAt k = s.sectorAt k by simp only [State.sectorAt, h]]

theorem butWaits_congr {q r : State} (h : ButWaits s t) (hs : s.sectors = q.sectors) (ht : r.sectors = t.sectors) : ButWaits q r := fun k => by
  have := h k
  simpa only [State.sectorAt, hs, ht] using this

theorem leavePort_frame (s : State) : s.leavePort = { s with sectors := s.leavePort.sectors } := by
  unfold State.leavePort
  split <;> rfl

theorem butWaits_leavePort (s : State) : ButWaits s s.leavePort := by
  unfold State.leavePort
  split
  · exact butWaits_of_sectors rfl
  · exact butWaits_modSector s _ _

theorem quiet_leavePort (s : State) : Quiet s s.leavePort := .of_parts (by rw [leavePort_frame])

theorem readsAlike_leavePort (s : State) : ReadsAlike s s.leavePort := by
  have h := leavePort_frame s
  have hq := quiet_leavePort s
  exact ⟨hq.near.past, (congrArg State.banks h :), (congrArg State.mem h :), (congrArg State.stores h :), hq.same.mine, hq.near.late,
    .of_eq (ctx_of_cells (congrArg State.cells h :) hq.near.cell)⟩

/-- A firing that has left its port is not among those that wait there. -/
theorem leavePort_waits (s : State) : s.meAtPort ∉ (s.leavePort.sectorAt s.sector).port.waits := by
  unfold State.leavePort
  split
  · rename_i h
    rw [List.isEmpty_iff.1 h]
    exact List.not_mem_nil
  · rw [State.sectorAt_modSector, if_pos rfl]
    simp

theorem mem_waits_of_withheld {k : Nat} {x : Nat × Nat × Nat} (h : x ∈ s.withheld k) : x ∈ (s.sectorAt k).port.waits :=
  (List.mem_filter.1 h).1

theorem atPortQueue_frame (s : State) (front : Bool) : s.atPortQueue front = { s with sectors := (s.atPortQueue front).sectors } := by
  unfold State.atPortQueue
  dsimp only
  split <;> rfl

theorem butWaits_atPortQueue (s : State) (front : Bool) : ButWaits s (s.atPortQueue front) := by
  unfold State.atPortQueue
  dsimp only
  split
  · exact butWaits_of_sectors rfl
  · exact butWaits_modSector s _ _

theorem quiet_atPortQueue (s : State) (front : Bool) : Quiet s (s.atPortQueue front) := .of_parts (by rw [atPortQueue_frame])

theorem mem_atPortQueue (s : State) (front : Bool) : s.meAtPort ∈ ((s.atPortQueue front).sectorAt s.sector).port.waits := by
  unfold State.atPortQueue
  dsimp only
  split
  · rename_i h
    exact mem_waits_of_withheld (List.contains_iff_mem.1 h)
  · rw [State.sectorAt_modSector, if_pos rfl]
    cases front <;> simp

/-- A firing that is not at the port gets in front. -/
theorem head_atPortQueue (h : s.meAtPort ∉ (s.sectorAt s.sector).port.waits) :
    ((s.atPortQueue true).sectorAt s.sector).port.waits.head? = some s.meAtPort := by
  unfold State.atPortQueue
  dsimp only
  rw [if_neg fun hc => h (mem_waits_of_withheld (List.contains_iff_mem.1 hc)), State.sectorAt_modSector, if_pos rfl]
  rfl

/-! #### An access at its port -/

variable {α : Type} {go : State → State × Except Hit α}

theorem portGo_ok {x : α} (h : go s = (t, .ok x)) : s.portGo go = .ok t x := by
  rw [State.portGo, h]

theorem viaPort_free (hp : s.portHolds = false) : s.viaPort go = s.leavePort.portGo go := by
  unfold State.viaPort
  rw [hp]
  rfl

theorem viaPort_held (hp : s.portHolds = true) : s.viaPort go = .wait (s.atPortQueue false) := by
  unfold State.viaPort
  rw [hp]
  rfl

theorem portGo_fails {h : Hit} (he : go s = (t, .error h)) (hc : h.cls = 4) : s.portGo go = .wait ((t.cellFreeze h).atPortQueue true) := by
  rw [State.portGo, he]
  dsimp only
  rw [if_pos hc]

end

/-! ### Virtual loads (R175, R286) -/

theorem ofBytes_byte (bs : List Byte) (k : Nat) : ofBytes bs / 256 ^ k % 256 = (bs.getD k 0).toNat := by
  induction bs generalizing k with
  | nil => simp [ofBytes]
  | cons b bs ih =>
    have hb := b.isLt
    cases k with
    | zero =>
      simp only [ofBytes, Nat.pow_zero, Nat.div_one, List.getD_cons_zero]
      omega
    | succ k =>
      rw [List.getD_cons_succ, ← ih k, ofBytes, Nat.pow_succ', ← Nat.div_div_eq_div_mul]
      congr 2
      omega

/-- The bytes of a lane register that holds 64 bytes. -/
theorem lane_byte {bs : List Byte} (hl : bs.length = 64) (k : Nat) :
    ((BitVec.ofNat 512 (ofBytes bs)) >>> (8 * k)).setWidth 8 = bs.getD k 0 := by
  have hb := ofBytes_lt bs
  rw [hl] at hb
  apply BitVec.eq_of_toNat_eq
  rw [BitVec.toNat_setWidth, BitVec.toNat_ushiftRight, BitVec.toNat_ofNat, Nat.mod_eq_of_lt hb, Nat.shiftRight_eq_div_pow,
    Nat.pow_mul]
  exact ofBytes_byte bs k

section
variable {s q t : State} {w : Wave} {b : Bool}

/-- A load into a lane register ends. -/
theorem Begun.laneEnds (h : Begun s q w b) (hr : s.Runs) (v : Nat) (x : Lane) :
    let t := (q.writeV v x).advance 3
    t.readV v = x ∧ (∀ k, k ≠ v → t.readV k = s.heldV k) ∧ (∀ r, t.readG r = s.heldG r)
      ∧ t.me.woff = s.me.woff + 3 ∧ t.me.wait = none ∧ t.ctx.wave = some (w.own, w.succ) ∧ q.OnlyMe t := by
  have hq := h.runs hr
  have hw := State.runs_writeV q v x hq
  obtain ⟨l, hm⟩ := h.me hr
  have he : (q.writeV v x).advance 3 = q.modMe fun f => gone 3 q.clock (State.setV v x f) :=
    State.modMe_modMe q (State.setV v x) (gone 3 q.clock) fun _ => rfl
  have hme : ((q.writeV v x).advance 3).me = gone 3 q.clock (State.setV v x q.me) := by
    rw [he]
    exact State.me_modMe q _ (fun _ => rfl) hq.1
  refine ⟨?_, fun k hk => ?_, fun r => ?_, ?_, ?_, ?_, ?_⟩
  · rw [State.readV_advance _ 3 hw, State.heldV_writeV q v v x hq, if_pos rfl]
  · rw [State.readV_advance _ 3 hw, State.heldV_writeV q v k x hq, if_neg hk, h.heldV hr]
  · rw [State.readG_advance _ 3 hw, State.heldG_writeV q v x hq, h.heldG hr]
  · rw [hme, hm]
    rfl
  · rw [hme]
    rfl
  · rw [he, State.ctx_modMe]
    exact h.wave
  · rw [he]
    exact State.onlyMe_modMe q _ (fun _ => rfl) hq

/-- What a virtual load changes beside its firing and the wave: what the cell has read and learnt, TLBs, free values, and what
the port withheld. -/
structure VirtLoaded (s t : State) : Prop where
  quiet : Quiet s t
  mem    : t.mem = s.mem
  banks  : t.banks = s.banks
  stores : t.stores = s.stores
  due    : t.due = s.due
  dies   : t.dies = s.dies
  waits  : ButWaits s t

/-- A virtual load through a port that is free, whose pages all translate. -/
theorem loadVirt_translated {a n : Nat} {s1 : State} {ps : List (Nat × Nat × Bool)} (acq : Option Nat)
    (h : s.pieces s.issuer a n false (State.pieceFuel n) = (s1, .ok ps)) :
    ∃ v q, s.loadVirt a n acq = (q, .ok (virtBytes s a v ps)) ∧ MayRead s (memUnits ps) v ∧ (virtBytes s a v ps).length = n
      ∧ VirtLoaded s q ∧ ReadsAlike s q := by
  obtain ⟨v, hv, hr⟩ := loadVirt_ok acq h
  have ht := pieces_translates h
  have hf := readAs_frame s1 (memUnits ps) v acq
  refine ⟨v, _, hv, hr, (length_virtBytes s a v ps).trans (pieces_length_fuel h), ⟨ht.quiet.trans (quiet_readAs s1 _ v acq), ?_, ?_, ?_, ?_, ?_, ?_⟩,
    ht.readsAlike.trans (readsAlike_readAs s1 _ v acq)⟩
  · exact (congrArg State.mem hf :).trans ht.mem
  · exact (congrArg State.banks hf :).trans ht.banks
  · exact (congrArg State.stores hf :).trans ht.stores
  · exact (congrArg State.due hf :).trans ht.due
  · exact (congrArg State.dies hf :).trans ht.dies
  · exact butWaits_of_sectors ((congrArg State.sectors hf :).trans ht.sectors)

theorem VirtLoaded.leavePort (h : VirtLoaded s.leavePort t) : VirtLoaded s t := by
  have hf := leavePort_frame s
  refine ⟨(quiet_leavePort s).trans h.quiet, h.mem.trans (congrArg State.mem hf :), h.banks.trans (congrArg State.banks hf :),
    h.stores.trans (congrArg State.stores hf :), h.due.trans (congrArg State.due hf :), h.dies.trans (congrArg State.dies hf :), fun k => ?_⟩
  have h1 := h.waits k
  have h2 := butWaits_leavePort s k
  rw [← h2, ← h1]

/-- A virtual load that the port performs, whose pages all translate. -/
theorem viaPort_loadVirt {a n : Nat} {s1 : State} {ps : List (Nat × Nat × Bool)} (acq : Option Nat) (hp : s.portHolds = false)
    (h : s.leavePort.pieces s.issuer a n false (State.pieceFuel n) = (s1, .ok ps)) :
    ∃ v q, s.viaPort (fun s => s.loadVirt a n acq) = .ok q (virtBytes s a v ps) ∧ MayRead s (memUnits ps) v
      ∧ (virtBytes s a v ps).length = n ∧ VirtLoaded s q := by
  rw [← (quiet_leavePort s).same.issuer] at h
  obtain ⟨v, q, hv, hr, hl, hq, -⟩ := loadVirt_translated acq h
  have ha := readsAlike_leavePort s
  rw [ha.virtBytes] at hv hl
  exact ⟨v, q, (viaPort_free hp).trans (portGo_ok hv), ha.mayRead hr, hl, hq.leavePort⟩

/-- A virtual load of an instruction that has begun. -/
theorem loadAt_chained {a n : Nat} {s1 : State} {ps : List (Nat × Nat × Bool)} (acq : Option Nat) (hc : Consistent w s.ctx.wave)
    (hw : w.path = 3) (hp : portFree s)
    (h : (chained s w).leavePort.pieces (chained s w).issuer a n false (State.pieceFuel n) = (s1, .ok ps)) :
    ∃ v q, (chained s w).loadAt w.path.toNat a n acq = .ok q (virtBytes s a v ps) ∧ MayRead s (memUnits ps) v
      ∧ (virtBytes s a v ps).length = n ∧ Begun s q w false ∧ VirtLoaded (chained s w) q := by
  have hb := begun_chained hc
  obtain ⟨v, q, hv, hr, hl, hq⟩ := viaPort_loadVirt acq ((hb.portHolds (chained_sectors hc)).2 hp) h
  have ha := readsAlike_chained hc
  rw [ha.virtBytes] at hv hl
  refine ⟨v, q, ?_, ha.mayRead hr, hl, hb.quiet hq.quiet, hq⟩
  rw [hw, State.loadAt]
  exact (if_pos rfl).trans hv

/-- What a virtual load leaves alone, once its firing has gone on. -/
theorem virtualFrame {a : Bool} (hc : Consistent w s.ctx.wave) (h : VirtLoaded (chained s w) q) (hb : Begun s q w a) (ho : q.OnlyMe t) :
    VirtualFrame s t := by
  have hx := chained_eq hc
  refine ⟨(hb.frame ho).trans ?_, ?_⟩
  · rw [show t.mem = s.mem by rw [ho]; exact h.mem.trans (congrArg State.mem hx :),
      show t.banks = s.banks by rw [ho]; exact h.banks.trans (congrArg State.banks hx :),
      show t.stores = s.stores by rw [ho]; exact h.stores.trans (congrArg State.stores hx :),
      show t.due = s.due by rw [ho]; exact h.due.trans (congrArg State.due hx :),
      show t.dies = s.dies by rw [ho]; exact h.dies.trans (congrArg State.dies hx :)]
    rfl
  · exact butWaits_congr h.waits (chained_sectors hc) (congrArg State.sectors ho :)

theorem not_isTake_virtual (s : State) (h : w.path = 3) (a n : Nat) : s.isTake w.path.toNat a n = false := by
  rw [h]
  rfl

/-- A load into a general register that is not a take of a block. -/
theorem loadG_ok {i : Instr} {tc : BitVec 4} {d : Rg} {sb : Bool} {path a : Nat} {bs : List Byte} (ht : s.isTake path a (tcBytes tc) = false)
    (h : s.loadAt path a (tcBytes tc) i.acqScope = .ok q bs) :
    loadG i tc d sb path a s
      = .next (((q.writeG d (extend tc (ofBytes bs))).choose sb (codeTyped tc (extend tc (ofBytes bs)))).advance 3) := by
  unfold loadG
  rw [ht, h]
  rfl

/-- `ld` and `ldx` on the virtual path. -/
theorem loadG_chained {i : Instr} {tc : BitVec 4} {d : Rg} {sb : Bool} {a : Nat} {s1 : State} {ps : List (Nat × Nat × Bool)}
    (hr : s.Runs) (hc : Consistent w s.ctx.wave) (hw : w.path = 3) (hp : portFree s) (h1 : 1 ≤ tc.toNat) (h7 : tc.toNat ≤ 7)
    (h : (chained s w).leavePort.pieces (chained s w).issuer a (accBytes tc) false (State.pieceFuel (accBytes tc)) = (s1, .ok ps)) :
    ∃ ver x t, loadG i tc d sb w.path.toNat a (chained s w) = .next t ∧ Extended tc (numberOf (virtBytes s a ver ps)) x
      ∧ MayRead s (memUnits ps) ver ∧ LoadEnds s t d x (codeIf sb (unsignedType tc) x) w ∧ VirtualFrame s t := by
  obtain ⟨ver, q, hq, hm, hl, hb, hv⟩ := loadAt_chained i.acqScope hc hw hp h
  rw [← (type_table tc h1 h7).1] at hq
  refine ⟨ver, _, _, loadG_ok (not_isTake_virtual _ hw ..) hq, extended_extend h1 h7 hl, hm, ?_, ?_⟩
  · rw [← codeTyped_eq h1 h7]
    exact hb.loadEnds hr d _ _ sb
  · exact virtualFrame hc hv hb (wrote_scalar q (hb.runs hr) d _ _ sb 3).only

/-- `vld` on the virtual path. -/
theorem vld_chained {v : BitVec 3} {r : Rg} {off : W32} {s1 : State} {ps : List (Nat × Nat × Bool)}
    (hr : s.Runs) (hc : Consistent w s.ctx.wave) (hw : w.path = 3) (hp : portFree s)
    (h : (chained s w).leavePort.pieces (chained s w).issuer (at2 s r off) 64 false (State.pieceFuel 64) = (s1, .ok ps)) :
    ∃ ver t, vldBody v r off w (chained s w) = .next t
      ∧ (∀ k, k < 64 → ((t.readV v.toNat) >>> (8 * k)).setWidth 8 = (virtBytes s (at2 s r off) ver ps).getD k 0)
      ∧ MayRead s (memUnits ps) ver ∧ (∀ k, k ≠ v.toNat → t.readV k = s.heldV k) ∧ (∀ r, t.readG r = s.heldG r)
      ∧ t.me.woff = s.me.woff + 3 ∧ t.me.wait = none ∧ VirtualFrame s t := by
  obtain ⟨ver, q, hq, hm, hl, hb, hv⟩ := loadAt_chained (if w.acq then some w.scope.toNat else none) hc hw hp h
  obtain ⟨hd, hother, hg, hwoff, hwait, -, ho⟩ := hb.laneEnds hr v.toNat (BitVec.ofNat 512 (ofBytes (virtBytes s (at2 s r off) ver ps)))
  refine ⟨ver, _, ?_, fun k _ => ?_, hm, hother, hg, hwoff, hwait, virtualFrame hc hv hb ho⟩
  · rw [vldBody, (begun_chained hc).at2 hr, hq]
    rfl
  · rw [hd, lane_byte hl]

end

/-! ### Virtual stores (R173, R175, R285) -/

section
variable {s c q t : State} {w : Wave}

theorem tallyStore_frame (s : State) (path a : Nat) : s.tallyStore path a = { s with dies := (s.tallyStore path a).dies } := by
  unfold State.tallyStore State.tally
  split
  · rfl
  · split <;> rfl

theorem quiet_tallyStore (s : State) (path a : Nat) : Quiet s (s.tallyStore path a) := .of_parts (by rw [tallyStore_frame])

theorem relLink_chained (hc : Consistent w s.ctx.wave) (i : Instr) : (chained s w).relLink i = s.relLink i := by
  obtain ⟨h1, h2, h3⟩ := chained_asRel hc
  simp only [State.relLink, State.relScopeOf, State.linkOf, h1, h2, h3, (begun_chained hc).near.cell]

/-- A virtual store is performed as it is accepted, or is the last of the accepted ones. -/
structure VirtPut (s q : State) (a : Nat) (bs : List Byte) (ps : List (Nat × Nat × Bool)) (rel : Option Link) : Prop where
  banks : q.banks = s.banks
  now   : atOnce s true a bs.length → q.mem = State.storePieces s.mem bs ps ∧ q.stores = s.stores
  later : ¬ atOnce s true a bs.length → q.mem = s.mem
            ∧ q.stores = s.stores ++ [{ iss := s.issuer, virt := true, addr := a, bytes := bs, parts := ps, epoch := s.qcur, rel := rel }]

theorem storeVirt_ok {a : Nat} {bs : List Byte} {s1 : State} {ps : List (Nat × Nat × Bool)} (rel : Option Link) (hr : s.Runs)
    (hb : Begun s c w true) (ha : ReadsAlike s c) (h : c.pieces s.issuer a bs.length true (State.pieceFuel bs.length) = (s1, .ok ps)) :
    ∃ q, c.storeVirt a bs rel = (q, .ok ()) ∧ Begun s q w true ∧ VirtPut s q a bs ps rel := by
  have ht := pieces_translates h
  have hb1 := hb.quiet ht.quiet
  have ha1 := ha.trans ht.readsAlike
  have hi := hb1.issuer hr
  have hpend : s1.pends true a bs.length = s.pends true a bs.length := pends_congr ha1.stores ha1.mine ..
  have hput : c.storeVirt a bs rel = (s1.putStore true a bs ps rel false, .ok ()) := by
    rw [State.storeVirt, hb.issuer hr, h]
  by_cases hnow : atOnce s true a bs.length
  · obtain ⟨hlate, hp⟩ := hnow
    have hp1 : s1.putStore true a bs ps rel false
        = s1.performOne { iss := s1.issuer, virt := true, addr := a, bytes := bs, parts := ps, epoch := s1.qcur, rel := rel } := by
      unfold State.putStore
      rw [hpend, hp, ha1.late, hlate]
      rfl
    have hmine : s1.mine { iss := s1.issuer, virt := true, addr := a, bytes := bs, parts := ps, epoch := s1.qcur, rel := rel } = true :=
      (mine_iff s1 _).2 ⟨rfl, rfl⟩
    refine ⟨_, hput, hp1 ▸ hb1.quiet (performs_performOne s1 hmine).quiet, ?_⟩
    rw [hp1, performOne_sound s1 hmine fun _ => storePoison_of_pieces h]
    exact ⟨ha1.banks, fun _ => ⟨congrArg (State.storePieces · bs ps) ha1.mem, ha1.stores⟩, fun hn => absurd ⟨hlate, hp⟩ hn⟩
  · have hp1 : s1.putStore true a bs ps rel false = s1.accept true a bs ps rel false := by
      unfold State.putStore
      rw [hpend, ha1.late]
      refine if_pos ?_
      by_cases hlate : s.late = 0
      · have hp : s.pends true a bs.length = true := Bool.eq_true_of_not_eq_false fun hp => hnow ⟨hlate, hp⟩
        simp [hp]
      · simp [hlate]
    refine ⟨_, hput, hp1 ▸ hb1.quiet (.of_parts rfl), ?_⟩
    rw [hp1]
    refine ⟨ha1.banks, fun hn => absurd hn hnow, fun _ => ⟨ha1.mem, ?_⟩⟩
    rw [State.accept, ha1.stores, hi, hb1.near.qcur]

/-- A store on the virtual path, whose pages all translate. -/
theorem storeB_chained {i : Instr} {a n : Nat} {bs : List Byte} {s1 : State} {ps : List (Nat × Nat × Bool)} (hl : bs.length = n)
    (hr : s.Runs) (hc : Consistent w s.ctx.wave) (hw : w.path = 3) (hp : portFree s)
    (h : (chained s w).commit.leavePort.pieces (chained s w).issuer a n true (State.pieceFuel n) = (s1, .ok ps)) :
    ∃ t, storeB i w.path.toNat a bs (chained s w) = .next t ∧ VirtStored s t i w a bs ps := by
  subst hl
  have hb := begun_chained hc
  have hs : (chained s w).commit.sectors = s.sectors := chained_sectors hc
  rw [hb.issuer hr] at h
  obtain ⟨q, hq, hbq, hput⟩ := storeVirt_ok (s.relLink i) hr (hb.commit.quiet (quiet_leavePort _))
    (((readsAlike_chained hc).trans (readsAlike_commit _)).trans (readsAlike_leavePort _)) h
  have hstore : (chained s w).commit.storeAt w.path.toNat a bs (s.relLink i) = .ok q () := by
    rw [hw]
    exact (viaPort_free ((hb.commit.portHolds hs).2 hp)).trans (portGo_ok hq)
  have hbt := hbq.quiet (quiet_tallyStore q w.path.toNat a)
  have hf := tallyStore_frame q w.path.toNat a
  have hmem : (q.tallyStore w.path.toNat a).mem = q.mem := (congrArg State.mem hf :)
  have hbanks : (q.tallyStore w.path.toNat a).banks = q.banks := (congrArg State.banks hf :)
  have hstores : (q.tallyStore w.path.toNat a).stores = q.stores := (congrArg State.stores hf :)
  refine ⟨(q.tallyStore w.path.toNat a).advance 3, ?_, fun hn => ?_, fun hn => ?_⟩
  · rw [storeB, relLink_chained hc, hstore]
    rfl
  · obtain ⟨h1, h2⟩ := hput.now hn
    exact ⟨hbt.storeEnds hr, hbt.store_commit hr, hmem.trans h1, hbanks.trans hput.banks, hstores.trans h2⟩
  · obtain ⟨h1, h2⟩ := hput.later hn
    exact ⟨hstores.trans h2, ⟨hmem.trans h1, hbanks.trans hput.banks⟩, hbt.store_commit hr, hbt.storeEnds hr⟩

theorem storeG_chained {i : Instr} {tc : BitVec 4} {d : Rg} {a : Nat} {s1 : State} {ps : List (Nat × Nat × Bool)}
    (hr : s.Runs) (hc : Consistent w s.ctx.wave) (hw : w.path = 3) (hp : portFree s) (h1 : 1 ≤ tc.toNat) (h7 : tc.toNat ≤ 7)
    (h : (chained s w).commit.leavePort.pieces (chained s w).issuer a (accBytes tc) true (State.pieceFuel (accBytes tc)) = (s1, .ok ps)) :
    ∃ t, storeG i tc d w.path.toNat a (chained s w) = .next t ∧ VirtStored s t i w a (lowBytes (accBytes tc) (s.readG d)) ps := by
  have hbs : toBytes (tcBytes tc) ((chained s w).readG d).toNat = lowBytes (accBytes tc) (s.readG d) := by
    rw [(type_table tc h1 h7).1, (begun_chained hc).readG hr, toBytes_eq]
    rfl
  rw [storeG, hbs]
  exact storeB_chained (by simp [lowBytes]) hr hc hw hp h

theorem vst_chained {v : BitVec 3} {r : Rg} {off : W32} {s1 : State} {ps : List (Nat × Nat × Bool)}
    (hr : s.Runs) (hc : Consistent w s.ctx.wave) (hw : w.path = 3) (hp : portFree s)
    (h : (chained s w).commit.leavePort.pieces (chained s w).issuer (at2 s r off) 64 true (State.pieceFuel 64) = (s1, .ok ps)) :
    ∃ t, vstBody v r off w (chained s w) = .next t
      ∧ VirtStored s t (.vst v r off w) w (at2 s r off) (laneBytes (s.readV v.toNat)) ps := by
  have hbs : toBytes 64 ((chained s w).readV v.toNat).toNat = laneBytes (s.readV v.toNat) := by
    rw [(begun_chained hc).readV hr, toBytes_eq]
    rfl
  rw [vstBody, hbs, (begun_chained hc).at2 hr]
  exact storeB_chained (by simp [laneBytes]) hr hc hw hp h

/-- The indexed form's address at the beginning of its instruction. -/
theorem Begun.at3 {b : Bool} (h : Begun s q w b) (hr : s.Runs) {tc : BitVec 4} (h1 : 1 ≤ tc.toNat) (h7 : tc.toNat ≤ 7) (x y : Rg) (off : W32) :
    q.eax tc x y off = Claim.at3 s (accBytes tc) x y off := by
  rw [at3_eq q h1 h7]
  simp only [Claim.at3, h.readG hr]

theorem virtualAccesses : VirtualAccessesComplete := by
  intro s w tc d a b sb v off s1 ps hr hc hw hp h1 h7
  have hb := begun_chained hc
  refine ⟨fun h => ?_, fun h => ?_, fun h => ?_, fun _ h => ?_, fun _ h => ?_, fun h => ?_⟩
  · rw [show exec (.ld tc d a sb off w) s = execLd tc d a sb off w s from rfl, execLd, onWave_eq hc, ldBody, hb.at2 hr]
    exact loadG_chained hr hc hw hp h1 h7 h
  · rw [show exec (.ldx tc d a b sb off w) s = execLdx tc d a b sb off w s from rfl, execLdx, onWave_eq hc, ldxBody, hb.at3 hr h1 h7]
    exact loadG_chained hr hc hw hp h1 h7 h
  · rw [show exec (.vld v a off w) s = execVld v a off w s from rfl, execVld, onWave_eq hc]
    exact vld_chained hr hc hw hp h
  · rw [show exec (.st tc d a off w) s = execSt tc d a off w s from rfl, execSt, onWave_eq hc, stBody, hb.at2 hr]
    exact storeG_chained hr hc hw hp h1 h7 h
  · rw [show exec (.stx tc d a b off w) s = execStx tc d a b off w s from rfl, execStx, onWave_eq hc, stxBody, hb.at3 hr h1 h7]
    exact storeG_chained hr hc hw hp h1 h7 h
  · rw [show exec (.vst v a off w) s = execVst v a off w s from rfl, execVst, onWave_eq hc]
    exact vst_chained hr hc hw hp h

end

/-! ### Handle loads (R110, R176) -/

section
variable {s c q t : State} {w : Wave}

theorem pieces_of_loadVirt {a n : Nat} {acq : Option Nat} {bs : List Byte} (h : s.loadVirt a n acq = (t, .ok bs)) :
    ∃ s1 ps, s.pieces s.issuer a n false (State.pieceFuel n) = (s1, .ok ps) := by
  cases hp : s.pieces s.issuer a n false (State.pieceFuel n) with
  | mk s1 r =>
    cases r with
    | error e =>
      rw [loadVirt_error acq hp] at h
      cases h
    | ok ps => exact ⟨s1, ps, rfl⟩

/-- What a virtual load that succeeds has changed. -/
theorem virtLoaded_of_loadVirt {a n : Nat} {acq : Option Nat} {bs : List Byte} (h : s.loadVirt a n acq = (t, .ok bs)) :
    VirtLoaded s t ∧ ReadsAlike s t := by
  obtain ⟨s1, ps, hp⟩ := pieces_of_loadVirt h
  obtain ⟨v, q, hq, -, -, hl, hr⟩ := loadVirt_translated acq hp
  cases hq.symm.trans h
  exact ⟨hl, hr⟩

theorem handleEntry_ok {die asid pos : Nat} {h : W64} {e : BitVec 256} (ht : State.tenantHit asid h pos = none) (hp : s.htPoison h = none)
    (hr : s.htRead die (hIndex h) = (t, e)) (hh : t.handleHit h pos e = none) : s.handleEntry die asid h pos = (t, .ok e) := by
  unfold State.handleEntry
  rw [ht, hp, hr]
  dsimp only [Option.orElse]
  rw [hh]

/-- A handle load that starts, whose entry stands, whose block the block table names, and whose token lies in its position. -/
theorem ldhBody_ok {d a b : Rg} {sb : Bool} {off : W32} {e : BitVec 256} {bs bs' : List Byte} {s1 s2 : State}
    (harg : s.me.arg = none) (he : s.handleEntry (sectorSpan s.sector) s.ctx.asid (s.readG a) (s.readG b).toNat = (s1, .ok e))
    (hbt : s1.viaPort (fun u => u.loadVirt (btabAddr e (s.readG b).toNat) 4) = .ok s2 bs)
    (htype : btypeOk (BitVec.ofNat 32 (ofBytes bs)) = true) (htb : tokenBytes e ≠ 0) (h0 : 0 ≤ off.toInt)
    (h8 : off.toInt + 8 ≤ (tokenBytes e : Int))
    (hgo : s2.loadVirt ((blockAddr e (BitVec.ofNat 32 (ofBytes bs)) + slotIn e (s.readG b).toNat * tokenBytes e + off.toNat) % 2 ^ 64) 8
      (Instr.ldh d a b sb off w).acqScope = (q, .ok bs')) :
    ldhBody d a b sb off w s = .next (((q.writeG d (BitVec.ofNat 64 (ofBytes bs'))).choose sb
      (codeSigned (BitVec.ofNat 64 (ofBytes bs')))).advance 3) := by
  have ho : (sext32 off).toInt = off.toInt := BitVec.toInt_signExtend_of_le (by decide)
  have hn : off.toInt.toNat = off.toNat := by
    rw [BitVec.toInt_eq_toNat_cond] at h0 ⊢
    split at h0
    · rw [if_pos ‹_›]
      rfl
    · omega
  have hent : s.ldhEntry (s.readG a) (s.readG b).toNat = (s1, .ok e) := by
    rw [State.ldhEntry, harg]
    exact he
  have hout : (tokenBytes e = 0 || off.toInt < 0 || (tokenBytes e : Int) < off.toInt + 8) = false := by
    simp [htb, h0, h8]
  have hturn {go : State → State × Except Hit (List Byte)} : s2.viaPort go true = s2.portGo go := rfl
  unfold ldhBody
  simp only [harg, Option.bind_none, hent, Acc.then, ho, hn, hbt, htype, hout, Option.isNone_none, hturn, Bool.not_true,
    Bool.false_eq_true, if_false]
  rw [portGo_ok (go := fun u => u.loadVirt ((blockAddr e (BitVec.ofNat 32 (ofBytes bs)) + slotIn e (s.readG b).toNat * tokenBytes e
    + off.toNat) % 2 ^ 64) 8 (Instr.ldh d a b sb off w).acqScope) hgo]

theorem handleLoads : HandleLoadsComplete := by
  intro s w d a b sb off s1 s2 s3 e bt bs ps hr hc hp harg htenant hpoison hread hhit hload hbt htype h0 h8 htb ad hpieces
  have hb := begun_chained hc
  have ht : Translates (chained s w) s1 := by
    have := translates_htRead (chained s w) (sectorSpan (cellSector s.cell)) (hIndex (s.readG a))
    rwa [hread] at this
  obtain ⟨l, hme⟩ := hb.me hr
  have hb1 := hb.quiet ht.quiet
  have hfree := (hb1.portHolds (ht.sectors.trans (chained_sectors hc))).2 hp
  obtain ⟨hl2, hr2⟩ := virtLoaded_of_loadVirt hload
  obtain ⟨ver, q, hq, hmay, hlen, hl3, hr3⟩ := loadVirt_translated (Instr.ldh d a b sb off w).acqScope hpieces
  have halike := (((readsAlike_chained hc).trans ht.readsAlike).trans (readsAlike_leavePort s1)).trans hr2
  rw [halike.virtBytes] at hq hlen
  have hb3 := (hb1.quiet hl2.leavePort.quiet).quiet hl3.quiet
  have hentry : (chained s w).handleEntry (sectorSpan (chained s w).sector) (chained s w).ctx.asid ((chained s w).readG a)
      ((chained s w).readG b).toNat = (s1, .ok e) := by
    rw [hb.sector, hb.asid, hb.readG hr, hb.readG hr]
    refine handleEntry_ok htenant ?_ hread hhit
    rw [chained_eq hc]
    exact hpoison
  have hmem : q.mem = s.mem := hl3.mem.trans (hl2.leavePort.mem.trans (ht.mem.trans (readsAlike_chained hc).mem))
  have hbanks : q.banks = s.banks := hl3.banks.trans (hl2.leavePort.banks.trans (ht.banks.trans (readsAlike_chained hc).banks))
  rw [NodeWork.numberOf_eq] at hbt
  subst hbt
  obtain ⟨x, hx⟩ : ∃ x, x = BitVec.ofNat 64 (ofBytes (virtBytes s ad ver ps)) := ⟨_, rfl⟩
  refine ⟨ver, x, ((q.writeG d x).choose sb (codeSigned x)).advance 3, ?_, ?_, halike.mayRead hmay, ?_, ?_, ?_⟩
  · rw [show exec (.ldh d a b sb off w) s = execLdh d a b sb off w s from rfl, execLdh, onWave_eq hc, hx]
    refine ldhBody_ok (e := e) (bs := bs) (s1 := s1) (s2 := s2) (by rw [hme]; exact harg) hentry ?_ htype htb h0 h8 ?_
    · rw [hb.readG hr, viaPort_free hfree]
      exact portGo_ok hload
    · rw [hb.readG hr]
      exact hq
  · have := ofBytes_lt (virtBytes s ad ver ps)
    rw [hlen] at this
    rw [hx, NodeWork.numberOf_eq, BitVec.toNat_ofNat]
    exact Nat.mod_eq_of_lt this
  · rw [codeIf, ← codeSigned_eq]
    exact hb3.loadEnds hr d _ _ sb
  · rw [(wrote_scalar q (hb3.runs hr) d x (codeSigned x) sb 3).only]
    exact hmem
  · rw [(wrote_scalar q (hb3.runs hr) d x (codeSigned x) sb 3).only]
    exact hbanks

end

end Sys2Proof.Laws.MemoryAccess

namespace Sys2Proof
open Machine Claim Laws.MemoryAccess

/-- Settles O19: a virtual access by what its free port performs, a handle load by its two virtual loads. -/
theorem addressSpaceAccessesComplete : Obligations.AddressSpaceAccessesComplete := by
  unfold Obligations.AddressSpaceAccessesComplete
  exact ⟨virtualAccesses, handleLoads⟩

end Sys2Proof
end

section
/-! SUPPORT. How each access with a wave word begins: what it asks of its path, what it leaves where it waits at its copy port, and
what it leaves where it raises a class. -/
namespace Sys2Proof.Laws.MemoryAccess
open Machine Claim

/-! ### Atomics begin (R177, R178) -/

/-- What an atomic does, for g[B] and g[D]. -/
def atomOp (i : Instr) (b d : W64) : Atomic :=
  match i with
  | .aadd w64 .. => .signed w64 b (fun x y => x + y) true
  | .aand w64 .. => .signed w64 b (fun x y => x &&& y)
  | .aor w64 .. => .signed w64 b (fun x y => x ||| y)
  | .axor w64 .. => .signed w64 b (fun x y => x ^^^ y)
  | .amin w64 .. => .signed w64 b fun x y => if toSigned (atomBits w64) x ≤ toSigned (atomBits w64) y then x else y
  | .amax w64 .. => .signed w64 b fun x y => if toSigned (atomBits w64) x ≤ toSigned (atomBits w64) y then y else x
  | .aminz w64 .. => .unsigned w64 b Nat.min
  | .amaxz w64 .. => .unsigned w64 b Nat.max
  | .axchg w64 .. => .signed w64 b (fun _ y => y) true
  | .acas w64 .. =>
    { n := atomBytes w64
      f := fun old => if old = d.toNat % 2 ^ atomBits w64 then some (b.toNat % 2 ^ atomBits w64) else none
      ext := signedBack w64, code := codeSigned, home9 := true }
  | .afaddF32 .. => .float b fun x y => numSum 0 [x, y]
  | _ => .float b (pickNum true)

/-- The end of an atomic that no task logs. -/
def atomDone (k : Atomic) (d : Rg) (sb : Bool) (t : State) (old : Nat) : Res :=
  .next ((((t.tally t.cell t.ctx.net fun x => { x with atom := x.atom + 1 }).writeG d (k.ext old)).choose sb
    (k.code (k.ext old))).advance 3)

section
variable {s q : State} {i : Instr} {n : Nat} {d a b : Rg} {sb : Bool} {off : W32} {w : Wave}

theorem atomOp_n (h : atomOf i = some (n, d, a, b, sb, off, w)) (x y : W64) : (atomOp i x y).n = n := by
  unfold atomOf at h
  split at h
  case h_13 => cases h
  all_goals
    cases h
    rfl

theorem exec_atomic (h : atomOf i = some (n, d, a, b, sb, off, w)) (hr : s.Runs) (hc : Consistent w s.ctx.wave) :
    exec i s = atomBody i (atomOp i (s.readG b) (s.readG d)) d sb w.path.toNat (at2 s a off) (chained s w) := by
  have hb := begun_chained hc
  rw [← hb.readG hr b, ← hb.readG hr d, ← hb.at2 hr]
  unfold atomOf at h
  split at h
  case h_13 => cases h
  all_goals
    cases h
    exact onWave_eq hc _

theorem noTask_begun {l : Bool} (h : Begun s q w l) (hn : noTask s) : noTask q := by
  unfold noTask
  rw [h.taskOf]
  exact hn

/-- An atomic that is not a task's is performed once its firing has passed its commit point. -/
theorem atomBody_eq {k : Atomic} {path ad : Nat} (harg : s.me.arg = none) (hr : s.Runs) (hn : noTask s) :
    atomBody i k d sb path ad s
      = (s.commit.atomAt k path ad i.acqScope (s.commit.relLink i)).then i none ad (atomDone k d sb) := by
  have ha : s.commit.me.arg = none := by
    rw [State.commit, State.me_modMe s _ (by exact fun _ => rfl) hr.1]
    exact harg
  have ht : s.commit.taskOf s.commit.issuer.cell s.commit.issuer.net = none := by
    rw [show s.commit.issuer.net = s.ctx.net by rw [State.issuer, State.commit, State.ctx_modMe]]
    exact hn
  have ho : s.commit.logOrd s.commit.issuer = (s.commit, none) := by
    rw [State.logOrd, ht]
  unfold atomBody
  dsimp only
  rw [ha]
  dsimp only
  rw [ho]
  rfl

end

/-! ### Accesses with a wave word, as they begin (R123, R174 to R178) -/

/-- The state in which an access is performed: one that writes has passed its commit point. -/
def atAccess (s : State) (w : Wave) (wr : Bool) : State := if wr then (chained s w).commit else chained s w

section
variable {s q t : State} {i : Instr} {w : Wave} {ad n : Nat} {wr : Bool}

theorem begun_atAccess (hc : Consistent w s.ctx.wave) : Begun s (atAccess s w wr) w wr := by
  cases wr
  · exact begun_chained hc
  · exact (begun_chained hc).commit

theorem atAccess_parts (hc : Consistent w s.ctx.wave) : ∃ c, atAccess s w wr = { s with cells := c } := by
  unfold atAccess
  rw [chained_eq hc]
  cases wr <;> exact ⟨_, rfl⟩

/-- A load that is not a take of a block. -/
theorem exec_load (hr : s.Runs) (hc : Consistent w s.ctx.wave) (ha : accessOf s i = some (w, ad, n, false))
    (ht : s.isTake w.path.toNat ad n = false) :
    ∃ acq f, exec i s = ((chained s w).loadAt w.path.toNat ad n acq).then i none ad f := by
  have hb := begun_chained hc
  have scalar {tc : BitVec 4} {d : Rg} {sb : Bool} (hn : tcBytes tc = n) :
      ∃ acq f, loadG i tc d sb w.path.toNat ad (chained s w) = ((chained s w).loadAt w.path.toNat ad n acq).then i none ad f := by
    subst hn
    refine ⟨i.acqScope, fun u bs => .next (((u.writeG d (extend tc (ofBytes bs))).choose sb
      (codeTyped tc (extend tc (ofBytes bs)))).advance 3), ?_⟩
    unfold loadG
    rw [hb.isTake, ht]
    rfl
  unfold accessOf at ha
  split at ha
  case h_1 tc d a sb off x =>
    split at ha <;> cases ha
    rename_i htc
    rw [show exec (.ld tc d a sb off w) s = execLd tc d a sb off w s from rfl, execLd, onWave_eq hc, ldBody, hb.at2 hr]
    exact scalar (type_table tc htc.1 htc.2).1
  case h_2 tc d a b sb off x =>
    split at ha <;> cases ha
    rename_i htc
    rw [show exec (.ldx tc d a b sb off w) s = execLdx tc d a b sb off w s from rfl, execLdx, onWave_eq hc, ldxBody,
      hb.at3 hr htc.1 htc.2]
    exact scalar (type_table tc htc.1 htc.2).1
  case h_3 v a off x =>
    cases ha
    refine ⟨if w.acq then some w.scope.toNat else none, fun u bs =>
      .next ((u.writeV v.toNat (BitVec.ofNat 512 (ofBytes bs))).advance 3), ?_⟩
    rw [show exec (.vld v a off w) s = execVld v a off w s from rfl, execVld, onWave_eq hc, vldBody, hb.at2 hr]
  case h_4 | h_5 => split at ha <;> cases ha
  case h_6 => cases ha
  case h_7 =>
    split at ha
    · split at ha <;> cases ha
    · cases ha

/-- A store. -/
theorem exec_store (hr : s.Runs) (hc : Consistent w s.ctx.wave) (ha : accessOf s i = some (w, ad, n, true)) (hat : atomOf i = none) :
    ∃ bs rel f, bs.length = n ∧ exec i s = ((chained s w).commit.storeAt w.path.toNat ad bs rel).then i none ad f := by
  have hb := begun_chained hc
  have store {bs : List Byte} (hl : bs.length = n) : ∃ bs' rel f, bs'.length = n ∧
      storeB i w.path.toNat ad bs (chained s w) = ((chained s w).commit.storeAt w.path.toNat ad bs' rel).then i none ad f :=
    ⟨bs, (chained s w).relLink i, fun u _ => .next ((u.tallyStore w.path.toNat ad).advance 3), hl, rfl⟩
  unfold accessOf at ha
  split at ha
  case h_1 | h_2 => split at ha <;> cases ha
  case h_3 => cases ha
  case h_4 tc d a off x =>
    split at ha <;> cases ha
    rename_i htc
    rw [show exec (.st tc d a off w) s = execSt tc d a off w s from rfl, execSt, onWave_eq hc, stBody, hb.at2 hr]
    exact store ((NodeWork.length_toBytes _ _).trans (type_table tc htc.1 (by omega)).1)
  case h_5 tc d a b off x =>
    split at ha <;> cases ha
    rename_i htc
    rw [show exec (.stx tc d a b off w) s = execStx tc d a b off w s from rfl, execStx, onWave_eq hc, stxBody,
      hb.at3 hr htc.1 (by omega)]
    exact store ((NodeWork.length_toBytes _ _).trans (type_table tc htc.1 (by omega)).1)
  case h_6 v a off x =>
    cases ha
    rw [show exec (.vst v a off w) s = execVst v a off w s from rfl, execVst, onWave_eq hc, vstBody, hb.at2 hr]
    exact store (NodeWork.length_toBytes _ _)
  case h_7 =>
    rw [hat] at ha
    cases ha

/-- An atomic of a firing that is not a task's. -/
theorem exec_atom {d a b : Rg} {sb : Bool} {off : W32} (hr : s.Runs) (hc : Consistent w s.ctx.wave)
    (hat : atomOf i = some (n, d, a, b, sb, off, w)) (harg : s.me.arg = none) (hno : noTask s) :
    exec i s = ((chained s w).commit.atomAt (atomOp i (s.readG b) (s.readG d)) w.path.toNat (at2 s a off) i.acqScope
      ((chained s w).commit.relLink i)).then i none (at2 s a off) (atomDone (atomOp i (s.readG b) (s.readG d)) d sb) := by
  have hb := begun_chained hc
  obtain ⟨l, hm⟩ := hb.me hr
  rw [exec_atomic hat hr hc, atomBody_eq (by rw [hm]; exact harg) (hb.runs hr) (noTask_begun hb hno)]

theorem accessOf_atom {n' : Nat} {d a b : Rg} {sb : Bool} {off : W32} {x : Wave} (hat : atomOf i = some (n', d, a, b, sb, off, x))
    (ha : accessOf s i = some (w, ad, n, wr)) : x = w ∧ at2 s a off = ad ∧ n' = n ∧ wr = true ∧ ad % n = 0 := by
  unfold accessOf at ha
  split at ha
  case h_7 =>
    rw [hat] at ha
    dsimp only at ha
    split at ha
    case isFalse => cases ha
    case isTrue h =>
      cases ha
      exact ⟨rfl, rfl, rfl, rfl, h⟩
  all_goals cases hat

/-- An access on the virtual path goes through the cell's copy port, translates first, and waits there in its instruction. -/
theorem exec_virtual (hr : s.Runs) (hc : Consistent w s.ctx.wave) (hw : w.path = 3) (ha : accessOf s i = some (w, ad, n, wr))
    (ht : (atomOf i).isSome = true → s.me.arg = none ∧ noTask s) :
    ∃ (α : Type) (go : State → State × Except Hit α) (f : State → α → Res),
      exec i s = ((atAccess s w wr).viaPort go).then i none ad f
      ∧ ∀ u s1 h, u.pieces u.issuer ad n wr (State.pieceFuel n) = (s1, .error h) → go u = (s1, .error h) := by
  cases hat : atomOf i with
  | some x =>
    obtain ⟨n', d, a, b, sb, off, x⟩ := x
    obtain ⟨rfl, rfl, rfl, rfl, hal⟩ := accessOf_atom hat ha
    obtain ⟨harg, hno⟩ := ht (by rw [hat]; rfl)
    have hk := atomOp_n hat (s.readG b) (s.readG d)
    refine ⟨_, fun u => u.atomHome u.issuer (atomOp i (s.readG b) (s.readG d)) (at2 s a off) i.acqScope
      ((chained s x).commit.relLink i), atomDone (atomOp i (s.readG b) (s.readG d)) d sb, ?_, fun u s1 h he => ?_⟩
    · rw [exec_atom hr hc hat harg hno, State.atomAt, hk, hw]
      dsimp only
      rw [if_neg (not_not.2 hal)]
      rfl
    · beta_reduce
      rw [State.atomHome, hk, he]
  | none =>
    cases wr with
    | false =>
      obtain ⟨acq, f, he⟩ := exec_load hr hc ha (not_isTake_virtual s hw ad n)
      refine ⟨_, fun u => u.loadVirt ad n acq, f, ?_, fun u s1 h => loadVirt_error _⟩
      rw [he, hw]
      rfl
    | true =>
      obtain ⟨bs, rel, f, rfl, he⟩ := exec_store hr hc ha hat
      refine ⟨_, fun u => u.storeVirt ad bs rel, f, ?_, fun u s1 h he => ?_⟩
      · rw [he, hw]
        rfl
      · beta_reduce
        rw [State.storeVirt, he]

end

/-! ### Failed translations and frozen ports (R89, R392) -/

/-- A sector whose copy port has frozen on an access of a cell (R392). -/
def portFrozen (k : Sector) (iss : Issuer) (h : Hit) : Sector :=
  { k with port := { k.port with
    whose := some iss
    f := { k.port.f with cls := h.cls, cause := h.cause, asid := iss.asid, faddr := BitVec.ofNat 64 h.faddr, frozen := true, age := 0 } } }

section
variable {s q t : State} {i : Instr} {w : Wave} {ad n : Nat} {wr : Bool}

theorem sectorAt_cellFreeze (s : State) (h : Hit) (k : Nat) :
    (s.cellFreeze h).sectorAt k = if k = s.sector then portFrozen (s.sectorAt s.sector) s.issuer h else s.sectorAt k := by
  have hrep (t : State) (f : Flt) : (t.report f).sectorAt = t.sectorAt := rfl
  unfold State.cellFreeze State.portFreeze State.portNote
  simp only [State.sectorAt_modSector, hrep, if_true]
  split <;> rfl

theorem cellFreeze_due (s : State) (h : Hit) : ∃ f, (s.cellFreeze h).due = s.due ++ [f] ∧ f.hit = h ∧ f.src = 2 ∧ f.iss = s.issuer :=
  ⟨_, rfl, rfl, rfl, rfl⟩

theorem quiet_cellFreeze (s : State) (h : Hit) : Quiet s (s.cellFreeze h) := .of_parts rfl

theorem sectorAt_atPortQueue_other (s : State) (front : Bool) {k : Nat} (hk : k ≠ s.sector) :
    (s.atPortQueue front).sectorAt k = s.sectorAt k := by
  unfold State.atPortQueue
  dsimp only
  split
  · rfl
  · rw [State.sectorAt_modSector, if_neg hk]

theorem sectorAt_leavePort_other (s : State) {k : Nat} (hk : k ≠ s.sector) : s.leavePort.sectorAt k = s.sectorAt k := by
  unfold State.leavePort
  split
  · rfl
  · rw [State.sectorAt_modSector, if_neg hk]

theorem me_waitIn (hq : q.Runs) (i : Instr) (a : Option Nat) (d : Nat) :
    (q.waitIn i a d).me = { q.me with wait := some i, arg := a, addr := d, queued := false } :=
  State.me_modMe q _ (fun _ => rfl) hq.1

theorem readG_waitIn (hq : q.Runs) (i : Instr) (a : Option Nat) (d : Nat) (r : Rg) : (q.waitIn i a d).readG r = q.readG r := by
  have hh := State.heldReg_modMe q (fun f => { f with wait := some i, arg := a, addr := d, queued := false }) (·.g) 0
    (fun _ => rfl) (fun _ => rfl) (fun _ => rfl) hq r.toNat
  unfold State.readG State.readReg
  rw [me_waitIn hq]
  exact congrArg (fun x => if r = 0 then 0 else (Tbl.find q.me.keep.g r.toNat).getD x) hh

theorem onlyMe_waitIn (hq : q.Runs) (i : Instr) (a : Option Nat) (d : Nat) : q.OnlyMe (q.waitIn i a d) :=
  State.onlyMe_modMe q _ (fun _ => rfl) hq

/-- An instruction that has begun waits in its access. -/
theorem Begun.waits {b : Bool} (h : Begun s q w b) (hr : s.Runs) (i : Instr) (a : Option Nat) (d : Nat) :
    (q.waitIn i a d).me.wait = some i ∧ (q.waitIn i a d).me.woff = s.me.woff ∧ (∀ r, (q.waitIn i a d).readG r = s.readG r) := by
  have hq := h.runs hr
  obtain ⟨l, hm⟩ := h.me hr
  rw [me_waitIn hq]
  exact ⟨rfl, by rw [hm]; rfl, fun r => (readG_waitIn hq i a d r).trans (h.readG hr r)⟩

theorem modCtx_congr {f g : Ctx → Ctx} (h : f s.ctx = g s.ctx) : s.modCtx f = s.modCtx g := by
  exact congrArg (fun c => s.setCell s.cell { s.cellAt s.cell with run := c }) h

/-- The beginning leaves what the cell has read and learnt. -/
theorem atAccess_seen (hc : Consistent w s.ctx.wave) :
    (atAccess s w wr).ctx.seen = s.ctx.seen ∧ (atAccess s w wr).ctx.know = s.ctx.know ∧ (atAccess s w wr).ctx.floor = s.ctx.floor
      ∧ (atAccess s w wr).ctx.found = s.ctx.found := by
  unfold atAccess
  rw [chained_eq hc]
  cases wr <;> simp only [State.commit, State.ctx_modMe, State.ctx_modCtx, if_true, Bool.false_eq_true, if_false, and_self]

/-- An access that waits at its port has changed nothing but what the port withholds, its firing and the wave. -/
theorem waits_frame (hr : s.Runs) (hc : Consistent w s.ctx.wave) (i : Instr) (a : Option Nat) (d : Nat) (front : Bool) :
    let t := ((atAccess s w wr).atPortQueue front).waitIn i a d
    OnlyMeAndWave { s with sectors := t.sectors } t := by
  intro t
  have hb := (begun_atAccess (wr := wr) hc).quiet (quiet_atPortQueue _ front)
  have ho := onlyMe_waitIn (hb.runs hr) i a d
  have hq := atPortQueue_frame (atAccess s w wr) front
  obtain ⟨cs, hcs⟩ := atAccess_parts (wr := wr) hc
  have hx : ((atAccess s w wr).atPortQueue front).ctx = (atAccess s w wr).ctx :=
    ctx_of_cells (congrArg State.cells hq :) (congrArg State.cell hq :)
  have htx := ctx_of_onlyMe ho
  rw [hx] at htx
  obtain ⟨h1, h2, h3, h4⟩ := atAccess_seen (wr := wr) hc
  have hf := hb.frame ho
  rw [show t.owners = s.owners from (congrArg State.owners hq :).trans (congrArg State.owners hcs :),
    show t.free = s.free from (congrArg State.free hq :).trans (congrArg State.free hcs :),
    show t.wlog = s.wlog from (congrArg State.wlog hq :).trans (congrArg State.wlog hcs :),
    show t.mem = s.mem from (congrArg State.mem hq :).trans (congrArg State.mem hcs :),
    show t.banks = s.banks from (congrArg State.banks hq :).trans (congrArg State.banks hcs :),
    show t.stores = s.stores from (congrArg State.stores hq :).trans (congrArg State.stores hcs :),
    show t.due = s.due from (congrArg State.due hq :).trans (congrArg State.due hcs :),
    show t.dies = s.dies from (congrArg State.dies hq :).trans (congrArg State.dies hcs :),
    show t.ctx.seen = s.ctx.seen from (congrArg Ctx.seen htx :).trans h1,
    show t.ctx.know = s.ctx.know from (congrArg Ctx.know htx :).trans h2,
    show t.ctx.floor = s.ctx.floor from (congrArg Ctx.floor htx :).trans h3,
    show t.ctx.found = s.ctx.found from (congrArg Ctx.found htx :).trans h4] at hf
  refine hf.trans ?_
  rw [modCtx_congr (s := s.modMe fun _ => t.me) (g := fun c => { c with wave := t.ctx.wave, chain := t.ctx.chain })
    (by rw [State.ctx_modMe])]
  rfl

/-- A virtual access of which the port keeps its cell waiting. -/
theorem waitsAtPort (hr : s.Runs) (hc : Consistent w s.ctx.wave) (hw : w.path = 3) (ha : accessOf s i = some (w, ad, n, wr))
    (ht : (atomOf i).isSome = true → s.me.arg = none ∧ noTask s) (hp : ¬ portFree s) :
    ∃ t, exec i s = .next t ∧ t.me.wait = some i ∧ t.me.woff = s.me.woff ∧ (∀ r, t.readG r = s.readG r)
      ∧ s.meAtPort ∈ (t.sectorAt (cellSector s.cell)).port.waits ∧ ButWaits s t ∧ OnlyMeAndWave { s with sectors := t.sectors } t := by
  obtain ⟨α, go, f, he, -⟩ := exec_virtual hr hc hw ha ht
  have hb := begun_atAccess (wr := wr) hc
  obtain ⟨cs, hcs⟩ := atAccess_parts (wr := wr) hc
  have hs : (atAccess s w wr).sectors = s.sectors := (congrArg State.sectors hcs :)
  have hheld : (atAccess s w wr).portHolds = true := by
    rw [← Bool.not_eq_false, hb.portHolds hs]
    exact hp
  obtain ⟨hwait, hwoff, hg⟩ := (hb.quiet (quiet_atPortQueue _ false)).waits hr i none ad
  refine ⟨((atAccess s w wr).atPortQueue false).waitIn i none ad, ?_, hwait, hwoff, hg, ?_, ?_, waits_frame hr hc i none ad false⟩
  · rw [he, viaPort_held hheld]
    rfl
  · have := mem_atPortQueue (atAccess s w wr) false
    rw [hb.meAtPort, hb.sector] at this
    exact this
  · exact butWaits_congr (butWaits_atPortQueue (atAccess s w wr) false) hs rfl

/-- The port frozen by a fault, with the firing at the front of those that it withholds (R89). -/
def heldFrozen (s : State) (h : Hit) : State := (s.cellFreeze h).atPortQueue true

theorem quiet_heldFrozen (s : State) (h : Hit) : Quiet s (heldFrozen s h) :=
  (quiet_cellFreeze s h).trans (quiet_atPortQueue _ true)

theorem fault_heldFrozen (s : State) (h : Hit) :
    ((heldFrozen s h).sectorAt s.sector).port.f = (portFrozen (s.sectorAt s.sector) s.issuer h).port.f := by
  have hb := congrArg (fun k : Sector => k.port.f) (butWaits_atPortQueue (s.cellFreeze h) true s.sector)
  exact hb.trans (by rw [sectorAt_cellFreeze, if_pos rfl])

theorem sectorAt_heldFrozen_other (s : State) (h : Hit) {k : Nat} (hk : k ≠ s.sector) : (heldFrozen s h).sectorAt k = s.sectorAt k := by
  unfold heldFrozen
  rw [sectorAt_atPortQueue_other (s.cellFreeze h) true hk, sectorAt_cellFreeze, if_neg hk]

theorem due_heldFrozen (s : State) (h : Hit) :
    ∃ f, (heldFrozen s h).due = s.due ++ [f] ∧ f.hit = h ∧ f.src = 2 ∧ f.iss = s.issuer := by
  unfold heldFrozen
  rw [atPortQueue_frame]
  exact cellFreeze_due s h

theorem head_heldFrozen {h : Hit} (hn : s.meAtPort ∉ (s.sectorAt s.sector).port.waits) :
    ((heldFrozen s h).sectorAt s.sector).port.waits.head? = some s.meAtPort := by
  refine head_atPortQueue (s := s.cellFreeze h) ?_
  rw [show (s.cellFreeze h).sector = s.sector from rfl, sectorAt_cellFreeze, if_pos rfl]
  exact hn

/-- A virtual access whose translation fails. -/
theorem freezesPort {s1 : State} {h : Hit} (hr : s.Runs) (hc : Consistent w s.ctx.wave) (hw : w.path = 3)
    (ha : accessOf s i = some (w, ad, n, wr)) (ht : (atomOf i).isSome = true → s.me.arg = none ∧ noTask s) (hp : portFree s)
    (hx : (atAccess s w wr).leavePort.pieces (chained s w).issuer ad n wr (State.pieceFuel n) = (s1, .error h)) (h4 : h.cls = 4) :
    ∃ t, exec i s = .next t
      ∧ (t.sectorAt (cellSector s.cell)).port.f.frozen = true ∧ (t.sectorAt (cellSector s.cell)).port.f.cls = 4
      ∧ (t.sectorAt (cellSector s.cell)).port.f.cause = h.cause ∧ (t.sectorAt (cellSector s.cell)).port.f.asid = s.ctx.asid
      ∧ (t.sectorAt (cellSector s.cell)).port.f.faddr.toNat = h.faddr % 2 ^ 64
      ∧ (∃ f, t.due = s.due ++ [f] ∧ f.hit = h ∧ f.src = 2 ∧ f.iss = s.issuer)
      ∧ (t.sectorAt (cellSector s.cell)).port.waits.head? = some s.meAtPort
      ∧ (∀ k, k ≠ cellSector s.cell → t.sectorAt k = s.sectorAt k)
      ∧ t.me.wait = some i ∧ t.me.woff = s.me.woff ∧ (∀ r, t.readG r = s.readG r) ∧ t.nets = s.nets := by
  obtain ⟨α, go, f, he, hgo⟩ := exec_virtual hr hc hw ha ht
  have hb := begun_atAccess (wr := wr) hc
  obtain ⟨cs, hcs⟩ := atAccess_parts (wr := wr) hc
  have hs : (atAccess s w wr).sectors = s.sectors := (congrArg State.sectors hcs :)
  have hleave := hb.quiet (quiet_leavePort _)
  rw [(begun_chained hc).issuer hr, ← hleave.issuer hr] at hx
  have htr : Translates (atAccess s w wr).leavePort s1 := by
    have := translates_pieces (atAccess s w wr).leavePort (atAccess s w wr).leavePort.issuer ad n wr (State.pieceFuel n)
    rwa [hx] at this
  have hb1 := hleave.quiet htr.quiet
  obtain ⟨hwait, hwoff, hg⟩ := (hb1.quiet (quiet_heldFrozen s1 h)).waits hr i none ad
  have hsec1 (k : Nat) : s1.sectorAt k = (atAccess s w wr).leavePort.sectorAt k := by simp only [State.sectorAt, htr.sectors]
  have hport := fault_heldFrozen s1 h
  rw [hb1.sector, hb1.issuer hr] at hport
  have hself (k : Nat) (hk : k ≠ cellSector s.cell) : (heldFrozen s1 h).sectorAt k = s.sectorAt k := by
    rw [sectorAt_heldFrozen_other s1 h (by rw [hb1.sector]; exact hk), hsec1, sectorAt_leavePort_other _ (by rw [hb.sector]; exact hk)]
    simp only [State.sectorAt, hs]
  have hhead : ((heldFrozen s1 h).sectorAt s1.sector).port.waits.head? = some s1.meAtPort := by
    refine head_heldFrozen ?_
    rw [hb1.meAtPort, hb1.sector, hsec1, ← hb.meAtPort, ← hb.sector]
    exact leavePort_waits (atAccess s w wr)
  rw [hb1.meAtPort, hb1.sector] at hhead
  have hdue1 : s1.due = s.due := by
    rw [htr.due, leavePort_frame]
    exact (congrArg State.due hcs :)
  have hdue := due_heldFrozen s1 h
  rw [hdue1, hb1.issuer hr] at hdue
  refine ⟨(heldFrozen s1 h).waitIn i none ad, ?_, ?_, ?_, ?_, ?_, ?_, hdue, hhead, hself, hwait, hwoff, hg,
    (hb1.quiet (quiet_heldFrozen s1 h)).near.nets⟩
  · rw [he, viaPort_free ((hb.portHolds hs).2 hp), portGo_fails (hgo _ _ _ hx) h4]
    rfl
  · exact congrArg EngFault.frozen hport
  · exact (congrArg EngFault.cls hport).trans h4
  · exact congrArg EngFault.cause hport
  · exact congrArg EngFault.asid hport
  · exact (congrArg (fun f : EngFault => f.faddr.toNat) hport).trans (BitVec.toNat_ofNat ..)

end

/-! ### Accesses that raise a class from the cell (R92, R175, R178, R372) -/

/-- A firing that is over without a deposit. -/
def endedFiring (f : Firing) : Firing := { f with ended := true, wait := none, held := [], inbuf := [], taken := [], flags := 0 }

theorem mem_of_settle {r : Regs} {fs : List Firing} {f : Firing} (h : f ∈ (settle r fs).2) : f ∈ fs := by
  induction fs generalizing r with
  | nil => exact h
  | cons x fs ih =>
    rw [settle] at h
    split at h
    · exact List.mem_cons_of_mem _ (ih h)
    · exact h

/-- No firing under an identity goes on once all of them are over. -/
theorem live_eq_false {t : State} (h : ∀ f ∈ t.ctx.firings, f.id = t.fid → f.ended = true) : t.live = false := by
  unfold State.live
  cases hf : firingOf t.ctx.firings t.fid with
  | none => rfl
  | some f =>
    obtain ⟨hm, hid⟩ := firingOf_some hf
    simp [h f hm hid]

section
variable {s q t : State} {i : Instr} {w : Wave} {ad n : Nat} {wr b : Bool}

theorem ctx_endFiring (s : State) : (s.endFiring.ctx.regs, s.endFiring.ctx.firings) = settle s.ctx.regs (replace endedFiring s.fid s.ctx.firings) := by
  rw [State.endFiring, State.ctx_modCtx]
  rfl

/-- A firing that has begun an access raises a class from the cell. -/
theorem Begun.faulted (h : Begun s q w b) (hr : s.Runs) (hp : ∃ c, q = { s with cells := c }) (hit : Hit) :
    Faulted s (q.raiseFrom 0 hit) 0 hit := by
  obtain ⟨c, hq⟩ := hp
  obtain ⟨l, hm⟩ := h.me hr
  have hrun := h.runs hr
  obtain ⟨lk, n, hx⟩ := h.ctx
  have hregs : q.ctx.regs = s.ctx.regs := (congrArg Ctx.regs hx :)
  have hfir : q.ctx.firings = replace (marked lk b) s.fid s.ctx.firings := (congrArg Ctx.firings hx :)
  have hfid := h.near.fid
  have hctx : ((q.raiseFrom 0 hit).ctx.regs, (q.raiseFrom 0 hit).ctx.firings)
      = settle s.ctx.regs (replace (fun x => endedFiring (marked lk b x)) s.fid s.ctx.firings) := by
    rw [show (q.raiseFrom 0 hit).ctx = q.endFiring.ctx from rfl, ctx_endFiring, hregs, hfir, hfid,
      replace_replace _ _ (by exact fun _ => rfl)]
  have hconst : replace (fun x => endedFiring (marked lk b x)) s.fid s.ctx.firings
      = replace (fun _ => endedFiring (marked lk b s.me)) s.fid s.ctx.firings := by
    have := congrArg (fun t : State => t.ctx.firings) (State.modMe_const s (fun x => endedFiring (marked lk b x)) hr)
    simpa only [State.ctx_modMe] using this
  rw [hconst] at hctx
  refine ⟨live_eq_false fun f hf hid => ?_, ⟨endedFiring (marked lk b s.me), ?_, rfl, rfl, rfl, rfl, rfl, hctx⟩, ⟨?_, ?_, ?_, ?_⟩, ?_,
    ⟨?_, ?_, ?_, ?_⟩, fun _ => ?_, fun h2 => absurd h2 (by decide)⟩
  · rw [show (q.raiseFrom 0 hit).ctx.firings = _ from congrArg Prod.snd hctx] at hf
    obtain ⟨x, -, rfl⟩ := List.mem_map.1 (mem_of_settle hf)
    have hid' : (if x.id = s.fid then endedFiring (marked lk b s.me) else x).id = s.fid := hid.trans hfid
    split at hid'
    · rename_i hx
      rw [if_pos hx]
      rfl
    · rename_i hx
      exact absurd hid' hx
  · exact (firingOf_some (State.live_firing hr.1).1).2
  · rw [show (q.raiseFrom 0 hit).due = q.due ++ [{ hit := hit, src := 0, iss := q.issuer, port0 := 0, port1 := 0 }] from rfl, h.issuer hr,
      show q.due = s.due from (congrArg State.due hq :)]
    rfl
  · exact (congrArg State.fidx hq :)
  · exact (congrArg State.mem hq :)
  · exact (congrArg State.nets hq :)
  · exact fun a => congrArg (Mem.read · a) (congrArg State.banks hq :)
  · exact (congrArg State.dies hq :)
  · exact (congrArg State.range hq :)
  · exact (congrArg State.queues hq :)
  · exact (congrArg State.bars hq :)
  · exact (congrArg State.sectors hq :)

/-- A load or store that the map, the bank or the window refuses. -/
theorem exec_refused {h : Hit} (hr : s.Runs) (hc : Consistent w s.ctx.wave) (hw : onChip w) (ha : accessOf s i = some (w, ad, n, wr))
    (hat : atomOf i = none) (ht : wr = true ∨ s.isTake w.path.toNat ad n = false) (hh : s.pathHit w.path.toNat ad n wr = some h) :
    exec i s = .next ((atAccess s w wr).raiseFrom 0 h) := by
  have hb := begun_atAccess (wr := wr) hc
  have h3 : w.path.toNat ≠ 3 := by
    unfold onChip at hw
    omega
  cases wr with
  | false =>
    obtain ⟨acq, f, he⟩ := exec_load hr hc ha (ht.resolve_left Bool.false_ne_true)
    rw [he, State.loadAt, if_neg h3, (begun_chained hc).pathHit hr, hh]
    rfl
  | true =>
    obtain ⟨bs, rel, f, rfl, he⟩ := exec_store hr hc ha hat
    rw [he, State.storeAt, if_neg h3, (begun_chained hc).commit.pathHit hr, hh]
    rfl

theorem shownAddr_path (s : State) (w : Wave) (a : Nat) : s.shownAddr w.path.toNat a
    = if w.path = 0 then a % 2 ^ 16 else if w.path = 3 then a else s.pathAddr w.path.toNat a := by
  have h0 : w.path.toNat = 0 ↔ w.path = 0 := by rw [BitVec.toNat_eq]; rfl
  have h3 : w.path.toNat = 3 ↔ w.path = 3 := by rw [BitVec.toNat_eq]; rfl
  simp only [State.shownAddr, h0, h3]

/-- An atomic whose address is not aligned to its size. -/
theorem exec_misaligned {d a b : Rg} {sb : Bool} {off : W32} (hr : s.Runs) (hc : Consistent w s.ctx.wave)
    (hat : atomOf i = some (n, d, a, b, sb, off, w)) (harg : s.me.arg = none) (hno : noTask s) (hal : at2 s a off % n ≠ 0) :
    exec i s = .next ((atAccess s w true).raiseFrom 0 { cls := 3, aux := n * 2 ^ 32
                                                        faddr := s.shownAddr w.path.toNat (at2 s a off) }) := by
  have hshow : (chained s w).commit.shownAddr w.path.toNat (at2 s a off) = s.shownAddr w.path.toNat (at2 s a off) := by
    simp only [State.shownAddr, (begun_chained hc).commit.pathAddr]
  rw [exec_atom hr hc hat harg hno, State.atomAt, atomOp_n hat, hshow]
  dsimp only
  rw [if_pos hal]
  rfl

end

end Sys2Proof.Laws.MemoryAccess

namespace Sys2Proof
open Machine Claim Laws.MemoryAccess

/-- Settles O22: a failed translation freezes the port that was free, and a port that is not free keeps the access waiting. -/
theorem failedTranslationsFreezeThePort : Obligations.FailedTranslationsFreezeThePort := by
  unfold Obligations.FailedTranslationsFreezeThePort
  intro s i w ad n wr hr hc hw ha ht
  exact ⟨fun s1 h hp hx h4 => freezesPort hr hc hw ha ht hp hx h4, fun hp => waitsAtPort hr hc hw ha ht hp⟩

/-- Settles O21: a refused access raises its class after the wave word is taken, and alignment is checked before the path. -/
theorem accessesRaiseTheirClasses : Obligations.AccessesRaiseTheirClasses := by
  unfold Obligations.AccessesRaiseTheirClasses
  intro s w hr hc
  refine ⟨fun i ad n wr h hw ha hat ht hh => ?refused, fun a n write => if_pos rfl, fun i n d a b sb off hat harg hno hal => ?misaligned⟩
  case refused =>
    exact ⟨_, exec_refused hr hc hw ha hat ht hh, (begun_atAccess hc).faulted hr (atAccess_parts hc) h⟩
  case misaligned =>
    have hshow := shownAddr_path s w (at2 s a off)
    rw [← hshow]
    exact ⟨_, exec_misaligned hr hc hat harg hno hal, (begun_atAccess hc).faulted hr (atAccess_parts hc) _⟩

end Sys2Proof
end

section
/-! SUPPORT. Atomics: what they compute, and what they leave in the memory at which they are performed. -/
namespace Sys2Proof.Laws.MemoryAccess
open Machine Claim

/-! ### What atomics compute (R177, R179) -/

theorem signedN_eq {n v : Nat} (hn : 0 < n) (hv : v < 2 ^ (8 * n)) : toSigned (8 * n) v = signedN n v := by
  unfold toSigned signedN
  rw [Nat.mod_eq_of_lt hv]
  have hp : 2 ^ (8 * n) = 2 * 2 ^ (8 * n - 1) := by
    rw [← Nat.pow_succ']
    congr 1
    omega
  by_cases h : v < 2 ^ (8 * n - 1)
  · rw [if_pos h, if_pos (by omega)]
  · rw [if_neg h, if_neg (by omega)]

section
variable {i : Instr} {n : Nat} {d a b : Rg} {sb : Bool} {off : W32} {w : Wave}

theorem atomOf_size (h : atomOf i = some (n, d, a, b, sb, off, w)) : n = 4 ∨ n = 8 := by
  unfold atomOf at h
  split at h
  case h_13 => cases h
  case h_11 | h_12 =>
    cases h
    exact .inl rfl
  all_goals
    rename_i w64 _ _ _ _ _ _
    cases h
    cases w64
    · exact .inl rfl
    · exact .inr rfl

/-- The new value for an old one (R177, R179). -/
theorem atomOp_f (h : atomOf i = some (n, d, a, b, sb, off, w)) (x y : W64) {old : Nat} (ho : old < 2 ^ (8 * n)) :
    (atomOp i x y).f old = atomNew i n old x.toNat y.toNat := by
  have hn : 0 < n := by rcases atomOf_size h with rfl | rfl <;> decide
  have hx : x.toNat % 2 ^ (8 * n) < 2 ^ (8 * n) := Nat.mod_lt _ (Nat.two_pow_pos _)
  have hso := signedN_eq hn ho
  have hsx := signedN_eq hn hx
  unfold atomOf at h
  split at h
  case h_13 => cases h
  case h_1 | h_7 | h_8 | h_10 =>
    cases h
    rfl
  case h_2 =>
    cases h
    exact congrArg some (Nat.mod_eq_of_lt (Nat.and_lt_two_pow _ hx))
  case h_3 =>
    cases h
    exact congrArg some (Nat.mod_eq_of_lt (Nat.or_lt_two_pow ho hx))
  case h_4 =>
    cases h
    exact congrArg some (Nat.mod_eq_of_lt (Nat.xor_lt_two_pow ho hx))
  case h_5 | h_6 =>
    cases h
    dsimp only [atomNew]
    rw [← hso, ← hsx]
    refine congrArg some (Nat.mod_eq_of_lt ?_)
    beta_reduce
    split
    · assumption
    · assumption
  case h_9 =>
    cases h
    exact congrArg some (Nat.mod_mod ..)
  case h_11 | h_12 =>
    cases h
    have hf : fld x 31 0 = x.toNat % 2 ^ (8 * 4) := by rw [fld, Nat.pow_zero, Nat.div_one]
    unfold atomOp Atomic.float
    dsimp only
    rw [hf]
    rfl

/-- The old value as it returns (R177). -/
theorem atomOp_ext (h : atomOf i = some (n, d, a, b, sb, off, w)) (x y : W64) {old : Nat} (ho : old < 2 ^ (8 * n)) :
    Returned i n old ((atomOp i x y).ext old) := by
  have hn : n ∈ [1, 2, 4, 8] := by rcases atomOf_size h with rfl | rfl <;> decide
  have h64 : old < 2 ^ 64 := Nat.lt_of_lt_of_le ho (by rcases atomOf_size h with rfl | rfl <;> decide)
  have hs := toInt_signed hn ho
  have hu : (BitVec.ofNat 64 old).toNat = old := (BitVec.toNat_ofNat ..).trans (Nat.mod_eq_of_lt h64)
  unfold atomOf at h
  split at h
  case h_13 => cases h
  case h_7 | h_8 | h_11 | h_12 => exact hu
  all_goals
    cases h
    exact hs

/-- Its choice code (R178). -/
theorem atomOp_code (h : atomOf i = some (n, d, a, b, sb, off, w)) (x y r : W64) : (atomOp i x y).code r = atomCode i r := by
  unfold atomOf at h
  split at h
  case h_13 => cases h
  case h_7 | h_8 => exact codeUnsigned_eq r
  case h_11 | h_12 =>
    show codeNum (f32.value (fld r 31 0)) = codeNum (f32.value (r.toNat % 2 ^ 32))
    rw [fld, Nat.pow_zero, Nat.div_one]
  all_goals exact codeSigned_eq r

end

/-! ### Atomics performed (R178, R287, R295) -/

/-- A memory once an atomic has written its new value, where it has one. -/
def atomMem (r : Option Nat) (m : Mem) (a n : Nat) : Mem :=
  match r with
  | some new => Mem.store m a (toBytes n new)
  | none => m

theorem load_atomMem (r : Option Nat) (m : Mem) (a n : Nat) : Mem.load (atomMem r m a n) a n
    = match r with
      | some new => (List.range n).map fun k => BitVec.ofNat 8 (new / 2 ^ (8 * k))
      | none => Mem.load m a n := by
  cases r with
  | none => rfl
  | some new =>
    have h := Mem.load_store_self m a (toBytes n new)
    rw [NodeWork.length_toBytes] at h
    exact h.trans (toBytes_eq n new)

theorem bytesStand_atomMem (r : Option Nat) (m : Mem) (a n : Nat) : BytesStand m (atomMem r m a n) a n := fun c hc => by
  cases r with
  | none => rfl
  | some new => exact Mem.read_store_other m a c _ (by rw [NodeWork.length_toBytes]; exact hc)

section
variable {s q c t : State} {i : Instr} {n : Nat} {d a b : Rg} {sb : Bool} {off : W32} {w : Wave}

theorem atomAs_none {us : List Nat} {acq : Option Nat} {rel : Option Link} {write : State → Option State}
    (h : write (s.readAs us s.version acq) = none) : s.atomAs us acq rel write = s.readAs us s.version acq := by
  unfold State.atomAs
  dsimp only
  rw [h]

theorem atomAs_some {us : List Nat} {acq : Option Nat} {rel : Option Link} {write : State → Option State}
    (h : write (s.readAs us s.version acq) = some t) : s.atomAs us acq rel write = t.wroteNow us true rel := by
  unfold State.atomAs
  dsimp only
  rw [h]

/-- The reading and the writing of an atomic in a bank. -/
theorem atomAs_bank (s : State) (us : List Nat) (acq : Option Nat) (rel : Option Link) (r : Option Nat) (a n : Nat) :
    let t := s.atomAs us acq rel fun u => r.map fun new => { u with banks := Mem.store u.banks a (toBytes n new) }
    Quiet s t ∧ ∃ cs wl, t = { s with cells := cs, wlog := wl, banks := atomMem r s.banks a n } := by
  obtain ⟨cs, wl, hf⟩ : ∃ cs wl, s.readAs us s.version acq = { s with cells := cs, wlog := wl } := ⟨_, _, readAs_frame s us s.version acq⟩
  have hq := quiet_readAs s us s.version acq
  intro t
  cases r with
  | none =>
    rw [show t = _ from atomAs_none rfl]
    exact ⟨hq, cs, wl, hf⟩
  | some new =>
    rw [show t = _ from atomAs_some rfl]
    refine ⟨(hq.trans (.of_parts rfl)).trans (quiet_wroteNow _ us true rel), ?_⟩
    rw [hf]
    exact ⟨_, _, rfl⟩

/-- The reading and the writing of an atomic in the module's memory. -/
theorem atomAs_mem (s : State) (us : List Nat) (acq : Option Nat) (rel : Option Link) (r : Option Nat) (a n : Nat) (cc : Bool) :
    let t := s.atomAs us acq rel fun u => r.map fun new => { u with mem := State.storePieces u.mem (toBytes n new) [(a, n, cc)] }
    Quiet s t ∧ ∃ cs wl, t = { s with cells := cs, wlog := wl, mem := atomMem r s.mem a n } := by
  obtain ⟨cs, wl, hf⟩ : ∃ cs wl, s.readAs us s.version acq = { s with cells := cs, wlog := wl } := ⟨_, _, readAs_frame s us s.version acq⟩
  have hq := quiet_readAs s us s.version acq
  intro t
  cases r with
  | none =>
    rw [show t = _ from atomAs_none rfl]
    exact ⟨hq, cs, wl, hf⟩
  | some new =>
    rw [show t = _ from atomAs_some rfl]
    refine ⟨(hq.trans (.of_parts rfl)).trans (quiet_wroteNow _ us true rel), ?_⟩
    have hone : State.storePieces s.mem (toBytes n new) [(a, n, cc)] = Mem.store s.mem a (toBytes n new) :=
      congrArg (Mem.store s.mem a) (List.take_of_length_le (Nat.le_of_eq (NodeWork.length_toBytes n new)))
    rw [hf]
    show ∃ cs' wl', State.wroteNow { s with cells := cs, wlog := wl, mem := State.storePieces s.mem (toBytes n new) [(a, n, cc)] } us true rel
      = { s with cells := cs', wlog := wl', mem := Mem.store s.mem a (toBytes n new) }
    rw [hone]
    exact ⟨_, _, rfl⟩

/-! #### Stores that the atomic meets are performed first -/

theorem performAll_of_none {p : Late → Bool} (h : ∀ l ∈ s.stores, p l = false) : s.performAll p = s := by
  have h1 : s.stores.filter p = [] := List.filter_eq_nil_iff.2 fun l hl => by simp [h l hl]
  have h2 : (s.stores.filter fun l => !p l) = s.stores := List.filter_eq_self.2 fun l hl => by simp [h l hl]
  rw [State.performAll, h1, h2]
  rfl

theorem owed_of_none {acc : List (Bool × Nat × Nat)} {ls : List Late} (h : ∀ l ∈ ls, (acc.any fun a => l.meets a.1 a.2.1 a.2.2) = false) :
    owed acc ls = [] := by
  induction ls with
  | nil => rfl
  | cons l ls ih =>
    rw [owed, h l List.mem_cons_self]
    exact ih fun x hx => h x (List.mem_cons_of_mem _ hx)

/-- Where no accepted store meets an access, none is performed before it. -/
theorem settleAt_of_none {virt : Bool} {ad : Nat} (h : s.pends virt ad n = false) : s.settleAt virt ad n = s := by
  have hno : owed [(virt, ad, n)] (s.stores.filter s.mine).reverse = [] := owed_of_none fun l hl => by
    obtain ⟨hm, hi⟩ := List.mem_filter.1 (List.mem_reverse.1 hl)
    have := List.any_eq_false.1 h l hm
    simpa [hi] using this
  unfold State.settleAt
  dsimp only
  rw [hno]
  exact performAll_of_none fun _ _ => rfl

theorem performAll_banks (s : State) (p : Late → Bool) : (s.performAll p).banks
    = (s.stores.filter p).foldl (fun m l => if l.virt then m else Mem.store m l.addr l.bytes) s.banks :=
  congrArg State.banks (State.foldl_performOne _ _)

theorem settleAt_banks (ha : ReadsAlike s c) (virt : Bool) (ad n : Nat) : (c.settleAt virt ad n).banks = (s.settleAt virt ad n).banks := by
  unfold State.settleAt
  rw [performAll_banks, performAll_banks, ha.stores, ha.mine, ha.banks]

theorem tally_of_noTask (h : noTask s) (f : Task → Task) : s.tally s.cell s.ctx.net f = s := by
  unfold State.tally
  rw [show s.taskOf s.cell s.ctx.net = none from h]

/-- The end of an atomic that no task logs, as a load. -/
theorem atomDone_eq {k : Atomic} {old : Nat} (h : noTask s) :
    atomDone k d sb s old = .next (((s.writeG d (k.ext old)).choose sb (k.code (k.ext old))).advance 3) := by
  rw [atomDone, tally_of_noTask h]

/-- An aligned atomic that its path lets through to a bank. -/
theorem atomAt_bank {k : Atomic} {path ad : Nat} {acq : Option Nat} {rel : Option Link} (hp : path ≤ 2) (hal : ad % k.n = 0)
    (hlets : path = 0 ∨ s.pathHit path ad k.n true = none) (hbank : faWin (s.pathAddr path ad) = 0) :
    s.atomAt k path ad acq rel = .ok (s.atomBank k (s.pathAddr path ad) acq rel).1 (s.atomBank k (s.pathAddr path ad) acq rel).2 := by
  unfold State.atomAt
  dsimp only
  rw [if_neg (not_not.2 hal), if_neg (by omega)]
  by_cases h0 : path = 0
  · subst h0
    rfl
  · have hw := hlets.resolve_left h0
    rw [State.pathHit, if_neg h0] at hw
    rw [if_neg h0, hw]
    dsimp only
    rw [if_neg (by decide), if_neg (not_not.2 hbank)]

theorem length_load (m : Mem) (ad n : Nat) : ofBytes (Mem.load m ad n) < 2 ^ (8 * n) := by
  have := ofBytes_lt (Mem.load m ad n)
  rwa [Mem.load_length] at this

end

/-! ### Atomics complete (R97, R101, R178) -/

section
variable {s q c t : State} {i : Instr} {n : Nat} {d a b : Rg} {sb : Bool} {off : W32} {w : Wave}

/-- An atomic that has been performed, with an old value, returns it. -/
theorem Begun.atomEnds (h : Begun s q w true) (hr : s.Runs) (hat : atomOf i = some (n, d, a, b, sb, off, w)) (hno : noTask s) (y z : W64)
    {old : Nat} (ho : old < 2 ^ (8 * n)) :
    ∃ x t, atomDone (atomOp i y z) d sb q old = .next t ∧ Returned i n old x
      ∧ LoadEnds s t d x (if sb then some (atomCode i x) else none) w ∧ t.me.commit = true ∧ q.OnlyMe t := by
  refine ⟨(atomOp i y z).ext old, _, atomDone_eq (noTask_begun h hno), atomOp_ext hat y z ho, ?_, h.load_commit hr .., ?_⟩
  · rw [← atomOp_code hat y z]
    exact h.loadEnds hr ..
  · exact (wrote_scalar q (h.runs hr) ..).only

theorem readsAlike_atAccess (hc : Consistent w s.ctx.wave) : ReadsAlike s (atAccess s w true) :=
  (readsAlike_chained hc).trans (readsAlike_commit _)

/-- An atomic in a bank reads and writes after the stores that it meets. -/
theorem atomBank_spec (hat : atomOf i = some (n, d, a, b, sb, off, w)) (c : State) (y z : W64) (ad : Nat) (acq : Option Nat) (rel : Option Link) :
    let m := c.settleAt false ad n
    let old := ofBytes (Mem.load m.banks ad n)
    ∃ q, c.atomBank (atomOp i y z) ad acq rel = (q, old) ∧ Quiet m q
      ∧ ∃ cs wl, q = { m with cells := cs, wlog := wl, banks := atomMem (atomNew i n old y.toNat z.toNat) m.banks ad n } := by
  intro m old
  obtain ⟨hq, hf⟩ := atomAs_bank m (unitsOf false ad n) acq rel ((atomOp i y z).f old) ad n
  have hlt : old < 2 ^ (8 * n) := length_load _ ad n
  rw [atomOp_f hat y z hlt] at hq hf
  refine ⟨_, ?_, hq, hf⟩
  rw [State.atomBank, atomOp_n hat, ← atomOp_f hat y z hlt]

/-- An atomic at one piece of the module's memory reads and writes after the stores that it meets. -/
theorem atomHome_spec (hat : atomOf i = some (n, d, a, b, sb, off, w)) {s1 : State} {dpa ad : Nat} {cc : Bool} {iss : Issuer} (y z : W64)
    (acq : Option Nat) (rel : Option Link) (h9 : vaHome ad ≠ 9 ∨ (atomOp i y z).home9 = true)
    (hp : c.pieces iss ad n true (State.pieceFuel n) = (s1, .ok [(dpa, n, cc)])) :
    let m := s1.settleAt true ad n
    let old := ofBytes (Mem.load m.mem dpa n)
    ∃ q, c.atomHome iss (atomOp i y z) ad acq rel = (q, .ok old) ∧ Quiet m q
      ∧ ∃ cs wl, q = { m with cells := cs, wlog := wl, mem := atomMem (atomNew i n old y.toNat z.toNat) m.mem dpa n } := by
  intro m old
  obtain ⟨hq, hf⟩ := atomAs_mem m (memUnits [(dpa, n, cc)]) acq rel ((atomOp i y z).f old) dpa n cc
  have hlt : old < 2 ^ (8 * n) := length_load _ dpa n
  have hhome : ¬ (vaHome ad = 9 && !(atomOp i y z).home9) = true := by
    rcases h9 with h | h <;> simp [h]
  rw [atomOp_f hat y z hlt] at hq hf
  refine ⟨_, ?_, hq, hf⟩
  rw [State.atomHome, atomOp_n hat, hp]
  dsimp only
  rw [if_neg hhome, ← atomOp_f hat y z hlt, List.flatMap_cons, List.flatMap_nil, List.append_nil]

theorem bankAtomics : BankAtomicsComplete := by
  intro i n d a b sb off w s hat hr hc harg hno hw hbank hlets hal ad m old
  have hb := begun_atAccess (wr := true) hc
  have hlike := readsAlike_atAccess hc
  have hk := atomOp_n hat (s.readG b) (s.readG d)
  have hm : ((atAccess s w true).settleAt false ad n).banks = m.banks := settleAt_banks hlike false ad n
  have hold : ofBytes (Mem.load ((atAccess s w true).settleAt false ad n).banks ad n) = old := by
    rw [hm, ← NodeWork.numberOf_eq]
  obtain ⟨q, hexec, hq, cs, wl, hf⟩ := atomBank_spec hat (atAccess s w true) (s.readG b) (s.readG d) ad i.acqScope
    ((chained s w).commit.relLink i)
  rw [hold] at hexec hf
  rw [hm] at hf
  have hbq := (hb.quiet (performs_settleAt (atAccess s w true) false ad n).quiet).quiet hq
  obtain ⟨x, t, hdone, hret, hend, hcom, ho⟩ := hbq.atomEnds hr hat hno (s.readG b) (s.readG d) (hold ▸ length_load _ ad n)
  have hbanks : t.banks = atomMem (atomNew i n old (s.readG b).toNat (s.readG d).toNat) m.banks ad n := by
    rw [ho]
    exact (congrArg State.banks hf :)
  refine ⟨x, t, ?_, hret, hend, hcom, ?_, ?_, fun hp => ?_⟩
  · have hlets' : w.path.toNat = 0 ∨ (atAccess s w true).pathHit w.path.toNat (at2 s a off) (atomOp i (s.readG b) (s.readG d)).n true = none := by
      rw [hk, hb.pathHit hr]
      exact hlets.imp (fun h => by rw [h]; rfl) id
    have hat' := atomAt_bank (acq := i.acqScope) (rel := (chained s w).commit.relLink i) hw (by rwa [hk]) hlets'
      (by rw [hb.pathAddr]; exact hbank)
    rw [hb.pathAddr, hexec] at hat'
    rw [exec_atom hr hc hat harg hno]
    exact (congrArg (Acc.then · i none (at2 s a off) (atomDone (atomOp i (s.readG b) (s.readG d)) d sb)) hat').trans hdone
  · rw [hbanks]
    exact load_atomMem ..
  · rw [hbanks]
    exact bytesStand_atomMem _ _ _ _
  · have hs : m = s := settleAt_of_none hp
    refine ⟨hs, (hbq.frame ho).trans ?_⟩
    obtain ⟨cs', hcs⟩ := atAccess_parts (wr := true) hc
    have hc' : (atAccess s w true).settleAt false ad n = atAccess s w true :=
      settleAt_of_none ((pends_congr hlike.stores hlike.mine false ad n).trans hp)
    rw [hc', hcs] at hf
    rw [show t.owners = s.owners by rw [ho]; exact (congrArg State.owners hf :), show t.free = s.free by rw [ho]; exact (congrArg State.free hf :),
      show t.sectors = s.sectors by rw [ho]; exact (congrArg State.sectors hf :), show t.mem = s.mem by rw [ho]; exact (congrArg State.mem hf :),
      show t.stores = s.stores by rw [ho]; exact (congrArg State.stores hf :), show t.due = s.due by rw [ho]; exact (congrArg State.due hf :),
      show t.dies = s.dies by rw [ho]; exact (congrArg State.dies hf :)]
    rfl

theorem home9_of (h : vaHome (at2 s a off) ≠ 9 ∨ ∃ v, i = .aadd v d a b sb off w ∨ i = .axchg v d a b sb off w ∨ i = .acas v d a b sb off w)
    (y z : W64) : vaHome (at2 s a off) ≠ 9 ∨ (atomOp i y z).home9 = true :=
  h.imp id fun ⟨v, hv⟩ => by rcases hv with rfl | rfl | rfl <;> rfl

theorem virtualAtomics : VirtualAtomicsComplete := by
  intro i n d a b sb off w s s1 dpa cc hat hr hc harg hno hw hp hal h9 hpieces m old
  have hb := begun_atAccess (wr := true) hc
  have hlike := readsAlike_atAccess hc
  have hk := atomOp_n hat (s.readG b) (s.readG d)
  have hleave := hb.quiet (quiet_leavePort _)
  obtain ⟨cs', hcs⟩ := atAccess_parts (wr := true) hc
  rw [(begun_chained hc).issuer hr, ← hleave.issuer hr] at hpieces
  have htr := pieces_translates hpieces
  have hb1 := hleave.quiet htr.quiet
  have hlike1 := (hlike.trans (readsAlike_leavePort _)).trans htr.readsAlike
  have hold : ofBytes (Mem.load m.mem dpa n) = old := (NodeWork.numberOf_eq _).symm
  obtain ⟨q, hexec, hq, cs, wl, hf⟩ := atomHome_spec hat (s.readG b) (s.readG d) i.acqScope ((chained s w).commit.relLink i)
    (home9_of h9 _ _) hpieces
  rw [show ofBytes (Mem.load (s1.settleAt true (at2 s a off) n).mem dpa n) = old from hold] at hexec hf
  have hbq := (hb1.quiet (performs_settleAt s1 true (at2 s a off) n).quiet).quiet hq
  obtain ⟨x, t, hdone, hret, hend, hcom, ho⟩ := hbq.atomEnds hr hat hno (s.readG b) (s.readG d) (hold ▸ length_load _ dpa n)
  have hmem : t.mem = atomMem (atomNew i n old (s.readG b).toNat (s.readG d).toNat) m.mem dpa n := by
    rw [ho]
    exact (congrArg State.mem hf :)
  refine ⟨x, t, ?_, hret, hend, hcom, ?_, ?_, ?_, fun hpend => ?_⟩
  · have hfree := (hb.portHolds (congrArg State.sectors hcs :)).2 hp
    have hvia : (atAccess s w true).viaPort (fun u => u.atomHome u.issuer (atomOp i (s.readG b) (s.readG d)) (at2 s a off) i.acqScope
        ((chained s w).commit.relLink i)) = .ok q old := (viaPort_free hfree).trans (portGo_ok hexec)
    rw [exec_atom hr hc hat harg hno, State.atomAt, hk, hw]
    dsimp only
    rw [if_neg (not_not.2 hal)]
    exact (congrArg (Acc.then · i none (at2 s a off) (atomDone (atomOp i (s.readG b) (s.readG d)) d sb)) hvia).trans hdone
  · rw [hmem]
    exact load_atomMem ..
  · rw [hmem]
    exact bytesStand_atomMem _ _ _ _
  · rw [ho]
    exact (congrArg State.banks hf :)
  · have hm : m = s1 := settleAt_of_none ((pends_congr hlike1.stores hlike1.mine true _ n).trans hpend)
    rw [hm]
    exact ⟨hlike1.mem, hlike1.banks⟩

end

end Sys2Proof.Laws.MemoryAccess

namespace Sys2Proof
open Machine Claim Laws.MemoryAccess

/-- Settles O20: an atomic reads and writes after the stores that it meets, in a bank and at the memory that translation gives. -/
theorem atomicsComplete : Obligations.AtomicsComplete := by
  unfold Obligations.AtomicsComplete
  exact ⟨bankAtomics, virtualAtomics⟩

end Sys2Proof
end

section
/-! SUPPORT. Firings that wait: what a flush performs, what an acquire learns, and how a withheld load, a fence, a `bar` and a take of
a granted block go on. -/
namespace Sys2Proof.Laws.MemoryAccess
open Machine Claim

/-! ### A flush performs what the cell has accepted (R285, R291, R397) -/

section
variable {s q t r : State} {i : Instr} {w : Wave}

theorem storePoison_congr (h : t.owners = s.owners) (ps : List (Nat × Nat × Bool)) : t.storePoison ps = s.storePoison ps := by
  unfold State.storePoison State.poisoned State.ownerAt
  rw [h]

theorem performOne_mem (s : State) (l : Late) : (s.performOne l).mem
    = if l.virt = true ∧ s.storePoison l.parts = none then State.storePieces s.mem l.bytes l.parts else s.mem := by
  by_cases h : l.virt = true → s.storePoison l.parts = none
  · rw [State.performOne_mem s l h]
    by_cases hv : l.virt = true
    · rw [if_pos hv, if_pos ⟨hv, h hv⟩]
    · rw [if_neg hv, if_neg fun hx => hv hx.1]
  · obtain ⟨hv, hp⟩ := Classical.not_imp.1 h
    obtain ⟨dpa, hd⟩ := Option.ne_none_iff_exists'.1 hp
    obtain ⟨x, fl, he⟩ := performOne_poisoned s hv hd
    rw [he, if_neg fun hx => hp hx.2]
    rfl

theorem performOne_owners (s : State) (l : Late) : (s.performOne l).owners = s.owners := by
  have h := State.performOne_eq s l
  exact (congrArg State.owners h :)

theorem foldl_performOne_mem (x s : State) (ls : List Late) (hx : x.owners = s.owners) : (ls.foldl State.performOne x).mem
    = ls.foldl (fun m l => if l.virt = true ∧ s.storePoison l.parts = none then State.storePieces m l.bytes l.parts else m) x.mem := by
  induction ls generalizing x with
  | nil => rfl
  | cons l ls ih =>
    rw [List.foldl_cons, List.foldl_cons, ih _ ((performOne_owners x l).trans hx), performOne_mem, storePoison_congr hx]

theorem performed_flush (s : State) : Performed s s.flush :=
  ⟨State.flush_stores s, State.flush_banks s, foldl_performOne_mem _ s _ rfl⟩

/-- The same memory, and the same accepted stores. -/
structure MemSame (s t : State) : Prop where
  stores : t.stores = s.stores
  mem    : t.mem = s.mem
  banks  : t.banks = s.banks

theorem MemSame.trans (h : MemSame s t) (h' : MemSame t r) : MemSame s r :=
  ⟨h'.stores.trans h.stores, h'.mem.trans h.mem, h'.banks.trans h.banks⟩

theorem performed_before (h : MemSame s t) (hm : t.mine = s.mine) (ho : t.owners = s.owners) (hp : Performed t r) : Performed s r := by
  obtain ⟨h1, h2, h3⟩ := hp
  rw [h.stores, hm] at h1 h2 h3
  rw [h.banks] at h2
  rw [h.mem] at h3
  simp only [storePoison_congr ho] at h3
  exact ⟨h1, h2, h3⟩

theorem performed_after (hp : Performed s t) (h : MemSame t r) : Performed s r :=
  ⟨h.stores.trans hp.1, h.banks.trans hp.2.1, h.mem.trans hp.2.2⟩

/-- What an instruction that makes no access asks before it takes effect: a flush, or nothing of memory. -/
theorem order_memory (h : s.offChain i = false) (hi : i.accesses = false) :
    if (i.releases || (s.relScopeOf i).isSome) = true then MemSame s.flush (s.order i) else MemSame s (s.order i) := by
  have hp : performedFor s i = if (i.releases || (s.relScopeOf i).isSome) = true then s.flush else s := by
    unfold performedFor
    rw [hi, Bool.and_false]
    rfl
  have hsame : MemSame (performedFor s i) (s.order i) := by
    rw [order_of_onChain s h]
    cases i.acqScope <;> exact ⟨rfl, rfl, rfl⟩
  rw [hp] at hsame
  split
  · rename_i hf
    rwa [if_pos hf] at hsame
  · rename_i hf
    rwa [if_neg hf] at hsame

/-- A flush once the instruction has its order leaves nothing that the cell had accepted. -/
theorem performed_order_flush (h : s.offChain i = false) (hi : i.accesses = false) : Performed s (s.order i).flush := by
  have hord := performs_order s i
  have hm := order_memory h hi
  split at hm
  · have hp := performed_after (performed_flush s) hm
    rw [State.flush_of_none]
    · exact hp
    · intro l hl
      rw [hp.1] at hl
      rw [hord.quiet.same.mine]
      simpa using (List.mem_filter.1 hl).2
  · exact performed_before hm hord.quiet.same.mine hord.owners (performed_flush _)

/-! ### What an acquire learns (R290) -/

theorem get_mergeKnow_right (t u : Tbl Nat) : ∀ e ∈ u, e.2 ≤ Tbl.get 0 (mergeKnow t u) e.1 := by
  unfold mergeKnow
  induction u generalizing t with
  | nil => simp
  | cons x u ih =>
    intro e he
    rcases List.mem_cons.1 he with rfl | he
    · refine Nat.le_trans ?_ (get_mergeKnow (addKnow t e.1 e.2) u e.1)
      rw [get_addKnow, if_pos rfl]
      exact Nat.le_max_right _ _
    · exact ih _ e he

theorem learn_le {ls : List Link} (c : Ctx) {l : Link} (h : l ∈ ls) :
    l.floor ≤ (ls.foldl Ctx.learn c).floor ∧ ∀ e ∈ l.know, e.2 ≤ Tbl.get 0 (ls.foldl Ctx.learn c).know e.1 := by
  induction ls generalizing c with
  | nil => cases h
  | cons x ls ih =>
    rcases List.mem_cons.1 h with rfl | h
    · have hg := Grows.learn (c.learn l) ls
      exact ⟨(Nat.le_max_right _ _).trans hg.floor, fun e he => (get_mergeKnow_right _ _ e he).trans (hg.know e.1)⟩
    · exact ih _ h

theorem learnt_observe (s : State) (scope : Nat) {ls : List Link} {l : Link} (h : l ∈ ls) : Learnt (s.observe scope ls).ctx s.cell scope l :=
  fun hr => by
    rw [State.observe, State.ctx_modCtx]
    exact learn_le s.ctx (List.mem_filter.2 ⟨h, hr⟩)

/-! ### Firings that wait go on (R173, R381) -/

theorem sameFirings_trans (h : SameFirings s t) (h' : SameFirings t r) : SameFirings s r :=
  ⟨h'.cell.trans h.cell, h'.fid.trans h.fid, h'.firings.trans h.firings, h'.regs.trans h.regs, h'.flags.trans h.flags,
    h'.net.trans h.net, h'.asid.trans h.asid, h'.trans.trans h.trans⟩

/-- An instruction that writes no register ends, in a firing that is as it was. -/
theorem SameFirings.advanced (h : SameFirings s q) (hr : s.Runs) :
    (q.advance 3).me.woff = s.me.woff + 3 ∧ (q.advance 3).me.wait = none ∧ ∀ r, (q.advance 3).readG r = s.heldG r := by
  have hq := h.runs hr
  have hme : (q.advance 3).me = gone 3 q.clock q.me := State.me_modMe q (gone 3 q.clock) (fun _ => rfl) hq.1
  rw [hme, h.me]
  exact ⟨rfl, rfl, fun r => (State.readG_advance q 3 hq r).trans (h.heldG r)⟩

theorem ctx_advance (q : State) (n : Nat) : ∃ fs, (q.advance n).ctx = { q.ctx with firings := fs } :=
  ⟨_, by rw [State.advance_eq, State.ctx_modMe]⟩

theorem floor_advance (q : State) (n : Nat) : (q.advance n).ctx.floor = q.ctx.floor := by
  obtain ⟨fs, h⟩ := ctx_advance q n
  exact (congrArg Ctx.floor h :)

theorem waits_of_released (h : s.released = some i) : s.me.wait = some i := by
  unfold State.released at h
  split at h
  · rename_i hw
    split at h
    · cases h
    · cases h
      exact hw
  · cases h

theorem offChain_of_released (h : s.released = some i) (j : Instr) : s.offChain j = false := by
  unfold State.offChain
  rw [waits_of_released h]
  rfl

theorem exec_accessReply {cell fid : Nat} (h : (s.focus cell fid).released = some i) (hi : i.accesses = true) :
    exec (.accessReply cell fid) s = retry i ((s.focus cell fid).order i) := by
  show execAccessReply cell fid s = _
  unfold execAccessReply
  dsimp only
  rw [h]
  dsimp only
  rw [if_pos hi]
  rfl

theorem exec_conditionWaitEnd {cell fid : Nat} (h : (s.focus cell fid).released = some i) (hi : i.accesses = false) :
    exec (.conditionWaitEnd cell fid) s = retry i ((s.focus cell fid).order i) := by
  show execConditionWaitEnd cell fid s = _
  unfold execConditionWaitEnd
  dsimp only
  rw [h]
  dsimp only
  rw [hi]
  rfl

/-- A virtual load that its port withheld, once the port can perform it. -/
theorem accessReply_load {cell fid : Nat} {tc : BitVec 4} {d a : Rg} {sb : Bool} {off : W32} {s1 : State} {ps : List (Nat × Nat × Bool)}
    (hr : (s.focus cell fid).Runs) (h : (s.focus cell fid).released = some (.ld tc d a sb off w)) (hw : w.path = 3)
    (h1 : 1 ≤ tc.toNat) (h7 : tc.toNat ≤ 7) (hp : portFree (s.focus cell fid))
    (hx : ((s.focus cell fid).order (.ld tc d a sb off w)).leavePort.pieces ((s.focus cell fid).order (.ld tc d a sb off w)).issuer
      (at2 ((s.focus cell fid).order (.ld tc d a sb off w)) a off) (accBytes tc) false (State.pieceFuel (accBytes tc)) = (s1, .ok ps)) :
    let r := (s.focus cell fid).order (.ld tc d a sb off w)
    ∃ ver x t, exec (.accessReply cell fid) s = .next t ∧ Extended tc (numberOf (virtBytes r (at2 r a off) ver ps)) x
      ∧ MayRead r (memUnits ps) ver
      ∧ t.readG d = (if d = 0 then 0 else x) ∧ (∀ r, r ≠ d → t.readG r = (s.focus cell fid).heldG r)
      ∧ t.me.woff = (s.focus cell fid).me.woff + 3 ∧ t.me.wait = none ∧ t.mem = r.mem ∧ t.banks = r.banks := by
  intro r
  have hord : Performs (s.focus cell fid) r := performs_order _ _
  obtain ⟨ver, q, hq, hm, hl, hv⟩ := viaPort_loadVirt (Instr.ld tc d a sb off w).acqScope (portHolds_eq_false.2 (hord.portFree.2 hp)) hx
  have hsame := sameFirings_trans hord.quiet.same hv.quiet.same
  have hload : r.loadAt w.path.toNat (at2 r a off) (tcBytes tc) (Instr.ld tc d a sb off w).acqScope
      = .ok q (virtBytes r (at2 r a off) ver ps) := by
    rw [hw, (type_table tc h1 h7).1]
    exact hq
  obtain ⟨x, hxv⟩ : ∃ x, x = extend tc (ofBytes (virtBytes r (at2 r a off) ver ps)) := ⟨_, rfl⟩
  have hwr := wrote_scalar q (hsame.runs hr) d x (codeTyped tc x) sb 3
  refine ⟨ver, x, _, ?_, hxv ▸ extended_extend h1 h7 hl, hm, hwr.dest, fun g hg => (hwr.others g hg).trans (hsame.heldG g), ?_,
    hwr.place.2, ?_, ?_⟩
  · rw [exec_accessReply h rfl, show retry (.ld tc d a sb off w) r = ldBody tc d a sb off w r from rfl, ldBody, hxv]
    exact loadG_ok (not_isTake_virtual _ hw ..) hload
  · rw [hwr.place.1, hsame.me]
  · rw [hwr.only]
    exact hv.mem
  · rw [hwr.only]
    exact hv.banks

theorem performs_acquired (s : State) (scope : Nat) (ls : List Link) : Performs s ((s.observe scope ls).meetShown scope) :=
  (performs_observe s scope ls).trans (performs_meetShown _ scope)

/-- What a `fence.full` sees before it acquires (R294). -/
theorem performs_fenced (s : State) (scope : Nat) : Performs s ((s.fenceOwn scope).meetFenced scope) := by
  have h : Performs s (s.fenceOwn scope) := ⟨.of_parts rfl, .refl _, .of_sectors rfl, rfl, rfl, rfl⟩
  exact h.trans ⟨quiet_meetFenced _ scope, grows_meetFenced _ scope, .of_sectors rfl, rfl, rfl, rfl⟩

theorem memSame_fenced (s : State) (scope : Nat) (ls : List Link) :
    MemSame s (((((s.fenceOwn scope).meetFenced scope).observe scope ls).meetShown scope).advance 3) := ⟨rfl, rfl, rfl⟩

/-- What a fence that waited does, once it goes on from a state whose firing is as it was. -/
theorem fence_goesOn {cell fid : Nat} (hr : (s.focus cell fid).Runs) (h : SameFirings (s.focus cell fid) q)
    (hf : (s.focus cell fid).ctx.floor ≤ q.ctx.floor) :
    (q.advance 3).me.woff = (s.focus cell fid).me.woff + 3 ∧ (q.advance 3).me.wait = none
      ∧ (∀ r, (q.advance 3).readG r = (s.focus cell fid).heldG r) ∧ (s.focus cell fid).ctx.floor ≤ (q.advance 3).ctx.floor := by
  obtain ⟨hwoff, hwait, hg⟩ := h.advanced hr
  exact ⟨hwoff, hwait, hg, by rw [floor_advance]; exact hf⟩

/-- A fence that waited. -/
theorem conditionWaitEnd_fence {cell fid : Nat} (hr : (s.focus cell fid).Runs) (h : (s.focus cell fid).released = some (.fenceAcq w)
      ∨ (s.focus cell fid).released = some (.fenceRel w) ∨ (s.focus cell fid).released = some (.fenceFull w)) :
    ∃ t, exec (.conditionWaitEnd cell fid) s = .next t ∧ t.me.woff = (s.focus cell fid).me.woff + 3 ∧ t.me.wait = none
      ∧ (∀ r, t.readG r = (s.focus cell fid).heldG r) ∧ (s.focus cell fid).ctx.floor ≤ t.ctx.floor
      ∧ ((s.focus cell fid).released ≠ some (.fenceAcq w) → Performed (s.focus cell fid) t) := by
  rcases h with h | h | h
  · have hq := (performs_order (s.focus cell fid) (.fenceAcq w)).trans (performs_acquired _ w.scope.toNat
      (((s.focus cell fid).order (.fenceAcq w)).me.sync ++ ((s.focus cell fid).order (.fenceAcq w)).ctx.found))
    obtain ⟨hwoff, hwait, hg, hf⟩ := fence_goesOn hr hq.quiet.same hq.grows.floor
    exact ⟨_, exec_conditionWaitEnd h rfl, hwoff, hwait, hg, hf, fun hn => absurd h hn⟩
  · have hq := (performs_order (s.focus cell fid) (.fenceRel w)).trans (performs_flush _)
    have hrel (t : State) (n : Nat) : SameFirings t (t.modCtx fun c => { c with asRel := max c.asRel n })
        ∧ (t.modCtx fun c => { c with asRel := max c.asRel n }).ctx.floor = t.ctx.floor := by
      rw [State.ctx_modCtx]
      refine ⟨⟨rfl, rfl, ?_, ?_, ?_, ?_, ?_, ?_⟩, rfl⟩ <;> rw [State.ctx_modCtx]
    obtain ⟨hsame, hfloor⟩ := hrel ((s.focus cell fid).order (.fenceRel w)).flush (w.scope.toNat + 1)
    obtain ⟨hwoff, hwait, hg, hf⟩ := fence_goesOn hr (sameFirings_trans hq.quiet.same hsame) (hfloor ▸ hq.grows.floor)
    exact ⟨_, exec_conditionWaitEnd h rfl, hwoff, hwait, hg, hf, fun _ =>
      performed_after (performed_order_flush (offChain_of_released h _) rfl) ⟨rfl, rfl, rfl⟩⟩
  · have hq := (((performs_order (s.focus cell fid) (.fenceFull w)).trans (performs_flush _)).trans (performs_fenced _ w.scope.toNat)).trans
      (performs_acquired _ w.scope.toNat ((s.focus cell fid).order (.fenceFull w)).me.sync)
    obtain ⟨hwoff, hwait, hg, hf⟩ := fence_goesOn hr hq.quiet.same hq.grows.floor
    exact ⟨_, exec_conditionWaitEnd h rfl, hwoff, hwait, hg, hf, fun _ =>
      performed_after (performed_order_flush (offChain_of_released h _) rfl) (memSame_fenced _ w.scope.toNat _)⟩

/-- A `bar` whose phase is complete. -/
theorem conditionWaitEnd_bar {cell fid : Nat} {id : BitVec 4} {n : BitVec 12} {phase : Nat} (hr : (s.focus cell fid).Runs)
    (h : (s.focus cell fid).released = some (.bar id n w)) (harg : (s.focus cell fid).me.arg = some phase)
    (hphase : (s.barAt (barKey (s.focus cell fid).ctx.net w.scope.toNat cell id.toNat)).phase ≠ phase) :
    ∃ t, exec (.conditionWaitEnd cell fid) s = .next t ∧ t.me.woff = (s.focus cell fid).me.woff + 3 ∧ t.me.wait = none
      ∧ (∀ r, t.readG r = (s.focus cell fid).heldG r) ∧ Performed (s.focus cell fid) t
      ∧ ∀ l, l ∈ Tbl.get [] (s.barAt (barKey (s.focus cell fid).ctx.net w.scope.toNat cell id.toNat)).done phase
            ∨ l ∈ (s.focus cell fid).me.sync → Learnt t.ctx cell w.scope.toNat l := by
  have ho := performs_order (s.focus cell fid) (.bar id n w)
  have hmem := order_memory (i := .bar id n w) (offChain_of_released h _) rfl
  rw [if_pos (by rfl)] at hmem
  have hme := ho.quiet.same.me
  have hbar : ((s.focus cell fid).order (.bar id n w)).barAt (barKey ((s.focus cell fid).order (.bar id n w)).ctx.net w.scope.toNat
      ((s.focus cell fid).order (.bar id n w)).cell id.toNat) = s.barAt (barKey (s.focus cell fid).ctx.net w.scope.toNat cell id.toNat) := by
    rw [ho.quiet.same.net, ho.quiet.near.cell, State.barAt, ho.quiet.near.bars]
    rfl
  obtain ⟨ls, hls⟩ : ∃ ls, ls = Tbl.get [] (s.barAt (barKey (s.focus cell fid).ctx.net w.scope.toNat cell id.toNat)).done phase
      ++ (s.focus cell fid).me.sync := ⟨_, rfl⟩
  have hq := ho.trans (performs_observe _ w.scope.toNat ls)
  obtain ⟨hwoff, hwait, hg⟩ := hq.quiet.same.advanced hr
  refine ⟨_, ?_, hwoff, hwait, hg, performed_after (performed_flush _) (hmem.trans ⟨rfl, rfl, rfl⟩), fun l hl => ?_⟩
  · rw [exec_conditionWaitEnd h rfl]
    show barRetry id n w ((s.focus cell fid).order (.bar id n w)) = _
    unfold barRetry
    dsimp only
    rw [hme, harg, hbar, hls]
    dsimp only
    rw [if_neg hphase]
  · have hlearn := learnt_observe ((s.focus cell fid).order (.bar id n w)) w.scope.toNat (ls := ls) (l := l)
      (hls ▸ List.mem_append.2 hl)
    obtain ⟨fs, hctx⟩ := ctx_advance (((s.focus cell fid).order (.bar id n w)).observe w.scope.toNat ls) 3
    rw [ho.quiet.near.cell] at hlearn
    rw [hctx]
    exact hlearn

theorem waitingFirings : Claim.WaitingFiringsGoOn := by
  intro s cell fid hr
  exact ⟨fun tc d a sb off w s1 ps h hw h1 h7 hp hx => accessReply_load hr h hw h1 h7 hp hx, fun w h => conditionWaitEnd_fence hr h,
    fun id n w phase h harg hphase => conditionWaitEnd_bar hr h harg hphase⟩

end

/-! ### The take of a granted block (R112, R333) -/

section
variable {s t : State} {cell fid : Nat} {tc : BitVec 4} {d : Rg} {sb : Bool}

/-- A waiting take, as the end of its clock serves it. -/
theorem exec_blockTake (hr : (s.focus cell fid).Runs) (ht : takes (s.focus cell fid) tc d sb)
    (ha : (s.sectorAt (faSector (s.focus cell fid).me.addr)).added ≠ s.clock + 1) :
    exec (.blockTake cell fid) s = match (s.focus cell fid).takeBlock (faSector (s.focus cell fid).me.addr) with
      | none => .next (s.askRefill (faSector (s.focus cell fid).me.addr))
      | some (b, t) => .next (((t.writeG d (b.setWidth 64)).choose sb (codeTyped tc (b.setWidth 64))).advance 3) := by
  obtain ⟨w, hp, hwait, htake⟩ := ht
  have hpath : (decide (w.path = 1) || decide (w.path = 2)) = true := by simpa using hp
  have hgo : (!(s.focus cell fid).live || !(s.focus cell fid).isTake 2 (s.focus cell fid).me.addr (tcBytes tc)
      || decide (((s.focus cell fid).sectorAt (faSector (s.focus cell fid).me.addr)).added = (s.focus cell fid).clock + 1)) = false := by
    rw [hr.1, htake]
    exact decide_eq_false ha
  show execBlockTake cell fid s = _
  unfold execBlockTake
  dsimp only
  rcases hwait with ⟨a, off, h⟩ | ⟨a, b, off, h⟩
  all_goals
    rw [h]
    dsimp only
    rw [if_pos hpath, hgo]
    rfl

theorem sectorAt_askRefill (s : State) (k j : Nat) : (s.askRefill k).sectorAt j = s.sectorAt j := by
  unfold State.askRefill
  split <;> rfl

theorem mem_askRefill (s : State) (k : Nat) : k ∈ (s.askRefill k).mgmt.refills := by
  unfold State.askRefill
  split
  · rename_i h
    exact List.contains_iff_mem.1 h
  · exact List.mem_append.2 (.inr List.mem_cons_self)

/-- What the sector keeps once its lowest grant is taken. -/
def afterTake (s : State) (k : Nat) (bs : List (BitVec 28)) : State :=
  if bs.length < 4 then (s.modSector k fun x => { x with blocks := bs }).askRefill k else s.modSector k fun x => { x with blocks := bs }

theorem afterTake_frame (s : State) (k : Nat) (bs : List (BitVec 28)) :
    afterTake s k bs = { s with sectors := (afterTake s k bs).sectors, mgmt := (afterTake s k bs).mgmt } := by
  unfold afterTake State.askRefill
  split
  · split <;> rfl
  · rfl

theorem sectorAt_afterTake (s : State) (k j : Nat) (bs : List (BitVec 28)) :
    (afterTake s k bs).sectorAt j = if j = k then { s.sectorAt k with blocks := bs } else s.sectorAt j := by
  unfold afterTake
  split
  · rw [sectorAt_askRefill, State.sectorAt_modSector]
  · rw [State.sectorAt_modSector]

theorem same_afterTake (s : State) (k : Nat) (bs : List (BitVec 28)) : SameFirings s (afterTake s k bs) := by
  have h := afterTake_frame s k bs
  have hc : (afterTake s k bs).ctx = s.ctx := ctx_of_cells (congrArg State.cells h :) (congrArg State.cell h :)
  exact ⟨(congrArg State.cell h :), (congrArg State.fid h :), by rw [hc], by rw [hc], by rw [hc], by rw [hc], by rw [hc], by rw [hc]⟩

theorem blockTakes : BlockTakesAreServed := by
  intro s cell fid tc d sb hr ht k ha
  have hexec := exec_blockTake hr ht ha
  refine ⟨fun b bs hb => ?taken, fun hb => ?waits⟩
  case taken =>
    have htake : (s.focus cell fid).takeBlock k = some (b, afterTake (s.focus cell fid) k bs) := by
      unfold State.takeBlock
      rw [show ((s.focus cell fid).sectorAt k).blocks = b :: bs from hb]
      rfl
    rw [htake] at hexec
    have hs := same_afterTake (s.focus cell fid) k bs
    have hf := afterTake_frame (s.focus cell fid) k bs
    have hw := wrote_scalar (afterTake (s.focus cell fid) k bs) (hs.runs hr) d (b.setWidth 64) (codeTyped tc (b.setWidth 64)) sb 3
    refine ⟨_, hexec, ?_, fun r hne => (hw.others r hne).trans (hs.heldG r), ?_, fun j hj => ?_, fun hlt => ?_, ?_, hw.place.2, ?_, ?_⟩
    · rw [hw.dest, BitVec.ofNat_toNat]
    · rw [hw.only]
      exact congrArg Sector.blocks ((sectorAt_afterTake (s.focus cell fid) k k bs).trans (if_pos rfl))
    · rw [hw.only]
      exact (sectorAt_afterTake (s.focus cell fid) k j bs).trans (if_neg hj)
    · rw [hw.only]
      show k ∈ (afterTake (s.focus cell fid) k bs).mgmt.refills
      rw [afterTake, if_pos hlt]
      exact mem_askRefill _ k
    · rw [hw.place.1, hs.me]
    · rw [hw.only]
      exact (congrArg State.mem hf :)
    · rw [hw.only]
      exact (congrArg State.banks hf :)
  case waits =>
    have htake : (s.focus cell fid).takeBlock k = none := by
      unfold State.takeBlock
      rw [show ((s.focus cell fid).sectorAt k).blocks = [] from hb]
    rw [htake] at hexec
    refine ⟨_, hexec, mem_askRefill s k, ?_⟩
    unfold State.askRefill
    split <;> rfl

end

end Sys2Proof.Laws.MemoryAccess

namespace Sys2Proof
open Machine Claim Laws.MemoryAccess

/-- Settles O25: a take is served from the lowest slot, and a firing that waits goes on from the order of its instruction. -/
theorem waitingFiringsGoOn : Obligations.WaitingFiringsGoOn := by
  unfold Obligations.WaitingFiringsGoOn
  exact ⟨blockTakes, waitingFirings⟩

end Sys2Proof
end

section
/-! SUPPORT. What the management cluster and the network interface do: records of rings, boot, block grants, timers, evidence,
plug-ins and the host link. -/
namespace Sys2Proof.Laws.Management
open Machine Claim Laws.MemoryAccess

/-! ### Records of rings (R334, R418) -/

section
variable {s t : State}

/-- A write with a release changes translation's parts, memory and the log of writes. -/
theorem releaseVirt_frame (s : State) (iss : Issuer) (va : Nat) (bs : List Byte) (scope : Nat) :
    ∃ o f m wl, (s.releaseVirt iss va bs scope).1 = { s with owners := o, free := f, mem := m, wlog := wl } := by
  have h := (translates_pieces s iss va bs.length true (State.pieceFuel bs.length)).frame
  unfold State.releaseVirt
  split
  · rename_i heq
    rw [heq] at h
    exact ⟨_, _, s.mem, s.wlog, h⟩
  · rename_i s1 ps heq
    rw [heq] at h
    obtain ⟨o, f, rfl⟩ : ∃ o f, s1 = { s with owners := o, free := f } := ⟨_, _, h⟩
    exact ⟨o, f, _, _, rfl⟩

theorem ringRecord_frame (s : State) (base : W64) (ix : RingIdx) (ws : List W64) :
    ∃ o f m wl, (s.ringRecord base ix ws).1 = { s with owners := o, free := f, mem := m, wlog := wl } := by
  unfold State.ringRecord
  dsimp only
  split
  · exact ⟨s.owners, s.free, s.mem, s.wlog, rfl⟩
  · have h := releaseVirt_frame s (State.Issuer.plain Config.firmAsid)
      (fld base 63 12 * 4096 + 64 * (ix.widx % 2 ^ fld base 4 0)) (State.wordBytes ws) 5
    split <;> (rename_i heq; rw [heq] at h; exact h)

theorem sysEvent_eq (s : State) (event port detail : Nat) :
    s.sysEvent event port detail =
      let r := s.ringRecord s.fring s.fidx
        [BitVec.ofNat 64 (3 * 2 ^ 56 + event % 256 * 2 ^ 48 + port % 256 * 2 ^ 40), BitVec.ofNat 64 detail, 0, 0, 0, 0, 0, 0]
      { r.1 with fidx := r.2 } := rfl

theorem reclaimRing_eq (s : State) (die : Nat) (ws : List W64) :
    s.reclaimRing die ws =
      let r := s.ringRecord (s.dieAt die).rring (s.dieAt die).ridx ws
      r.1.modDie die fun d => { d with ridx := r.2 } := rfl

/-- A system event changes translation's parts, memory, the log of writes and the fault ring's indices. -/
theorem sysEvent_frame (s : State) (event port detail : Nat) :
    ∃ o f m wl ix, s.sysEvent event port detail = { s with owners := o, free := f, mem := m, wlog := wl, fidx := ix } := by
  obtain ⟨o, f, m, wl, h⟩ := ringRecord_frame s s.fring s.fidx
    [BitVec.ofNat 64 (3 * 2 ^ 56 + event % 256 * 2 ^ 48 + port % 256 * 2 ^ 40), BitVec.ofNat 64 detail, 0, 0, 0, 0, 0, 0]
  refine ⟨o, f, m, wl, (s.ringRecord s.fring s.fidx
    [BitVec.ofNat 64 (3 * 2 ^ 56 + event % 256 * 2 ^ 48 + port % 256 * 2 ^ 40), BitVec.ofNat 64 detail, 0, 0, 0, 0, 0, 0]).2, ?_⟩
  rw [sysEvent_eq]
  dsimp only
  rw [h]

theorem eventCame (s : State) (event port detail : Nat) : EventCame s (s.sysEvent event port detail) event port detail := ⟨rfl, rfl⟩

/-- A record to a reclamation ring leaves the tables of tasks and the timer wheel. -/
theorem reclaimRing_frame (s : State) (die : Nat) (ws : List W64) :
    ∃ o f m wl ix, s.reclaimRing die ws
      = State.modDie { s with owners := o, free := f, mem := m, wlog := wl } die fun d => { d with ridx := ix } := by
  obtain ⟨o, f, m, wl, h⟩ := ringRecord_frame s (s.dieAt die).rring (s.dieAt die).ridx ws
  refine ⟨o, f, m, wl, (s.ringRecord (s.dieAt die).rring (s.dieAt die).ridx ws).2, ?_⟩
  rw [reclaimRing_eq]
  dsimp only
  rw [h]

/-! ### Boot, the watchdog, sensors, the mailbox out of reach (R330, R336, R420, R421) -/

theorem boots (hh : s.mgmt.held = true) (hr : s.mgmt.recovery = false) :
    ∃ t, exec .boot s = .next t
      ∧ (∀ s1, s.loadStages = some s1 → t.mgmt.held = false ∧ t.mgmt.since = s1.clock ∧ t.mgmt.stages = s1.mgmt.stages
          ∧ t.cells = s1.cells ∧ t.mem = s1.mem)
      ∧ (s.loadStages = none → t = { s with mgmt := { s.mgmt with recovery := true } }) := by
  have hgo : ¬ (!s.mgmt.held || s.mgmt.recovery) = true := by simp [hh, hr]
  show ∃ t, execBoot s = .next t ∧ _
  unfold execBoot
  rw [if_neg hgo]
  cases hl : s.loadStages with
  | some s1 =>
    refine ⟨_, rfl, fun s2 h => ?_, fun h => by cases h⟩
    cases h
    exact ⟨rfl, rfl, rfl, rfl, rfl⟩
  | none => exact ⟨_, rfl, fun _ h => (by cases h), fun _ => rfl⟩

theorem watchdogKicks (s : State) (v : W64) : ∃ t, exec (.watchdogKick v) s = .next t
    ∧ t.mgmt.period = (if 1 ≤ v.toNat / 2 ^ 48 ∧ v.toNat / 2 ^ 48 ≤ 60000 then v.toNat / 2 ^ 48 else s.mgmt.period)
    ∧ t.mgmt.since = (if v.getLsbD 47 then s.clock else s.mgmt.since)
    ∧ t = { s with mgmt := { s.mgmt with period := t.mgmt.period, since := t.mgmt.since } } := by
  have hf : fld v 63 48 = v.toNat / 2 ^ 48 := by
    have := v.isLt
    rw [fld, Nat.mod_eq_of_lt (by omega)]
  refine ⟨_, rfl, ?_, rfl, rfl⟩
  show (if (decide (1 ≤ fld v 63 48) && decide (fld v 63 48 ≤ 60000)) = true then fld v 63 48 else s.mgmt.period) = _
  rw [hf]
  simp only [Bool.and_eq_true, decide_eq_true_eq]

theorem dogDue_iff (hf : s.fwUp = true) : s.dogDue = true ↔ DogDue s := by
  unfold State.dogDue DogDue
  rw [hf, Bool.true_and, Bool.or_eq_true, decide_eq_true_eq, List.any_eq_true]
  simp only [Bool.or_eq_true, beq_iff_eq]
  rfl

theorem watchdogExpiry_of_not (hf : s.fwUp = true) (h : ¬ DogDue s) : exec .watchdogExpiry s = .next s := by
  have hd : s.dogDue = false := by
    rw [← Bool.not_eq_true, dogDue_iff hf]
    exact h
  show Host.Outcome.next s.dogBite = _
  rw [State.dogBite, hd]
  rfl

theorem watchdogExpires (hf : s.fwUp = true) (h : DogDue s) : ∃ t, exec .watchdogExpiry s = .next t
    ∧ t = { s with mgmt := { s.mgmt with restarting := true, loading := none, restarts := min (s.mgmt.restarts + 1) 0xFFFF,
                                         cores := List.replicate 8 {} } } := by
  refine ⟨_, rfl, ?_⟩
  rw [State.dogBite, (dogDue_iff hf).2 h]
  rfl

theorem sensorsRefresh (s : State) (vals : List W32) (h : vals.length = 8) : ∃ t, exec (.sensorRefresh vals) s = .next t
    ∧ t = { s with mgmt := { s.mgmt with sensors := vals } } := by
  have hv : ((List.range 8).map fun k => vals.getD k 0) = vals := by
    refine List.ext_getElem (by simp [h]) fun k h1 h2 => ?_
    rw [List.getElem_map, List.getElem_range, List.getD_eq_getElem _ _ h2]
  refine ⟨_, rfl, ?_⟩
  show { s with mgmt := { s.mgmt with sensors := (List.range 8).map fun k => vals.getD k 0 } } = _
  rw [hv]

theorem hostMail_closed (h : s.mgmt.sideAt = s.clock + 1 ∨ s.link = false ∨ (Tbl.get {} s.pcie 0).bar0 = none) (tag : BitVec 16) :
    exec (.version .host tag) s = .next s := by
  have hc : (Master.host == Master.host && (!s.link || (Tbl.get {} s.pcie 0).bar0.isNone || decide (s.mgmt.sideAt = s.clock + 1))) = true := by
    rcases h with h | h | h <;> simp [h]
  show execVersion .host tag s = _
  unfold execVersion onMail
  rw [if_pos hc]

end

/-! ### Block grants (R112, R333) -/

section
variable {s t : State}

/-- With no page out of quarantine, no block returns to its pool. -/
theorem returnBlocks_of_noneDue (h : NoneDue s) : s.returnBlocks = s := by
  have h1 : (s.mgmt.limbo.filter fun e => decide (e.2.2 ≤ s.qdone)) = [] :=
    List.filter_eq_nil_iff.2 fun e he => by simpa using h e he
  have h2 : (s.mgmt.limbo.filter fun e => !decide (e.2.2 ≤ s.qdone)) = s.mgmt.limbo :=
    List.filter_eq_self.2 fun e he => by simpa using h e he
  unfold State.returnBlocks State.modMgmt
  dsimp only
  rw [h1, h2]
  rfl

theorem sectorAsid_running {k n : Nat} {x : Net} (hu : (s.sectorAt k).use = .running n) (hn : Tbl.find s.nets n = some x) :
    s.sectorAsid k = some x.asid := by
  unfold State.sectorAsid State.regionOf
  rw [hu]
  dsimp only [Option.bind]
  rw [hn]
  rfl

theorem appendBlock_blocks {k : Nat} (b : W32) (h : (s.sectorAt k).blocks.length < 16) :
    ((s.appendBlock k b).sectorAt k).blocks = (s.sectorAt k).blocks ++ [b.setWidth 28] := by
  rw [State.appendBlock, State.sectorAt_modSector, if_pos rfl]
  exact if_pos h

theorem blockAppends (hd : NoneDue s) (hf : s.fwUp = true) {k n : Nat} {x : Net} (hu : (s.sectorAt k).use = .running n)
    (hn : Tbl.find s.nets n = some x) (b : W32) (hb : b.setWidth 28 ∈ Tbl.get [] s.mgmt.pools x.asid) (hl : (s.sectorAt k).blocks.length < 16) :
    ∃ t, exec (.blockAppend k b) s = .next t ∧ (t.sectorAt k).blocks = (s.sectorAt k).blocks ++ [b.setWidth 28]
      ∧ Tbl.get [] t.mgmt.pools x.asid = (Tbl.get [] s.mgmt.pools x.asid).erase (b.setWidth 28) ∧ t.mem = s.mem ∧ t.cells = s.cells := by
  have hexec : exec (.blockAppend k b) s
      = .next ((s.appendBlock k b).setBlockPool x.asid ((s.blockPool x.asid).erase (b.setWidth 28))) := by
    have hgo : ¬ (!s.fwUp || !(s.blockPool x.asid).contains (b.setWidth 28)) = true := by
      rw [hf, show (s.blockPool x.asid).contains (b.setWidth 28) = true from List.contains_iff_mem.2 hb]
      decide
    show execBlockAppend k b s = _
    unfold execBlockAppend
    rw [returnBlocks_of_noneDue hd]
    dsimp only
    rw [sectorAsid_running hu hn]
    dsimp only
    rw [if_neg hgo, if_neg (Nat.not_le.2 hl)]
  exact ⟨_, hexec, appendBlock_blocks b hl, Tbl.get_put_self .., rfl, rfl⟩

theorem setWidth_28_32 (b : BitVec 28) : (b.setWidth 32).setWidth 28 = b := by
  have := b.isLt
  apply BitVec.eq_of_toNat_eq
  rw [BitVec.toNat_setWidth, BitVec.toNat_setWidth]
  omega

/-- Grants appended one after another, as far as the cache has room for them all. -/
theorem foldl_appendBlock {k : Nat} {l : List (BitVec 28)} (h : (s.sectorAt k).blocks.length + l.length ≤ 16) :
    ((l.foldl (fun s b => s.appendBlock k (b.setWidth 32)) s).sectorAt k).blocks = (s.sectorAt k).blocks ++ l
    ∧ ∃ x, l.foldl (fun s b => s.appendBlock k (b.setWidth 32)) s = { s with sectors := x } := by
  induction l generalizing s with
  | nil => exact ⟨(List.append_nil _).symm, s.sectors, rfl⟩
  | cons b l ih =>
    rw [List.length_cons] at h
    have hb := appendBlock_blocks (s := s) (b.setWidth 32) (show (s.sectorAt k).blocks.length < 16 by omega)
    rw [setWidth_28_32] at hb
    obtain ⟨h1, x, h2⟩ := ih (s := s.appendBlock k (b.setWidth 32)) (by rw [hb, List.length_append]; exact Nat.le_trans (Nat.le_of_eq (by simp; omega)) h)
    rw [List.foldl_cons, h1, hb, List.append_assoc]
    exact ⟨rfl, x, h2⟩

theorem blockCacheRefills (hd : NoneDue s) (hf : s.fwUp = true) {k n : Nat} {x : Net} (hu : (s.sectorAt k).use = .running n)
    (hn : Tbl.find s.nets n = some x) (hk : s.mgmt.refills.head? = some k) (hl : (s.sectorAt k).blocks.length ≤ 16) :
    let pool := Tbl.get [] s.mgmt.pools x.asid
    let room := 16 - (s.sectorAt k).blocks.length
    ∃ t, exec (.blockCacheRefill k) s = .next t
      ∧ (t.sectorAt k).blocks = (s.sectorAt k).blocks ++ pool.take room
      ∧ Tbl.get [] t.mgmt.pools x.asid = pool.drop room ∧ t.mgmt.refills = s.mgmt.refills.drop 1 ∧ t.mem = s.mem ∧ t.cells = s.cells := by
  intro pool room
  obtain ⟨u, hu'⟩ : ∃ u, u = s.modMgmt fun g => { g with refills := g.refills.drop 1 } := ⟨_, rfl⟩
  have hud : NoneDue u := hu' ▸ hd
  have hsec : u.sectorAt k = s.sectorAt k := hu' ▸ rfl
  have hpool : u.blockPool x.asid = pool := hu' ▸ rfl
  have hasid : u.sectorAsid k = some x.asid := sectorAsid_running (n := n) (by rw [hsec]; exact hu) (by rw [hu']; exact hn)
  have hexec : exec (.blockCacheRefill k) s
      = .next (((pool.take room).foldl (fun s b => s.appendBlock k (b.setWidth 32)) u).setBlockPool x.asid (pool.drop room)) := by
    have hgo : ¬ (!s.fwUp || decide (s.mgmt.refills.head? ≠ some k)) = true := by
      rw [hf, hk]
      simp
    show execBlockCacheRefill k s = _
    unfold execBlockCacheRefill
    rw [if_neg hgo, ← hu']
    dsimp only
    rw [returnBlocks_of_noneDue hud, hasid]
    dsimp only
    rw [hpool, hsec]
  obtain ⟨h1, y, h2⟩ := foldl_appendBlock (s := u) (k := k) (l := pool.take room) (by
    rw [hsec, List.length_take]
    show _ + min (16 - (s.sectorAt k).blocks.length) _ ≤ 16
    omega)
  refine ⟨_, hexec, ?_, Tbl.get_put_self .., ?_, ?_, ?_⟩
  · exact h1.trans (by rw [hsec])
  all_goals
    rw [h2, hu']
    rfl

end

/-! ### Timer releases (R344) -/

section
variable {s t r : State}

theorem dueTimer_of_due {k : Nat} {now : W64} {x : Timer} (h : Due s k now x) : s.dueTimer k now = some x := by
  obtain ⟨h1, h2, h3⟩ := h
  have hno : (decide (now.toNat < x.time.toNat) || (s.wheel.take k).any fun u => u.time == x.time) = false := by
    rw [Bool.or_eq_false_iff, decide_eq_false_iff_not, List.any_eq_false]
    exact ⟨Nat.not_lt.2 h2, fun u hu => by simpa using h3 u hu⟩
  unfold State.dueTimer
  rw [h1]
  dsimp only
  rw [hno]
  rfl

theorem top_bits (w : W64) (lo : Nat) (h : lo ≤ 63) : fld w 63 lo = w.toNat / 2 ^ lo := by
  have hw := w.isLt
  rw [fld, Nat.mod_eq_of_lt]
  rw [Nat.div_lt_iff_lt_mul (Nat.two_pow_pos _), ← Nat.pow_add]
  exact Nat.lt_of_lt_of_le hw (Nat.pow_le_pow_right (by decide) (by omega))

theorem timerTokens {k : Nat} {now : W64} {x : Timer} (hd : Due s k now x) (hw : x.word.getLsbD 48 = false) :
    (s.regionOf (cellSector (timerCell x.word)) = some x.net →
      ∃ t, exec (.timerTokenRelease k now) s = .next t
        ∧ t = { s with wheel := s.wheel.eraseIdx k, flights := s.flights ++ [⟨2 ^ 49, timerCell x.word, timerPlace x.word,
                  .tokens (x.word.toNat / 2 ^ 52), x.net, s.clock, false, false, none⟩] })
    ∧ (s.regionOf (cellSector (timerCell x.word)) ≠ some x.net →
      ∃ t, exec (.timerTokenRelease k now) s = .next t ∧ t = { s with wheel := s.wheel.eraseIdx k }) := by
  have hexec : exec (.timerTokenRelease k now) s = if (s.dropTimer k).regionOf (cellSector (timerCell x.word)) = some x.net then
      .next ((s.dropTimer k).send timerUnit (timerCell x.word) (timerPlace x.word) x.net (.tokens (fld x.word 63 52)))
    else .next (s.dropTimer k) := by
    show execTimerTokenRelease k now s = _
    unfold execTimerTokenRelease
    rw [dueTimer_of_due hd]
    dsimp only
    rw [hw]
    rfl
  rw [top_bits x.word 52 (by decide)] at hexec
  exact ⟨fun h => ⟨_, hexec.trans (if_pos h), rfl⟩, fun h => ⟨_, hexec.trans (if_neg h), rfl⟩⟩

/-! #### The tasks' records that a settling of the table keeps (R270, R274) -/

/-- The timer wheel stands, and every task keeps the mark of its release. -/
structure KeepsReld (s t : State) : Prop where
  wheel : t.wheel = s.wheel
  reld  : ∀ die k, (t.taskAt die k).reld = (s.taskAt die k).reld

namespace KeepsReld

theorem refl (s : State) : KeepsReld s s := ⟨rfl, fun _ _ => rfl⟩
theorem trans (h : KeepsReld s t) (h' : KeepsReld t r) : KeepsReld s r :=
  ⟨h'.wheel.trans h.wheel, fun die k => (h'.reld die k).trans (h.reld die k)⟩
theorem of_dies (h : t.dies = s.dies) (hw : t.wheel = s.wheel) : KeepsReld s t :=
  ⟨hw, fun die k => by simp only [State.taskAt, State.dieAt, h]⟩
theorem modDie (s : State) (die : Nat) {f : Die → Die}
    (hf : ∀ d k, (Tbl.get ({} : Task) (f d).tasks k).reld = (Tbl.get ({} : Task) d.tasks k).reld) : KeepsReld s (s.modDie die f) := by
  refine ⟨rfl, fun d k => ?_⟩
  have hget : (s.modDie die f).dieAt d = if d = die then f (s.dieAt die) else s.dieAt d := by
    simp only [State.dieAt, State.modDie, State.setDie, Tbl.get_put]
  rw [State.taskAt, hget]
  split
  · rename_i h
    subst h
    exact hf _ k
  · rfl
theorem modTask (s : State) (die k : Nat) {f : Task → Task} (hf : ∀ x, (f x).reld = x.reld) : KeepsReld s (s.modTask die k f) :=
  .modDie s die fun d j => by
    dsimp only
    rw [Tbl.get_put]
    split
    · rename_i h
      rw [hf, h]
    · rfl
theorem modSector (s : State) (k : Nat) (f : Sector → Sector) : KeepsReld s (s.modSector k f) := .of_dies rfl rfl

theorem setFuture (s : State) (k f : Nat) (x : Future) : KeepsReld s (s.setFuture k f x) := .of_dies rfl rfl

end KeepsReld

theorem keeps_reclaimRing (s : State) (die : Nat) (ws : List W64) : KeepsReld s (s.reclaimRing die ws) := by
  obtain ⟨o, f, m, wl, ix, h⟩ := reclaimRing_frame s die ws
  rw [h]
  exact KeepsReld.trans (t := { s with owners := o, free := f, mem := m, wlog := wl }) (.of_dies rfl rfl) (.modDie _ die (by intros; rfl))

theorem keeps_leaveTable (s : State) (die k : Nat) : KeepsReld s (s.leaveTable die k) := .modDie s die fun d j => by
  dsimp only
  rw [Tbl.get_mapV _ _ _ _ (by rfl), Tbl.get_put]
  split
  · rename_i h
    rw [h]
  · rfl

theorem keeps_reclaimed (s : State) (k f : Nat) (t : Task) (task cause tiles child : Nat) :
    KeepsReld s (s.reclaimed k f t task cause tiles child) := keeps_reclaimRing s _ _

theorem keeps_lastGone (s : State) (k f cause : Nat) : KeepsReld s (s.lastGone k f cause).1 := by
  unfold State.lastGone
  dsimp only
  split
  · exact .setFuture s k f _
  · split
    · refine KeepsReld.trans (.setFuture s k f { s.futureAt k f with st := 3 }) ?_
      dsimp only
      exact .modTask _ _ _ (by intro; rfl)
    · split
      · split
        · exact (keeps_reclaimed s k f {} 0 cause 0 0).trans (.setFuture _ k f _)
        · refine ((keeps_leaveTable s (sectorDie k) (s.futureAt k f).task).trans (keeps_reclaimed _ k f
            (s.taskAt (sectorDie k) (s.futureAt k f).task) (s.futureAt k f).task cause 0 0)).trans ?_
          dsimp only
          exact .modSector _ k _
      · exact .refl s

theorem keeps_dropRefs (s : State) (fuel : Nat) (l : List (Nat × Nat × Nat)) : KeepsReld s (s.dropRefs fuel l) := by
  induction fuel generalizing s l with
  | zero => cases l <;> exact .refl s
  | succ fuel ih =>
    cases l with
    | nil => exact .refl s
    | cons e rest =>
      obtain ⟨k, f, cause⟩ := e
      have h1 : KeepsReld s (s.setFuture k f { s.futureAt k f with ref := (s.futureAt k f).ref - 1 }) := .setFuture s k f _
      rw [State.dropRefs]
      dsimp only
      split
      · exact (h1.trans (keeps_lastGone _ k f cause)).trans (ih _ _)
      · exact h1.trans (ih _ _)

theorem keeps_dropOwn (s : State) (die k : Nat) : KeepsReld s (s.dropOwn die k) := by
  unfold State.dropOwn
  dsimp only
  split
  · exact .refl s
  · have h1 : KeepsReld s (s.modTask die k fun t => { t with fheld := false }) := .modTask s die k (by intro; rfl)
    split
    · exact h1.trans (keeps_dropRefs _ _ _)
    · exact h1

theorem keeps_refreshTasks (s : State) (die fuel : Nat) : KeepsReld s (s.refreshTasks die fuel) := by
  induction fuel generalizing s with
  | zero => exact .refl s
  | succ fuel ih =>
    rw [State.refreshTasks]
    split
    · exact .refl s
    · rename_i k t _
      dsimp only
      refine KeepsReld.trans ?_ (ih _)
      split
      · refine KeepsReld.trans (t := s.modTask die k fun t => { t with held := some s.postN, heldAt := s.clock }) ?_ (.of_dies rfl rfl)
        exact .modTask s die k (by intro; rfl)
      · refine KeepsReld.trans (t := (s.modTask die k fun t => { t with st := 1, ready := some s.postN }).dropOwn die k) ?_ (.of_dies rfl rfl)
        exact KeepsReld.trans (.modTask s die k (by intro; rfl)) (keeps_dropOwn _ die k)

theorem keeps_settleTasks (s : State) (die : Nat) : KeepsReld s (s.settleTasks die) := keeps_refreshTasks s die _

theorem taskTimeReleases {k : Nat} {now : W64} {x : Timer} (hd : Due s k now x) :
    let die := x.word.toNat / 2 ^ 46 % 2 ^ 2
    let e := x.word.toNat % 2 ^ 12
    x.word.getLsbD 48 = true → (s.taskAt die e).v = true → (s.taskAt die e).gen % 4096 = x.word.toNat / 2 ^ 12 % 2 ^ 12 →
      ∃ t, exec (.taskTimeRelease k now) s = .next t ∧ t.wheel = s.wheel.eraseIdx k ∧ (t.taskAt die e).reld = true := by
  intro die e hw hv hg
  have hdie : fld x.word 47 46 = die := rfl
  have he : fld x.word 11 0 = e := by rw [fld, Nat.pow_zero, Nat.div_one]
  have hgen : fld x.word 23 12 = x.word.toNat / 2 ^ 12 % 2 ^ 12 := rfl
  have hexec : exec (.taskTimeRelease k now) s
      = .next (((s.dropTimer k).modTask die e fun y => { y with reld := true }).settleTasks die) := by
    show execTaskTimeRelease k now s = _
    unfold execTaskTimeRelease
    rw [dueTimer_of_due hd]
    dsimp only
    rw [hw, hdie, he, hgen]
    have hok : (((s.dropTimer k).taskAt die e).v && ((s.dropTimer k).taskAt die e).gen % 4096 == x.word.toNat / 2 ^ 12 % 2 ^ 12) = true := by
      rw [Bool.and_eq_true, beq_iff_eq]
      exact ⟨hv, hg⟩
    rw [if_neg (by decide), if_pos hok]
  have hkeep := keeps_settleTasks ((s.dropTimer k).modTask die e fun y => { y with reld := true }) die
  refine ⟨_, hexec, hkeep.wheel, ?_⟩
  rw [hkeep.reld]
  simp [State.taskAt, State.modTask, State.modDie, State.setDie, State.dieAt, Tbl.get_put]

end

/-! ### Attestation (R339, R423) -/

/-- The measurements that evidence returns for a mask. -/
def measured (s : State) (mask : Nat) : List (Nat × BitVec 512) :=
  (List.range 6).filterMap fun i => if mask / 2 ^ i % 2 = 1 then (s.measurement i).map fun d => (i, d) else none

section
variable {s t : State} {standard vendor : Nat} {payload : List Byte}

theorem picked_iff (s : State) (mask i : Nat) (x : Nat × BitVec 512) :
    (if mask / 2 ^ i % 2 = 1 then (s.measurement i).map fun d => (i, d) else none) = some x
      ↔ mask / 2 ^ i % 2 = 1 ∧ s.measurement i = some x.2 ∧ x.1 = i := by
  obtain ⟨j, d⟩ := x
  by_cases h : mask / 2 ^ i % 2 = 1
  · simp only [h, if_true, Option.map_eq_some_iff, Prod.mk.injEq, true_and]
    constructor
    · rintro ⟨e, he, rfl, rfl⟩
      exact ⟨he, rfl⟩
    · rintro ⟨he, rfl⟩
      exact ⟨d, he, rfl, rfl⟩
  · simp [h]

theorem mem_measured (mask i : Nat) (d : BitVec 512) :
    (i, d) ∈ measured s mask ↔ i < 6 ∧ mask / 2 ^ i % 2 = 1 ∧ s.measurement i = some d := by
  unfold measured
  rw [List.mem_filterMap]
  simp only [picked_iff, List.mem_range]
  constructor
  · rintro ⟨j, hj, hm, hd, rfl⟩
    exact ⟨hj, hm, hd⟩
  · rintro ⟨hj, hm, hd⟩
    exact ⟨i, hj, hm, hd, rfl⟩

theorem measured_pairwise (s : State) (mask : Nat) : (measured s mask).Pairwise fun a b => a.1 < b.1 := by
  unfold measured
  rw [List.pairwise_filterMap]
  refine List.pairwise_lt_range.imp fun {i j} hij b hb b' hb' => ?_
  rw [((picked_iff s mask i b).1 hb).2.2, ((picked_iff s mask j b').1 hb').2.2]
  exact hij

/-- The bytes of evidence: what is returned, and the signature over it. -/
def evidenceBytes (s : State) (nonce : List Byte) (mask : Nat) : List Byte :=
  let head := toBytes 8 ((measured s mask).map fun m => 2 ^ m.1).sum
  let digests := (measured s mask).flatMap fun m => toBytes 64 m.2.toNat
  head ++ digests ++ Xmss.sign Config.identitySeed Config.identityRandom Config.identitySecret 20 s.mgmt.sigs
    (Shake.shake256 (nonce ++ head ++ digests) 64)

theorem evidenceOf_bytes (s : State) (nonce : List Byte) (mask : Nat) : EvidenceOf s nonce mask (evidenceBytes s nonce mask) := by
  refine ⟨measured s mask, fun i => ?_, fun i d h => ((mem_measured mask i d).1 h).2.2, measured_pairwise s mask, ?_⟩
  case refine_2 =>
    unfold evidenceBytes
    dsimp only
    rw [List.append_assoc nonce]
  simp only [mem_measured, exists_and_left, ← Option.isSome_iff_exists, Option.isSome_iff_ne_none]

/-- The state once evidence has gone out, before the event of the last indices. -/
def evidenceSent (s : State) (nonce : List Byte) (mask : Nat) : State :=
  { s with outbox := s.outbox ++ [.spdm (.evidence (evidenceBytes s nonce mask))], mgmt := { s.mgmt with sigs := s.mgmt.sigs + 1 } }

theorem evidence_eq (nonce : List Byte) (mask : Nat) (h : s.mgmt.sigs < 2 ^ 20) :
    s.evidence nonce mask = if s.mgmt.sigs + 1025 = 2 ^ 20 then (evidenceSent s nonce mask).sysEvent 8 0 1024 else evidenceSent s nonce mask := by
  unfold State.evidence
  rw [if_neg (by omega)]
  show (if 2 ^ 20 - (s.mgmt.sigs + 1) = 1024 then (evidenceSent s nonce mask).sysEvent 8 0 (2 ^ 20 - (s.mgmt.sigs + 1))
    else evidenceSent s nonce mask) = _
  by_cases hl : s.mgmt.sigs + 1025 = 2 ^ 20
  · rw [if_pos hl, if_pos (by omega), show 2 ^ 20 - (s.mgmt.sigs + 1) = 1024 by omega]
  · rw [if_neg hl, if_neg (by omega)]

theorem evidenceGoesOut (nonce : List Byte) (mask : Nat) (h : s.mgmt.sigs < 2 ^ 20) :
    ∃ t e, s.evidence nonce mask = t ∧ t.outbox = s.outbox ++ [.spdm (.evidence e)] ∧ EvidenceOf s nonce mask e
      ∧ t.mgmt.sigs = s.mgmt.sigs + 1
      ∧ (s.mgmt.sigs + 1025 ≠ 2 ^ 20 → t = { s with outbox := t.outbox, mgmt := { s.mgmt with sigs := s.mgmt.sigs + 1 } })
      ∧ (s.mgmt.sigs + 1025 = 2 ^ 20 → EventCame { s with outbox := t.outbox, mgmt := t.mgmt } t 8 0 1024) := by
  rw [evidence_eq nonce mask h]
  refine ⟨_, evidenceBytes s nonce mask, rfl, ?_⟩
  by_cases hl : s.mgmt.sigs + 1025 = 2 ^ 20
  · rw [if_pos hl]
    obtain ⟨o, f, m, wl, ix, hf⟩ := sysEvent_frame (evidenceSent s nonce mask) 8 0 1024
    have hout : ((evidenceSent s nonce mask).sysEvent 8 0 1024).outbox = (evidenceSent s nonce mask).outbox := (congrArg State.outbox hf :)
    have hmgmt : ((evidenceSent s nonce mask).sysEvent 8 0 1024).mgmt = (evidenceSent s nonce mask).mgmt := (congrArg State.mgmt hf :)
    refine ⟨hout, evidenceOf_bytes s nonce mask, congrArg Mgmt.sigs hmgmt, fun hn => absurd hl hn, fun _ => ?_⟩
    rw [hout, hmgmt]
    exact eventCame (evidenceSent s nonce mask) 8 0 1024
  · rw [if_neg hl]
    exact ⟨rfl, evidenceOf_bytes s nonce mask, rfl, fun _ => rfl, fun h' => absurd h' hl⟩

theorem onSpdm_up (h : s.mgmt.restarting = false) (f : State → State) : s.onSpdm f = f s := by
  unfold State.onSpdm
  rw [h]
  rfl

/-- A vendor-defined request while the cores run. -/
theorem exec_vendor (h : s.mgmt.restarting = false) : exec (.vendorDefinedRequest ⟨standard, vendor, payload⟩) s
    = .next (if (decide (standard ≠ 3) || decide (vendor ≠ s.vendorId)) = true then s.spdm (.error .unsupportedRequest)
        else if (decide (payload.length ≠ 41) || decide (payload.head? ≠ some 1)) = true then s.spdm (.error .invalidRequest)
        else s.evidence ((payload.drop 1).take 32) (ofBytes (payload.drop 33))) := by
  show Host.Outcome.next (s.onSpdm _) = _
  rw [onSpdm_up h]

theorem vendorRequests (h : s.mgmt.restarting = false) (standard vendor : Nat) (payload : List Byte) :
    (standard ≠ 3 ∨ vendor ≠ s.vendorId →
      ∃ t, exec (.vendorDefinedRequest ⟨standard, vendor, payload⟩) s = .next t
        ∧ t = { s with outbox := s.outbox ++ [.spdm (.error .unsupportedRequest)] })
    ∧ (standard = 3 → vendor = s.vendorId → (payload.length ≠ 41 ∨ payload.head? ≠ some 1) →
      ∃ t, exec (.vendorDefinedRequest ⟨standard, vendor, payload⟩) s = .next t
        ∧ t = { s with outbox := s.outbox ++ [.spdm (.error .invalidRequest)] })
    ∧ (standard = 3 → vendor = s.vendorId → payload.length = 41 → payload.head? = some 1 → s.mgmt.sigs < 2 ^ 20 →
      ∃ t e, exec (.vendorDefinedRequest ⟨standard, vendor, payload⟩) s = .next t ∧ t.outbox = s.outbox ++ [.spdm (.evidence e)]
        ∧ EvidenceOf s ((payload.drop 1).take 32) (ofBytes (payload.drop 33)) e ∧ t.mgmt.sigs = s.mgmt.sigs + 1
        ∧ (s.mgmt.sigs + 1025 ≠ 2 ^ 20 → t = { s with outbox := t.outbox, mgmt := { s.mgmt with sigs := s.mgmt.sigs + 1 } })
        ∧ (s.mgmt.sigs + 1025 = 2 ^ 20 → EventCame { s with outbox := t.outbox, mgmt := t.mgmt } t 8 0 1024))
    ∧ (standard = 3 → vendor = s.vendorId → payload.length = 41 → payload.head? = some 1 → 2 ^ 20 ≤ s.mgmt.sigs →
      ∃ t, exec (.vendorDefinedRequest ⟨standard, vendor, payload⟩) s = .next t
        ∧ t = { s with outbox := s.outbox ++ [.spdm (.error (.vendorDefined 0xFF [0x01]))] }) := by
  have known {standard vendor : Nat} (h3 : standard = 3) (hv : vendor = s.vendorId) :
      ¬ (decide (standard ≠ 3) || decide (vendor ≠ s.vendorId)) = true := by simp [h3, hv]
  have formed {payload : List Byte} (h41 : payload.length = 41) (h1 : payload.head? = some 1) :
      ¬ (decide (payload.length ≠ 41) || decide (payload.head? ≠ some 1)) = true := by simp [h41, h1]
  refine ⟨fun hn => ⟨_, exec_vendor h, ?_⟩, fun h3 hv hn => ⟨_, exec_vendor h, ?_⟩, fun h3 hv h41 h1 hs => ?_,
    fun h3 hv h41 h1 hs => ⟨_, exec_vendor h, ?_⟩⟩
  · rw [if_pos (by simpa using hn)]
    rfl
  · rw [if_neg (known h3 hv), if_pos (by simpa using hn)]
    rfl
  · obtain ⟨t, e, ht, hrest⟩ := evidenceGoesOut ((payload.drop 1).take 32) (ofBytes (payload.drop 33)) hs
    refine ⟨t, e, ?_, hrest⟩
    rw [exec_vendor h, if_neg (known h3 hv), if_neg (formed h41 h1), ht]
  · rw [if_neg (known h3 hv), if_neg (formed h41 h1)]
    unfold State.evidence
    rw [if_pos hs]
    rfl

end

/-! ### Plug-ins (R331, R422) -/

section
variable {s t : State}

theorem overdue_iff (c : CoreSt) (clock : Nat) :
    c.overdue clock = true ↔ c.trap = some .u ∨ ∃ k, c.asked = some k ∧ k + 20000000 ≤ clock := by
  unfold CoreSt.overdue
  rw [Bool.or_eq_true, beq_iff_eq, Option.any_eq_true]
  simp only [decide_eq_true_eq]
  rfl

theorem pluginDue_iff (hf : s.fwUp = true) (slot : Nat) : s.pluginDue slot = true ↔ StopDue s slot := by
  unfold State.pluginDue StopDue
  simp only [hf, Bool.true_and, Bool.and_eq_true, decide_eq_true_eq, Bool.not_eq_true', List.any_eq_true, beq_iff_eq, overdue_iff,
    List.contains_eq_mem, decide_eq_false_iff_not, and_assoc]

theorem pluginStop_of_not (hf : s.fwUp = true) {slot : Nat} (h : ¬ StopDue s slot) : exec (.pluginStop slot) s = .next s := by
  have hd : s.pluginDue slot = false := by
    rw [← Bool.not_eq_true, pluginDue_iff hf]
    exact h
  show Host.Outcome.next (s.stopPlugin slot) = _
  rw [State.stopPlugin, hd]
  rfl

theorem clear_stopped {c : CoreSt} {slot : Nat} (h : c.plugin = some slot) :
    (c.clear slot).mode = .s ∧ (c.clear slot).plugin = none ∧ (c.clear slot).trap = none ∧ (c.clear slot).asked = none := by
  rw [CoreSt.clear, if_pos h]
  exact ⟨rfl, rfl, rfl, rfl⟩

theorem pluginStops (hf : s.fwUp = true) {slot : Nat} (h : StopDue s slot) : ∃ t, exec (.pluginStop slot) s = .next t
    ∧ t.mgmt.stopped = s.mgmt.stopped ++ [slot] ∧ EventCame { s with mgmt := t.mgmt } t 4 0 (slot * 2 ^ 58) ∧ t.cells = s.cells
    ∧ t.dies = s.dies ∧ t.mgmt.policy = s.mgmt.policy
    ∧ (∀ (k : Nat) (c : CoreSt), s.mgmt.cores[k]? = some c → ∃ d : CoreSt, t.mgmt.cores[k]? = some d
        ∧ (c.plugin = some slot → d.mode = .s ∧ d.plugin = none ∧ d.trap = none ∧ d.asked = none)
        ∧ (c.plugin ≠ some slot → d = c)) := by
  obtain ⟨u, hu⟩ : ∃ u, u = s.modMgmt fun g =>
      { g with stopped := g.stopped ++ [slot], cores := g.cores.map fun c => c.clear slot } := ⟨_, rfl⟩
  have hexec : exec (.pluginStop slot) s = .next (u.sysEvent 4 0 (slot * 2 ^ 58)) := by
    show Host.Outcome.next (s.stopPlugin slot) = _
    rw [State.stopPlugin, (pluginDue_iff hf slot).2 h, hu]
    rfl
  obtain ⟨o, f, m, wl, ix, hev⟩ := sysEvent_frame u 4 0 (slot * 2 ^ 58)
  have hmgmt : (u.sysEvent 4 0 (slot * 2 ^ 58)).mgmt = u.mgmt := (congrArg State.mgmt hev :)
  have hsame : ({ s with mgmt := u.mgmt } : State) = u := by rw [hu]; rfl
  refine ⟨_, hexec, ?_, ?_, ?_, ?_, ?_, fun k c hc => ⟨c.clear slot, ?_, clear_stopped, fun hn => if_neg hn⟩⟩
  · rw [hmgmt, hu]
    rfl
  · rw [hmgmt, hsame]
    exact eventCame u 4 0 (slot * 2 ^ 58)
  · rw [hev, hu]
    rfl
  · rw [hev, hu]
    rfl
  · rw [hmgmt, hu]
    rfl
  · rw [hmgmt, hu]
    show (s.mgmt.cores.map fun c => c.clear slot)[k]? = _
    rw [List.getElem?_map, hc]
    rfl

theorem modify_core {core : Nat} {c : CoreSt} (h : s.mgmt.cores[core]? = some c) (f : CoreSt → CoreSt) :
    s.mgmt.cores.modify core f = s.mgmt.cores.set core (f c) := by
  rw [List.modify_eq_set_getElem?, h]
  rfl

theorem runPlugin_starts {core slot : Nat} {c : CoreSt} (h : s.mgmt.cores[core]? = some c) (h64 : slot < 64) (hs : slot ∉ s.mgmt.stopped)
    (hf : s.fwUp = true) (ht : c.trap = none) :
    ∃ d, (s.runPlugin core slot).mgmt.cores = s.mgmt.cores.set core d ∧ d.mode = .u ∧ d.plugin = some slot
      ∧ d.asked = some s.clock ∧ d.x = c.x ∧ d.f = c.f ∧ d.pc = c.pc := by
  have hgo : ¬ (decide (64 ≤ slot) || s.mgmt.stopped.contains slot || !s.fwUp) = true := by
    simp [hf, hs, Nat.not_le.2 h64]
  refine ⟨{ c with mode := .u, pmp := pmpOf (some slot), page := [], asked := some s.clock }, ?_, rfl, rfl, rfl, rfl, rfl, rfl⟩
  rw [State.runPlugin, if_neg hgo]
  refine (modify_core h _).trans ?_
  rw [ht]
  rfl

theorem runPlugin_stopped {core slot : Nat} (h : slot ∈ s.mgmt.stopped) : s.runPlugin core slot = s := by
  rw [State.runPlugin, if_pos (by simp [h])]

/-! #### A plug-in's request -/

/-- The state once the plug-in's request page is read. -/
def pageRead (s : State) (core : Nat) (page : List Byte) : State :=
  s.modMgmt fun g => { g with cores := g.cores.modify core fun c => { c with page := page.take 4096, asked := none } }

/-- The service target that a plug-in decides. -/
def targetSet (s : State) (die slot : Nat) (target : Option Nat) : State :=
  match target with
  | some n => s.modDie die fun d => { d with tenants := Tbl.put d.tenants slot { s.tenantAt die slot with target := n } }
  | none => s

/-- The image policy that a plug-in decides. -/
def policySet (s : State) (asid : Nat) (policy : Option W64) : State :=
  match policy with
  | some w => s.modMgmt fun g => { g with policy := Tbl.put g.policy asid (w &&& 0x80FF000000000000) }
  | none => s

section
variable {core slot die asid : Nat} {page : List Byte} {target : Option Nat} {policy : Option W64} {c : CoreSt}

theorem pluginCall_eq (h : s.mgmt.cores[core]? = some c) (hp : c.plugin = some slot)
    (hq : Config.requestOf (page.take 4096) = (die, asid, target, policy)) :
    s.pluginCall core page
      = if (!s.fwUp || c.trap.isSome || decide (c.mode ≠ .u) || !c.may .requestPage) = true then s
        else if (!{ c with mode := .s }.may .policies || decide (4 ≤ die) || !(s.tenantAt die slot).v || decide ((s.tenantAt die slot).asid ≠ asid)
            || target.any fun n => decide (256 ≤ n)) = true then pageRead s core page
        else policySet (targetSet (pageRead s core page) die slot target) asid policy := by
  unfold State.pluginCall
  rw [h]
  dsimp only
  rw [hp]
  dsimp only
  rw [hq]
  cases target <;> cases policy <;> rfl

theorem policySet_dies (s : State) (asid : Nat) (policy : Option W64) : (policySet s asid policy).dies = s.dies := by
  cases policy <;> rfl

theorem pluginCall_refused (h : s.mgmt.cores[core]? = some c) (hp : c.plugin = some slot)
    (hq : Config.requestOf (page.take 4096) = (die, asid, target, policy)) (ha : (s.tenantAt die slot).asid ≠ asid) :
    (s.pluginCall core page).mgmt.policy = s.mgmt.policy ∧ (s.pluginCall core page).dies = s.dies := by
  rw [pluginCall_eq h hp hq]
  split
  · exact ⟨rfl, rfl⟩
  · rw [if_pos (by simp [ha])]
    exact ⟨rfl, rfl⟩

theorem pluginCall_notUser (h : s.mgmt.cores[core]? = some c) (hp : c.plugin = some slot)
    (hq : Config.requestOf (page.take 4096) = (die, asid, target, policy)) (hm : c.mode ≠ .u) : s.pluginCall core page = s := by
  rw [pluginCall_eq h hp hq, if_pos (by simp [hm])]

theorem pluginCall_granted (h : s.mgmt.cores[core]? = some c) (hp : c.plugin = some slot)
    (hq : Config.requestOf (page.take 4096) = (die, asid, target, policy)) (hf : s.fwUp = true) (ht : c.trap = none) (hm : c.mode = .u)
    (hr : c.may .requestPage = true) (hpol : { c with mode := .s }.may .policies = true) (hd : die < 4)
    (hv : (s.tenantAt die slot).v = true) (ha : (s.tenantAt die slot).asid = asid) {n : Nat} (hn : target = some n) (h256 : n < 256) :
    ((s.pluginCall core page).tenantAt die slot).target = n := by
  rw [pluginCall_eq h hp hq, if_neg (by simp [hf, ht, hm, hr]), hn,
    if_neg (by simp [hpol, hv, ha, Nat.not_le.2 hd, Nat.not_le.2 h256])]
  simp only [State.tenantAt, State.dieAt, policySet_dies, targetSet, State.modDie, State.setDie, Tbl.get_put, if_true]

end

/-! ### The host link (R419, R420) -/

theorem hostLinkGoesDown (hl : s.link = true) : ∃ t, exec .hostLinkDown s = .next t ∧ t.link = false ∧ t.cells = s.cells
    ∧ (let lost (l : Late) : Bool := l.virt && vaHome l.addr == 9
      t.stores = s.stores.filter (fun l => !lost l)
      ∧ t.due = s.due ++ (s.stores.filter lost).map fun l => { hit := { cls := 0x0C, cause := 4, faddr := l.addr }, iss := l.iss })
    ∧ EventCame { s with link := false, stores := t.stores, due := t.due } t 1 0 0 := by
  obtain ⟨u, hu⟩ : ∃ u : State, u = { s with
      link := false, stores := s.stores.filter fun l => !(l.virt && vaHome l.addr == 9)
      due := s.due ++ (s.stores.filter fun l => l.virt && vaHome l.addr == 9).map fun l =>
        { hit := { cls := 0x0C, cause := 4, faddr := l.addr }, iss := l.iss } } := ⟨_, rfl⟩
  have hexec : exec .hostLinkDown s = .next (u.sysEvent 1 0 0) := by
    show execHostLinkDown s = _
    unfold execHostLinkDown
    rw [hl, hu]
    rfl
  obtain ⟨o, f, m, wl, ix, hev⟩ := sysEvent_frame u 1 0 0
  have hstores : (u.sysEvent 1 0 0).stores = u.stores := (congrArg State.stores hev :)
  have hdue : (u.sysEvent 1 0 0).due = u.due := (congrArg State.due hev :)
  have hsame : ({ s with link := false, stores := u.stores, due := u.due } : State) = u := by rw [hu]
  refine ⟨_, hexec, ?_, ?_, ⟨?_, ?_⟩, ?_⟩
  · rw [hev, hu]
  · rw [hev, hu]
  · rw [hstores, hu]
  · rw [hdue, hu]
  · rw [hstores, hdue, hsame]
    exact eventCame u 1 0 0

theorem hostLinkComesUp (hl : s.link = false) : ∃ t, exec .hostLinkUp s = .next t ∧ t.link = true ∧ t.pcie = []
    ∧ EventCame { s with link := true, pcie := [] } t 2 0 0 ∧ t.cells = s.cells
    ∧ ∀ q, (s.queueAt q).v = true → t.queueAt q = { s.queueAt q with rung := true } := by
  obtain ⟨u, hu⟩ : ∃ u : State, u = { s with link := true, pcie := [] } := ⟨_, rfl⟩
  obtain ⟨o, f, m, wl, ix, hev⟩ := sysEvent_frame u 2 0 0
  have hexec : exec .hostLinkUp s = .next { u.sysEvent 2 0 0 with
      queues := Tbl.mapV (fun _ q => if q.v then { q with rung := true } else q) (u.sysEvent 2 0 0).queues } := by
    show execHostLinkUp s = _
    unfold execHostLinkUp
    rw [hl, hu]
    rfl
  refine ⟨_, hexec, ?_, ?_, ?_, ?_, fun q hq => ?_⟩
  · rw [hev, hu]
  · rw [hev, hu]
  · rw [← hu]
    exact eventCame u 2 0 0
  · rw [hev, hu]
  · have hqueues : (u.sysEvent 2 0 0).queues = s.queues := (congrArg State.queues hev :).trans (by rw [hu])
    unfold State.queueAt
    dsimp only
    rw [hqueues, Tbl.get_mapV _ _ _ _ (by rfl)]
    exact if_pos hq

end

/-! ### SPDM requests (R337 to R339) -/

section
variable {s : State}

/-- The fixed answers while the cores run. -/
theorem spdmAnswers (h : s.mgmt.restarting = false) :
    (∃ t, exec .spdmGetVersion s = .next t ∧ t = { s with outbox := s.outbox ++ [.spdm .version] })
    ∧ (∃ t, exec .spdmGetCapabilities s = .next t ∧ t = { s with outbox := s.outbox ++ [.spdm .capabilities] })
    ∧ (∃ t, exec .spdmNegotiateAlgorithms s = .next t ∧ t = { s with outbox := s.outbox ++ [.spdm .algorithms] })
    ∧ ∀ c, ∃ t, exec (.spdmOtherRequest c) s = .next t ∧ t = { s with outbox := s.outbox ++ [.spdm (.error .unsupportedRequest)] } :=
  ⟨⟨_, rfl, onSpdm_up h fun s => s.spdm .version⟩, ⟨_, rfl, onSpdm_up h fun s => s.spdm .capabilities⟩,
    ⟨_, rfl, onSpdm_up h fun s => s.spdm .algorithms⟩, fun _ => ⟨_, rfl, onSpdm_up h fun s => s.spdm (.error .unsupportedRequest)⟩⟩

/-- A request while the cores restart is answered as busy. -/
theorem spdmBusy (h : s.mgmt.restarting = true) :
    ∃ t, exec .spdmGetVersion s = .next t ∧ t = { s with outbox := s.outbox ++ [.spdm (.error .busy)] } := by
  refine ⟨_, rfl, ?_⟩
  unfold State.onSpdm
  rw [h]
  rfl

end

end Sys2Proof.Laws.Management

namespace Sys2Proof
open Machine Claim Laws.MemoryAccess Laws.Management

/-- Settles O51: each part is the lemma about its event above. -/
theorem managementEventsComplete : Obligations.ManagementEventsComplete := by
  unfold Obligations.ManagementEventsComplete
  intro s
  refine ⟨boots, ?blocks, ?timers, ?spdm, spdmBusy, watchdogKicks s, watchdogExpiry_of_not, watchdogExpires,
    fun slot hf h => pluginStop_of_not hf h, fun slot hf h => pluginStops hf h, sensorsRefresh s, hostLinkGoesDown, hostLinkComesUp, ?plugins,
    hostMail_closed⟩
  case blocks =>
    intro hd hf k n x hu hn
    exact ⟨blockAppends hd hf hu hn, blockCacheRefills hd hf hu hn⟩
  case timers =>
    intro k now x hd
    exact ⟨fun hw => (timerTokens hd hw).1, fun hw => (timerTokens hd hw).2, taskTimeReleases hd⟩
  case spdm =>
    intro h
    obtain ⟨hversion, hcapabilities, halgorithms, hother⟩ := spdmAnswers h
    exact ⟨hversion, hcapabilities, halgorithms, hother, vendorRequests h⟩
  case plugins =>
    intro core slot c hc
    refine ⟨fun h64 hs hf ht => runPlugin_starts hc h64 hs hf ht, runPlugin_stopped, fun page die asid target policy hp hq =>
      ⟨pluginCall_refused hc hp hq, pluginCall_notUser hc hp hq, ?_⟩⟩
    intro hf ht hm hr hpol hd hv ha n hn h256
    exact pluginCall_granted hc hp hq hf ht hm hr hpol hd hv ha hn h256

end Sys2Proof
end
